-- ==== Sys2Proof/Word.lean ====
section
/-! DEFINITION. Octets: the one thing of this block that the manual treats as bits (frames, polls, answers). -/

namespace Sys2Proof

/-- One octet of a frame, a poll or an answer (R3, R192). -/
abbrev Octet := BitVec 8

end Sys2Proof
end

