-- ==== Sys2Proof/Syntax.lean ====
section
/-! DEFINITION. The commands of the block: one constructor of `Instr` for each row of spec/opcode_table.json. -/

namespace Sys2Proof

/-- The three serial ports (00_scope.md section 4.1). -/
inductive Port where
  | gatehouse | lane | metrology
  deriving DecidableEq, Repr

/-- The two ends of the bridge (00_scope.md section 5.5); each has a treadle and an end signal. -/
inductive BridgeEnd where
  | a | b
  deriving DecidableEq, Repr

/-- The direction a treadle reports: toward the bridge or away from it (05 section 5.1). -/
inductive AxleDir where
  | inward | outward
  deriving DecidableEq, Repr

/-- The lamps that the feedback input of an end reports lit (R75); several or none may be. -/
structure Lamps where
  red : Bool
  amber : Bool
  green : Bool
  deriving DecidableEq, Repr

/-- The regions whose checksum does not match their content at a start (R203, R204). The store's medium decides
this, so the start sequence carries it (log 11). -/
structure LostRegions where
  calibration : Bool
  audit : Bool
  visits : Bool
  tares : Bool
  tickets : Bool
  site : Bool
  evidence : Bool
  deriving DecidableEq, Repr

/-- The commands: the steps of spec/opcode_table.json, each whole and indivisible. A request carries the port on
which its good frame arrives, the frame's tag and its payload octets (R192, log 12). -/
inductive Instr where
  /-- CELL_ANSWER (R3): A complete eleven-octet answer from a load cell arrives within the reply window and ends the poll of that cell. -/
  | cellAnswer (answer : List Octet)
  /-- REPLY_WINDOW_CLOSE (R3): The 2 ms reply window of a poll closes without a reply, which ends the poll as having no reply. -/
  | replyWindowClose
  /-- ROUND_PERIOD_EXPIRY (R2): The round period timer expires and either starts the next round or marks the running round as an overrun round. -/
  | roundPeriodExpiry
  /-- TREADLE_EVENT (R82): A treadle reports an axle crossing with its direction, and the Axle Unit and the Bridge Arbiter act on it. -/
  | treadleEvent (treadle : BridgeEnd) (dir : AxleDir)
  /-- LAMP_FEEDBACK_CHANGE (R75): The lamp feedback input of an end changes, which starts or discards its feedback timer and may make LAMP_FEEDBACK absent. -/
  | lampFeedbackChange (e : BridgeEnd) (lit : Lamps)
  /-- FEEDBACK_TIMER_EXPIRY (R75): The 500 ms lamp feedback timer expires and makes LAMP_FEEDBACK present for that end. -/
  | feedbackTimerExpiry (e : BridgeEnd)
  /-- CALIBRATION_SWITCH_CHANGE (R155): A change of the calibration switch line; a withdrawal while access is OPEN closes access and may enter lockout. -/
  | calibrationSwitchChange (asserted : Bool)
  /-- SUPPLY_FALL (R209): The supply-good line falls, which starts the dip timer, sets the SUPPLY hold source and makes every block take the fall. -/
  | supplyFall
  /-- SUPPLY_RETURN (R209): The supply-good line returns within the ride-through, which discards the dip timer, clears SUPPLY and starts a new round. -/
  | supplyReturn
  /-- DIP_TIMER_EXPIRY (R209): The 50 ms dip timer expires and begins a start with cause SUPPLY_LOSS. -/
  | dipTimerExpiry
  /-- POWER_ON (R206): The part receives power with no start pending, which begins a start with cause POWER_ON. -/
  | powerOn
  /-- RESET_LINE (R206): Assertion of the reset line begins a start with cause RESET_LINE at any time. -/
  | resetLine
  /-- START_SEQUENCE (R208): Once reset is released and supply-good is asserted, the start sequence checks the regions, resets volatile state and passes control to the blocks. -/
  | startSequence (lost : LostRegions)
  /-- CAPTURE_TIMEOUT (R52): The capture timeout timer of a WAITING capture expires and refuses it with CAPTURE_TIMEOUT. -/
  | captureTimeout
  /-- GRANT_TIMER_EXPIRY (R67): The grant timer expires, so the grant is a no-show and the bridge returns to FREE. -/
  | grantTimerExpiry
  /-- QUIET_TIMER_EXPIRY (R56): The 3 s auto-capture quiet timer expires and may attempt an AUTO capture. -/
  | quietTimerExpiry
  /-- TRACKING_TIMER_EXPIRY (R44): The one-second zero tracking timer expires and may move the zero offsets of qualifying decks. -/
  | trackingTimerExpiry
  /-- TEST_POINT_TIMEOUT (R168): The timeout timer of a waiting test point expires and ends the point with CAPTURE_TIMEOUT. -/
  | testPointTimeout
  /-- POWERED_SECOND (R116): Each second of powered time advances the site clock and the ages of ageing visits. -/
  | poweredSecond
  /-- VISIT_TIMEOUT (R117): A visit's age reaches the visit timeout, so the visit is removed and VISIT_EXPIRED is queued. -/
  | visitTimeout (position : Nat)
  /-- FRAME_GAP_TIMEOUT (R193): 20 ms pass without the frame completing, so the partial frame is discarded and the receiver hunts. -/
  | frameGapTimeout (port : Port)
  /-- BAD_FRAME (R193): A frame with a length above 240 or a wrong CRC is discarded without a reply. -/
  | badFrame (port : Port)
  /-- UNKNOWN_KIND (R194): A good frame whose kind is not in the catalogue is answered NOT_PERMITTED. -/
  | unknownKind (port : Port) (kind tag : Octet) (payload : List Octet)
  /-- REPLY_SENT (R195): The last octet of a pending reply has been sent, and the port's reply slot frees. -/
  | replySent (port : Port)
  /-- RETAINED_WRITE_COMPLETE (R203): A retained write of a region completes with its new checksum. -/
  | retainedWriteComplete
  /-- COMMIT_WRITE_COMPLETE (R153): The retained write of a commit completes and queues CALIBRATION_COMMITTED. -/
  | commitWriteComplete
  /-- FETCH_NOTICE (R198): Removes and returns the oldest notice of the port's queue, or replies EMPTY. -/
  | fetchNotice (port : Port) (tag : Octet) (payload : List Octet)
  /-- SET_SITE_TIME (R199): Sets the site clock and the clock-set mark. -/
  | setSiteTime (port : Port) (tag : Octet) (payload : List Octet)
  /-- READ_SITE_TIME (R199): Returns the site clock and the clock-set mark. -/
  | readSiteTime (port : Port) (tag : Octet) (payload : List Octet)
  /-- WRITE_SITE_SETTING (R200): Writes one retained site setting. -/
  | writeSiteSetting (port : Port) (tag : Octet) (payload : List Octet)
  /-- READ_SITE_SETTINGS (R200): Returns every site setting. -/
  | readSiteSettings (port : Port) (tag : Octet) (payload : List Octet)
  /-- READ_CELL (R15): Returns the record of one cell address. -/
  | readCell (port : Port) (tag : Octet) (payload : List Octet)
  /-- READ_BUS_STATUS (R15): Returns the round index, the period, the overrun state and deck cell-validity. -/
  | readBusStatus (port : Port) (tag : Octet) (payload : List Octet)
  /-- READ_LIVE_WEIGHT (R35): Returns the live weight state word, its value and the round index. -/
  | readLiveWeight (port : Port) (tag : Octet) (payload : List Octet)
  /-- READ_DECK_VALUES (R35): Returns the latest round values, the next zero offsets and the history counts. -/
  | readDeckValues (port : Port) (tag : Octet) (payload : List Octet)
  /-- ZERO_SET (R42): Sets every deck's zero offset to its filtered value when the checks pass, or makes the start-up zero in ZERO_UNSET. -/
  | zeroSet (port : Port) (tag : Octet) (payload : List Octet)
  /-- REQUEST_CAPTURE (R47): Begins a capture for the vehicle holding the grant, or refuses it at once. -/
  | requestCapture (port : Port) (tag : Octet) (payload : List Octet)
  /-- READ_CAPTURE (R46): Returns the capture state, the auto arm and the last outcome. -/
  | readCapture (port : Port) (tag : Octet) (payload : List Octet)
  /-- REPORT_ARRIVAL (R60): Appends a vehicle to the approach queue of an end with its effective class. -/
  | reportArrival (port : Port) (tag : Octet) (payload : List Octet)
  /-- WITHDRAW_ARRIVAL (R62): Removes an ident's entry from the approach queues. -/
  | withdrawArrival (port : Port) (tag : Octet) (payload : List Octet)
  /-- RELEASE_VEHICLE (R70): Moves an OCCUPIED bridge to RELEASED and clears both marks. -/
  | releaseVehicle (port : Port) (tag : Octet) (payload : List Octet)
  /-- CLEAR_BRIDGE (R72): Ends an occupied or unknown bridge whose axle counts disagree with an empty stable deck. -/
  | clearBridge (port : Port) (tag : Octet) (payload : List Octet)
  /-- HOLD_BRIDGE (R76): Sets the hold source of the requesting port. -/
  | holdBridge (port : Port) (tag : Octet) (payload : List Octet)
  /-- RELEASE_HOLD (R76): Clears the hold source of the requesting port. -/
  | releaseHold (port : Port) (tag : Octet) (payload : List Octet)
  /-- READ_BRIDGE (R79): Returns the bridge state, the grant, the marks, the signals, the hold sources and the queues. -/
  | readBridge (port : Port) (tag : Octet) (payload : List Octet)
  /-- WRITE_CONFIGURATION (R89): Writes a site entry of the configuration catalogue. -/
  | writeConfiguration (port : Port) (tag : Octet) (payload : List Octet)
  /-- CLEAR_CONFIGURATION (R89): Empties a site entry of the configuration catalogue. -/
  | clearConfiguration (port : Port) (tag : Octet) (payload : List Octet)
  /-- READ_CONFIGURATION (R90): Returns a catalogue entry. -/
  | readConfiguration (port : Port) (tag : Octet) (payload : List Octet)
  /-- RESTART_WEIGHING (R102): Empties the draft state of the vehicle holding the grant. -/
  | restartWeighing (port : Port) (tag : Octet) (payload : List Octet)
  /-- READ_AXLES (R103): Returns the axle counts, the marks and the draft state of the visit in use. -/
  | readAxles (port : Port) (tag : Octet) (payload : List Octet)
  /-- RELEASE_TRACE (R106): Clears the frozen state and the freeze record of the trace. -/
  | releaseTrace (port : Port) (tag : Octet) (payload : List Octet)
  /-- READ_TRACE (R106): Returns the trace freeze record and up to 16 samples. -/
  | readTrace (port : Port) (tag : Octet) (payload : List Octet)
  /-- EXPIRE_VISITS (R118): Removes every idle, unqueued awaiting visit aged at least the threshold. -/
  | expireVisits (port : Port) (tag : Octet) (payload : List Octet)
  /-- OPEN_VISIT (R108): Opens a visit in the lowest empty position of the Visit Table. -/
  | openVisit (port : Port) (tag : Octet) (payload : List Octet)
  /-- AMEND_VISIT (R109): Changes the carried fields of a visit when permitted. -/
  | amendVisit (port : Port) (tag : Octet) (payload : List Octet)
  /-- CANCEL_VISIT (R110): Removes a visit that is not in use, together with its queue entry. -/
  | cancelVisit (port : Port) (tag : Octet) (payload : List Octet)
  /-- READ_VISIT (R111): Returns every field of a visit and its queue position. -/
  | readVisit (port : Port) (tag : Octet) (payload : List Octet)
  /-- LIST_VISITS (R111): Lists up to 16 non-empty Visit Table entries from a position. -/
  | listVisits (port : Port) (tag : Octet) (payload : List Octet)
  /-- CHECK_TARE (R121): Makes a Tare Table lookup for an ident and reports FOUND or NONE. -/
  | checkTare (port : Port) (tag : Octet) (payload : List Octet)
  /-- KEY_TARE (R124): Stores a KEYED tare and appends a KEYED_TARE audit record. -/
  | keyTare (port : Port) (tag : Octet) (payload : List Octet)
  /-- FLUSH_TARES (R125): Invalidates every valid LEARNED tare slot. -/
  | flushTares (port : Port) (tag : Octet) (payload : List Octet)
  /-- DELETE_TARE (R125): Invalidates the tare slot of an ident. -/
  | deleteTare (port : Port) (tag : Octet) (payload : List Octet)
  /-- READ_TARE_SLOT (R126): Returns one tare slot, the replacement pointer and the slot counts. -/
  | readTareSlot (port : Port) (tag : Octet) (payload : List Octet)
  /-- READ_TICKET_SEQUENCE (R132): Returns the series, the next number, the exhausted mark and the most recent key. -/
  | readTicketSequence (port : Port) (tag : Octet) (payload : List Octet)
  /-- ROLL_TICKET_SERIES (R135): Moves to the next ticket series and appends a SERIES_ROLL audit record. -/
  | rollTicketSeries (port : Port) (tag : Octet) (payload : List Octet)
  /-- COLLECT_TICKETS (R137): Removes every ring ticket at or below a key. -/
  | collectTickets (port : Port) (tag : Octet) (payload : List Octet)
  /-- READ_TICKET (R138): Returns one ticket record from the ring. -/
  | readTicket (port : Port) (tag : Octet) (payload : List Octet)
  /-- READ_TICKET_RING (R138): Returns the ring count, the oldest and newest keys and up to 16 keys. -/
  | readTicketRing (port : Port) (tag : Octet) (payload : List Octet)
  /-- CLOSE_SHIFT (R141): Copies the totals into the last-shift record and resets them. -/
  | closeShift (port : Port) (tag : Octet) (payload : List Octet)
  /-- READ_TOTALS (R142): Returns the current shift totals, counts, flags and marks. -/
  | readTotals (port : Port) (tag : Octet) (payload : List Octet)
  /-- READ_LAST_SHIFT (R142): Returns the last-shift record. -/
  | readLastShift (port : Port) (tag : Octet) (payload : List Octet)
  /-- OPEN_CALIBRATION (R145): Opens calibration access with a staged copy of the committed table. -/
  | openCalibration (port : Port) (tag : Octet) (payload : List Octet)
  /-- WRITE_PARAMETER (R147): Writes one parameter of the staged table. -/
  | writeParameter (port : Port) (tag : Octet) (payload : List Octet)
  /-- READ_PARAMETER (R148): Returns a parameter of the committed or staged table. -/
  | readParameter (port : Port) (tag : Octet) (payload : List Octet)
  /-- READ_CALIBRATION_STATE (R148): Returns the access state, the switch, the epoch, NOT_VERIFIED, the staged differences and the audit summary. -/
  | readCalibrationState (port : Port) (tag : Octet) (payload : List Octet)
  /-- CALIBRATE_ZERO (R149): Sets a deck's staged calibrated zero to its filtered value. -/
  | calibrateZero (port : Port) (tag : Octet) (payload : List Octet)
  /-- CALIBRATE_SPAN (R150): Rescales the staged span factors of a deck's cells from a reference mass. -/
  | calibrateSpan (port : Port) (tag : Octet) (payload : List Octet)
  /-- COMMIT_CALIBRATION (R152): Makes the staged table committed, raises the epoch, appends CAL_CHANGE and closes access. -/
  | commitCalibration (port : Port) (tag : Octet) (payload : List Octet)
  /-- ABANDON_CALIBRATION (R154): Discards the staged table and closes access without a record. -/
  | abandonCalibration (port : Port) (tag : Octet) (payload : List Octet)
  /-- READ_AUDIT_RECORD (R162): Returns one audit record. -/
  | readAuditRecord (port : Port) (tag : Octet) (payload : List Octet)
  /-- READ_AUDIT_SUMMARY (R162): Returns the audit log summary with its claims and headroom. -/
  | readAuditSummary (port : Port) (tag : Octet) (payload : List Octet)
  /-- ARCHIVE_AUDIT_RECORDS (R163): Removes every audit record up to a number and meets unmet claims. -/
  | archiveAuditRecords (port : Port) (tag : Octet) (payload : List Octet)
  /-- BEGIN_VERIFICATION (R164): Starts an ACTIVE verification run with its audit claim and METROLOGY hold. -/
  | beginVerification (port : Port) (tag : Octet) (payload : List Octet)
  /-- TEST_POINT (R165): Begins a waiting test point for a deck or the bridge. -/
  | testPoint (port : Port) (tag : Octet) (payload : List Octet)
  /-- END_VERIFICATION (R169): Appends VERIFY_PASS or VERIFY_FAIL, sets or clears NOT_VERIFIED and ends the run. -/
  | endVerification (port : Port) (tag : Octet) (payload : List Octet)
  /-- ABORT_VERIFICATION (R171): Ends the run without a record. -/
  | abortVerification (port : Port) (tag : Octet) (payload : List Octet)
  /-- READ_VERIFICATION (R174): Returns the run, its points and NOT_VERIFIED. -/
  | readVerification (port : Port) (tag : Octet) (payload : List Octet)
  /-- TAKE_SNAPSHOT (R177): Takes a REQUESTED snapshot. -/
  | takeSnapshot (port : Port) (tag : Octet) (payload : List Octet)
  /-- READ_SNAPSHOT (R178): Returns one snapshot. -/
  | readSnapshot (port : Port) (tag : Octet) (payload : List Octet)
  /-- LIST_SNAPSHOTS (R178): Lists the eight evidence slots and the next snapshot number. -/
  | listSnapshots (port : Port) (tag : Octet) (payload : List Octet)
  /-- DISCARD_SNAPSHOT (R179): Empties the slot of a snapshot unless it is protected. -/
  | discardSnapshot (port : Port) (tag : Octet) (payload : List Octet)
  /-- WRITE_FAULT_POLICY (R182): Sets the HOLD or CONTINUE policy of a non-metrological fault class. -/
  | writeFaultPolicy (port : Port) (tag : Octet) (payload : List Octet)
  /-- ACKNOWLEDGE_METROLOGICAL_FAULT (R185): Clears the fault-outstanding flag and its raise record. -/
  | acknowledgeMetrologicalFault (port : Port) (tag : Octet) (payload : List Octet)
  /-- ACKNOWLEDGE_FAULT (R186): Clears the outstanding marks of non-metrological fault instances. -/
  | acknowledgeFault (port : Port) (tag : Octet) (payload : List Octet)
  /-- CLEAR_LOCKOUT (R189): Lifts lockout and appends a LOCKOUT_CLEAR audit record. -/
  | clearLockout (port : Port) (tag : Octet) (payload : List Octet)
  /-- READ_FAULTS (R190): Returns the flag, the lockout, the policies and the fault register. -/
  | readFaults (port : Port) (tag : Octet) (payload : List Octet)
  /-- RESTART (R207): Appends RESTART_ORDERED and orders a start after the reply is sent. -/
  | restart (port : Port) (tag : Octet) (payload : List Octet)
  /-- READ_START_CAUSE (R206): Returns the start record and the powered seconds since control passed. -/
  | readStartCause (port : Port) (tag : Octet) (payload : List Octet)
  /-- POLL_SENT (R3): The last octet of a poll to a configured cell has been sent, which ends the sending of the poll and opens that cell's 2 ms reply window. -/
  | pollSent
  /-- OCTET_RECEIVED (R193): An octet arrives at a port receiver: a 0xA5 while hunting starts a frame and moves the receiver to collecting, and each collected octet restarts the 20 ms gap timing. -/
  | octetReceived (port : Port) (octet : Octet)
  deriving DecidableEq, Repr

end Sys2Proof
end

