-- ==== Sys2Proof/Machine/Records.lean ====
section
/-! DEFINITION. The records the blocks keep, in the manual's own shapes and names. -/

namespace Sys2Proof.Machine

/-- A table keyed by number (a position, a slot, an address, a parameter id): the listed entries in strictly rising
key order. What an unlisted key reads as is said where the table is read. -/
abbrev Table (α : Type) := List (Nat × α)

/-- A vehicle ident: its characters in ASCII, 1 to 12 of A to Z and 0 to 9 (00 section 5.3). -/
abbrev Ident := List Octet

/-- A calendar date. -/
structure SiteDate where
  year : Nat
  month : Nat
  day : Nat
  deriving DecidableEq, Repr

/-- A time of day to the second. -/
structure TimeOfDay where
  hour : Nat
  minute : Nat
  second : Nat
  deriving DecidableEq, Repr

/-- Site time: a date and a time of day (R199). -/
structure SiteTime where
  date : SiteDate
  tod : TimeOfDay
  deriving DecidableEq, Repr

/-- A calibration table by parameter id (R144): only parameters that differ from their defaults are listed, so
equal tables are equal data. -/
abbrev CalTable := Table Int

/-! ### The cell bus -/

/-- The condition of a CONFIGURED cell (01 section 1.3). -/
inductive CellCondition where
  | online | missing | silent | faulted | overRange | substituted
  deriving DecidableEq, Repr

/-- The status a cell reports (R3). -/
inductive CellStatus where
  | ok | overRange | internalFault
  deriving DecidableEq, Repr

/-- The record of one cell address (01 section 1.3). -/
structure CellRecord where
  configured : Bool
  condition : Option CellCondition
  miss : Nat
  lastCount : Option Int
  lastStatus : Option CellStatus
  lastSerial : Option Nat
  deriving DecidableEq, Repr

/-- A reply of a cell: serial number, count and status (01 section 1.3). -/
structure CellReply where
  serial : Nat
  count : Int
  status : CellStatus
  deriving DecidableEq, Repr

/-- Where the polling of the running round stands (R3). An open reply window holds the octets of its one answer that
have been received, from the first octet 0x5A on. -/
inductive PollState where
  | idle
  | sending (address : Nat)
  | window (address : Nat) (received : List Octet)
  deriving DecidableEq, Repr

/-! ### Weighing -/

/-- A deck's validity in a round (R31). -/
inductive DeckValidity where
  | valid | noCells | cell | grossRange
  deriving DecidableEq, Repr

/-- A range verdict (R30). -/
inductive RangeVerdict where
  | normal | underload | overload
  deriving DecidableEq, Repr

/-- The round values of one deck (R31); absent items are `none`. -/
structure DeckValues where
  validity : DeckValidity
  linearizationDisabled : Bool
  raw : Option Int
  linearized : Option Int
  filtered : Option Int
  filterCount : Option Nat
  zeroUsed : Int
  gross : Option Int
  rounded : Option Int
  range : Option RangeVerdict
  deriving DecidableEq, Repr

/-- The values of one round (R31), decks 1 to D in order. -/
structure RoundValues where
  index : Nat
  overrun : Bool
  decks : List DeckValues
  valid : Bool
  gross : Option Int
  rounded : Option Int
  bridgeRange : Option RangeVerdict
  range : RangeVerdict
  deriving DecidableEq, Repr

/-- One entry of the stability window (03 section 3.1). `moment` is the number of rounds that had ended when this
one did, counted since the start: the model's measure of "ended after" (R49). -/
structure WindowEntry where
  gross : Int
  index : Nat
  moment : Nat
  deriving DecidableEq, Repr

/-- The state words of the live weight, in the order of their numbers (R33, R196). -/
inductive LiveWord where
  | invalid | overload | underload | calIncomplete | notForTrade | zeroUnset | stable | motion
  deriving DecidableEq, Repr

/-! ### Status codes -/

/-- Reply statuses and refusal codes, in the order of their numbers (R196). -/
inductive Status where
  | ok | accepted | empty | malformed | notPermitted | busy
  | aborted | accessOpen | alreadyOpen | axleCount | badArgument | badConfiguration
  | badParameter | bridgeOccupied | capturePending | captureTimeout | cellAssignment | configurationInUse
  | draftLimit | duplicate | duplicateVisit | epochExhausted | fault | faultsActive
  | fixedConfiguration | fixedPolicy | held | kindFixed | linearizationOrder | lockout
  | logFull | motion | noDrafts | noGroup | noLockout | noPoints
  | noRun | noSuchCell | noSuchConfiguration | noSuchParameter | noSuchRecord | noSuchSample
  | noSuchSlot | noSuchSnapshot | noSuchTicket | noTare | noVehicle | noVisit
  | notForTrade | notOpen | notQueued | notWhollyOn | nothingOutstanding | nothingToCollect
  | partialGroup | pointPending | queueFull | range | runActive | runFull
  | sequenceExhausted | seriesLimit | snapshotProtected | spanRange | straddle | supply
  | switchOff | tareKeyed | tareTableFull | ticketStoreFull | visitInUse | visitTableFull
  | zeroRange | zeroUnset
  deriving DecidableEq, Repr

/-! ### Captures -/

/-- The origin of a capture (03 section 3.3). -/
inductive Origin where
  | request (port : Port) (tag : Octet)
  | auto
  deriving DecidableEq, Repr

/-- A WAITING capture. The restart point is a moment: a number of rounds ended (R51). -/
structure Capture where
  origin : Origin
  ident : Ident
  secondsLeft : Nat
  restart : Option Nat
  deriving DecidableEq, Repr

/-- The last outcome of the Capture Unit (03 section 3.3). -/
structure CaptureOutcome where
  origin : Origin
  ident : Option Ident
  outcome : Status
  round : Option Nat
  deriving DecidableEq, Repr

/-! ### The bridge -/

/-- The five bridge states (04 section 4.3). -/
inductive BridgeState where
  | free | granted | occupied | released | occupiedUnknown
  deriving DecidableEq, Repr

/-- The aspects of an end signal (04 section 4.4). -/
inductive Aspect where
  | red | amber | green
  deriving DecidableEq, Repr

/-- A direction of travel (00 section 5.5). -/
inductive Travel where
  | aToB | bToA
  deriving DecidableEq, Repr

/-- An entry of an approach queue (04 section 4.1). -/
structure QueueEntry where
  ident : Ident
  entryEnd : BridgeEnd
  arrival : Nat
  cls : Nat
  passes : Nat
  deriving DecidableEq, Repr

/-- The grant in force: the ident holding it and its entry end (R64). -/
structure Grant where
  ident : Ident
  entryEnd : BridgeEnd
  deriving DecidableEq, Repr

/-- A grant timer: whole seconds left and whether a hold has paused it (R67). -/
structure GrantTimer where
  secondsLeft : Nat
  paused : Bool
  deriving DecidableEq, Repr

/-- The hold sources (04 section 4.5), and the manual metrology hold, one cause of METROLOGY (R76). -/
structure Holds where
  gatehouse : Bool
  lane : Bool
  manual : Bool
  metrology : Bool
  fault : Bool
  supply : Bool
  deriving DecidableEq, Repr

/-! ### Axle groups, drafts and the trace -/

/-- One axle group of a configuration (R88). -/
structure AxleGroup where
  axles : Nat
  limit : Int
  deriving DecidableEq, Repr

/-- A configuration of the catalogue (R88). -/
structure Configuration where
  groups : List AxleGroup
  combination : Int
  tolerance : Int
  deriving DecidableEq, Repr

/-- Verdicts (R98, R201). -/
inductive Verdict where
  | within | advisory | over | unresolved | notChecked
  deriving DecidableEq, Repr

/-- A captured group of the draft state (R91). -/
structure CapturedGroup where
  weight : Int
  verdict : Verdict
  draft : Nat
  deriving DecidableEq, Repr

/-- The draft state of a weighing in progress (R91). `groups` lists the captured groups by group number; every other
group of the configuration is uncaptured. -/
structure DraftState where
  used : Nat
  groups : Table CapturedGroup
  inconsistent : Bool
  deriving DecidableEq, Repr

/-- One treadle event of a trace sample (05 section 5.6). -/
structure TraceEvent where
  treadle : BridgeEnd
  dir : AxleDir
  counted : Bool
  deriving DecidableEq, Repr

/-- One trace sample; `gross` is none for INVALID. -/
structure TraceSample where
  round : Nat
  gross : Option Int
  events : List TraceEvent
  further : Nat
  deriving DecidableEq, Repr

/-- Why the trace was frozen (R105). -/
inductive FreezeReason where
  | overVerdict | straddle
  deriving DecidableEq, Repr

/-- The freeze record of the trace (R105). -/
structure FreezeRecord where
  reason : FreezeReason
  ident : Ident
  round : Nat
  draft : Option Nat
  deriving DecidableEq, Repr

/-- The axle trace (05 section 5.6); it is frozen while it has a freeze record. -/
structure Trace where
  samples : List TraceSample
  events : List TraceEvent
  further : Nat
  frozen : Option FreezeRecord
  deriving DecidableEq, Repr

/-! ### Visits, tares and tickets -/

/-- The kind of a visit. -/
inductive VisitKind where
  | delivery | collection
  deriving DecidableEq, Repr

/-- The state of a visit (06 section 6.1). -/
inductive VisitState where
  | awaitingFirst | firstInProgress | awaitingSecond | secondInProgress
  deriving DecidableEq, Repr

/-- The source of a weight (R201). -/
inductive WeightSource where
  | single | composed | storedTare | keyedTare
  deriving DecidableEq, Repr

/-- An entry of a group list: its weight (absent where UNRESOLVED) and its verdict. -/
structure GroupEntry where
  weight : Option Int
  verdict : Verdict
  deriving DecidableEq, Repr

/-- A weighing record (06 section 6.1). -/
structure WeighRecord where
  weight : Int
  source : WeightSource
  epoch : Nat
  time : SiteTime
  groups : List GroupEntry
  combination : Verdict
  inconsistent : Bool
  drafts : Nat
  deriving DecidableEq, Repr

/-- An entry of the Visit Table, without its volatile marks (06 section 6.1). -/
structure Visit where
  ident : Ident
  kind : VisitKind
  commodity : Nat
  config : Option Nat
  cls : Option Nat
  useStored : Bool
  learn : Bool
  state : VisitState
  first : Option WeighRecord
  draft : DraftState
  age : Nat
  deriving DecidableEq, Repr

/-- The origin of a stored tare. -/
inductive TareOrigin where
  | learned | keyed
  deriving DecidableEq, Repr

/-- A valid slot of the Tare Table (06 section 6.3). -/
structure Tare where
  ident : Ident
  tare : Int
  origin : TareOrigin
  epoch : Nat
  stored : SiteDate
  cls : Option Nat
  deriving DecidableEq, Repr

/-- A ticket key: series, then number. -/
structure TicketKey where
  series : Nat
  number : Nat
  deriving DecidableEq, Repr

/-- The flags of a ticket (R130, R131). -/
structure TicketFlags where
  crossEpoch : Bool
  negativeNet : Bool
  composed : Bool
  keyedTare : Bool
  inconsistentDraft : Bool
  overVerdict : Bool
  advisoryVerdict : Bool
  deriving DecidableEq, Repr

/-- A ticket record (07 section 7.1). -/
structure Ticket where
  key : TicketKey
  ident : Ident
  kind : VisitKind
  commodity : Nat
  config : Option Nat
  gross : Int
  tare : Int
  net : Int
  grossSource : WeightSource
  tareSource : WeightSource
  firstEpoch : Nat
  secondEpoch : Nat
  firstTime : SiteTime
  secondDate : SiteDate
  secondTod : Option TimeOfDay
  groups : List GroupEntry
  combination : Verdict
  flags : TicketFlags
  deriving DecidableEq, Repr

/-- The net total and count of one commodity and kind, with their OVF flag (07 section 7.5). -/
structure Total where
  net : Nat
  count : Nat
  ovf : Bool
  deriving DecidableEq, Repr

/-- The flagged count of one commodity, with its OVF flag. -/
structure Flagged where
  count : Nat
  ovf : Bool
  deriving DecidableEq, Repr

/-- The totals of a shift: by 2 × commodity + kind, by commodity, and the shift marks. An unlisted key reads as
zeros with a clear flag. -/
structure ShiftTotals where
  totals : Table Total
  flagged : Table Flagged
  firstKey : Option TicketKey
  lastKey : Option TicketKey
  deriving DecidableEq, Repr

/-- The last-shift record (R141). -/
structure LastShift where
  totals : ShiftTotals
  time : SiteTime
  deriving DecidableEq, Repr

/-! ### Audit log, verification and evidence -/

/-- One changed parameter of a CAL_CHANGE record. -/
structure ParamChange where
  id : Nat
  old : Int
  new : Int
  deriving DecidableEq, Repr

/-- Lockout codes, in the order of their numbers 1 to 4 (10 section 10.4). -/
inductive LockCode where
  | secondFault | calibrationLost | calFaultInVerification | calAccessInterrupted
  deriving DecidableEq, Repr

/-- The kind of an audit record with its kind-specific list (08 section 8.6). -/
inductive AuditBody where
  | calChange (changes : List ParamChange) (further : Nat)
  | verifyPass (points : Nat) (worst : Int) (failing : Nat)
  | verifyFail (points : Nat) (worst : Int) (failing : Nat)
  | keyedTare (ident : Ident) (tare : Int)
  | lockoutClear (code : LockCode)
  | seriesRoll (series : Nat)
  | restartOrdered
  deriving DecidableEq, Repr

/-- An audit record (08 section 8.6). -/
structure AuditRecord where
  number : Nat
  time : SiteTime
  epochBefore : Nat
  epochAfter : Nat
  body : AuditBody
  deriving DecidableEq, Repr

/-- The audit log's summary (R162): each claim present with whether it is met. -/
structure AuditSummary where
  held : Nat
  oldest : Option Nat
  newest : Option Nat
  next : Option Nat
  free : Nat
  lockoutClaim : Option Bool
  accessClaim : Option Bool
  runClaim : Option Bool
  spare : Bool
  headroom : Int
  deriving DecidableEq, Repr

/-- The target of a test point. -/
inductive PointTarget where
  | bridge
  | deck (d : Nat)
  deriving DecidableEq, Repr

/-- A waiting test point (09 section 9.2). -/
structure WaitingPoint where
  target : PointTarget
  reference : Int
  secondsLeft : Nat
  restart : Option Nat
  deriving DecidableEq, Repr

/-- A recorded test point (09 section 9.2). -/
structure TestPoint where
  number : Nat
  target : PointTarget
  reference : Int
  round : Nat
  indicated : Int
  error : Int
  mpe : Int
  pass : Bool
  time : SiteTime
  deriving DecidableEq, Repr

/-- An ACTIVE verification run. -/
structure Run where
  time : SiteTime
  epoch : Nat
  points : List TestPoint
  waiting : Option WaitingPoint
  deriving DecidableEq, Repr

/-- Snapshot kinds (R175). -/
inductive SnapshotKind where
  | overVerdict | requested | lockout
  deriving DecidableEq, Repr

/-- The cell fields of a snapshot (09 section 9.4). -/
structure SnapshotCell where
  configured : Bool
  condition : Option CellCondition
  lastCount : Option Int
  lastStatus : Option CellStatus
  deriving DecidableEq, Repr

/-- The deck fields of a snapshot. -/
structure SnapshotDeck where
  validity : DeckValidity
  raw : Option Int
  linearized : Option Int
  filtered : Option Int
  zeroUsed : Int
  gross : Option Int
  deriving DecidableEq, Repr

/-- A snapshot (09 section 9.4). -/
structure Snapshot where
  number : Nat
  kind : SnapshotKind
  time : SiteTime
  epoch : Nat
  round : Option Nat
  cells : List SnapshotCell
  decks : List SnapshotDeck
  gross : Option Int
  rounded : Option Int
  stable : Option Bool
  ident : Option Ident
  draft : Option Nat
  deriving DecidableEq, Repr

/-- A full slot of the Evidence Store. -/
structure EvidenceSlot where
  slot : Nat
  snapshot : Snapshot
  deriving DecidableEq, Repr

/-! ### Faults -/

/-- The ten fault classes, in the order of the class table (10 section 10.1). -/
inductive FaultClass where
  | cellSilent | cellFault | cellSubstituted | roundOverrun | treadleDisagree | lampFeedback
  | visitsLost | taresLost | ticketsLost | siteLost
  deriving DecidableEq, Repr

/-- A fault policy. -/
inductive Policy where
  | hold | continue_
  deriving DecidableEq, Repr

/-- One of the 57 instances: `inst` is a cell address, an end (0 A, 1 B), or 0 (R201). -/
structure FaultKey where
  cls : FaultClass
  inst : Nat
  deriving DecidableEq, Repr

/-- An entry of the fault register (R180). -/
structure FaultEntry where
  key : FaultKey
  present : Bool
  outstanding : Bool
  count : Nat
  raisedAt : Option SiteTime
  deriving DecidableEq, Repr

/-- The raise record of the fault-outstanding flag (10 section 10.3). -/
structure RaiseRecord where
  key : FaultKey
  time : SiteTime
  deriving DecidableEq, Repr

/-- The outcome of a raise (R181). -/
inductive RaiseOutcome where
  | flagSet | lockout (code : LockCode) | flagAlreadySet | none_
  deriving DecidableEq, Repr

/-- The lockout record (R187); `cleared` holds the number of the LOCKOUT_CLEAR record once cleared (R189). -/
structure LockRecord where
  code : LockCode
  time : SiteTime
  bridge : BridgeState
  ident : Option Ident
  lastStable : Option Int
  epoch : Nat
  present : List FaultKey
  cleared : Option Nat
  deriving DecidableEq, Repr

/-- The policies of the six non-metrological classes (10 section 10.1). -/
structure Policies where
  treadleDisagree : Policy
  lampFeedback : Policy
  visitsLost : Policy
  taresLost : Policy
  ticketsLost : Policy
  siteLost : Policy
  deriving DecidableEq, Repr

/-! ### Settings, starts and retained writes -/

/-- The site settings (R200); the overload action is HOLD_EXIT when `holdExit` is set. -/
structure SiteSettings where
  autoCapture : Bool
  captureTimeout : Nat
  grantTimeout : Nat
  visitTimeout : Nat
  validity : Nat
  holdExit : Bool
  classA : Nat
  classB : Nat
  copyToMetrology : Bool
  deriving DecidableEq, Repr

/-- Start causes (R206). -/
inductive StartCause where
  | powerOn | resetLine | supplyLoss | ordered
  deriving DecidableEq, Repr

/-- The start record (R206). -/
structure StartRecord where
  cause : StartCause
  lost : LostRegions
  deriving DecidableEq, Repr

/-- Whether control is with the blocks, or a start has been begun and its sequence has not run (R206). -/
inductive Phase where
  | running
  | starting (cause : StartCause)
  deriving DecidableEq, Repr

/-- The seven retained regions (R203). -/
inductive Region where
  | calibration | audit | visits | tares | tickets | site | evidence
  deriving DecidableEq, Repr

/-- What the completion of a commit's retained write reports (R153). -/
structure CommitNote where
  epoch : Nat
  record : Nat
  changes : Nat
  deriving DecidableEq, Repr

/-- A retained write begun and not yet complete: the regions it stores and, for a commit, its note (R203). -/
structure RetainedWrite where
  regions : List Region
  commit : Option CommitNote
  deriving DecidableEq, Repr

end Sys2Proof.Machine
end

