-- ==== Sys2Proof/Machine/Messages.lean ====
section
/-! DEFINITION. What the part sends: notices (R198) and the content of replies (each request's own rule). Their
octets are in Machine/Wire.lean. -/

namespace Sys2Proof.Machine

/-- Which weighing of a visit. -/
inductive WhichWeighing where
  | first | second
  deriving DecidableEq, Repr

/-- Why a lookup found nothing (R121). -/
inductive TareReason where
  | expired | notHeld
  deriving DecidableEq, Repr

/-- Why the series rolled (R133, R135). -/
inductive RollReason where
  | automatic | requested
  deriving DecidableEq, Repr

/-- What an ACCEPTED CAPTURE_OUTCOME adds (R45): completing round, rounded bridge weight, draft number. -/
structure AcceptedCapture where
  round : Nat
  weight : Int
  draft : Nat
  deriving DecidableEq, Repr

/-- An OVER group of an OVER_VERDICT notice (R101). -/
structure OverGroup where
  group : Nat
  weight : Int
  limit : Int
  deriving DecidableEq, Repr

/-- The treadle detail of a TREADLE_DISAGREE raise (R84, R181). -/
structure DisagreeDetail where
  dir : AxleDir
  entered : Nat
  exited : Nat
  deriving DecidableEq, Repr

/-- A notice (R198). TICKET_ISSUED and TEST_POINT_OUTCOME have two forms each. -/
inductive Notice where
  | captureOutcome (origin : Origin) (ident : Ident) (outcome : Status) (accepted : Option AcceptedCapture)
  | granted (ident : Ident) (entryEnd : BridgeEnd)
  | noShow (ident : Ident)
  | intrusion (e : BridgeEnd) (ident : Option Ident)
  | exitWithheld (ident : Ident)
  | axleCount (ident : Ident) (entered total : Nat)
  | reposition (ident : Ident) (firstAxle lastAxle groups : Nat) (decks : List Nat)
  | overVerdict (ident : Ident) (draft : Nat) (groups : List OverGroup) (combination : Option (Int × Int))
  | weighingRestarted (ident : Ident)
  | traceFrozen (record : FreezeRecord)
  | firstWeighed (ident : Ident) (kind : VisitKind) (weight : Int) (source : WeightSource) (combination : Verdict)
      (drafts : Nat)
  | tareGone (ident : Ident) (gross : Int) (reason : TareReason)
  | leftUnweighed (ident : Ident) (weighing : WhichWeighing) (drafts : Nat)
  | visitExpired (ident : Ident) (kind : VisitKind) (state : VisitState) (first : Option (Int × SiteTime))
  | tareReplaced (ident : Ident) (slot : Nat)
  | tareTableFull (ident : Ident) (tare : Int)
  | seriesRolled (series : Nat) (reason : RollReason)
  | sequenceExhausted
  | ticketRingFull (oldest newest : TicketKey)
  | ticketIssued (key : TicketKey) (ident : Ident) (kind : VisitKind) (commodity : Nat) (gross tare net : Int)
      (flags : TicketFlags)
  | ticketIssuedShort (key : TicketKey) (ident : Ident) (net : Int) (flags : TicketFlags)
  | calibrationCommitted (note : CommitNote)
  | accessClosed
  | auditNearFull (held free : Nat) (headroom : Int)
  | testPointRecorded (point : TestPoint)
  | testPointEnded (target : PointTarget) (reference : Int) (code : Status)
  | verificationEnded (record : Nat) (pass : Bool) (points : Nat) (worst : Int) (failing : Nat)
  | snapshotTaken (number : Nat) (kind : SnapshotKind) (slot : Nat) (replaced : Option (Nat × SnapshotKind))
  | faultRaised (key : FaultKey) (metrological : Bool) (policy : Policy) (outcome : RaiseOutcome) (time : SiteTime)
      (detail : Option DisagreeDetail)
  | lockoutEntered (code : LockCode) (time : SiteTime)
  | lockoutCleared (code : LockCode) (record : Nat)
  deriving DecidableEq, Repr

/-- One end as Read Bridge shows it (R79). -/
structure EndReport where
  aspect : Aspect
  lamps : Lamps
  lampFeedback : Bool
  deriving DecidableEq, Repr

/-- The content of Read Bridge (R79). -/
structure BridgeReport where
  state : BridgeState
  startMark : Bool
  ident : Option Ident
  entryEnd : Option BridgeEnd
  travel : Option Travel
  timer : Option GrantTimer
  advance : Bool
  withheld : Bool
  endA : EndReport
  endB : EndReport
  gatehouse : Bool
  lane : Bool
  manual : Bool
  otherMetrology : Bool
  fault : Bool
  supply : Bool
  arrivals : Nat
  queueA : List QueueEntry
  queueB : List QueueEntry
  deriving DecidableEq, Repr

/-- The content of Read Axles (R103). `groups` has one entry for each group of the configuration. -/
structure AxleReport where
  entered : Nat
  exited : Nat
  entryEnd : Option BridgeEnd
  travel : Option Travel
  firstAxle : Option Nat
  lastAxle : Option Nat
  disagreements : Nat
  axleCount : Bool
  config : Option Nat
  total : Option Nat
  used : Nat
  groups : List (Option CapturedGroup)
  inconsistent : Bool
  deriving DecidableEq, Repr

/-- A row of List Visits (R111). -/
structure VisitRow where
  position : Nat
  ident : Ident
  kind : VisitKind
  state : VisitState
  inUse : Bool
  age : Nat
  deriving DecidableEq, Repr

/-- The content of Read Calibration State (R148). -/
structure CalibrationReport where
  accessOpen : Bool
  switchOn : Bool
  epoch : Nat
  notVerified : Bool
  differences : Option Nat
  pointsInOrder : Option (List Bool)
  pendingCommits : Nat
  audit : AuditSummary
  deriving DecidableEq, Repr

/-- A cell that Calibrate Span changed (R150). -/
structure SpanChange where
  address : Nat
  old : Int
  new : Int
  clamped : Bool
  deriving DecidableEq, Repr

/-- A row of List Snapshots (R178). -/
structure SnapshotRow where
  number : Nat
  kind : SnapshotKind
  time : SiteTime
  ident : Option Ident
  deriving DecidableEq, Repr

/-- The content of Read Faults (R190). -/
structure FaultReport where
  flag : Option RaiseRecord
  lockout : Option LockCode
  record : Option LockRecord
  policies : List Policy
  entries : List FaultEntry
  fault : Bool
  byPresent : Bool
  byFlag : Bool
  byMark : Bool
  byLockout : Bool
  deriving DecidableEq, Repr

/-- The content of a reply after its status code and port status, by request. -/
inductive Content where
  | empty
  | notice (n : Notice)
  | siteTime (clock : SiteTime) (isSet : Bool)
  | settings (s : SiteSettings)
  | cell (r : CellRecord)
  | busStatus (index period overruns : Nat) (overrunPresent : Bool) (valid : List Bool)
  | liveWeight (word : LiveWord) (value : Option Int) (index : Option Nat)
  | deckValues (values : Option RoundValues) (zeros : List Int) (counts : List Nat)
  | capture (waiting : Option Capture) (arm : Bool) (last : Option CaptureOutcome)
  | arrival (number : Nat)
  | bridge (r : BridgeReport)
  | configuration (c : Option Configuration)
  | axles (r : AxleReport)
  | trace (frozen : Option FreezeRecord) (held : Nat) (samples : List TraceSample)
  | removed (count : Nat)
  | invalidated (count : Nat)
  | position (p : Nat)
  | visit (v : Visit) (groups : List (Option CapturedGroup)) (inUse axleCount : Bool)
      (queued : Option (BridgeEnd × Nat))
  | visitList (held : Nat) (rows : List VisitRow)
  | tareFound (slot : Nat) (t : Tare)
  | tareNone (reason : TareReason)
  | slot (n : Nat)
  | tareSlot (t : Option (Tare × Bool)) (pointer learned keyed : Nat)
  | sequence (series : Nat) (next : Option Nat) (exhausted : Bool) (last : Option TicketKey)
  | series (n : Nat)
  | collected (count : Nat) (newest : TicketKey)
  | ticket (t : Ticket)
  | ring (held : Nat) (oldest newest : Option TicketKey) (keys : List TicketKey)
  | shiftClosed (time : SiteTime)
  | totals (t : ShiftTotals)
  | lastShift (r : Option LastShift)
  | parameter (value : Int)
  | calibrationState (r : CalibrationReport)
  | calibratedZero (value : Int)
  | span (load reference : Int) (cells : List SpanChange)
  | auditRecord (r : AuditRecord)
  | auditSummary (s : AuditSummary)
  | archived (count : Nat) (oldest : Option Nat)
  | recordNumber (n : Nat)
  | verification (run : Option Run) (notVerified : Bool)
  | snapshotTaken (number slot : Nat)
  | snapshot (slot : Nat) (s : Snapshot)
  | snapshotList (rows : List (Option SnapshotRow)) (next : Nat)
  | raise (r : RaiseRecord)
  | acknowledged (count : Nat)
  | faults (r : FaultReport)
  | startCause (r : StartRecord) (seconds : Nat)
  deriving DecidableEq, Repr

/-- A reply frame formed for a port (R192, R195, R196): the kind and tag of its request, the status code, the port
status octet and the content. -/
structure Reply where
  kind : Octet
  tag : Octet
  status : Status
  portStatus : Octet
  content : Content
  deriving DecidableEq, Repr

end Sys2Proof.Machine
end

