-- ==== Sys2Proof/Machine/State.lean ====
section
/-! DEFINITION. The state of the block as plain data, grouped by the blocks of 00_scope.md section 3, and its value
at reset. INVENTORY.md lists every item with its rule and reset value. -/

namespace Sys2Proof.Machine

/-- The Cell Bus Controller (01). `records` lists the records of the addresses that are not ABSENT and blank. -/
structure Bus where
  records : Table CellRecord
  table : CalTable
  inProgress : Bool
  toPoll : List Nat
  poll : PollState
  index : Nat
  overrun : Bool
  periodTimer : Bool
  overruns : Nat
  handedIndex : Nat
  handedValid : List Bool
  deriving DecidableEq, Repr

/-- The Weighing Engine (02, 03). `histories` is by deck, an unlisted deck's being empty; `zero` and `startZero` list
the decks whose Z_d and Zs_d are set. `rounds` counts rounds ended since the start (the model's own measure). -/
structure Weigh where
  histories : Table (List Int)
  latest : Option RoundValues
  roundTable : CalTable
  zero : Table Int
  startZero : Table Int
  zeroUnset : Bool
  window : List WindowEntry
  stable : Bool
  trackingTimer : Bool
  rounds : Nat
  deriving DecidableEq, Repr

/-- The Capture Unit (03 section 3.3): IDLE when no capture is WAITING. -/
structure CaptureUnit where
  waiting : Option Capture
  lastOutcome : Option CaptureOutcome
  arm : Bool
  quietTimer : Bool
  deriving DecidableEq, Repr

/-- The Bridge Arbiter (04). `waiting` holds the entries of both approach queues in arrival order. -/
structure Bridge where
  waiting : List QueueEntry
  arrivals : Nat
  state : BridgeState
  startMark : Bool
  grant : Option Grant
  grantTimer : Option GrantTimer
  advance : Bool
  withheld : Bool
  aspectA : Aspect
  aspectB : Aspect
  lampsA : Lamps
  lampsB : Lamps
  feedbackA : Bool
  feedbackB : Bool
  holds : Holds
  deriving DecidableEq, Repr

/-- The Axle Unit (05). -/
structure Axles where
  entered : Nat
  exited : Nat
  disagreements : Nat
  axleCount : Bool
  trace : Trace
  deriving DecidableEq, Repr

/-- The TARES region: valid slots by number, and the replacement pointer (06 section 6.3). -/
structure Tares where
  slots : Table Tare
  pointer : Nat
  deriving DecidableEq, Repr

/-- The TICKETS region: the Ticket Ring (oldest first), the shift and the last-shift record (07). -/
structure Tickets where
  ring : List Ticket
  shift : ShiftTotals
  last : Option LastShift
  deriving DecidableEq, Repr

/-- The CALIBRATION region (R203). The flag is set while it has its raise record; lockout stands while it has a
code. -/
structure Calibration where
  committed : CalTable
  epoch : Nat
  series : Nat
  nextNumber : Nat
  exhausted : Bool
  lastKey : Option TicketKey
  notVerified : Bool
  accessMark : Bool
  diffMark : Bool
  lockout : Option LockCode
  lockRecord : Option LockRecord
  flag : Option RaiseRecord
  startRecord : StartRecord
  pendingMark : Bool
  snapshotNext : Nat
  deriving DecidableEq, Repr

/-- The AUDIT region: records oldest first, the next record number (4,294,967,296 once none is left, R159) and the
epoch mark. -/
structure Audit where
  records : List AuditRecord
  next : Nat
  epochMark : Nat
  deriving DecidableEq, Repr

/-- The SITE region (R203): settings, clock, catalogue entries 9 to 24 and policies. -/
structure Site where
  settings : SiteSettings
  clock : SiteTime
  catalogue : Table Configuration
  policies : Policies
  deriving DecidableEq, Repr

/-- The volatile part of the Fault Unit (R180). Unlisted entries of the register read as never raised. -/
structure Faults where
  register : Table FaultEntry
  lastStable : Option Int
  deriving DecidableEq, Repr

/-- A port receiver: hunting, or collecting with the octets of the frame after its start octet (R193). -/
inductive Receiver where
  | hunting
  | collecting (octets : List Octet)
  deriving DecidableEq, Repr

/-- One port of the Port Controller (11). -/
structure PortState where
  receiver : Receiver
  replies : List Reply
  notices : List Notice
  overflow : Bool
  deriving DecidableEq, Repr

/-- The three ports. -/
structure Ports where
  gatehouse : PortState
  lane : PortState
  metrology : PortState
  deriving DecidableEq, Repr

/-- The state of the block. `pending`, `outbox`, `commitNote` and `choices` are the model's own (INVENTORY.md). -/
structure State where
  pending : List Instr
  phase : Phase
  bus : Bus
  weigh : Weigh
  capture : CaptureUnit
  bridge : Bridge
  axles : Axles
  visits : Table Visit
  inUse : Option Nat
  tares : Tares
  tickets : Tickets
  cal : Calibration
  staged : Option CalTable
  switchOn : Bool
  audit : Audit
  run : Option Run
  evidence : List EvidenceSlot
  faults : Faults
  site : Site
  clockSet : Bool
  powered : Nat
  supplyGood : Bool
  dipTimer : Bool
  ports : Ports
  writes : List RetainedWrite
  outbox : List (Port × Notice)
  commitNote : Option CommitNote
  choices : Nat
  deriving DecidableEq, Repr

/-- The block has no event that stops it: every command answers a next state, so no fault can be named. -/
inductive Fault where
  deriving DecidableEq, Repr

/-- Why a command has no outcome. -/
inductive Refusal where
  /-- Raised by an arm of exec for a command the model gives no meaning (safe); no arm does so. -/
  | notModelled (mnemonic : String)
  deriving DecidableEq, Repr

/-! ### Values at reset, by block. Each is also what the block's own chapter gives it after a start. -/

/-- R14. The records follow from the committed table; the default table has one deck and configures no cell. -/
def Bus.reset : Bus :=
  { records := [], table := [], inProgress := false, toPoll := [], poll := .idle, index := 0, overrun := false,
    periodTimer := false, overruns := 0, handedIndex := 0, handedValid := [false] }

/-- R37, R58. -/
def Weigh.reset : Weigh :=
  { histories := [], latest := none, roundTable := [], zero := [], startZero := [], zeroUnset := true, window := [],
    stable := false, trackingTimer := true, rounds := 0 }

/-- R58. -/
def CaptureUnit.reset : CaptureUnit := { waiting := none, lastOutcome := none, arm := false, quietTimer := false }

/-- No hold source set (R76; METROLOGY, FAULT and SUPPLY are given by their owners). -/
def Holds.clear : Holds :=
  { gatehouse := false, lane := false, manual := false, metrology := false, fault := false, supply := false }

/-- No lamp lit (log 3). -/
def lampsDark : Lamps := { red := false, amber := false, green := false }

/-- R80, R75. -/
def Bridge.reset : Bridge :=
  { waiting := [], arrivals := 0, state := .occupiedUnknown, startMark := true, grant := none, grantTimer := none,
    advance := false, withheld := false, aspectA := .red, aspectB := .red, lampsA := lampsDark, lampsB := lampsDark,
    feedbackA := false, feedbackB := false, holds := .clear }

/-- An empty trace, not frozen (R105). -/
def Trace.reset : Trace := { samples := [], events := [], further := 0, frozen := none }

/-- R87, R105. -/
def Axles.reset : Axles := { entered := 0, exited := 0, disagreements := 0, axleCount := false, trace := .reset }

/-- R204: every slot invalid, the pointer at slot 0. -/
def Tares.defaults : Tares := { slots := [], pointer := 0 }

/-- Totals of zero with clear flags and absent marks (R141, R143). -/
def ShiftTotals.zero : ShiftTotals := { totals := [], flagged := [], firstKey := none, lastKey := none }

/-- R143. -/
def Tickets.defaults : Tickets := { ring := [], shift := .zero, last := none }

/-- No region lost. -/
def noneLost : LostRegions :=
  { calibration := false, audit := false, visits := false, tares := false, tickets := false, site := false,
    evidence := false }

/-- R204, with R205's counts where nothing is left to recover them from (log 2 for the start record). -/
def Calibration.defaults : Calibration :=
  { committed := [], epoch := 0, series := 1, nextNumber := 1, exhausted := false, lastKey := none,
    notVerified := true, accessMark := false, diffMark := false, lockout := none, lockRecord := none,
    flag := none, startRecord := { cause := .powerOn, lost := noneLost }, pendingMark := false,
    snapshotNext := 1 }

/-- R204. -/
def Audit.defaults : Audit := { records := [], next := 1, epochMark := 0 }

/-- R200. -/
def SiteSettings.defaults : SiteSettings :=
  { autoCapture := false, captureTimeout := 20, grantTimeout := 120, visitTimeout := 18, validity := 90,
    holdExit := false, classA := 0, classB := 0, copyToMetrology := false }

/-- 1 January 2000 00:00:00 (R199). -/
def SiteTime.epochStart : SiteTime :=
  { date := { year := 2000, month := 1, day := 1 }, tod := { hour := 0, minute := 0, second := 0 } }

/-- The class table of 10 section 10.1. -/
def Policies.defaults : Policies :=
  { treadleDisagree := .hold, lampFeedback := .hold, visitsLost := .continue_, taresLost := .continue_,
    ticketsLost := .continue_, siteLost := .continue_ }

/-- R204. -/
def Site.defaults : Site :=
  { settings := .defaults, clock := .epochStart, catalogue := [], policies := .defaults }

/-- R180, R191. -/
def Faults.reset : Faults := { register := [], lastStable := none }

/-- R202. -/
def PortState.reset : PortState := { receiver := .hunting, replies := [], notices := [], overflow := false }

/-- R202. -/
def Ports.reset : Ports := { gatehouse := .reset, lane := .reset, metrology := .reset }

/-- The part right after power has come: a start begun with cause POWER_ON (R206, log 1), the retained regions at
their defaults (R204, log 2), everything volatile as its chapter gives it after a start, the input lines as log 3
says. The next thing to happen is START_SEQUENCE. -/
def State.reset : State :=
  { pending := [], phase := .starting .powerOn, bus := .reset, weigh := .reset, capture := .reset, bridge := .reset,
    axles := .reset, visits := [], inUse := none, tares := .defaults, tickets := .defaults, cal := .defaults,
    staged := none, switchOn := false, audit := .defaults, run := none, evidence := [], faults := .reset,
    site := .defaults, clockSet := false, powered := 0, supplyGood := true, dipTimer := false, ports := .reset,
    writes := [], outbox := [], commitNote := none, choices := 0 }

end Sys2Proof.Machine
end

