-- ==== Sys2Proof/Machine/Ops.lean ====
section
/-! DEFINITION. The operations every block uses: rounding, numbered tables, the calendar, notices, ports, retained
writes and the frame of one event. -/

namespace Sys2Proof.Machine

/-! ### Rounding (R16) -/

/-- R16: the integer nearest to n / d, an exact half going away from zero. (R16 divides by no zero: every divisor it
names is a positive parameter; here 0 gives 0.) -/
def roundDiv (n d : Int) : Int :=
  if d = 0 then 0
  else
    let q : Int := ((2 * n.natAbs + d.natAbs) / (2 * d.natAbs) : Nat)
    if (decide (n < 0)) == (decide (d < 0)) then q else -q

/-! ### Numbered tables -/

/-- The entry at a key, if listed. -/
def Table.get? {α : Type} (t : Table α) (k : Nat) : Option α :=
  match t with
  | [] => none
  | (j, a) :: rest => if j = k then some a else Table.get? rest k

/-- The table with the entry at a key set, its keys still rising. -/
def Table.set {α : Type} (t : Table α) (k : Nat) (a : α) : Table α :=
  match t with
  | [] => [(k, a)]
  | (j, b) :: rest =>
    if k < j then (k, a) :: (j, b) :: rest
    else if k = j then (k, a) :: rest
    else (j, b) :: Table.set rest k a

/-- The table with nothing listed at a key. -/
def Table.erase {α : Type} (t : Table α) (k : Nat) : Table α :=
  match t with
  | [] => []
  | (j, b) :: rest => if j = k then Table.erase rest k else (j, b) :: Table.erase rest k

/-- Whether the keys rise strictly and all exceed `low` where one is given. -/
def Table.sortedFrom {α : Type} (low : Option Nat) (t : Table α) : Bool :=
  match t with
  | [] => true
  | (j, _) :: rest =>
    (match low with | none => true | some l => decide (l < j)) && Table.sortedFrom (some j) rest

/-- The canonical form: strictly rising keys. -/
def Table.sorted {α : Type} (t : Table α) : Bool := Table.sortedFrom none t

/-- The lowest number below `bound` that is not a key, searched upward from `k` for `fuel` numbers. -/
def Table.firstFreeFrom {α : Type} (t : Table α) (k : Nat) : Nat → Option Nat
  | 0 => none
  | fuel + 1 => if (Table.get? t k).isNone then some k else Table.firstFreeFrom t (k + 1) fuel

/-- The lowest number below `bound` that is not a key. -/
def Table.firstFree {α : Type} (t : Table α) (bound : Nat) : Option Nat := Table.firstFreeFrom t 0 bound

/-- A list numbered from 1: the decks of a round, the groups of a configuration. -/
def numbered {α : Type} (l : List α) : List (Nat × α) := ((List.range l.length).map (· + 1)).zip l

/-! ### Checks in order -/

/-- The refusal of the first condition that applies, in the order of a rule's table. -/
def refusal : List (Bool × Status) → Option Status
  | [] => none
  | (applies, code) :: rest => if applies then some code else refusal rest

/-! ### The calendar (R199) -/

/-- Whether a year has 29 February. -/
def isLeap (y : Nat) : Bool := (y % 4 == 0) && ((y % 100 != 0) || (y % 400 == 0))

/-- The days of a month, 0 for a number that is no month. -/
def daysInMonth (y m : Nat) : Nat :=
  match m with
  | 1 | 3 | 5 | 7 | 8 | 10 | 12 => 31
  | 4 | 6 | 9 | 11 => 30
  | 2 => if isLeap y then 29 else 28
  | _ => 0

/-- The days of a year before a month begins. -/
def daysBeforeMonth (y : Nat) : Nat → Nat
  | 0 => 0
  | m + 1 => daysBeforeMonth y m + daysInMonth y m

/-- A running number of a date, by which dates are compared and days are added (R120). -/
def dayNumber (d : SiteDate) : Nat :=
  let y := d.year - 1
  365 * y + y / 4 - y / 100 + y / 400 + daysBeforeMonth d.year d.month + d.day

/-- A valid calendar date and time in the clock's range, 1 January 2000 to 31 December 2099 (R199). -/
def SiteTime.valid (t : SiteTime) : Bool :=
  decide (2000 ≤ t.date.year ∧ t.date.year ≤ 2099) && decide (1 ≤ t.date.month ∧ t.date.month ≤ 12)
    && decide (1 ≤ t.date.day ∧ t.date.day ≤ daysInMonth t.date.year t.date.month)
    && decide (t.tod.hour < 24 ∧ t.tod.minute < 60 ∧ t.tod.second < 60)

/-- The day after a date. -/
def SiteDate.next (d : SiteDate) : SiteDate :=
  if d.day < daysInMonth d.year d.month then { d with day := d.day + 1 }
  else if d.month < 12 then { d with month := d.month + 1, day := 1 }
  else { year := d.year + 1, month := 1, day := 1 }

/-- The clock one second on; after 31 December 2099 23:59:59 it holds that value (R199). -/
def SiteTime.tick (t : SiteTime) : SiteTime :=
  if t.tod.second < 59 then { t with tod.second := t.tod.second + 1 }
  else if t.tod.minute < 59 then { t with tod.minute := t.tod.minute + 1, tod.second := 0 }
  else if t.tod.hour < 23 then { t with tod := { hour := t.tod.hour + 1, minute := 0, second := 0 } }
  else if t.date.year = 2099 ∧ t.date.month = 12 ∧ t.date.day = 31 then t
  else { date := t.date.next, tod := { hour := 0, minute := 0, second := 0 } }

/-! ### Ports and notices -/

/-- The state of one port. -/
def State.port (s : State) : Port → PortState
  | .gatehouse => s.ports.gatehouse
  | .lane => s.ports.lane
  | .metrology => s.ports.metrology

/-- The state with one port's state replaced. -/
def State.setPort (s : State) (p : Port) (q : PortState) : State :=
  match p with
  | .gatehouse => { s with ports.gatehouse := q }
  | .lane => { s with ports.lane := q }
  | .metrology => { s with ports.metrology := q }

/-- The number of a notice in the notice table of R198. -/
def Notice.number : Notice → Nat
  | .captureOutcome .. => 1
  | .granted .. => 2
  | .noShow .. => 3
  | .intrusion .. => 4
  | .exitWithheld .. => 5
  | .axleCount .. => 6
  | .reposition .. => 7
  | .overVerdict .. => 8
  | .weighingRestarted .. => 9
  | .traceFrozen .. => 10
  | .firstWeighed .. => 11
  | .tareGone .. => 12
  | .leftUnweighed .. => 13
  | .visitExpired .. => 14
  | .tareReplaced .. => 15
  | .tareTableFull .. => 16
  | .seriesRolled .. => 17
  | .sequenceExhausted => 18
  | .ticketRingFull .. => 19
  | .ticketIssued .. => 20
  | .ticketIssuedShort .. => 20
  | .calibrationCommitted .. => 21
  | .accessClosed => 22
  | .auditNearFull .. => 23
  | .testPointRecorded .. => 24
  | .testPointEnded .. => 24
  | .verificationEnded .. => 25
  | .snapshotTaken .. => 26
  | .faultRaised .. => 27
  | .lockoutEntered .. => 28
  | .lockoutCleared .. => 29

/-- A notice of the event in hand, for one port; it joins the port's queue when the event ends (R197). -/
def State.post (s : State) (p : Port) (n : Notice) : State := { s with outbox := s.outbox ++ [(p, n)] }

/-- A notice for several ports, each judged on its own (R197). -/
def State.postAll (s : State) (ps : List Port) (n : Notice) : State := ps.foldl (fun t p => t.post p n) s

/-- The notice of R197 that the copy setting sends to the Metrology Port as well. -/
def State.postCopy (s : State) (n : Notice) : State :=
  if s.site.settings.copyToMetrology then s.post .metrology n else s

/-- R197: a notice is added at the newest end of a queue of up to 16, or discarded with the overflow mark set. -/
def PortState.push (q : PortState) (n : Notice) : PortState :=
  if q.notices.length < 16 then { q with notices := q.notices ++ [n] } else { q with overflow := true }

/-- Insertion into a list of notices in ascending order of number, after equal numbers. -/
def insertNotice (n : Notice) : List Notice → List Notice
  | [] => [n]
  | m :: rest => if n.number < m.number then n :: m :: rest else m :: insertNotice n rest

/-- Notices in ascending order of number, equal numbers in the order given (R197). -/
def sortNotices (ns : List Notice) : List Notice := ns.foldl (fun acc n => insertNotice n acc) []

/-- The notices of the outbox for one port. -/
def outboxFor (box : List (Port × Notice)) (p : Port) : List Notice :=
  (box.filter (fun e => e.1 = p)).map (·.2)

/-- The end of an event: its notices join the queues in ascending order of number (R197). -/
def State.flush (s : State) : State :=
  let deliver (q : PortState) (p : Port) : PortState := (sortNotices (outboxFor s.outbox p)).foldl PortState.push q
  { s with
    outbox := []
    ports := { gatehouse := deliver s.ports.gatehouse .gatehouse
               lane := deliver s.ports.lane .lane
               metrology := deliver s.ports.metrology .metrology } }

/-- The attention line of a port: asserted while its queue holds a notice (R197). -/
def State.attention (s : State) (p : Port) : Bool := !(s.port p).notices.isEmpty

/-! ### Retained writes (R203) -/

/-- The regions whose content differs between two states (R203: the regions an event touched). -/
def changedRegions (s t : State) : List Region :=
  (if s.cal = t.cal then [] else [.calibration]) ++ (if s.audit = t.audit then [] else [.audit])
    ++ (if s.visits = t.visits then [] else [.visits]) ++ (if s.tares = t.tares then [] else [.tares])
    ++ (if s.tickets = t.tickets then [] else [.tickets]) ++ (if s.site = t.site then [] else [.site])
    ++ (if s.evidence = t.evidence then [] else [.evidence])

/-- R203: an event that changed retained state, from `s` to `t`, begins a retained write of the regions it touched, joined
to the note of a commit where it made one (log 9). -/
def retain (s t : State) : State :=
  if (changedRegions s t).isEmpty && t.commitNote.isNone then t
  else
    { t with
      writes := t.writes ++ [{ regions := changedRegions s t, commit := t.commitNote }]
      commitNote := none }

/-- R203: a retained write of regions begun, where there are any. -/
def State.beginWrite (s : State) (regions : List Region) : State :=
  if regions.isEmpty then s else { s with writes := s.writes ++ [{ regions := regions, commit := none }] }

/-! ### Commands -/

/-- Control is with the blocks (R206). -/
def State.running (s : State) : Bool := s.phase = .running

/-- A command that the blocks take: nothing while a start stands (R206: every block stops taking events), else its
effect. -/
def act (f : State → State) (s : State) : Host.Outcome State Fault Refusal :=
  .next (if s.running then f s else s)

/-- The other end of the bridge. -/
def otherEnd : BridgeEnd → BridgeEnd
  | .a => .b
  | .b => .a

/-- The number of an end in a fault instance (R201). -/
def endNumber : BridgeEnd → Nat
  | .a => 0
  | .b => 1

end Sys2Proof.Machine
end

