-- ==== Sys2Proof/Machine/Operands.lean ====
section
/-! DEFINITION. The operand forms: fields of request payloads (R201), answers of cells (R3), and the CRC of a frame
(R192). -/

namespace Sys2Proof.Machine

/-! ### Fields (R201) -/

/-- Octets as a number, high octet first. -/
def natOf : List Octet → Nat := List.foldl (fun acc o => 256 * acc + o.toNat) 0

/-- Octets as a signed number in two's complement, high octet first. -/
def intOf (os : List Octet) : Int :=
  let n := natOf os
  if 2 * n < 256 ^ os.length then (n : Int) else (n : Int) - ((256 ^ os.length : Nat) : Int)

/-- The octets of a field by offset and length. -/
def field (payload : List Octet) (offset len : Nat) : List Octet := (payload.drop offset).take len

/-- An unsigned field. -/
def natAt (payload : List Octet) (offset len : Nat) : Nat := natOf (field payload offset len)

/-- A signed field. -/
def intAt (payload : List Octet) (offset len : Nat) : Int := intOf (field payload offset len)

/-- A character of an ident: A to Z or 0 to 9 (00 section 5.3). -/
def isIdentChar (o : Octet) : Bool :=
  decide (0x41 ≤ o.toNat ∧ o.toNat ≤ 0x5A) || decide (0x30 ≤ o.toNat ∧ o.toNat ≤ 0x39)

/-- The characters of an ident field: its octets before the octets of value 0 that fill it. -/
def stripZeros (os : List Octet) : List Octet := (os.reverse.dropWhile (fun o => o = 0#8)).reverse

/-- R201: a well-formed ident: 1 to 12 characters, none of them outside A to Z and 0 to 9. -/
def identOk (id : Ident) : Bool := decide (1 ≤ id.length ∧ id.length ≤ 12) && id.all isIdentChar

/-- The ident of a 12-octet field, none where it is malformed (R201). -/
def identAt (payload : List Octet) (offset : Nat) : Option Ident :=
  let id := stripZeros (field payload offset 12)
  if identOk id then some id else none

/-- A bit of an octet. -/
def bitAt (payload : List Octet) (offset place : Nat) : Bool := (natAt payload offset 1 / 2 ^ place) % 2 = 1

/-- An end: 0 A, 1 B (R201). -/
def endOf : Nat → Option BridgeEnd
  | 0 => some .a
  | 1 => some .b
  | _ => none

/-- A visit kind: 0 DELIVERY, 1 COLLECTION (R201). -/
def kindOf : Nat → Option VisitKind
  | 0 => some .delivery
  | 1 => some .collection
  | _ => none

/-- A fault class: 0 to 9 in the order of the class table (R201). -/
def faultClassOf : Nat → Option FaultClass
  | 0 => some .cellSilent
  | 1 => some .cellFault
  | 2 => some .cellSubstituted
  | 3 => some .roundOverrun
  | 4 => some .treadleDisagree
  | 5 => some .lampFeedback
  | 6 => some .visitsLost
  | 7 => some .taresLost
  | 8 => some .ticketsLost
  | 9 => some .siteLost
  | _ => none

/-- A policy: 0 HOLD, 1 CONTINUE (R201). -/
def policyOf : Nat → Option Policy
  | 0 => some .hold
  | 1 => some .continue_
  | _ => none

/-- A configuration code, 0 standing for none (R201). -/
def codeOf (n : Nat) : Option Nat := if n = 0 then none else some n

/-- A priority class, 255 standing for none (R201). -/
def classOf (n : Nat) : Option Nat := if n = 255 then none else some n

/-- A site time of 7 octets: year (2), month, day, hour, minute, second (R201). -/
def timeAt (payload : List Octet) (offset : Nat) : SiteTime :=
  { date := { year := natAt payload offset 2, month := natAt payload (offset + 2) 1, day := natAt payload (offset + 3) 1 }
    tod := { hour := natAt payload (offset + 4) 1, minute := natAt payload (offset + 5) 1,
             second := natAt payload (offset + 6) 1 } }

/-- The configuration of a Write Configuration payload (R201): the number of groups, eight group entries of axles and
limit, the combination limit and the tolerance; entries beyond the number of groups are not read. -/
def configurationAt (payload : List Octet) : Configuration :=
  { groups := (List.range (min (natAt payload 1 1) 8)).map
      (fun j => { axles := natAt payload (2 + 5 * j) 1, limit := intAt payload (3 + 5 * j) 4 })
    combination := intAt payload 42 4
    tolerance := natAt payload 46 2 }

/-! ### Answers of cells (R3) -/

/-- The exclusive-or of octets: the check octet of a poll or an answer (R3). -/
def checkOctet (os : List Octet) : Octet := os.foldl (fun acc o => acc ^^^ o) 0#8

/-- A status octet: 0 OK, 1 OVER_RANGE, 2 INTERNAL_FAULT (R3). -/
def cellStatusOf : Nat → Option CellStatus
  | 0 => some .ok
  | 1 => some .overRange
  | 2 => some .internalFault
  | _ => none

/-- R3: the reply that a complete answer is to a poll of `address`, or none: it begins with 0x5A, is addressed from
the polled cell, its check octet is the exclusive-or of its first ten octets and its status is one of the three. -/
def cellReply (answer : List Octet) (address : Nat) : Option CellReply :=
  if answer.length = 11 ∧ natAt answer 0 1 = 0x5A ∧ natAt answer 1 1 = address
      ∧ checkOctet (answer.take 10) = (field answer 10 1).headD 0#8 then
    match cellStatusOf (natAt answer 9 1) with
    | some st => some { serial := natAt answer 2 4, count := intAt answer 6 3, status := st }
    | none => none
  else none

/-- R3: the answer of a reply window that holds some of its octets, when more are received: it begins with the first
octet 0x5A received in the window and ends with its eleventh octet; what is left over is discarded. -/
def answerReceived (received octets : List Octet) : List Octet :=
  ((received ++ octets).dropWhile (· != 0x5A#8)).take 11

/-- The three octets of the poll of an address (R3). -/
def pollOctets (address : Nat) : List Octet :=
  let a := BitVec.ofNat 8 address
  [0x5A#8, a, checkOctet [0x5A#8, a]]

/-! ### The CRC of a frame (R192) -/

/-- One bit of the CRC: shift left, and the polynomial 0x1021 where a one is shifted out. -/
def crcBit (c : BitVec 16) : BitVec 16 := if c.msb then (c <<< 1) ^^^ 0x1021#16 else c <<< 1

/-- One octet of the CRC, most significant bit first. -/
def crcOctet (c : BitVec 16) (o : Octet) : BitVec 16 :=
  let c0 := c ^^^ (o.zeroExtend 16 <<< 8)
  crcBit (crcBit (crcBit (crcBit (crcBit (crcBit (crcBit (crcBit c0)))))))

/-- CRC-16 over octets: polynomial 0x1021, initial value 0xFFFF, no final inversion (R192). -/
def crc16 (os : List Octet) : BitVec 16 := os.foldl crcOctet 0xFFFF#16

end Sys2Proof.Machine
end

