-- ==== Sys2Proof/Machine/Parameters.lean ====
section
/-! DEFINITION. The calibration table: ids, ranges and defaults of R144, and the values the blocks read from it. -/

namespace Sys2Proof.Machine

/-- The default of a parameter (R144). -/
def paramDefault (id : Nat) : Int :=
  if id = 1 then 20
  else if id = 2 then 60000
  else if id = 3 then 1
  else if id = 4 then 40
  else if id = 5 then 8
  else if id = 6 then 12
  else if id = 7 then 4
  else if id = 9 then 50
  else if id = 10 then 3
  else if id = 100 ∨ id = 200 ∨ id = 300 ∨ id = 400 then 60000
  else if 1010 ≤ id ∧ id < 1170 ∧ id % 10 = 2 then 65536
  else 0

/-- The value of a parameter: the listed value, or its default. -/
def CalTable.val (t : CalTable) (id : Nat) : Int := (Table.get? t id).getD (paramDefault id)

/-- The table with a parameter set; a parameter at its default is not listed. -/
def CalTable.put (t : CalTable) (id : Nat) (v : Int) : CalTable :=
  if v = paramDefault id then Table.erase t id else Table.set t id v

/-- The ids of deck d's parameters in ascending order (R144). -/
def deckParamIds (d : Nat) : List Nat :=
  [100 * d, 100 * d + 1, 100 * d + 2, 100 * d + 11, 100 * d + 12, 100 * d + 13, 100 * d + 14, 100 * d + 15,
   100 * d + 21, 100 * d + 22, 100 * d + 23, 100 * d + 24, 100 * d + 25]

/-- The ids of cell i's parameters in ascending order (R144). -/
def cellParamIds (i : Nat) : List Nat := [1000 + 10 * i, 1000 + 10 * i + 1, 1000 + 10 * i + 2, 1000 + 10 * i + 3]

/-- The cell addresses. -/
def addresses : List Nat := [1, 2, 3, 4, 5, 6, 7, 8, 9, 10, 11, 12, 13, 14, 15, 16]

/-- All parameter ids in ascending order (R144). -/
def paramIds : List Nat :=
  [1, 2, 3, 4, 5, 6, 7, 8, 9, 10] ++ [1, 2, 3, 4].flatMap deckParamIds ++ addresses.flatMap cellParamIds

/-- Whether an id is in the table of R144. -/
def isParam (id : Nat) : Bool := paramIds.contains id

/-! ### Reading the table -/

/-- e in kg. -/
def CalTable.e (t : CalTable) : Int := t.val 1
/-- Bridge Max in kg. -/
def CalTable.bridgeMax (t : CalTable) : Int := t.val 2
/-- The number of decks D. -/
def CalTable.decks (t : CalTable) : Nat := (t.val 3).toNat
/-- The round period in ms. -/
def CalTable.period (t : CalTable) : Nat := (t.val 4).toNat
/-- The filter depth N. -/
def CalTable.depth (t : CalTable) : Nat := (t.val 5).toNat
/-- The stability window S. -/
def CalTable.stabilityRounds (t : CalTable) : Nat := (t.val 6).toNat
/-- The stability band in grams: quarter-divisions × 250 × e (R38). -/
def CalTable.bandGrams (t : CalTable) : Int := t.val 7 * 250 * t.e
/-- Zero tracking on. -/
def CalTable.tracking (t : CalTable) : Bool := t.val 8 = 1
/-- The occupancy threshold in kg: its multiple of e (R71, R93). -/
def CalTable.occupancyKg (t : CalTable) : Int := t.val 9 * t.e
/-- The consistency band in kg (R96). -/
def CalTable.consistencyKg (t : CalTable) : Int := t.val 10 * t.e
/-- Deck Max of deck d in kg. -/
def CalTable.deckMax (t : CalTable) (d : Nat) : Int := t.val (100 * d)
/-- The calibrated zero Z0_d in g. -/
def CalTable.zero0 (t : CalTable) (d : Nat) : Int := t.val (100 * d + 1)
/-- The deck of cell i, 0 for none. -/
def CalTable.cellDeck (t : CalTable) (i : Nat) : Int := t.val (1000 + 10 * i)
/-- The zero count z_i. -/
def CalTable.zeroCount (t : CalTable) (i : Nat) : Int := t.val (1000 + 10 * i + 1)
/-- The span factor f_i. -/
def CalTable.spanFactor (t : CalTable) (i : Nat) : Int := t.val (1000 + 10 * i + 2)
/-- The serial number held for address i. -/
def CalTable.serial (t : CalTable) (i : Nat) : Int := t.val (1000 + 10 * i + 3)

/-- The cells of deck d: the addresses whose deck parameter is d (R144), in ascending order. -/
def CalTable.cellsOf (t : CalTable) (d : Nat) : List Nat := addresses.filter (fun i => t.cellDeck i = (d : Int))

/-- The decks 1 to D. -/
def CalTable.deckList (t : CalTable) : List Nat := (List.range t.decks).map (· + 1)

/-- Whether an address is CONFIGURED: listed for a deck 1 to D (R1). -/
def CalTable.configured (t : CalTable) (i : Nat) : Bool := decide (1 ≤ t.cellDeck i ∧ t.cellDeck i ≤ (t.decks : Int))

/-- The CONFIGURED addresses in ascending order (R2). -/
def CalTable.configuredList (t : CalTable) : List Nat := addresses.filter (fun i => t.configured i)

/-- The linearization points 1 to P of deck d: raw sum and correction. -/
def CalTable.points (t : CalTable) (d : Nat) : List (Int × Int) :=
  (List.range (t.val (100 * d + 2)).toNat).map
    (fun j => (t.val (100 * d + 10 + (j + 1)), t.val (100 * d + 20 + (j + 1))))

/-- R23: each raw sum exceeds the one before it, and the first exceeds `low`. -/
def pointsRise (low : Int) : List (Int × Int) → Bool
  | [] => true
  | (w, _) :: rest => decide (low < w) && pointsRise w rest

/-- R23: the points of deck d are in order. -/
def CalTable.pointsInOrder (t : CalTable) (d : Nat) : Bool := pointsRise 0 (t.points d)

/-! ### Ranges (R144, R147) -/

/-- Whether a Max value suits e: a whole multiple of e between 100e and 10,000e. -/
def maxSuits (e m : Int) : Bool := decide (m % e = 0 ∧ 100 * e ≤ m ∧ m ≤ 10000 * e)

/-- Whether a value is one of a list. -/
def oneOf (v : Int) (vs : List Int) : Bool := vs.contains v

/-- Whether a value lies between two, both included. -/
def between (lo v hi : Int) : Bool := decide (lo ≤ v ∧ v ≤ hi)

/-- The range of a deck parameter by its offset from 100d. -/
def deckParamInRange (t : CalTable) (offset : Nat) (v : Int) : Bool :=
  if offset = 0 then maxSuits t.e v
  else if offset = 1 then between (-2000000000) v 2000000000
  else if offset = 2 then between 0 v 5
  else if offset < 20 then between 0 v 4000000000
  else between (-1000000) v 1000000

/-- The range of a cell parameter by its offset from 1000 + 10i. -/
def cellParamInRange (offset : Nat) (v : Int) : Bool :=
  if offset = 0 then between 0 v 4
  else if offset = 1 then between (-8388608) v 8388607
  else if offset = 2 then between 1 v 16777215
  else between 0 v 4294967295

/-- R147: whether a value lies in the range of a parameter, Max values judged against the table's e and a value of e
judged together with the five Max values. -/
def paramInRange (t : CalTable) (id : Nat) (v : Int) : Bool :=
  if id = 1 then
    oneOf v [1, 2, 5, 10, 20, 50, 100] && maxSuits v t.bridgeMax && maxSuits v (t.deckMax 1)
      && maxSuits v (t.deckMax 2) && maxSuits v (t.deckMax 3) && maxSuits v (t.deckMax 4)
  else if id = 2 then maxSuits t.e v
  else if id = 3 then between 1 v 4
  else if id = 4 then oneOf v [20, 40, 80]
  else if id = 5 then oneOf v [1, 2, 4, 8, 16]
  else if id = 6 then between 4 v 32
  else if id = 7 then between 1 v 8
  else if id = 8 then between 0 v 1
  else if id = 9 then between 10 v 500
  else if id = 10 then between 1 v 10
  else if id < 1000 then deckParamInRange t (id % 100) v
  else cellParamInRange (id % 10) v

/-- The changed parameters between two tables in ascending order of id (R146, R152). -/
def paramChanges (old new : CalTable) : List ParamChange :=
  (paramIds.filter (fun id => old.val id ≠ new.val id)).map
    (fun id => { id := id, old := old.val id, new := new.val id })

/-- The table in use: the staged table while access is OPEN, else the committed table (R1). -/
def State.tableInUse (s : State) : CalTable := s.staged.getD s.cal.committed

/-- Calibration access is OPEN. -/
def State.accessOpen (s : State) : Bool := s.staged.isSome

end Sys2Proof.Machine
end

