-- ==== Sys2Proof/Machine/Flags.lean ====
section
/-! DEFINITION. The words and flags computed from state: the live weight, whether a hold is in force, the port
status octet and the numbers of the status codes. -/

namespace Sys2Proof.Machine

/-- The number of a status code (R196). -/
def Status.code : Status → Nat
  | .ok => 0
  | .accepted => 1
  | .empty => 2
  | .malformed => 3
  | .notPermitted => 4
  | .busy => 5
  | .aborted => 16
  | .accessOpen => 17
  | .alreadyOpen => 18
  | .axleCount => 19
  | .badArgument => 20
  | .badConfiguration => 21
  | .badParameter => 22
  | .bridgeOccupied => 23
  | .capturePending => 24
  | .captureTimeout => 25
  | .cellAssignment => 26
  | .configurationInUse => 27
  | .draftLimit => 28
  | .duplicate => 29
  | .duplicateVisit => 30
  | .epochExhausted => 31
  | .fault => 32
  | .faultsActive => 33
  | .fixedConfiguration => 34
  | .fixedPolicy => 35
  | .held => 36
  | .kindFixed => 37
  | .linearizationOrder => 38
  | .lockout => 39
  | .logFull => 40
  | .motion => 41
  | .noDrafts => 42
  | .noGroup => 43
  | .noLockout => 44
  | .noPoints => 45
  | .noRun => 46
  | .noSuchCell => 47
  | .noSuchConfiguration => 48
  | .noSuchParameter => 49
  | .noSuchRecord => 50
  | .noSuchSample => 51
  | .noSuchSlot => 52
  | .noSuchSnapshot => 53
  | .noSuchTicket => 54
  | .noTare => 55
  | .noVehicle => 56
  | .noVisit => 57
  | .notForTrade => 58
  | .notOpen => 59
  | .notQueued => 60
  | .notWhollyOn => 61
  | .nothingOutstanding => 62
  | .nothingToCollect => 63
  | .partialGroup => 64
  | .pointPending => 65
  | .queueFull => 66
  | .range => 67
  | .runActive => 68
  | .runFull => 69
  | .sequenceExhausted => 70
  | .seriesLimit => 71
  | .snapshotProtected => 72
  | .spanRange => 73
  | .straddle => 74
  | .supply => 75
  | .switchOff => 76
  | .tareKeyed => 77
  | .tareTableFull => 78
  | .ticketStoreFull => 79
  | .visitInUse => 80
  | .visitTableFull => 81
  | .zeroRange => 82
  | .zeroUnset => 83

/-- A hold is in force: at least one of the five sources is set (04 section 4.5). -/
def Holds.inForce (h : Holds) : Bool := h.gatehouse || h.lane || h.metrology || h.fault || h.supply

/-- A hold is in force. -/
def State.held (s : State) : Bool := s.bridge.holds.inForce

/-- Lockout stands. -/
def State.locked (s : State) : Bool := s.cal.lockout.isSome

/-- Calibration access is OPEN, lockout stands or NOT_VERIFIED is set: what makes a capture NOT_FOR_TRADE (R47,
R49). -/
def State.notForTrade (s : State) : Bool := s.accessOpen || s.locked || s.cal.notVerified

/-- The state word of the live weight, the first of R33's table that applies. -/
def State.liveWord (s : State) : LiveWord :=
  match s.weigh.latest with
  | none => .invalid
  | some v =>
    if !v.valid then .invalid
    else if v.range = .overload then .overload
    else if v.range = .underload then .underload
    else if s.accessOpen && v.decks.any (·.linearizationDisabled) then .calIncomplete
    else if s.accessOpen || s.cal.notVerified then .notForTrade
    else if s.weigh.zeroUnset then .zeroUnset
    else if s.weigh.stable then .stable
    else .motion

/-- The number of a state word (R196). -/
def LiveWord.code : LiveWord → Nat
  | .invalid => 0
  | .overload => 1
  | .underload => 2
  | .calIncomplete => 3
  | .notForTrade => 4
  | .zeroUnset => 5
  | .stable => 6
  | .motion => 7

/-- The value of the live weight (R34): the rounded bridge weight of the latest round, absent while the word is
INVALID, OVERLOAD or UNDERLOAD. -/
def State.liveValue (s : State) : Option Int :=
  match s.liveWord with
  | .invalid | .overload | .underload => none
  | _ => s.weigh.latest.bind (·.rounded)

/-- One bit of the port status octet. -/
def statusBit (b : Bool) (place : Nat) : Nat := if b then 2 ^ place else 0

/-- The port status octet of a port (R196): live weight word, hold, lockout, overflow mark, attention. -/
def State.portStatus (s : State) (p : Port) : Octet :=
  BitVec.ofNat 8 (s.liveWord.code + statusBit s.held 3 + statusBit s.locked 4 + statusBit (s.port p).overflow 5
    + statusBit (s.attention p) 6)

end Sys2Proof.Machine
end

