-- ==== Sys2Proof/Machine/AuditOps.lean ====
section
/-! DEFINITION. The audit log's slots, claims and headroom, and the append (R159 to R161). -/

namespace Sys2Proof.Machine

/-- The free slots: 200 less the records held (R159). -/
def State.auditFree (s : State) : Nat := 200 - s.audit.records.length

/-- No further record can be numbered (R159). -/
def State.auditExhausted (s : State) : Bool := decide (4294967295 < s.audit.next)

/-- The claims on free slots: lockout, and access or the run (R159). -/
def State.auditClaims (s : State) : Nat :=
  (if s.locked then 1 else 0) + (if s.accessOpen then 1 else 0) + (if s.run.isSome then 1 else 0)

/-- The headroom: the free slots less the claims, less one while the lockout spare is set aside (R159). -/
def State.headroom (s : State) : Int :=
  (s.auditFree : Int) - (s.auditClaims : Int) - (if s.locked then 0 else 1)

/-- The lockout claim is met: the free slots reach it (R159). -/
def State.lockoutClaimMet (s : State) : Bool := decide (1 ≤ s.auditFree)

/-- The claim of access or of the run is met, after the lockout claim (R159). -/
def State.holderClaimMet (s : State) : Bool := decide ((if s.locked then 2 else 1) ≤ s.auditFree)

/-- The need of Key Tare, Roll Ticket Series, Restart, Open Calibration and Begin Verification (R159). -/
def State.hasHeadroom (s : State) : Bool := !s.auditExhausted && decide (1 ≤ s.headroom)

/-- The need of Commit Calibration and End Verification (R159). -/
def State.holderMayAppend (s : State) : Bool := !s.auditExhausted && s.holderClaimMet

/-- The need of Clear Lockout (R159). -/
def State.lockoutMayAppend (s : State) : Bool := !s.auditExhausted && s.lockoutClaimMet

/-- R159: a record is appended with the next record number, which increases by one; the epoch mark rises with the
epoch after (R203). -/
def State.appendAudit (s : State) (before after : Nat) (body : AuditBody) : State :=
  { s with
    audit := { records := s.audit.records ++ [{ number := s.audit.next, time := s.site.clock, epochBefore := before,
                                                epochAfter := after, body := body }]
               next := s.audit.next + 1
               epochMark := max s.audit.epochMark after } }

/-- R158: a record of any kind but CAL_CHANGE carries the epoch as both epochs. -/
def State.appendAtEpoch (s : State) (body : AuditBody) : State := s.appendAudit s.cal.epoch s.cal.epoch body

/-- R161: the notice of an append that leaves 180 or more records, on the log as the event leaves it (log 23). -/
def State.noteNearFull (s : State) : State :=
  if 180 ≤ s.audit.records.length then
    s.post .metrology (.auditNearFull s.audit.records.length s.auditFree s.headroom)
  else s

/-- The number of the newest record, 0 for an empty log. -/
def State.newestRecord (s : State) : Nat := (s.audit.records.getLast?.map (·.number)).getD 0

/-- The audit log summary (R162). -/
def State.auditSummary (s : State) : AuditSummary :=
  { held := s.audit.records.length
    oldest := s.audit.records.head?.map (·.number)
    newest := s.audit.records.getLast?.map (·.number)
    next := if s.auditExhausted then none else some s.audit.next
    free := s.auditFree
    lockoutClaim := if s.locked then some s.lockoutClaimMet else none
    accessClaim := if s.accessOpen then some s.holderClaimMet else none
    runClaim := if s.run.isSome then some s.holderClaimMet else none
    spare := !s.locked
    headroom := s.headroom }

end Sys2Proof.Machine
end

