-- ==== Sys2Proof/Machine/EvidenceOps.lean ====
section
/-! DEFINITION. Taking a snapshot into the Evidence Store (R175, R176). -/

namespace Sys2Proof.Machine

/-- A cell record that is ABSENT and blank: what an address that is not listed reads as. -/
def CellRecord.absent : CellRecord :=
  { configured := false, condition := none, miss := 0, lastCount := none, lastStatus := none, lastSerial := none }

/-- The record of a cell address. -/
def Bus.record (b : Bus) (i : Nat) : CellRecord := (Table.get? b.records i).getD CellRecord.absent

/-- The number after a snapshot number (R176). -/
def nextSnapshotNumber (n : Nat) : Nat := if n = 4294967295 then 1 else n + 1

/-- R176: the first number from n on that no snapshot in the store holds (at most eight are held). -/
def freeSnapshotNumber (held : List Nat) (n : Nat) : Nat → Nat
  | 0 => n
  | fuel + 1 => if held.contains n then freeSnapshotNumber held (nextSnapshotNumber n) fuel else n

/-- R176: the lowest-numbered empty slot. -/
def emptySlot (ev : List EvidenceSlot) : Option Nat :=
  [0, 1, 2, 3, 4, 5, 6, 7].find? (fun i => !ev.any (fun x => x.slot = i))

/-- R176: the slot of the oldest snapshot that is not of kind LOCKOUT; the store is kept in the order taken. -/
def oldestReplaceable (ev : List EvidenceSlot) : Option Nat :=
  (ev.find? (fun x => x.snapshot.kind ≠ .lockout)).map (·.slot)

/-- R176: the slot of an existing LOCKOUT snapshot. -/
def lockoutSlot (ev : List EvidenceSlot) : Option Nat :=
  (ev.find? (fun x => x.snapshot.kind = .lockout)).map (·.slot)

/-- R176: the slot a new snapshot of a kind takes. -/
def chooseEvidenceSlot (ev : List EvidenceSlot) (kind : SnapshotKind) : Nat :=
  let forLockout := if kind = .lockout then lockoutSlot ev else none
  match forLockout with
  | some i => i
  | none =>
    match emptySlot ev with
    | some i => i
    | none => (oldestReplaceable ev).getD 0

/-- The content of a snapshot (R175): the cell records, clock, epoch and ident of this moment, the deck and bridge
fields of the latest round values (which are the completing round's for OVER_VERDICT). -/
def State.snapshotOf (s : State) (number : Nat) (kind : SnapshotKind) (draft : Option Nat) : Snapshot :=
  { number := number
    kind := kind
    time := s.site.clock
    epoch := s.cal.epoch
    round := s.weigh.latest.map (·.index)
    cells := addresses.map (fun i =>
      let r := s.bus.record i
      { configured := r.configured, condition := r.condition, lastCount := r.lastCount, lastStatus := r.lastStatus })
    decks := ((s.weigh.latest.map (·.decks)).getD []).map (fun d =>
      { validity := d.validity, raw := d.raw, linearized := d.linearized, filtered := d.filtered,
        zeroUsed := d.zeroUsed, gross := d.gross })
    gross := s.weigh.latest.bind (·.gross)
    rounded := s.weigh.latest.bind (·.rounded)
    stable := s.weigh.latest.map (fun _ => s.weigh.stable)
    ident := s.bridge.grant.map (·.ident)
    draft := draft }

/-- The number the next snapshot takes (R176). -/
def State.snapshotNumber (s : State) : Nat :=
  freeSnapshotNumber (s.evidence.map (·.snapshot.number)) s.cal.snapshotNext 9

/-- R175, R176: a snapshot is taken into the slot chosen for it, the counter moves on and SNAPSHOT_TAKEN is queued
at the Metrology Port. -/
def State.takeSnapshot (s : State) (kind : SnapshotKind) (draft : Option Nat) : State :=
  let number := s.snapshotNumber
  let slot := chooseEvidenceSlot s.evidence kind
  let replaced := (s.evidence.find? (fun x => x.slot = slot)).map (fun x => (x.snapshot.number, x.snapshot.kind))
  let t : State :=
    { s with
      evidence := s.evidence.filter (fun x => x.slot ≠ slot)
        ++ [{ slot := slot, snapshot := s.snapshotOf number kind draft }]
      cal.snapshotNext := nextSnapshotNumber number }
  t.post .metrology (.snapshotTaken number kind slot replaced)

end Sys2Proof.Machine
end

