-- ==== Sys2Proof/Machine/FaultOps.lean ====
section
/-! DEFINITION. The Fault Unit: register, FAULT source, raises, escalation and lockout (R180 to R188), with the end
of a verification run that a metrological raise brings (R172). -/

namespace Sys2Proof.Machine

/-- The number of a fault class, in the order of the class table (R201). -/
def FaultClass.number : FaultClass → Nat
  | .cellSilent => 0
  | .cellFault => 1
  | .cellSubstituted => 2
  | .roundOverrun => 3
  | .treadleDisagree => 4
  | .lampFeedback => 5
  | .visitsLost => 6
  | .taresLost => 7
  | .ticketsLost => 8
  | .siteLost => 9

/-- The ten classes in order. -/
def faultClasses : List FaultClass :=
  [.cellSilent, .cellFault, .cellSubstituted, .roundOverrun, .treadleDisagree, .lampFeedback, .visitsLost, .taresLost,
   .ticketsLost, .siteLost]

/-- Whether a class is metrological (10 section 10.1). -/
def FaultClass.metrological : FaultClass → Bool
  | .cellSilent | .cellFault | .cellSubstituted | .roundOverrun => true
  | _ => false

/-- The policy of a class; the metrological classes have the fixed policy HOLD (R182). -/
def State.policy (s : State) : FaultClass → Policy
  | .treadleDisagree => s.site.policies.treadleDisagree
  | .lampFeedback => s.site.policies.lampFeedback
  | .visitsLost => s.site.policies.visitsLost
  | .taresLost => s.site.policies.taresLost
  | .ticketsLost => s.site.policies.ticketsLost
  | .siteLost => s.site.policies.siteLost
  | _ => .hold

/-- The place of an instance in the register: by class as the table of 10 section 10.1 lists them, then by instance. The
spec gives the entries no order; this is the one in which they are listed (DESIGN CHOICE, log 46). -/
def FaultKey.place (k : FaultKey) : Nat := 32 * k.cls.number + k.inst

/-- The entry of an instance that has not been raised since the start (R180). -/
def FaultEntry.blank (k : FaultKey) : FaultEntry :=
  { key := k, present := false, outstanding := false, count := 0, raisedAt := none }

/-- The register entry of an instance. -/
def State.faultEntry (s : State) (k : FaultKey) : FaultEntry :=
  (Table.get? s.faults.register k.place).getD (FaultEntry.blank k)

/-- The register with an entry replaced. -/
def State.setFaultEntry (s : State) (k : FaultKey) (f : FaultEntry) : State :=
  { s with faults.register := Table.set s.faults.register k.place f }

/-! ### The FAULT hold source (R183) -/

/-- A present entry whose class has policy HOLD. -/
def State.heldByPresent (s : State) : Bool :=
  s.faults.register.any (fun e => e.2.present && s.policy e.2.key.cls = .hold)

/-- The fault-outstanding flag is set. -/
def State.flagSet (s : State) : Bool := s.cal.flag.isSome

/-- An unacknowledged TREADLE_DISAGREE whose class has policy HOLD. -/
def State.heldByMark (s : State) : Bool :=
  s.faults.register.any (fun e => e.2.key.cls = .treadleDisagree && e.2.outstanding && s.policy .treadleDisagree = .hold)

/-- R183: what the FAULT source is judged to be. -/
def State.faultJudged (s : State) : Bool := s.heldByPresent || s.flagSet || s.heldByMark || s.locked

/-! ### Lockout (R187) -/

/-- R187: lockout is entered with a code, unless it already stands. The record lists the present entries by class, then
by instance (DESIGN CHOICE, log 46). -/
def State.enterLockout (s : State) (code : LockCode) : State :=
  if s.locked then s
  else
    let record : LockRecord :=
      { code := code, time := s.site.clock, bridge := s.bridge.state, ident := s.bridge.grant.map (·.ident),
        lastStable := s.faults.lastStable, epoch := s.cal.epoch,
        present := (s.faults.register.filter (fun e => e.2.present)).map (fun e => e.2.key), cleared := none }
    let t : State :=
      { s with
        cal.lockout := some code
        cal.lockRecord := some record
        cal.notVerified := s.cal.notVerified || decide (code = .calibrationLost) }
    (t.takeSnapshot .lockout none).postAll [.gatehouse, .lane, .metrology] (.lockoutEntered code s.site.clock)

/-! ### Raises (R181, R184) -/

/-- R168: a waiting test point ends without a record; the run stays ACTIVE. -/
def State.endPoint (s : State) (code : Status) : State :=
  match s.run with
  | none => s
  | some r =>
    match r.waiting with
    | none => s
    | some w =>
      ({ s with run := some { r with waiting := none } } : State).post .metrology
        (.testPointEnded w.target w.reference code)

/-- The flag set with a raise's record where it is clear; a set flag keeps its record (R184). -/
def State.setFlag (s : State) (k : FaultKey) : State :=
  if s.flagSet then s else { s with cal.flag := some { key := k, time := s.site.clock } }

/-- R184: the escalation of a metrological raise, by the first case that applies, with its outcome. -/
def State.escalate (s : State) (k : FaultKey) : State × RaiseOutcome :=
  if s.run.isSome then
    let ended : State := { s.endPoint .fault with run := none }
    if ended.locked then
      (ended.setFlag k, if s.flagSet then .flagAlreadySet else .flagSet)
    else ((ended.setFlag k).enterLockout .calFaultInVerification, .lockout .calFaultInVerification)
  else if s.locked then (s.setFlag k, if s.flagSet then .flagAlreadySet else .flagSet)
  else if s.flagSet then (s.enterLockout .secondFault, .lockout .secondFault)
  else (s.setFlag k, .flagSet)

/-- R181: a raise. The entry is present, its count rises (holding at 65,535), the site time is stamped, a
non-metrological instance has its outstanding mark set, a metrological raise is escalated, and FAULT_RAISED goes to
all three ports. -/
def State.raiseFault (s : State) (k : FaultKey) (detail : Option DisagreeDetail) : State :=
  let old := s.faultEntry k
  let entry : FaultEntry :=
    { key := k, present := true, outstanding := old.outstanding || !k.cls.metrological,
      count := min (old.count + 1) 65535, raisedAt := some s.site.clock }
  let t := s.setFaultEntry k entry
  let (u, outcome) := if k.cls.metrological then t.escalate k else (t, .none_)
  u.postAll [.gatehouse, .lane, .metrology]
    (.faultRaised k k.cls.metrological (s.policy k.cls) outcome s.site.clock detail)

/-- R181: a report from present to absent; it leaves the outstanding mark and the flag. -/
def State.clearFault (s : State) (k : FaultKey) : State :=
  if (s.faultEntry k).present then s.setFaultEntry k { s.faultEntry k with present := false } else s

/-- R11: a condition reported to the Fault Unit only where it changes. -/
def State.reportFault (s : State) (k : FaultKey) (present : Bool) : State :=
  if present then (if (s.faultEntry k).present then s else s.raiseFault k none) else s.clearFault k

end Sys2Proof.Machine
end

