-- ==== Sys2Proof/Machine/BridgeOps.lean ====
section
/-! DEFINITION. What every block may set off at the bridge: ends of captures (R45, R53, R54), grants (R63 to R65),
ends of grants (R71, R115), aspects and lamp feedback (R74, R75), and the settling of an event: sources judged,
holds coming into force or leaving it (R77, R78), a grant where one is due, signals recommanded. -/

namespace Sys2Proof.Machine

/-! ### Ends of captures -/

/-- The port that hears of a capture's outcome: the requesting port, or the Lane Port for AUTO (R45). -/
def Origin.port : Origin → Port
  | .request p _ => p
  | .auto => .lane

/-- R45, R57: a capture passes to ACCEPTED or REFUSED: last outcome, auto arm cleared, unit IDLE, notice queued. -/
def State.endCapture (s : State) (c : Capture) (outcome : Status) (round : Option Nat)
    (accepted : Option AcceptedCapture) : State :=
  ({ s with
      capture.waiting := none
      capture.lastOutcome := some { origin := c.origin, ident := some c.ident, outcome := outcome, round := round }
      capture.arm := false } : State).post c.origin.port (.captureOutcome c.origin c.ident outcome accepted)

/-- A WAITING capture passes to REFUSED with a code; where none is WAITING nothing happens. -/
def State.refuseWaiting (s : State) (code : Status) (round : Option Nat) : State :=
  match s.capture.waiting with
  | none => s
  | some c => s.endCapture c code round none

/-- What leaving OCCUPIED does to the Capture Unit: a WAITING capture is refused with NO_VEHICLE (R54), the quiet
timer stops and the arm is cleared (R56). -/
def State.leaveOccupied (s : State) : State :=
  let t := s.refuseWaiting .noVehicle none
  { t with capture.quietTimer := false, capture.arm := false }

/-- The bridge moved to a state, with what leaving OCCUPIED brings. -/
def State.moveBridge (s : State) (b : BridgeState) : State :=
  let t := if s.bridge.state = .occupied && b ≠ .occupied then s.leaveOccupied else s
  { t with bridge.state := b }

/-! ### Visits and the bridge -/

/-- The position and entry of an ident in the Visit Table. -/
def findVisit (vs : Table Visit) (id : Ident) : Option (Nat × Visit) := vs.find? (fun e => e.2.ident = id)

/-- A draft state with no draft (R91). -/
def DraftState.empty : DraftState := { used := 0, groups := [], inconsistent := false }

/-- A visit in progress returned to its awaiting state with its drafts discarded (R115, R119). -/
def Visit.returned (v : Visit) : Visit :=
  match v.state with
  | .firstInProgress => { v with state := .awaitingFirst, draft := .empty }
  | .secondInProgress => { v with state := .awaitingSecond, draft := .empty }
  | _ => v

/-- Whether a visit is in progress. -/
def Visit.inProgress (v : Visit) : Bool := v.state = .firstInProgress || v.state = .secondInProgress

/-- Which weighing a visit has in progress. -/
def Visit.weighing (v : Visit) : WhichWeighing :=
  if v.state = .secondInProgress then .second else .first

/-- R115: the grant ends for the visit in use: its marks are cleared, a visit in progress is returned, and where the
vehicle left (R71, R72) LEFT_UNWEIGHED is queued. -/
def State.endVisitUse (s : State) (left : Bool) : State :=
  let t : State := { s with inUse := none, axles.axleCount := false }
  match s.inUse with
  | none => t
  | some p =>
    match Table.get? s.visits p with
    | none => t
    | some v =>
      let u : State := { t with visits := Table.set s.visits p v.returned }
      if v.inProgress && left then
        u.postAll [.gatehouse, .lane] (.leftUnweighed v.ident v.weighing v.draft.used)
      else u

/-- The counts set to 0, with the AXLE_COUNT mark (R86, R87). -/
def State.zeroCounts (s : State) : State := { s with axles.entered := 0, axles.exited := 0, axles.axleCount := false }

/-- R71: the vehicle has left: the grant ends, the bridge is FREE, marks and counts are cleared. -/
def State.vehicleLeft (s : State) : State :=
  let t := (s.moveBridge .free).endVisitUse true
  { t.zeroCounts with bridge.grant := none, bridge.grantTimer := none, bridge.advance := false, bridge.withheld := false }

/-- R73: OCCUPIED_UNKNOWN returns to FREE: the start mark is cleared and the counts are 0. -/
def State.unknownEnds (s : State) : State :=
  { s.zeroCounts with bridge.state := .free, bridge.startMark := false }

/-- A grant that ends without an axle (R67, R68): the timer is discarded and the visit returned, without
LEFT_UNWEIGHED. -/
def State.withdrawGrant (s : State) : State :=
  { s.endVisitUse false with bridge.grant := none, bridge.grantTimer := none }

/-! ### Grants (R63 to R65) -/

/-- R63: whether one entry goes before another: higher class, then lower arrival number. -/
def QueueEntry.before (a b : QueueEntry) : Bool :=
  decide (b.cls < a.cls) || (a.cls = b.cls && decide (a.arrival < b.arrival))

/-- R63: the entry to grant. -/
def selectEntry : List QueueEntry → Option QueueEntry
  | [] => none
  | a :: rest =>
    match selectEntry rest with
    | none => some a
    | some b => if b.before a then some b else some a

/-- R65: promotion of an entry still waiting at a grant. -/
def QueueEntry.promoted (q : QueueEntry) : QueueEntry :=
  if q.passes + 1 = 4 then { q with cls := if q.cls < 3 then q.cls + 1 else q.cls, passes := 0 }
  else { q with passes := q.passes + 1 }

/-- R112: the in-progress state of a granted visit. -/
def Visit.granted (v : Visit) : Visit :=
  match v.state with
  | .awaitingFirst => { v with state := .firstInProgress }
  | .awaitingSecond => { v with state := .secondInProgress }
  | _ => v

/-- R112: the Visit Table takes the grant. -/
def State.takeGrant (s : State) (id : Ident) : State :=
  match findVisit s.visits id with
  | none => s
  | some (p, v) => { s with visits := Table.set s.visits p v.granted, inUse := some p }

/-- R87, R105: the Axle Unit takes the grant: counts, disagreement count and mark cleared, a trace that is not frozen
emptied. -/
def Axles.atGrant (a : Axles) : Axles :=
  { entered := 0, exited := 0, disagreements := 0, axleCount := false
    trace := if a.trace.frozen.isNone then Trace.reset else a.trace }

/-- R64: a grant, one event. -/
def State.grantTo (s : State) (q : QueueEntry) : State :=
  let t : State :=
    { s with
      bridge.waiting := (s.bridge.waiting.filter (fun e => e.ident ≠ q.ident)).map QueueEntry.promoted
      bridge.state := .granted
      bridge.grant := some { ident := q.ident, entryEnd := q.entryEnd }
      bridge.grantTimer := some { secondsLeft := s.site.settings.grantTimeout, paused := false }
      axles := s.axles.atGrant }
  (t.takeGrant q.ident).postAll [.lane, .gatehouse] (.granted q.ident q.entryEnd)

/-- R63: the grant is made where the bridge is FREE, no hold is in force and an entry waits. -/
def State.grantIfDue (s : State) : State :=
  if s.bridge.state = .free && !s.held then
    match selectEntry s.bridge.waiting with
    | none => s
    | some q => s.grantTo q
  else s

/-! ### Aspects and lamp feedback (R74, R75) -/

/-- R74: the aspect to command at an end. -/
def Bridge.aspectFor (b : Bridge) (e : BridgeEnd) : Aspect :=
  match b.grant with
  | none => .red
  | some g =>
    match b.state with
    | .granted => if !b.holds.inForce && e = g.entryEnd then .green else .red
    | .occupied => if !b.holds.inForce && b.advance && e ≠ g.entryEnd then .amber else .red
    | .released => if !b.holds.inForce && e ≠ g.entryEnd then .green else .red
    | _ => .red

/-- R75: exactly the commanded lamp is lit. -/
def lampsMatch (a : Aspect) (l : Lamps) : Bool :=
  match a with
  | .red => l.red && !l.amber && !l.green
  | .amber => !l.red && l.amber && !l.green
  | .green => !l.red && !l.amber && l.green

/-- The LAMP_FEEDBACK instance of an end. -/
def lampKey (e : BridgeEnd) : FaultKey := { cls := .lampFeedback, inst := endNumber e }

/-- The commanded aspect of an end. -/
def Bridge.aspect (b : Bridge) : BridgeEnd → Aspect
  | .a => b.aspectA
  | .b => b.aspectB

/-- The lamps lit at an end. -/
def Bridge.lamps (b : Bridge) : BridgeEnd → Lamps
  | .a => b.lampsA
  | .b => b.lampsB

/-- The feedback timer of an end. -/
def Bridge.feedback (b : Bridge) : BridgeEnd → Bool
  | .a => b.feedbackA
  | .b => b.feedbackB

/-- The feedback timer of an end set running or stopped. -/
def State.setFeedback (s : State) (e : BridgeEnd) (on : Bool) : State :=
  match e with
  | .a => { s with bridge.feedbackA := on }
  | .b => { s with bridge.feedbackB := on }

/-- R75: the comparison at an end. A match discards the timer and makes a present condition absent; a mismatch starts
the timer, but not while the condition is present. The match may come by a change of command, also by the RED that a fall
of the supply-good line brings, although R191 has a fall leave the register (DESIGN CHOICE, log 58). -/
def State.compareLamps (s : State) (e : BridgeEnd) : State :=
  if lampsMatch (s.bridge.aspect e) (s.bridge.lamps e) then (s.setFeedback e false).clearFault (lampKey e)
  else if (s.faultEntry (lampKey e)).present then s
  else s.setFeedback e true

/-- R74: the aspects commanded anew, and the lamps compared with them. -/
def State.recommand (s : State) : State :=
  let t : State := { s with bridge.aspectA := s.bridge.aspectFor .a, bridge.aspectB := s.bridge.aspectFor .b }
  (t.compareLamps .a).compareLamps .b

/-! ### Settling an event -/

/-- The METROLOGY source from its three causes (R76), the FAULT source as judged (R183). -/
def State.judgeSources (s : State) : State :=
  { s with
    bridge.holds.metrology := s.accessOpen || s.run.isSome || s.bridge.holds.manual
    bridge.holds.fault := s.faultJudged }

/-- A grant timer paused or resumed (R77, R78). -/
def State.pauseGrantTimer (s : State) (paused : Bool) : State :=
  { s with bridge.grantTimer := s.bridge.grantTimer.map (fun t => { t with paused := paused }) }

/-- R77, R78: what a change of the hold set from `before` brings: the grant timer pauses or resumes, and a hold that
comes into force refuses a WAITING capture with HELD (R53). -/
def State.followHold (s : State) (before : Holds) : State :=
  if !before.inForce && s.held then (s.pauseGrantTimer true).refuseWaiting .held none
  else if before.inForce && !s.held then s.pauseGrantTimer false
  else s

/-- R168: a waiting test point ends with HELD where GATEHOUSE, LANE or FAULT changes from clear to set. -/
def State.followPointSources (s : State) (before : Holds) : State :=
  let h := s.bridge.holds
  if (!before.gatehouse && h.gatehouse) || (!before.lane && h.lane) || (!before.fault && h.fault) then s.endPoint .held
  else s

/-- One pass of settling: sources judged, the change of the hold set followed, a grant made where due, the signals
recommanded. -/
def State.settlePass (s : State) (before : Holds) : State :=
  (((s.judgeSources.followHold before).followPointSources before).grantIfDue).recommand

/-- The end of an event that began with the hold set `before`. A command of the signals can itself end a lamp
mismatch (R75) and so the FAULT source (R183), which a second pass follows; no third is needed (log 32). -/
def State.settle (s : State) (before : Holds) : State :=
  let t := s.settlePass before
  if t.faultJudged = t.bridge.holds.fault then t else t.settlePass t.bridge.holds

/-- One event of the part: `s` is the state it found, `t` what its own rules made of it. A grant that the event makes due
is made in it (R63), and the event begins its retained write (R203). -/
def event (s t : State) : State := retain s (t.settle s.bridge.holds).flush

end Sys2Proof.Machine
end

