-- ==== Sys2Proof/Machine/Catalogue.lean ====
section
/-! DEFINITION. The request catalogue of 11_ports_and_requests.md section 11.4: the authority table of the Port
Controller, fixed in the part. -/

namespace Sys2Proof.Machine

/-- One row of the request catalogue. -/
structure CatalogueRow where
  kind : Nat
  name : String
  ports : List Port
  octets : Nat
  deriving DecidableEq, Repr

/-- The rows of section 11.4: kind, request, ports on which it is permitted, request length in octets. -/
def catalogue : List CatalogueRow := [
  ⟨1, "Fetch Notice", [.gatehouse, .lane, .metrology], 0⟩,
  ⟨2, "Set Site Time", [.gatehouse], 7⟩,
  ⟨3, "Read Site Time", [.gatehouse, .lane, .metrology], 0⟩,
  ⟨4, "Write Site Setting", [.gatehouse], 5⟩,
  ⟨5, "Read Site Settings", [.gatehouse, .metrology], 0⟩,
  ⟨10, "Read Cell", [.gatehouse, .metrology], 1⟩,
  ⟨11, "Read Bus Status", [.gatehouse, .metrology], 0⟩,
  ⟨12, "Read Live Weight", [.gatehouse, .lane, .metrology], 0⟩,
  ⟨13, "Read Deck Values", [.gatehouse, .metrology], 0⟩,
  ⟨14, "Zero Set", [.gatehouse, .lane], 0⟩,
  ⟨15, "Request Capture", [.gatehouse, .lane], 0⟩,
  ⟨16, "Read Capture", [.gatehouse, .lane, .metrology], 0⟩,
  ⟨20, "Report Arrival", [.lane], 13⟩,
  ⟨21, "Withdraw Arrival", [.gatehouse, .lane], 12⟩,
  ⟨22, "Release Vehicle", [.gatehouse], 0⟩,
  ⟨23, "Clear Bridge", [.gatehouse], 0⟩,
  ⟨24, "Hold Bridge", [.gatehouse, .lane, .metrology], 0⟩,
  ⟨25, "Release Hold", [.gatehouse, .lane, .metrology], 0⟩,
  ⟨26, "Read Bridge", [.gatehouse, .lane, .metrology], 0⟩,
  ⟨30, "Write Configuration", [.gatehouse], 48⟩,
  ⟨31, "Clear Configuration", [.gatehouse], 1⟩,
  ⟨32, "Read Configuration", [.gatehouse, .lane, .metrology], 1⟩,
  ⟨33, "Restart Weighing", [.gatehouse], 0⟩,
  ⟨34, "Read Axles", [.gatehouse, .lane, .metrology], 0⟩,
  ⟨35, "Release Trace", [.gatehouse, .metrology], 0⟩,
  ⟨36, "Read Trace", [.gatehouse, .metrology], 3⟩,
  ⟨39, "Expire Visits", [.gatehouse], 1⟩,
  ⟨40, "Open Visit", [.gatehouse], 17⟩,
  ⟨41, "Amend Visit", [.gatehouse], 18⟩,
  ⟨42, "Cancel Visit", [.gatehouse], 12⟩,
  ⟨43, "Read Visit", [.gatehouse, .metrology], 12⟩,
  ⟨44, "List Visits", [.gatehouse, .metrology], 2⟩,
  ⟨45, "Check Tare", [.gatehouse], 12⟩,
  ⟨46, "Key Tare", [.metrology], 17⟩,
  ⟨47, "Flush Tares", [.gatehouse], 0⟩,
  ⟨48, "Delete Tare", [.gatehouse, .metrology], 12⟩,
  ⟨49, "Read Tare Slot", [.gatehouse, .metrology], 1⟩,
  ⟨50, "Read Ticket Sequence", [.gatehouse, .metrology], 0⟩,
  ⟨51, "Roll Ticket Series", [.metrology], 0⟩,
  ⟨52, "Collect Tickets", [.gatehouse], 5⟩,
  ⟨53, "Read Ticket", [.gatehouse, .metrology], 5⟩,
  ⟨54, "Read Ticket Ring", [.gatehouse, .metrology], 1⟩,
  ⟨55, "Close Shift", [.gatehouse], 0⟩,
  ⟨56, "Read Totals", [.gatehouse, .metrology], 0⟩,
  ⟨57, "Read Last Shift", [.gatehouse, .metrology], 0⟩,
  ⟨60, "Open Calibration", [.metrology], 0⟩,
  ⟨61, "Write Parameter", [.metrology], 7⟩,
  ⟨62, "Read Parameter", [.gatehouse, .metrology], 3⟩,
  ⟨63, "Read Calibration State", [.gatehouse, .metrology], 0⟩,
  ⟨64, "Calibrate Zero", [.metrology], 1⟩,
  ⟨65, "Calibrate Span", [.metrology], 5⟩,
  ⟨66, "Commit Calibration", [.metrology], 0⟩,
  ⟨67, "Abandon Calibration", [.metrology], 0⟩,
  ⟨68, "Read Audit Record", [.gatehouse, .metrology], 4⟩,
  ⟨69, "Read Audit Summary", [.gatehouse, .metrology], 0⟩,
  ⟨70, "Archive Audit Records", [.metrology], 4⟩,
  ⟨80, "Begin Verification", [.metrology], 0⟩,
  ⟨81, "Test Point", [.metrology], 5⟩,
  ⟨82, "End Verification", [.metrology], 0⟩,
  ⟨83, "Abort Verification", [.metrology], 0⟩,
  ⟨84, "Read Verification", [.gatehouse, .metrology], 0⟩,
  ⟨85, "Take Snapshot", [.gatehouse, .metrology], 0⟩,
  ⟨86, "Read Snapshot", [.gatehouse, .metrology], 4⟩,
  ⟨87, "List Snapshots", [.gatehouse, .metrology], 0⟩,
  ⟨88, "Discard Snapshot", [.metrology], 4⟩,
  ⟨90, "Write Fault Policy", [.gatehouse], 2⟩,
  ⟨91, "Acknowledge Metrological Fault", [.metrology], 0⟩,
  ⟨92, "Acknowledge Fault", [.gatehouse], 2⟩,
  ⟨93, "Clear Lockout", [.metrology], 0⟩,
  ⟨94, "Read Faults", [.gatehouse, .lane, .metrology], 0⟩,
  ⟨100, "Restart", [.metrology], 0⟩,
  ⟨101, "Read Start Cause", [.gatehouse, .metrology], 0⟩]

/-- The row of a kind, if the catalogue has one (R194). -/
def catalogueRow (kind : Nat) : Option CatalogueRow := catalogue.find? (·.kind == kind)

/-- Whether the catalogue permits the kind on the port (R194 check 2). -/
def permitted (kind : Nat) (p : Port) : Bool :=
  match catalogueRow kind with
  | some r => r.ports.contains p
  | none => false

/-- The request length of the kind (R194 check 3). -/
def requestLength (kind : Nat) : Nat :=
  match catalogueRow kind with
  | some r => r.octets
  | none => 0

end Sys2Proof.Machine
end

