-- ==== Sys2Proof/Machine/Requests.lean ====
section
/-! DEFINITION. How a good frame is judged and answered (R194 to R196). -/

namespace Sys2Proof.Machine

/-- The receiver of a port returned to hunting (R193). -/
def State.hunt (s : State) (p : Port) : State := s.setPort p { s.port p with receiver := .hunting }

/-- What the judgement of a good frame comes to (R194, R195). -/
inductive FrameGate where
  | discard
  | answer (st : Status)
  | take
  deriving DecidableEq, Repr

/-- R194, R195: the judgement of a good frame, by the first check that applies. While a BUSY reply is pending the frame
is discarded; while another reply is, it is answered BUSY. -/
def State.frameGate (s : State) (p : Port) (kind : Nat) (payload : List Octet) : FrameGate :=
  let pending := (s.port p).replies
  if pending.any (fun r => r.status = .busy) then .discard
  else if !pending.isEmpty then .answer .busy
  else if !permitted kind p then .answer .notPermitted
  else if payload.length ≠ requestLength kind then .answer .malformed
  else .take

/-- A reply formed for a port (R192, R196): the request's kind plus 128, its tag, the status, the port status as it
stands, the content; the overflow mark it carries is cleared. A kind of 128 or more has its sum taken modulo 256 (log
37). -/
def State.putReply (s : State) (p : Port) (kind : Nat) (tag : Octet) (st : Status) (c : Content) : State :=
  let q := s.port p
  s.setPort p
    { q with
      replies := q.replies ++ [{ kind := BitVec.ofNat 8 (kind + 128), tag := tag, status := st,
                                 portStatus := s.portStatus p, content := c }]
      overflow := false }

/-- What a request comes to when it is taken: a refusal code (nothing changes), or the state its own rule makes, the
status and the content of the reply. -/
abbrev Taken := Except Status (State × Status × Content)

/-- A good frame of a request kind (R194): judged, taken by the owning rule, its event settled, its reply formed. -/
def serve (kind : Nat) (p : Port) (tag : Octet) (payload : List Octet) (rule : State → Taken) (s : State) : State :=
  let t := s.hunt p
  match t.frameGate p kind payload with
  | .discard => t
  | .answer st => t.putReply p kind tag st .empty
  | .take =>
    match rule t with
    | .error code => t.putReply p kind tag code .empty
    | .ok (u, st, c) => (event t u).putReply p kind tag st c

/-- A good frame of a request that only reads. -/
def serveRead (kind : Nat) (p : Port) (tag : Octet) (payload : List Octet) (rule : State → Except Status Content)
    (s : State) : State :=
  let t := s.hunt p
  match t.frameGate p kind payload with
  | .discard => t
  | .answer st => t.putReply p kind tag st .empty
  | .take =>
    match rule t with
    | .error code => t.putReply p kind tag code .empty
    | .ok c => t.putReply p kind tag .ok c

/-- A command that is a request. -/
def request (kind : Nat) (p : Port) (tag : Octet) (payload : List Octet) (rule : State → Taken) (s : State) :
    Host.Outcome State Fault Refusal := act (serve kind p tag payload rule) s

/-- A command that is a request which only reads: it changes nothing but its port's receiver and replies. -/
def readRequest (kind : Nat) (p : Port) (tag : Octet) (payload : List Octet) (rule : State → Except Status Content)
    (s : State) : Host.Outcome State Fault Refusal :=
  .next (if s.running then serveRead kind p tag payload rule s else s)

/-- A request's answer where the refusal table may turn it away first. -/
def orRefuse (why : Option Status) (t : State) (st : Status) (c : Content) : Taken :=
  match why with
  | some code => .error code
  | none => .ok (t, st, c)

end Sys2Proof.Machine
end

