-- ==== Sys2Proof/Machine/Evidence.lean ====
section
/-! DEFINITION. The Evidence Store's requests (R177 to R179). -/

namespace Sys2Proof.Machine

/-- The full slot that holds a snapshot number. -/
def State.findSnapshot (s : State) (number : Nat) : Option EvidenceSlot :=
  s.evidence.find? (fun x => x.snapshot.number = number)

/-- Take Snapshot (R177). -/
def requestSnapshot (s : State) : Taken :=
  .ok (s.takeSnapshot .requested none, .ok,
    .snapshotTaken s.snapshotNumber (chooseEvidenceSlot s.evidence .requested))

/-- Read Snapshot (R178). -/
def readSnapshot (payload : List Octet) (s : State) : Except Status Content :=
  match s.findSnapshot (natAt payload 0 4) with
  | some x => .ok (.snapshot x.slot x.snapshot)
  | none => .error .noSuchSnapshot

/-- R178: a slot as List Snapshots shows it. -/
def State.slotRow (s : State) (slot : Nat) : Option SnapshotRow :=
  (s.evidence.find? (fun x => x.slot = slot)).map (fun x =>
    { number := x.snapshot.number, kind := x.snapshot.kind, time := x.snapshot.time, ident := x.snapshot.ident })

/-- List Snapshots (R178). The next snapshot number is the one that the next snapshot will take, numbers still held being
passed over, which after the wrap may be beyond the retained counter: the model's choice (log 42). -/
def listSnapshots (s : State) : Except Status Content :=
  .ok (.snapshotList ([0, 1, 2, 3, 4, 5, 6, 7].map s.slotRow) s.snapshotNumber)

/-- Discard Snapshot (R179). -/
def discardSnapshot (payload : List Octet) (s : State) : Taken :=
  match s.findSnapshot (natAt payload 0 4) with
  | none => .error .noSuchSnapshot
  | some x =>
    orRefuse (refusal [(decide (x.snapshot.kind = .lockout) && s.locked, .snapshotProtected)])
      { s with evidence := s.evidence.filter (fun y => y.slot ≠ x.slot) } .ok .empty

/-- TAKE_SNAPSHOT (R177). -/
def execTakeSnapshot (p : Port) (tag : Octet) (payload : List Octet) (s : State) : Host.Outcome State Fault Refusal :=
  request 85 p tag payload requestSnapshot s

/-- READ_SNAPSHOT (R178). -/
def execReadSnapshot (p : Port) (tag : Octet) (payload : List Octet) (s : State) : Host.Outcome State Fault Refusal :=
  readRequest 86 p tag payload (readSnapshot payload) s

/-- LIST_SNAPSHOTS (R178). -/
def execListSnapshots (p : Port) (tag : Octet) (payload : List Octet) (s : State) : Host.Outcome State Fault Refusal :=
  readRequest 87 p tag payload listSnapshots s

/-- DISCARD_SNAPSHOT (R179). -/
def execDiscardSnapshot (p : Port) (tag : Octet) (payload : List Octet) (s : State) : Host.Outcome State Fault Refusal :=
  request 88 p tag payload (discardSnapshot payload) s

end Sys2Proof.Machine
end

