-- ==== Sys2Proof/Machine/Faults.lean ====
section
/-! DEFINITION. The Fault Unit's requests (R182, R185, R186, R189, R190). -/

namespace Sys2Proof.Machine

/-- The policies with that of a class replaced; the metrological classes have none to write. -/
def Policies.write (ps : Policies) (c : FaultClass) (p : Policy) : Policies :=
  match c with
  | .treadleDisagree => { ps with treadleDisagree := p }
  | .lampFeedback => { ps with lampFeedback := p }
  | .visitsLost => { ps with visitsLost := p }
  | .taresLost => { ps with taresLost := p }
  | .ticketsLost => { ps with ticketsLost := p }
  | .siteLost => { ps with siteLost := p }
  | _ => ps

/-- Write Fault Policy (R182). -/
def writeFaultPolicy (payload : List Octet) (s : State) : Taken :=
  match faultClassOf (natAt payload 0 1), policyOf (natAt payload 1 1) with
  | some c, some p =>
    orRefuse (refusal [(c.metrological, .fixedPolicy)]) { s with site.policies := s.site.policies.write c p } .ok .empty
  | _, _ => .error .badArgument

/-- Acknowledge Metrological Fault (R185). -/
def acknowledgeMetrological (s : State) : Taken :=
  match s.cal.flag with
  | none => .error .nothingOutstanding
  | some r => .ok ({ s with cal.flag := none }, .ok, .raise r)

/-- The instances of a class (10 section 10.1, R201). -/
def FaultClass.instances : FaultClass → List Nat
  | .cellSilent | .cellFault | .cellSubstituted => addresses
  | .treadleDisagree | .lampFeedback => [0, 1]
  | _ => [0]

/-- Whether a class is one of the four region classes. -/
def FaultClass.region : FaultClass → Bool
  | .visitsLost | .taresLost | .ticketsLost | .siteLost => true
  | _ => false

/-- R186: the instances that a request names, 255 standing for ALL; none where one is not of the class. -/
def namedInstances (c : FaultClass) (inst : Nat) : Option (List FaultKey) :=
  if inst = 255 then some (c.instances.map (fun i => { cls := c, inst := i }))
  else if c.instances.contains inst then some [{ cls := c, inst := inst }]
  else none

/-- R186: one instance acknowledged: its mark clear, a region instance absent. -/
def State.acknowledge (s : State) (k : FaultKey) : State :=
  let e := s.faultEntry k
  s.setFaultEntry k { e with outstanding := false, present := e.present && !k.cls.region }

/-- Acknowledge Fault (R186). -/
def acknowledgeFault (payload : List Octet) (s : State) : Taken :=
  match faultClassOf (natAt payload 0 1) with
  | none => .error .badArgument
  | some c =>
    if c.metrological then .error .badArgument
    else
      match namedInstances c (natAt payload 1 1) with
      | none => .error .badArgument
      | some ks =>
        let marked := ks.filter (fun k => (s.faultEntry k).outstanding)
        if marked.isEmpty then .error .nothingOutstanding
        else .ok (marked.foldl State.acknowledge s, .ok, .acknowledged marked.length)

/-- A metrological entry of the register is present. -/
def State.metrologicalPresent (s : State) : Bool :=
  s.faults.register.any (fun e => e.2.present && e.2.key.cls.metrological)

/-- R189: lockout is cleared. -/
def State.unlock (s : State) (code : LockCode) : State :=
  let record := s.audit.next
  let t := s.appendAtEpoch (.lockoutClear code)
  ((({ t with
        cal.lockout := none
        cal.lockRecord := t.cal.lockRecord.map (fun r => { r with cleared := some record }) } : State).noteNearFull).postAll
    [.gatehouse, .lane, .metrology] (.lockoutCleared code record))

/-- Clear Lockout (R189). -/
def clearLockout (s : State) : Taken :=
  match s.cal.lockout with
  | none => .error .noLockout
  | some code =>
    orRefuse (refusal [(s.metrologicalPresent || s.flagSet || s.accessOpen, .faultsActive),
                       (!s.lockoutMayAppend, .logFull)])
      (s.unlock code) .ok (.recordNumber s.audit.next)

/-- Read Faults (R190). The entries are listed by class, then by instance (DESIGN CHOICE, log 46). -/
def readFaults (s : State) : Except Status Content :=
  .ok (.faults
    { flag := s.cal.flag, lockout := s.cal.lockout, record := s.cal.lockRecord
      policies := faultClasses.map s.policy
      entries := (s.faults.register.map (·.2)).filter (fun e => e.present || e.outstanding || decide (0 < e.count))
      fault := s.bridge.holds.fault, byPresent := s.heldByPresent, byFlag := s.flagSet, byMark := s.heldByMark
      byLockout := s.locked })

/-- WRITE_FAULT_POLICY (R182). -/
def execWriteFaultPolicy (p : Port) (tag : Octet) (payload : List Octet) (s : State) : Host.Outcome State Fault Refusal :=
  request 90 p tag payload (writeFaultPolicy payload) s

/-- ACKNOWLEDGE_METROLOGICAL_FAULT (R185). -/
def execAcknowledgeMetrologicalFault (p : Port) (tag : Octet) (payload : List Octet) (s : State) :
    Host.Outcome State Fault Refusal := request 91 p tag payload acknowledgeMetrological s

/-- ACKNOWLEDGE_FAULT (R186). -/
def execAcknowledgeFault (p : Port) (tag : Octet) (payload : List Octet) (s : State) : Host.Outcome State Fault Refusal :=
  request 92 p tag payload (acknowledgeFault payload) s

/-- CLEAR_LOCKOUT (R189). -/
def execClearLockout (p : Port) (tag : Octet) (payload : List Octet) (s : State) : Host.Outcome State Fault Refusal :=
  request 93 p tag payload clearLockout s

/-- READ_FAULTS (R190). -/
def execReadFaults (p : Port) (tag : Octet) (payload : List Octet) (s : State) : Host.Outcome State Fault Refusal :=
  readRequest 94 p tag payload readFaults s

end Sys2Proof.Machine
end

