-- ==== Sys2Proof/Machine/Ports.lean ====
section
/-! DEFINITION. The Port Controller's own commands (11): notices, site time and settings, the ends of frames and
replies, and the two requests of the start record (R206, R207). -/

namespace Sys2Proof.Machine

/-! ### Notices, clock and settings (R198 to R200) -/

/-- Fetch Notice (R198). -/
def fetchNotice (p : Port) (s : State) : Taken :=
  match (s.port p).notices with
  | [] => .ok (s, .empty, .empty)
  | n :: rest => .ok (s.setPort p { s.port p with notices := rest }, .ok, .notice n)

/-- Set Site Time (R199). -/
def setSiteTime (payload : List Octet) (s : State) : Taken :=
  let t := timeAt payload 0
  orRefuse (refusal [(!t.valid, .badArgument)]) { s with site.clock := t, clockSet := true } .ok .empty

/-- Read Site Time (R199). -/
def readSiteTime (s : State) : Except Status Content := .ok (.siteTime s.site.clock s.clockSet)

/-- R200: the range of a setting. -/
def settingInRange (id v : Nat) : Bool :=
  match id with
  | 1 => decide (v ≤ 1)
  | 2 => decide (5 ≤ v ∧ v ≤ 60)
  | 3 => decide (30 ≤ v ∧ v ≤ 300)
  | 4 => decide (1 ≤ v ∧ v ≤ 72)
  | 5 => decide (1 ≤ v ∧ v ≤ 365)
  | 6 => decide (v ≤ 1)
  | 7 => decide (v ≤ 3)
  | 8 => decide (v ≤ 3)
  | 9 => decide (v ≤ 1)
  | _ => false

/-- R200: a setting written. -/
def SiteSettings.write (s : SiteSettings) (id v : Nat) : SiteSettings :=
  match id with
  | 1 => { s with autoCapture := decide (v = 1) }
  | 2 => { s with captureTimeout := v }
  | 3 => { s with grantTimeout := v }
  | 4 => { s with visitTimeout := v }
  | 5 => { s with validity := v }
  | 6 => { s with holdExit := decide (v = 1) }
  | 7 => { s with classA := v }
  | 8 => { s with classB := v }
  | 9 => { s with copyToMetrology := decide (v = 1) }
  | _ => s

/-- Write Site Setting (R200). -/
def writeSiteSetting (payload : List Octet) (s : State) : Taken :=
  let id := natAt payload 0 1
  let v := natAt payload 1 4
  orRefuse (refusal [(!settingInRange id v, .badArgument)])
    { s with site.settings := s.site.settings.write id v } .ok .empty

/-- Read Site Settings (R200). -/
def readSiteSettings (s : State) : Except Status Content := .ok (.settings s.site.settings)

/-! ### Restart and Read Start Cause (R206, R207) -/

/-- Restart (R207). The start it orders begins with REPLY_SENT. -/
def restartRequest (s : State) : Taken :=
  orRefuse (refusal [(!s.hasHeadroom, .logFull)]) ((s.appendAtEpoch .restartOrdered).noteNearFull) .ok .empty

/-- Read Start Cause (R206). -/
def readStartCause (s : State) : Except Status Content := .ok (.startCause s.cal.startRecord s.powered)

/-- R206: a start is begun with a cause: no block takes an event until the start sequence has run. -/
def State.beginStart (s : State) (c : StartCause) : State := { s with phase := .starting c }

/-- R207: a reply that is the OK of a Restart. -/
def Reply.ordersStart (r : Reply) : Bool := r.kind = 228#8 && r.status = .ok

/-- R195, R207: the last octet of the pending reply has been sent. -/
def State.replySent (s : State) (p : Port) : State :=
  match (s.port p).replies with
  | [] => s
  | r :: rest =>
    let t := s.setPort p { s.port p with replies := rest }
    if r.ordersStart then t.beginStart .ordered else t

/-! ### Commands -/

/-- FRAME_GAP_TIMEOUT (R193). -/
def execFrameGapTimeout (p : Port) (s : State) : Host.Outcome State Fault Refusal := act (fun s => s.hunt p) s

/-- BAD_FRAME (R193). -/
def execBadFrame (p : Port) (s : State) : Host.Outcome State Fault Refusal := act (fun s => s.hunt p) s

/-- REPLY_SENT (R195, R207). -/
def execReplySent (p : Port) (s : State) : Host.Outcome State Fault Refusal := act (fun s => s.replySent p) s

/-- FETCH_NOTICE (R198). -/
def execFetchNotice (p : Port) (tag : Octet) (payload : List Octet) (s : State) : Host.Outcome State Fault Refusal :=
  request 1 p tag payload (fetchNotice p) s

/-- SET_SITE_TIME (R199). -/
def execSetSiteTime (p : Port) (tag : Octet) (payload : List Octet) (s : State) : Host.Outcome State Fault Refusal :=
  request 2 p tag payload (setSiteTime payload) s

/-- READ_SITE_TIME (R199). -/
def execReadSiteTime (p : Port) (tag : Octet) (payload : List Octet) (s : State) : Host.Outcome State Fault Refusal :=
  readRequest 3 p tag payload readSiteTime s

/-- WRITE_SITE_SETTING (R200). -/
def execWriteSiteSetting (p : Port) (tag : Octet) (payload : List Octet) (s : State) : Host.Outcome State Fault Refusal :=
  request 4 p tag payload (writeSiteSetting payload) s

/-- READ_SITE_SETTINGS (R200). -/
def execReadSiteSettings (p : Port) (tag : Octet) (payload : List Octet) (s : State) :
    Host.Outcome State Fault Refusal := readRequest 5 p tag payload readSiteSettings s

/-- RESTART (R207). -/
def execRestart (p : Port) (tag : Octet) (payload : List Octet) (s : State) : Host.Outcome State Fault Refusal :=
  request 100 p tag payload restartRequest s

/-- READ_START_CAUSE (R206). -/
def execReadStartCause (p : Port) (tag : Octet) (payload : List Octet) (s : State) : Host.Outcome State Fault Refusal :=
  readRequest 101 p tag payload readStartCause s

end Sys2Proof.Machine
end

