-- ==== Sys2Proof/Config.lean ====
section
/-! DEFINITION. What the manual leaves open, as constants with no body: nothing can be proved of their values. -/

namespace Sys2Proof

/-- FREE VALUE (log 7). In which of the six orders the Capture Unit, the Axle Unit's trace and the Bridge Arbiter
take a round that ends while the bridge is OCCUPIED: R32, R54 and R105 leave it open. The argument is
`State.choices`. -/
opaque Config.roundOrder : Nat → Fin 6

/-- FREE VALUE (log 15). R150 puts a ratio into the reply of Calibrate Span and R201 gives no form for one; the
arguments are its numerator and denominator in grams. -/
opaque Config.ratioOctets : Int → Int → List Octet

end Sys2Proof
end

