-- ==== Sys2Proof/Machine/Weighing.lean ====
section
/-! DEFINITION. Weight arithmetic (02): from counts to round values, and the stability judgement (R38, R39). Read
Live Weight and Read Deck Values. -/

namespace Sys2Proof.Machine

/-! ### From count to grams (R18 to R21) -/

/-- R18, R19: the cell weight of a count, rounded under R16. -/
def cellWeight (t : CalTable) (i : Nat) (count : Int) : Int :=
  roundDiv ((count - t.zeroCount i) * t.spanFactor i) 65536

/-- R20: the deck raw sum over the cells of a deck; the counts are the last counts of the records (all ONLINE). -/
def deckRawSum (t : CalTable) (b : Bus) (cells : List Nat) : Int :=
  (cells.map (fun i => cellWeight t i ((b.record i).lastCount.getD 0))).sum

/-- R9: whether deck d is cell-valid: it has a CONFIGURED cell and all of them are ONLINE. -/
def deckCellValid (t : CalTable) (b : Bus) (d : Nat) : Bool :=
  !(t.cellsOf d).isEmpty && (t.cellsOf d).all (fun i => (b.record i).condition = some .online)

/-- R21: the raw sum passes the gross range check: no more than four times deck Max either way. -/
def grossRangeOk (t : CalTable) (d : Nat) (raw : Int) : Bool := decide ((raw.natAbs : Int) ≤ 4 * t.deckMax d * 1000)

/-! ### Linearization (R22, R23) -/

/-- R22 above the first point: from point (w, e), the correction at a raw sum above w. -/
def correctionFrom (w e : Int) : List (Int × Int) → Int → Int
  | [], _ => e
  | (w', e') :: rest, raw =>
    if raw ≤ w' then e + roundDiv ((e' - e) * (raw - w)) (w' - w) else correctionFrom w' e' rest raw

/-- R22: the correction of a raw sum for points in order. -/
def correction (points : List (Int × Int)) (raw : Int) : Int :=
  match points with
  | [] => 0
  | (w, e) :: rest =>
    if raw ≤ 0 then 0
    else if raw ≤ w then roundDiv (e * raw) w
    else correctionFrom w e rest raw

/-- R22, R23: the linearized value of a deck's raw sum: no correction while its points are out of order. -/
def linearize (t : CalTable) (d : Nat) (raw : Int) : Int :=
  if t.pointsInOrder d then raw + correction (t.points d) raw else raw

/-! ### The filter (R24, R25) -/

/-- The last n values of a list. -/
def lastN {α : Type} (n : Nat) (l : List α) : List α := l.drop (l.length - n)

/-- R24: the history with a value appended, the oldest removed beyond 16. -/
def appendHistory (h : List Int) (v : Int) : List Int := lastN 16 (h ++ [v])

/-- R24: how many values the average takes: the smaller of N and the number held. -/
def filterCount (t : CalTable) (h : List Int) : Nat := min t.depth h.length

/-- R24: the filtered value of a history. -/
def filtered (t : CalTable) (h : List Int) : Int :=
  roundDiv (lastN (filterCount t h) h).sum (filterCount t h)

/-- R25: the history that a round finds: cleared where the deck's set of cells differs from the previous round's. -/
def historyKept (t prev : CalTable) (d : Nat) (h : List Int) : List Int :=
  if t.cellsOf d = prev.cellsOf d ∧ d ≤ prev.decks then h else []

/-! ### Grosses, rounding and range (R26 to R30) -/

/-- R26: Z_d, or the calibrated zero of the table where no offset has been set since the start. -/
def State.zeroFor (s : State) (t : CalTable) (d : Nat) : Int := (Table.get? s.weigh.zero d).getD (t.zero0 d)

/-- R28: a gross in grams rounded to the division, in kg. -/
def roundedKg (t : CalTable) (gross : Int) : Int := t.e * roundDiv gross (1000 * t.e)

/-- R30: the range verdict of a gross against a Max. -/
def rangeVerdict (t : CalTable) (maxKg gross : Int) : RangeVerdict :=
  if (maxKg + 9 * t.e) * 1000 < gross then .overload
  else if gross < -(20 * t.e * 1000) then .underload
  else .normal

/-- The values of deck d in a round, and its new filter history (R18 to R31). -/
def State.deckRound (s : State) (t : CalTable) (d : Nat) : DeckValues × List Int :=
  let zero := s.zeroFor t d
  let disabled := !t.pointsInOrder d
  let invalid (why : DeckValidity) (raw : Option Int) : DeckValues :=
    { validity := why, linearizationDisabled := disabled, raw := raw, linearized := none, filtered := none,
      filterCount := none, zeroUsed := zero, gross := none, rounded := none, range := none }
  if (t.cellsOf d).isEmpty then (invalid .noCells none, [])
  else if !deckCellValid t s.bus d then (invalid .cell none, [])
  else
    let raw := deckRawSum t s.bus (t.cellsOf d)
    if !grossRangeOk t d raw then (invalid .grossRange (some raw), [])
    else
      let lin := linearize t d raw
      let h := appendHistory (historyKept t s.weigh.roundTable d ((Table.get? s.weigh.histories d).getD [])) lin
      let f := filtered t h
      let g := f - zero
      ({ validity := .valid, linearizationDisabled := disabled, raw := some raw, linearized := some lin,
         filtered := some f, filterCount := some (filterCount t h), zeroUsed := zero, gross := some g,
         rounded := some (roundedKg t g), range := some (rangeVerdict t (t.deckMax d) g) }, h)

/-- R27: the bridge gross: the sum of the deck grosses, where every deck has one. -/
def bridgeGross : List DeckValues → Option Int
  | [] => some 0
  | d :: rest =>
    match d.gross, bridgeGross rest with
    | some g, some rest' => some (g + rest')
    | _, _ => none

/-- R30: the range verdict of a round from its deck verdicts and the bridge verdict. -/
def roundRange (vs : List RangeVerdict) : RangeVerdict :=
  if vs.contains .overload then .overload else if vs.contains .underload then .underload else .normal

/-- R31: the values of the round that has ended, from the table taken for it (R17). -/
def State.computeRound (s : State) : RoundValues :=
  let t := s.bus.table
  let decks := t.deckList.map (fun d => (s.deckRound t d).1)
  let gross := bridgeGross decks
  let bridge := gross.map (fun g => rangeVerdict t t.bridgeMax g)
  { index := s.bus.index, overrun := s.bus.overrun, decks := decks, valid := gross.isSome, gross := gross
    rounded := gross.map (roundedKg t), bridgeRange := bridge
    range := roundRange (decks.filterMap (·.range) ++ bridge.toList) }

/-- R24, R25: the filter histories after the round; a deck beyond D keeps none. -/
def State.newHistories (s : State) : Table (List Int) :=
  (s.bus.table.deckList.map (fun d => (d, (s.deckRound s.bus.table d).2))).filter (fun e => !e.2.isEmpty)

/-- R31: the latest round values replaced, all at once. -/
def State.weighRound (s : State) : State :=
  { s with
    weigh.latest := some s.computeRound
    weigh.histories := s.newHistories
    weigh.roundTable := s.bus.table
    weigh.rounds := s.weigh.rounds + 1 }

/-! ### Stability (R38, R39) -/

/-- The largest less the smallest of grosses, 0 for none. -/
def spread : List Int → Int
  | [] => 0
  | g :: rest => rest.foldl max g - rest.foldl min g

/-- R38: the judgement of a window: at least S entries, and the S most recent within the band. -/
def windowStable (t : CalTable) (w : List WindowEntry) : Bool :=
  decide (t.stabilityRounds ≤ w.length)
    && decide (spread ((lastN t.stabilityRounds w).map (·.gross)) ≤ t.bandGrams)

/-- R38, R39: the stability judgement takes the latest round: a valid round joins the window (the oldest leaving
beyond 32), an invalid one empties it. -/
def State.judgeStability (s : State) : State :=
  match s.weigh.latest.bind (·.gross) with
  | none => { s with weigh.window := [], weigh.stable := false }
  | some g =>
    let entry : WindowEntry := { gross := g, index := (s.weigh.latest.map (·.index)).getD 0, moment := s.weigh.rounds }
    let w := lastN 32 (s.weigh.window ++ [entry])
    { s with weigh.window := w, weigh.stable := windowStable s.weigh.roundTable w }

/-- R49, R166: the latest round completes a wait: it is stable, and where a restart point is present each of the S
most recent window entries came from a round that ended after it. -/
def State.waitComplete (s : State) (restart : Option Nat) : Bool :=
  s.weigh.stable &&
    match restart with
    | none => true
    | some m => (lastN s.weigh.roundTable.stabilityRounds s.weigh.window).all (fun w => decide (m < w.moment))

/-! ### Reading (R35) -/

/-- Read Live Weight. -/
def readLiveWeight (s : State) : Except Status Content :=
  .ok (.liveWeight s.liveWord s.liveValue (s.weigh.latest.map (·.index)))

/-- Read Deck Values: the latest round values, and for each deck of the table in use the zero offset that the next
round will use and the number of values its history holds. -/
def readDeckValues (s : State) : Except Status Content :=
  let t := s.tableInUse
  .ok (.deckValues s.weigh.latest (t.deckList.map (fun d => s.zeroFor t d))
    (t.deckList.map (fun d => ((Table.get? s.weigh.histories d).getD []).length)))

/-- READ_LIVE_WEIGHT (R35). -/
def execReadLiveWeight (p : Port) (tag : Octet) (payload : List Octet) (s : State) : Host.Outcome State Fault Refusal :=
  readRequest 12 p tag payload readLiveWeight s

/-- READ_DECK_VALUES (R35). -/
def execReadDeckValues (p : Port) (tag : Octet) (payload : List Octet) (s : State) : Host.Outcome State Fault Refusal :=
  readRequest 13 p tag payload readDeckValues s

end Sys2Proof.Machine
end

