-- ==== Sys2Proof/Machine/CellBus.lean ====
section
/-! DEFINITION. The cell bus (01): the start of a round, the judgement of a poll, overruns, and the two requests that
read the bus. The end of a round, which sets the other blocks off, is in Machine/Rounds.lean. -/

namespace Sys2Proof.Machine

/-! ### Records -/

/-- A cell record replaced; a record that is ABSENT and blank is not listed. -/
def Bus.setRecord (b : Bus) (i : Nat) (r : CellRecord) : Bus :=
  { b with records := if r = CellRecord.absent then Table.erase b.records i else Table.set b.records i r }

/-- The instance of a per-cell fault class. -/
def cellKey (c : FaultClass) (address : Nat) : FaultKey := { cls := c, inst := address }

/-- The instance of ROUND_OVERRUN. -/
def overrunKey : FaultKey := { cls := .roundOverrun, inst := 0 }

/-! ### The start of a round (R1, R2, R11) -/

/-- R11: the record of an address as a round start that takes table `t` leaves it. An address that becomes ABSENT
keeps its miss count (log 21). -/
def CellRecord.marked (t : CalTable) (i : Nat) (r : CellRecord) : CellRecord :=
  if t.configured i = r.configured then r
  else if t.configured i then { r with configured := true, condition := some .missing, miss := 0 }
  else { CellRecord.absent with miss := r.miss }

/-- R11: the records as a round start that takes table `t` leaves them. -/
def Bus.markRecords (b : Bus) (t : CalTable) : Bus :=
  addresses.foldl (fun acc i => acc.setRecord i ((acc.record i).marked t i)) b

/-- R11: the per-cell conditions of an address made absent. -/
def State.clearCell (s : State) (i : Nat) : State :=
  ((s.clearFault (cellKey .cellSilent i)).clearFault (cellKey .cellFault i)).clearFault (cellKey .cellSubstituted i)

/-- The round index after an index (R9). -/
def nextIndex (n : Nat) : Nat := if n = 4294967295 then 1 else n + 1

/-- The addresses still to poll, the first of them being sent its poll. -/
def Bus.sendNext (b : Bus) : Bus :=
  match b.toPoll with
  | [] => { b with poll := .idle }
  | a :: rest => { b with poll := .sending a, toPoll := rest }

/-- R1, R2, R9, R11: a round starts: the table in use is taken, the addresses are marked, the timer is started, the
first poll is being sent. -/
def State.beginRound (s : State) : State :=
  let t := s.tableInUse
  let gone := addresses.filter (fun i => (s.bus.record i).configured && !t.configured i)
  let marked := s.bus.markRecords t
  let u : State :=
    { s with
      bus := ({ marked with table := t, inProgress := true, toPoll := t.configuredList, index := nextIndex s.bus.index,
                            overrun := false, periodTimer := true } : Bus).sendNext }
  gone.foldl State.clearCell u

/-! ### The judgement of a poll (R4, R5) -/

/-- R5: the record that a judgement leaves. -/
def CellRecord.judged (r : CellRecord) (serial : Int) (reply : Option CellReply) : CellRecord :=
  match reply with
  | none =>
    let miss := min (r.miss + 1) 255
    { r with miss := miss, condition := some (if miss < 3 then .missing else .silent) }
  | some a =>
    if (a.serial : Int) ≠ serial then
      { r with miss := 0, condition := some .substituted, lastSerial := some a.serial }
    else
      { r with
        miss := 0
        condition := some (match a.status with
          | .internalFault => .faulted
          | .overRange => .overRange
          | .ok => .online)
        lastCount := some a.count
        lastStatus := some a.status
        lastSerial := some a.serial }

/-- The conditions that a cell's condition makes present (01 section 1.5). -/
def cellFaults (c : Option CellCondition) : List FaultClass :=
  match c with
  | some .silent => [.cellSilent]
  | some .substituted => [.cellSubstituted]
  | some .faulted => [.cellFault]
  | _ => []

/-- R11: the changes of the per-cell conditions reported, those that become absent before the one that becomes present
(log 24). -/
def State.reportCell (s : State) (i : Nat) (c : Option CellCondition) : State :=
  let away := ([.cellSilent, .cellFault, .cellSubstituted] : List FaultClass).filter (fun f => !(cellFaults c).contains f)
  let t := away.foldl (fun acc f => acc.reportFault (cellKey f i) false) s
  (cellFaults c).foldl (fun acc f => acc.reportFault (cellKey f i) true) t

/-- R4, R5, R11: the poll of an address is judged. -/
def State.judge (s : State) (i : Nat) (reply : Option CellReply) : State :=
  let r := (s.bus.record i).judged (s.bus.table.serial i) reply
  ({ s with bus := s.bus.setRecord i r } : State).reportCell i r.condition

/-! ### Overruns (R2, R10) -/

/-- R2, R10: the timer expires while a round is in progress: it is an overrun round and the count rises. -/
def State.overrun (s : State) : State :=
  let n := min (s.bus.overruns + 1) 3
  let t : State := { s with bus.overrun := true, bus.overruns := n }
  if s.bus.overruns < 3 ∧ n = 3 then t.reportFault overrunKey true else t

/-- R9, R10: the round ends: what is handed over is kept for reading, and where the round ended within its period the
count is 0 and ROUND_OVERRUN absent. -/
def State.endRound (s : State) : State :=
  let t : State :=
    { s with
      bus.inProgress := false
      bus.poll := .idle
      bus.handedIndex := s.bus.index
      bus.handedValid := s.bus.table.deckList.map (fun d => deckCellValid s.bus.table s.bus d) }
  if s.bus.overrun then t else ({ t with bus.overruns := 0 } : State).reportFault overrunKey false

/-- R13: the round and its poll are abandoned and the timer stops. -/
def State.abandonRound (s : State) : State :=
  { s with bus.inProgress := false, bus.toPoll := [], bus.poll := .idle, bus.periodTimer := false }

/-! ### Reading (R15) -/

/-- Read Cell. -/
def readCell (payload : List Octet) (s : State) : Except Status Content :=
  let i := natAt payload 0 1
  if 1 ≤ i ∧ i ≤ 16 then .ok (.cell (s.bus.record i)) else .error .noSuchCell

/-- Read Bus Status. -/
def readBusStatus (s : State) : Except Status Content :=
  .ok (.busStatus s.bus.handedIndex s.bus.table.period s.bus.overruns (s.faultEntry overrunKey).present
    s.bus.handedValid)

/-- READ_CELL (R15). -/
def execReadCell (p : Port) (tag : Octet) (payload : List Octet) (s : State) : Host.Outcome State Fault Refusal :=
  readRequest 10 p tag payload (readCell payload) s

/-- READ_BUS_STATUS (R15). -/
def execReadBusStatus (p : Port) (tag : Octet) (payload : List Octet) (s : State) : Host.Outcome State Fault Refusal :=
  readRequest 11 p tag payload readBusStatus s

end Sys2Proof.Machine
end

