-- ==== Sys2Proof/Machine/Axles.lean ====
section
/-! DEFINITION. Axle groups and drafts (05): the counts, the configuration catalogue, the resolution of a draft and
the trace, with the requests that belong to them and TREADLE_EVENT. -/

namespace Sys2Proof.Machine

/-! ### The configuration catalogue (R88 to R90) -/

/-- A configuration from its groups (axles, limit), combination limit and tolerance. -/
def mkConfiguration (groups : List (Nat × Int)) (combination tolerance : Int) : Configuration :=
  { groups := groups.map (fun g => { axles := g.1, limit := g.2 }), combination := combination, tolerance := tolerance }

/-- R88: the fixed entries 1 to 8. -/
def fixedConfiguration (code : Nat) : Option Configuration :=
  match code with
  | 1 => some (mkConfiguration [(1, 6500), (1, 9000)] 15500 300)
  | 2 => some (mkConfiguration [(1, 6500), (2, 16500)] 23000 500)
  | 3 => some (mkConfiguration [(1, 6500), (2, 16500), (2, 16500)] 39500 500)
  | 4 => some (mkConfiguration [(1, 6500), (2, 16500), (3, 20000)] 43000 500)
  | 5 => some (mkConfiguration [(1, 6500), (2, 16500), (3, 20000), (3, 20000)] 63000 500)
  | 6 => some (mkConfiguration [(1, 6500), (2, 16500), (2, 16500), (2, 16500)] 50500 500)
  | 7 => some (mkConfiguration [(1, 6500), (2, 16500), (3, 20000), (2, 16500), (3, 20000)] 79500 500)
  | 8 => some (mkConfiguration [(1, 6500), (2, 16500), (3, 20000), (2, 16500), (3, 20000), (2, 16500), (3, 20000)]
      115500 500)
  | _ => none

/-- A catalogue entry, none where it is empty or no code. -/
def State.entryOf (s : State) (code : Nat) : Option Configuration :=
  if code ≤ 8 then fixedConfiguration code else if code ≤ 24 then Table.get? s.site.catalogue code else none

/-- The axle ranges of groups that begin after axle `before` (R88). -/
def axleRanges : Nat → List AxleGroup → List (Nat × Nat)
  | _, [] => []
  | before, g :: rest => (before + 1, before + g.axles) :: axleRanges (before + g.axles) rest

/-- The axle ranges of a configuration. -/
def Configuration.ranges (c : Configuration) : List (Nat × Nat) := axleRanges 0 c.groups

/-- T: the last axle of the last group (R88). -/
def Configuration.total (c : Configuration) : Nat := (c.groups.map (·.axles)).sum

/-- R91: a visit is resolved against the entry its code names, where that is not empty. -/
def State.configOf (s : State) (v : Visit) : Option Configuration := v.config.bind s.entryOf

/-- R89: a limit is a whole multiple of e in the committed table and lies in 1..999,999 kg. -/
def limitOk (e limit : Int) : Bool := decide (limit % e = 0 ∧ 1 ≤ limit ∧ limit ≤ 999999)

/-- R88, R89: a configuration to be written is well made; `n` is the number of groups sent. -/
def configurationOk (e : Int) (n : Nat) (c : Configuration) : Bool :=
  decide (1 ≤ n ∧ n ≤ 8) && c.groups.all (fun g => decide (1 ≤ g.axles ∧ g.axles ≤ 4) && limitOk e g.limit)
    && limitOk e c.combination && decide (0 ≤ c.tolerance ∧ c.tolerance ≤ 2000) && decide (c.total ≤ 20)

/-- R89: the checks of Write Configuration and Clear Configuration; `content` is whether the content is good. -/
def State.configurationRefusal (s : State) (code : Nat) (content : Bool) : Option Status :=
  refusal [(!(decide (1 ≤ code ∧ code ≤ 24)), .noSuchConfiguration), (decide (code ≤ 8), .fixedConfiguration),
           (!content, .badConfiguration), (s.visits.any (fun e => e.2.config = some code), .configurationInUse)]

/-- Write Configuration (R89). -/
def writeConfiguration (payload : List Octet) (s : State) : Taken :=
  let code := natAt payload 0 1
  let c := configurationAt payload
  orRefuse (s.configurationRefusal code (configurationOk s.cal.committed.e (natAt payload 1 1) c))
    { s with site.catalogue := Table.set s.site.catalogue code c } .ok .empty

/-- Clear Configuration (R89). -/
def clearConfiguration (payload : List Octet) (s : State) : Taken :=
  let code := natAt payload 0 1
  orRefuse (s.configurationRefusal code true) { s with site.catalogue := Table.erase s.site.catalogue code } .ok .empty

/-- Read Configuration (R90). -/
def readConfiguration (payload : List Octet) (s : State) : Except Status Content :=
  let code := natAt payload 0 1
  if 1 ≤ code ∧ code ≤ 24 then .ok (.configuration (s.entryOf code)) else .error .noSuchConfiguration

/-- WRITE_CONFIGURATION (R89). -/
def execWriteConfiguration (p : Port) (tag : Octet) (payload : List Octet) (s : State) :
    Host.Outcome State Fault Refusal := request 30 p tag payload (writeConfiguration payload) s

/-- CLEAR_CONFIGURATION (R89). -/
def execClearConfiguration (p : Port) (tag : Octet) (payload : List Octet) (s : State) :
    Host.Outcome State Fault Refusal := request 31 p tag payload (clearConfiguration payload) s

/-- READ_CONFIGURATION (R90). -/
def execReadConfiguration (p : Port) (tag : Octet) (payload : List Octet) (s : State) :
    Host.Outcome State Fault Refusal := readRequest 32 p tag payload (readConfiguration payload) s

/-! ### Resolving a draft (R92 to R99) -/

/-- The content of a weighing record that a completing draft forms (R99). -/
structure WeighContent where
  weight : Int
  source : WeightSource
  groups : List GroupEntry
  combination : Verdict
  inconsistent : Bool
  drafts : Nat
  deriving DecidableEq, Repr

/-- A draft result (R100): the new draft state, the OVER verdicts given in this draft, and the record content of a
completing draft. -/
structure DraftResult where
  draft : DraftState
  overGroups : List OverGroup
  overCombination : Option (Int × Int)
  content : Option WeighContent
  deriving DecidableEq, Repr

/-- What resolution comes to: a refusal, a STRADDLE refusal with what REPOSITION carries (R94), or a result. -/
inductive Resolution where
  | refused (code : Status)
  | straddle (firstAxle lastAxle groups : Nat) (decks : List Nat)
  | result (r : DraftResult)
  deriving DecidableEq, Repr

/-- R98: a weight judged against a limit with a tolerance. -/
def verdictOf (weight limit tolerance : Int) : Verdict :=
  if weight ≤ limit then .within else if weight ≤ limit + tolerance then .advisory else .over

/-- R92: a group lies wholly on the bridge. -/
def whollyOn (entered exited : Nat) (r : Nat × Nat) : Bool := decide (exited + 1 ≤ r.1 ∧ r.2 ≤ entered)

/-- R92: an axle of a group is on the bridge: some k of its range has exited < k ≤ entered (R85). -/
def partlyOn (entered exited : Nat) (r : Nat × Nat) : Bool :=
  decide (max (exited + 1) r.1 ≤ min entered r.2)

/-- R92: the first condition that refuses a capture before the mapping. -/
def groupRefusal (entered exited : Nat) (mark : Bool) (ranges : List (Nat × Nat)) : Option Status :=
  refusal [(mark, .axleCount),
           (ranges.any (fun r => partlyOn entered exited r && !whollyOn entered exited r), .partialGroup),
           (!ranges.any (whollyOn entered exited), .noGroup)]

/-- R93: the decks of a round at or above the threshold with their rounded weights, in travel order. -/
def occupiedDecks (travel : Travel) (threshold : Int) (decks : List DeckValues) : List (Nat × Int) :=
  let on := (numbered decks).filterMap (fun e =>
    match e.2.rounded with
    | some w => if threshold ≤ w then some (e.1, w) else none
    | none => none)
  match travel with
  | .aToB => on.reverse
  | .bToA => on

/-- R93: the numbers of the groups wholly on, frontmost first. -/
def groupsOn (entered exited : Nat) (ranges : List (Nat × Nat)) : List Nat :=
  ((numbered ranges).filter (fun e => whollyOn entered exited e.2)).map (·.1)

/-- R96: one mapped group: captured where its record is uncaptured, else compared with its first weight. -/
def DraftState.takeGroup (c : Configuration) (band : Int) (number : Nat) (d : DraftState) (g : Nat × Int) : DraftState :=
  match Table.get? d.groups g.1 with
  | some old => if band < ((g.2 - old.weight).natAbs : Int) then { d with inconsistent := true } else d
  | none =>
    let limit := (c.groups[g.1 - 1]?.map (·.limit)).getD 0
    { d with
      groups := Table.set d.groups g.1 { weight := g.2, verdict := verdictOf g.2 limit c.tolerance, draft := number } }

/-- R91: the group list of a weighing record: a captured group with its weight and verdict, any other UNRESOLVED. -/
def DraftState.entries (d : DraftState) (c : Configuration) : List GroupEntry :=
  (numbered c.groups).map (fun e =>
    match Table.get? d.groups e.1 with
    | some g => { weight := some g.weight, verdict := g.verdict }
    | none => { weight := none, verdict := .unresolved })

/-- R91, R103, R111: the group records of a draft state, one for each group of the configuration. -/
def DraftState.records (d : DraftState) (c : Configuration) : List (Option CapturedGroup) :=
  (numbered c.groups).map (fun e => Table.get? d.groups e.1)

/-- R91, R111: the group records of a visit, none where it has no configuration. -/
def State.groupRecords (s : State) (v : Visit) : List (Option CapturedGroup) :=
  ((s.configOf v).map v.draft.records).getD []

/-- R91, R99: every group of the configuration is captured. -/
def DraftState.allCaptured (d : DraftState) (c : Configuration) : Bool :=
  (numbered c.groups).all (fun e => (Table.get? d.groups e.1).isSome)

/-- R99: the sum of the captured group weights. -/
def DraftState.sum (d : DraftState) : Int := (d.groups.map (·.2.weight)).sum

/-- R101: the OVER groups among those captured in draft `number`, by ascending group number (DESIGN CHOICE, log 49). -/
def DraftState.overIn (d : DraftState) (c : Configuration) (number : Nat) : List OverGroup :=
  (d.groups.filter (fun e => e.2.draft = number && e.2.verdict = .over)).map
    (fun e => { group := e.1, weight := e.2.weight, limit := (c.groups[e.1 - 1]?.map (·.limit)).getD 0 })

/-- R98 to R100: the result of an accepted draft of a visit with a configuration: `d` is the new draft state, `gross`
and `source` those of a completing draft. -/
def finishDraft (c : Configuration) (d : DraftState) (completing : Option (Int × WeightSource)) : DraftResult :=
  match completing with
  | none => { draft := d, overGroups := d.overIn c d.used, overCombination := none, content := none }
  | some (gross, source) =>
    let comb := verdictOf gross c.combination c.tolerance
    { draft := d, overGroups := d.overIn c d.used
      overCombination := if comb = .over then some (gross, c.combination) else none
      content := some { weight := gross, source := source, groups := d.entries c, combination := comb,
                        inconsistent := d.inconsistent, drafts := d.used } }

/-- What resolution reads (05 section 5.4): the counts, the mark, the direction of travel, the draft state, and from
the completing round its values and the threshold and band of its table. -/
structure Handoff where
  entered : Nat
  exited : Nat
  mark : Bool
  travel : Travel
  draft : DraftState
  threshold : Int
  band : Int
  decks : List DeckValues
  rounded : Int
  deriving DecidableEq, Repr

/-- R93 to R96, R99: the resolution against a configuration once the checks of R92 pass. -/
def resolveGroups (c : Configuration) (h : Handoff) : Resolution :=
  let on := groupsOn h.entered h.exited c.ranges
  let decks := occupiedDecks h.travel h.threshold h.decks
  let single := h.draft.used = 0 ∧ h.entered = c.total ∧ h.exited = 0
  let number := h.draft.used + 1
  if on.length ≠ decks.length then
    if single then
      .result (finishDraft c { h.draft with used := number } (some (h.rounded, .single)))
    else .straddle (h.exited + 1) h.entered on.length (decks.map (·.1))
  else if 6 ≤ h.draft.used then .refused .draftLimit
  else
    let mapped := on.zip (decks.map (·.2))
    let d := mapped.foldl (DraftState.takeGroup c h.band number) { h.draft with used := number }
    if single then .result (finishDraft c d (some (h.rounded, .single)))
    else if d.allCaptured c then .result (finishDraft c d (some (d.sum, .composed)))
    else .result (finishDraft c d none)

/-- R97: the resolution of a visit without a configuration. -/
def resolveWhole (h : Handoff) : Resolution :=
  if h.exited = 0 ∧ 1 ≤ h.entered then
    .result
      { draft := { h.draft with used := h.draft.used + 1 }
        overGroups := []
        overCombination := none
        content := some { weight := h.rounded, source := .single, groups := [], combination := .notChecked,
                          inconsistent := h.draft.inconsistent, drafts := h.draft.used + 1 } }
  else .refused .notWhollyOn

/-- R92 to R97: the resolution of a draft. -/
def resolveDraft (c : Option Configuration) (h : Handoff) : Resolution :=
  match c with
  | none => resolveWhole h
  | some c =>
    match groupRefusal h.entered h.exited h.mark c.ranges with
    | some code => .refused code
    | none => resolveGroups c h

/-- The travel direction of an entry end (R64). -/
def travelFrom : BridgeEnd → Travel
  | .a => .aToB
  | .b => .bToA

/-- The hand-off of the latest round for a visit (R50, 05 section 5.4). -/
def State.handoff (s : State) (v : Visit) (r : RoundValues) : Handoff :=
  { entered := s.axles.entered, exited := s.axles.exited, mark := s.axles.axleCount
    travel := ((s.bridge.grant.map (·.entryEnd)).map travelFrom).getD .aToB
    draft := v.draft
    threshold := s.weigh.roundTable.occupancyKg
    band := s.weigh.roundTable.consistencyKg
    decks := r.decks
    rounded := r.rounded.getD 0 }

/-! ### The AXLE_COUNT mark (R86) -/

/-- The visit in use. -/
def State.visitInUse (s : State) : Option Visit := s.inUse.bind (Table.get? s.visits)

/-- R86: the test of entered against T. -/
def State.testAxleCount (s : State) : State :=
  match s.visitInUse.bind (fun v => (s.configOf v).map (fun c => (v.ident, c.total))) with
  | none => { s with axles.axleCount := false }
  | some (id, total) =>
    if s.axles.entered ≤ total then { s with axles.axleCount := false }
    else if s.axles.axleCount then s
    else
      ({ s with axles.axleCount := true } : State).postAll [.lane, .gatehouse] (.axleCount id s.axles.entered total)

/-! ### The trace (R104 to R106) -/

/-- R104: an event joins the pending list, or beyond four the count of further events. R104 gives that count no range; it
is held without a bound (log 40). -/
def Trace.join (t : Trace) (e : TraceEvent) : Trace :=
  if t.events.length < 4 then { t with events := t.events ++ [e] } else { t with further := t.further + 1 }

/-- R104: a sample is appended with the pending list; beyond 512 the oldest is removed. -/
def Trace.append (t : Trace) (r : RoundValues) : Trace :=
  { t with
    samples := lastN 512 (t.samples ++ [{ round := r.index, gross := r.gross, events := t.events, further := t.further }])
    events := []
    further := 0 }

/-- R104, R105: the trace takes a round-values event. -/
def State.traceTakesRound (s : State) (r : RoundValues) : State :=
  if s.axles.trace.frozen.isSome then { s with axles.trace.events := [], axles.trace.further := 0 }
  else if s.bridge.state = .occupied then { s with axles.trace := s.axles.trace.append r }
  else s

/-- R105: the trace is frozen, with the sample of the completing round as its last. -/
def State.freezeTrace (s : State) (reason : FreezeReason) (id : Ident) (r : RoundValues) (draft : Option Nat) : State :=
  if s.axles.trace.frozen.isSome then s
  else
    let tr := if s.axles.trace.samples.getLast?.map (·.round) = some r.index then s.axles.trace
              else s.axles.trace.append r
    let record : FreezeRecord := { reason := reason, ident := id, round := r.index, draft := draft }
    ({ s with axles.trace := { tr with frozen := some record } } : State).postAll [.gatehouse, .metrology]
      (.traceFrozen record)

/-- Release Trace (R106). -/
def releaseTrace (s : State) : Taken := .ok ({ s with axles.trace.frozen := none }, .ok, .empty)

/-- Read Trace (R106). -/
def readTrace (payload : List Octet) (s : State) : Except Status Content :=
  let position := natAt payload 0 2
  let count := natAt payload 2 1
  let held := s.axles.trace.samples.length
  match refusal [(!decide (1 ≤ count ∧ count ≤ 16), .badArgument),
                 (decide (held ≤ position) && !decide (position = 0 ∧ held = 0), .noSuchSample)] with
  | some code => .error code
  | none => .ok (.trace s.axles.trace.frozen held ((s.axles.trace.samples.drop position).take count))

/-- RELEASE_TRACE (R106). -/
def execReleaseTrace (p : Port) (tag : Octet) (payload : List Octet) (s : State) : Host.Outcome State Fault Refusal :=
  request 35 p tag payload releaseTrace s

/-- READ_TRACE (R106). -/
def execReadTrace (p : Port) (tag : Octet) (payload : List Octet) (s : State) : Host.Outcome State Fault Refusal :=
  readRequest 36 p tag payload (readTrace payload) s

/-! ### Restart Weighing and Read Axles (R102, R103) -/

/-- A field of the visit in use replaced. -/
def State.setDraft (s : State) (d : DraftState) : State :=
  match s.inUse, s.visitInUse with
  | some p, some v => { s with visits := Table.set s.visits p { v with draft := d } }
  | _, _ => s

/-- The drafts used of the visit in use, 0 where there is none. -/
def State.draftsUsed (s : State) : Nat := (s.visitInUse.map (·.draft.used)).getD 0

/-- Restart Weighing (R102). -/
def restartWeighing (s : State) : Taken :=
  orRefuse (refusal [(s.bridge.state ≠ .occupied, .noVehicle), (s.draftsUsed = 0, .noDrafts)])
    (({ s.setDraft .empty with bridge.advance := false } : State).post .lane
      (.weighingRestarted ((s.visitInUse.map (·.ident)).getD [])))
    .ok .empty

/-- Read Axles (R103). -/
def readAxles (s : State) : Except Status Content :=
  let v := s.visitInUse
  let c := v.bind s.configOf
  let d := (v.map (·.draft)).getD .empty
  let on := decide (s.axles.exited < s.axles.entered)
  .ok (.axles
    { entered := s.axles.entered, exited := s.axles.exited
      entryEnd := s.bridge.grant.map (·.entryEnd)
      travel := s.bridge.grant.map (fun g => travelFrom g.entryEnd)
      firstAxle := if on then some (s.axles.exited + 1) else none
      lastAxle := if on then some s.axles.entered else none
      disagreements := s.axles.disagreements
      axleCount := s.axles.axleCount
      config := v.bind (·.config)
      total := c.map (·.total)
      used := d.used
      groups := (v.map s.groupRecords).getD []
      inconsistent := d.inconsistent })

/-- RESTART_WEIGHING (R102). -/
def execRestartWeighing (p : Port) (tag : Octet) (payload : List Octet) (s : State) : Host.Outcome State Fault Refusal :=
  request 33 p tag payload restartWeighing s

/-- READ_AXLES (R103). -/
def execReadAxles (p : Port) (tag : Octet) (payload : List Octet) (s : State) : Host.Outcome State Fault Refusal :=
  readRequest 34 p tag payload readAxles s

/-! ### Treadle events (R82 to R84, R66, R68, R51, R56) -/

/-- R83: the counts after an event, or none where it is a disagreement. -/
def treadleChange (atEntry : Bool) (dir : AxleDir) (entered exited : Nat) : Option (Nat × Nat) :=
  let step : Int := match dir with
    | .inward => 1
    | .outward => -1
  let e : Int := if atEntry then entered + step else entered
  let x : Int := if atEntry then exited else exited - step
  if 0 ≤ e ∧ 0 ≤ x ∧ x ≤ e ∧ e ≤ 255 then some (e.toNat, x.toNat) else none

/-- The TREADLE_DISAGREE instance of an end. -/
def treadleKey (e : BridgeEnd) : FaultKey := { cls := .treadleDisagree, inst := endNumber e }

/-- R84: a disagreement: raised with its detail and absent again, and counted. -/
def State.disagree (s : State) (e : BridgeEnd) (dir : AxleDir) : State :=
  let detail : DisagreeDetail := { dir := dir, entered := s.axles.entered, exited := s.axles.exited }
  let t := (s.raiseFault (treadleKey e) (some detail)).clearFault (treadleKey e)
  { t with axles.disagreements := min (s.axles.disagreements + 1) 65535 }

/-- R83, R84, R86: the counts take an event at an end; whether it was counted. -/
def State.countAxle (s : State) (e : BridgeEnd) (dir : AxleDir) (entryEnd : BridgeEnd) : State × Bool :=
  match treadleChange (e = entryEnd) dir s.axles.entered s.axles.exited with
  | some (entered, exited) =>
    (({ s with axles.entered := entered, axles.exited := exited } : State).testAxleCount, true)
  | none => (s.disagree e dir, false)

/-- R66: the first inward axle at the entry treadle moves a GRANTED bridge to OCCUPIED. -/
def State.enterBridge (s : State) : State :=
  { s with bridge.state := .occupied, bridge.grantTimer := none, bridge.advance := false, bridge.withheld := false }

/-- R51, R56, R69, R104: an event counted or found in disagreement is passed on to the Capture Unit, the Bridge Arbiter
and the trace. The arm is set here, before the hold of a disagreement is settled, so that the refusal this hold brings
clears it (R57; DESIGN CHOICE, log 48). -/
def State.passOn (s : State) (e : TraceEvent) : State :=
  let t : State :=
    { s with
      capture.waiting := s.capture.waiting.map (fun c => { c with restart := some s.weigh.rounds })
      bridge.advance := false }
  if s.bridge.state = .occupied then
    { t with capture.arm := true, capture.quietTimer := true, axles.trace := s.axles.trace.join e }
  else t

/-- R68: an intrusion: OCCUPIED_UNKNOWN, a grant withdrawn, INTRUSION queued. -/
def State.intrude (s : State) (e : BridgeEnd) : State :=
  let holder := s.bridge.grant.map (·.ident)
  let t := if s.bridge.grant.isSome then s.withdrawGrant else s
  ({ t with bridge.state := .occupiedUnknown } : State).postAll [.gatehouse, .lane] (.intrusion e holder)

/-- R82, R66: an event in GRANTED, OCCUPIED or RELEASED that is no intrusion. -/
def State.crossAxle (s : State) (e : BridgeEnd) (dir : AxleDir) (g : Grant) : State :=
  let (t, counted) := s.countAxle e dir g.entryEnd
  let u := if s.bridge.state = .granted ∧ dir = .inward ∧ e = g.entryEnd then t.enterBridge else t
  u.passOn { treadle := e, dir := dir, counted := counted }

/-- R168: any treadle event, in any bridge state, moves the restart point of a waiting test point. -/
def State.restartPoint (s : State) : State :=
  { s with
    run := s.run.map (fun r => { r with waiting := r.waiting.map (fun w => { w with restart := some s.weigh.rounds }) }) }

/-- R82, R66, R68, R73: what the Axle Unit and the Bridge Arbiter do with a treadle event. -/
def State.treadle (s : State) (e : BridgeEnd) (dir : AxleDir) : State :=
  match s.bridge.state, s.bridge.grant with
  | .occupiedUnknown, _ => s
  | .free, _ => if dir = .inward then s.intrude e else s
  | .granted, some g => if dir = .inward ∧ e ≠ g.entryEnd then s.intrude e else s.crossAxle e dir g
  | .occupied, some g => s.crossAxle e dir g
  | .released, some g => s.crossAxle e dir g
  | _, none => s

/-- TREADLE_EVENT (R82, R168). -/
def execTreadleEvent (e : BridgeEnd) (dir : AxleDir) (s : State) : Host.Outcome State Fault Refusal :=
  act (fun s => event s (s.restartPoint.treadle e dir)) s

end Sys2Proof.Machine
end

