-- ==== Sys2Proof/Machine/Tares.lean ====
section
/-! DEFINITION. The Tare Table (06 section 6.3): lookup, store, the replacement pointer, invalidation, and its
requests. -/

namespace Sys2Proof.Machine

/-- The slot after a slot: slot 95 is followed by slot 0 (R123). -/
def nextSlot (n : Nat) : Nat := if n = 95 then 0 else n + 1

/-- R120: a tare's period has run out on a date. -/
def Tare.runOut (t : Tare) (validity : Nat) (today : SiteDate) : Bool :=
  decide (dayNumber t.stored + validity ≤ dayNumber today)

/-- R120: a tare's period has run out now. -/
def State.runOut (s : State) (t : Tare) : Bool := t.runOut s.site.settings.validity s.site.clock.date

/-- The slot and tare of an ident among the valid slots. -/
def findTare (slots : Table Tare) (id : Ident) : Option (Nat × Tare) := slots.find? (fun e => e.2.ident = id)

/-! ### Lookup (R121) -/

/-- The outcomes of a lookup (R121). -/
inductive Lookup where
  | found (slot : Nat) (t : Tare)
  | expired (slot : Nat)
  | notHeld
  deriving DecidableEq, Repr

/-- R121: a lookup. -/
def State.lookup (s : State) (id : Ident) : Lookup :=
  match findTare s.tares.slots id with
  | none => .notHeld
  | some (slot, t) => if s.runOut t then .expired slot else .found slot t

/-- R121, R123: a pointer advanced where it names a slot. -/
def pointerPast (pointer slot : Nat) : Nat := if pointer = slot then nextSlot pointer else pointer

/-- R121: the effects of a lookup on the table. -/
def Tares.looked (t : Tares) : Lookup → Tares
  | .found slot _ => { t with pointer := pointerPast t.pointer slot }
  | .expired slot => { t with slots := Table.erase t.slots slot }
  | .notHeld => t

/-! ### Store (R122, R123) -/

/-- R122 step 4: the first slot that is not KEYED from the pointer on. -/
def replaceable (slots : Table Tare) (pointer : Nat) : Option (Nat × Tare) :=
  ((List.range 96).map (fun k => (pointer + k) % 96)).findSome? (fun i =>
    match Table.get? slots i with
    | some t => if t.origin = .keyed then none else some (i, t)
    | none => none)

/-- R122 step 1: the slots whose period has not run out. -/
def State.unexpired (s : State) : Table Tare := s.tares.slots.filter (fun e => !s.runOut e.2)

/-- The choice of a slot by R122 steps 2 to 4, with the tare replaced by step 4. -/
inductive SlotChoice where
  | take (slot : Nat)
  | replace (slot : Nat) (old : Tare)
  | full
  deriving DecidableEq, Repr

/-- R122: the slot a store for an ident chooses among the slots left by step 1. -/
def chooseSlot (slots : Table Tare) (pointer : Nat) (id : Ident) : SlotChoice :=
  match findTare slots id with
  | some (slot, _) => .take slot
  | none =>
    match Table.firstFree slots 96 with
    | some slot => .take slot
    | none =>
      match replaceable slots pointer with
      | some (slot, old) => .replace slot old
      | none => .full

/-- The choice a store for an ident makes now. -/
def State.chooseTare (s : State) (id : Ident) : SlotChoice := chooseSlot s.unexpired s.tares.pointer id

/-- R122, R123: a store takes the slot chosen for it; none where it is refused with TARE_TABLE_FULL. -/
def State.storeTare (s : State) (t : Tare) : Option (State × Nat) :=
  let slots := s.unexpired
  match s.chooseTare t.ident with
  | .take slot =>
    some ({ s with tares := { slots := Table.set slots slot t, pointer := pointerPast s.tares.pointer slot } }, slot)
  | .replace slot old =>
    some (({ s with tares := { slots := Table.set slots slot t, pointer := nextSlot slot } } : State).post .gatehouse
      (.tareReplaced old.ident slot), slot)
  | .full => none

/-- R122: a LEARNED store; where it is refused TARE_TABLE_FULL is queued. -/
def State.learnTare (s : State) (t : Tare) : State :=
  match s.storeTare t with
  | some (u, _) => u
  | none => s.post .gatehouse (.tareTableFull t.ident t.tare)

/-! ### Invalidation (R125) -/

/-- The slots that are not LEARNED. -/
def keyedOnly (slots : Table Tare) : Table Tare := slots.filter (fun e => e.2.origin = .keyed)

/-- R125: every LEARNED slot is invalidated: an epoch rise, a fall of the epoch, Flush Tares. -/
def State.dropLearned (s : State) : State := { s with tares.slots := keyedOnly s.tares.slots }

/-- The number of valid LEARNED slots. -/
def learnedCount (slots : Table Tare) : Nat := (slots.filter (fun e => e.2.origin = .learned)).length

/-- The number of valid KEYED slots. -/
def keyedCount (slots : Table Tare) : Nat := (slots.filter (fun e => e.2.origin = .keyed)).length

/-! ### Requests -/

/-- Check Tare (R121). -/
def checkTare (payload : List Octet) (s : State) : Taken :=
  match identAt payload 0 with
  | none => .error .badArgument
  | some id =>
    let l := s.lookup id
    .ok ({ s with tares := s.tares.looked l }, .ok, match l with
      | .found slot t => .tareFound slot t
      | .expired _ => .tareNone .expired
      | .notHeld => .tareNone .notHeld)

/-- R124: the argument checks of Key Tare. R124 names the committed table for e alone; the model takes bridge Max from
the same table, also while access is OPEN (DESIGN CHOICE, log 52). -/
def keyedTareOk (t : CalTable) (tare : Int) (cls : Nat) : Bool :=
  decide (tare % t.e = 0 ∧ 0 ≤ tare ∧ tare ≤ t.bridgeMax) && decide (cls ≤ 3 ∨ cls = 255)

/-- Key Tare (R124). -/
def keyTare (payload : List Octet) (s : State) : Taken :=
  match identAt payload 0 with
  | none => .error .badArgument
  | some id =>
    let kg := intAt payload 12 4
    let cls := natAt payload 16 1
    if !keyedTareOk s.cal.committed kg cls then .error .badArgument
    else
      match s.storeTare { ident := id, tare := kg, origin := .keyed, epoch := s.cal.epoch,
                          stored := s.site.clock.date, cls := classOf cls } with
      | none => .error .tareTableFull
      | some (t, slot) =>
        if s.hasHeadroom then .ok ((t.appendAtEpoch (.keyedTare id kg)).noteNearFull, .ok, .slot slot)
        else .error .logFull

/-- Flush Tares (R125). -/
def flushTares (s : State) : Taken := .ok (s.dropLearned, .ok, .invalidated (learnedCount s.tares.slots))

/-- Delete Tare (R125). -/
def deleteTare (p : Port) (payload : List Octet) (s : State) : Taken :=
  match identAt payload 0 with
  | none => .error .badArgument
  | some id =>
    match findTare s.tares.slots id with
    | none => .error .noTare
    | some (slot, t) =>
      if p = .gatehouse ∧ t.origin = .keyed then .error .tareKeyed
      else .ok ({ s with tares.slots := Table.erase s.tares.slots slot }, .ok, .empty)

/-- Read Tare Slot (R126). -/
def readTareSlot (payload : List Octet) (s : State) : Except Status Content :=
  let i := natAt payload 0 1
  if i < 96 then
    .ok (.tareSlot ((Table.get? s.tares.slots i).map (fun t => (t, s.runOut t))) s.tares.pointer
      (learnedCount s.tares.slots) (keyedCount s.tares.slots))
  else .error .noSuchSlot

/-- CHECK_TARE (R121). -/
def execCheckTare (p : Port) (tag : Octet) (payload : List Octet) (s : State) : Host.Outcome State Fault Refusal :=
  request 45 p tag payload (checkTare payload) s

/-- KEY_TARE (R124). -/
def execKeyTare (p : Port) (tag : Octet) (payload : List Octet) (s : State) : Host.Outcome State Fault Refusal :=
  request 46 p tag payload (keyTare payload) s

/-- FLUSH_TARES (R125). -/
def execFlushTares (p : Port) (tag : Octet) (payload : List Octet) (s : State) : Host.Outcome State Fault Refusal :=
  request 47 p tag payload flushTares s

/-- DELETE_TARE (R125). -/
def execDeleteTare (p : Port) (tag : Octet) (payload : List Octet) (s : State) : Host.Outcome State Fault Refusal :=
  request 48 p tag payload (deleteTare p payload) s

/-- READ_TARE_SLOT (R126). -/
def execReadTareSlot (p : Port) (tag : Octet) (payload : List Octet) (s : State) : Host.Outcome State Fault Refusal :=
  readRequest 49 p tag payload (readTareSlot payload) s

end Sys2Proof.Machine
end

