-- ==== Sys2Proof/Machine/Arbiter.lean ====
section
/-! DEFINITION. The Bridge Arbiter's own commands (04): arrivals, the release and clearing of the bridge, port holds,
the lamp feedback, the grant timer, and what it does with a round. -/

namespace Sys2Proof.Machine

/-! ### Arrivals (R59 to R62) -/

/-- R59: the waiting entries renumbered 1, 2, 3 and so on, in the order of their numbers. -/
def renumbered (qs : List QueueEntry) : List QueueEntry := (numbered qs).map (fun e => { e.2 with arrival := e.1 })

/-- R59: room made for the next arrival number. -/
def Bridge.renumber (b : Bridge) : Bridge :=
  if b.arrivals < 999999999 then b else { b with waiting := renumbered b.waiting, arrivals := b.waiting.length }

/-- The default class of an end (R61). -/
def SiteSettings.defaultClass (s : SiteSettings) : BridgeEnd → Nat
  | .a => s.classA
  | .b => s.classB

/-- R61: the class of the ident's tare slot, judged without marking. -/
def State.tareClass (s : State) (id : Ident) : Option Nat :=
  match findTare s.tares.slots id with
  | some (_, t) => if s.runOut t then none else t.cls
  | none => none

/-- R61: the effective class of a new entry. -/
def State.effectiveClass (s : State) (v : Visit) (e : BridgeEnd) : Nat :=
  match s.tareClass v.ident with
  | some c => c
  | none => v.cls.getD (s.site.settings.defaultClass e)

/-- The ident that holds the grant. -/
def State.holder (s : State) : Option Ident := s.bridge.grant.map (·.ident)

/-- The number of entries waiting at an end. -/
def State.queueLength (s : State) (e : BridgeEnd) : Nat :=
  (s.bridge.waiting.filter (fun q => q.entryEnd = e)).length

/-- R59, R60: an entry is appended. -/
def State.append (s : State) (v : Visit) (e : BridgeEnd) : State :=
  let b := s.bridge.renumber
  { s with
    bridge := { b with
      waiting := b.waiting ++ [{ ident := v.ident, entryEnd := e, arrival := b.arrivals + 1
                                 cls := s.effectiveClass v e, passes := 0 }]
      arrivals := b.arrivals + 1 } }

/-- Report Arrival (R60). -/
def reportArrival (payload : List Octet) (s : State) : Taken :=
  match identAt payload 0, endOf (natAt payload 12 1) with
  | some id, some e =>
    match findVisit s.visits id with
    | none => .error .noVisit
    | some (_, v) =>
      orRefuse
        (refusal [(v.inProgress, .visitInUse),
                  (s.bridge.waiting.any (fun q => q.ident = id) || decide (s.holder = some id), .duplicate),
                  (decide (8 ≤ s.queueLength e), .queueFull)])
        (s.append v e) .ok (.arrival (s.bridge.renumber.arrivals + 1))
  | _, _ => .error .badArgument

/-- Withdraw Arrival (R62). -/
def withdrawArrival (payload : List Octet) (s : State) : Taken :=
  match identAt payload 0 with
  | none => .error .badArgument
  | some id =>
    orRefuse (refusal [(!s.bridge.waiting.any (fun q => q.ident = id), .notQueued)])
      { s with bridge.waiting := s.bridge.waiting.filter (fun q => q.ident ≠ id) } .ok .empty

/-! ### Release Vehicle and Clear Bridge (R70, R72) -/

/-- Release Vehicle (R70). -/
def releaseVehicle (s : State) : Taken :=
  orRefuse (refusal [(s.bridge.state ≠ .occupied, .noVehicle)])
    (({ s with bridge.advance := false, bridge.withheld := false } : State).moveBridge .released) .ok .empty

/-- R71, R72, R73: a rounded bridge weight lies below the occupancy threshold of the table of the round (log 19). -/
def State.below (s : State) (w : Int) : Bool := decide (w < s.weigh.roundTable.occupancyKg)

/-- The rounded bridge weight of the latest round. -/
def State.latestRounded (s : State) : Option Int := s.weigh.latest.bind (·.rounded)

/-- R72: what refuses Clear Bridge. -/
def State.clearRefusal (s : State) : Option Status :=
  refusal [(decide (s.bridge.state = .free ∨ s.bridge.state = .granted), .noVehicle),
           (!s.weigh.stable || s.weigh.latest.isNone, .motion), (!s.latestRounded.any s.below, .bridgeOccupied)]

/-- Clear Bridge (R72). -/
def clearBridge (s : State) : Taken :=
  orRefuse s.clearRefusal (if s.bridge.state = .occupiedUnknown then s.unknownEnds else s.vehicleLeft) .ok .empty

/-! ### Port holds (R76) -/

/-- R76: the source of a port set or cleared. -/
def Holds.ofPort (h : Holds) (p : Port) (on : Bool) : Holds :=
  match p with
  | .gatehouse => { h with gatehouse := on }
  | .lane => { h with lane := on }
  | .metrology => { h with manual := on }

/-- Hold Bridge (R76). -/
def holdBridge (p : Port) (s : State) : Taken := .ok ({ s with bridge.holds := s.bridge.holds.ofPort p true }, .ok, .empty)

/-- Release Hold (R76). -/
def releaseHold (p : Port) (s : State) : Taken :=
  .ok ({ s with bridge.holds := s.bridge.holds.ofPort p false }, .ok, .empty)

/-! ### Reading (R79) -/

/-- One end as it is read. -/
def State.endReport (s : State) (e : BridgeEnd) : EndReport :=
  { aspect := s.bridge.aspect e, lamps := s.bridge.lamps e, lampFeedback := (s.faultEntry (lampKey e)).present }

/-- Read Bridge (R79). -/
def readBridge (s : State) : Except Status Content :=
  let b := s.bridge
  .ok (.bridge
    { state := b.state, startMark := b.startMark, ident := b.grant.map (·.ident)
      entryEnd := b.grant.map (·.entryEnd), travel := b.grant.map (fun g => travelFrom g.entryEnd)
      timer := b.grantTimer, advance := b.advance, withheld := b.withheld
      endA := s.endReport .a, endB := s.endReport .b
      gatehouse := b.holds.gatehouse, lane := b.holds.lane, manual := b.holds.manual
      otherMetrology := s.accessOpen || s.run.isSome, fault := b.holds.fault, supply := b.holds.supply
      arrivals := b.arrivals
      queueA := b.waiting.filter (fun q => q.entryEnd = .a)
      queueB := b.waiting.filter (fun q => q.entryEnd = .b) })

/-! ### Lamp feedback and the grant timer (R75, R67) -/

/-- The lamps of an end as its input reports them. -/
def State.setLamps (s : State) (e : BridgeEnd) (lit : Lamps) : State :=
  match e with
  | .a => { s with bridge.lampsA := lit }
  | .b => { s with bridge.lampsB := lit }

/-- R75: the feedback timer of an end expires. -/
def State.feedbackExpires (s : State) (e : BridgeEnd) : State :=
  if s.bridge.feedback e then (s.setFeedback e false).reportFault (lampKey e) true else s

/-- R67: a no-show. -/
def State.noShow (s : State) (id : Ident) : State :=
  ({ s.withdrawGrant with bridge.state := .free } : State).postAll [.lane, .gatehouse] (.noShow id)

/-- R67: the grant timer expires; a paused or stopped timer does not (log 6). -/
def State.grantExpires (s : State) : State :=
  match s.bridge.grantTimer, s.bridge.grant with
  | some t, some g => if t.paused then s else s.noShow g.ident
  | _, _ => s

/-! ### Rounds (R71, R73) -/

/-- R71: the latest round shows that the vehicle has left. -/
def State.hasLeft (s : State) (r : RoundValues) : Bool :=
  s.weigh.stable && r.rounded.any s.below && s.axles.entered = s.axles.exited

/-- R73: what a round does in OCCUPIED_UNKNOWN. -/
def State.unknownTakesRound (s : State) (r : RoundValues) : State :=
  match r.rounded with
  | none => s
  | some w =>
    if s.bridge.startMark then
      (if s.below w then s.unknownEnds else { s with bridge.startMark := false })
    else if s.weigh.stable && s.below w then s.unknownEnds
    else s

/-- R71, R73: the Bridge Arbiter takes a round-values event. -/
def State.arbiterTakesRound (s : State) (r : RoundValues) : State :=
  match s.bridge.state with
  | .occupied | .released => if s.hasLeft r then s.vehicleLeft else s
  | .occupiedUnknown => s.unknownTakesRound r
  | _ => s

/-! ### Commands -/

/-- LAMP_FEEDBACK_CHANGE (R75). The input is a line: its level stands through a start (log 3). -/
def execLampFeedbackChange (e : BridgeEnd) (lit : Lamps) (s : State) : Host.Outcome State Fault Refusal :=
  .next (if s.running then event s (s.setLamps e lit) else s.setLamps e lit)

/-- FEEDBACK_TIMER_EXPIRY (R75). -/
def execFeedbackTimerExpiry (e : BridgeEnd) (s : State) : Host.Outcome State Fault Refusal :=
  act (fun s => event s (s.feedbackExpires e)) s

/-- GRANT_TIMER_EXPIRY (R67). -/
def execGrantTimerExpiry (s : State) : Host.Outcome State Fault Refusal := act (fun s => event s s.grantExpires) s

/-- REPORT_ARRIVAL (R60). -/
def execReportArrival (p : Port) (tag : Octet) (payload : List Octet) (s : State) : Host.Outcome State Fault Refusal :=
  request 20 p tag payload (reportArrival payload) s

/-- WITHDRAW_ARRIVAL (R62). -/
def execWithdrawArrival (p : Port) (tag : Octet) (payload : List Octet) (s : State) : Host.Outcome State Fault Refusal :=
  request 21 p tag payload (withdrawArrival payload) s

/-- RELEASE_VEHICLE (R70). -/
def execReleaseVehicle (p : Port) (tag : Octet) (payload : List Octet) (s : State) : Host.Outcome State Fault Refusal :=
  request 22 p tag payload releaseVehicle s

/-- CLEAR_BRIDGE (R72). -/
def execClearBridge (p : Port) (tag : Octet) (payload : List Octet) (s : State) : Host.Outcome State Fault Refusal :=
  request 23 p tag payload clearBridge s

/-- HOLD_BRIDGE (R76). -/
def execHoldBridge (p : Port) (tag : Octet) (payload : List Octet) (s : State) : Host.Outcome State Fault Refusal :=
  request 24 p tag payload (holdBridge p) s

/-- RELEASE_HOLD (R76). -/
def execReleaseHold (p : Port) (tag : Octet) (payload : List Octet) (s : State) : Host.Outcome State Fault Refusal :=
  request 25 p tag payload (releaseHold p) s

/-- READ_BRIDGE (R79). -/
def execReadBridge (p : Port) (tag : Octet) (payload : List Octet) (s : State) : Host.Outcome State Fault Refusal :=
  readRequest 26 p tag payload readBridge s

end Sys2Proof.Machine
end

