-- ==== Sys2Proof/Machine/Tickets.lean ====
section
/-! DEFINITION. Tickets and totals (07): the issue of a ticket, the ticket sequence, the ring, the totals, and their
requests. -/

namespace Sys2Proof.Machine

/-! ### Keys -/

/-- Ticket keys are ordered by series, then by number (07 section 7.3). -/
def TicketKey.le (a b : TicketKey) : Bool :=
  decide (a.series < b.series) || (a.series = b.series && decide (a.number ≤ b.number))

/-- The key of a 5-octet field: series (1), number (4). -/
def keyAt (payload : List Octet) : TicketKey := { series := natAt payload 0 1, number := natAt payload 1 4 }

/-! ### The ticket record (R128 to R131) -/

/-- What the Visit Table hands to the Ticket Unit (R127): the first weighing with either a second weighing or a stored
tare. -/
inductive TicketHandoff where
  | weighed (first second : WeighRecord)
  | stored (first : WeighRecord) (t : Tare)
  deriving DecidableEq, Repr

/-- The record that is the gross of a hand-off (R128). -/
def TicketHandoff.gross : TicketHandoff → VisitKind → WeighRecord
  | .weighed first second, kind => match kind with
    | .delivery => first
    | .collection => second
  | .stored first _, _ => first

/-- The weighing record that is the tare of a hand-off, none for a stored tare (R128). -/
def TicketHandoff.tareRecord : TicketHandoff → VisitKind → Option WeighRecord
  | .weighed first second, kind => match kind with
    | .delivery => some second
    | .collection => some first
  | .stored _ _, _ => none

/-- R131: a verdict among those of a weighing's groups and combination. -/
def WeighRecord.hasVerdict (r : WeighRecord) (v : Verdict) : Bool :=
  r.groups.any (fun g => g.verdict = v) || r.combination = v

/-- R128 to R131: the record of a ticket. -/
def ticketOf (key : TicketKey) (v : Visit) (h : TicketHandoff) : Ticket :=
  let g := h.gross v.kind
  let tareRec := h.tareRecord v.kind
  let tare : Int := match h with
    | .weighed _ _ => (tareRec.map (·.weight)).getD 0
    | .stored _ t => t.tare
  let tareSource : WeightSource := match h with
    | .weighed _ _ => (tareRec.map (·.source)).getD .single
    | .stored _ t => if t.origin = .keyed then .keyedTare else .storedTare
  let firstRecord : WeighRecord := match h with
    | .weighed first _ => first
    | .stored first _ => first
  let secondEpoch : Nat := match h with
    | .weighed _ second => second.epoch
    | .stored _ t => t.epoch
  { key := key
    ident := v.ident
    kind := v.kind
    commodity := v.commodity
    config := v.config
    gross := g.weight
    tare := tare
    net := g.weight - tare
    grossSource := g.source
    tareSource := tareSource
    firstEpoch := firstRecord.epoch
    secondEpoch := secondEpoch
    firstTime := firstRecord.time
    secondDate := match h with
      | .weighed _ second => second.time.date
      | .stored _ t => t.stored
    secondTod := match h with
      | .weighed _ second => some second.time.tod
      | .stored _ _ => none
    groups := g.groups
    combination := g.combination
    flags :=
      { crossEpoch := firstRecord.epoch ≠ secondEpoch
        negativeNet := decide (g.weight - tare < 0)
        composed := g.source = .composed || tareRec.any (·.source = .composed)
        keyedTare := tareSource = .keyedTare
        inconsistentDraft := g.inconsistent || tareRec.any (·.inconsistent)
        overVerdict := g.hasVerdict .over
        advisoryVerdict := g.hasVerdict .advisory } }

/-! ### The sequence (R133, R134) -/

/-- R133, R134: the sequence takes the next number: the number rises, rolls to the next series, or is EXHAUSTED. -/
def State.takeNumber (s : State) : State :=
  if s.cal.nextNumber < 99999999 then { s with cal.nextNumber := s.cal.nextNumber + 1 }
  else if s.cal.series < 99 then
    ({ s with cal.series := s.cal.series + 1, cal.nextNumber := 1 } : State).postAll [.gatehouse, .metrology]
      (.seriesRolled (s.cal.series + 1) .automatic)
  else ({ s with cal.exhausted := true } : State).postAll [.gatehouse, .metrology] .sequenceExhausted

/-! ### Totals (R140) -/

/-- The place of a commodity and kind in the totals. -/
def totalKey (commodity : Nat) (kind : VisitKind) : Nat :=
  2 * commodity + (match kind with
    | .delivery => 0
    | .collection => 1)

/-- The total of a commodity and kind. -/
def ShiftTotals.total (t : ShiftTotals) (k : Nat) : Total :=
  (Table.get? t.totals k).getD { net := 0, count := 0, ovf := false }

/-- The flagged count of a commodity. -/
def ShiftTotals.flaggedOf (t : ShiftTotals) (commodity : Nat) : Flagged :=
  (Table.get? t.flagged commodity).getD { count := 0, ovf := false }

/-- R140: an addition that holds at a maximum. -/
def addUpTo (most a b : Nat) : Nat := min (a + b) most

/-- R140: a net of 0 or more added to a total. -/
def Total.add (t : Total) (net : Nat) : Total :=
  { net := addUpTo 999999999 t.net net
    count := addUpTo 65535 t.count 1
    ovf := t.ovf || decide (999999999 < t.net + net) || decide (65535 < t.count + 1) }

/-- R140: one more flagged ticket. -/
def Flagged.add (f : Flagged) : Flagged :=
  { count := addUpTo 65535 f.count 1, ovf := f.ovf || decide (65535 < f.count + 1) }

/-- R140: the totals take a ticket. -/
def ShiftTotals.take (t : ShiftTotals) (k : Ticket) : ShiftTotals :=
  let marked : ShiftTotals :=
    { t with lastKey := some k.key, firstKey := if t.firstKey.isNone then some k.key else t.firstKey }
  if k.net < 0 then
    { marked with flagged := Table.set t.flagged k.commodity (t.flaggedOf k.commodity).add }
  else
    let place := totalKey k.commodity k.kind
    { marked with totals := Table.set t.totals place ((t.total place).add k.net.toNat) }

/-! ### Issue (R127, R136, R139) -/

/-- R127: what refuses a completing capture at the Ticket Unit. -/
def State.ticketRefusal (s : State) : Option Status :=
  refusal [(decide (64 ≤ s.tickets.ring.length), .ticketStoreFull), (s.cal.exhausted, .sequenceExhausted)]

/-- R136: the notice of an append that fills the ring. -/
def State.noteRing (s : State) : State :=
  match s.tickets.ring.head?, s.tickets.ring.getLast? with
  | some oldest, some newest =>
    if s.tickets.ring.length = 64 then s.post .gatehouse (.ticketRingFull oldest.key newest.key) else s
  | _, _ => s

/-- R139: the notices of an issue. -/
def State.noteTicket (s : State) (k : Ticket) : State :=
  let full : Notice := .ticketIssued k.key k.ident k.kind k.commodity k.gross k.tare k.net k.flags
  ((s.post .gatehouse full).postCopy full).post .lane (.ticketIssuedShort k.key k.ident k.net k.flags)

/-- R127: a ticket is issued, its checks having passed. -/
def State.issueTicket (s : State) (v : Visit) (h : TicketHandoff) : State :=
  let k := ticketOf { series := s.cal.series, number := s.cal.nextNumber } v h
  let t : State :=
    { s with
      cal.lastKey := some k.key
      tickets.ring := s.tickets.ring ++ [k]
      tickets.shift := s.tickets.shift.take k }
  (t.takeNumber.noteRing).noteTicket k

/-! ### Requests -/

/-- Read Ticket Sequence (R132). -/
def readTicketSequence (s : State) : Except Status Content :=
  .ok (.sequence s.cal.series (if s.cal.exhausted then none else some s.cal.nextNumber) s.cal.exhausted s.cal.lastKey)

/-- Roll Ticket Series (R135). -/
def rollTicketSeries (s : State) : Taken :=
  orRefuse (refusal [(decide (99 ≤ s.cal.series), .seriesLimit), (!s.hasHeadroom, .logFull)])
    (((({ s with cal.series := s.cal.series + 1, cal.nextNumber := 1 } : State).appendAtEpoch
      (.seriesRoll (s.cal.series + 1))).postAll [.gatehouse, .metrology]
      (.seriesRolled (s.cal.series + 1) .requested)).noteNearFull)
    .ok (.series (s.cal.series + 1))

/-- The tickets of the ring at or below a key (R137). -/
def collected (ring : List Ticket) (k : TicketKey) : List Ticket := ring.filter (fun t => t.key.le k)

/-- Collect Tickets (R137). -/
def collectTickets (payload : List Octet) (s : State) : Taken :=
  let k := keyAt payload
  if !decide (1 ≤ k.series ∧ k.series ≤ 99 ∧ 1 ≤ k.number ∧ k.number ≤ 99999999) then .error .badArgument
  else
    match (collected s.tickets.ring k).getLast? with
    | none => .error .nothingToCollect
    | some newest =>
      .ok ({ s with tickets.ring := s.tickets.ring.filter (fun t => !t.key.le k) }, .ok,
        .collected (collected s.tickets.ring k).length newest.key)

/-- Read Ticket (R138). -/
def readTicket (payload : List Octet) (s : State) : Except Status Content :=
  match s.tickets.ring.find? (fun t => t.key = keyAt payload) with
  | some t => .ok (.ticket t)
  | none => .error .noSuchTicket

/-- Read Ticket Ring (R138). -/
def readTicketRing (payload : List Octet) (s : State) : Except Status Content :=
  let keys := s.tickets.ring.map (·.key)
  .ok (.ring keys.length keys.head? keys.getLast? ((keys.drop (natAt payload 0 1)).take 16))

/-- Close Shift (R141). -/
def closeShift (s : State) : Taken :=
  .ok ({ s with tickets.last := some { totals := s.tickets.shift, time := s.site.clock }, tickets.shift := .zero },
    .ok, .shiftClosed s.site.clock)

/-- Read Totals (R142). -/
def readTotals (s : State) : Except Status Content := .ok (.totals s.tickets.shift)

/-- Read Last Shift (R142). -/
def readLastShift (s : State) : Except Status Content := .ok (.lastShift s.tickets.last)

/-- READ_TICKET_SEQUENCE (R132). -/
def execReadTicketSequence (p : Port) (tag : Octet) (payload : List Octet) (s : State) :
    Host.Outcome State Fault Refusal := readRequest 50 p tag payload readTicketSequence s

/-- ROLL_TICKET_SERIES (R135). -/
def execRollTicketSeries (p : Port) (tag : Octet) (payload : List Octet) (s : State) :
    Host.Outcome State Fault Refusal := request 51 p tag payload rollTicketSeries s

/-- COLLECT_TICKETS (R137). -/
def execCollectTickets (p : Port) (tag : Octet) (payload : List Octet) (s : State) :
    Host.Outcome State Fault Refusal := request 52 p tag payload (collectTickets payload) s

/-- READ_TICKET (R138). -/
def execReadTicket (p : Port) (tag : Octet) (payload : List Octet) (s : State) : Host.Outcome State Fault Refusal :=
  readRequest 53 p tag payload (readTicket payload) s

/-- READ_TICKET_RING (R138). -/
def execReadTicketRing (p : Port) (tag : Octet) (payload : List Octet) (s : State) : Host.Outcome State Fault Refusal :=
  readRequest 54 p tag payload (readTicketRing payload) s

/-- CLOSE_SHIFT (R141). -/
def execCloseShift (p : Port) (tag : Octet) (payload : List Octet) (s : State) : Host.Outcome State Fault Refusal :=
  request 55 p tag payload closeShift s

/-- READ_TOTALS (R142). -/
def execReadTotals (p : Port) (tag : Octet) (payload : List Octet) (s : State) : Host.Outcome State Fault Refusal :=
  readRequest 56 p tag payload readTotals s

/-- READ_LAST_SHIFT (R142). -/
def execReadLastShift (p : Port) (tag : Octet) (payload : List Octet) (s : State) : Host.Outcome State Fault Refusal :=
  readRequest 57 p tag payload readLastShift s

end Sys2Proof.Machine
end

