-- ==== Sys2Proof/Machine/Visits.lean ====
section
/-! DEFINITION. The Visit Table (06 sections 6.1, 6.2): where a completed weighing goes, ageing, and the requests that
open, change, remove and read visits. -/

namespace Sys2Proof.Machine

/-! ### Completing a weighing (R113, R114) -/

/-- R113, R114: the weighing record, stamped with the epoch and the site time. -/
def State.recordOf (s : State) (c : WeighContent) : WeighRecord :=
  { weight := c.weight, source := c.source, epoch := s.cal.epoch, time := s.site.clock, groups := c.groups,
    combination := c.combination, inconsistent := c.inconsistent, drafts := c.drafts }

/-- R113: the record becomes the first weighing and the visit moves to AWAITING_SECOND. -/
def State.firstWeighed (s : State) (p : Nat) (v : Visit) (r : WeighRecord) : State :=
  ({ s with
      visits := Table.set s.visits p { v with state := .awaitingSecond, first := some r, draft := .empty, age := 0 } }
    : State).post .gatehouse (.firstWeighed v.ident v.kind r.weight r.source r.combination r.drafts)

/-- R113, R114: the LEARNED tare of a weighing. -/
def learnedTare (v : Visit) (r : WeighRecord) : Tare :=
  { ident := v.ident, tare := r.weight, origin := .learned, epoch := r.epoch, stored := r.time.date, cls := v.cls }

/-- R114, R127: the ticket is issued and the entry removed. -/
def State.ticketVisit (s : State) (p : Nat) (v : Visit) (h : TicketHandoff) : State :=
  let t := s.issueTicket v h
  { t with visits := Table.erase t.visits p, inUse := none }

/-- R113: a completing draft taken in FIRST_IN_PROGRESS. -/
def State.completeFirst (s : State) (p : Nat) (v : Visit) (r : WeighRecord) : Except Status State :=
  match v.kind with
  | .collection =>
    let t := if v.learn then s.learnTare (learnedTare v r) else s
    .ok (t.firstWeighed p v r)
  | .delivery =>
    if v.useStored then
      let l := s.lookup v.ident
      let looked : State := { s with tares := s.tares.looked l }
      let gone (why : TareReason) : State :=
        (looked.firstWeighed p v r).postAll [.gatehouse, .lane] (.tareGone v.ident r.weight why)
      match l with
      | .found _ t =>
        match s.ticketRefusal with
        | some code => .error code
        | none => .ok (looked.ticketVisit p v (.stored r t))
      | .expired _ => .ok (gone .expired)
      | .notHeld => .ok (gone .notHeld)
    else .ok (s.firstWeighed p v r)

/-- R114: a completing draft taken in SECOND_IN_PROGRESS. (A visit there has its first weighing.) -/
def State.completeSecond (s : State) (p : Nat) (v : Visit) (r : WeighRecord) : Except Status State :=
  match s.ticketRefusal with
  | some code => .error code
  | none =>
    let t := if v.learn && v.kind = .delivery then s.learnTare (learnedTare v r) else s
    .ok (t.ticketVisit p v (.weighed (v.first.getD r) r))

/-- R100, R113, R114: a draft result taken for the visit at a position: the state an accepted capture leaves, or the
refusal of the Ticket Unit. -/
def State.takeDraft (s : State) (p : Nat) (v : Visit) (d : DraftResult) : Except Status State :=
  match d.content with
  | none => .ok { s with visits := Table.set s.visits p { v with draft := d.draft } }
  | some c =>
    if v.state = .secondInProgress then s.completeSecond p v (s.recordOf c) else s.completeFirst p v (s.recordOf c)

/-! ### Ageing (R116 to R118) -/

/-- Whether an ident waits in either approach queue. -/
def State.queued (s : State) (id : Ident) : Bool := s.bridge.waiting.any (fun q => q.ident = id)

/-- Whether a visit is awaiting. -/
def Visit.awaiting (v : Visit) : Bool := v.state = .awaitingFirst || v.state = .awaitingSecond

/-- R116, R118: an entry ages: it is awaiting, not in use and not queued. -/
def State.ages (s : State) (p : Nat) (v : Visit) : Bool :=
  v.awaiting && decide (s.inUse ≠ some p) && !s.queued v.ident

/-- R117: the visit timeout in seconds. -/
def State.visitTimeoutSeconds (s : State) : Nat := s.site.settings.visitTimeout * 3600

/-- R117: the notice of a visit whose age has reached the timeout. -/
def State.noteExpired (s : State) (v : Visit) : State :=
  s.post .gatehouse (.visitExpired v.ident v.kind v.state (v.first.map (fun r => (r.weight, r.time))))

/-- R116: the entry one second on. -/
def State.aged (s : State) (e : Nat × Visit) : Nat × Visit :=
  if s.ages e.1 e.2 then (e.1, { e.2 with age := e.2.age + 1 }) else e

/-- R117: the increase took the entry's age to the timeout. -/
def State.timedOut (s : State) (e : Nat × Visit) : Bool :=
  s.ages e.1 e.2 && decide (s.visitTimeoutSeconds ≤ e.2.age)

/-- R116, R117: every age one second on, and the entries that reach the timeout removed, in order of position (log
22). -/
def State.ageVisits (s : State) : State :=
  let aged := s.visits.map s.aged
  (aged.filter s.timedOut).foldl (fun t e => t.noteExpired e.2)
    { s with visits := aged.filter (fun e => !s.timedOut e) }

/-- R117: the increase of one entry that takes its age to the timeout (log 10). -/
def State.timeoutVisit (s : State) (p : Nat) : State :=
  match Table.get? s.visits p with
  | none => s
  | some v =>
    let e := s.aged (p, v)
    if s.timedOut e then ({ s with visits := Table.erase s.visits p } : State).noteExpired e.2 else s

/-- VISIT_TIMEOUT (R117). -/
def execVisitTimeout (position : Nat) (s : State) : Host.Outcome State Fault Refusal :=
  act (fun s => event s (s.timeoutVisit position)) s

/-- R118: an entry that Expire Visits removes. -/
def State.expires (s : State) (hours : Nat) (e : Nat × Visit) : Bool :=
  s.ages e.1 e.2 && decide (hours * 3600 ≤ e.2.age)

/-- Expire Visits (R118). -/
def expireVisits (payload : List Octet) (s : State) : Taken :=
  let hours := natAt payload 0 1
  if hours ≤ 72 then
    .ok ({ s with visits := s.visits.filter (fun e => !s.expires hours e) }, .ok,
      .removed (s.visits.filter (s.expires hours)).length)
  else .error .badArgument

/-! ### Opening, amending and cancelling (R108 to R110) -/

/-- The fields of a visit that a request carries (R108, R109). -/
structure VisitArgs where
  kind : Nat
  commodity : Nat
  code : Nat
  cls : Nat
  useStored : Bool
  learn : Bool
  deriving DecidableEq, Repr

/-- The fields from an offset on: kind, commodity, configuration code, class, options (R201). -/
def visitArgsAt (payload : List Octet) (offset : Nat) : VisitArgs :=
  { kind := natAt payload offset 1, commodity := natAt payload (offset + 1) 1, code := natAt payload (offset + 2) 1
    cls := natAt payload (offset + 3) 1, useStored := bitAt payload (offset + 4) 0
    learn := bitAt payload (offset + 4) 1 }

/-- R108: a priority class as sent lies in 0..3, or is none. -/
def classOk (n : Nat) : Bool := decide (n ≤ 3 ∨ n = 255)

/-- R108: a configuration code as sent is bad: given, and no code or an empty entry. -/
def State.badCode (s : State) (code : Nat) : Bool := decide (code ≠ 0) && (s.entryOf code).isNone

/-- R108: the argument check of Open Visit, after the ident. -/
def visitArgsOk (a : VisitArgs) : Bool :=
  decide (a.kind ≤ 1 ∧ a.commodity ≤ 15) && classOk a.cls && !(a.useStored && a.kind = 1)

/-- A visit as Open Visit makes it (R108). -/
def newVisit (id : Ident) (a : VisitArgs) : Visit :=
  { ident := id, kind := if a.kind = 1 then .collection else .delivery, commodity := a.commodity
    config := codeOf a.code, cls := classOf a.cls, useStored := a.useStored, learn := a.learn
    state := .awaitingFirst, first := none, draft := .empty, age := 0 }

/-- Open Visit (R108). -/
def openVisit (payload : List Octet) (s : State) : Taken :=
  match identAt payload 0 with
  | none => .error .badArgument
  | some id =>
    let a := visitArgsAt payload 12
    match refusal [(!visitArgsOk a, .badArgument), ((findVisit s.visits id).isSome, .duplicateVisit),
                   (s.badCode a.code, .badConfiguration)] with
    | some code => .error code
    | none =>
      match Table.firstFree s.visits 256 with
      | none => .error .visitTableFull
      | some p => .ok ({ s with visits := Table.set s.visits p (newVisit id a) }, .ok, .position p)

/-- The fields that an Amend Visit carries, by its marking octet (R201). -/
structure Carried where
  kind : Bool
  commodity : Bool
  code : Bool
  cls : Bool
  useStored : Bool
  learn : Bool
  deriving DecidableEq, Repr

/-- The marking octet of an Amend Visit. -/
def carriedAt (payload : List Octet) (offset : Nat) : Carried :=
  { kind := bitAt payload offset 0, commodity := bitAt payload offset 1, code := bitAt payload offset 2
    cls := bitAt payload offset 3, useStored := bitAt payload offset 4, learn := bitAt payload offset 5 }

/-- R109: the visit as it would stand after the amend. -/
def Visit.amended (v : Visit) (m : Carried) (a : VisitArgs) : Visit :=
  { v with
    kind := if m.kind then (if a.kind = 1 then .collection else .delivery) else v.kind
    commodity := if m.commodity then a.commodity else v.commodity
    config := if m.code then codeOf a.code else v.config
    cls := if m.cls then classOf a.cls else v.cls
    useStored := if m.useStored then a.useStored else v.useStored
    learn := if m.learn then a.learn else v.learn }

/-- R109: a carried value lies outside its range, or the amended visit would be a COLLECTION with use stored tare. -/
def badAmend (m : Carried) (a : VisitArgs) (w : Visit) : Bool :=
  (m.kind && decide (1 < a.kind)) || (m.commodity && decide (15 < a.commodity)) || (m.cls && !classOk a.cls)
    || (w.useStored && w.kind = .collection)

/-- R109: the refusals of an amend of the visit `v` at position `p`. -/
def State.amendRefusal (s : State) (p : Nat) (v : Visit) (m : Carried) (a : VisitArgs) : Option Status :=
  refusal [(badAmend m a (v.amended m a), .badArgument), (m.code && s.badCode a.code, .badConfiguration),
           (decide (s.inUse = some p) && decide (1 ≤ v.draft.used), .visitInUse),
           (m.kind && decide ((v.amended m a).kind ≠ v.kind) && v.first.isSome, .kindFixed)]

/-- Amend Visit (R109). -/
def amendVisit (payload : List Octet) (s : State) : Taken :=
  match identAt payload 0 with
  | none => .error .badArgument
  | some id =>
    match findVisit s.visits id with
    | none => .error .noVisit
    | some (p, v) =>
      let m := carriedAt payload 12
      let a := visitArgsAt payload 13
      let t : State := { s with visits := Table.set s.visits p (v.amended m a) }
      orRefuse (s.amendRefusal p v m a) (if s.inUse = some p then t.testAxleCount else t) .ok .empty

/-- Cancel Visit (R110). -/
def cancelVisit (payload : List Octet) (s : State) : Taken :=
  match identAt payload 0 with
  | none => .error .badArgument
  | some id =>
    match findVisit s.visits id with
    | none => .error .noVisit
    | some (p, _) =>
      if s.inUse = some p then .error .visitInUse
      else
        .ok ({ s with
               visits := Table.erase s.visits p
               bridge.waiting := s.bridge.waiting.filter (fun q => q.ident ≠ id) }, .ok, .empty)

/-! ### Reading (R111) -/

/-- Read Visit. -/
def readVisit (payload : List Octet) (s : State) : Except Status Content :=
  match identAt payload 0 with
  | none => .error .badArgument
  | some id =>
    match findVisit s.visits id with
    | none => .error .noVisit
    | some (p, v) =>
      .ok (.visit v (s.groupRecords v) (s.inUse = some p) (decide (s.inUse = some p) && s.axles.axleCount)
        ((s.bridge.waiting.find? (fun q => q.ident = id)).map (fun q => (q.entryEnd, q.arrival))))

/-- List Visits. -/
def listVisits (payload : List Octet) (s : State) : Except Status Content :=
  let start := natAt payload 0 1
  let count := natAt payload 1 1
  if 1 ≤ count ∧ count ≤ 16 then
    .ok (.visitList s.visits.length (((s.visits.filter (fun e => decide (start ≤ e.1))).take count).map (fun e =>
      { position := e.1, ident := e.2.ident, kind := e.2.kind, state := e.2.state, inUse := s.inUse = some e.1,
        age := e.2.age })))
  else .error .badArgument

/-- EXPIRE_VISITS (R118). -/
def execExpireVisits (p : Port) (tag : Octet) (payload : List Octet) (s : State) : Host.Outcome State Fault Refusal :=
  request 39 p tag payload (expireVisits payload) s

/-- OPEN_VISIT (R108). -/
def execOpenVisit (p : Port) (tag : Octet) (payload : List Octet) (s : State) : Host.Outcome State Fault Refusal :=
  request 40 p tag payload (openVisit payload) s

/-- AMEND_VISIT (R109). -/
def execAmendVisit (p : Port) (tag : Octet) (payload : List Octet) (s : State) : Host.Outcome State Fault Refusal :=
  request 41 p tag payload (amendVisit payload) s

/-- CANCEL_VISIT (R110). -/
def execCancelVisit (p : Port) (tag : Octet) (payload : List Octet) (s : State) : Host.Outcome State Fault Refusal :=
  request 42 p tag payload (cancelVisit payload) s

/-- READ_VISIT (R111). -/
def execReadVisit (p : Port) (tag : Octet) (payload : List Octet) (s : State) : Host.Outcome State Fault Refusal :=
  readRequest 43 p tag payload (readVisit payload) s

/-- LIST_VISITS (R111). -/
def execListVisits (p : Port) (tag : Octet) (payload : List Octet) (s : State) : Host.Outcome State Fault Refusal :=
  readRequest 44 p tag payload (listVisits payload) s

end Sys2Proof.Machine
end

