-- ==== Sys2Proof/Machine/Capture.lean ====
section
/-! DEFINITION. The Capture Unit (03 section 3.3): the beginning of a capture, its completion on a round with all that
an accepted draft sets off (R50, R69, R100, R101), its timers and its requests. -/

namespace Sys2Proof.Machine

/-! ### Beginning a capture (R47, R48) -/

/-- R47: the visit of the vehicle holding the grant has a weighing in progress. -/
def State.weighingInProgress (s : State) : Bool := s.visitInUse.any Visit.inProgress

/-- R47: what refuses a capture at once. -/
def State.captureRefusal (s : State) : Option Status :=
  refusal [(decide (s.bridge.state ≠ .occupied) || !s.weighingInProgress, .noVehicle), (s.held, .held),
           (s.weigh.zeroUnset, .zeroUnset), (s.capture.waiting.isSome, .capturePending),
           (s.notForTrade, .notForTrade)]

/-- R48: a capture enters WAITING. -/
def State.beginCapture (s : State) (o : Origin) : State :=
  { s with
    capture.waiting := some { origin := o, ident := (s.visitInUse.map (·.ident)).getD []
                              secondsLeft := s.site.settings.captureTimeout, restart := none } }

/-- R45, R57: an immediate refusal: the last outcome is replaced and the arm cleared. Its ident is the one holding the
grant, where there is one (log 25). -/
def State.refuseAtOnce (s : State) (o : Origin) (code : Status) : State :=
  { s with
    capture.lastOutcome := some { origin := o, ident := s.bridge.grant.map (·.ident), outcome := code, round := none }
    capture.arm := false }

/-- Request Capture (R47). -/
def requestCapture (p : Port) (tag : Octet) (s : State) : Taken :=
  match s.captureRefusal with
  | some code => .ok (s.refuseAtOnce (.request p tag) code, code, .empty)
  | none => .ok (s.beginCapture (.request p tag), .accepted, .empty)

/-- R56, R57: an AUTO capture is attempted. -/
def State.attemptAuto (s : State) : State :=
  match s.captureRefusal with
  | some code =>
    (s.refuseAtOnce .auto code).post .lane
      (.captureOutcome .auto ((s.bridge.grant.map (·.ident)).getD []) code none)
  | none => s.beginCapture .auto

/-- R56: the quiet timer expires. -/
def State.quietExpires (s : State) : State :=
  if !s.capture.quietTimer then s
  else
    let t : State := { s with capture.quietTimer := false }
    if !s.site.settings.autoCapture || !s.capture.arm || s.capture.waiting.isSome then t else t.attemptAuto

/-! ### An accepted draft (R69, R100, R101) -/

/-- R69: the Bridge Arbiter takes the report of an accepted draft. -/
def State.reportDraft (s : State) (id : Ident) (anyOver completed : Bool) : State :=
  let t : State := { s with bridge.withheld := s.bridge.withheld || (anyOver && s.site.settings.holdExit) }
  if !completed then { t with bridge.advance := true }
  else
    let u : State := { t with bridge.advance := false }
    if t.bridge.withheld then u.postAll [.gatehouse, .lane] (.exitWithheld id) else u.moveBridge .released

/-- R101: some verdict given in the draft is OVER. -/
def DraftResult.anyOver (d : DraftResult) : Bool := !d.overGroups.isEmpty || d.overCombination.isSome

/-- R101: the steps of a draft with an OVER verdict. -/
def State.overSteps (s : State) (id : Ident) (d : DraftResult) (r : RoundValues) : State :=
  if !d.anyOver then s
  else
    let n : Notice := .overVerdict id d.draft.used d.overGroups d.overCombination
    let t := ((s.postAll [.gatehouse, .lane] n).postCopy n).takeSnapshot .overVerdict (some d.draft.used)
    t.freezeTrace .overVerdict id r (some d.draft.used)

/-- R50, R100: the capture passes to ACCEPTED; `s` already holds what the tables and the Ticket Unit made of the draft. -/
def State.acceptCapture (s : State) (c : Capture) (d : DraftResult) (r : RoundValues) : State :=
  let accepted : AcceptedCapture := { round := r.index, weight := r.rounded.getD 0, draft := d.draft.used }
  (((s.endCapture c .accepted (some r.index) (some accepted)).overSteps c.ident d r).reportDraft c.ident d.anyOver
    d.content.isSome)

/-- R94: a STRADDLE refusal: REPOSITION queued, the trace frozen, the capture refused. -/
def State.refuseStraddle (s : State) (c : Capture) (r : RoundValues) (firstAxle lastAxle groups : Nat)
    (decks : List Nat) : State :=
  ((s.freezeTrace .straddle c.ident r none).post .lane
    (.reposition c.ident firstAxle lastAxle groups decks)).endCapture c .straddle (some r.index) none

/-- R50: the hand-off of a completing round for the visit at a position. -/
def State.handOff (s : State) (c : Capture) (r : RoundValues) (p : Nat) (v : Visit) : State :=
  match resolveDraft (s.configOf v) (s.handoff v r) with
  | .refused code => s.endCapture c code (some r.index) none
  | .straddle a b m decks => s.refuseStraddle c r a b m decks
  | .result d =>
    match s.takeDraft p v d with
    | .error code => s.endCapture c code (some r.index) none
    | .ok t => t.acceptCapture c d r

/-- R49: the checks of the round that completes the wait, then the hand-off. (A WAITING capture always has the visit in
use in progress; where it has none it is refused with NO_VEHICLE, as R47 would.) -/
def State.completeCapture (s : State) (c : Capture) (r : RoundValues) : State :=
  if s.notForTrade then s.endCapture c .notForTrade (some r.index) none
  else if r.range ≠ .normal then s.endCapture c .range (some r.index) none
  else
    match s.inUse, s.visitInUse with
    | some p, some v =>
      if v.inProgress then s.handOff c r p v else s.endCapture c .noVehicle (some r.index) none
    | _, _ => s.endCapture c .noVehicle (some r.index) none

/-- R49: a WAITING capture takes the latest round. -/
def State.captureTakesRound (s : State) (r : RoundValues) : State :=
  match s.capture.waiting with
  | none => s
  | some c => if s.waitComplete c.restart then s.completeCapture c r else s

/-! ### Commands -/

/-- Read Capture (R46). -/
def readCapture (s : State) : Except Status Content :=
  .ok (.capture s.capture.waiting s.capture.arm s.capture.lastOutcome)

/-- REQUEST_CAPTURE (R47). -/
def execRequestCapture (p : Port) (tag : Octet) (payload : List Octet) (s : State) : Host.Outcome State Fault Refusal :=
  request 15 p tag payload (requestCapture p tag) s

/-- READ_CAPTURE (R46). -/
def execReadCapture (p : Port) (tag : Octet) (payload : List Octet) (s : State) : Host.Outcome State Fault Refusal :=
  readRequest 16 p tag payload readCapture s

/-- CAPTURE_TIMEOUT (R52). -/
def execCaptureTimeout (s : State) : Host.Outcome State Fault Refusal :=
  act (fun s => event s (s.refuseWaiting .captureTimeout none)) s

/-- QUIET_TIMER_EXPIRY (R56). -/
def execQuietTimerExpiry (s : State) : Host.Outcome State Fault Refusal := act (fun s => event s s.quietExpires) s

end Sys2Proof.Machine
end

