-- ==== Sys2Proof/Machine/Calibration.lean ====
section
/-! DEFINITION. Calibration access, the staged table, commits and the audit trail's requests (08). -/

namespace Sys2Proof.Machine

/-! ### Access (R145, R154, R155) -/

/-- R146: the staged differences, as the changes they would make. -/
def State.stagedDifferences (s : State) : List ParamChange :=
  match s.staged with
  | none => []
  | some t => paramChanges s.cal.committed t

/-- R146: the staged table with the staged-difference mark worked out again. -/
def State.setStaged (s : State) (t : CalTable) : State :=
  { s with staged := some t, cal.diffMark := !(paramChanges s.cal.committed t).isEmpty }

/-- R154: the staged table is discarded, access is CLOSED and both marks are clear. The claim ends and the METROLOGY
cause goes with it. -/
def State.closeAccess (s : State) : State := { s with staged := none, cal.accessMark := false, cal.diffMark := false }

/-- R145: the checks of Open Calibration. -/
def State.openRefusal (s : State) : Option Status :=
  refusal [(s.accessOpen, .alreadyOpen), (!s.switchOn, .switchOff), (s.bridge.state ≠ .free, .bridgeOccupied),
           (s.capture.waiting.isSome, .capturePending), (s.run.isSome, .runActive), (s.locked, .lockout),
           (!s.hasHeadroom, .logFull)]

/-- Open Calibration (R145). -/
def openCalibration (s : State) : Taken :=
  orRefuse s.openRefusal { s with staged := some s.cal.committed, cal.accessMark := true, cal.diffMark := false }
    .ok .empty

/-- Abandon Calibration (R154). -/
def abandonCalibration (s : State) : Taken := orRefuse (refusal [(!s.accessOpen, .notOpen)]) s.closeAccess .ok .empty

/-- R155: the switch is withdrawn while access is OPEN. -/
def State.withdrawSwitch (s : State) : State :=
  if s.stagedDifferences.isEmpty then s.closeAccess.post .metrology .accessClosed
  else s.closeAccess.enterLockout .calAccessInterrupted

/-- R155: a change of the calibration switch line. -/
def State.switchChange (s : State) (asserted : Bool) : State :=
  let t : State := { s with switchOn := asserted }
  if !asserted && s.accessOpen then t.withdrawSwitch else t

/-- CALIBRATION_SWITCH_CHANGE (R155). The line's level stands through a start (log 3). -/
def execCalibrationSwitchChange (asserted : Bool) (s : State) : Host.Outcome State Fault Refusal :=
  .next (if s.running then event s (s.switchChange asserted) else { s with switchOn := asserted })

/-! ### Parameters (R147, R148) -/

/-- Write Parameter (R147). -/
def writeParameter (payload : List Octet) (s : State) : Taken :=
  let id := natAt payload 0 2
  let v := intAt payload 2 5
  match s.staged with
  | none => .error .notOpen
  | some t =>
    orRefuse (refusal [(!isParam id, .noSuchParameter), (!paramInRange t id v, .badParameter)])
      (s.setStaged (t.put id v)) .ok .empty

/-- Read Parameter (R148). -/
def readParameter (payload : List Octet) (s : State) : Except Status Content :=
  let id := natAt payload 0 2
  let copy := natAt payload 2 1
  match refusal [(decide (1 < copy), .badArgument), (!isParam id, .noSuchParameter)] with
  | some code => .error code
  | none =>
    if copy = 0 then .ok (.parameter (s.cal.committed.val id))
    else
      match s.staged with
      | none => .error .notOpen
      | some t => .ok (.parameter (t.val id))

/-- R153: the commits whose retained write has not completed. -/
def State.pendingCommits (s : State) : Nat := (s.writes.filter (fun w => w.commit.isSome)).length

/-- Read Calibration State (R148). -/
def readCalibrationState (s : State) : Except Status Content :=
  .ok (.calibrationState
    { accessOpen := s.accessOpen, switchOn := s.switchOn, epoch := s.cal.epoch, notVerified := s.cal.notVerified
      differences := s.staged.map (fun _ => s.stagedDifferences.length)
      pointsInOrder := s.staged.map (fun t => t.deckList.map t.pointsInOrder)
      pendingCommits := s.pendingCommits, audit := s.auditSummary })

/-! ### Zero and span adjustment (R149, R150) -/

/-- R149, R150: the filtered value of a deck in the latest round, where that round is stable. -/
def State.settledValue (s : State) (d : Nat) : Option Int :=
  if s.weigh.stable then
    match s.weigh.latest with
    | none => none
    | some v => (v.decks[d - 1]?).bind (·.filtered)
  else none

/-- A deck number 1 to D of a table. -/
def CalTable.hasDeck (t : CalTable) (d : Nat) : Bool := decide (1 ≤ d ∧ d ≤ t.decks)

/-- Calibrate Zero (R149). -/
def calibrateZero (payload : List Octet) (s : State) : Taken :=
  let d := natAt payload 0 1
  match s.staged with
  | none => .error .notOpen
  | some t =>
    if !t.hasDeck d then .error .badArgument
    else
      match s.settledValue d with
      | none => .error .motion
      | some f =>
        if between (-2000000000) f 2000000000 then
          .ok (s.setStaged (t.put (100 * d + 1) f), .ok, .calibratedZero f)
        else .error .badParameter

/-- R150: a span factor rescaled by `reference` grams over a measured load, held to its range, and whether it was
clamped. -/
def rescaled (f reference load : Int) : Int × Bool :=
  let n := roundDiv (f * reference) load
  if 16777215 < n then (16777215, true) else if n < 1 then (1, true) else (n, false)

/-- R150: what Calibrate Span makes of each cell of a deck, by ascending address (DESIGN CHOICE, log 55). -/
def spanChanges (t : CalTable) (d : Nat) (reference load : Int) : List SpanChange :=
  (t.cellsOf d).map (fun i =>
    let n := rescaled (t.spanFactor i) reference load
    { address := i, old := t.spanFactor i, new := n.1, clamped := n.2 })

/-- R150: the table with the new span factors. -/
def CalTable.putSpans (t : CalTable) (cs : List SpanChange) : CalTable :=
  cs.foldl (fun acc c => acc.put (1000 + 10 * c.address + 2) c.new) t

/-- R150: the measured load refuses: 0 or less, or a ratio below 0.5 or above 2. -/
def spanOut (reference load : Int) : Bool := decide (load ≤ 0 ∨ 2 * reference < load ∨ 2 * load < reference)

/-- Calibrate Span (R150). -/
def calibrateSpan (payload : List Octet) (s : State) : Taken :=
  let d := natAt payload 0 1
  let kg := intAt payload 1 4
  match s.staged with
  | none => .error .notOpen
  | some t =>
    if !t.hasDeck d || !between 1 kg 999999 then .error .badArgument
    else
      match s.settledValue d with
      | none => .error .motion
      | some f =>
        let load := f - t.zero0 d
        if spanOut (kg * 1000) load then .error .spanRange
        else
          let cs := spanChanges t d (kg * 1000) load
          .ok (s.setStaged (t.putSpans cs), .ok, .span load (kg * 1000) cs)

/-! ### Commit (R151, R152) -/

/-- R151: the checks before the differences are asked for. -/
def commitTableRefusal (t : CalTable) : Option Status :=
  refusal [(!t.deckList.all t.pointsInOrder, .linearizationOrder),
           (!t.deckList.all (fun d => decide ((t.cellsOf d).length ≤ 4)), .cellAssignment)]

/-- R151: the checks once differences are staged. -/
def State.commitLogRefusal (s : State) : Option Status :=
  refusal [(decide (999999 ≤ s.cal.epoch), .epochExhausted), (!s.holderMayAppend, .logFull)]

/-- R152: the commit of a staged table. -/
def State.commit (s : State) (t : CalTable) : State :=
  let changes := paramChanges s.cal.committed t
  let record := s.audit.next
  let u := s.appendAudit s.cal.epoch (s.cal.epoch + 1) (.calChange (changes.take 8) (changes.length - 8))
  let v : State := u.dropLearned.closeAccess
  ({ v with
      cal.committed := t
      cal.epoch := s.cal.epoch + 1
      cal.notVerified := true
      commitNote := some { epoch := s.cal.epoch + 1, record := record, changes := changes.length } }
    : State).noteNearFull

/-- Commit Calibration (R151). -/
def commitCalibration (s : State) : Taken :=
  match s.staged with
  | none => .error .notOpen
  | some t =>
    match commitTableRefusal t with
    | some code => .error code
    | none =>
      if s.stagedDifferences.isEmpty then .ok (s.closeAccess, .ok, .empty)
      else orRefuse s.commitLogRefusal (s.commit t) .accepted .empty

/-! ### The audit log's requests (R162, R163) -/

/-- Read Audit Record (R162). -/
def readAuditRecord (payload : List Octet) (s : State) : Except Status Content :=
  match s.audit.records.find? (fun r => r.number = natAt payload 0 4) with
  | some r => .ok (.auditRecord r)
  | none => .error .noSuchRecord

/-- Read Audit Summary (R162). -/
def readAuditSummary (s : State) : Except Status Content := .ok (.auditSummary s.auditSummary)

/-- Archive Audit Records (R163). -/
def archiveAuditRecords (payload : List Octet) (s : State) : Taken :=
  let k := natAt payload 0 4
  let kept := s.audit.records.filter (fun r => decide (k < r.number))
  orRefuse (refusal [(!s.audit.records.any (fun r => r.number = k), .noSuchRecord)])
    { s with audit.records := kept } .ok
    (.archived (s.audit.records.length - kept.length) (kept.head?.map (·.number)))

/-! ### Commands -/

/-- OPEN_CALIBRATION (R145). -/
def execOpenCalibration (p : Port) (tag : Octet) (payload : List Octet) (s : State) : Host.Outcome State Fault Refusal :=
  request 60 p tag payload openCalibration s

/-- WRITE_PARAMETER (R147). -/
def execWriteParameter (p : Port) (tag : Octet) (payload : List Octet) (s : State) : Host.Outcome State Fault Refusal :=
  request 61 p tag payload (writeParameter payload) s

/-- READ_PARAMETER (R148). -/
def execReadParameter (p : Port) (tag : Octet) (payload : List Octet) (s : State) : Host.Outcome State Fault Refusal :=
  readRequest 62 p tag payload (readParameter payload) s

/-- READ_CALIBRATION_STATE (R148). -/
def execReadCalibrationState (p : Port) (tag : Octet) (payload : List Octet) (s : State) :
    Host.Outcome State Fault Refusal := readRequest 63 p tag payload readCalibrationState s

/-- CALIBRATE_ZERO (R149). -/
def execCalibrateZero (p : Port) (tag : Octet) (payload : List Octet) (s : State) : Host.Outcome State Fault Refusal :=
  request 64 p tag payload (calibrateZero payload) s

/-- CALIBRATE_SPAN (R150). -/
def execCalibrateSpan (p : Port) (tag : Octet) (payload : List Octet) (s : State) : Host.Outcome State Fault Refusal :=
  request 65 p tag payload (calibrateSpan payload) s

/-- COMMIT_CALIBRATION (R151, R152). -/
def execCommitCalibration (p : Port) (tag : Octet) (payload : List Octet) (s : State) :
    Host.Outcome State Fault Refusal := request 66 p tag payload commitCalibration s

/-- ABANDON_CALIBRATION (R154). -/
def execAbandonCalibration (p : Port) (tag : Octet) (payload : List Octet) (s : State) :
    Host.Outcome State Fault Refusal := request 67 p tag payload abandonCalibration s

/-- READ_AUDIT_RECORD (R162). -/
def execReadAuditRecord (p : Port) (tag : Octet) (payload : List Octet) (s : State) : Host.Outcome State Fault Refusal :=
  readRequest 68 p tag payload (readAuditRecord payload) s

/-- READ_AUDIT_SUMMARY (R162). -/
def execReadAuditSummary (p : Port) (tag : Octet) (payload : List Octet) (s : State) :
    Host.Outcome State Fault Refusal := readRequest 69 p tag payload readAuditSummary s

/-- ARCHIVE_AUDIT_RECORDS (R163). -/
def execArchiveAuditRecords (p : Port) (tag : Octet) (payload : List Octet) (s : State) :
    Host.Outcome State Fault Refusal := request 70 p tag payload (archiveAuditRecords payload) s

end Sys2Proof.Machine
end

