-- ==== Sys2Proof/Machine/Verification.lean ====
section
/-! DEFINITION. Verification runs (09 sections 9.1, 9.2). -/

namespace Sys2Proof.Machine

/-- R164: the checks of Begin Verification. -/
def State.beginRefusal (s : State) : Option Status :=
  refusal [(s.run.isSome, .runActive), (s.accessOpen, .accessOpen), (s.capture.waiting.isSome, .capturePending),
           (s.bridge.state ≠ .free, .bridgeOccupied), (s.locked, .lockout), (!s.hasHeadroom, .logFull)]

/-- Begin Verification (R164). -/
def beginVerification (s : State) : Taken :=
  orRefuse s.beginRefusal
    { s with run := some { time := s.site.clock, epoch := s.cal.epoch, points := [], waiting := none } } .ok .empty

/-! ### Test points (R165 to R168) -/

/-- The target a test point names: BRIDGE for 0, else a deck (R201). -/
def targetOf (n : Nat) : PointTarget := if n = 0 then .bridge else .deck n

/-- R165: a source that refuses a point is set. -/
def Holds.refusesPoint (h : Holds) : Bool := h.gatehouse || h.lane || h.fault || h.supply

/-- R165: the checks of Test Point against an ACTIVE run; `target` is as sent. -/
def State.pointRefusal (s : State) (r : Run) (target : Nat) (kg : Int) : Option Status :=
  refusal [(r.waiting.isSome, .pointPending),
           (!(decide (target = 0) || s.cal.committed.hasDeck target) || !between 1 kg 999999, .badArgument),
           (decide (12 ≤ r.points.length), .runFull), (s.bridge.holds.refusesPoint, .held),
           (s.weigh.zeroUnset, .zeroUnset)]

/-- Test Point (R165). -/
def testPoint (payload : List Octet) (s : State) : Taken :=
  let target := natAt payload 0 1
  let kg := intAt payload 1 4
  match s.run with
  | none => .error .noRun
  | some r =>
    orRefuse (s.pointRefusal r target kg)
      { s with
        run := some { r with waiting := some { target := targetOf target, reference := kg
                                               secondsLeft := s.site.settings.captureTimeout, restart := none } } }
      .accepted .empty

/-- R167: the mpe in grams by the band of R. -/
def mpe (e kg : Int) : Int := if kg ≤ 500 * e then e * 500 else if kg ≤ 2000 * e then e * 1000 else e * 1500

/-- R167: the indicated value of a target in a round. -/
def RoundValues.indicated (v : RoundValues) : PointTarget → Option Int
  | .bridge => v.gross
  | .deck d => (v.decks[d - 1]?).bind (·.gross)

/-- R167: the point recorded from a completing round. -/
def State.pointOf (s : State) (r : Run) (w : WaitingPoint) (v : RoundValues) (indicated : Int) : TestPoint :=
  let error := indicated - w.reference * 1000
  let limit := mpe s.weigh.roundTable.e w.reference
  { number := r.points.length + 1, target := w.target, reference := w.reference, round := v.index
    indicated := indicated, error := error, mpe := limit, pass := decide ((error.natAbs : Int) ≤ limit)
    time := s.site.clock }

/-- R167: the point is recorded and TEST_POINT_OUTCOME queued. -/
def State.recordPoint (s : State) (r : Run) (w : WaitingPoint) (v : RoundValues) (indicated : Int) : State :=
  let p := s.pointOf r w v indicated
  ({ s with run := some { r with points := r.points ++ [p], waiting := none } } : State).post .metrology
    (.testPointRecorded p)

/-- R166: a waiting point takes a round-values event. (A completing round is stable, so it has the gross; a round whose
table has no such deck any more leaves the point waiting.) -/
def State.pointTakesRound (s : State) (v : RoundValues) : State :=
  match s.run with
  | none => s
  | some r =>
    match r.waiting with
    | none => s
    | some w =>
      if !s.waitComplete w.restart then s
      else if v.range ≠ .normal then s.endPoint .range
      else
        match v.indicated w.target with
        | none => s
        | some i => s.recordPoint r w v i

/-! ### Ending a run (R169, R171) -/

/-- R169: the worst error: the signed error of greatest magnitude, the earliest where two are equal. -/
def worstError : List TestPoint → Int
  | [] => 0
  | p :: rest => rest.foldl (fun w q => if w.natAbs < q.error.natAbs then q.error else w) p.error

/-- R169: the number of failing points. -/
def failingCount (ps : List TestPoint) : Nat := (ps.filter (fun p => !p.pass)).length

/-- R169: the checks of End Verification against an ACTIVE run. -/
def State.endRefusal (s : State) (r : Run) : Option Status :=
  refusal [(r.waiting.isSome, .pointPending), (r.points.isEmpty, .noPoints), (!s.holderMayAppend, .logFull)]

/-- R169: the run ends with its record. -/
def State.endRun (s : State) (r : Run) : State :=
  let failing := failingCount r.points
  let worst := worstError r.points
  let body : AuditBody :=
    if failing = 0 then .verifyPass r.points.length worst failing else .verifyFail r.points.length worst failing
  let t := s.appendAtEpoch body
  ((({ t with run := none, cal.notVerified := decide (failing ≠ 0) } : State).noteNearFull).postAll
    [.metrology, .gatehouse]
    (.verificationEnded s.audit.next (decide (failing = 0)) r.points.length worst failing))

/-- End Verification (R169). -/
def endVerification (s : State) : Taken :=
  match s.run with
  | none => .error .noRun
  | some r => orRefuse (s.endRefusal r) (s.endRun r) .ok (.recordNumber s.audit.next)

/-- Abort Verification (R171). -/
def abortVerification (s : State) : Taken :=
  match s.run with
  | none => .error .noRun
  | some _ => .ok ({ s.endPoint .aborted with run := none }, .ok, .empty)

/-- Read Verification (R174). -/
def readVerification (s : State) : Except Status Content := .ok (.verification s.run s.cal.notVerified)

/-! ### Commands -/

/-- TEST_POINT_TIMEOUT (R168). -/
def execTestPointTimeout (s : State) : Host.Outcome State Fault Refusal :=
  act (fun s => event s (s.endPoint .captureTimeout)) s

/-- BEGIN_VERIFICATION (R164). -/
def execBeginVerification (p : Port) (tag : Octet) (payload : List Octet) (s : State) :
    Host.Outcome State Fault Refusal := request 80 p tag payload beginVerification s

/-- TEST_POINT (R165). -/
def execTestPoint (p : Port) (tag : Octet) (payload : List Octet) (s : State) : Host.Outcome State Fault Refusal :=
  request 81 p tag payload (testPoint payload) s

/-- END_VERIFICATION (R169). -/
def execEndVerification (p : Port) (tag : Octet) (payload : List Octet) (s : State) : Host.Outcome State Fault Refusal :=
  request 82 p tag payload endVerification s

/-- ABORT_VERIFICATION (R171). -/
def execAbortVerification (p : Port) (tag : Octet) (payload : List Octet) (s : State) :
    Host.Outcome State Fault Refusal := request 83 p tag payload abortVerification s

/-- READ_VERIFICATION (R174). -/
def execReadVerification (p : Port) (tag : Octet) (payload : List Octet) (s : State) :
    Host.Outcome State Fault Refusal := readRequest 84 p tag payload readVerification s

end Sys2Proof.Machine
end

