-- ==== Sys2Proof/Machine/Zero.lean ====
section
/-! DEFINITION. Zero (03 section 3.2): the window adjustment, the start-up zero, Zero Set and zero tracking. -/

namespace Sys2Proof.Machine

/-- Zero offsets set in a table. -/
def putZeros (z : Table Int) (news : List (Nat × Int)) : Table Int :=
  news.foldl (fun acc e => Table.set acc e.1 e.2) z

/-- R40: the sum over all decks of the new Z_d less the Z_d that the latest round used. -/
def zeroShift (decks : List DeckValues) (z : Table Int) : Int :=
  ((numbered decks).map (fun e => (Table.get? z e.1).getD e.2.zeroUsed - e.2.zeroUsed)).sum

/-- R40: zero offsets are set, with the window adjustment; a setting that changes no Z_d leaves the window. -/
def State.setZeros (s : State) (decks : List DeckValues) (news : List (Nat × Int)) : State :=
  let z := putZeros s.weigh.zero news
  if z = s.weigh.zero then s
  else
    { s with
      weigh.zero := z
      weigh.window := s.weigh.window.map (fun w => { w with gross := w.gross - zeroShift decks z }) }

/-- The filtered values of the decks of a round that have one. -/
def filteredDecks (decks : List DeckValues) : List (Nat × Int) :=
  (numbered decks).filterMap (fun e => e.2.filtered.map (fun f => (e.1, f)))

/-- R41: every deck's filtered value lies within its start-up range, by the table of the round. -/
def State.startUpInRange (s : State) (decks : List DeckValues) : Bool :=
  (numbered decks).all (fun e =>
    match e.2.filtered with
    | none => false
    | some f => decide (((f - s.weigh.roundTable.zero0 e.1).natAbs : Int) ≤ s.weigh.roundTable.deckMax e.1 * 100))

/-- R42, R44: the centre of a deck's working range: Zs_d, or Z0_d of the round's table where there is none (R26). -/
def State.workingCentre (s : State) (d : Nat) : Int :=
  (Table.get? s.weigh.startZero d).getD (s.weigh.roundTable.zero0 d)

/-- R42, R44: a filtered value lies within the working range of deck d; deck Max is the table in use's (03 section
3.2, log 17). -/
def State.inWorkingRange (s : State) (d : Nat) (f : Int) : Bool :=
  decide (((f - s.workingCentre d).natAbs : Int) ≤ s.tableInUse.deckMax d * 20)

/-- R42: every deck lies within its working range. -/
def State.zeroInRange (s : State) (decks : List DeckValues) : Bool :=
  (numbered decks).all (fun e =>
    match e.2.filtered with
    | none => false
    | some f => s.inWorkingRange e.1 f)

/-- R41, R43: the start-up zero: Z_d and Zs_d set to F_d for every deck, and ZERO_UNSET left. -/
def State.makeStartUpZero (s : State) (decks : List DeckValues) : State :=
  let t := s.setZeros decks (filteredDecks decks)
  { t with weigh.startZero := putZeros s.weigh.startZero (filteredDecks decks), weigh.zeroUnset := false }

/-- R41: the start-up zero takes the latest round. -/
def State.tryStartUpZero (s : State) : State :=
  match s.weigh.latest with
  | none => s
  | some v =>
    if s.weigh.zeroUnset && s.weigh.stable && s.startUpInRange v.decks then s.makeStartUpZero v.decks else s

/-- The decks of the latest round values, none where there are none. -/
def State.latestDecks (s : State) : List DeckValues := (s.weigh.latest.map (·.decks)).getD []

/-- The refusals of Zero Set: R43 in ZERO_UNSET, else R42. -/
def zeroSetRefusal (s : State) : Option Status :=
  if s.weigh.zeroUnset then
    refusal [(!s.weigh.stable, .motion), (!s.startUpInRange s.latestDecks, .zeroRange)]
  else
    refusal [(s.bridge.state ≠ .free, .bridgeOccupied), (!s.weigh.stable, .motion),
             (!s.zeroInRange s.latestDecks, .zeroRange)]

/-- Zero Set (R42, R43). -/
def zeroSet (s : State) : Taken :=
  orRefuse (zeroSetRefusal s)
    (if s.weigh.zeroUnset then s.makeStartUpZero s.latestDecks
     else s.setZeros s.latestDecks (filteredDecks s.latestDecks))
    .ok .empty

/-- ZERO_SET (R42, R43). -/
def execZeroSet (p : Port) (tag : Octet) (payload : List Octet) (s : State) : Host.Outcome State Fault Refusal :=
  request 14 p tag payload zeroSet s

/-- R44: the decks that an expiry tracks: gross within 0.5e in the latest round and filtered value within the working
range. -/
def State.trackedDecks (s : State) (decks : List DeckValues) : List (Nat × Int) :=
  (numbered decks).filterMap (fun e =>
    match e.2.gross, e.2.filtered with
    | some g, some f =>
      if decide ((g.natAbs : Int) ≤ 500 * s.weigh.roundTable.e) && s.inWorkingRange e.1 f then some (e.1, f) else none
    | _, _ => none)

/-- R44: the conditions of an expiry of the tracking timer. -/
def State.tracks (s : State) : Bool :=
  s.tableInUse.tracking && !s.weigh.zeroUnset && s.bridge.state = .free && !s.held && s.weigh.stable

/-- R44: the tracking timer expires and restarts; where the conditions hold the qualifying decks are tracked. -/
def State.trackZero (s : State) : State :=
  if s.weigh.trackingTimer && s.tracks then s.setZeros s.latestDecks (s.trackedDecks s.latestDecks) else s

/-- TRACKING_TIMER_EXPIRY (R44). -/
def execTrackingTimerExpiry (s : State) : Host.Outcome State Fault Refusal := act (fun s => event s s.trackZero) s

end Sys2Proof.Machine
end

