-- ==== Sys2Proof/Machine/Rounds.lean ====
section
/-! DEFINITION. The end of a round and the blocks that take it (R9, R31, R32), and the commands of the cell bus that can
bring it about. -/

namespace Sys2Proof.Machine

/-! ### The round-values event (R32) -/

/-- The blocks whose order on a round the manual leaves open while the bridge is OCCUPIED (log 7). -/
inductive RoundTaker where
  | capture | trace | arbiter
  deriving DecidableEq, Repr

/-- The six orders. -/
def takerOrders : List (List RoundTaker) :=
  [[.capture, .trace, .arbiter], [.capture, .arbiter, .trace], [.trace, .capture, .arbiter],
   [.trace, .arbiter, .capture], [.arbiter, .capture, .trace], [.arbiter, .trace, .capture]]

/-- One of the six orders. -/
def takerOrder (k : Fin 6) : List RoundTaker := (takerOrders[k.val]?).getD []

/-- One block takes the round, as an event of its own. -/
def State.takeAs (r : RoundValues) (s : State) (k : RoundTaker) : State :=
  match k with
  | .capture => event s (s.captureTakesRound r)
  | .trace => event s (s.traceTakesRound r)
  | .arbiter => event s (s.arbiterTakesRound r)

/-- R32, R54, R105: the Capture Unit, the trace and the Bridge Arbiter take the round. Their order matters only where
the bridge is OCCUPIED, and is then the free choice of log 7. -/
def State.blocksTakeRound (s : State) (r : RoundValues) : State :=
  if s.bridge.state = .occupied then
    (takerOrder (Config.roundOrder s.choices)).foldl (State.takeAs r) { s with choices := s.choices + 1 }
  else (takerOrder 0).foldl (State.takeAs r) s

/-- R180: the last stable weight. -/
def State.keepLastStable (s : State) (r : RoundValues) : State :=
  if s.weigh.stable then { s with faults.lastStable := r.rounded } else s

/-- R32: the round-values event of the latest round: the stability judgement and the start-up zero, which the others
read, then the Capture Unit, the trace and the Bridge Arbiter, the waiting test point and the Fault Unit. -/
def State.issueRound (s : State) : State :=
  match s.weigh.latest with
  | none => s
  | some r =>
    let t1 := event s s.judgeStability
    let t2 := event t1 t1.tryStartUpZero
    let t3 := t2.blocksTakeRound r
    let t4 := event t3 (t3.pointTakesRound r)
    event t4 (t4.keepLastStable r)

/-- R9, R31, R32: the round ends, its values are computed and replace the latest, and the round-values event is
issued. -/
def State.roundDone (s : State) : State := (event s s.endRound.weighRound).issueRound

/-- R1, R2: a round starts; one that polls nothing ends at the moment it starts. -/
def State.startRound (s : State) : State :=
  let t := event s s.beginRound
  if t.bus.poll = .idle then t.roundDone else t

/-- R2, R9: the round ends after its last poll; an overrun round is followed at once by the next. -/
def State.roundEnds (s : State) : State :=
  let overrun := s.bus.overrun
  let t := s.roundDone
  if overrun then t.startRound else t

/-! ### Polls (R3, R4) -/

/-- R3, R4: the poll of an address ends: it is judged, and the next poll is sent or the round ends. -/
def State.pollEnds (s : State) (i : Nat) (reply : Option CellReply) : State :=
  let t := event s (s.judge i reply)
  if t.bus.toPoll.isEmpty then t.roundEnds else { t with bus := t.bus.sendNext }

/-- R3: octets of an answer within the window (log 20). The poll ends when they complete a reply. An answer that is no
reply is kept as the answer of this window, so that nothing received after it is one, and the window stays open. -/
def State.answer (s : State) (octets : List Octet) : State :=
  match s.bus.poll with
  | .window i received =>
    match cellReply (answerReceived received octets) i with
    | some reply => s.pollEnds i (some reply)
    | none => { s with bus.poll := .window i (answerReceived received octets) }
  | _ => s

/-- R3: the window closes without a reply. -/
def State.windowCloses (s : State) : State :=
  match s.bus.poll with
  | .window i _ => s.pollEnds i none
  | _ => s

/-- R3: the last octet of a poll has been sent; the reply window opens. -/
def State.pollSent (s : State) : State :=
  match s.bus.poll with
  | .sending i => { s with bus.poll := .window i [] }
  | _ => s

/-- R2, R10: the round period timer expires. -/
def State.periodExpires (s : State) : State :=
  if !s.bus.periodTimer then s
  else
    let t : State := { s with bus.periodTimer := false }
    if t.bus.inProgress then event s t.overrun else t.startRound

/-! ### Commands -/

/-- CELL_ANSWER (R3). -/
def execCellAnswer (answer : List Octet) (s : State) : Host.Outcome State Fault Refusal := act (fun s => s.answer answer) s

/-- REPLY_WINDOW_CLOSE (R3). -/
def execReplyWindowClose (s : State) : Host.Outcome State Fault Refusal := act State.windowCloses s

/-- POLL_SENT (R3). -/
def execPollSent (s : State) : Host.Outcome State Fault Refusal := act State.pollSent s

/-- ROUND_PERIOD_EXPIRY (R2). -/
def execRoundPeriodExpiry (s : State) : Host.Outcome State Fault Refusal := act State.periodExpires s

end Sys2Proof.Machine
end

