-- ==== Sys2Proof/Machine/Start.lean ====
section
/-! DEFINITION. Powered time, the supply-good line, starts and the completion of retained writes (12). -/

namespace Sys2Proof.Machine

/-! ### Powered seconds (R199, R116, R117, R206) -/

/-- One second off a timer, which stands at 0 until its expiry is taken (log 5). -/
def GrantTimer.second (t : GrantTimer) : GrantTimer := if t.paused then t else { t with secondsLeft := t.secondsLeft - 1 }

/-- R46, R67, R168: the timers of whole seconds run on. -/
def State.timersRun (s : State) : State :=
  { s with
    capture.waiting := s.capture.waiting.map (fun c => { c with secondsLeft := c.secondsLeft - 1 })
    bridge.grantTimer := s.bridge.grantTimer.map GrantTimer.second
    run := s.run.map (fun r =>
      { r with waiting := r.waiting.map (fun w => { w with secondsLeft := w.secondsLeft - 1 }) }) }

/-- R199, R116, R206: a second of powered time. -/
def State.second (s : State) : State :=
  ({ s.timersRun with site.clock := s.site.clock.tick, powered := s.powered + 1 } : State).ageVisits

/-- POWERED_SECOND (R116, R199). -/
def execPoweredSecond (s : State) : Host.Outcome State Fault Refusal := act (fun s => event s s.second) s

/-! ### The supply-good line (R209) -/

/-- R36, R39: the round values, the filter histories and the stability window are withdrawn. -/
def State.withdrawRound (s : State) : State :=
  { s with weigh.histories := [], weigh.latest := none, weigh.window := [], weigh.stable := false }

/-- R209, R13, R36, R39, R55, R168: a fall of the line while control is with the blocks. -/
def State.fall (s : State) : State :=
  let t := ((s.abandonRound.withdrawRound).refuseWaiting .supply none).endPoint .supply
  { t with supplyGood := false, dipTimer := true, bridge.holds.supply := true }

/-- R209, R13: a return within the ride-through. -/
def State.returns (s : State) : State :=
  (event s { s with supplyGood := true, dipTimer := false, bridge.holds.supply := false }).startRound

/-- SUPPLY_FALL (R209). During a start only the line and its timer are taken (R206); a line that is down cannot fall. -/
def execSupplyFall (s : State) : Host.Outcome State Fault Refusal :=
  .next
    (if !s.supplyGood then s
     else if s.running then event s s.fall
     else { s with supplyGood := false, dipTimer := true })

/-- SUPPLY_RETURN (R209). -/
def execSupplyReturn (s : State) : Host.Outcome State Fault Refusal :=
  .next
    (if s.supplyGood then s
     else if s.running then s.returns
     else { s with supplyGood := true, dipTimer := false })

/-! ### Starts begun (R206, R209) -/

/-- DIP_TIMER_EXPIRY (R209): a start with cause SUPPLY_LOSS, which writes the pending mark (R206). -/
def execDipTimerExpiry (s : State) : Host.Outcome State Fault Refusal :=
  .next
    (if s.dipTimer then
       retain s (({ s with dipTimer := false, cal.pendingMark := true } : State).beginStart .supplyLoss)
     else s)

/-- POWER_ON (R206): a start with cause POWER_ON, or SUPPLY_LOSS where the pending mark is found, also where the start
then finds CALIBRATION lost (log 38). A dip timer that was running when the core power failed runs on, so its expiry
before control passes begins the start again with SUPPLY_LOSS and writes the pending mark: the model's choice (log 43). -/
def execPowerOn (s : State) : Host.Outcome State Fault Refusal :=
  .next (s.beginStart (if s.cal.pendingMark then .supplyLoss else .powerOn))

/-- RESET_LINE (R206). -/
def execResetLine (s : State) : Host.Outcome State Fault Refusal := .next (s.beginStart .resetLine)

/-! ### Lost regions (R204, R205) -/

/-- R205: the epoch recovered from a good AUDIT region. -/
def Audit.recoveredEpoch (a : Audit) : Nat := (a.records.map (·.epochAfter)).foldl max a.epochMark

/-- The highest ticket series in a ring, 0 for an empty ring. -/
def highestSeries (ring : List Ticket) : Nat := (ring.map (·.key.series)).foldl max 0

/-- The highest snapshot number held, 0 for none. -/
def highestSnapshot (ev : List EvidenceSlot) : Nat := (ev.map (·.snapshot.number)).foldl max 0

/-- R204, R205: the CALIBRATION region of a state whose other regions are as the check left them. A good AUDIT that took
its defaults at an earlier start and holds nothing since gives epoch 0 (log 35). -/
def State.recoveredCalibration (s : State) (auditLost : Bool) : Calibration :=
  let top := highestSeries s.tickets.ring
  { Calibration.defaults with
    epoch := if auditLost then 0 else s.audit.recoveredEpoch
    series := if top < 99 then top + 1 else 99
    exhausted := decide (99 ≤ top)
    snapshotNext := nextSnapshotNumber (highestSnapshot s.evidence) }

/-- R204: the lost regions set to their defaults. -/
def State.checkRegions (s : State) (l : LostRegions) : State :=
  let t : State :=
    { s with
      audit := if l.audit then .defaults else s.audit
      visits := if l.visits then [] else s.visits
      tares := if l.tares then .defaults else s.tares
      tickets := if l.tickets then .defaults else s.tickets
      site := if l.site then .defaults else s.site
      evidence := if l.evidence then [] else s.evidence }
  let u : State := if l.calibration then { t with cal := t.recoveredCalibration l.audit } else t
  if l.calibration && l.audit then u.dropLearned else u

/-! ### The start sequence (R208) -/

/-- R14: the cell bus at a start. -/
def Bus.started (t : CalTable) : Bus :=
  { (Bus.reset.markRecords t) with table := t, handedValid := t.deckList.map (fun _ => false) }

/-- R80: the bridge at a start; the lamps are input lines (log 3). -/
def Bridge.started (b : Bridge) : Bridge := { Bridge.reset with lampsA := b.lampsA, lampsB := b.lampsB }

/-- R208 step 4: every block's volatile state, and the visits found in progress returned (R119). -/
def State.resetVolatile (s : State) : State :=
  { s with
    bus := .started s.cal.committed
    weigh := .reset
    capture := .reset
    bridge := s.bridge.started
    axles := .reset
    visits := s.visits.map (fun e => (e.1, e.2.returned))
    inUse := none
    staged := none
    run := none
    faults := .reset
    clockSet := false
    powered := 0
    dipTimer := false
    ports := .reset
    outbox := []
    commitNote := none }

/-- R208 step 6, R157: the access marks judged. -/
def State.judgeAccessMarks (s : State) : State :=
  let t := if s.cal.accessMark && s.cal.diffMark then s.enterLockout .calAccessInterrupted else s
  { t with cal.accessMark := false, cal.diffMark := false }

/-- The instance of a region class. -/
def regionKey (c : FaultClass) : FaultKey := { cls := c, inst := 0 }

/-- R204: the region classes to raise, in the order of its table (log 39). -/
def lostRaises (l : LostRegions) : List FaultClass :=
  (if l.visits then [.visitsLost] else []) ++ (if l.tares then [.taresLost] else [])
    ++ (if l.tickets then [.ticketsLost] else []) ++ (if l.site then [.siteLost] else [])

/-- R204: the regions that the check writes: the lost ones with their defaults, also where their content was that, and
any other whose content it changed. -/
def rewrittenRegions (s t : State) (l : LostRegions) : List Region :=
  let changed := changedRegions s t
  (if l.calibration || changed.contains .calibration then [.calibration] else [])
    ++ (if l.audit || changed.contains .audit then [.audit] else [])
    ++ (if l.visits || changed.contains .visits then [.visits] else [])
    ++ (if l.tares || changed.contains .tares then [.tares] else [])
    ++ (if l.tickets || changed.contains .tickets then [.tickets] else [])
    ++ (if l.site || changed.contains .site then [.site] else [])
    ++ (if l.evidence || changed.contains .evidence then [.evidence] else [])

/-- R208 step 2: the regions checked, the lost ones written again (R204, log 9). -/
def State.rewriteLost (s : State) (l : LostRegions) : State :=
  (s.checkRegions l).beginWrite (rewrittenRegions s (s.checkRegions l) l)

/-- R208 step 3, R206: the start record written, the pending mark cleared. -/
def State.writeStartRecord (s : State) (cause : StartCause) (l : LostRegions) : State :=
  ({ s with cal.startRecord := { cause := cause, lost := l }, cal.pendingMark := false } : State).beginWrite [.calibration]

/-- R208: the start sequence. The writes already begun have completed; each step that changes a retained region begins
its own (R203). The lamps are compared with the commanded aspects at the end of each event of the start, so the feedback
timer of an end whose standing lamps do not match runs when the command ends (R75; DESIGN CHOICE, log 56). -/
def State.startSequence (s : State) (cause : StartCause) (l : LostRegions) : State :=
  let t2 := ({ s with writes := [] } : State).rewriteLost l
  let t3 := t2.writeStartRecord cause l
  let t4 := retain t3 t3.resetVolatile
  let t5 := if l.calibration || l.audit then event t4 (t4.enterLockout .calibrationLost) else t4
  let t6 := event t5 t5.judgeAccessMarks
  let t7 := (lostRaises l).foldl (fun t c => event t (t.raiseFault (regionKey c) none)) t6
  ({ t7 with phase := .running } : State).startRound

/-- START_SEQUENCE (R208): it runs once a start is begun and the supply-good line is asserted (logs 11, 27). -/
def execStartSequence (lost : LostRegions) (s : State) : Host.Outcome State Fault Refusal :=
  .next
    (match s.phase with
     | .running => s
     | .starting cause => if s.supplyGood then s.startSequence cause lost else s)

/-! ### Retained writes (R203, R153) -/

/-- R203: the oldest retained write, no commit's, completes. -/
def State.writeCompletes (s : State) : State :=
  match s.writes with
  | w :: rest => if w.commit.isNone then { s with writes := rest } else s
  | [] => s

/-- R153: the oldest retained write, a commit's, completes: CALIBRATION_COMMITTED is queued. -/
def State.commitCompletes (s : State) : State :=
  match s.writes with
  | w :: rest =>
    match w.commit with
    | some n =>
      (({ s with writes := rest } : State).postAll [.metrology, .gatehouse] (.calibrationCommitted n)).flush
    | none => s
  | [] => s

/-- RETAINED_WRITE_COMPLETE (R203): writes complete on the hold-up too, so it is taken during a start. -/
def execRetainedWriteComplete (s : State) : Host.Outcome State Fault Refusal := .next s.writeCompletes

/-- COMMIT_WRITE_COMPLETE (R153). -/
def execCommitWriteComplete (s : State) : Host.Outcome State Fault Refusal := .next s.commitCompletes

end Sys2Proof.Machine
end

