-- ==== Sys2Proof/Machine/Frames.lean ====
section
/-! DEFINITION. From octets to requests (R193, R194): the port receiver, and the routing of a good frame to the command
of its kind. -/

namespace Sys2Proof.Machine

/-- R194: a good frame is the command of its kind; a kind that the catalogue does not hold is answered
NOT_PERMITTED. -/
def routeFrame (p : Port) (kind : Nat) (tag : Octet) (payload : List Octet) (s : State) :
    Host.Outcome State Fault Refusal :=
  match kind with
  | 1 => execFetchNotice p tag payload s
  | 2 => execSetSiteTime p tag payload s
  | 3 => execReadSiteTime p tag payload s
  | 4 => execWriteSiteSetting p tag payload s
  | 5 => execReadSiteSettings p tag payload s
  | 10 => execReadCell p tag payload s
  | 11 => execReadBusStatus p tag payload s
  | 12 => execReadLiveWeight p tag payload s
  | 13 => execReadDeckValues p tag payload s
  | 14 => execZeroSet p tag payload s
  | 15 => execRequestCapture p tag payload s
  | 16 => execReadCapture p tag payload s
  | 20 => execReportArrival p tag payload s
  | 21 => execWithdrawArrival p tag payload s
  | 22 => execReleaseVehicle p tag payload s
  | 23 => execClearBridge p tag payload s
  | 24 => execHoldBridge p tag payload s
  | 25 => execReleaseHold p tag payload s
  | 26 => execReadBridge p tag payload s
  | 30 => execWriteConfiguration p tag payload s
  | 31 => execClearConfiguration p tag payload s
  | 32 => execReadConfiguration p tag payload s
  | 33 => execRestartWeighing p tag payload s
  | 34 => execReadAxles p tag payload s
  | 35 => execReleaseTrace p tag payload s
  | 36 => execReadTrace p tag payload s
  | 39 => execExpireVisits p tag payload s
  | 40 => execOpenVisit p tag payload s
  | 41 => execAmendVisit p tag payload s
  | 42 => execCancelVisit p tag payload s
  | 43 => execReadVisit p tag payload s
  | 44 => execListVisits p tag payload s
  | 45 => execCheckTare p tag payload s
  | 46 => execKeyTare p tag payload s
  | 47 => execFlushTares p tag payload s
  | 48 => execDeleteTare p tag payload s
  | 49 => execReadTareSlot p tag payload s
  | 50 => execReadTicketSequence p tag payload s
  | 51 => execRollTicketSeries p tag payload s
  | 52 => execCollectTickets p tag payload s
  | 53 => execReadTicket p tag payload s
  | 54 => execReadTicketRing p tag payload s
  | 55 => execCloseShift p tag payload s
  | 56 => execReadTotals p tag payload s
  | 57 => execReadLastShift p tag payload s
  | 60 => execOpenCalibration p tag payload s
  | 61 => execWriteParameter p tag payload s
  | 62 => execReadParameter p tag payload s
  | 63 => execReadCalibrationState p tag payload s
  | 64 => execCalibrateZero p tag payload s
  | 65 => execCalibrateSpan p tag payload s
  | 66 => execCommitCalibration p tag payload s
  | 67 => execAbandonCalibration p tag payload s
  | 68 => execReadAuditRecord p tag payload s
  | 69 => execReadAuditSummary p tag payload s
  | 70 => execArchiveAuditRecords p tag payload s
  | 80 => execBeginVerification p tag payload s
  | 81 => execTestPoint p tag payload s
  | 82 => execEndVerification p tag payload s
  | 83 => execAbortVerification p tag payload s
  | 84 => execReadVerification p tag payload s
  | 85 => execTakeSnapshot p tag payload s
  | 86 => execReadSnapshot p tag payload s
  | 87 => execListSnapshots p tag payload s
  | 88 => execDiscardSnapshot p tag payload s
  | 90 => execWriteFaultPolicy p tag payload s
  | 91 => execAcknowledgeMetrologicalFault p tag payload s
  | 92 => execAcknowledgeFault p tag payload s
  | 93 => execClearLockout p tag payload s
  | 94 => execReadFaults p tag payload s
  | 100 => execRestart p tag payload s
  | 101 => execReadStartCause p tag payload s
  | _ => request kind p tag payload (fun _ => .error .notPermitted) s

/-- UNKNOWN_KIND (R194). -/
def execUnknownKind (p : Port) (kind tag : Octet) (payload : List Octet) (s : State) :
    Host.Outcome State Fault Refusal := routeFrame p kind.toNat tag payload s

/-! ### The receiver (R192, R193) -/

/-- What an octet makes of a receiver: it goes on, or a frame is complete with a matching CRC. -/
inductive Reception where
  | receiver (r : Receiver)
  | frame (kind : Nat) (tag : Octet) (payload : List Octet)
  deriving DecidableEq, Repr

/-- R193: a whole frame after its start octet: length, kind, tag, payload and CRC. -/
def completeFrame (os : List Octet) : Reception :=
  let body := os.take (os.length - 2)
  if (crc16 body).toNat = natOf (os.drop (os.length - 2)) then
    .frame (natAt os 1 1) ((os[2]?).getD 0#8) (body.drop 3)
  else .receiver .hunting

/-- R193: an octet collected after those already held. -/
def collect (os : List Octet) : Reception :=
  let length := natAt os 0 1
  if 240 < length then .receiver .hunting
  else if os.length = length + 5 then completeFrame os
  else .receiver (.collecting os)

/-- R193: a receiver takes an octet. -/
def Receiver.take (r : Receiver) (o : Octet) : Reception :=
  match r with
  | .hunting => .receiver (if o = 0xA5#8 then .collecting [] else .hunting)
  | .collecting os => collect (os ++ [o])

/-- A receiver replaced. -/
def State.setReceiver (s : State) (p : Port) (r : Receiver) : State := s.setPort p { s.port p with receiver := r }

/-- OCTET_RECEIVED (R193): octets that come during a start are discarded (R202). -/
def execOctetReceived (p : Port) (o : Octet) (s : State) : Host.Outcome State Fault Refusal :=
  if s.running then
    match (s.port p).receiver.take o with
    | .receiver r => .next (s.setReceiver p r)
    | .frame kind tag payload => routeFrame p kind tag payload s
  else .next s

end Sys2Proof.Machine
end

