-- ==== Sys2Proof/Machine/Dispatch.lean ====
section
/-! DEFINITION. exec: the meaning of each command, one direct call for each row of spec/opcode_table.json. -/

namespace Sys2Proof.Machine

/-- What a command does to everything but the queue of waiting commands. -/
def exec (i : Instr) (s : State) : Host.Outcome State Fault Refusal :=
  match i with
  | .cellAnswer answer => Sys2Proof.Machine.execCellAnswer answer s
  | .replyWindowClose => Sys2Proof.Machine.execReplyWindowClose s
  | .roundPeriodExpiry => Sys2Proof.Machine.execRoundPeriodExpiry s
  | .treadleEvent treadle dir => Sys2Proof.Machine.execTreadleEvent treadle dir s
  | .lampFeedbackChange e lit => Sys2Proof.Machine.execLampFeedbackChange e lit s
  | .feedbackTimerExpiry e => Sys2Proof.Machine.execFeedbackTimerExpiry e s
  | .calibrationSwitchChange asserted => Sys2Proof.Machine.execCalibrationSwitchChange asserted s
  | .supplyFall => Sys2Proof.Machine.execSupplyFall s
  | .supplyReturn => Sys2Proof.Machine.execSupplyReturn s
  | .dipTimerExpiry => Sys2Proof.Machine.execDipTimerExpiry s
  | .powerOn => Sys2Proof.Machine.execPowerOn s
  | .resetLine => Sys2Proof.Machine.execResetLine s
  | .startSequence lost => Sys2Proof.Machine.execStartSequence lost s
  | .captureTimeout => Sys2Proof.Machine.execCaptureTimeout s
  | .grantTimerExpiry => Sys2Proof.Machine.execGrantTimerExpiry s
  | .quietTimerExpiry => Sys2Proof.Machine.execQuietTimerExpiry s
  | .trackingTimerExpiry => Sys2Proof.Machine.execTrackingTimerExpiry s
  | .testPointTimeout => Sys2Proof.Machine.execTestPointTimeout s
  | .poweredSecond => Sys2Proof.Machine.execPoweredSecond s
  | .visitTimeout position => Sys2Proof.Machine.execVisitTimeout position s
  | .frameGapTimeout port => Sys2Proof.Machine.execFrameGapTimeout port s
  | .badFrame port => Sys2Proof.Machine.execBadFrame port s
  | .unknownKind port kind tag payload => Sys2Proof.Machine.execUnknownKind port kind tag payload s
  | .replySent port => Sys2Proof.Machine.execReplySent port s
  | .retainedWriteComplete => Sys2Proof.Machine.execRetainedWriteComplete s
  | .commitWriteComplete => Sys2Proof.Machine.execCommitWriteComplete s
  | .fetchNotice port tag payload => Sys2Proof.Machine.execFetchNotice port tag payload s
  | .setSiteTime port tag payload => Sys2Proof.Machine.execSetSiteTime port tag payload s
  | .readSiteTime port tag payload => Sys2Proof.Machine.execReadSiteTime port tag payload s
  | .writeSiteSetting port tag payload => Sys2Proof.Machine.execWriteSiteSetting port tag payload s
  | .readSiteSettings port tag payload => Sys2Proof.Machine.execReadSiteSettings port tag payload s
  | .readCell port tag payload => Sys2Proof.Machine.execReadCell port tag payload s
  | .readBusStatus port tag payload => Sys2Proof.Machine.execReadBusStatus port tag payload s
  | .readLiveWeight port tag payload => Sys2Proof.Machine.execReadLiveWeight port tag payload s
  | .readDeckValues port tag payload => Sys2Proof.Machine.execReadDeckValues port tag payload s
  | .zeroSet port tag payload => Sys2Proof.Machine.execZeroSet port tag payload s
  | .requestCapture port tag payload => Sys2Proof.Machine.execRequestCapture port tag payload s
  | .readCapture port tag payload => Sys2Proof.Machine.execReadCapture port tag payload s
  | .reportArrival port tag payload => Sys2Proof.Machine.execReportArrival port tag payload s
  | .withdrawArrival port tag payload => Sys2Proof.Machine.execWithdrawArrival port tag payload s
  | .releaseVehicle port tag payload => Sys2Proof.Machine.execReleaseVehicle port tag payload s
  | .clearBridge port tag payload => Sys2Proof.Machine.execClearBridge port tag payload s
  | .holdBridge port tag payload => Sys2Proof.Machine.execHoldBridge port tag payload s
  | .releaseHold port tag payload => Sys2Proof.Machine.execReleaseHold port tag payload s
  | .readBridge port tag payload => Sys2Proof.Machine.execReadBridge port tag payload s
  | .writeConfiguration port tag payload => Sys2Proof.Machine.execWriteConfiguration port tag payload s
  | .clearConfiguration port tag payload => Sys2Proof.Machine.execClearConfiguration port tag payload s
  | .readConfiguration port tag payload => Sys2Proof.Machine.execReadConfiguration port tag payload s
  | .restartWeighing port tag payload => Sys2Proof.Machine.execRestartWeighing port tag payload s
  | .readAxles port tag payload => Sys2Proof.Machine.execReadAxles port tag payload s
  | .releaseTrace port tag payload => Sys2Proof.Machine.execReleaseTrace port tag payload s
  | .readTrace port tag payload => Sys2Proof.Machine.execReadTrace port tag payload s
  | .expireVisits port tag payload => Sys2Proof.Machine.execExpireVisits port tag payload s
  | .openVisit port tag payload => Sys2Proof.Machine.execOpenVisit port tag payload s
  | .amendVisit port tag payload => Sys2Proof.Machine.execAmendVisit port tag payload s
  | .cancelVisit port tag payload => Sys2Proof.Machine.execCancelVisit port tag payload s
  | .readVisit port tag payload => Sys2Proof.Machine.execReadVisit port tag payload s
  | .listVisits port tag payload => Sys2Proof.Machine.execListVisits port tag payload s
  | .checkTare port tag payload => Sys2Proof.Machine.execCheckTare port tag payload s
  | .keyTare port tag payload => Sys2Proof.Machine.execKeyTare port tag payload s
  | .flushTares port tag payload => Sys2Proof.Machine.execFlushTares port tag payload s
  | .deleteTare port tag payload => Sys2Proof.Machine.execDeleteTare port tag payload s
  | .readTareSlot port tag payload => Sys2Proof.Machine.execReadTareSlot port tag payload s
  | .readTicketSequence port tag payload => Sys2Proof.Machine.execReadTicketSequence port tag payload s
  | .rollTicketSeries port tag payload => Sys2Proof.Machine.execRollTicketSeries port tag payload s
  | .collectTickets port tag payload => Sys2Proof.Machine.execCollectTickets port tag payload s
  | .readTicket port tag payload => Sys2Proof.Machine.execReadTicket port tag payload s
  | .readTicketRing port tag payload => Sys2Proof.Machine.execReadTicketRing port tag payload s
  | .closeShift port tag payload => Sys2Proof.Machine.execCloseShift port tag payload s
  | .readTotals port tag payload => Sys2Proof.Machine.execReadTotals port tag payload s
  | .readLastShift port tag payload => Sys2Proof.Machine.execReadLastShift port tag payload s
  | .openCalibration port tag payload => Sys2Proof.Machine.execOpenCalibration port tag payload s
  | .writeParameter port tag payload => Sys2Proof.Machine.execWriteParameter port tag payload s
  | .readParameter port tag payload => Sys2Proof.Machine.execReadParameter port tag payload s
  | .readCalibrationState port tag payload => Sys2Proof.Machine.execReadCalibrationState port tag payload s
  | .calibrateZero port tag payload => Sys2Proof.Machine.execCalibrateZero port tag payload s
  | .calibrateSpan port tag payload => Sys2Proof.Machine.execCalibrateSpan port tag payload s
  | .commitCalibration port tag payload => Sys2Proof.Machine.execCommitCalibration port tag payload s
  | .abandonCalibration port tag payload => Sys2Proof.Machine.execAbandonCalibration port tag payload s
  | .readAuditRecord port tag payload => Sys2Proof.Machine.execReadAuditRecord port tag payload s
  | .readAuditSummary port tag payload => Sys2Proof.Machine.execReadAuditSummary port tag payload s
  | .archiveAuditRecords port tag payload => Sys2Proof.Machine.execArchiveAuditRecords port tag payload s
  | .beginVerification port tag payload => Sys2Proof.Machine.execBeginVerification port tag payload s
  | .testPoint port tag payload => Sys2Proof.Machine.execTestPoint port tag payload s
  | .endVerification port tag payload => Sys2Proof.Machine.execEndVerification port tag payload s
  | .abortVerification port tag payload => Sys2Proof.Machine.execAbortVerification port tag payload s
  | .readVerification port tag payload => Sys2Proof.Machine.execReadVerification port tag payload s
  | .takeSnapshot port tag payload => Sys2Proof.Machine.execTakeSnapshot port tag payload s
  | .readSnapshot port tag payload => Sys2Proof.Machine.execReadSnapshot port tag payload s
  | .listSnapshots port tag payload => Sys2Proof.Machine.execListSnapshots port tag payload s
  | .discardSnapshot port tag payload => Sys2Proof.Machine.execDiscardSnapshot port tag payload s
  | .writeFaultPolicy port tag payload => Sys2Proof.Machine.execWriteFaultPolicy port tag payload s
  | .acknowledgeMetrologicalFault port tag payload => Sys2Proof.Machine.execAcknowledgeMetrologicalFault port tag payload s
  | .acknowledgeFault port tag payload => Sys2Proof.Machine.execAcknowledgeFault port tag payload s
  | .clearLockout port tag payload => Sys2Proof.Machine.execClearLockout port tag payload s
  | .readFaults port tag payload => Sys2Proof.Machine.execReadFaults port tag payload s
  | .restart port tag payload => Sys2Proof.Machine.execRestart port tag payload s
  | .readStartCause port tag payload => Sys2Proof.Machine.execReadStartCause port tag payload s
  | .pollSent => Sys2Proof.Machine.execPollSent s
  | .octetReceived port octet => Sys2Proof.Machine.execOctetReceived port octet s

end Sys2Proof.Machine
end

