-- ==== Sys2Proof/Safety.lean ====
section
/-! DEFINITION. What the statements take as safe: when a port takes a request, what stands between two commands, and
the bounds the manual sets. -/

namespace Sys2Proof.Machine

/-- A good frame as it is judged: the port it arrives on, its kind, tag and payload (R192, R194). -/
structure Frame where
  port : Port
  kind : Nat
  tag : Octet
  payload : List Octet
  deriving DecidableEq, Repr

/-- The good frame that a command is, for the requests of the catalogue and for a frame of an unknown kind. -/
def frameOf : Instr → Option Frame
  | .cellAnswer _ => none
  | .replyWindowClose => none
  | .roundPeriodExpiry => none
  | .treadleEvent _ _ => none
  | .lampFeedbackChange _ _ => none
  | .feedbackTimerExpiry _ => none
  | .calibrationSwitchChange _ => none
  | .supplyFall => none
  | .supplyReturn => none
  | .dipTimerExpiry => none
  | .powerOn => none
  | .resetLine => none
  | .startSequence _ => none
  | .captureTimeout => none
  | .grantTimerExpiry => none
  | .quietTimerExpiry => none
  | .trackingTimerExpiry => none
  | .testPointTimeout => none
  | .poweredSecond => none
  | .visitTimeout _ => none
  | .frameGapTimeout _ => none
  | .badFrame _ => none
  | .unknownKind port kind tag payload => some ⟨port, kind.toNat, tag, payload⟩
  | .replySent _ => none
  | .retainedWriteComplete => none
  | .commitWriteComplete => none
  | .fetchNotice port tag payload => some ⟨port, 1, tag, payload⟩
  | .setSiteTime port tag payload => some ⟨port, 2, tag, payload⟩
  | .readSiteTime port tag payload => some ⟨port, 3, tag, payload⟩
  | .writeSiteSetting port tag payload => some ⟨port, 4, tag, payload⟩
  | .readSiteSettings port tag payload => some ⟨port, 5, tag, payload⟩
  | .readCell port tag payload => some ⟨port, 10, tag, payload⟩
  | .readBusStatus port tag payload => some ⟨port, 11, tag, payload⟩
  | .readLiveWeight port tag payload => some ⟨port, 12, tag, payload⟩
  | .readDeckValues port tag payload => some ⟨port, 13, tag, payload⟩
  | .zeroSet port tag payload => some ⟨port, 14, tag, payload⟩
  | .requestCapture port tag payload => some ⟨port, 15, tag, payload⟩
  | .readCapture port tag payload => some ⟨port, 16, tag, payload⟩
  | .reportArrival port tag payload => some ⟨port, 20, tag, payload⟩
  | .withdrawArrival port tag payload => some ⟨port, 21, tag, payload⟩
  | .releaseVehicle port tag payload => some ⟨port, 22, tag, payload⟩
  | .clearBridge port tag payload => some ⟨port, 23, tag, payload⟩
  | .holdBridge port tag payload => some ⟨port, 24, tag, payload⟩
  | .releaseHold port tag payload => some ⟨port, 25, tag, payload⟩
  | .readBridge port tag payload => some ⟨port, 26, tag, payload⟩
  | .writeConfiguration port tag payload => some ⟨port, 30, tag, payload⟩
  | .clearConfiguration port tag payload => some ⟨port, 31, tag, payload⟩
  | .readConfiguration port tag payload => some ⟨port, 32, tag, payload⟩
  | .restartWeighing port tag payload => some ⟨port, 33, tag, payload⟩
  | .readAxles port tag payload => some ⟨port, 34, tag, payload⟩
  | .releaseTrace port tag payload => some ⟨port, 35, tag, payload⟩
  | .readTrace port tag payload => some ⟨port, 36, tag, payload⟩
  | .expireVisits port tag payload => some ⟨port, 39, tag, payload⟩
  | .openVisit port tag payload => some ⟨port, 40, tag, payload⟩
  | .amendVisit port tag payload => some ⟨port, 41, tag, payload⟩
  | .cancelVisit port tag payload => some ⟨port, 42, tag, payload⟩
  | .readVisit port tag payload => some ⟨port, 43, tag, payload⟩
  | .listVisits port tag payload => some ⟨port, 44, tag, payload⟩
  | .checkTare port tag payload => some ⟨port, 45, tag, payload⟩
  | .keyTare port tag payload => some ⟨port, 46, tag, payload⟩
  | .flushTares port tag payload => some ⟨port, 47, tag, payload⟩
  | .deleteTare port tag payload => some ⟨port, 48, tag, payload⟩
  | .readTareSlot port tag payload => some ⟨port, 49, tag, payload⟩
  | .readTicketSequence port tag payload => some ⟨port, 50, tag, payload⟩
  | .rollTicketSeries port tag payload => some ⟨port, 51, tag, payload⟩
  | .collectTickets port tag payload => some ⟨port, 52, tag, payload⟩
  | .readTicket port tag payload => some ⟨port, 53, tag, payload⟩
  | .readTicketRing port tag payload => some ⟨port, 54, tag, payload⟩
  | .closeShift port tag payload => some ⟨port, 55, tag, payload⟩
  | .readTotals port tag payload => some ⟨port, 56, tag, payload⟩
  | .readLastShift port tag payload => some ⟨port, 57, tag, payload⟩
  | .openCalibration port tag payload => some ⟨port, 60, tag, payload⟩
  | .writeParameter port tag payload => some ⟨port, 61, tag, payload⟩
  | .readParameter port tag payload => some ⟨port, 62, tag, payload⟩
  | .readCalibrationState port tag payload => some ⟨port, 63, tag, payload⟩
  | .calibrateZero port tag payload => some ⟨port, 64, tag, payload⟩
  | .calibrateSpan port tag payload => some ⟨port, 65, tag, payload⟩
  | .commitCalibration port tag payload => some ⟨port, 66, tag, payload⟩
  | .abandonCalibration port tag payload => some ⟨port, 67, tag, payload⟩
  | .readAuditRecord port tag payload => some ⟨port, 68, tag, payload⟩
  | .readAuditSummary port tag payload => some ⟨port, 69, tag, payload⟩
  | .archiveAuditRecords port tag payload => some ⟨port, 70, tag, payload⟩
  | .beginVerification port tag payload => some ⟨port, 80, tag, payload⟩
  | .testPoint port tag payload => some ⟨port, 81, tag, payload⟩
  | .endVerification port tag payload => some ⟨port, 82, tag, payload⟩
  | .abortVerification port tag payload => some ⟨port, 83, tag, payload⟩
  | .readVerification port tag payload => some ⟨port, 84, tag, payload⟩
  | .takeSnapshot port tag payload => some ⟨port, 85, tag, payload⟩
  | .readSnapshot port tag payload => some ⟨port, 86, tag, payload⟩
  | .listSnapshots port tag payload => some ⟨port, 87, tag, payload⟩
  | .discardSnapshot port tag payload => some ⟨port, 88, tag, payload⟩
  | .writeFaultPolicy port tag payload => some ⟨port, 90, tag, payload⟩
  | .acknowledgeMetrologicalFault port tag payload => some ⟨port, 91, tag, payload⟩
  | .acknowledgeFault port tag payload => some ⟨port, 92, tag, payload⟩
  | .clearLockout port tag payload => some ⟨port, 93, tag, payload⟩
  | .readFaults port tag payload => some ⟨port, 94, tag, payload⟩
  | .restart port tag payload => some ⟨port, 100, tag, payload⟩
  | .readStartCause port tag payload => some ⟨port, 101, tag, payload⟩
  | .pollSent => none
  | .octetReceived _ _ => none

/-- R194, R195: a good frame of a kind is taken on a port: control is with the blocks, no reply is pending on the port,
the catalogue permits the kind there, and the payload has its request length. -/
def State.accepts (s : State) (p : Port) (kind : Nat) (payload : List Octet) : Bool :=
  s.running && (s.port p).replies.isEmpty && permitted kind p && decide (payload.length = requestLength kind)

/-- The state with a request answered on its port: the receiver hunts and the reply is pending (R193, R195, R196). -/
def State.answered (s : State) (p : Port) (kind : Nat) (tag : Octet) (st : Status) (c : Content) : State :=
  (s.hunt p).putReply p kind tag st c

/-- The reply pending on a port, alone there: the kind, tag and status of its header, and its content (R192, R195,
R196). -/
def State.replied (s : State) (p : Port) (kind : Nat) (tag : Octet) (st : Status) (c : Content) : Bool :=
  (s.port p).replies.map (fun r => (r.kind, r.tag, r.status, r.content)) == [(BitVec.ofNat 8 (kind + 128), tag, st, c)]

/-- R75 at one end: with the commanded lamp lit neither the timer runs nor the condition is present; with another
state of the lamps the timer runs or the condition is present. -/
def State.lampsSettled (s : State) (e : BridgeEnd) : Bool :=
  if lampsMatch (s.bridge.aspect e) (s.bridge.lamps e) then
    !s.bridge.feedback e && !(s.faultEntry (lampKey e)).present
  else s.bridge.feedback e || (s.faultEntry (lampKey e)).present

/-- What every event leaves at the bridge: METROLOGY has its three causes (R76), FAULT is as judged (R183), no entry
waits at a FREE bridge without a hold (R63), the aspects are those of R74 and the lamp comparison has been made (R75). -/
def State.bridgeSettled (s : State) : Bool :=
  s.bridge.holds.metrology == (s.accessOpen || s.run.isSome || s.bridge.holds.manual)
    && s.bridge.holds.fault == s.faultJudged
    && (s.bridge.state != .free || s.held || s.bridge.waiting.isEmpty)
    && s.bridge.aspectA == s.bridge.aspectFor .a && s.bridge.aspectB == s.bridge.aspectFor .b
    && s.lampsSettled .a && s.lampsSettled .b

/-- What stands between two commands while control is with the blocks: the bridge is settled and no notice of an event
is still unqueued (R197). -/
def State.settled (s : State) : Bool := s.outbox.isEmpty && s.bridgeSettled

/-- What stands between two commands with no commit to note: what the statements about single commands assume. -/
def State.calm (s : State) : Bool := s.running && s.settled && s.commitNote.isNone

/-- A request of a kind is taken, between two commands. -/
def State.ready (s : State) (p : Port) (kind : Nat) (payload : List Octet) : Bool :=
  s.accepts p kind payload && s.calm

/-- The state after an event that made nothing but notices. -/
def State.told (s : State) (ps : List Port) (n : Notice) : State := (s.postAll ps n).flush

/-- A notice for each of several ports, as an event hands it to their queues. -/
def notesTo (ps : List Port) (n : Notice) : List (Port × Notice) := ps.map (fun p => (p, n))

/-- The state `t` that an event left, with the port queues as `s` had them and the notices of a list added to those, in
ascending order of number (R197). -/
def State.heard (t s : State) (notices : List (Port × Notice)) : State :=
  ({ t with ports := s.ports, outbox := notices } : State).flush

/-- R64: the notices of the grant that an event from `s` to `t` made, none where it made none. -/
def State.grantNews (s t : State) : List (Port × Notice) :=
  if s.bridge.state ≠ .granted ∧ t.bridge.state = .granted then
    match selectEntry s.bridge.waiting with
    | some q => notesTo [.lane, .gatehouse] (.granted q.ident q.entryEnd)
    | none => []
  else []

/-- R133, R134, R136, R139: the notices of the issue of a ticket: of a roll or an exhaustion, of a ring that it fills, of
the ticket at the Gatehouse Port and by the copy setting at the Metrology Port, and its short form at the Lane Port. -/
def State.issueNews (s : State) (k : Ticket) : List (Port × Notice) :=
  (if s.cal.nextNumber < 99999999 then []
   else notesTo [.gatehouse, .metrology]
     (if s.cal.series < 99 then .seriesRolled (s.cal.series + 1) .automatic else .sequenceExhausted)) ++
  (if s.tickets.ring.length = 63 then
     [(.gatehouse, .ticketRingFull ((s.tickets.ring.head?.map (·.key)).getD k.key) k.key)] else []) ++
  notesTo (if s.site.settings.copyToMetrology then [.gatehouse, .metrology] else [.gatehouse])
    (.ticketIssued k.key k.ident k.kind k.commodity k.gross k.tare k.net k.flags) ++
  [(.lane, .ticketIssuedShort k.key k.ident k.net k.flags)]

/-- R122: the notice of a LEARNED store, of the tare it replaces or of its refusal. -/
def State.learnNews (s : State) (t : Tare) : List (Port × Notice) :=
  match s.chooseTare t.ident with
  | .take _ => []
  | .replace slot old => [(.gatehouse, .tareReplaced old.ident slot)]
  | .full => [(.gatehouse, .tareTableFull t.ident t.tare)]

/-- R105: the notice of a freeze, none where the trace already stands frozen. -/
def State.freezeNews (s : State) (record : FreezeRecord) : List (Port × Notice) :=
  if s.axles.trace.frozen = none then notesTo [.gatehouse, .metrology] (.traceFrozen record) else []

/-- R101, R176: the notices of an accepted draft with an OVER verdict: OVER_VERDICT, by the copy setting at the Metrology
Port too, those of its snapshot and of the freeze, which `record` would leave. -/
def State.overNews (s : State) (d : DraftResult) (record : FreezeRecord) : List (Port × Notice) :=
  let slot := chooseEvidenceSlot s.evidence .overVerdict
  let ports : List Port :=
    if s.site.settings.copyToMetrology then [.gatehouse, .lane, .metrology] else [.gatehouse, .lane]
  if d.anyOver then
    notesTo ports (.overVerdict record.ident d.draft.used d.overGroups d.overCombination) ++
      [(.metrology, .snapshotTaken s.snapshotNumber .overVerdict slot
        ((s.evidence.find? (fun x => x.slot = slot)).map (fun x => (x.snapshot.number, x.snapshot.kind))))] ++
      s.freezeNews record
  else []

/-- R161: the notice of the append that an event leaving `t` made. -/
def State.nearFullNews (t : State) : List (Port × Notice) :=
  if 180 ≤ t.audit.records.length then
    [(.metrology, .auditNearFull t.audit.records.length (200 - t.audit.records.length) t.headroom)]
  else []

/-- R176, R187: the notices of a lockout that an event entered from `s`: its snapshot and LOCKOUT_ENTERED. -/
def State.lockoutNews (s : State) (code : LockCode) : List (Port × Notice) :=
  let slot := chooseEvidenceSlot s.evidence .lockout
  [(.metrology, .snapshotTaken s.snapshotNumber .lockout slot
      ((s.evidence.find? (fun x => x.slot = slot)).map (fun x => (x.snapshot.number, x.snapshot.kind))))] ++
    notesTo [.gatehouse, .lane, .metrology] (.lockoutEntered code s.site.clock)

/-! ### The end of a round -/

/-- The reply, or its absence, with which a command ends the poll of an address whose window has received some octets:
an answer that is a reply to it, or the close of its window (R3). -/
def pollEndedBy (c : Instr) (i : Nat) (received : List Octet) : Option (Option CellReply) :=
  match c with
  | .replyWindowClose => some none
  | .cellAnswer a => (cellReply (answerReceived received a) i).map some
  | _ => none

/-- The state with the record of an address as the judgement of its poll leaves it (R4, R5). -/
def State.polled (s : State) (i : Nat) (reply : Option CellReply) : State :=
  { s with bus := s.bus.setRecord i ((s.bus.record i).judged (s.bus.table.serial i) reply) }

/-- R10, R11: the end of the poll and of the round changes no fault condition: those of the cell already stand as its
new condition makes them, and ROUND_OVERRUN is absent where a round within its period would make it so. -/
def State.reportsNothing (s : State) (i : Nat) (reply : Option CellReply) : Bool :=
  ([.cellSilent, .cellFault, .cellSubstituted] : List FaultClass).all (fun f =>
      (s.faultEntry (cellKey f i)).present
        == (cellFaults ((s.bus.record i).judged (s.bus.table.serial i) reply).condition).contains f)
    && (s.bus.overrun || !(s.faultEntry overrunKey).present)

/-- R2, R11: a round that starts with the table in use has a cell to poll and makes no address absent, so that its start
changes the cell bus alone. -/
def State.nextStartsQuietly (s : State) : Bool :=
  !s.tableInUse.configuredList.isEmpty
    && addresses.all (fun i => !(s.bus.record i).configured || s.tableInUse.configured i)

/-- The state with its last poll judged, as a command that ends that poll leaves it; another command leaves it as it
is. -/
def State.lastPolled (s : State) (c : Instr) : State :=
  match s.bus.poll with
  | .window i received =>
    match pollEndedBy c i received with
    | some reply => s.polled i reply
    | none => s
  | _ => s

/-- A command ends the round's last poll with nothing to report to the Fault Unit, and `r` is what the round comes to:
a round within its period, or an overrun round (R2, R10) that the next one follows at once, starting quietly. -/
def State.endsRound (s : State) (c : Instr) (r : RoundValues) : Bool :=
  s.calm && s.bus.toPoll.isEmpty && (!s.bus.overrun || s.nextStartsQuietly) &&
    match s.bus.poll with
    | .window i received =>
      match pollEndedBy c i received with
      | some reply => s.reportsNothing i reply && decide (r = (s.polled i reply).computeRound)
      | none => false
    | _ => false

/-- The state with a round as the latest and judged stable or not (R31, R38): the window and the verdict that the blocks
read when they take it. -/
def State.judgedOn (s : State) (r : RoundValues) : State :=
  ({ s with weigh.latest := some r, weigh.roundTable := s.bus.table,
            weigh.rounds := s.weigh.rounds + 1 } : State).judgeStability

/-- R71: a round shows that the vehicle has left: it is stable, below the occupancy threshold of its table, and the
counts are equal. -/
def State.seesLeft (s : State) (r : RoundValues) : Bool :=
  (s.judgedOn r).weigh.stable && r.rounded.any (fun w => decide (w < s.bus.table.occupancyKg))
    && s.axles.entered = s.axles.exited

/-- R49, R166: a round completes a wait with a restart point: it is stable, and each of the S most recent window entries
came from a round that ended after that point. -/
def State.completesWait (s : State) (r : RoundValues) (restart : Option Nat) : Bool :=
  (s.judgedOn r).weigh.stable &&
    match restart with
    | none => true
    | some m => (lastN s.bus.table.stabilityRounds (s.judgedOn r).weigh.window).all (fun w => decide (m < w.moment))

/-- R195, R197: a port holds at most 16 notices, and at most an answer and a BUSY are pending, the BUSY last. -/
def PortState.bounded (q : PortState) : Bool :=
  decide (q.notices.length ≤ 16) &&
    (match q.replies with
     | [] => true
     | [_] => true
     | [a, b] => a.status ≠ .busy && b.status = .busy
     | _ => false)

/-- The three ports are bounded. -/
def Ports.bounded (ps : Ports) : Bool := ps.gatehouse.bounded && ps.lane.bounded && ps.metrology.bounded

/-- A grant stands in GRANTED, OCCUPIED and RELEASED and nowhere else (R64, R68, R71); its timer runs in GRANTED alone,
paused exactly while a hold is in force (R66, R67); a capture waits only in OCCUPIED with no hold in force, and there
alone may the auto arm be set or the quiet timer run (R47, R53, R54, R56); no axle is counted elsewhere than in
OCCUPIED and RELEASED, and 0 ≤ exited ≤ entered ≤ 255 (R83, R87). -/
def State.bridgeConsistent (s : State) : Bool :=
  s.bridge.grant.isSome == (s.bridge.state == .granted || s.bridge.state == .occupied || s.bridge.state == .released)
    && s.bridge.grantTimer.isSome == (s.bridge.state == .granted)
    && s.bridge.grantTimer.all (fun t => t.paused == s.held)
    && (s.capture.waiting.isNone || (s.bridge.state == .occupied && !s.held))
    && (s.bridge.state == .occupied || (!s.capture.arm && !s.capture.quietTimer))
    && (s.bridge.state == .occupied || s.bridge.state == .released
        || (s.axles.entered == 0 && s.axles.exited == 0))
    && decide (s.axles.exited ≤ s.axles.entered ∧ s.axles.entered ≤ 255)

/-- The bounds of the stores and counters that fill: 200 audit records (R159), 64 tickets (R136), 8 snapshots in slots
0 to 7, no two in one slot (R176), an overrun count up to 3 (R10), 16 values in a filter history (R24), 32 window
entries (R38), 512 trace samples and 4 pending events (R104), 8 entries in each approach queue (R60), visits in
positions 0 to 255 (R107), tares in slots 0 to 95 with the pointer at one of them (R122, R123), and 12 test points in a
run, a waiting one counted (R165). -/
def State.storesBounded (s : State) : Bool :=
  decide (s.audit.records.length ≤ 200) && decide (s.tickets.ring.length ≤ 64)
    && s.evidence.all (fun x => decide (x.slot < 8)) && decide ((s.evidence.map (·.slot)).Nodup)
    && decide (s.bus.overruns ≤ 3) && s.weigh.histories.all (fun e => decide (e.2.length ≤ 16))
    && decide (s.weigh.window.length ≤ 32)
    && decide (s.axles.trace.samples.length ≤ 512) && decide (s.axles.trace.events.length ≤ 4)
    && decide (s.queueLength .a ≤ 8) && decide (s.queueLength .b ≤ 8)
    && s.visits.all (fun e => decide (e.1 < 256))
    && s.tares.slots.all (fun e => decide (e.1 < 96)) && decide (s.tares.pointer < 96)
    && s.run.all (fun r => decide (r.points.length + (if r.waiting.isSome then 1 else 0) ≤ 12))

/-- One ticket key lies below another (07 section 7.3). -/
def TicketKey.lt (a b : TicketKey) : Bool := a.le b && a ≠ b

/-- The greatest ticket key (R133). -/
def TicketKey.greatest : TicketKey := { series := 99, number := 99999999 }

/-- The key that the next ticket takes (R133). -/
def State.nextKey (s : State) : TicketKey := { series := s.cal.series, number := s.cal.nextNumber }

/-- R133, R134: a key has been used: it lies below the next one, or, the sequence being EXHAUSTED, is any key. -/
def State.keyUsed (s : State) (k : TicketKey) : Bool :=
  if s.cal.exhausted then k.le .greatest else k.lt s.nextKey

/-- R133, R134, R136: the keys of the ring rise strictly, each is used, and none lies above the last key where there is
one, which is used too; the next key lies within its ranges, and an EXHAUSTED sequence stands in series 99. -/
def State.keysRise (s : State) : Bool :=
  decide ((s.tickets.ring.map (·.key)).Pairwise (fun a b => a.lt b = true))
    && s.tickets.ring.all (fun t => s.keyUsed t.key && s.cal.lastKey.all (fun k => t.key.le k))
    && s.cal.lastKey.all s.keyUsed
    && decide (1 ≤ s.cal.series ∧ s.cal.series ≤ 99 ∧ 1 ≤ s.cal.nextNumber ∧ s.cal.nextNumber ≤ 99999999)
    && (!s.cal.exhausted || decide (s.cal.series = 99))

/-- The numbered tables stand in their canonical form, keys rising, so that each key is listed once (a visit to a
position, a tare to a slot). -/
def State.tablesSorted (s : State) : Bool :=
  Table.sorted s.visits && Table.sorted s.tares.slots && Table.sorted s.site.catalogue
    && Table.sorted s.faults.register && Table.sorted s.bus.records

end Sys2Proof.Machine
end

