-- ==== Sys2Proof/Certificates/Slice0/Obligations.lean ====
section
/-! DEFINITION. The statements for the provers. Each names the rules of spec/ it comes from; the assumptions on the
state are those of Safety.lean. -/

open Sys2Proof Sys2Proof.Machine

/-! ### The machine -/

/-- The command at the front of the queue is taken, with the queue's rest. -/
def Obligations.StepTakesTheFrontCommand : Prop :=
  ∀ (c : Instr) (rest : List Instr) (s : State), s.pending = c :: rest → step s = exec c { s with pending := rest }

/-- Every command, in every state, answers a next state and leaves the queue of waiting commands; with nothing waiting
the block idles (the model's choice: log 4). -/
def Obligations.EveryCommandAnswersAndLeavesTheQueue : Prop :=
  (∀ (c : Instr) (s : State), ∃ t, exec c s = .next t ∧ t.pending = s.pending) ∧
  (∀ s : State, s.pending = [] → step s = .next s)

/-- R194, R195: a good frame of any kind, the unknown ones included, that finds a BUSY reply pending is discarded, that
finds an answer pending is answered BUSY, that the catalogue does not permit on its port is answered NOT_PERMITTED, and
that has the wrong payload length is answered MALFORMED; nothing but the port changes. That a frame of kind 128 to 255
is answered with the low eight bits of its kind plus 128 is the model's choice (log 37). -/
def Obligations.FramesTurnedAwayChangeOnlyTheirPort : Prop :=
  ∀ (c : Instr) (f : Frame) (s : State), frameOf c = some f → s.running = true → s.commitNote = none →
    ((s.port f.port).replies.any (fun r => r.status = .busy) = true → exec c s = .next (s.hunt f.port)) ∧
    ((s.port f.port).replies ≠ [] → (s.port f.port).replies.any (fun r => r.status = .busy) = false →
      exec c s = .next (s.answered f.port f.kind f.tag .busy .empty)) ∧
    ((s.port f.port).replies = [] → permitted f.kind f.port = false →
      exec c s = .next (s.answered f.port f.kind f.tag .notPermitted .empty)) ∧
    ((s.port f.port).replies = [] → permitted f.kind f.port = true → f.payload.length ≠ requestLength f.kind →
      exec c s = .next (s.answered f.port f.kind f.tag .malformed .empty))

/-- R193, R194: a frame whose kind the catalogue does not hold, on a port with no reply pending, is answered
NOT_PERMITTED and changes nothing else; a gap of 20 ms and a bad frame return the receiver to hunting, without a reply.
That a frame of kind 128 to 255 is answered with the low eight bits of its kind plus 128 is the model's choice (log
37). -/
def Obligations.FramesThatAreNoRequests : Prop :=
  (∀ (p : Port) (kind tag : Octet) (payload : List Octet) (s : State), s.running = true → s.commitNote = none →
     (s.port p).replies = [] → catalogueRow kind.toNat = none →
     exec (.unknownKind p kind tag payload) s = .next (s.answered p kind.toNat tag .notPermitted .empty)) ∧
  (∀ (p : Port) (s : State), s.running = true → s.commitNote = none →
     exec (.frameGapTimeout p) s = .next (s.hunt p) ∧ exec (.badFrame p) s = .next (s.hunt p))

/-- R193: the receiver. Hunting, it discards every octet but 0xA5, which starts a frame; collecting, it keeps each
octet of the frame, an octet 0xA5 among them; a length above 240 and a CRC that differs end the frame without a reply;
the last octet of a frame whose CRC matches is the command that this frame is, of which every kind of the catalogue has
one of its own (that such a command stands for its whole frame: log 12). -/
def Obligations.ReceiverTakesFramesOctetByOctet : Prop :=
  ∀ (s : State) (p : Port) (o : Octet), s.running = true →
    ((s.port p).receiver = .hunting → exec (.octetReceived p o) s =
      .next (s.setReceiver p (if o = 0xA5#8 then .collecting [] else .hunting))) ∧
    ((s.port p).receiver = .collecting [] → exec (.octetReceived p o) s =
      .next (s.setReceiver p (if 240 < o.toNat then .hunting else .collecting [o]))) ∧
    (∀ (len kind tag : Octet) (payload : List Octet) (crc : List Octet), len.toNat = payload.length →
      payload.length ≤ 240 →
      (∀ held : List Octet, (s.port p).receiver = .collecting (len :: held) → held.length + 1 < payload.length + 4 →
        exec (.octetReceived p o) s = .next (s.setReceiver p (.collecting (len :: held ++ [o])))) ∧
      ((s.port p).receiver = .collecting (len :: kind :: tag :: payload ++ crc) → crc.length = 1 →
        ((crc16 (len :: kind :: tag :: payload)).toNat = natOf (crc ++ [o]) →
          ∀ c, frameOf c = some ⟨p, kind.toNat, tag, payload⟩ → exec (.octetReceived p o) s = exec c s) ∧
        ((crc16 (len :: kind :: tag :: payload)).toNat ≠ natOf (crc ++ [o]) →
          exec (.octetReceived p o) s = .next (s.setReceiver p .hunting)))) ∧
    (∀ (kind tag : Octet) (payload : List Octet),
      frameOf (.unknownKind p kind tag payload) = some ⟨p, kind.toNat, tag, payload⟩ ∧
      (catalogueRow kind.toNat ≠ none → ∃ c, frameOf c = some ⟨p, kind.toNat, tag, payload⟩ ∧
        ∀ q k t l, c ≠ .unknownKind q k t l))

/-- R195, R207: the end of a reply frees its place; the end of the OK reply to Restart begins a start with cause
ORDERED. -/
def Obligations.ReplySentFreesThePortOrBeginsTheOrderedStart : Prop :=
  ∀ (p : Port) (r : Reply) (rest : List Reply) (s : State), s.running = true → s.commitNote = none →
    (s.port p).replies = r :: rest →
    exec (.replySent p) s =
      .next (let t := s.setPort p { s.port p with replies := rest }
             if r.kind = 228#8 ∧ r.status = .ok then { t with phase := .starting .ordered } else t)

/-! ### Requests that read -/

/-- R15, R35: Read Cell, Read Bus Status, Read Live Weight and Read Deck Values. That Read Deck Values lists the decks
and the calibrated zeros of the table in use is the model's reading (log 17). -/
def Obligations.CellBusAndWeighingReads : Prop :=
  ((∀ p, permitted 10 p = true ↔ p ≠ .lane) ∧ (∀ p, permitted 11 p = true ↔ p ≠ .lane) ∧
   ∀ (s : State) (p : Port) (tag : Octet) (payload : List Octet),
     (s.accepts p 10 payload = true → 1 ≤ natAt payload 0 1 → natAt payload 0 1 ≤ 16 →
       exec (.readCell p tag payload) s = .next (s.answered p 10 tag .ok (.cell (s.bus.record (natAt payload 0 1))))) ∧
     (s.accepts p 10 payload = true → ¬(1 ≤ natAt payload 0 1 ∧ natAt payload 0 1 ≤ 16) →
       exec (.readCell p tag payload) s = .next (s.answered p 10 tag .noSuchCell .empty)) ∧
     (s.accepts p 11 payload = true → exec (.readBusStatus p tag payload) s =
       .next (s.answered p 11 tag .ok (.busStatus s.bus.handedIndex s.bus.table.period s.bus.overruns
         (s.faultEntry overrunKey).present s.bus.handedValid)))) ∧
  ((∀ p, permitted 12 p = true) ∧ (∀ p, permitted 13 p = true ↔ p ≠ .lane) ∧
   ∀ (s : State) (p : Port) (tag : Octet) (payload : List Octet),
     (s.accepts p 12 payload = true → exec (.readLiveWeight p tag payload) s =
       .next (s.answered p 12 tag .ok (.liveWeight s.liveWord s.liveValue (s.weigh.latest.map (·.index))))) ∧
     (s.accepts p 13 payload = true → exec (.readDeckValues p tag payload) s =
       .next (s.answered p 13 tag .ok (.deckValues s.weigh.latest
         (s.tableInUse.deckList.map (fun d => (Table.get? s.weigh.zero d).getD (s.tableInUse.zero0 d)))
         (s.tableInUse.deckList.map (fun d => ((Table.get? s.weigh.histories d).getD []).length))))))

/-- R33, R34: the state word, the first of the table that applies, and the value it goes with. -/
def Obligations.LiveWeightWordAndValue : Prop :=
  ∀ s : State,
    (s.weigh.latest = none → s.liveWord = .invalid ∧ s.liveValue = none) ∧
    (∀ v, s.weigh.latest = some v →
      (v.valid = false → s.liveWord = .invalid ∧ s.liveValue = none) ∧
      (v.valid = true → v.range = .overload → s.liveWord = .overload ∧ s.liveValue = none) ∧
      (v.valid = true → v.range = .underload → s.liveWord = .underload ∧ s.liveValue = none) ∧
      (v.valid = true → v.range = .normal → s.liveValue = v.rounded ∧
        (s.accessOpen = true → (∃ d ∈ v.decks, d.linearizationDisabled = true) → s.liveWord = .calIncomplete) ∧
        (s.accessOpen = true → (∀ d ∈ v.decks, d.linearizationDisabled = false) → s.liveWord = .notForTrade) ∧
        (s.accessOpen = false → s.cal.notVerified = true → s.liveWord = .notForTrade) ∧
        (s.accessOpen = false → s.cal.notVerified = false → s.weigh.zeroUnset = true → s.liveWord = .zeroUnset) ∧
        (s.accessOpen = false → s.cal.notVerified = false → s.weigh.zeroUnset = false → s.weigh.stable = true →
          s.liveWord = .stable) ∧
        (s.accessOpen = false → s.cal.notVerified = false → s.weigh.zeroUnset = false → s.weigh.stable = false →
          s.liveWord = .motion)))

/-- R46, R79, R90, R103, R106: Read Capture, Read Bridge, Read Configuration, Read Axles and Read Trace. What Read Axles
gives as the items of a visit where none is in use is the model's reading (log 29). -/
def Obligations.CaptureBridgeAndAxleReads : Prop :=
  ((∀ p, permitted 16 p = true) ∧ (∀ p, permitted 26 p = true) ∧
   ∀ (s : State) (p : Port) (tag : Octet) (payload : List Octet),
     (s.accepts p 16 payload = true → exec (.readCapture p tag payload) s =
       .next (s.answered p 16 tag .ok (.capture s.capture.waiting s.capture.arm s.capture.lastOutcome))) ∧
     (s.accepts p 26 payload = true → exec (.readBridge p tag payload) s =
       .next (s.answered p 26 tag .ok (.bridge
         { state := s.bridge.state, startMark := s.bridge.startMark, ident := s.bridge.grant.map (·.ident),
           entryEnd := s.bridge.grant.map (·.entryEnd),
           travel := s.bridge.grant.map (fun g => travelFrom g.entryEnd), timer := s.bridge.grantTimer,
           advance := s.bridge.advance, withheld := s.bridge.withheld,
           endA := { aspect := s.bridge.aspectA, lamps := s.bridge.lampsA,
                     lampFeedback := (s.faultEntry (lampKey .a)).present },
           endB := { aspect := s.bridge.aspectB, lamps := s.bridge.lampsB,
                     lampFeedback := (s.faultEntry (lampKey .b)).present },
           gatehouse := s.bridge.holds.gatehouse, lane := s.bridge.holds.lane, manual := s.bridge.holds.manual,
           otherMetrology := s.accessOpen || s.run.isSome, fault := s.bridge.holds.fault,
           supply := s.bridge.holds.supply, arrivals := s.bridge.arrivals,
           queueA := s.bridge.waiting.filter (fun q => q.entryEnd = .a),
           queueB := s.bridge.waiting.filter (fun q => q.entryEnd = .b) })))) ∧
  ((∀ p, permitted 32 p = true) ∧ (∀ p, permitted 34 p = true) ∧ (∀ p, permitted 36 p = true ↔ p ≠ .lane) ∧
   ∀ (s : State) (p : Port) (tag : Octet) (payload : List Octet),
     (s.accepts p 32 payload = true → 1 ≤ natAt payload 0 1 → natAt payload 0 1 ≤ 24 →
       exec (.readConfiguration p tag payload) s =
         .next (s.answered p 32 tag .ok (.configuration
           (if natAt payload 0 1 ≤ 8 then fixedConfiguration (natAt payload 0 1)
            else Table.get? s.site.catalogue (natAt payload 0 1))))) ∧
     (s.accepts p 32 payload = true → ¬(1 ≤ natAt payload 0 1 ∧ natAt payload 0 1 ≤ 24) →
       exec (.readConfiguration p tag payload) s = .next (s.answered p 32 tag .noSuchConfiguration .empty)) ∧
     (s.accepts p 34 payload = true →
       ∃ r : AxleReport, exec (.readAxles p tag payload) s = .next (s.answered p 34 tag .ok (.axles r)) ∧
         r.entered = s.axles.entered ∧ r.exited = s.axles.exited ∧ r.entryEnd = s.bridge.grant.map (·.entryEnd) ∧
         r.travel = s.bridge.grant.map (fun g => travelFrom g.entryEnd) ∧
         r.firstAxle = (if s.axles.exited < s.axles.entered then some (s.axles.exited + 1) else none) ∧
         r.lastAxle = (if s.axles.exited < s.axles.entered then some s.axles.entered else none) ∧
         r.disagreements = s.axles.disagreements ∧ r.axleCount = s.axles.axleCount ∧
         (s.visitInUse = none → r.config = none ∧ r.total = none ∧ r.used = 0 ∧ r.groups = [] ∧
           r.inconsistent = false) ∧
         (∀ v, s.visitInUse = some v → r.config = v.config ∧ r.total = (s.configOf v).map (·.total) ∧
           r.used = v.draft.used ∧ r.inconsistent = v.draft.inconsistent ∧
           r.groups = (((s.configOf v).map v.draft.records).getD []))) ∧
     (s.accepts p 36 payload = true → 1 ≤ natAt payload 2 1 → natAt payload 2 1 ≤ 16 →
       (natAt payload 0 2 < s.axles.trace.samples.length ∨
         (natAt payload 0 2 = 0 ∧ s.axles.trace.samples.length = 0)) →
       exec (.readTrace p tag payload) s =
         .next (s.answered p 36 tag .ok (.trace s.axles.trace.frozen s.axles.trace.samples.length
           ((s.axles.trace.samples.drop (natAt payload 0 2)).take (natAt payload 2 1))))) ∧
     (s.accepts p 36 payload = true → ¬(1 ≤ natAt payload 2 1 ∧ natAt payload 2 1 ≤ 16) →
       exec (.readTrace p tag payload) s = .next (s.answered p 36 tag .badArgument .empty)) ∧
     (s.accepts p 36 payload = true → 1 ≤ natAt payload 2 1 → natAt payload 2 1 ≤ 16 →
       s.axles.trace.samples.length ≤ natAt payload 0 2 →
       ¬(natAt payload 0 2 = 0 ∧ s.axles.trace.samples.length = 0) →
       exec (.readTrace p tag payload) s = .next (s.answered p 36 tag .noSuchSample .empty)))

/-- R111, R126, R132, R138, R142: Read Visit, List Visits, Read Tare Slot, Read Ticket Sequence, Read Ticket, Read
Ticket Ring, Read Totals and Read Last Shift; a malformed ident of Read Visit is refused (R201). -/
def Obligations.VisitTareAndTicketReads : Prop :=
  ((∀ p, permitted 43 p = true ↔ p ≠ .lane) ∧ (∀ p, permitted 44 p = true ↔ p ≠ .lane) ∧
   ∀ (s : State) (p : Port) (tag : Octet) (payload : List Octet),
     (s.accepts p 43 payload = true → identAt payload 0 = none →
       exec (.readVisit p tag payload) s = .next (s.answered p 43 tag .badArgument .empty)) ∧
     (∀ id pos v, s.accepts p 43 payload = true → identAt payload 0 = some id → findVisit s.visits id = some (pos, v) →
       exec (.readVisit p tag payload) s =
         .next (s.answered p 43 tag .ok (.visit v
           (((s.configOf v).map (fun c => (numbered c.groups).map (fun e => Table.get? v.draft.groups e.1))).getD [])
           (s.inUse = some pos) (decide (s.inUse = some pos) && s.axles.axleCount)
           ((s.bridge.waiting.find? (fun q => q.ident = id)).map (fun q => (q.entryEnd, q.arrival)))))) ∧
     (∀ id, s.accepts p 43 payload = true → identAt payload 0 = some id → findVisit s.visits id = none →
       exec (.readVisit p tag payload) s = .next (s.answered p 43 tag .noVisit .empty)) ∧
     (s.accepts p 44 payload = true → 1 ≤ natAt payload 1 1 → natAt payload 1 1 ≤ 16 →
       exec (.listVisits p tag payload) s =
         .next (s.answered p 44 tag .ok (.visitList s.visits.length
           (((s.visits.filter (fun e => decide (natAt payload 0 1 ≤ e.1))).take (natAt payload 1 1)).map (fun e =>
             { position := e.1, ident := e.2.ident, kind := e.2.kind, state := e.2.state, inUse := s.inUse = some e.1,
               age := e.2.age }))))) ∧
     (s.accepts p 44 payload = true → ¬(1 ≤ natAt payload 1 1 ∧ natAt payload 1 1 ≤ 16) →
       exec (.listVisits p tag payload) s = .next (s.answered p 44 tag .badArgument .empty))) ∧
  ((∀ k ∈ [49, 50, 53, 54, 56, 57], ∀ p, permitted k p = true ↔ p ≠ .lane) ∧
   ∀ (s : State) (p : Port) (tag : Octet) (payload : List Octet),
     (s.accepts p 49 payload = true → natAt payload 0 1 < 96 → exec (.readTareSlot p tag payload) s =
       .next (s.answered p 49 tag .ok (.tareSlot
         ((Table.get? s.tares.slots (natAt payload 0 1)).map (fun t => (t, s.runOut t))) s.tares.pointer
         (s.tares.slots.filter (fun e => e.2.origin = .learned)).length
         (s.tares.slots.filter (fun e => e.2.origin = .keyed)).length))) ∧
     (s.accepts p 49 payload = true → 96 ≤ natAt payload 0 1 →
       exec (.readTareSlot p tag payload) s = .next (s.answered p 49 tag .noSuchSlot .empty)) ∧
     (s.accepts p 50 payload = true → exec (.readTicketSequence p tag payload) s =
       .next (s.answered p 50 tag .ok (.sequence s.cal.series
         (if s.cal.exhausted then none else some s.cal.nextNumber) s.cal.exhausted s.cal.lastKey))) ∧
     (∀ t ∈ s.tickets.ring, s.accepts p 53 payload = true → t.key = keyAt payload →
       ∃ u ∈ s.tickets.ring, u.key = keyAt payload ∧
         exec (.readTicket p tag payload) s = .next (s.answered p 53 tag .ok (.ticket u))) ∧
     (s.accepts p 53 payload = true → (∀ t ∈ s.tickets.ring, t.key ≠ keyAt payload) →
       exec (.readTicket p tag payload) s = .next (s.answered p 53 tag .noSuchTicket .empty)) ∧
     (s.accepts p 54 payload = true → exec (.readTicketRing p tag payload) s =
       .next (s.answered p 54 tag .ok (.ring s.tickets.ring.length (s.tickets.ring.head?.map (·.key))
         (s.tickets.ring.getLast?.map (·.key))
         (((s.tickets.ring.drop (natAt payload 0 1)).take 16).map (·.key))))) ∧
     (s.accepts p 56 payload = true → exec (.readTotals p tag payload) s =
       .next (s.answered p 56 tag .ok (.totals s.tickets.shift))) ∧
     (s.accepts p 57 payload = true → exec (.readLastShift p tag payload) s =
       .next (s.answered p 57 tag .ok (.lastShift s.tickets.last))))

/-- R148, R162: Read Parameter, Read Calibration State, Read Audit Record and Read Audit Summary. -/
def Obligations.CalibrationAndAuditReads : Prop :=
  (∀ k ∈ [62, 63, 68, 69], ∀ p, permitted k p = true ↔ p ≠ .lane) ∧
  ∀ (s : State) (p : Port) (tag : Octet) (payload : List Octet),
    (s.accepts p 62 payload = true →
      (1 < natAt payload 2 1 → exec (.readParameter p tag payload) s = .next (s.answered p 62 tag .badArgument .empty)) ∧
      (natAt payload 2 1 ≤ 1 → isParam (natAt payload 0 2) = false →
        exec (.readParameter p tag payload) s = .next (s.answered p 62 tag .noSuchParameter .empty)) ∧
      (natAt payload 2 1 = 0 → isParam (natAt payload 0 2) = true →
        exec (.readParameter p tag payload) s =
          .next (s.answered p 62 tag .ok (.parameter (s.cal.committed.val (natAt payload 0 2))))) ∧
      (natAt payload 2 1 = 1 → isParam (natAt payload 0 2) = true → s.staged = none →
        exec (.readParameter p tag payload) s = .next (s.answered p 62 tag .notOpen .empty)) ∧
      (∀ t, natAt payload 2 1 = 1 → isParam (natAt payload 0 2) = true → s.staged = some t →
        exec (.readParameter p tag payload) s =
          .next (s.answered p 62 tag .ok (.parameter (t.val (natAt payload 0 2)))))) ∧
    (s.accepts p 63 payload = true → exec (.readCalibrationState p tag payload) s =
      .next (s.answered p 63 tag .ok (.calibrationState
        { accessOpen := s.staged.isSome, switchOn := s.switchOn, epoch := s.cal.epoch, notVerified := s.cal.notVerified,
          differences := s.staged.map (fun t => (paramChanges s.cal.committed t).length),
          pointsInOrder := s.staged.map (fun t => t.deckList.map t.pointsInOrder),
          pendingCommits := (s.writes.filter (fun w => w.commit.isSome)).length, audit := s.auditSummary }))) ∧
    (∀ r ∈ s.audit.records, s.accepts p 68 payload = true → r.number = natAt payload 0 4 →
      ∃ q ∈ s.audit.records, q.number = natAt payload 0 4 ∧
        exec (.readAuditRecord p tag payload) s = .next (s.answered p 68 tag .ok (.auditRecord q))) ∧
    (s.accepts p 68 payload = true → (∀ r ∈ s.audit.records, r.number ≠ natAt payload 0 4) →
      exec (.readAuditRecord p tag payload) s = .next (s.answered p 68 tag .noSuchRecord .empty)) ∧
    (s.accepts p 69 payload = true → exec (.readAuditSummary p tag payload) s =
      .next (s.answered p 69 tag .ok (.auditSummary
        { held := s.audit.records.length, oldest := s.audit.records.head?.map (·.number),
          newest := s.audit.records.getLast?.map (·.number),
          next := if 4294967295 < s.audit.next then none else some s.audit.next,
          free := 200 - s.audit.records.length,
          lockoutClaim := if s.locked then some s.lockoutClaimMet else none,
          accessClaim := if s.accessOpen then some s.holderClaimMet else none,
          runClaim := if s.run.isSome then some s.holderClaimMet else none,
          spare := !s.locked, headroom := s.headroom })))

/-- R174, R178, R190, R199, R200, R206: Read Verification, Read Snapshot, List Snapshots, Read Faults, Read Site Time,
Read Site Settings and Read Start Cause. That List Snapshots gives the number left after held numbers are passed over
(log 42), and that Read Faults lists its entries by class and instance (log 46) and its policies by class (log 55), is
the model's choice. -/
def Obligations.EvidenceFaultAndSiteReads : Prop :=
  ((∀ k ∈ [84, 86, 87], ∀ p, permitted k p = true ↔ p ≠ .lane) ∧ (∀ p, permitted 94 p = true) ∧
   ∀ (s : State) (p : Port) (tag : Octet) (payload : List Octet),
     (s.accepts p 84 payload = true → exec (.readVerification p tag payload) s =
       .next (s.answered p 84 tag .ok (.verification s.run s.cal.notVerified))) ∧
     (∀ x ∈ s.evidence, s.accepts p 86 payload = true → x.snapshot.number = natAt payload 0 4 →
       ∃ y ∈ s.evidence, y.snapshot.number = natAt payload 0 4 ∧
         exec (.readSnapshot p tag payload) s = .next (s.answered p 86 tag .ok (.snapshot y.slot y.snapshot))) ∧
     (s.accepts p 86 payload = true → (∀ x ∈ s.evidence, x.snapshot.number ≠ natAt payload 0 4) →
       exec (.readSnapshot p tag payload) s = .next (s.answered p 86 tag .noSuchSnapshot .empty)) ∧
     (s.accepts p 87 payload = true → exec (.listSnapshots p tag payload) s =
       .next (s.answered p 87 tag .ok (.snapshotList
         ([0, 1, 2, 3, 4, 5, 6, 7].map (fun i => (s.evidence.find? (fun x => x.slot = i)).map (fun x =>
           { number := x.snapshot.number, kind := x.snapshot.kind, time := x.snapshot.time, ident := x.snapshot.ident })))
         s.snapshotNumber))) ∧
     (s.accepts p 94 payload = true → exec (.readFaults p tag payload) s =
       .next (s.answered p 94 tag .ok (.faults
         { flag := s.cal.flag, lockout := s.cal.lockout, record := s.cal.lockRecord, policies := faultClasses.map s.policy,
           entries := (s.faults.register.map (·.2)).filter (fun e => e.present || e.outstanding || decide (0 < e.count)),
           fault := s.bridge.holds.fault, byPresent := s.heldByPresent, byFlag := s.cal.flag.isSome,
           byMark := s.heldByMark, byLockout := s.cal.lockout.isSome })))) ∧
  ((∀ p, permitted 3 p = true) ∧ (∀ p, permitted 5 p = true ↔ p ≠ .lane) ∧ (∀ p, permitted 101 p = true ↔ p ≠ .lane) ∧
   ∀ (s : State) (p : Port) (tag : Octet) (payload : List Octet),
     (s.accepts p 3 payload = true → exec (.readSiteTime p tag payload) s =
       .next (s.answered p 3 tag .ok (.siteTime s.site.clock s.clockSet))) ∧
     (s.accepts p 5 payload = true → exec (.readSiteSettings p tag payload) s =
       .next (s.answered p 5 tag .ok (.settings s.site.settings))) ∧
     (s.accepts p 101 payload = true → exec (.readStartCause p tag payload) s =
       .next (s.answered p 101 tag .ok (.startCause s.cal.startRecord s.powered))))

/-! ### The cell bus and the rounds -/

/-- R3: the last octet of a poll has been sent: the reply window of that cell opens, empty. What comes while no window is
open changes nothing. The answer of a window is the eleven octets from the first 0x5A received in it; while they are no
reply the window keeps them and stays open, and once they are eleven and no reply, nothing received later in that window
changes anything. What makes eleven octets a reply to the poll of an address, and how its fields are read. That octets
come in as several commands, each going on where the last one ended, is the model's choice (log 20). -/
def Obligations.PollsOpenAWindowAndDiscardWhatIsNoReply : Prop :=
  (∀ (s : State) (i : Nat), s.running = true → s.commitNote = none → s.bus.poll = .sending i →
     exec .pollSent s = .next { s with bus.poll := .window i [] }) ∧
  (∀ (s : State) (a : List Octet), s.running = true → s.commitNote = none →
     (∀ i received, s.bus.poll ≠ .window i received) → exec (.cellAnswer a) s = .next s) ∧
  (∀ (s : State) (a received : List Octet) (i : Nat), s.running = true → s.commitNote = none →
     s.bus.poll = .window i received →
     let answer := ((received ++ a).dropWhile (· != 0x5A#8)).take 11
     (cellReply answer i = none → exec (.cellAnswer a) s = .next { s with bus.poll := .window i answer }) ∧
     (∀ r, cellReply answer i = some r → pollEndedBy (.cellAnswer a) i received = some (some r)) ∧
     (received.length = 11 → received.head? = some 0x5A#8 → cellReply received i = none →
       exec (.cellAnswer a) s = .next s)) ∧
  (∀ (address : Nat) (a0 a1 s3 s2 s1 s0 c2 c1 c0 st ck : Octet),
    let a := [a0, a1, s3, s2, s1, s0, c2, c1, c0, st, ck]
    (∀ r, cellReply a address = some r →
      a0 = 0x5A#8 ∧ a1.toNat = address ∧ ck = a0 ^^^ a1 ^^^ s3 ^^^ s2 ^^^ s1 ^^^ s0 ^^^ c2 ^^^ c1 ^^^ c0 ^^^ st ∧
      (r.serial : Int) = ((s3 ++ s2 ++ s1 ++ s0 : BitVec 32).toNat : Int) ∧ r.count = (c2 ++ c1 ++ c0 : BitVec 24).toInt ∧
      ((st = 0#8 ∧ r.status = .ok) ∨ (st = 1#8 ∧ r.status = .overRange) ∨ (st = 2#8 ∧ r.status = .internalFault))) ∧
    (a0 = 0x5A#8 → a1.toNat = address →
      ck = a0 ^^^ a1 ^^^ s3 ^^^ s2 ^^^ s1 ^^^ s0 ^^^ c2 ^^^ c1 ^^^ c0 ^^^ st → st.toNat ≤ 2 →
      (cellReply a address).isSome = true))

/-- R3 to R8, R11, R183: the record that each judgement leaves, for a poll that is not the round's last; the
next poll is sent and no other record changes. Of the cell's three fault conditions each is present exactly while its
record has the condition that makes it so: CELL_SILENT for SILENT, CELL_FAULT for FAULTED, CELL_SUBSTITUTED for
SUBSTITUTED. One that becomes present is a raise, which is counted and sets the FAULT source; one that becomes absent
keeps its count. -/
def Obligations.PollJudgementSetsTheCellRecord : Prop :=
  ∀ (s : State) (i next : Nat) (rest : List Nat) (received : List Octet), s.calm = true →
    s.bus.poll = .window i received → s.bus.toPoll = next :: rest →
    (∃ t, exec .replyWindowClose s = .next t ∧
      t.bus.record i =
        { s.bus.record i with
          miss := min ((s.bus.record i).miss + 1) 255
          condition := some (if (s.bus.record i).miss + 1 < 3 then .missing else .silent) } ∧
      (∀ j ≠ i, t.bus.record j = s.bus.record j) ∧ t.bus.poll = .sending next ∧ t.bus.toPoll = rest ∧
      t.bus.inProgress = s.bus.inProgress ∧ t.bus.index = s.bus.index ∧ t.bus.table = s.bus.table ∧
      t = { s with bus := t.bus, bridge := t.bridge, capture := t.capture, axles := t.axles, visits := t.visits,
                   inUse := t.inUse, cal := t.cal, run := t.run, evidence := t.evidence, faults := t.faults,
                   ports := t.ports, writes := t.writes }) ∧
    (∀ (a : List Octet) (r : CellReply), cellReply (answerReceived received a) i = some r →
      ∃ t, exec (.cellAnswer a) s = .next t ∧
        t.bus.record i =
          (if (r.serial : Int) ≠ s.bus.table.serial i then
            { s.bus.record i with miss := 0, condition := some .substituted, lastSerial := some r.serial }
          else
            { s.bus.record i with
              miss := 0
              condition := some (if r.status = .internalFault then .faulted
                else if r.status = .overRange then .overRange else .online)
              lastCount := some r.count
              lastStatus := some r.status
              lastSerial := some r.serial }) ∧
        (∀ j ≠ i, t.bus.record j = s.bus.record j) ∧ t.bus.poll = .sending next ∧ t.bus.toPoll = rest ∧
        t.bus.inProgress = s.bus.inProgress ∧ t.bus.index = s.bus.index ∧ t.bus.table = s.bus.table ∧
        t = { s with bus := t.bus, bridge := t.bridge, capture := t.capture, axles := t.axles, visits := t.visits,
                     inUse := t.inUse, cal := t.cal, run := t.run, evidence := t.evidence, faults := t.faults,
                     ports := t.ports, writes := t.writes }) ∧
    (∀ (c : Instr) (reply : Option CellReply), pollEndedBy c i received = some reply → 1 ≤ i → i ≤ 16 →
      ∃ t, exec c s = .next t ∧ t.bus.record i = (s.bus.record i).judged (s.bus.table.serial i) reply ∧
        ∀ f ∈ [FaultClass.cellSilent, .cellFault, .cellSubstituted],
          let old := s.faultEntry (cellKey f i)
          let stands := (f = .cellSilent ∧ (t.bus.record i).condition = some .silent) ∨
            (f = .cellFault ∧ (t.bus.record i).condition = some .faulted) ∨
            (f = .cellSubstituted ∧ (t.bus.record i).condition = some .substituted)
          (stands → old.present = false →
            t.faultEntry (cellKey f i) =
              { key := cellKey f i, present := true, outstanding := old.outstanding,
                count := min (old.count + 1) 65535, raisedAt := some s.site.clock } ∧
            t.bridge.holds.fault = true ∧ t.held = true) ∧
          (stands → old.present = true → t.faultEntry (cellKey f i) = old) ∧
          (¬stands → t.faultEntry (cellKey f i) = { old with present := false }))

/-- R2, R4, R9, R10, R31: the poll that is the round's last, ended by a reply or by the close of its window, ends the
round. The values computed from the records as that poll leaves them replace the latest, a valid round's and an invalid
one's alike. Within its period the round is handed over under its index, the overrun count is 0 and no poll is sent
until the timer expires; an overrun round is handed over with its mark and the next round starts at once, with the next
index; with no CONFIGURED address that round ends at the moment it starts (R1). -/
def Obligations.LastPollEndsTheRound : Prop :=
  (∀ (s : State) (c : Instr) (i : Nat) (received : List Octet) (reply : Option CellReply), s.calm = true →
     s.bus.poll = .window i received → pollEndedBy c i received = some reply → s.bus.toPoll = [] → s.bus.overrun = false →
     let v := (s.polled i reply).computeRound
     ∃ t, exec c s = .next t ∧ t.bus.inProgress = false ∧ t.bus.poll = .idle ∧
       t.bus.record i = (s.bus.record i).judged (s.bus.table.serial i) reply ∧
       (∀ j ≠ i, t.bus.record j = s.bus.record j) ∧
       t.bus.handedIndex = s.bus.index ∧ t.bus.index = s.bus.index ∧ t.bus.overruns = 0 ∧
       t.bus.handedValid = s.bus.table.deckList.map (fun d => deckCellValid s.bus.table (s.polled i reply).bus d) ∧
       t.bus.periodTimer = s.bus.periodTimer ∧ t.weigh.latest = some v ∧ v.index = s.bus.index ∧ v.overrun = false ∧
       v.decks.length = s.bus.table.decks ∧ (v.valid = true ↔ ∀ d ∈ v.decks, d.gross.isSome = true) ∧
       t.weigh.rounds = s.weigh.rounds + 1 ∧ t.weigh.roundTable = s.bus.table ∧
       t = { s with bus := t.bus, weigh := t.weigh, capture := t.capture, bridge := t.bridge, axles := t.axles,
                    visits := t.visits, inUse := t.inUse, tares := t.tares, tickets := t.tickets, cal := t.cal,
                    run := t.run, evidence := t.evidence, faults := t.faults, ports := t.ports, writes := t.writes,
                    choices := t.choices }) ∧
  (∀ (s : State) (c : Instr) (i first : Nat) (rest : List Nat) (received : List Octet) (reply : Option CellReply),
     s.calm = true → s.bus.poll = .window i received → pollEndedBy c i received = some reply → s.bus.toPoll = [] → s.bus.overrun = true →
     s.tableInUse.configuredList = first :: rest →
     let v := (s.polled i reply).computeRound
     ∃ t, exec c s = .next t ∧ t.weigh.latest = some v ∧ v.index = s.bus.index ∧ v.overrun = true ∧
       t.bus.handedIndex = s.bus.index ∧
       t.bus.inProgress = true ∧ t.bus.poll = .sending first ∧ t.bus.toPoll = rest ∧ t.bus.overrun = false ∧
       t.bus.periodTimer = true ∧ t.bus.table = s.tableInUse ∧ t.bus.overruns = s.bus.overruns ∧
       t.bus.index = (if s.bus.index = 4294967295 then 1 else s.bus.index + 1) ∧
       t = { s with bus := t.bus, weigh := t.weigh, capture := t.capture, bridge := t.bridge, axles := t.axles,
                    visits := t.visits, inUse := t.inUse, tares := t.tares, tickets := t.tickets, cal := t.cal,
                    run := t.run, evidence := t.evidence, faults := t.faults, ports := t.ports, writes := t.writes,
                    choices := t.choices }) ∧
  (∀ (s : State) (c : Instr) (i : Nat) (received : List Octet) (reply : Option CellReply),
     s.calm = true → s.bus.poll = .window i received → pollEndedBy c i received = some reply → s.bus.toPoll = [] →
     s.bus.overrun = true → s.tableInUse.configuredList = [] →
     ∃ t v, exec c s = .next t ∧ t.weigh.latest = some v ∧ v.index = t.bus.index ∧ v.overrun = false ∧
       t.bus.handedIndex = t.bus.index ∧
       t.bus.inProgress = false ∧ t.bus.poll = .idle ∧ t.bus.periodTimer = true ∧ t.bus.table = s.tableInUse ∧
       t.bus.overruns = 0 ∧ t.bus.index = (if s.bus.index = 4294967295 then 1 else s.bus.index + 1) ∧
       t = { s with bus := t.bus, weigh := t.weigh, capture := t.capture, bridge := t.bridge, axles := t.axles,
                    visits := t.visits, inUse := t.inUse, tares := t.tares, tickets := t.tickets, cal := t.cal,
                    run := t.run, evidence := t.evidence, faults := t.faults, ports := t.ports, writes := t.writes,
                    choices := t.choices })

/-- R32, R38, R41, R71, R73, R104, R115, R180: what a round, an overrun round too, brings to the blocks that take it,
where no capture waits: the stability judgement, the start-up zero, the trace, the vehicle that has left, the end of
OCCUPIED_UNKNOWN, the last stable weight. The occupancy threshold, the centres and Max are those of the round's table
(log 17); the order in which the blocks take the round (log 7) does not show here. -/
def Obligations.RoundReachesZeroBridgeAndTrace : Prop :=
  ∀ (s : State) (c : Instr) (r : RoundValues), s.endsRound c r = true → s.capture.waiting = none →
    let j := s.judgedOn r
    let starts := s.weigh.zeroUnset = true ∧ j.weigh.stable = true ∧
      ∀ d v, (d, v) ∈ numbered r.decks →
        ∃ f, v.filtered = some f ∧ |f - s.bus.table.zero0 d| ≤ s.bus.table.deckMax d * 100
    let low := ∃ w, r.rounded = some w ∧ w < s.bus.table.occupancyKg
    let onBridge := s.bridge.state = .occupied ∨ s.bridge.state = .released
    ∃ t, exec c s = .next t ∧ t.weigh.latest = some r ∧ t.weigh.stable = j.weigh.stable ∧
      (starts → t.weigh.zeroUnset = false ∧ t.weigh.window.length = j.weigh.window.length ∧
        ∀ d v f, (d, v) ∈ numbered r.decks → v.filtered = some f →
          Table.get? t.weigh.zero d = some f ∧ Table.get? t.weigh.startZero d = some f) ∧
      (¬starts → t.weigh.zeroUnset = s.weigh.zeroUnset ∧ t.weigh.zero = s.weigh.zero ∧
        t.weigh.startZero = s.weigh.startZero ∧ t.weigh.window = j.weigh.window) ∧
      t.faults.lastStable = (if j.weigh.stable then r.rounded else s.faults.lastStable) ∧
      (onBridge → j.weigh.stable = true → low → s.axles.entered = s.axles.exited →
        t.axles.entered = 0 ∧ t.axles.exited = 0 ∧ t.axles.axleCount = false ∧ t.bridge.advance = false ∧
        t.bridge.withheld = false ∧ t.capture.arm = (s.capture.arm && s.bridge.state ≠ .occupied) ∧
        (s.bridge.waiting = [] →
          t.bridge.state = .free ∧ t.bridge.grant = none ∧ t.inUse = none ∧ t.bridge.aspectA = .red ∧
          t.bridge.aspectB = .red ∧
          (∀ q v, s.inUse = some q → Table.get? s.visits q = some v → Table.get? t.visits q = some v.returned ∧
            (s.run = none → v.inProgress = true →
              t.ports = (s.told [.gatehouse, .lane] (.leftUnweighed v.ident v.weighing v.draft.used)).ports)) ∧
          (∀ q, s.inUse ≠ some q → Table.get? t.visits q = Table.get? s.visits q)) ∧
        (∀ q, selectEntry s.bridge.waiting = some q → s.held = false →
          t.bridge.state = .granted ∧ t.bridge.grant = some { ident := q.ident, entryEnd := q.entryEnd }) ∧
        (s.bridge.holds.gatehouse = true ∨ s.bridge.holds.lane = true →
          t.bridge.state = .free ∧ t.bridge.waiting = s.bridge.waiting)) ∧
      (onBridge → ¬(j.weigh.stable = true ∧ low ∧ s.axles.entered = s.axles.exited) →
        t.bridge = s.bridge ∧ t.visits = s.visits ∧ t.inUse = s.inUse ∧ t.capture = s.capture ∧
        t.axles.entered = s.axles.entered ∧ t.axles.exited = s.axles.exited ∧
        (s.bridge.state = .occupied → s.axles.trace.frozen = none →
          t.axles.trace = { s.axles.trace with
            samples := lastN 512 (s.axles.trace.samples ++ [{ round := r.index, gross := r.gross,
                                                              events := s.axles.trace.events,
                                                              further := s.axles.trace.further }])
            events := [], further := 0 })) ∧
      (s.axles.trace.frozen ≠ none → s.bridge.state = .occupied → s.axles.entered ≠ s.axles.exited →
        t.axles.trace = { s.axles.trace with events := [], further := 0 }) ∧
      (s.bridge.state = .occupiedUnknown →
        ((s.bridge.startMark = true ∨ j.weigh.stable = true) → low →
          t.axles.entered = 0 ∧ t.axles.exited = 0 ∧ t.bridge.startMark = false ∧
          (s.bridge.waiting = [] → t.bridge.state = .free ∧ t.bridge.grant = s.bridge.grant) ∧
          (∀ q, selectEntry s.bridge.waiting = some q → s.held = false →
            t.bridge.state = .granted ∧ t.bridge.grant = some { ident := q.ident, entryEnd := q.entryEnd })) ∧
        (∀ w, r.rounded = some w → s.bus.table.occupancyKg ≤ w →
          t.bridge = { s.bridge with startMark := false } ∧ t.axles.entered = s.axles.entered) ∧
        (r.rounded = none ∨ (s.bridge.startMark = false ∧ j.weigh.stable = false) →
          t.bridge = s.bridge ∧ t.axles.entered = s.axles.entered)) ∧
      (s.bridge.state = .free ∨ s.bridge.state = .granted → t.bridge = s.bridge ∧ t.axles.entered = s.axles.entered) ∧
      t = { s with bus := t.bus, weigh := t.weigh, capture := t.capture, bridge := t.bridge, axles := t.axles,
                   visits := t.visits, inUse := t.inUse, run := t.run, faults := t.faults, ports := t.ports,
                   writes := t.writes, choices := t.choices }

/-- R49, R50, R54, R69, R94, R100, R101, R113, R114, R122, R127, R133, R134, R136, R139, R140, R175: what a round, an
overrun round too, brings to a WAITING capture. A round that completes the wait refuses it or resolves its draft, and an
accepted draft is taken by the Visit Table and, where it completes the weighing, by the Tare Table and the Ticket Unit,
which moves its sequence, ring and totals on. An accepted draft with an OVER verdict, and no other, takes a snapshot and
freezes the trace; the snapshot has the completing round and the records as the last poll left them. Each form hands
exactly the notices of its rules to the queues. A round that shows the vehicle gone as well is taken by the Capture Unit
and the Bridge Arbiter in either order (a free choice: log 7). Thresholds and bands are those of the round's table (log
17). -/
def Obligations.RoundCompletesACapture : Prop :=
  ∀ (s : State) (c : Instr) (r : RoundValues) (cap : Capture), s.endsRound c r = true → s.bridge.state = .occupied →
    s.held = false → s.capture.waiting = some cap →
    let ended (code : Status) (round : Option Nat) : CaptureUnit :=
      { s.capture with
        waiting := none, arm := false
        lastOutcome := some { origin := cap.origin, ident := some cap.ident, outcome := code, round := round } }
    let outcome (code : Status) (accepted : Option AcceptedCapture) : List (Port × Notice) :=
      [(cap.origin.port, .captureOutcome cap.origin cap.ident code accepted)]
    let refused (code : Status) (news : List (Port × Notice)) (t : State) : Prop :=
      t.capture = ended code (some r.index) ∧ t.bridge = s.bridge ∧ t.visits = s.visits ∧ t.inUse = s.inUse ∧
      t.tares = s.tares ∧ t.tickets = s.tickets ∧ t.cal = s.cal ∧ t.evidence = s.evidence ∧
      t.ports = (t.heard s (outcome code none ++ news)).ports
    let frozen (d : DraftResult) : FreezeRecord :=
      { reason := .overVerdict, ident := cap.ident, round := r.index, draft := some d.draft.used }
    let evidenced (d : DraftResult) (t : State) : Prop :=
      let slot := chooseEvidenceSlot s.evidence .overVerdict
      let seen : State := { s.judgedOn r with bus := (s.lastPolled c).bus }
      (d.anyOver = true →
        t.evidence = s.evidence.filter (fun x => x.slot ≠ slot) ++
          [{ slot := slot
             snapshot := seen.snapshotOf s.snapshotNumber .overVerdict (some d.draft.used) }] ∧
        t.cal.snapshotNext = nextSnapshotNumber s.snapshotNumber ∧
        t.axles.trace.frozen = some (s.axles.trace.frozen.getD (frozen d))) ∧
      (d.anyOver = false → t.evidence = s.evidence ∧ t.cal.snapshotNext = s.cal.snapshotNext ∧
        t.axles.trace.frozen = s.axles.trace.frozen)
    let accepted (d : DraftResult) : List (Port × Notice) :=
      outcome .accepted (some { round := r.index, weight := r.rounded.getD 0, draft := d.draft.used }) ++
        s.overNews d (frozen d)
    let tradeBarred := s.staged ≠ none ∨ s.cal.lockout ≠ none ∨ s.cal.notVerified = true
    ∃ t, exec c s = .next t ∧ t.weigh.latest = some r ∧
      (s.completesWait r cap.restart = false → s.seesLeft r = false → t.capture = s.capture ∧ t.bridge = s.bridge) ∧
      (s.completesWait r cap.restart = false → s.seesLeft r = true → t.capture.waiting = none ∧
        t.capture.lastOutcome = (ended .noVehicle none).lastOutcome ∧
        (∀ pos v, s.inUse = some pos → Table.get? s.visits pos = some v → v.inProgress = true →
          t.ports = (t.heard s (outcome .noVehicle none ++
            notesTo [.gatehouse, .lane] (.leftUnweighed v.ident v.weighing v.draft.used) ++ s.grantNews t)).ports)) ∧
      (∀ pos v, s.completesWait r cap.restart = true → s.seesLeft r = true → s.inUse = some pos →
        Table.get? s.visits pos = some v → v.inProgress = true →
        (∀ cfg, s.configOf v = some cfg → ∀ g ∈ cfg.groups, 1 ≤ g.axles) →
        t.capture.waiting = none ∧
        (t.capture.lastOutcome = (ended .noVehicle none).lastOutcome ∨
          (tradeBarred ∧ t.capture.lastOutcome = (ended .notForTrade (some r.index)).lastOutcome) ∨
          (¬tradeBarred ∧ r.range ≠ .normal ∧
            t.capture.lastOutcome = (ended .range (some r.index)).lastOutcome) ∨
          (¬tradeBarred ∧ r.range = .normal ∧ t.capture.lastOutcome =
            (ended (if s.configOf v = none then .notWhollyOn
                    else if s.axles.axleCount = true then .axleCount else .noGroup) (some r.index)).lastOutcome))) ∧
      (s.completesWait r cap.restart = true → s.seesLeft r = false →
        (tradeBarred → refused .notForTrade [] t) ∧
        (¬tradeBarred → r.range ≠ .normal → refused .range [] t) ∧
        (∀ pos v, ¬tradeBarred → r.range = .normal → s.inUse = some pos → Table.get? s.visits pos = some v →
          v.inProgress = true →
          (∀ code, resolveDraft (s.configOf v) ((s.judgedOn r).handoff v r) = .refused code → refused code [] t) ∧
          (∀ first last groups decks,
            resolveDraft (s.configOf v) ((s.judgedOn r).handoff v r) = .straddle first last groups decks →
            let freeze : FreezeRecord := { reason := .straddle, ident := cap.ident, round := r.index, draft := none }
            refused .straddle ((.lane, .reposition cap.ident first last groups decks) :: s.freezeNews freeze) t ∧
            t.axles.trace.frozen = some (s.axles.trace.frozen.getD freeze)) ∧
          (∀ d, resolveDraft (s.configOf v) ((s.judgedOn r).handoff v r) = .result d →
            (d.content = none →
              t.capture = ended .accepted (some r.index) ∧
              t.visits = Table.set s.visits pos { v with draft := d.draft } ∧ t.inUse = s.inUse ∧
              t.bridge.state = .occupied ∧ t.bridge.grant = s.bridge.grant ∧ t.bridge.advance = true ∧
              t.bridge.withheld = (s.bridge.withheld || (d.anyOver && s.site.settings.holdExit)) ∧
              t.tares = s.tares ∧ t.tickets = s.tickets ∧ evidenced d t ∧
              t.cal = { s.cal with snapshotNext := t.cal.snapshotNext } ∧
              t.ports = (t.heard s (accepted d)).ports) ∧
            (∀ w, d.content = some w →
              let record : WeighRecord :=
                { weight := w.weight, source := w.source, epoch := s.cal.epoch, time := s.site.clock,
                  groups := w.groups, combination := w.combination, inconsistent := w.inconsistent,
                  drafts := w.drafts }
              let first : Visit :=
                { v with state := .awaitingSecond, first := some record
                         draft := { used := 0, groups := [], inconsistent := false }, age := 0 }
              let learned : Tare :=
                { ident := v.ident, tare := w.weight, origin := .learned, epoch := s.cal.epoch
                  stored := s.site.clock.date, cls := v.cls }
              let learnt := (s.learnTare learned).tares
              let complete (news : List (Port × Notice)) :=
                t.capture.waiting = none ∧ t.capture.arm = false ∧
                t.capture.lastOutcome = (ended .accepted (some r.index)).lastOutcome ∧
                t.bridge.grant = s.bridge.grant ∧ t.bridge.advance = false ∧
                t.bridge.withheld = (s.bridge.withheld || (d.anyOver && s.site.settings.holdExit)) ∧
                t.bridge.state = (if t.bridge.withheld = true then .occupied else .released) ∧ evidenced d t ∧
                t.ports = (t.heard s (accepted d ++ news ++
                  (if t.bridge.withheld = true then notesTo [.gatehouse, .lane] (.exitWithheld cap.ident)
                   else []))).ports
              let awaits (news : List (Port × Notice)) :=
                complete ((.gatehouse, .firstWeighed v.ident v.kind w.weight w.source w.combination w.drafts) :: news) ∧
                t.visits = Table.set s.visits pos first ∧ t.inUse = s.inUse ∧ t.tickets = s.tickets ∧
                t.cal = { s.cal with snapshotNext := t.cal.snapshotNext }
              let ticketed (h : TicketHandoff) (news : List (Port × Notice)) :=
                let k := ticketOf s.nextKey v h
                complete (s.issueNews k ++ news) ∧ t.visits = Table.erase s.visits pos ∧ t.inUse = none ∧
                t.tickets = { ring := s.tickets.ring ++ [k], shift := s.tickets.shift.take k, last := s.tickets.last } ∧
                t.cal = { (s.issueTicket v h).cal with snapshotNext := t.cal.snapshotNext }
              (v.state = .firstInProgress → v.kind = .collection → v.learn = false →
                awaits [] ∧ t.tares = s.tares) ∧
              (v.state = .firstInProgress → v.kind = .collection → v.learn = true →
                awaits (s.learnNews learned) ∧ t.tares = learnt) ∧
              (v.state = .firstInProgress → v.kind = .delivery → v.useStored = false →
                awaits [] ∧ t.tares = s.tares) ∧
              (∀ slot tare, v.state = .firstInProgress → v.kind = .delivery → v.useStored = true →
                s.lookup v.ident = .found slot tare →
                (64 ≤ s.tickets.ring.length → refused .ticketStoreFull [] t) ∧
                (s.tickets.ring.length < 64 → s.cal.exhausted = true → refused .sequenceExhausted [] t) ∧
                (s.tickets.ring.length < 64 → s.cal.exhausted = false →
                  ticketed (.stored record tare) [] ∧ t.tares = s.tares.looked (s.lookup v.ident))) ∧
              (∀ why, v.state = .firstInProgress → v.kind = .delivery → v.useStored = true →
                (s.lookup v.ident = .notHeld ∧ why = .notHeld) ∨
                  ((∃ slot, s.lookup v.ident = .expired slot) ∧ why = .expired) →
                awaits (notesTo [.gatehouse, .lane] (.tareGone v.ident w.weight why)) ∧
                t.tares = s.tares.looked (s.lookup v.ident)) ∧
              (∀ before, v.state = .secondInProgress → v.first = some before →
                (64 ≤ s.tickets.ring.length → refused .ticketStoreFull [] t) ∧
                (s.tickets.ring.length < 64 → s.cal.exhausted = true → refused .sequenceExhausted [] t) ∧
                (s.tickets.ring.length < 64 → s.cal.exhausted = false →
                  (v.learn = true → v.kind = .delivery →
                    ticketed (.weighed before record) (s.learnNews learned) ∧ t.tares = learnt) ∧
                  (v.learn = false ∨ v.kind = .collection →
                    ticketed (.weighed before record) [] ∧ t.tares = s.tares))))))) ∧
      t = { s with bus := t.bus, weigh := t.weigh, capture := t.capture, bridge := t.bridge, axles := t.axles,
                   visits := t.visits, inUse := t.inUse, tares := t.tares, tickets := t.tickets, cal := t.cal,
                   run := t.run, evidence := t.evidence, faults := t.faults, ports := t.ports, writes := t.writes,
                   choices := t.choices }

/-- R166, R167: what a round, an overrun round too, brings to a waiting test point: it waits on, is ended with RANGE, or
is recorded with the indicated value, the error, the mpe of its band and the verdict, e being that of the round's
table. -/
def Obligations.RoundCompletesATestPoint : Prop :=
  ∀ (s : State) (c : Instr) (r : RoundValues) (run : Run) (w : WaitingPoint), s.endsRound c r = true →
    s.capture.waiting = none → s.run = some run → run.waiting = some w →
    ∃ t, exec c s = .next t ∧ t.weigh.latest = some r ∧
      (s.completesWait r w.restart = false → t.run = s.run) ∧
      (s.completesWait r w.restart = true → r.range ≠ .normal → t.run = some { run with waiting := none } ∧
        (s.bridge.state = .free → t.ports =
          (s.told [.metrology] (.testPointEnded w.target w.reference .range)).ports)) ∧
      (∀ g, s.completesWait r w.restart = true → r.range = .normal →
        (match w.target with
          | .bridge => r.gross
          | .deck d => (r.decks[d - 1]?).bind (·.gross)) = some g →
        let limit := if w.reference ≤ 500 * s.bus.table.e then s.bus.table.e * 500
          else if w.reference ≤ 2000 * s.bus.table.e then s.bus.table.e * 1000 else s.bus.table.e * 1500
        let point : TestPoint :=
          { number := run.points.length + 1, target := w.target, reference := w.reference, round := r.index
            indicated := g, error := g - w.reference * 1000, mpe := limit
            pass := decide (|g - w.reference * 1000| ≤ limit), time := s.site.clock }
        t.run = some { run with points := run.points ++ [point], waiting := none } ∧
        (s.bridge.state = .free → t.ports = (s.told [.metrology] (.testPointRecorded point)).ports)) ∧
      t = { s with bus := t.bus, weigh := t.weigh, capture := t.capture, bridge := t.bridge, axles := t.axles,
                   visits := t.visits, inUse := t.inUse, run := t.run, faults := t.faults, ports := t.ports,
                   writes := t.writes, choices := t.choices }

/-- R1, R2, R10: the expiry of the period timer: a round in progress becomes an overrun round and the count rises,
holding at 3; else the next round starts with the table in use, or, with no CONFIGURED address, ends at the moment it
starts. That the expiry of a stopped timer does nothing is the model's reading (log 6). -/
def Obligations.PeriodExpiryMarksOrStartsARound : Prop :=
  ∀ s : State, s.calm = true →
    (s.bus.periodTimer = false → exec .roundPeriodExpiry s = .next s) ∧
    (s.bus.periodTimer = true → s.bus.inProgress = true →
      ∃ t, exec .roundPeriodExpiry s = .next t ∧
        t.bus = { s.bus with overrun := true, periodTimer := false, overruns := min (s.bus.overruns + 1) 3 } ∧
        (s.bus.overruns = 2 → (t.faultEntry overrunKey).present = true ∧ t.bridge.holds.fault = true) ∧
        t = { s with bus := t.bus, bridge := t.bridge, capture := t.capture, axles := t.axles, visits := t.visits,
                     inUse := t.inUse, cal := t.cal, run := t.run, evidence := t.evidence, faults := t.faults,
                     ports := t.ports, writes := t.writes }) ∧
    (∀ first rest, s.bus.periodTimer = true → s.bus.inProgress = false → s.tableInUse.configuredList = first :: rest →
      ∃ t, exec .roundPeriodExpiry s = .next t ∧ t.bus.inProgress = true ∧ t.bus.poll = .sending first ∧
        t.bus.toPoll = rest ∧ t.bus.overrun = false ∧ t.bus.periodTimer = true ∧ t.bus.table = s.tableInUse ∧
        t.bus.overruns = s.bus.overruns ∧
        t.bus.index = (if s.bus.index = 4294967295 then 1 else s.bus.index + 1) ∧
        (∀ j, s.tableInUse.configured j = (s.bus.record j).configured → t.bus.record j = s.bus.record j) ∧
        t = { s with bus := t.bus, bridge := t.bridge, axles := t.axles, visits := t.visits, inUse := t.inUse,
                     faults := t.faults, ports := t.ports, writes := t.writes }) ∧
    (s.bus.periodTimer = true → s.bus.inProgress = false → s.tableInUse.configuredList = [] →
      ∃ t v, exec .roundPeriodExpiry s = .next t ∧ t.bus.inProgress = false ∧ t.bus.periodTimer = true ∧
        t.weigh.latest = some v ∧ v.index = t.bus.index ∧
        t.bus.index = (if s.bus.index = 4294967295 then 1 else s.bus.index + 1) ∧
        t = { s with bus := t.bus, weigh := t.weigh, capture := t.capture, bridge := t.bridge, axles := t.axles,
                     visits := t.visits, inUse := t.inUse, tares := t.tares, tickets := t.tickets, cal := t.cal,
                     run := t.run, evidence := t.evidence, faults := t.faults, ports := t.ports, writes := t.writes,
                     choices := t.choices })

/-! ### Weight arithmetic -/

/-- R16: the nearest integer to a quotient, an exact half going away from zero. -/
def Obligations.RoundingIsToNearestHalfAwayFromZero : Prop :=
  ∀ n d : Int, d ≠ 0 →
    2 * |n - d * roundDiv n d| ≤ |d| ∧ (2 * |n - d * roundDiv n d| = |d| → |n| < |d * roundDiv n d|)

/-- R22, R24: the linearized value of a deck whose points are in order is its raw sum with the correction, and the
correction has the four cases of the table, is exact at each point and stays within the points' corrections and 0. A
filter history holds at most 16 values: a new value joins the earlier ones, of 16 the oldest being removed. The filtered
value is the rounded average of the most recent values, the smaller of N and the number held. -/
def Obligations.CorrectionFollowsThePoints : Prop :=
  (∀ (t : CalTable) (d : Nat) (raw : Int), t.pointsInOrder d = true →
     linearize t d raw = raw + correction (t.points d) raw) ∧
  (∀ (t : CalTable) (h : List Int) (v : Int), 1 ≤ t.depth → h.length ≤ 16 →
    (h.length < 16 → appendHistory h v = h ++ [v]) ∧ (h.length = 16 → appendHistory h v = h.tail ++ [v]) ∧
    (appendHistory h v).length = min (h.length + 1) 16 ∧
    filtered t (appendHistory h v)
      = roundDiv (((appendHistory h v).reverse.take (min t.depth (appendHistory h v).length)).sum)
          (min t.depth (appendHistory h v).length : Nat)) ∧
  ∀ (points : List (Int × Int)), pointsRise 0 points = true →
    (∀ raw, points = [] ∨ raw ≤ 0 → correction points raw = 0) ∧
    (∀ w e rest raw, points = (w, e) :: rest → 0 < raw → raw ≤ w → correction points raw = roundDiv (e * raw) w) ∧
    (∀ before w e w' e' rest raw, points = before ++ (w, e) :: (w', e') :: rest → w < raw → raw ≤ w' →
      correction points raw = e + roundDiv ((e' - e) * (raw - w)) (w' - w)) ∧
    (∀ w e raw, points.getLast? = some (w, e) → w < raw → correction points raw = e) ∧
    (∀ w e, (w, e) ∈ points → correction points w = e) ∧
    (∀ lo hi raw, lo ≤ 0 → 0 ≤ hi → (∀ q ∈ points, lo ≤ q.2 ∧ q.2 ≤ hi) →
      lo ≤ correction points raw ∧ correction points raw ≤ hi)

/-- R29: on a round in which all D decks are valid, the sum of the D rounded deck weights differs from the rounded
bridge weight by at most e × ⌊(D+1)/2⌋, which is 1e for one or two decks and 2e for three or four. -/
def Obligations.RoundedDecksStayNearTheRoundedBridge : Prop :=
  ∀ (s : State) (w : Int), 0 < s.bus.table.e → s.computeRound.rounded = some w →
    (∀ d ∈ s.computeRound.decks, d.rounded.isSome = true) ∧
    |(s.computeRound.decks.map (fun d => d.rounded.getD 0)).sum - w|
      ≤ s.bus.table.e * (((s.bus.table.decks + 1) / 2 : Nat) : Int)

/-- R18 to R21, R24 to R28, R30, R31: the values of a round. Each cell weight is rounded on its own, and their exact
sum is the deck raw sum. A deck with no cell, with a cell that is not ONLINE, or with a raw sum beyond four times its
Max is invalid for that reason and keeps no history; any other appends its linearized value to its history, which is
cleared first where its cells are not those of the previous round. The bridge gross is the sum of the deck grosses,
where every deck has one; the rounded weights and the range verdicts follow from the grosses. -/
def Obligations.ValidRoundSumsItsDeckGrosses : Prop :=
  ∀ s : State,
    let t := s.bus.table
    let v := s.computeRound
    let above (most gross : Int) : Prop := (most + 9 * t.e) * 1000 < gross
    let below (gross : Int) : Prop := gross < -(20 * t.e * 1000)
    v.index = s.bus.index ∧ v.overrun = s.bus.overrun ∧ v.decks.length = t.decks ∧
    -- each deck of the table
    (∀ d x, (d, x) ∈ numbered v.decks →
      let cells := addresses.filter (fun i => t.val (1000 + 10 * i) = (d : Int))
      let counted := ∀ i ∈ cells, (s.bus.record i).condition = some .online
      let raw := (cells.map (fun i =>
        roundDiv (((s.bus.record i).lastCount.getD 0 - t.val (1000 + 10 * i + 1)) * t.val (1000 + 10 * i + 2))
          65536)).sum
      let beyond := 4 * t.val (100 * d) * 1000 < |raw|
      let before := (Table.get? s.weigh.histories d).getD []
      let same := d ≤ s.weigh.roundTable.decks ∧
        cells = addresses.filter (fun i => s.weigh.roundTable.val (1000 + 10 * i) = (d : Int))
      let withdrawn (why : DeckValidity) (sum : Option Int) : Prop :=
        x = { x with validity := why, raw := sum, linearized := none, filtered := none, filterCount := none,
                     gross := none, rounded := none, range := none } ∧
        Table.get? s.newHistories d = none
      x.linearizationDisabled = !pointsRise 0 (t.points d) ∧
      x.zeroUsed = (Table.get? s.weigh.zero d).getD (t.val (100 * d + 1)) ∧
      (cells = [] → withdrawn .noCells none) ∧
      (cells ≠ [] → ¬counted → withdrawn .cell none) ∧
      (cells ≠ [] → counted → beyond → withdrawn .grossRange (some raw)) ∧
      (cells ≠ [] → counted → ¬beyond →
        ∃ h : List Int, Table.get? s.newHistories d = some h ∧
          (same → h = appendHistory before (linearize t d raw)) ∧ (¬same → h = [linearize t d raw]) ∧
          ∃ f : Int, f = filtered t h ∧ x.validity = .valid ∧ x.raw = some raw ∧
            x.linearized = some (linearize t d raw) ∧ x.filtered = some f ∧
            x.filterCount = some (min t.depth h.length) ∧ x.gross = some (f - x.zeroUsed) ∧
            x.rounded = some (t.e * roundDiv (f - x.zeroUsed) (1000 * t.e)) ∧
            (x.range = some .overload ↔ above (t.val (100 * d)) (f - x.zeroUsed)) ∧
            (x.range = some .underload ↔ ¬above (t.val (100 * d)) (f - x.zeroUsed) ∧ below (f - x.zeroUsed)) ∧
            (x.range = some .normal ↔ ¬above (t.val (100 * d)) (f - x.zeroUsed) ∧ ¬below (f - x.zeroUsed)))) ∧
    (∀ d, t.decks < d → Table.get? s.newHistories d = none) ∧
    -- the bridge
    (v.valid = true ↔ ∀ x ∈ v.decks, x.gross ≠ none) ∧
    (v.valid = false → v.gross = none ∧ v.rounded = none ∧ v.bridgeRange = none) ∧
    (v.valid = true →
      ∃ g : Int, v.gross = some g ∧ g = (v.decks.map (fun x => x.gross.getD 0)).sum ∧
        v.rounded = some (t.e * roundDiv g (1000 * t.e)) ∧
        (v.bridgeRange = some .overload ↔ above t.bridgeMax g) ∧
        (v.bridgeRange = some .underload ↔ ¬above t.bridgeMax g ∧ below g) ∧
        (v.bridgeRange = some .normal ↔ ¬above t.bridgeMax g ∧ ¬below g)) ∧
    -- the range verdict of the round
    (let any (w : RangeVerdict) : Prop := v.bridgeRange = some w ∨ ∃ x ∈ v.decks, x.range = some w
     (v.range = .overload ↔ any .overload) ∧ (v.range = .underload ↔ ¬any .overload ∧ any .underload) ∧
     (v.range = .normal ↔ ¬any .overload ∧ ¬any .underload))

/-- R38, R39, R49: the window takes a valid round as its most recent entry, with the moment of the round, and keeps the
earlier entries in their order, of 32 without the oldest; the round is stable exactly where the S most recent entries
exist and lie within the band. An invalid round empties the window. -/
def Obligations.StabilityIsJudgedOnTheRecentGrosses : Prop :=
  ∀ (s : State) (v : RoundValues), s.weigh.latest = some v → 1 ≤ s.weigh.roundTable.stabilityRounds →
    (v.gross = none → s.judgeStability.weigh.window = [] ∧ s.judgeStability.weigh.stable = false) ∧
    (∀ g, v.gross = some g →
      let entry : WindowEntry := { gross := g, index := v.index, moment := s.weigh.rounds }
      s.judgeStability.weigh.window = (s.weigh.window ++ [entry]).drop (s.weigh.window.length + 1 - 32) ∧
      (s.judgeStability.weigh.stable = true ↔
        s.weigh.roundTable.stabilityRounds ≤ s.judgeStability.weigh.window.length ∧
        ∀ a ∈ lastN s.weigh.roundTable.stabilityRounds s.judgeStability.weigh.window,
          ∀ b ∈ lastN s.weigh.roundTable.stabilityRounds s.judgeStability.weigh.window,
            a.gross - b.gross ≤ s.weigh.roundTable.val 7 * 250 * s.weigh.roundTable.e))

/-- R40, R42, R43: Zero Set: its refusals in order, and what it sets; setting zero offsets moves every gross of the
window by the sum of the changes, and a setting that changes no offset leaves the window. The start-up zero sets both
zeros of every deck to its filtered value and leaves ZERO_UNSET. The start-up range is read from the table of the
latest round, the working range by deck Max of the table in use (log 17), and the window moves by the change since the
latest round at each setting (log 18). -/
def Obligations.ZeroSetChecksSetsAndAdjusts : Prop :=
  (∀ (s : State) (decks : List DeckValues) (news : List (Nat × Int)),
     (∀ d, Table.get? (s.setZeros decks news).weigh.zero d = Table.get? (putZeros s.weigh.zero news) d) ∧
     (putZeros s.weigh.zero news = s.weigh.zero → s.setZeros decks news = s) ∧
     (putZeros s.weigh.zero news ≠ s.weigh.zero →
       (s.setZeros decks news).weigh.window = s.weigh.window.map (fun w => { w with gross := w.gross -
         ((numbered decks).map (fun e => (Table.get? (putZeros s.weigh.zero news) e.1).getD e.2.zeroUsed
           - e.2.zeroUsed)).sum }))) ∧
  (∀ (s : State) (decks : List DeckValues),
     (∀ (z : Table Int) d v, (d, v) ∈ numbered decks →
       Table.get? (putZeros z (filteredDecks decks)) d = (if v.filtered = none then Table.get? z d else v.filtered)) ∧
     (∀ (z : Table Int) d, (∀ v, (d, v) ∉ numbered decks) →
       Table.get? (putZeros z (filteredDecks decks)) d = Table.get? z d) ∧
     s.makeStartUpZero decks =
       { s.setZeros decks (filteredDecks decks) with
         weigh.startZero := putZeros s.weigh.startZero (filteredDecks decks), weigh.zeroUnset := false }) ∧
  ((∀ p, permitted 14 p = true ↔ p ≠ .metrology) ∧
   ∀ (s : State) (p : Port) (tag : Octet) (payload : List Octet), s.ready p 14 payload = true →
     let within (centre : Nat → Int) (reach : Nat → Int) : Prop :=
       ∀ d v, (d, v) ∈ numbered s.latestDecks → ∃ f, v.filtered = some f ∧ |f - centre d| ≤ reach d
     let working := within (fun d => (Table.get? s.weigh.startZero d).getD (s.weigh.roundTable.zero0 d))
       (fun d => s.tableInUse.deckMax d * 20)
     let startUp := within s.weigh.roundTable.zero0 (fun d => s.weigh.roundTable.deckMax d * 100)
     (s.weigh.zeroUnset = false →
       (s.bridge.state ≠ .free → exec (.zeroSet p tag payload) s = .next (s.answered p 14 tag .bridgeOccupied .empty)) ∧
       (s.bridge.state = .free → s.weigh.stable = false →
         exec (.zeroSet p tag payload) s = .next (s.answered p 14 tag .motion .empty)) ∧
       (s.bridge.state = .free → s.weigh.stable = true → ¬working →
         exec (.zeroSet p tag payload) s = .next (s.answered p 14 tag .zeroRange .empty)) ∧
       (s.bridge.state = .free → s.weigh.stable = true → working →
         exec (.zeroSet p tag payload) s =
           .next ((s.setZeros s.latestDecks (filteredDecks s.latestDecks)).answered p 14 tag .ok .empty))) ∧
     (s.weigh.zeroUnset = true →
       (s.weigh.stable = false → exec (.zeroSet p tag payload) s = .next (s.answered p 14 tag .motion .empty)) ∧
       (s.weigh.stable = true → ¬startUp →
         exec (.zeroSet p tag payload) s = .next (s.answered p 14 tag .zeroRange .empty)) ∧
       (s.weigh.stable = true → startUp →
         exec (.zeroSet p tag payload) s = .next ((s.makeStartUpZero s.latestDecks).answered p 14 tag .ok .empty))))

/-- R44: an expiry of the tracking timer: where its five conditions hold, each deck whose gross lies within half a
division and whose filtered value lies within its working range has its offset set to that value, and no other deck
has; where one fails nothing happens. That the division is that of the latest round's table and deck Max that of the
table in use is the model's reading (log 17). -/
def Obligations.TrackingMovesTheQualifyingDecks : Prop :=
  ∀ s : State, s.calm = true → s.weigh.trackingTimer = true →
    (¬(s.tableInUse.val 8 = 1 ∧ s.weigh.zeroUnset = false ∧ s.bridge.state = .free ∧ s.held = false ∧
        s.weigh.stable = true) → exec .trackingTimerExpiry s = .next s) ∧
    (s.tableInUse.val 8 = 1 → s.weigh.zeroUnset = false → s.bridge.state = .free → s.held = false →
      s.weigh.stable = true →
      ∃ t, exec .trackingTimerExpiry s = .next t ∧
        t = { s with weigh.zero := t.weigh.zero, weigh.window := t.weigh.window } ∧
        ∀ (d : Nat) (v : DeckValues), (d, v) ∈ numbered s.latestDecks →
          (∀ g f, v.gross = some g → v.filtered = some f → |g| ≤ 500 * s.weigh.roundTable.e →
            |f - s.workingCentre d| ≤ s.tableInUse.deckMax d * 20 → Table.get? t.weigh.zero d = some f) ∧
          ((∀ g f, v.gross = some g → v.filtered = some f →
              ¬(|g| ≤ 500 * s.weigh.roundTable.e ∧ |f - s.workingCentre d| ≤ s.tableInUse.deckMax d * 20)) →
            Table.get? t.weigh.zero d = Table.get? s.weigh.zero d))

/-! ### The bridge -/

/-- R51, R53, R56, R57, R66, R68, R73, R82 to R84, R86, R104, R168, R181: what a treadle event does in each bridge
state. The counts take `n` and `x` where the table of R83 gives them within 0 ≤ x ≤ n ≤ 255; an event for which it does
not is a disagreement, as every outward axle in GRANTED is while its counts are 0. After a counted event the AXLE_COUNT
mark stands exactly where entered exceeds T of the visit in use, and AXLE_COUNT is queued where it was clear. An event
taken in OCCUPIED, and the axle that brings the bridge there, joins the pending list of the trace and sets the auto arm.
A disagreement queues FAULT_RAISED; where its hold comes into force it refuses a WAITING capture with HELD, and where it
sets the FAULT source it ends a waiting test point with HELD. Choices of the model: the count of further events has no
bound (log 40), and that refusal clears the arm that the same event set (log 48). -/
def Obligations.TreadleEventsCountEnterOrIntrude : Prop :=
  ∀ (s : State) (e : BridgeEnd) (dir : AxleDir), s.calm = true → s.axles.exited ≤ s.axles.entered →
    s.axles.entered ≤ 255 →
    let joined (counted : Bool) : Trace :=
      if s.axles.trace.events.length < 4 then
        { s.axles.trace with events := s.axles.trace.events ++ [{ treadle := e, dir := dir, counted := counted }] }
      else { s.axles.trace with further := s.axles.trace.further + 1 }
    let beyond (n : Nat) (v : Visit) (c : Configuration) : Prop :=
      s.visitInUse = some v ∧ s.configOf v = some c ∧ c.total < n
    let points : Option Run := s.run.map (fun r =>
      { r with waiting := r.waiting.map (fun w => { w with restart := some s.weigh.rounds }) })
    let counted (n x : Nat) (t : State) : Prop :=
      t.axles.entered = n ∧ t.axles.exited = x ∧ t.axles.disagreements = s.axles.disagreements ∧ t.run = points ∧
      (t.axles.axleCount = true ↔ ∃ v c, beyond n v c) ∧
      (∀ v c, beyond n v c → s.axles.axleCount = false →
        t.ports = (s.told [.lane, .gatehouse] (.axleCount v.ident n c.total)).ports) ∧
      (s.axles.axleCount = true ∨ (∀ v c, ¬beyond n v c) → t.ports = s.ports)
    let passed (on : Bool) : CaptureUnit := { s.capture with
      waiting := s.capture.waiting.map (fun c => { c with restart := some s.weigh.rounds })
      arm := s.capture.arm || on, quietTimer := s.capture.quietTimer || on }
    let disagreed (on : Bool) (t : State) : Prop :=
      let refused := if s.site.policies.treadleDisagree = .hold ∧ s.held = false then s.capture.waiting else none
      let fresh := s.site.policies.treadleDisagree = .hold ∧ s.bridge.holds.fault = false
      t.axles.entered = s.axles.entered ∧ t.axles.exited = s.axles.exited ∧
      t.axles.disagreements = min (s.axles.disagreements + 1) 65535 ∧ t.axles.axleCount = s.axles.axleCount ∧
      t.faultEntry (treadleKey e) =
        { key := treadleKey e, present := false, outstanding := true,
          count := min ((s.faultEntry (treadleKey e)).count + 1) 65535, raisedAt := some s.site.clock } ∧
      t.capture = (match refused with
        | none => passed on
        | some c => { passed on with
            waiting := none, arm := false
            lastOutcome := some { origin := c.origin, ident := some c.ident, outcome := .held, round := none } }) ∧
      t.run = (if fresh then s.run.map (fun r => { r with waiting := none }) else points) ∧
      t.ports = (t.heard s (notesTo [.gatehouse, .lane, .metrology]
          (.faultRaised (treadleKey e) false s.site.policies.treadleDisagree .none_ s.site.clock
            (some { dir := dir, entered := s.axles.entered, exited := s.axles.exited })) ++
        refused.toList.map (fun c => (c.origin.port, .captureOutcome c.origin c.ident .held none)) ++
        (if fresh then ((s.run.bind (·.waiting)).toList).map (fun w =>
          (.metrology, .testPointEnded w.target w.reference .held)) else []))).ports
    (s.bridge.state = .occupiedUnknown ∨ (s.bridge.state = .free ∧ dir = .outward) →
      exec (.treadleEvent e dir) s = .next s.restartPoint) ∧
    (s.bridge.state = .free → s.bridge.grant = none → dir = .inward →
      exec (.treadleEvent e dir) s =
        .next (({ s.restartPoint with bridge.state := .occupiedUnknown } : State).told [.gatehouse, .lane]
          (.intrusion e none))) ∧
    (∀ g, s.bridge.state = .granted → s.bridge.grant = some g → dir = .inward → e ≠ g.entryEnd →
      ∃ t, exec (.treadleEvent e dir) s = .next t ∧ t.bridge.state = .occupiedUnknown ∧ t.bridge.grant = none ∧
        t.bridge.grantTimer = none ∧ t.bridge.aspectA = .red ∧ t.bridge.aspectB = .red ∧ t.inUse = none ∧
        t.bridge.waiting = s.bridge.waiting ∧
        (∀ q v, s.inUse = some q → Table.get? s.visits q = some v → Table.get? t.visits q = some v.returned) ∧
        (∀ q, s.inUse ≠ some q → Table.get? t.visits q = Table.get? s.visits q) ∧
        t.ports = (s.told [.gatehouse, .lane] (.intrusion e (some g.ident))).ports ∧
        t = { s with bridge := t.bridge, visits := t.visits, inUse := none, axles.axleCount := false, run := t.run,
                     faults := t.faults, ports := t.ports, writes := t.writes }) ∧
    (∀ g, s.bridge.state = .granted → s.bridge.grant = some g → dir = .inward → e = g.entryEnd →
      ∃ t, exec (.treadleEvent e dir) s = .next t ∧ t.bridge.state = .occupied ∧ t.bridge.grant = some g ∧
        t.bridge.grantTimer = none ∧ t.bridge.advance = false ∧ t.bridge.withheld = false ∧
        t.bridge.aspectA = .red ∧ t.bridge.aspectB = .red ∧
        (s.axles.entered < 255 → counted (s.axles.entered + 1) s.axles.exited t ∧ t.axles.trace = joined true ∧
          t.capture = passed true) ∧
        (s.axles.entered = 255 → disagreed true t ∧ t.axles.trace = joined false) ∧
        t = { s with bridge := t.bridge, axles := t.axles, capture := t.capture, run := t.run, faults := t.faults,
                     ports := t.ports }) ∧
    (∀ g, s.bridge.state = .occupied ∨ s.bridge.state = .released ∨ (s.bridge.state = .granted ∧ dir = .outward) →
      s.bridge.grant = some g →
      (∀ n x : Nat,
        (if e = g.entryEnd then (n : Int) = s.axles.entered + (if dir = .inward then 1 else -1) ∧ x = s.axles.exited
         else n = s.axles.entered ∧ (x : Int) = s.axles.exited - (if dir = .inward then 1 else -1)) →
        x ≤ n → n ≤ 255 →
        ∃ t, exec (.treadleEvent e dir) s = .next t ∧ counted n x t ∧
          t.axles.trace = (if s.bridge.state = .occupied then joined true else s.axles.trace) ∧
          t.bridge.state = s.bridge.state ∧ t.bridge.grant = some g ∧ t.bridge.advance = false ∧
          t.bridge.withheld = s.bridge.withheld ∧
          t.capture = passed (s.bridge.state = .occupied) ∧
          t = { s with bridge := t.bridge, axles := t.axles, capture := t.capture, run := t.run, faults := t.faults,
                       ports := t.ports }) ∧
      ((∀ n x : Nat,
        (if e = g.entryEnd then (n : Int) = s.axles.entered + (if dir = .inward then 1 else -1) ∧ x = s.axles.exited
         else n = s.axles.entered ∧ (x : Int) = s.axles.exited - (if dir = .inward then 1 else -1)) →
        ¬(x ≤ n ∧ n ≤ 255)) →
        ∃ t, exec (.treadleEvent e dir) s = .next t ∧ disagreed (s.bridge.state = .occupied) t ∧
          t.axles.trace = (if s.bridge.state = .occupied then joined false else s.axles.trace) ∧
          t.bridge.state = s.bridge.state ∧ t.bridge.grant = some g ∧ t.bridge.advance = false ∧
          t = { s with bridge := t.bridge, axles := t.axles, capture := t.capture, run := t.run, faults := t.faults,
                       ports := t.ports }))

/-- R75, R181: a change of the lamp feedback of an end. It starts the feedback timer where the lamps stop matching,
discards it where they match, and a match makes a present LAMP_FEEDBACK absent; while the condition is present a
further mismatch starts no timer. The expiry of a running timer makes the condition present, which is a raise; that one
with no running timer does nothing is the model's reading (log 6). -/
def Obligations.LampFeedbackFollowsTheAspect : Prop :=
  ∀ (s : State) (e : BridgeEnd), s.calm = true →
    (∀ lit, lampsMatch (s.bridge.aspect e) lit = true → (s.faultEntry (lampKey e)).present = false →
      exec (.lampFeedbackChange e lit) s = .next ((s.setLamps e lit).setFeedback e false)) ∧
    (∀ lit, lampsMatch (s.bridge.aspect e) lit = false → (s.faultEntry (lampKey e)).present = false →
      exec (.lampFeedbackChange e lit) s = .next ((s.setLamps e lit).setFeedback e true)) ∧
    (∀ lit, lampsMatch (s.bridge.aspect e) lit = false → (s.faultEntry (lampKey e)).present = true →
      exec (.lampFeedbackChange e lit) s = .next (s.setLamps e lit)) ∧
    (∀ lit, lampsMatch (s.bridge.aspect e) lit = true → (s.faultEntry (lampKey e)).present = true →
      ∃ t, exec (.lampFeedbackChange e lit) s = .next t ∧ (t.faultEntry (lampKey e)).present = false ∧
        t.bridge.lamps e = lit ∧ (t.faultEntry (lampKey e)).count = (s.faultEntry (lampKey e)).count ∧
        (t.faultEntry (lampKey e)).outstanding = (s.faultEntry (lampKey e)).outstanding ∧
        t = { s with bridge := t.bridge, axles := t.axles, visits := t.visits, inUse := t.inUse, faults := t.faults,
                     ports := t.ports, writes := t.writes }) ∧
    (s.bridge.feedback e = false → exec (.feedbackTimerExpiry e) s = .next s) ∧
    (s.bridge.feedback e = true → (s.faultEntry (lampKey e)).present = false →
      ∃ t, exec (.feedbackTimerExpiry e) s = .next t ∧ (t.faultEntry (lampKey e)).outstanding = true ∧
        (t.faultEntry (lampKey e)).count = min ((s.faultEntry (lampKey e)).count + 1) 65535 ∧
        (t.faultEntry (lampKey e)).raisedAt = some s.site.clock ∧
        (s.site.policies.lampFeedback = .continue_ → (t.faultEntry (lampKey e)).present = true ∧
          t.ports = (t.heard s (notesTo [.gatehouse, .lane, .metrology]
            (.faultRaised (lampKey e) false .continue_ .none_ s.site.clock none))).ports) ∧
        t = { s with bridge := t.bridge, axles := t.axles, capture := t.capture, visits := t.visits, inUse := t.inUse,
                     run := t.run, faults := t.faults, ports := t.ports, writes := t.writes })

/-- R63, R64, R67: the expiry of a running grant timer is a no-show: the bridge is FREE with both ends RED and the
visit is returned to its awaiting state, or the next waiting entry is granted in the same event, each with its notice.
A timer that a hold has paused does not expire (the model takes such a command as none: log 6). -/
def Obligations.GrantTimerExpiryIsANoShow : Prop :=
  ∀ s : State, s.calm = true →
    ((∀ n, s.bridge.grantTimer ≠ some { secondsLeft := n, paused := false }) →
      exec .grantTimerExpiry s = .next s) ∧
    (∀ g n, s.bridge.state = .granted → s.bridge.grant = some g →
      s.bridge.grantTimer = some { secondsLeft := n, paused := false } → s.held = false →
      ∃ t, exec .grantTimerExpiry s = .next t ∧
        (s.bridge.waiting = [] →
          t.bridge.state = .free ∧ t.bridge.grant = none ∧ t.bridge.grantTimer = none ∧ t.bridge.waiting = [] ∧
          t.bridge.aspectA = .red ∧ t.bridge.aspectB = .red ∧ t.inUse = none ∧
          t.ports = (s.told [.lane, .gatehouse] (.noShow g.ident)).ports ∧
          (∀ q v, s.inUse = some q → Table.get? s.visits q = some v → Table.get? t.visits q = some v.returned) ∧
          (∀ q, s.inUse ≠ some q → Table.get? t.visits q = Table.get? s.visits q)) ∧
        (∀ q, selectEntry s.bridge.waiting = some q →
          t.bridge.state = .granted ∧ t.bridge.grant = some { ident := q.ident, entryEnd := q.entryEnd } ∧
          t.bridge.grantTimer = some { secondsLeft := s.site.settings.grantTimeout, paused := false } ∧
          t.ports = (t.heard s (notesTo [.lane, .gatehouse] (.noShow g.ident) ++
            notesTo [.lane, .gatehouse] (.granted q.ident q.entryEnd))).ports) ∧
        t = { s with bridge := t.bridge, axles := t.axles, visits := t.visits, inUse := t.inUse, faults := t.faults,
                     ports := t.ports, writes := t.writes })

/-- R47, R48, R52, R56, R57: a capture is begun or refused at once, by the first condition of the table of R47 that
applies; the expiry of its timeout timer refuses it; the expiry of the quiet timer attempts an AUTO capture. That a
timer that does not run does not expire (log 6), and that a capture refused at once keeps the ident holding the grant,
or none (log 25), is the model's reading. -/
def Obligations.CapturesBeginAndTimeOut : Prop :=
  (∀ p, permitted 15 p = true ↔ p ≠ .metrology) ∧
  ∀ s : State,
    (∀ (p : Port) (tag : Octet) (payload : List Octet), s.ready p 15 payload = true →
      (∀ code, s.captureRefusal = some code →
        exec (.requestCapture p tag payload) s =
          .next (({ s with
              capture.lastOutcome := some { origin := .request p tag, ident := s.bridge.grant.map (·.ident),
                                            outcome := code, round := none }
              capture.arm := false } : State).answered p 15 tag code .empty)) ∧
      (∀ v, s.captureRefusal = none → s.visitInUse = some v →
        exec (.requestCapture p tag payload) s =
          .next (({ s with capture.waiting := some { origin := .request p tag, ident := v.ident,
                                                     secondsLeft := s.site.settings.captureTimeout,
                                                     restart := none } } : State).answered p 15 tag .accepted .empty))) ∧
    s.captureRefusal =
      (if s.bridge.state ≠ .occupied ∨ ¬(∃ v, s.visitInUse = some v ∧ v.inProgress = true) then some .noVehicle
       else if s.held = true then some .held
       else if s.weigh.zeroUnset = true then some .zeroUnset
       else if s.capture.waiting ≠ none then some .capturePending
       else if s.staged ≠ none ∨ s.cal.lockout ≠ none ∨ s.cal.notVerified = true then some .notForTrade
       else none) ∧
    (s.calm = true →
      (s.capture.waiting = none → exec .captureTimeout s = .next s) ∧
      (∀ c, s.capture.waiting = some c →
        exec .captureTimeout s =
          .next (({ s with
            capture := { s.capture with
              waiting := none
              lastOutcome := some { origin := c.origin, ident := some c.ident, outcome := .captureTimeout,
                                    round := none }
              arm := false } } : State).told [c.origin.port]
            (.captureOutcome c.origin c.ident .captureTimeout none))) ∧
      (s.capture.quietTimer = false → exec .quietTimerExpiry s = .next s) ∧
      (s.capture.quietTimer = true →
        s.site.settings.autoCapture = false ∨ s.capture.arm = false ∨ s.capture.waiting ≠ none →
        exec .quietTimerExpiry s = .next { s with capture.quietTimer := false }) ∧
      (s.capture.quietTimer = true → s.site.settings.autoCapture = true → s.capture.arm = true →
        s.capture.waiting = none →
        (∀ v, s.captureRefusal = none → s.visitInUse = some v →
          exec .quietTimerExpiry s =
            .next { s with capture := { s.capture with
              quietTimer := false
              waiting := some { origin := .auto, ident := v.ident, secondsLeft := s.site.settings.captureTimeout,
                                restart := none } } }) ∧
        (∀ code g, s.captureRefusal = some code → s.bridge.grant = some g →
          exec .quietTimerExpiry s =
            .next (({ s with capture := { s.capture with
              quietTimer := false
              arm := false
              lastOutcome := some { origin := .auto, ident := some g.ident, outcome := code, round := none } } } :
              State).told [.lane] (.captureOutcome .auto g.ident code none)))))

/-- R60, R61, R63, R64, R65, R87, R112: Report Arrival refuses in its order, appends the entry, and where the bridge is
FREE with no hold in force the entry is granted in the same event; Withdraw Arrival (R62) removes it. The effective
class of R61, the renumbering of R59 after arrival number 999,999,999, and the promotion of R65 of every entry that a
grant passes over. -/
def Obligations.ArrivalsQueueAndAreGranted : Prop :=
  (∀ (s : State) (v : Visit) (e : BridgeEnd),
    let default := match e with | .a => s.site.settings.classA | .b => s.site.settings.classB
    s.effectiveClass v e =
      (match findTare s.tares.slots v.ident with
        | some (_, t) => if s.runOut t then v.cls.getD default else t.cls.getD (v.cls.getD default)
        | none => v.cls.getD default)) ∧
  (∀ (s : State) (q : QueueEntry), s.held = false → s.bridge.state = .free → selectEntry s.bridge.waiting = some q →
    q ∈ s.bridge.waiting ∧
    (∀ x ∈ s.bridge.waiting, x.cls < q.cls ∨ (x.cls = q.cls ∧ q.arrival ≤ x.arrival)) ∧
    s.grantIfDue.bridge.grant = some { ident := q.ident, entryEnd := q.entryEnd } ∧
    s.grantIfDue.outbox = s.outbox ++ notesTo [.lane, .gatehouse] (.granted q.ident q.entryEnd) ∧
    s.grantIfDue.bridge.waiting = (s.bridge.waiting.filter (fun x => x.ident ≠ q.ident)).map (fun x =>
      if x.passes = 3 then { x with cls := if x.cls < 3 then x.cls + 1 else x.cls, passes := 0 }
      else { x with passes := x.passes + 1 })) ∧
  (∀ p, permitted 20 p = true ↔ p = .lane) ∧ (∀ p, permitted 21 p = true ↔ p ≠ .metrology) ∧
  ∀ (s : State) (p : Port) (tag : Octet) (payload : List Octet),
    (s.ready p 20 payload = true →
      (identAt payload 0 = none ∨ endOf (natAt payload 12 1) = none →
        exec (.reportArrival p tag payload) s = .next (s.answered p 20 tag .badArgument .empty)) ∧
      (∀ id e, identAt payload 0 = some id → endOf (natAt payload 12 1) = some e →
        (findVisit s.visits id = none →
          exec (.reportArrival p tag payload) s = .next (s.answered p 20 tag .noVisit .empty)) ∧
        (∀ pos v, findVisit s.visits id = some (pos, v) →
          (v.inProgress = true →
            exec (.reportArrival p tag payload) s = .next (s.answered p 20 tag .visitInUse .empty)) ∧
          (v.inProgress = false →
            (∃ q ∈ s.bridge.waiting, q.ident = id) ∨ s.bridge.grant.map (·.ident) = some id →
            exec (.reportArrival p tag payload) s = .next (s.answered p 20 tag .duplicate .empty)) ∧
          (v.inProgress = false → (∀ q ∈ s.bridge.waiting, q.ident ≠ id) → s.bridge.grant.map (·.ident) ≠ some id →
            (8 ≤ (s.bridge.waiting.filter (fun q => q.entryEnd = e)).length →
              exec (.reportArrival p tag payload) s = .next (s.answered p 20 tag .queueFull .empty)) ∧
            ((s.bridge.waiting.filter (fun q => q.entryEnd = e)).length < 8 → 999999999 ≤ s.bridge.arrivals →
              s.bridge.state ≠ .free ∨ s.held = true →
              exec (.reportArrival p tag payload) s =
                .next (({ s with
                  bridge.waiting := (numbered s.bridge.waiting).map (fun x => { x.2 with arrival := x.1 }) ++
                    [{ ident := v.ident, entryEnd := e, arrival := s.bridge.waiting.length + 1,
                       cls := s.effectiveClass v e, passes := 0 }]
                  bridge.arrivals := s.bridge.waiting.length + 1 } : State).answered p 20 tag .ok
                  (.arrival (s.bridge.waiting.length + 1)))) ∧
            ((s.bridge.waiting.filter (fun q => q.entryEnd = e)).length < 8 → s.bridge.arrivals < 999999999 →
              (s.bridge.state ≠ .free ∨ s.held = true →
                exec (.reportArrival p tag payload) s =
                  .next (({ s with
                    bridge.waiting := s.bridge.waiting ++
                      [{ ident := v.ident, entryEnd := e, arrival := s.bridge.arrivals + 1,
                         cls := s.effectiveClass v e, passes := 0 }]
                    bridge.arrivals := s.bridge.arrivals + 1 } : State).answered p 20 tag .ok
                    (.arrival (s.bridge.arrivals + 1)))) ∧
              (s.bridge.state = .free → s.held = false →
                ∃ t, exec (.reportArrival p tag payload) s = .next t ∧
                  t.replied p 20 tag .ok (.arrival (s.bridge.arrivals + 1)) = true ∧ t.bridge.state = .granted ∧
                  t.bridge.grant = some { ident := v.ident, entryEnd := e } ∧ t.bridge.waiting = [] ∧
                  t.bridge.arrivals = s.bridge.arrivals + 1 ∧
                  t.bridge.grantTimer = some { secondsLeft := s.site.settings.grantTimeout, paused := false } ∧
                  t.bridge.aspect e = .green ∧ t.bridge.aspect (otherEnd e) = .red ∧ t.inUse = some pos ∧
                  Table.get? t.visits pos = some v.granted ∧
                  (∀ q, q ≠ pos → Table.get? t.visits q = Table.get? s.visits q) ∧
                  t.axles.entered = 0 ∧ t.axles.exited = 0 ∧ t.axles.disagreements = 0 ∧ t.axles.axleCount = false ∧
                  t.ports = ((t.heard s (notesTo [.lane, .gatehouse] (.granted v.ident e))).answered p 20 tag .ok
                    (.arrival (s.bridge.arrivals + 1))).ports ∧
                  t = { s with bridge := t.bridge, axles := t.axles, visits := t.visits, inUse := t.inUse,
                               faults := t.faults, ports := t.ports, writes := t.writes })))))) ∧
    (s.ready p 21 payload = true →
      (identAt payload 0 = none →
        exec (.withdrawArrival p tag payload) s = .next (s.answered p 21 tag .badArgument .empty)) ∧
      (∀ id, identAt payload 0 = some id →
        ((∀ q ∈ s.bridge.waiting, q.ident ≠ id) →
          exec (.withdrawArrival p tag payload) s = .next (s.answered p 21 tag .notQueued .empty)) ∧
        ((∃ q ∈ s.bridge.waiting, q.ident = id) →
          exec (.withdrawArrival p tag payload) s =
            .next (({ s with bridge.waiting := s.bridge.waiting.filter (fun q => q.ident ≠ id) } : State).answered
              p 21 tag .ok .empty))))

/-- R54, R64, R70, R72, R73, R115: Release Vehicle and Clear Bridge: their refusals in order, what they leave and which
notices they queue. That Clear Bridge compares with the occupancy threshold of the latest round's table is the model's
reading (log 19). -/
def Obligations.ReleaseAndClearEndAnOccupiedBridge : Prop :=
  (∀ p, permitted 22 p = true ↔ p = .gatehouse) ∧ (∀ p, permitted 23 p = true ↔ p = .gatehouse) ∧
  ∀ (s : State) (p : Port) (tag : Octet) (payload : List Octet),
    (s.ready p 22 payload = true →
      (s.bridge.state ≠ .occupied →
        exec (.releaseVehicle p tag payload) s = .next (s.answered p 22 tag .noVehicle .empty)) ∧
      (s.bridge.state = .occupied →
        ∃ t, exec (.releaseVehicle p tag payload) s = .next t ∧ t.replied p 22 tag .ok .empty = true ∧
          t.bridge.state = .released ∧
          t.bridge.advance = false ∧ t.bridge.withheld = false ∧ t.bridge.grant = s.bridge.grant ∧
          t.capture.waiting = none ∧ t.capture.quietTimer = false ∧ t.capture.arm = false ∧
          (∀ c, s.capture.waiting = some c → t.capture.lastOutcome =
            some { origin := c.origin, ident := some c.ident, outcome := .noVehicle, round := none }) ∧
          (∀ g, s.bridge.grant = some g → s.held = false →
            t.bridge.aspect (otherEnd g.entryEnd) = .green ∧ t.bridge.aspect g.entryEnd = .red) ∧
          t.ports = ((t.heard s ((s.capture.waiting.toList).map (fun c =>
            (c.origin.port, .captureOutcome c.origin c.ident .noVehicle none)))).answered p 22 tag .ok .empty).ports ∧
          t = { s with bridge := t.bridge, capture := t.capture, faults := t.faults, ports := t.ports })) ∧
    (s.ready p 23 payload = true →
      (s.bridge.state = .free ∨ s.bridge.state = .granted →
        exec (.clearBridge p tag payload) s = .next (s.answered p 23 tag .noVehicle .empty)) ∧
      (s.bridge.state ≠ .free → s.bridge.state ≠ .granted →
        (s.weigh.stable = false ∨ s.weigh.latest = none →
          exec (.clearBridge p tag payload) s = .next (s.answered p 23 tag .motion .empty)) ∧
        (∀ r w, s.weigh.stable = true → s.weigh.latest = some r → r.rounded = some w →
          (s.weigh.roundTable.occupancyKg ≤ w →
            exec (.clearBridge p tag payload) s = .next (s.answered p 23 tag .bridgeOccupied .empty)) ∧
          (w < s.weigh.roundTable.occupancyKg →
            ∃ t, exec (.clearBridge p tag payload) s = .next t ∧ t.replied p 23 tag .ok .empty = true ∧
              t.axles.entered = 0 ∧ t.axles.exited = 0 ∧
              (s.bridge.state = .occupiedUnknown → t.bridge.startMark = false) ∧
              (s.bridge.waiting = [] → t.bridge.state = .free ∧
                (s.bridge.state ≠ .occupiedUnknown → t.bridge.grant = none ∧ t.inUse = none ∧
                  t.bridge.advance = false ∧ t.bridge.withheld = false ∧
                  ∀ q v, s.inUse = some q → Table.get? s.visits q = some v →
                    Table.get? t.visits q = some v.returned)) ∧
              (∀ q, selectEntry s.bridge.waiting = some q → s.held = false →
                t.bridge.state = .granted ∧ t.bridge.grant = some { ident := q.ident, entryEnd := q.entryEnd }) ∧
              (s.bridge.holds.gatehouse = true ∨ s.bridge.holds.lane = true →
                t.bridge.state = .free ∧ t.bridge.waiting = s.bridge.waiting) ∧
              t.ports = ((t.heard s
                ((if s.bridge.state = .occupied then (s.capture.waiting.toList).map (fun c =>
                    (c.origin.port, .captureOutcome c.origin c.ident .noVehicle none)) else []) ++
                  (if s.bridge.state ≠ .occupiedUnknown then
                    ((s.visitInUse.filter (·.inProgress)).toList).flatMap (fun v =>
                      notesTo [.gatehouse, .lane] (.leftUnweighed v.ident v.weighing v.draft.used)) else []) ++
                  s.grantNews t)).answered p 23 tag .ok .empty).ports ∧
              t = { s with bridge := t.bridge, capture := t.capture, axles := t.axles, visits := t.visits,
                           inUse := t.inUse, faults := t.faults, ports := t.ports, writes := t.writes }))))

/-- R53, R76, R77, R78, R168: Hold Bridge sets the source of its port: a hold is in force, every signal is RED, a
running grant timer is paused and a WAITING capture ends with HELD; where GATEHOUSE or LANE comes to be set, a waiting
test point ends with HELD. Release Hold clears that source and no other; a grant timer runs on once no hold is in
force. -/
def Obligations.PortHoldsSetAndClearTheirSource : Prop :=
  (∀ p, permitted 24 p = true ∧ permitted 25 p = true) ∧
  ∀ (s : State) (p : Port) (tag : Octet) (payload : List Octet),
    (s.ready p 24 payload = true →
      let fresh := (p = .gatehouse ∧ s.bridge.holds.gatehouse = false) ∨ (p = .lane ∧ s.bridge.holds.lane = false)
      ∃ t, exec (.holdBridge p tag payload) s = .next t ∧ t.replied p 24 tag .ok .empty = true ∧ t.held = true ∧
        t.bridge.holds.gatehouse = (s.bridge.holds.gatehouse || p = .gatehouse) ∧
        t.bridge.holds.lane = (s.bridge.holds.lane || p = .lane) ∧
        t.bridge.holds.manual = (s.bridge.holds.manual || p = .metrology) ∧
        t.bridge.holds.metrology = (s.bridge.holds.metrology || p = .metrology) ∧
        t.bridge.holds.supply = s.bridge.holds.supply ∧ t.bridge.aspectA = .red ∧ t.bridge.aspectB = .red ∧
        t.bridge.state = s.bridge.state ∧ t.bridge.grant = s.bridge.grant ∧
        (s.held = false → t.bridge.grantTimer = s.bridge.grantTimer.map (fun x => { x with paused := true })) ∧
        (s.held = true → t.bridge.grantTimer = s.bridge.grantTimer) ∧
        (∀ c, s.held = false → s.capture.waiting = some c → t.capture = { s.capture with
          waiting := none, arm := false
          lastOutcome := some { origin := c.origin, ident := some c.ident, outcome := .held, round := none } }) ∧
        (s.held = true ∨ s.capture.waiting = none → t.capture = s.capture) ∧
        (fresh → t.run = s.run.map (fun r => { r with waiting := none })) ∧ (¬fresh → t.run = s.run) ∧
        t.ports = ((t.heard s
          ((if s.held then [] else (s.capture.waiting.toList).map (fun c =>
              (c.origin.port, .captureOutcome c.origin c.ident .held none))) ++
            (if fresh then ((s.run.bind (·.waiting)).toList).map (fun w =>
              (.metrology, .testPointEnded w.target w.reference .held)) else []))).answered p 24 tag .ok .empty).ports ∧
        t = { s with bridge := t.bridge, capture := t.capture, run := t.run, faults := t.faults, ports := t.ports }) ∧
    (s.ready p 25 payload = true → s.bridgeConsistent = true →
      ∃ t, exec (.releaseHold p tag payload) s = .next t ∧ t.replied p 25 tag .ok .empty = true ∧
        t.bridge.holds.gatehouse = (s.bridge.holds.gatehouse && p ≠ .gatehouse) ∧
        t.bridge.holds.lane = (s.bridge.holds.lane && p ≠ .lane) ∧
        t.bridge.holds.manual = (s.bridge.holds.manual && p ≠ .metrology) ∧
        t.bridge.holds.supply = s.bridge.holds.supply ∧
        (s.bridge.state ≠ .free → t.bridge.state = s.bridge.state ∧ t.bridge.grant = s.bridge.grant ∧
          t.visits = s.visits) ∧
        (∀ q, s.bridge.state = .free → selectEntry s.bridge.waiting = some q → t.held = false →
          t.bridge.state = .granted ∧ t.bridge.grant = some { ident := q.ident, entryEnd := q.entryEnd }) ∧
        (t.held = false → ∀ x, t.bridge.grantTimer = some x → x.paused = false) ∧
        t.ports = ((t.heard s (s.grantNews t)).answered p 25 tag .ok .empty).ports ∧
        t = { s with bridge := t.bridge, axles := t.axles, visits := t.visits, inUse := t.inUse, faults := t.faults,
                     ports := t.ports, writes := t.writes })

/-! ### Time, supply and starts -/

/-- R116, R117, R199: a second of powered time: the clock moves on, every visit that is awaiting, not in use and not
queued ages by a second, and one that reaches the timeout is removed, with its VISIT_EXPIRED notice. Choices of the
model: the timers of whole seconds lose theirs here, but a paused one (log 5); the powered seconds have no bound (log
31); VISIT_TIMEOUT is the increase of one entry (log 10); the notices of one second come in order of position (log 22).
-/
def Obligations.PoweredSecondRunsTheClockAndTheAges : Prop :=
  ∀ s : State, s.calm = true → Table.sorted s.visits = true →
    (∃ t, exec .poweredSecond s = .next t ∧ t.site = { s.site with clock := s.site.clock.tick } ∧
      t.powered = s.powered + 1 ∧
      (∀ q v, Table.get? s.visits q = some v →
        (¬(v.awaiting = true ∧ s.inUse ≠ some q ∧ ∀ w ∈ s.bridge.waiting, w.ident ≠ v.ident) →
          Table.get? t.visits q = some v) ∧
        (v.awaiting = true → s.inUse ≠ some q → (∀ w ∈ s.bridge.waiting, w.ident ≠ v.ident) →
          Table.get? t.visits q =
            (if s.site.settings.visitTimeout * 3600 ≤ v.age + 1 then none else some { v with age := v.age + 1 }))) ∧
      (∀ q, Table.get? s.visits q = none → Table.get? t.visits q = none) ∧
      t.ports = (t.heard s ((s.visits.filter (fun e => decide (e.2.awaiting = true ∧ s.inUse ≠ some e.1 ∧
          (∀ w ∈ s.bridge.waiting, w.ident ≠ e.2.ident) ∧
          s.site.settings.visitTimeout * 3600 ≤ e.2.age + 1))).map (fun e =>
        (.gatehouse, .visitExpired e.2.ident e.2.kind e.2.state (e.2.first.map (fun r => (r.weight, r.time))))))).ports ∧
      t.capture = { s.capture with
        waiting := s.capture.waiting.map (fun c => { c with secondsLeft := c.secondsLeft - 1 }) } ∧
      t.bridge = { s.bridge with
        grantTimer := s.bridge.grantTimer.map
          (fun x => if x.paused then x else { x with secondsLeft := x.secondsLeft - 1 }) } ∧
      t.run = s.run.map (fun r =>
        { r with waiting := r.waiting.map (fun w => { w with secondsLeft := w.secondsLeft - 1 }) }) ∧
      t = { s with site := t.site, powered := t.powered, visits := t.visits, capture := t.capture, bridge := t.bridge,
                   run := t.run, ports := t.ports, writes := t.writes }) ∧
    (∀ q v, Table.get? s.visits q = some v →
      (v.awaiting = true → s.inUse ≠ some q → (∀ w ∈ s.bridge.waiting, w.ident ≠ v.ident) →
        s.site.settings.visitTimeout * 3600 ≤ v.age + 1 →
        exec (.visitTimeout q) s =
          .next (retain s (({ s with visits := Table.erase s.visits q } : State).told [.gatehouse]
            (.visitExpired v.ident v.kind v.state (v.first.map (fun r => (r.weight, r.time))))))) ∧
      (¬(v.awaiting = true ∧ s.inUse ≠ some q ∧ ∀ w ∈ s.bridge.waiting, w.ident ≠ v.ident) ∨
        v.age + 1 < s.site.settings.visitTimeout * 3600 → exec (.visitTimeout q) s = .next s))

/-- R64, R155, R168, R187: the calibration switch. An assertion, or a withdrawal while access is CLOSED, changes
nothing but the line; a withdrawal while access is OPEN discards the staged table and clears both marks, and with
differences staged enters lockout CAL_ACCESS_INTERRUPTED unless lockout already stands, and else queues ACCESS_CLOSED.
-/
def Obligations.SwitchWithdrawalClosesAccess : Prop :=
  ∀ s : State, s.calm = true →
    exec (.calibrationSwitchChange true) s = .next { s with switchOn := true } ∧
    (s.staged = none → exec (.calibrationSwitchChange false) s = .next { s with switchOn := false }) ∧
    (∀ st, s.staged = some st →
      ∃ t, exec (.calibrationSwitchChange false) s = .next t ∧ t.switchOn = false ∧ t.staged = none ∧
        t.cal.accessMark = false ∧ t.cal.diffMark = false ∧ t.cal.committed = s.cal.committed ∧
        t.cal.epoch = s.cal.epoch ∧ t.cal.notVerified = s.cal.notVerified ∧
        (t.bridge.holds.metrology = (s.run.isSome || s.bridge.holds.manual)) ∧
        (paramChanges s.cal.committed st = [] →
          t.cal = { s.cal with accessMark := false, diffMark := false } ∧ t.evidence = s.evidence) ∧
        (paramChanges s.cal.committed st ≠ [] → s.cal.lockout = none →
          t.cal.lockout = some .calAccessInterrupted ∧ t.bridge.holds.fault = true ∧ t.held = true ∧
          ∃ r, t.cal.lockRecord = some r ∧ r.code = .calAccessInterrupted ∧ r.time = s.site.clock ∧
            r.bridge = s.bridge.state ∧ r.ident = s.bridge.grant.map (·.ident) ∧ r.lastStable = s.faults.lastStable ∧
            r.epoch = s.cal.epoch ∧ r.cleared = none) ∧
        (paramChanges s.cal.committed st ≠ [] → s.cal.lockout ≠ none →
          t.cal = { s.cal with accessMark := false, diffMark := false }) ∧
        (paramChanges s.cal.committed st = [] →
          t.ports = (t.heard s ([(.metrology, .accessClosed)] ++ s.grantNews t)).ports) ∧
        (paramChanges s.cal.committed st ≠ [] → s.cal.lockout = none →
          t.ports = (t.heard s (s.lockoutNews .calAccessInterrupted ++
            (if s.bridge.holds.fault then [] else ((s.run.bind (·.waiting)).toList).map (fun w =>
              (.metrology, .testPointEnded w.target w.reference .held))))).ports) ∧
        (paramChanges s.cal.committed st ≠ [] → s.cal.lockout ≠ none → t.ports = s.ports) ∧
        t = { s with bridge := t.bridge, axles := t.axles, visits := t.visits, inUse := t.inUse, cal := t.cal,
                     staged := none, switchOn := false, run := t.run, evidence := t.evidence, capture := t.capture,
                     faults := t.faults, ports := t.ports, writes := t.writes })

/-- R13, R36, R39, R55, R64, R168, R191, R209: a fall of the supply-good line and its return within the ride-through. A
fall changes no entry of the fault register but one: that the LAMP_FEEDBACK of an end whose lamps match the RED it brings
becomes absent (R75) is the model's choice (log 58). A fall of a line that is down and a return of one that is up are no
events (log 6). -/
def Obligations.SupplyDipStopsRoundsAndItsReturnStartsOne : Prop :=
  ∀ s : State, s.calm = true →
    (s.supplyGood = false → exec .supplyFall s = .next s) ∧
    (s.supplyGood = true → exec .supplyReturn s = .next s) ∧
    (s.supplyGood = true →
      ∃ t, exec .supplyFall s = .next t ∧ t.supplyGood = false ∧ t.dipTimer = true ∧ t.bridge.holds.supply = true ∧
        t.held = true ∧ t.bridge.aspectA = .red ∧ t.bridge.aspectB = .red ∧
        t.bus = { s.bus with inProgress := false, toPoll := [], poll := .idle, periodTimer := false } ∧
        t.weigh = { s.weigh with histories := [], latest := none, window := [], stable := false } ∧
        t.liveWord = .invalid ∧
        (∀ c, s.capture.waiting = some c → t.capture = { s.capture with
          waiting := none, arm := false
          lastOutcome := some { origin := c.origin, ident := some c.ident, outcome := .supply, round := none } }) ∧
        (s.capture.waiting = none → t.capture = s.capture) ∧
        t.run = s.run.map (fun r => { r with waiting := none }) ∧
        (∀ e, t.faultEntry (lampKey e) =
          { s.faultEntry (lampKey e) with
            present := (s.faultEntry (lampKey e)).present && !lampsMatch .red (s.bridge.lamps e) }) ∧
        (∀ k : FaultKey, (∀ e, k.place ≠ (lampKey e).place) → t.faultEntry k = s.faultEntry k) ∧
        t.faults = { s.faults with register := t.faults.register } ∧
        t.ports = (t.heard s ((s.capture.waiting.toList).map (fun c =>
            (c.origin.port, .captureOutcome c.origin c.ident .supply none)) ++
          ((s.run.bind (·.waiting)).toList).map (fun w =>
            (.metrology, .testPointEnded w.target w.reference .supply)))).ports ∧
        t = { s with bus := t.bus, weigh := t.weigh, capture := t.capture, bridge := t.bridge, run := t.run,
                     supplyGood := false, dipTimer := true, faults := t.faults, ports := t.ports }) ∧
    (∀ first rest, s.supplyGood = false → s.tableInUse.configuredList = first :: rest →
      ∃ t, exec .supplyReturn s = .next t ∧ t.supplyGood = true ∧ t.dipTimer = false ∧
        t.bridge.holds.supply = false ∧ t.bus.inProgress = true ∧ t.bus.poll = .sending first ∧ t.bus.toPoll = rest ∧
        t.bus.overrun = false ∧ t.bus.periodTimer = true ∧ t.bus.overruns = s.bus.overruns ∧
        t.bus.table = s.tableInUse ∧
        t.bus.index = (if s.bus.index = 4294967295 then 1 else s.bus.index + 1) ∧
        t.ports = (t.heard s (s.grantNews t)).ports ∧
        t = { s with bus := t.bus, bridge := t.bridge, axles := t.axles, visits := t.visits, inUse := t.inUse,
                     supplyGood := true, dipTimer := false, faults := t.faults, ports := t.ports,
                     writes := t.writes })

/-- R206, R209: what begins a start, and that a start takes every block's events away: the dip timer's expiry (with the
pending mark), power, the reset line; while a start stands the port frames and rounds are not taken. That a dip timer
runs on over power is the model's choice (log 43), and that POWER_ON leaves the supply-good line as reported its reading
(log 26). -/
def Obligations.StartsAreBegunAndBlocksStop : Prop :=
  (∀ s : State, s.commitNote = none → s.cal.pendingMark = false → s.dipTimer = true →
    exec .dipTimerExpiry s =
      .next { s with phase := .starting .supplyLoss, dipTimer := false, cal.pendingMark := true,
                     writes := s.writes ++ [{ regions := [.calibration], commit := none }] }) ∧
  (∀ s : State, s.dipTimer = false → exec .dipTimerExpiry s = .next s) ∧
  (∀ s : State, s.cal.pendingMark = false → exec .powerOn s = .next { s with phase := .starting .powerOn }) ∧
  (∀ s : State, s.cal.pendingMark = true → exec .powerOn s = .next { s with phase := .starting .supplyLoss }) ∧
  (∀ s : State, exec .resetLine s = .next { s with phase := .starting .resetLine }) ∧
  (∀ (s : State) (cause : StartCause), s.phase = .starting cause →
    (∀ c f, frameOf c = some f → exec c s = .next s) ∧
    (∀ c ∈ [Instr.replyWindowClose, .roundPeriodExpiry, .pollSent, .captureTimeout, .grantTimerExpiry,
            .quietTimerExpiry, .trackingTimerExpiry, .testPointTimeout, .poweredSecond], exec c s = .next s) ∧
    (∀ a, exec (.cellAnswer a) s = .next s) ∧ (∀ e, exec (.feedbackTimerExpiry e) s = .next s) ∧
    (∀ pos, exec (.visitTimeout pos) s = .next s) ∧
    (∀ p, exec (.frameGapTimeout p) s = .next s ∧ exec (.badFrame p) s = .next s ∧ exec (.replySent p) s = .next s) ∧
    (∀ e dir, exec (.treadleEvent e dir) s = .next s) ∧ (∀ p o, exec (.octetReceived p o) s = .next s) ∧
    (s.supplyGood = false → ∀ lost, exec (.startSequence lost) s = .next s))

/-- R14, R80, R119, R157, R180, R187, R188, R191, R202, R204, R205, R206, R208: what the start sequence leaves: control
with the blocks and round 1 begun, every block as its own chapter gives it after a start, a lost region at its defaults
and written again, the counts of a lost CALIBRATION recovered from what remains, the marks judged, the lockout entered
with its record and snapshot, and the raises of the lost regions in the emptied register and queues. Choices of the
model: the levels of the input lines stand (log 3), each step that changes a region begins its own write (log 9), the
lost regions are the command's operand (log 11), the epoch of a good AUDIT is that of R205 (log 35), the raises come in
the order of the table (log 39), and the lamps are compared within the command (log 56), the feedback timers not being
part of this statement. -/
def Obligations.StartSequenceSetsEveryBlock : Prop :=
  ∀ (s : State) (cause : StartCause) (lost : LostRegions), s.phase = .starting cause → s.supplyGood = true →
    let table : CalTable := if lost.calibration then [] else s.cal.committed
    let site := if lost.site then Site.defaults else s.site
    let evidence := if lost.evidence then [] else s.evidence
    let stands := if lost.calibration then none else s.cal.lockout
    let entered : Option LockCode :=
      if stands ≠ none then none
      else if lost.calibration = true ∨ lost.audit = true then some .calibrationLost
      else if s.cal.accessMark = true ∧ s.cal.diffMark = true then some .calAccessInterrupted
      else none
    let raised : List FaultClass := (if lost.visits then [.visitsLost] else []) ++
      (if lost.tares then [.taresLost] else []) ++ (if lost.tickets then [.ticketsLost] else []) ++
      (if lost.site then [.siteLost] else [])
    let slot := chooseEvidenceSlot evidence .lockout
    let counter := if lost.calibration then nextSnapshotNumber ((evidence.map (·.snapshot.number)).foldl max 0)
      else s.cal.snapshotNext
    let number := freeSnapshotNumber (evidence.map (·.snapshot.number)) counter 9
    let visits := if lost.visits then [] else s.visits
    let keyed := s.tares.slots.filter (fun e => e.2.origin = .keyed)
    let rewritten : List Region := (if lost.calibration then [.calibration] else []) ++
      (if lost.audit then [.audit] else []) ++ (if lost.visits then [.visits] else []) ++
      (if lost.tares = true ∨ (lost.calibration = true ∧ lost.audit = true ∧ keyed ≠ s.tares.slots)
        then [.tares] else []) ++
      (if lost.tickets then [.tickets] else []) ++ (if lost.site then [.site] else []) ++
      (if lost.evidence then [.evidence] else [])
    let write (regions : List Region) : List RetainedWrite :=
      if regions = [] then [] else [{ regions := regions, commit := none }]
    let marks := !lost.calibration && (s.cal.accessMark || s.cal.diffMark)
    1 ≤ table.decks →
    ∃ t, exec (.startSequence lost) s = .next t ∧ t.phase = .running ∧
      -- the CALIBRATION region
      t.cal.startRecord = { cause := cause, lost := lost } ∧ t.cal.pendingMark = false ∧
      t.cal.accessMark = false ∧ t.cal.diffMark = false ∧ t.cal.committed = table ∧
      t.cal.lockout = (if entered = none then stands else entered) ∧
      (lost.calibration = false → t.cal.epoch = s.cal.epoch ∧ t.cal.flag = s.cal.flag ∧ t.cal.series = s.cal.series ∧
        t.cal.nextNumber = s.cal.nextNumber ∧ t.cal.exhausted = s.cal.exhausted ∧ t.cal.lastKey = s.cal.lastKey ∧
        t.cal.notVerified = (s.cal.notVerified || decide (entered = some .calibrationLost))) ∧
      (lost.calibration = true → t.cal.notVerified = true ∧ t.cal.flag = none ∧
        t.cal.epoch = (if lost.audit then 0 else (s.audit.records.map (·.epochAfter)).foldl max s.audit.epochMark) ∧
        t.cal.nextNumber = 1 ∧ t.cal.lastKey = none ∧
        (let top := if lost.tickets then 0 else (s.tickets.ring.map (·.key.series)).foldl max 0
         t.cal.series = min (top + 1) 99 ∧ (t.cal.exhausted = true ↔ 99 ≤ top))) ∧
      (entered = none → t.cal.lockRecord = s.cal.lockRecord ∧ t.evidence = evidence ∧
        t.cal.snapshotNext = counter) ∧
      (∀ code, entered = some code →
        t.cal.lockRecord = some { code := code, time := site.clock, bridge := .occupiedUnknown, ident := none,
                                  lastStable := none, epoch := t.cal.epoch, present := [], cleared := none } ∧
        t.cal.snapshotNext = nextSnapshotNumber number ∧
        t.evidence = evidence.filter (fun x => x.slot ≠ slot) ++ [{ slot := slot, snapshot :=
          { number := number, kind := .lockout, time := site.clock, epoch := t.cal.epoch, round := none
            cells := addresses.map (fun i =>
              { configured := table.configured i, condition := if table.configured i then some .missing else none,
                lastCount := none, lastStatus := none })
            decks := [], gross := none, rounded := none, stable := none, ident := none, draft := none } }]) ∧
      -- the other regions
      t.visits = visits.map (fun e => (e.1, e.2.returned)) ∧
      t.tares.slots = (if lost.tares then [] else if lost.calibration && lost.audit then
        keyed else s.tares.slots) ∧
      t.tares.pointer = (if lost.tares then 0 else s.tares.pointer) ∧
      t.tickets = (if lost.tickets then Tickets.defaults else s.tickets) ∧ t.site = site ∧
      t.audit = (if lost.audit then Audit.defaults else s.audit) ∧
      t.writes = write rewritten ++ write [.calibration] ++
        write (if visits.map (fun e => (e.1, e.2.returned)) = visits then [] else [.visits]) ++
        (match entered with
          | none => write (if marks then [.calibration] else [])
          | some code => write (.calibration :: (if t.evidence = evidence then [] else [.evidence])) ++
              write (if code = .calibrationLost ∧ marks = true then [.calibration] else [])) ∧
      -- the volatile state
      t.staged = none ∧ t.run = none ∧ t.inUse = none ∧ t.clockSet = false ∧ t.powered = 0 ∧ t.dipTimer = false ∧
      t.switchOn = s.switchOn ∧ t.supplyGood = true ∧ t.capture = CaptureUnit.reset ∧ t.axles = Axles.reset ∧
      t.bus.index = 1 ∧ t.bus.overruns = 0 ∧ t.bus.overrun = false ∧ t.bus.periodTimer = true ∧ t.bus.table = table ∧
      (∀ i, 1 ≤ i → i ≤ 16 →
        (table.configured i = true → t.bus.record i =
          { configured := true, condition := some .missing, miss := 0, lastCount := none, lastStatus := none,
            lastSerial := none }) ∧
        (table.configured i = false → (t.bus.record i).configured = false)) ∧
      (∀ first rest, table.configuredList = first :: rest → t.bus.inProgress = true ∧ t.bus.poll = .sending first ∧
        t.bus.toPoll = rest ∧ t.weigh = Weigh.reset) ∧
      (table.configuredList = [] → t.bus.inProgress = false ∧ t.bus.poll = .idle ∧ t.bus.handedIndex = 1 ∧
        t.weigh.zeroUnset = true ∧ t.weigh.zero = [] ∧ t.weigh.startZero = [] ∧ t.weigh.window = [] ∧
        t.weigh.stable = false ∧ t.weigh.trackingTimer = true ∧
        ∃ v, t.weigh.latest = some v ∧ v.index = 1 ∧ v.valid = false ∧ ∀ d ∈ v.decks, d.validity = .noCells) ∧
      t.bridge.state = .occupiedUnknown ∧ t.bridge.startMark = true ∧ t.bridge.grant = none ∧
      t.bridge.waiting = [] ∧ t.bridge.arrivals = 0 ∧ t.bridge.grantTimer = none ∧ t.bridge.advance = false ∧
      t.bridge.withheld = false ∧ t.bridge.aspectA = .red ∧ t.bridge.aspectB = .red ∧
      t.bridge.lampsA = s.bridge.lampsA ∧ t.bridge.lampsB = s.bridge.lampsB ∧
      t.bridge.holds.gatehouse = false ∧ t.bridge.holds.lane = false ∧ t.bridge.holds.manual = false ∧
      t.bridge.holds.metrology = false ∧ t.bridge.holds.supply = false ∧ t.bridge.holds.fault = t.faultJudged ∧
      -- the Fault Unit and the ports
      t.faults.lastStable = none ∧
      (∀ k : FaultKey, k.inst < 32 → t.faultEntry k =
        (if k.inst = 0 ∧ k.cls ∈ raised then
          { key := k, present := true, outstanding := true, count := 1, raisedAt := some site.clock }
         else FaultEntry.blank k)) ∧
      (∀ p, (t.port p).receiver = .hunting ∧ (t.port p).replies = [] ∧ (t.port p).overflow = false ∧
        (t.port p).notices =
          (match entered with
            | none => []
            | some code =>
              (if p = .metrology then [.snapshotTaken number .lockout slot
                ((evidence.find? (fun x => x.slot = slot)).map (fun x => (x.snapshot.number, x.snapshot.kind)))]
               else []) ++ [.lockoutEntered code site.clock]) ++
          raised.map (fun c => .faultRaised { cls := c, inst := 0 } false (t.policy c) .none_ site.clock none)) ∧
      t = { s with phase := t.phase, bus := t.bus, weigh := t.weigh, capture := t.capture, bridge := t.bridge,
                   axles := t.axles, visits := t.visits, inUse := none, tares := t.tares, tickets := t.tickets,
                   cal := t.cal, staged := none, audit := t.audit, run := none, evidence := t.evidence,
                   faults := t.faults, site := t.site, clockSet := false, powered := 0, dipTimer := false,
                   ports := t.ports, writes := t.writes, outbox := [], commitNote := none }

/-- R203, R153: the oldest retained write completes, in the order the writes were begun; that of a commit queues
CALIBRATION_COMMITTED. A completion that finds no such write in front is no event (log 9). -/
def Obligations.RetainedWritesCompleteInOrder : Prop :=
  ∀ s : State,
    (∀ w rest, s.writes = w :: rest → w.commit = none →
      exec .retainedWriteComplete s = .next { s with writes := rest } ∧ exec .commitWriteComplete s = .next s) ∧
    (∀ w rest n, s.writes = w :: rest → w.commit = some n →
      exec .retainedWriteComplete s = .next s ∧
      exec .commitWriteComplete s =
        .next (({ s with writes := rest } : State).told [.metrology, .gatehouse] (.calibrationCommitted n))) ∧
    (s.writes = [] → exec .retainedWriteComplete s = .next s ∧ exec .commitWriteComplete s = .next s)

/-! ### The Port Controller's requests -/

/-- R198, R199, R200, R207: Fetch Notice, Set Site Time, Write Site Setting and Restart. -/
def Obligations.PortControllerRequests : Prop :=
  (∀ p, permitted 1 p = true) ∧ (∀ p, permitted 2 p = true ↔ p = .gatehouse) ∧
  (∀ p, permitted 4 p = true ↔ p = .gatehouse) ∧ (∀ p, permitted 100 p = true ↔ p = .metrology) ∧
  ∀ (s : State) (p : Port) (tag : Octet) (payload : List Octet),
    (s.ready p 1 payload = true →
      ((s.port p).notices = [] → exec (.fetchNotice p tag payload) s = .next (s.answered p 1 tag .empty .empty)) ∧
      (∀ n rest, (s.port p).notices = n :: rest →
        exec (.fetchNotice p tag payload) s =
          .next ((s.setPort p { s.port p with notices := rest }).answered p 1 tag .ok (.notice n)))) ∧
    (s.ready p 2 payload = true →
      ((timeAt payload 0).valid = false →
        exec (.setSiteTime p tag payload) s = .next (s.answered p 2 tag .badArgument .empty)) ∧
      ((timeAt payload 0).valid = true →
        exec (.setSiteTime p tag payload) s =
          .next (retain s (({ s with site.clock := timeAt payload 0, clockSet := true } : State).answered p 2 tag
            .ok .empty)))) ∧
    (s.ready p 4 payload = true →
      (settingInRange (natAt payload 0 1) (natAt payload 1 4) = false →
        exec (.writeSiteSetting p tag payload) s = .next (s.answered p 4 tag .badArgument .empty)) ∧
      (settingInRange (natAt payload 0 1) (natAt payload 1 4) = true →
        exec (.writeSiteSetting p tag payload) s =
          .next (retain s (({ s with
            site.settings := s.site.settings.write (natAt payload 0 1) (natAt payload 1 4) } : State).answered
            p 4 tag .ok .empty)))) ∧
    (s.ready p 100 payload = true →
      (s.hasHeadroom = false → exec (.restart p tag payload) s = .next (s.answered p 100 tag .logFull .empty)) ∧
      (s.hasHeadroom = true →
        exec (.restart p tag payload) s =
          .next (retain s (((({ s with
            audit := { records := s.audit.records ++ [{ number := s.audit.next, time := s.site.clock,
                                                        epochBefore := s.cal.epoch, epochAfter := s.cal.epoch,
                                                        body := .restartOrdered }]
                       next := s.audit.next + 1
                       epochMark := max s.audit.epochMark s.cal.epoch } } : State).noteNearFull).flush).answered
            p 100 tag .ok .empty))))

/-! ### Configurations, drafts and visits -/

/-- R89, R102, R106: Write Configuration, Clear Configuration, Restart Weighing, with its notice, and Release Trace.
That the group entries beyond the number, which R201 has sent as 0, are not read is the model's reading (log 13). -/
def Obligations.ConfigurationAndDraftRequests : Prop :=
  (∀ k ∈ [30, 31, 33], ∀ p, permitted k p = true ↔ p = .gatehouse) ∧ (∀ p, permitted 35 p = true ↔ p ≠ .lane) ∧
  ∀ (s : State) (p : Port) (tag : Octet) (payload : List Octet),
    (s.ready p 30 payload = true →
      (∀ code, s.configurationRefusal (natAt payload 0 1)
          (configurationOk s.cal.committed.e (natAt payload 1 1) (configurationAt payload)) = some code →
        exec (.writeConfiguration p tag payload) s = .next (s.answered p 30 tag code .empty)) ∧
      (s.configurationRefusal (natAt payload 0 1)
          (configurationOk s.cal.committed.e (natAt payload 1 1) (configurationAt payload)) = none →
        exec (.writeConfiguration p tag payload) s =
          .next (retain s (({ s with
            site.catalogue := Table.set s.site.catalogue (natAt payload 0 1) (configurationAt payload) } : State).answered
            p 30 tag .ok .empty)))) ∧
    (s.ready p 31 payload = true →
      (∀ code, s.configurationRefusal (natAt payload 0 1) true = some code →
        exec (.clearConfiguration p tag payload) s = .next (s.answered p 31 tag code .empty)) ∧
      (s.configurationRefusal (natAt payload 0 1) true = none →
        exec (.clearConfiguration p tag payload) s =
          .next (retain s (({ s with
            site.catalogue := Table.erase s.site.catalogue (natAt payload 0 1) } : State).answered p 31 tag .ok .empty)))) ∧
    (∀ code content, s.configurationRefusal code content =
      (if ¬(1 ≤ code ∧ code ≤ 24) then some .noSuchConfiguration
       else if code ≤ 8 then some .fixedConfiguration
       else if content = false then some .badConfiguration
       else if ∃ e ∈ s.visits, e.2.config = some code then some .configurationInUse
       else none)) ∧
    (s.ready p 33 payload = true →
      (s.bridge.state ≠ .occupied →
        exec (.restartWeighing p tag payload) s = .next (s.answered p 33 tag .noVehicle .empty)) ∧
      (s.bridge.state = .occupied → (∀ v, s.visitInUse = some v → v.draft.used = 0) →
        exec (.restartWeighing p tag payload) s = .next (s.answered p 33 tag .noDrafts .empty)) ∧
      (∀ pos v, s.bridge.state = .occupied → s.inUse = some pos → Table.get? s.visits pos = some v →
        v.draft.used ≠ 0 →
        ∃ t, exec (.restartWeighing p tag payload) s = .next t ∧ t.replied p 33 tag .ok .empty = true ∧
          Table.get? t.visits pos = some { v with draft := { used := 0, groups := [], inconsistent := false } } ∧
          (∀ q, q ≠ pos → Table.get? t.visits q = Table.get? s.visits q) ∧
          t.bridge.advance = false ∧ t.bridge.withheld = s.bridge.withheld ∧ t.bridge.state = .occupied ∧
          t.bridge.grant = s.bridge.grant ∧
          t.ports = ((t.heard s [(.lane, .weighingRestarted v.ident)]).answered p 33 tag .ok .empty).ports ∧
          t = { s with visits := t.visits, bridge := t.bridge, faults := t.faults, ports := t.ports,
                       writes := t.writes })) ∧
    (s.ready p 35 payload = true →
      exec (.releaseTrace p tag payload) s =
        .next (({ s with axles.trace.frozen := none } : State).answered p 35 tag .ok .empty))

/-- R86, R108, R109, R110, R118: Open Visit, Amend Visit, Cancel Visit and Expire Visits, with the table of R109 and the
fields that an Amend Visit carries and replaces (R201); a malformed ident is refused before all else (R201). Bits that
R201 has sent as 0 are not read (log 13). -/
def Obligations.VisitRequests : Prop :=
  (∀ k ∈ [39, 40, 41, 42], ∀ p, permitted k p = true ↔ p = .gatehouse) ∧
  ∀ (s : State) (p : Port) (tag : Octet) (payload : List Octet),
    (s.ready p 39 payload = true →
      (72 < natAt payload 0 1 →
        exec (.expireVisits p tag payload) s = .next (s.answered p 39 tag .badArgument .empty)) ∧
      (natAt payload 0 1 ≤ 72 →
        let leaves (e : Nat × Visit) : Bool :=
          e.2.awaiting && decide (s.inUse ≠ some e.1) && s.bridge.waiting.all (fun w => w.ident ≠ e.2.ident) &&
            decide (natAt payload 0 1 * 3600 ≤ e.2.age)
        exec (.expireVisits p tag payload) s =
          .next (retain s (({ s with visits := s.visits.filter (fun e => !leaves e) } : State).answered p 39 tag .ok
            (.removed (s.visits.filter leaves).length))))) ∧
    (s.ready p 40 payload = true →
      (identAt payload 0 = none →
        exec (.openVisit p tag payload) s = .next (s.answered p 40 tag .badArgument .empty)) ∧
      (∀ id, identAt payload 0 = some id →
        let kind := natAt payload 12 1
        let commodity := natAt payload 13 1
        let code := natAt payload 14 1
        let cls := natAt payload 15 1
        let useStored := bitAt payload 16 0
        let argsOk := kind ≤ 1 ∧ commodity ≤ 15 ∧ (cls ≤ 3 ∨ cls = 255) ∧ ¬(useStored = true ∧ kind = 1)
        (¬argsOk → exec (.openVisit p tag payload) s = .next (s.answered p 40 tag .badArgument .empty)) ∧
        (argsOk → findVisit s.visits id ≠ none →
          exec (.openVisit p tag payload) s = .next (s.answered p 40 tag .duplicateVisit .empty)) ∧
        (argsOk → findVisit s.visits id = none →
          (code ≠ 0 → s.entryOf code = none →
            exec (.openVisit p tag payload) s = .next (s.answered p 40 tag .badConfiguration .empty)) ∧
          (code = 0 ∨ s.entryOf code ≠ none →
            ((∀ q < 256, Table.get? s.visits q ≠ none) →
              exec (.openVisit p tag payload) s = .next (s.answered p 40 tag .visitTableFull .empty)) ∧
            (∀ pos < 256, Table.get? s.visits pos = none → (∀ q < pos, Table.get? s.visits q ≠ none) →
              exec (.openVisit p tag payload) s =
                .next (retain s (({ s with
                  visits := Table.set s.visits pos
                    { ident := id, kind := if kind = 1 then .collection else .delivery, commodity := commodity,
                      config := if code = 0 then none else some code, cls := if cls = 255 then none else some cls,
                      useStored := useStored, learn := bitAt payload 16 1, state := .awaitingFirst, first := none,
                      draft := { used := 0, groups := [], inconsistent := false }, age := 0 } } : State).answered
                  p 40 tag .ok (.position pos)))))))) ∧
    (s.ready p 41 payload = true →
      (identAt payload 0 = none →
        exec (.amendVisit p tag payload) s = .next (s.answered p 41 tag .badArgument .empty)) ∧
      (∀ id, identAt payload 0 = some id → findVisit s.visits id = none →
        exec (.amendVisit p tag payload) s = .next (s.answered p 41 tag .noVisit .empty)) ∧
      (∀ id pos v, identAt payload 0 = some id → findVisit s.visits id = some (pos, v) →
        let m := carriedAt payload 12
        let a := visitArgsAt payload 13
        let carries (n : Nat) : Prop := natAt payload 12 1 / 2 ^ n % 2 = 1
        let kind := natAt payload 13 1
        let commodity := natAt payload 14 1
        let code := natAt payload 15 1
        let cls := natAt payload 16 1
        let w := v.amended m a
        (carries 0 → w.kind = (if kind = 1 then .collection else .delivery)) ∧ (¬carries 0 → w.kind = v.kind) ∧
        (carries 1 → w.commodity = commodity) ∧ (¬carries 1 → w.commodity = v.commodity) ∧
        (carries 2 → w.config = (if code = 0 then none else some code)) ∧ (¬carries 2 → w.config = v.config) ∧
        (carries 3 → w.cls = (if cls = 255 then none else some cls)) ∧ (¬carries 3 → w.cls = v.cls) ∧
        (carries 4 → (w.useStored = true ↔ natAt payload 17 1 % 2 = 1)) ∧ (¬carries 4 → w.useStored = v.useStored) ∧
        (carries 5 → (w.learn = true ↔ natAt payload 17 1 / 2 % 2 = 1)) ∧ (¬carries 5 → w.learn = v.learn) ∧
        s.amendRefusal pos v m a =
          (if (carries 0 ∧ 1 < kind) ∨ (carries 1 ∧ 15 < commodity) ∨ (carries 3 ∧ 3 < cls ∧ cls ≠ 255) ∨
              (w.useStored = true ∧ w.kind = .collection) then some .badArgument
           else if carries 2 ∧ code ≠ 0 ∧ s.entryOf code = none then some .badConfiguration
           else if s.inUse = some pos ∧ 1 ≤ v.draft.used then some .visitInUse
           else if carries 0 ∧ w.kind ≠ v.kind ∧ v.first ≠ none then some .kindFixed
           else none) ∧
        (∀ code, s.amendRefusal pos v m a = some code →
          exec (.amendVisit p tag payload) s = .next (s.answered p 41 tag code .empty)) ∧
        (s.amendRefusal pos v m a = none → s.inUse ≠ some pos →
          exec (.amendVisit p tag payload) s =
            .next (retain s (({ s with visits := Table.set s.visits pos (v.amended m a) } : State).answered
              p 41 tag .ok .empty))) ∧
        (s.amendRefusal pos v m a = none → s.inUse = some pos →
          ∃ t, exec (.amendVisit p tag payload) s = .next t ∧ t.replied p 41 tag .ok .empty = true ∧
            Table.get? t.visits pos = some (v.amended m a) ∧
            (∀ q, q ≠ pos → Table.get? t.visits q = Table.get? s.visits q) ∧
            (t.axles.axleCount = true ↔ ∃ c, s.configOf (v.amended m a) = some c ∧ c.total < s.axles.entered) ∧
            (∀ c, s.configOf (v.amended m a) = some c → c.total < s.axles.entered → s.axles.axleCount = false →
              t.ports = ((t.heard s (notesTo [.lane, .gatehouse]
                (.axleCount v.ident s.axles.entered c.total))).answered p 41 tag .ok .empty).ports) ∧
            (s.axles.axleCount = true ∨ t.axles.axleCount = false →
              t.ports = ((t.heard s []).answered p 41 tag .ok .empty).ports) ∧
            t = { s with visits := t.visits, axles.axleCount := t.axles.axleCount, ports := t.ports,
                         writes := t.writes }) ∧
        (s.amendRefusal pos v m a = none →
          ¬((v.amended m a).useStored = true ∧ (v.amended m a).kind = .collection)) ∧
        (v.amended m a).state = v.state ∧ (v.amended m a).first = v.first ∧ (v.amended m a).draft = v.draft ∧
        (v.amended m a).age = v.age ∧ (v.amended m a).ident = v.ident)) ∧
    (s.ready p 42 payload = true →
      (identAt payload 0 = none →
        exec (.cancelVisit p tag payload) s = .next (s.answered p 42 tag .badArgument .empty)) ∧
      (∀ id, identAt payload 0 = some id → findVisit s.visits id = none →
        exec (.cancelVisit p tag payload) s = .next (s.answered p 42 tag .noVisit .empty)) ∧
      (∀ id pos v, identAt payload 0 = some id → findVisit s.visits id = some (pos, v) →
        (s.inUse = some pos →
          exec (.cancelVisit p tag payload) s = .next (s.answered p 42 tag .visitInUse .empty)) ∧
        (s.inUse ≠ some pos →
          exec (.cancelVisit p tag payload) s =
            .next (retain s (({ s with
              visits := Table.erase s.visits pos
              bridge.waiting := s.bridge.waiting.filter (fun q => q.ident ≠ id) } : State).answered
              p 42 tag .ok .empty)))))

/-! ### Tares and tickets -/

/-- R121, R122, R123: a lookup and a store: what each finds or chooses, and where the replacement pointer goes. -/
def Obligations.LookupsAndStoresMoveThePointer : Prop :=
  ∀ (s : State) (t : Tare),
    (∀ slot old, findTare s.tares.slots t.ident = some (slot, old) → s.runOut old = false →
      s.lookup t.ident = .found slot old ∧
      s.tares.looked (s.lookup t.ident) =
        { s.tares with pointer := if s.tares.pointer = slot then nextSlot slot else s.tares.pointer }) ∧
    (∀ slot old, findTare s.tares.slots t.ident = some (slot, old) → s.runOut old = true →
      s.lookup t.ident = .expired slot ∧
      s.tares.looked (s.lookup t.ident) = { s.tares with slots := Table.erase s.tares.slots slot }) ∧
    (findTare s.tares.slots t.ident = none → s.lookup t.ident = .notHeld ∧
      s.tares.looked (s.lookup t.ident) = s.tares) ∧
    (let valid := s.tares.slots.filter (fun e => !s.runOut e.2)
     let stored (slot : Nat) : State := { s with tares := { slots := Table.set valid slot t
                                                            pointer := if s.tares.pointer = slot then nextSlot slot
                                                                       else s.tares.pointer } }
     (∀ slot old, findTare valid t.ident = some (slot, old) → s.storeTare t = some (stored slot, slot)) ∧
     (∀ slot < 96, findTare valid t.ident = none → Table.get? valid slot = none →
       (∀ j < slot, Table.get? valid j ≠ none) → s.storeTare t = some (stored slot, slot)) ∧
     (∀ k < 96, ∀ old, findTare valid t.ident = none → (∀ j < 96, Table.get? valid j ≠ none) →
       Table.get? valid ((s.tares.pointer + k) % 96) = some old → old.origin = .learned →
       (∀ j < k, ∀ o, Table.get? valid ((s.tares.pointer + j) % 96) = some o → o.origin = .keyed) →
       s.storeTare t =
         some (({ s with tares := { slots := Table.set valid ((s.tares.pointer + k) % 96) t
                                    pointer := nextSlot ((s.tares.pointer + k) % 96) } } : State).post .gatehouse
           (.tareReplaced old.ident ((s.tares.pointer + k) % 96)), (s.tares.pointer + k) % 96)) ∧
     (findTare valid t.ident = none → (∀ j < 96, ∃ o, Table.get? valid j = some o ∧ o.origin = .keyed) →
       s.storeTare t = none))

/-- R121, R124, R125: Check Tare, Key Tare, Flush Tares and Delete Tare; a malformed ident is refused before all else
(R201). That bridge Max bounds a keyed tare as in the committed table is the model's choice (log 52). -/
def Obligations.TareRequests : Prop :=
  (∀ k ∈ [45, 47], ∀ p, permitted k p = true ↔ p = .gatehouse) ∧ (∀ p, permitted 46 p = true ↔ p = .metrology) ∧
  (∀ p, permitted 48 p = true ↔ p ≠ .lane) ∧
  ∀ (s : State) (p : Port) (tag : Octet) (payload : List Octet),
    (identAt payload 0 = none →
      (s.ready p 45 payload = true →
        exec (.checkTare p tag payload) s = .next (s.answered p 45 tag .badArgument .empty)) ∧
      (s.ready p 46 payload = true →
        exec (.keyTare p tag payload) s = .next (s.answered p 46 tag .badArgument .empty)) ∧
      (s.ready p 48 payload = true →
        exec (.deleteTare p tag payload) s = .next (s.answered p 48 tag .badArgument .empty))) ∧
    (∀ id, s.ready p 45 payload = true → identAt payload 0 = some id →
      (∀ slot t, s.lookup id = .found slot t →
        exec (.checkTare p tag payload) s =
          .next (retain s (({ s with tares := s.tares.looked (s.lookup id) } : State).answered p 45 tag .ok
            (.tareFound slot t)))) ∧
      (∀ slot, s.lookup id = .expired slot →
        exec (.checkTare p tag payload) s =
          .next (retain s (({ s with tares := s.tares.looked (s.lookup id) } : State).answered p 45 tag .ok
            (.tareNone .expired)))) ∧
      (s.lookup id = .notHeld →
        exec (.checkTare p tag payload) s = .next (s.answered p 45 tag .ok (.tareNone .notHeld)))) ∧
    (∀ id, s.ready p 46 payload = true → identAt payload 0 = some id →
      let kg := intAt payload 12 4
      let cls := natAt payload 16 1
      let argsOk := kg % s.cal.committed.e = 0 ∧ 0 ≤ kg ∧ kg ≤ s.cal.committed.bridgeMax ∧ (cls ≤ 3 ∨ cls = 255)
      let t : Tare := { ident := id, tare := kg, origin := .keyed, epoch := s.cal.epoch, stored := s.site.clock.date,
                        cls := if cls = 255 then none else some cls }
      (¬argsOk → exec (.keyTare p tag payload) s = .next (s.answered p 46 tag .badArgument .empty)) ∧
      (argsOk → s.storeTare t = none →
        exec (.keyTare p tag payload) s = .next (s.answered p 46 tag .tareTableFull .empty)) ∧
      (∀ u slot, argsOk → s.storeTare t = some (u, slot) → s.hasHeadroom = false →
        exec (.keyTare p tag payload) s = .next (s.answered p 46 tag .logFull .empty)) ∧
      (∀ u slot, argsOk → s.storeTare t = some (u, slot) → s.hasHeadroom = true →
        exec (.keyTare p tag payload) s =
          .next (retain s (((u.appendAtEpoch (.keyedTare id kg)).noteNearFull.flush).answered p 46 tag .ok
            (.slot slot))))) ∧
    (s.ready p 47 payload = true →
      exec (.flushTares p tag payload) s =
        .next (retain s (({ s with
          tares.slots := s.tares.slots.filter (fun e => e.2.origin = .keyed) } : State).answered p 47 tag .ok
          (.invalidated (s.tares.slots.filter (fun e => e.2.origin = .learned)).length)))) ∧
    (∀ id, s.ready p 48 payload = true → identAt payload 0 = some id →
      (findTare s.tares.slots id = none →
        exec (.deleteTare p tag payload) s = .next (s.answered p 48 tag .noTare .empty)) ∧
      (∀ slot t, findTare s.tares.slots id = some (slot, t) →
        (p = .gatehouse → t.origin = .keyed →
          exec (.deleteTare p tag payload) s = .next (s.answered p 48 tag .tareKeyed .empty)) ∧
        (p = .metrology ∨ t.origin = .learned →
          exec (.deleteTare p tag payload) s =
            .next (retain s (({ s with tares.slots := Table.erase s.tares.slots slot } : State).answered
              p 48 tag .ok .empty)))))

/-- R127 to R131, R133, R134, R136, R139, R140: the ticket of a hand-off: gross and tare by the kind of the visit, the net,
the flags of R130 and R131; the ticket takes the number of the sequence, which then rises, rolls or is EXHAUSTED; it
joins the ring and the totals of the shift; and the notices of the issue. -/
def Obligations.TicketsTakeTheirWeightsAndNumber : Prop :=
  (∀ (key : TicketKey) (v : Visit) (first second : WeighRecord),
    let k := ticketOf key v (.weighed first second)
    let g := match v.kind with | .delivery => first | .collection => second
    let t := match v.kind with | .delivery => second | .collection => first
    k.key = key ∧ k.ident = v.ident ∧ k.kind = v.kind ∧ k.commodity = v.commodity ∧ k.config = v.config ∧
    k.gross = g.weight ∧ k.tare = t.weight ∧ k.net = g.weight - t.weight ∧ k.grossSource = g.source ∧
    k.tareSource = t.source ∧ k.firstEpoch = first.epoch ∧ k.secondEpoch = second.epoch ∧ k.firstTime = first.time ∧
    k.secondDate = second.time.date ∧ k.secondTod = some second.time.tod ∧ k.groups = g.groups ∧
    k.combination = g.combination ∧ (k.flags.crossEpoch = true ↔ first.epoch ≠ second.epoch) ∧
    (k.flags.negativeNet = true ↔ g.weight < t.weight) ∧ k.flags.keyedTare = decide (t.source = .keyedTare) ∧
    (k.flags.composed = true ↔ g.source = .composed ∨ t.source = .composed) ∧
    (k.flags.inconsistentDraft = true ↔ g.inconsistent = true ∨ t.inconsistent = true) ∧
    (k.flags.overVerdict = true ↔ g.combination = .over ∨ ∃ x ∈ g.groups, x.verdict = .over) ∧
    (k.flags.advisoryVerdict = true ↔ g.combination = .advisory ∨ ∃ x ∈ g.groups, x.verdict = .advisory)) ∧
  (∀ (key : TicketKey) (v : Visit) (first : WeighRecord) (slot : Tare),
    let k := ticketOf key v (.stored first slot)
    k.gross = first.weight ∧ k.tare = slot.tare ∧ k.net = first.weight - slot.tare ∧ k.grossSource = first.source ∧
    k.tareSource = (match slot.origin with | .learned => .storedTare | .keyed => .keyedTare) ∧
    k.firstEpoch = first.epoch ∧ k.secondEpoch = slot.epoch ∧ k.secondDate = slot.stored ∧ k.secondTod = none ∧
    (k.flags.crossEpoch = true ↔ first.epoch ≠ slot.epoch) ∧ (k.flags.keyedTare = true ↔ slot.origin = .keyed) ∧
    (k.flags.negativeNet = true ↔ first.weight < slot.tare) ∧
    (k.flags.composed = true ↔ first.source = .composed) ∧ k.flags.inconsistentDraft = first.inconsistent ∧
    (k.flags.overVerdict = true ↔ first.combination = .over ∨ ∃ x ∈ first.groups, x.verdict = .over) ∧
    (k.flags.advisoryVerdict = true ↔ first.combination = .advisory ∨ ∃ x ∈ first.groups, x.verdict = .advisory)) ∧
  ∀ (s : State) (v : Visit) (h : TicketHandoff),
    let t := s.issueTicket v h
    let k := ticketOf { series := s.cal.series, number := s.cal.nextNumber } v h
    t.tickets.ring = s.tickets.ring ++ [k] ∧ t.tickets.shift = s.tickets.shift.take k ∧
    t.tickets.last = s.tickets.last ∧ t.outbox = s.outbox ++ s.issueNews k ∧
    (s.cal.nextNumber < 99999999 →
      t.cal = { s.cal with lastKey := some k.key, nextNumber := s.cal.nextNumber + 1 }) ∧
    (99999999 ≤ s.cal.nextNumber → s.cal.series < 99 →
      t.cal = { s.cal with lastKey := some k.key, nextNumber := 1, series := s.cal.series + 1 }) ∧
    (99999999 ≤ s.cal.nextNumber → 99 ≤ s.cal.series →
      t.cal = { s.cal with lastKey := some k.key, exhausted := true }) ∧
    t = { s with cal := t.cal, tickets := t.tickets, outbox := t.outbox }

/-- R135, R137, R140, R141: Roll Ticket Series, Collect Tickets and Close Shift, and what a ticket adds to the totals of
its commodity and kind. -/
def Obligations.TicketRequestsAndTotals : Prop :=
  (∀ p, permitted 51 p = true ↔ p = .metrology) ∧ (∀ k ∈ [52, 55], ∀ p, permitted k p = true ↔ p = .gatehouse) ∧
  (∀ (s : State) (p : Port) (tag : Octet) (payload : List Octet),
    (s.ready p 51 payload = true →
      (99 ≤ s.cal.series → exec (.rollTicketSeries p tag payload) s =
        .next (s.answered p 51 tag .seriesLimit .empty)) ∧
      (s.cal.series < 99 → s.hasHeadroom = false → exec (.rollTicketSeries p tag payload) s =
        .next (s.answered p 51 tag .logFull .empty)) ∧
      (s.cal.series < 99 → s.hasHeadroom = true →
        exec (.rollTicketSeries p tag payload) s =
          .next (retain s ((((({ s with
            cal.series := s.cal.series + 1
            cal.nextNumber := 1
            audit := { records := s.audit.records ++ [{ number := s.audit.next, time := s.site.clock,
                                                        epochBefore := s.cal.epoch, epochAfter := s.cal.epoch,
                                                        body := .seriesRoll (s.cal.series + 1) }]
                       next := s.audit.next + 1
                       epochMark := max s.audit.epochMark s.cal.epoch } } : State).postAll [.gatehouse, .metrology]
            (.seriesRolled (s.cal.series + 1) .requested)).noteNearFull).flush).answered p 51 tag .ok
            (.series (s.cal.series + 1)))))) ∧
    (s.ready p 52 payload = true →
      (¬(1 ≤ (keyAt payload).series ∧ (keyAt payload).series ≤ 99 ∧ 1 ≤ (keyAt payload).number ∧
          (keyAt payload).number ≤ 99999999) →
        exec (.collectTickets p tag payload) s = .next (s.answered p 52 tag .badArgument .empty)) ∧
      (1 ≤ (keyAt payload).series → (keyAt payload).series ≤ 99 → 1 ≤ (keyAt payload).number →
        (keyAt payload).number ≤ 99999999 →
        ((∀ t ∈ s.tickets.ring, t.key.le (keyAt payload) = false) →
          exec (.collectTickets p tag payload) s = .next (s.answered p 52 tag .nothingToCollect .empty)) ∧
        (∀ newest, (s.tickets.ring.filter (fun t => t.key.le (keyAt payload))).getLast? = some newest →
          exec (.collectTickets p tag payload) s =
            .next (retain s (({ s with
              tickets.ring := s.tickets.ring.filter (fun t => !t.key.le (keyAt payload)) } : State).answered
              p 52 tag .ok
              (.collected (s.tickets.ring.filter (fun t => t.key.le (keyAt payload))).length newest.key)))))) ∧
    (s.ready p 55 payload = true →
      exec (.closeShift p tag payload) s =
        .next (retain s (({ s with
          tickets.last := some { totals := s.tickets.shift, time := s.site.clock }
          tickets.shift := { totals := [], flagged := [], firstKey := none, lastKey := none } } : State).answered
          p 55 tag .ok (.shiftClosed s.site.clock))))) ∧
  ∀ (t : ShiftTotals) (k : Ticket),
    (t.take k).lastKey = some k.key ∧ (t.take k).firstKey = some (t.firstKey.getD k.key) ∧
    (k.net < 0 → (t.take k).totals = t.totals ∧
      ((t.take k).flaggedOf k.commodity).count = min ((t.flaggedOf k.commodity).count + 1) 65535 ∧
      (((t.take k).flaggedOf k.commodity).ovf = true ↔
        (t.flaggedOf k.commodity).ovf = true ∨ 65535 ≤ (t.flaggedOf k.commodity).count) ∧
      ∀ c, c ≠ k.commodity → (t.take k).flaggedOf c = t.flaggedOf c) ∧
    (0 ≤ k.net → (t.take k).flagged = t.flagged ∧
      (let old := t.total (totalKey k.commodity k.kind)
       let new := (t.take k).total (totalKey k.commodity k.kind)
       (new.net : Int) = min (old.net + k.net) 999999999 ∧ new.count = min (old.count + 1) 65535 ∧
       (new.ovf = true ↔ old.ovf = true ∨ 999999999 < old.net + k.net ∨ 65535 < old.count + 1)) ∧
      ∀ c kind, (c, kind) ≠ (k.commodity, k.kind) →
        (t.take k).total (totalKey c kind) = t.total (totalKey c kind))

/-! ### Drafts -/

/-- R85, R92 to R99, R101: how a stop resolves: the refusals in order, the occupied decks in travel order, a stop whose
groups and decks differ in number, the limit of six drafts, a visit without a configuration, the verdict of a weight;
where groups and decks agree, each group takes its deck in order, keeps what it had captured, or is captured with its
verdict, a second weight beyond the band sets the inconsistency mark, and the draft completes exactly where it is
single or every group is captured. The OVER groups reported are exactly those captured OVER in this draft, with their
limits, and the gross is reported exactly where the combination verdict is OVER (R101). That a STRADDLE carries the
decks in travel order is the model's reading (log 25). -/
def Obligations.StopsResolveToDraftsOrRefusals : Prop :=
  (∀ h : Handoff,
    (h.exited = 0 → 1 ≤ h.entered → ∃ d, resolveDraft none h = .result d ∧ d.draft.used = h.draft.used + 1 ∧
      d.overGroups = [] ∧ d.overCombination = none ∧ ∃ w, d.content = some w ∧ w.weight = h.rounded ∧
        w.source = .single ∧ w.groups = [] ∧ w.combination = .notChecked) ∧
    (¬(h.exited = 0 ∧ 1 ≤ h.entered) → resolveDraft none h = .refused .notWhollyOn)) ∧
  (∀ (travel : Travel) (threshold : Int) (decks : List DeckValues),
    occupiedDecks travel threshold decks =
      (let on := (numbered decks).filterMap (fun e =>
         e.2.rounded.bind (fun w => if threshold ≤ w then some (e.1, w) else none))
       match travel with | .aToB => on.reverse | .bToA => on)) ∧
  (∀ weight limit tolerance : Int, 0 ≤ tolerance →
    (verdictOf weight limit tolerance = .within ↔ weight ≤ limit) ∧
    (verdictOf weight limit tolerance = .advisory ↔ limit < weight ∧ weight ≤ limit + tolerance) ∧
    (verdictOf weight limit tolerance = .over ↔ limit + tolerance < weight)) ∧
  ∀ (c : Configuration) (h : Handoff),
    let wholly (r : Nat × Nat) : Prop := h.exited + 1 ≤ r.1 ∧ r.2 ≤ h.entered
    let partly (r : Nat × Nat) : Prop :=
      (∃ k, (h.exited < k ∧ k ≤ h.entered) ∧ r.1 ≤ k ∧ k ≤ r.2) ∧ ¬wholly r
    let single := h.draft.used = 0 ∧ h.entered = c.total ∧ h.exited = 0
    let on := groupsOn h.entered h.exited c.ranges
    let m := (groupsOn h.entered h.exited c.ranges).length
    let decks := occupiedDecks h.travel h.threshold h.decks
    let overs (d : DraftResult) : Prop :=
      (∀ x : OverGroup, x ∈ d.overGroups ↔ ∃ a, (x.group, a) ∈ d.draft.groups ∧ a.draft = h.draft.used + 1 ∧
        a.verdict = .over ∧ x.weight = a.weight ∧ x.limit = ((c.groups[x.group - 1]?).map (·.limit)).getD 0) ∧
      (d.content = none → d.overCombination = none) ∧
      (∀ w, d.content = some w → d.overCombination =
        (if c.combination + c.tolerance < w.weight ∧ c.combination < w.weight then some (w.weight, c.combination)
         else none)) ∧
      (d.anyOver = true ↔ d.overGroups ≠ [] ∨ d.overCombination ≠ none)
    (∀ g, g ∈ on ↔ ∃ r, (g, r) ∈ numbered c.ranges ∧ wholly r) ∧ on.Pairwise (· < ·) ∧
    (h.mark = true → resolveDraft (some c) h = .refused .axleCount) ∧
    (h.mark = false →
      ((∃ r ∈ c.ranges, partly r) → resolveDraft (some c) h = .refused .partialGroup) ∧
      ((∀ r ∈ c.ranges, ¬partly r) →
        ((∀ r ∈ c.ranges, ¬wholly r) → resolveDraft (some c) h = .refused .noGroup) ∧
        ((∃ r ∈ c.ranges, wholly r) →
          (m ≠ decks.length → ¬single →
            resolveDraft (some c) h = .straddle (h.exited + 1) h.entered m (decks.map (·.1))) ∧
          (m ≠ decks.length → single →
            ∃ d w, resolveDraft (some c) h = .result d ∧ d.draft.used = 1 ∧ d.draft.groups = h.draft.groups ∧
              d.draft.inconsistent = h.draft.inconsistent ∧
              d.content = some w ∧ w.weight = h.rounded ∧ w.source = .single ∧ w.drafts = 1 ∧
              w.groups.length = c.groups.length ∧
              (h.draft.groups = [] → ∀ x ∈ w.groups, x.verdict = .unresolved ∧ x.weight = none) ∧
              w.combination = verdictOf h.rounded c.combination c.tolerance ∧ overs d) ∧
          (m = decks.length → 6 ≤ h.draft.used → resolveDraft (some c) h = .refused .draftLimit) ∧
          (m = decks.length → h.draft.used < 6 →
            ∃ d, resolveDraft (some c) h = .result d ∧ d.draft.used = h.draft.used + 1 ∧
              (∀ (n g : Nat) (e : Nat × Int), on[n]? = some g → decks[n]? = some e →
                (∀ old, Table.get? h.draft.groups g = some old → Table.get? d.draft.groups g = some old) ∧
                (∀ a, Table.get? h.draft.groups g = none → c.groups[g - 1]? = some a →
                  Table.get? d.draft.groups g =
                    some { weight := e.2, verdict := verdictOf e.2 a.limit c.tolerance, draft := h.draft.used + 1 })) ∧
              (∀ g, g ∉ on → Table.get? d.draft.groups g = Table.get? h.draft.groups g) ∧
              (d.draft.inconsistent = true ↔ h.draft.inconsistent = true ∨
                ∃ (n g : Nat) (e : Nat × Int) (old : CapturedGroup), on[n]? = some g ∧ decks[n]? = some e ∧
                  Table.get? h.draft.groups g = some old ∧ h.band < |e.2 - old.weight|) ∧
              (d.content ≠ none ↔
                single ∨ ∀ g, 1 ≤ g → g ≤ c.groups.length → Table.get? d.draft.groups g ≠ none) ∧
              overs d ∧
              (∀ w, d.content = some w → w.inconsistent = d.draft.inconsistent ∧
                (w.source = .single ↔ single) ∧ (w.source = .composed ↔ ¬single) ∧
                w.groups = (d.draft.records c).map (fun o => match o with
                  | some a => { weight := some a.weight, verdict := a.verdict }
                  | none => { weight := none, verdict := .unresolved })) ∧
              (∀ w, d.content = some w → (w.source = .single → w.weight = h.rounded) ∧
                (w.source = .composed → w.weight = (d.draft.groups.map (·.2.weight)).sum) ∧
                w.combination = verdictOf w.weight c.combination c.tolerance ∧ w.drafts = d.draft.used)))))

/-! ### Calibration -/

/-- R64, R145, R154: Open Calibration, by its table of refusals, copies the committed table, sets the access mark and
brings the METROLOGY hold; Abandon Calibration closes access and changes neither the table, the epoch nor NOT_VERIFIED.
-/
def Obligations.CalibrationAccessOpensAndCloses : Prop :=
  (∀ k ∈ [60, 67], ∀ p, permitted k p = true ↔ p = .metrology) ∧
  ∀ (s : State) (p : Port) (tag : Octet) (payload : List Octet),
    s.openRefusal =
      (if s.staged ≠ none then some .alreadyOpen
       else if s.switchOn = false then some .switchOff
       else if s.bridge.state ≠ .free then some .bridgeOccupied
       else if s.capture.waiting ≠ none then some .capturePending
       else if s.run ≠ none then some .runActive
       else if s.cal.lockout ≠ none then some .lockout
       else if s.hasHeadroom = false then some .logFull
       else none) ∧
    (s.ready p 60 payload = true →
      (∀ code, s.openRefusal = some code →
        exec (.openCalibration p tag payload) s = .next (s.answered p 60 tag code .empty)) ∧
      (s.openRefusal = none →
        ∃ t, exec (.openCalibration p tag payload) s = .next t ∧ t.replied p 60 tag .ok .empty = true ∧
          t.staged = some s.cal.committed ∧ t.cal = { s.cal with accessMark := true, diffMark := false } ∧
          t.bridge.holds.metrology = true ∧ t.held = true ∧ t.bridge.state = .free ∧
          t.ports = ((t.heard s []).answered p 60 tag .ok .empty).ports ∧
          t = { s with staged := t.staged, cal := t.cal, bridge := t.bridge, faults := t.faults, ports := t.ports,
                       writes := t.writes })) ∧
    (s.ready p 67 payload = true →
      (s.staged = none → exec (.abandonCalibration p tag payload) s = .next (s.answered p 67 tag .notOpen .empty)) ∧
      (s.staged ≠ none →
        ∃ t, exec (.abandonCalibration p tag payload) s = .next t ∧ t.replied p 67 tag .ok .empty = true ∧
          t.staged = none ∧ t.cal = { s.cal with accessMark := false, diffMark := false } ∧
          t.bridge.holds.metrology = (s.run.isSome || s.bridge.holds.manual) ∧
          t.ports = ((t.heard s (s.grantNews t)).answered p 67 tag .ok .empty).ports ∧
          t = { s with staged := none, cal := t.cal, bridge := t.bridge, axles := t.axles, visits := t.visits,
                       inUse := t.inUse, faults := t.faults, ports := t.ports, writes := t.writes }))

/-- R147, R149, R150: Write Parameter, Calibrate Zero and Calibrate Span write the staged table and nothing else, and
the staged-difference mark is worked out again. That the reply of Calibrate Span lists every cell of the deck, also one
whose factor comes out the same, is the model's reading (log 28), and that it does so by ascending address its choice
(log 55). -/
def Obligations.StagedTableIsWrittenAndAdjusted : Prop :=
  (∀ k ∈ [61, 64, 65], ∀ p, permitted k p = true ↔ p = .metrology) ∧
  (∀ (t : CalTable) (id j : Nat) (v : Int), (t.put id v).val id = v ∧ (j ≠ id → (t.put id v).val j = t.val j)) ∧
  ∀ (s : State) (p : Port) (tag : Octet) (payload : List Octet),
    let staged (u : CalTable) : State :=
      { s with staged := some u, cal.diffMark := !(paramChanges s.cal.committed u).isEmpty }
    (s.ready p 61 payload = true →
      (s.staged = none → exec (.writeParameter p tag payload) s = .next (s.answered p 61 tag .notOpen .empty)) ∧
      (∀ st, s.staged = some st →
        let id := natAt payload 0 2
        let v := intAt payload 2 5
        (isParam id = false →
          exec (.writeParameter p tag payload) s = .next (s.answered p 61 tag .noSuchParameter .empty)) ∧
        (isParam id = true → paramInRange st id v = false →
          exec (.writeParameter p tag payload) s = .next (s.answered p 61 tag .badParameter .empty)) ∧
        (isParam id = true → paramInRange st id v = true →
          exec (.writeParameter p tag payload) s =
            .next (retain s ((staged (st.put id v)).answered p 61 tag .ok .empty))))) ∧
    (s.ready p 64 payload = true →
      (s.staged = none → exec (.calibrateZero p tag payload) s = .next (s.answered p 64 tag .notOpen .empty)) ∧
      (∀ st, s.staged = some st →
        let d := natAt payload 0 1
        (¬(1 ≤ d ∧ d ≤ st.decks) →
          exec (.calibrateZero p tag payload) s = .next (s.answered p 64 tag .badArgument .empty)) ∧
        (1 ≤ d → d ≤ st.decks →
          s.weigh.stable = false ∨ (∀ r x, s.weigh.latest = some r → r.decks[d - 1]? = some x → x.filtered = none) →
          exec (.calibrateZero p tag payload) s = .next (s.answered p 64 tag .motion .empty)) ∧
        (∀ r x f, 1 ≤ d → d ≤ st.decks → s.weigh.stable = true → s.weigh.latest = some r →
          r.decks[d - 1]? = some x → x.filtered = some f →
          (-2000000000 ≤ f → f ≤ 2000000000 →
            exec (.calibrateZero p tag payload) s =
              .next (retain s ((staged (st.put (100 * d + 1) f)).answered p 64 tag .ok (.calibratedZero f)))) ∧
          (¬(-2000000000 ≤ f ∧ f ≤ 2000000000) →
            exec (.calibrateZero p tag payload) s = .next (s.answered p 64 tag .badParameter .empty))))) ∧
    (s.ready p 65 payload = true →
      (s.staged = none → exec (.calibrateSpan p tag payload) s = .next (s.answered p 65 tag .notOpen .empty)) ∧
      (∀ st, s.staged = some st →
        let d := natAt payload 0 1
        let kg := intAt payload 1 4
        (¬(1 ≤ d ∧ d ≤ st.decks ∧ 1 ≤ kg ∧ kg ≤ 999999) →
          exec (.calibrateSpan p tag payload) s = .next (s.answered p 65 tag .badArgument .empty)) ∧
        (1 ≤ d → d ≤ st.decks → 1 ≤ kg → kg ≤ 999999 →
          s.weigh.stable = false ∨ (∀ r x, s.weigh.latest = some r → r.decks[d - 1]? = some x → x.filtered = none) →
          exec (.calibrateSpan p tag payload) s = .next (s.answered p 65 tag .motion .empty)) ∧
        (∀ r x f, 1 ≤ d → d ≤ st.decks → 1 ≤ kg → kg ≤ 999999 → s.weigh.stable = true →
          s.weigh.latest = some r → r.decks[d - 1]? = some x → x.filtered = some f →
          let load := f - st.val (100 * d + 1)
          (load ≤ 0 ∨ 2 * (kg * 1000) < load ∨ 2 * load < kg * 1000 →
            exec (.calibrateSpan p tag payload) s = .next (s.answered p 65 tag .spanRange .empty)) ∧
          (0 < load → load ≤ 2 * (kg * 1000) → kg * 1000 ≤ 2 * load →
            ∃ cs : List SpanChange,
              cs = (st.cellsOf d).map (fun i =>
                { address := i, old := st.spanFactor i
                  new := max 1 (min 16777215 (roundDiv (st.spanFactor i * (kg * 1000)) load))
                  clamped := decide (roundDiv (st.spanFactor i * (kg * 1000)) load < 1 ∨
                                     16777215 < roundDiv (st.spanFactor i * (kg * 1000)) load) }) ∧
              exec (.calibrateSpan p tag payload) s =
                .next (retain s ((staged (cs.foldl (fun acc c => acc.put (1000 + 10 * c.address + 2) c.new) st)).answered
                  p 65 tag .ok (.span load (kg * 1000) cs)))))))

/-- R64, R151, R152, R158, R161: Commit Calibration: its checks in order, and the commit: table, epoch, CAL_CHANGE
record, NOT_VERIFIED, LEARNED tares, access and marks, a retained write that carries the commit, and the notices. That
the headroom in AUDIT_NEAR_FULL no longer counts the claim that the commit ends is the model's reading (log 23). -/
def Obligations.CommitRaisesTheEpochAndRecordsIt : Prop :=
  (∀ p, permitted 66 p = true ↔ p = .metrology) ∧
  ∀ (s : State) (p : Port) (tag : Octet) (payload : List Octet), s.ready p 66 payload = true →
    (s.staged = none → exec (.commitCalibration p tag payload) s = .next (s.answered p 66 tag .notOpen .empty)) ∧
    (∀ st, s.staged = some st →
      let changes := paramChanges s.cal.committed st
      let ordered := ∀ d, 1 ≤ d → d ≤ st.decks → st.pointsInOrder d = true
      let assigned := ∀ d, 1 ≤ d → d ≤ st.decks → (st.cellsOf d).length ≤ 4
      (¬ordered → exec (.commitCalibration p tag payload) s =
        .next (s.answered p 66 tag .linearizationOrder .empty)) ∧
      (ordered → ¬assigned → exec (.commitCalibration p tag payload) s =
        .next (s.answered p 66 tag .cellAssignment .empty)) ∧
      (ordered → assigned → changes = [] →
        ∃ t, exec (.commitCalibration p tag payload) s = .next t ∧ t.replied p 66 tag .ok .empty = true ∧
          t.cal = { s.cal with accessMark := false, diffMark := false } ∧
          t.ports = ((t.heard s (s.grantNews t)).answered p 66 tag .ok .empty).ports ∧
          t = { s with staged := none, cal := t.cal, bridge := t.bridge, axles := t.axles, visits := t.visits,
                       inUse := t.inUse, faults := t.faults, ports := t.ports, writes := t.writes }) ∧
      (ordered → assigned → changes ≠ [] → 999999 ≤ s.cal.epoch →
        exec (.commitCalibration p tag payload) s = .next (s.answered p 66 tag .epochExhausted .empty)) ∧
      (ordered → assigned → changes ≠ [] → s.cal.epoch < 999999 → s.holderMayAppend = false →
        exec (.commitCalibration p tag payload) s = .next (s.answered p 66 tag .logFull .empty)) ∧
      (ordered → assigned → changes ≠ [] → s.cal.epoch < 999999 → s.holderMayAppend = true →
        ∃ t, exec (.commitCalibration p tag payload) s = .next t ∧ t.replied p 66 tag .accepted .empty = true ∧
          t.cal = { s.cal with committed := st, epoch := s.cal.epoch + 1, notVerified := true, accessMark := false,
                               diffMark := false } ∧
          t.audit = { records := s.audit.records ++ [{ number := s.audit.next, time := s.site.clock,
                                                        epochBefore := s.cal.epoch, epochAfter := s.cal.epoch + 1,
                                                        body := .calChange (changes.take 8) (changes.length - 8) }]
                      next := s.audit.next + 1
                      epochMark := max s.audit.epochMark (s.cal.epoch + 1) } ∧
          t.tares = { s.tares with slots := s.tares.slots.filter (fun e => e.2.origin = .keyed) } ∧
          (∃ w, t.writes = s.writes ++ [w] ∧ Region.calibration ∈ w.regions ∧ Region.audit ∈ w.regions ∧
            w.commit = some { epoch := s.cal.epoch + 1, record := s.audit.next, changes := changes.length }) ∧
          t.ports = ((t.heard s (t.nearFullNews ++ s.grantNews t)).answered p 66 tag .accepted .empty).ports ∧
          t = { s with staged := none, cal := t.cal, audit := t.audit, tares := t.tares, bridge := t.bridge,
                       axles := t.axles, visits := t.visits, inUse := t.inUse, faults := t.faults, ports := t.ports,
                       writes := t.writes }))

/-! ### Verification, evidence and faults -/

/-- R64, R161, R164, R165, R168, R169, R171: the run: it begins by its table of refusals, takes test points, ends with
its record and NOT_VERIFIED set or cleared by the points' verdicts, or is aborted without one, each with its notices.
That the headroom in AUDIT_NEAR_FULL no longer counts the claim of the run that ends is the model's reading (log 23). -/
def Obligations.VerificationRunsBeginTestAndEnd : Prop :=
  (∀ k ∈ [80, 81, 82, 83], ∀ p, permitted k p = true ↔ p = .metrology) ∧
  ∀ (s : State) (p : Port) (tag : Octet) (payload : List Octet),
    s.beginRefusal =
      (if s.run ≠ none then some .runActive
       else if s.staged ≠ none then some .accessOpen
       else if s.capture.waiting ≠ none then some .capturePending
       else if s.bridge.state ≠ .free then some .bridgeOccupied
       else if s.cal.lockout ≠ none then some .lockout
       else if s.hasHeadroom = false then some .logFull
       else none) ∧
    (s.ready p 80 payload = true →
      (∀ code, s.beginRefusal = some code →
        exec (.beginVerification p tag payload) s = .next (s.answered p 80 tag code .empty)) ∧
      (s.beginRefusal = none →
        ∃ t, exec (.beginVerification p tag payload) s = .next t ∧ t.replied p 80 tag .ok .empty = true ∧
          t.run = some { time := s.site.clock, epoch := s.cal.epoch, points := [], waiting := none } ∧
          t.bridge.holds.metrology = true ∧ t.held = true ∧ t.bridge.state = .free ∧
          t.ports = ((t.heard s []).answered p 80 tag .ok .empty).ports ∧
          t = { s with run := t.run, bridge := t.bridge, faults := t.faults, ports := t.ports })) ∧
    (s.ready p 81 payload = true →
      let target := natAt payload 0 1
      let kg := intAt payload 1 4
      let argsOk := target ≤ s.cal.committed.decks ∧ 1 ≤ kg ∧ kg ≤ 999999
      (s.run = none → exec (.testPoint p tag payload) s = .next (s.answered p 81 tag .noRun .empty)) ∧
      (∀ r, s.run = some r →
        (r.waiting ≠ none → exec (.testPoint p tag payload) s = .next (s.answered p 81 tag .pointPending .empty)) ∧
        (r.waiting = none → ¬argsOk →
          exec (.testPoint p tag payload) s = .next (s.answered p 81 tag .badArgument .empty)) ∧
        (r.waiting = none → argsOk → 12 ≤ r.points.length →
          exec (.testPoint p tag payload) s = .next (s.answered p 81 tag .runFull .empty)) ∧
        (r.waiting = none → argsOk → r.points.length < 12 →
          let h := s.bridge.holds
          (h.gatehouse = true ∨ h.lane = true ∨ h.fault = true ∨ h.supply = true →
            exec (.testPoint p tag payload) s = .next (s.answered p 81 tag .held .empty)) ∧
          (h.gatehouse = false → h.lane = false → h.fault = false → h.supply = false → s.weigh.zeroUnset = true →
            exec (.testPoint p tag payload) s = .next (s.answered p 81 tag .zeroUnset .empty)) ∧
          (h.gatehouse = false → h.lane = false → h.fault = false → h.supply = false → s.weigh.zeroUnset = false →
            exec (.testPoint p tag payload) s =
              .next (({ s with
                run := some { r with
                  waiting := some { target := if target = 0 then .bridge else .deck target, reference := kg
                                    secondsLeft := s.site.settings.captureTimeout, restart := none } } } :
                State).answered p 81 tag .accepted .empty))))) ∧
    (s.ready p 82 payload = true →
      (s.run = none → exec (.endVerification p tag payload) s = .next (s.answered p 82 tag .noRun .empty)) ∧
      (∀ r, s.run = some r →
        (r.waiting ≠ none →
          exec (.endVerification p tag payload) s = .next (s.answered p 82 tag .pointPending .empty)) ∧
        (r.waiting = none → r.points = [] →
          exec (.endVerification p tag payload) s = .next (s.answered p 82 tag .noPoints .empty)) ∧
        (r.waiting = none → r.points ≠ [] → s.holderMayAppend = false →
          exec (.endVerification p tag payload) s = .next (s.answered p 82 tag .logFull .empty)) ∧
        (r.waiting = none → r.points ≠ [] → s.holderMayAppend = true →
          ∃ t worst failing, exec (.endVerification p tag payload) s = .next t ∧
            t.replied p 82 tag .ok (.recordNumber s.audit.next) = true ∧ t.run = none ∧
            failing = (r.points.filter (fun x => !x.pass)).length ∧
            (∃ before q after, r.points = before ++ q :: after ∧ q.error = worst ∧
              (∀ x ∈ before, x.error.natAbs < worst.natAbs) ∧ (∀ x ∈ after, x.error.natAbs ≤ worst.natAbs)) ∧
            t.cal = { s.cal with notVerified := decide (failing ≠ 0) } ∧
            t.audit = { records := s.audit.records ++ [{ number := s.audit.next, time := s.site.clock,
                                                          epochBefore := s.cal.epoch, epochAfter := s.cal.epoch,
                                                          body := if failing = 0
                                                            then .verifyPass r.points.length worst failing
                                                            else .verifyFail r.points.length worst failing }]
                        next := s.audit.next + 1
                        epochMark := max s.audit.epochMark s.cal.epoch } ∧
            t.bridge.holds.metrology = (s.staged.isSome || s.bridge.holds.manual) ∧
            t.ports = ((t.heard s (t.nearFullNews ++ notesTo [.metrology, .gatehouse]
                (.verificationEnded s.audit.next (decide (failing = 0)) r.points.length worst failing) ++
              s.grantNews t)).answered p 82 tag .ok (.recordNumber s.audit.next)).ports ∧
            t = { s with run := none, cal := t.cal, audit := t.audit, bridge := t.bridge, axles := t.axles,
                         visits := t.visits, inUse := t.inUse, faults := t.faults, ports := t.ports,
                         writes := t.writes }))) ∧
    (s.ready p 83 payload = true →
      (s.run = none → exec (.abortVerification p tag payload) s = .next (s.answered p 83 tag .noRun .empty)) ∧
      (s.run ≠ none →
        ∃ t, exec (.abortVerification p tag payload) s = .next t ∧ t.replied p 83 tag .ok .empty = true ∧
          t.run = none ∧ t.cal = s.cal ∧ t.audit = s.audit ∧
          t.bridge.holds.metrology = (s.staged.isSome || s.bridge.holds.manual) ∧
          t.ports = ((t.heard s (((s.run.bind (·.waiting)).toList).map (fun w =>
              (.metrology, .testPointEnded w.target w.reference .aborted)) ++
            s.grantNews t)).answered p 83 tag .ok .empty).ports ∧
          t = { s with run := none, bridge := t.bridge, axles := t.axles, visits := t.visits, inUse := t.inUse,
                       faults := t.faults, ports := t.ports, writes := t.writes })) ∧
    (s.calm = true →
      ((∀ r, s.run = some r → r.waiting = none) → exec .testPointTimeout s = .next s) ∧
      (∀ r w, s.run = some r → r.waiting = some w →
        exec .testPointTimeout s =
          .next (({ s with run := some { r with waiting := none } } : State).told [.metrology]
            (.testPointEnded w.target w.reference .captureTimeout))))

/-- R163, R175, R176, R177, R179: Archive Audit Records, Take Snapshot with what a snapshot holds and the slot it takes,
and Discard Snapshot. -/
def Obligations.ArchiveAndEvidenceRequests : Prop :=
  (∀ k ∈ [70, 88], ∀ p, permitted k p = true ↔ p = .metrology) ∧ (∀ p, permitted 85 p = true ↔ p ≠ .lane) ∧
  (∀ (ev : List EvidenceSlot) (kind : SnapshotKind),
    (∀ x ∈ ev, kind = .lockout → x.snapshot.kind = .lockout →
      ∃ y ∈ ev, y.snapshot.kind = .lockout ∧ chooseEvidenceSlot ev kind = y.slot) ∧
    (∀ i < 8, (kind ≠ .lockout ∨ ∀ x ∈ ev, x.snapshot.kind ≠ .lockout) → (∀ x ∈ ev, x.slot ≠ i) →
      (∀ j < i, ∃ x ∈ ev, x.slot = j) → chooseEvidenceSlot ev kind = i) ∧
    (∀ before x after, (kind ≠ .lockout ∨ ∀ y ∈ ev, y.snapshot.kind ≠ .lockout) →
      (∀ j < 8, ∃ y ∈ ev, y.slot = j) → ev = before ++ x :: after → x.snapshot.kind ≠ .lockout →
      (∀ y ∈ before, y.snapshot.kind = .lockout) → chooseEvidenceSlot ev kind = x.slot)) ∧
  (∀ (s : State) (number : Nat) (kind : SnapshotKind) (draft : Option Nat),
    let x := s.snapshotOf number kind draft
    x.number = number ∧ x.kind = kind ∧ x.time = s.site.clock ∧ x.epoch = s.cal.epoch ∧
    x.ident = s.bridge.grant.map (·.ident) ∧ x.draft = draft ∧ x.cells.length = 16 ∧
    (∀ i, 1 ≤ i → i ≤ 16 → x.cells[i - 1]? =
      some { configured := (s.bus.record i).configured, condition := (s.bus.record i).condition,
             lastCount := (s.bus.record i).lastCount, lastStatus := (s.bus.record i).lastStatus }) ∧
    (s.weigh.latest = none →
      x.round = none ∧ x.decks = [] ∧ x.gross = none ∧ x.rounded = none ∧ x.stable = none) ∧
    (∀ v, s.weigh.latest = some v → x.round = some v.index ∧ x.gross = v.gross ∧ x.rounded = v.rounded ∧
      x.stable = some s.weigh.stable ∧ x.decks.length = v.decks.length ∧
      ∀ (n : Nat) d, v.decks[n]? = some d → x.decks[n]? =
        some { validity := d.validity, raw := d.raw, linearized := d.linearized, filtered := d.filtered,
               zeroUsed := d.zeroUsed, gross := d.gross })) ∧
  ∀ (s : State) (p : Port) (tag : Octet) (payload : List Octet),
    (s.ready p 70 payload = true →
      ((∀ r ∈ s.audit.records, r.number ≠ natAt payload 0 4) →
        exec (.archiveAuditRecords p tag payload) s = .next (s.answered p 70 tag .noSuchRecord .empty)) ∧
      ((∃ r ∈ s.audit.records, r.number = natAt payload 0 4) →
        let kept := s.audit.records.filter (fun r => decide (natAt payload 0 4 < r.number))
        exec (.archiveAuditRecords p tag payload) s =
          .next (retain s (({ s with audit.records := kept } : State).answered p 70 tag .ok
            (.archived (s.audit.records.length - kept.length) (kept.head?.map (·.number))))))) ∧
    (s.ready p 85 payload = true →
      exec (.takeSnapshot p tag payload) s =
        .next (retain s (((({ s with
          evidence := s.evidence.filter (fun x => x.slot ≠ chooseEvidenceSlot s.evidence .requested) ++
            [{ slot := chooseEvidenceSlot s.evidence .requested,
               snapshot := s.snapshotOf s.snapshotNumber .requested none }]
          cal.snapshotNext := if s.snapshotNumber = 4294967295 then 1 else s.snapshotNumber + 1 } : State).post
          .metrology (.snapshotTaken s.snapshotNumber .requested (chooseEvidenceSlot s.evidence .requested)
            ((s.evidence.find? (fun x => x.slot = chooseEvidenceSlot s.evidence .requested)).map
              (fun x => (x.snapshot.number, x.snapshot.kind))))).flush).answered p 85 tag .ok
          (.snapshotTaken s.snapshotNumber (chooseEvidenceSlot s.evidence .requested))))) ∧
    (s.ready p 88 payload = true →
      ((∀ x ∈ s.evidence, x.snapshot.number ≠ natAt payload 0 4) →
        exec (.discardSnapshot p tag payload) s = .next (s.answered p 88 tag .noSuchSnapshot .empty)) ∧
      (∀ x, s.evidence.find? (fun y => y.snapshot.number = natAt payload 0 4) = some x →
        (x.snapshot.kind = .lockout → s.cal.lockout ≠ none →
          exec (.discardSnapshot p tag payload) s = .next (s.answered p 88 tag .snapshotProtected .empty)) ∧
        (x.snapshot.kind ≠ .lockout ∨ s.cal.lockout = none →
          exec (.discardSnapshot p tag payload) s =
            .next (retain s (({ s with evidence := s.evidence.filter (fun y => y.slot ≠ x.slot) } : State).answered
              p 88 tag .ok .empty)))))

/-- R64, R161, R182, R183, R185, R186, R189: Write Fault Policy, the two acknowledgements and Clear Lockout, with the
FAULT source as it is judged after them and the notices of a cleared lockout and of a grant. That the headroom in
AUDIT_NEAR_FULL no longer counts the claim of the lockout that ends is the model's reading (log 23). -/
def Obligations.FaultRequests : Prop :=
  (∀ k ∈ [90, 92], ∀ p, permitted k p = true ↔ p = .gatehouse) ∧
  (∀ k ∈ [91, 93], ∀ p, permitted k p = true ↔ p = .metrology) ∧
  ∀ (s : State) (p : Port) (tag : Octet) (payload : List Octet),
    (s.ready p 90 payload = true →
      (faultClassOf (natAt payload 0 1) = none ∨ policyOf (natAt payload 1 1) = none →
        exec (.writeFaultPolicy p tag payload) s = .next (s.answered p 90 tag .badArgument .empty)) ∧
      (∀ c pol, faultClassOf (natAt payload 0 1) = some c → policyOf (natAt payload 1 1) = some pol →
        (c.metrological = true →
          exec (.writeFaultPolicy p tag payload) s = .next (s.answered p 90 tag .fixedPolicy .empty)) ∧
        (c.metrological = false →
          ∃ t, exec (.writeFaultPolicy p tag payload) s = .next t ∧ t.replied p 90 tag .ok .empty = true ∧
            t.policy c = pol ∧ (∀ d, d ≠ c → t.policy d = s.policy d) ∧ t.site.settings = s.site.settings ∧
            t.site.clock = s.site.clock ∧ t.site.catalogue = s.site.catalogue ∧
            t.bridge.holds.fault = t.faultJudged ∧
            t = { s with site := t.site, bridge := t.bridge, axles := t.axles, capture := t.capture,
                         visits := t.visits, inUse := t.inUse, run := t.run, faults := t.faults, ports := t.ports,
                         writes := t.writes }))) ∧
    (s.ready p 91 payload = true →
      (s.cal.flag = none → exec (.acknowledgeMetrologicalFault p tag payload) s =
        .next (s.answered p 91 tag .nothingOutstanding .empty)) ∧
      (∀ r, s.cal.flag = some r →
        ∃ t, exec (.acknowledgeMetrologicalFault p tag payload) s = .next t ∧
          t.replied p 91 tag .ok (.raise r) = true ∧ t.cal = { s.cal with flag := none } ∧
          t.bridge.holds.fault = t.faultJudged ∧
          t.ports = ((t.heard s (s.grantNews t)).answered p 91 tag .ok (.raise r)).ports ∧
          t = { s with cal := t.cal, bridge := t.bridge, axles := t.axles, visits := t.visits, inUse := t.inUse,
                       faults := t.faults, ports := t.ports, writes := t.writes })) ∧
    (s.ready p 92 payload = true →
      (∀ c, faultClassOf (natAt payload 0 1) = some c → c.metrological = false →
        ∀ ks, namedInstances c (natAt payload 1 1) = some ks →
        ((∀ k ∈ ks, (s.faultEntry k).outstanding = false) →
          exec (.acknowledgeFault p tag payload) s = .next (s.answered p 92 tag .nothingOutstanding .empty)) ∧
        ((∃ k ∈ ks, (s.faultEntry k).outstanding = true) →
          ∃ t, exec (.acknowledgeFault p tag payload) s = .next t ∧
            t.replied p 92 tag .ok (.acknowledged (ks.filter (fun k => (s.faultEntry k).outstanding)).length) = true ∧
            (∀ k ∈ ks, (t.faultEntry k).outstanding = false ∧
              (c.region = true → (s.faultEntry k).outstanding = true → (t.faultEntry k).present = false) ∧
              (t.faultEntry k).count = (s.faultEntry k).count) ∧
            (∀ k, k ∉ ks → k.inst < 32 →
              (t.faultEntry k).outstanding = (s.faultEntry k).outstanding ∧
              (t.faultEntry k).count = (s.faultEntry k).count) ∧
            t.bridge.holds.fault = t.faultJudged ∧
            t.ports = ((t.heard s (s.grantNews t)).answered p 92 tag .ok
              (.acknowledged (ks.filter (fun k => (s.faultEntry k).outstanding)).length)).ports ∧
            t = { s with bridge := t.bridge, axles := t.axles, visits := t.visits, inUse := t.inUse,
                         faults := t.faults, ports := t.ports, writes := t.writes })) ∧
      ((∀ c, faultClassOf (natAt payload 0 1) = some c →
          c.metrological = true ∨ namedInstances c (natAt payload 1 1) = none) →
        exec (.acknowledgeFault p tag payload) s = .next (s.answered p 92 tag .badArgument .empty))) ∧
    (s.ready p 93 payload = true →
      (s.cal.lockout = none → exec (.clearLockout p tag payload) s = .next (s.answered p 93 tag .noLockout .empty)) ∧
      (∀ code, s.cal.lockout = some code →
        (s.metrologicalPresent = true ∨ s.cal.flag ≠ none ∨ s.staged ≠ none →
          exec (.clearLockout p tag payload) s = .next (s.answered p 93 tag .faultsActive .empty)) ∧
        (s.metrologicalPresent = false → s.cal.flag = none → s.staged = none → s.lockoutMayAppend = false →
          exec (.clearLockout p tag payload) s = .next (s.answered p 93 tag .logFull .empty)) ∧
        (s.metrologicalPresent = false → s.cal.flag = none → s.staged = none → s.lockoutMayAppend = true →
          ∃ t, exec (.clearLockout p tag payload) s = .next t ∧
            t.replied p 93 tag .ok (.recordNumber s.audit.next) = true ∧
            t.cal = { s.cal with
              lockout := none
              lockRecord := s.cal.lockRecord.map (fun r => { r with cleared := some s.audit.next }) } ∧
            t.audit = { records := s.audit.records ++ [{ number := s.audit.next, time := s.site.clock,
                                                          epochBefore := s.cal.epoch, epochAfter := s.cal.epoch,
                                                          body := .lockoutClear code }]
                        next := s.audit.next + 1
                        epochMark := max s.audit.epochMark s.cal.epoch } ∧
            t.bridge.holds.fault = t.faultJudged ∧
            t.ports = ((t.heard s (t.nearFullNews ++ notesTo [.gatehouse, .lane, .metrology]
                (.lockoutCleared code s.audit.next) ++ s.grantNews t)).answered p 93 tag .ok
              (.recordNumber s.audit.next)).ports ∧
            t = { s with cal := t.cal, audit := t.audit, bridge := t.bridge, axles := t.axles, visits := t.visits,
                         inUse := t.inUse, faults := t.faults, ports := t.ports, writes := t.writes })))

/-- R181, R184, R172, R187: a metrological raise: its register entry, the escalation by the first of the four cases that
applies, and the notices it hands to the queues: the end of a waiting test point, those of a lockout entered, and
FAULT_RAISED with its outcome at all three ports. -/
def Obligations.MetrologicalRaiseEscalates : Prop :=
  ∀ (s : State) (k : FaultKey) (detail : Option DisagreeDetail), k.cls.metrological = true →
    let t := s.raiseFault k detail
    let record : RaiseRecord := { key := k, time := s.site.clock }
    t.faultEntry k = { key := k, present := true, outstanding := (s.faultEntry k).outstanding,
                       count := min ((s.faultEntry k).count + 1) 65535, raisedAt := some s.site.clock } ∧
    (∀ j : FaultKey, j.place ≠ k.place → t.faultEntry j = s.faultEntry j) ∧
    let entered : Option LockCode :=
      if s.cal.lockout ≠ none then none
      else if s.run ≠ none then some .calFaultInVerification
      else if s.cal.flag ≠ none then some .secondFault
      else none
    let outcome : RaiseOutcome := match entered with
      | some code => .lockout code
      | none => if s.cal.flag = none then .flagSet else .flagAlreadySet
    t.outbox = s.outbox ++
      ((s.run.bind (·.waiting)).toList).map (fun w => (.metrology, .testPointEnded w.target w.reference .fault)) ++
      (entered.toList).flatMap s.lockoutNews ++
      notesTo [.gatehouse, .lane, .metrology] (.faultRaised k true .hold outcome s.site.clock detail) ∧
    t.faultJudged = true ∧ t.audit = s.audit ∧ t.cal.epoch = s.cal.epoch ∧ t.staged = s.staged ∧
    (s.run ≠ none → t.run = none ∧ t.cal.flag = some (s.cal.flag.getD record) ∧
      t.cal.lockout = some (s.cal.lockout.getD .calFaultInVerification)) ∧
    (s.run = none → t.run = none) ∧
    (s.run = none → s.cal.lockout ≠ none → t.cal.flag = some (s.cal.flag.getD record) ∧
      t.cal.lockout = s.cal.lockout ∧ t.cal.lockRecord = s.cal.lockRecord) ∧
    (∀ r, s.run = none → s.cal.lockout = none → s.cal.flag = some r → t.cal.flag = some r ∧
      t.cal.lockout = some .secondFault ∧ ∃ l, t.cal.lockRecord = some l ∧ l.code = .secondFault ∧ k ∈ l.present) ∧
    (s.run = none → s.cal.lockout = none → s.cal.flag = none → t.cal = { s.cal with flag := some record })

/-! ### The whole machine -/

/-- The state after reset meets what the statements below keep. -/
def Obligations.ResetMeetsTheInvariants : Prop :=
  State.reset.running = false ∧ State.reset.pending = [] ∧ State.reset.commitNote = none ∧
  State.reset.ports.bounded = true ∧ State.reset.bridgeConsistent = true ∧ State.reset.storesBounded = true ∧
  State.reset.tablesSorted = true ∧ State.reset.keysRise = true

/-- R63, R74, R75, R76, R183, R197: every step from a state that is settled, or in which a start stands, leaves one:
sources, aspects and lamps as the rules judge them, no entry waiting at a FREE bridge without a hold, and no notice of
an event kept back. That the lamps are compared within START_SEQUENCE (log 56), and in the event of a supply fall (log
58), is the model's choice. -/
def Obligations.EveryStepLeavesTheBridgeSettled : Prop :=
  ∀ s t : State, (s.running = true → s.settled = true ∧ s.commitNote = none) → step s = .next t →
    (t.running = true → t.settled = true ∧ t.commitNote = none)

/-- R47, R53, R54, R56, R64, R66, R67, R68, R71, R83, R87: a grant stands in GRANTED, OCCUPIED and RELEASED alone, its
timer in GRANTED alone and paused exactly under a hold; a capture waits in OCCUPIED without a hold alone; axles are
counted in OCCUPIED and RELEASED alone, with 0 ≤ exited ≤ entered ≤ 255. Every step keeps this. -/
def Obligations.EveryStepKeepsTheBridgeConsistent : Prop :=
  ∀ s t : State, s.bridgeConsistent = true → step s = .next t → t.bridgeConsistent = true

/-- R10, R24, R38, R60, R104, R107, R123, R136, R159, R165, R176, R195, R197: no step takes one of these beyond its
size: audit log, Ticket Ring, Evidence Store, overrun count, filter histories, stability window, trace and its pending
events, approach queues, Visit Table, Tare Table, the points of a run; none lists a key of a numbered table twice, or
takes a port beyond 16 notices or beyond one answer and one BUSY pending. R133, R134, R136: every step keeps the keys of
the ring rising, each below the next key or, the sequence being EXHAUSTED, at most the greatest key, and none above the
last key; and but for a start that finds CALIBRATION lost, no step takes the sequence back, ends its exhaustion, or adds
a ticket whose key lies below the next key it found: no key is ever used twice. -/
def Obligations.EveryStepKeepsStoresAndPortsBounded : Prop :=
  ((∀ s t : State, s.storesBounded = true → step s = .next t → t.storesBounded = true) ∧
   (∀ s t : State, s.tablesSorted = true → step s = .next t → t.tablesSorted = true)) ∧
  (∀ s t : State, s.ports.bounded = true → step s = .next t → t.ports.bounded = true) ∧
  (∀ s t : State, s.keysRise = true → step s = .next t → t.keysRise = true) ∧
  (∀ s t : State, s.keysRise = true → step s = .next t →
    (∀ lost, s.pending.head? = some (.startSequence lost) → lost.calibration = false) →
    s.nextKey.le t.nextKey = true ∧ (s.cal.exhausted = true → t.cal.exhausted = true) ∧
    ∀ x ∈ t.tickets.ring, x ∈ s.tickets.ring ∨ (s.cal.exhausted = false ∧ s.nextKey.le x.key = true))

/-- R152, R158, R169, R187 to R189, R204 to R206: whatever the command, the epoch, NOT_VERIFIED and lockout change only
with a record that says so. The epoch changes with a CAL_CHANGE record of that change, or at a start whose start record
lists CALIBRATION as lost; NOT_VERIFIED is cleared with a VERIFY_PASS record, and set with a CAL_CHANGE or a VERIFY_FAIL
record or at a start whose record lists CALIBRATION or AUDIT; lockout that stands is ended with a LOCKOUT_CLEAR record,
by no start either, and lockout is entered with its lockout record, over another lockout only where CALIBRATION was
lost. -/
def Obligations.MetrologicalMarksChangeOnlyWithTheirRecords : Prop :=
  ∀ (c : Instr) (s t : State), exec c s = .next t →
    let started (l : LostRegions) : Prop := c = .startSequence l ∧ t.cal.startRecord.lost = l
    (t.cal.epoch ≠ s.cal.epoch →
      (∃ r changes further, t.audit.records = s.audit.records ++ [r] ∧ r.body = .calChange changes further ∧
        r.epochBefore = s.cal.epoch ∧ r.epochAfter = t.cal.epoch ∧ t.cal.epoch = s.cal.epoch + 1) ∨
      (∃ lost : LostRegions, started lost ∧ lost.calibration = true)) ∧
    (s.cal.notVerified = true → t.cal.notVerified = false →
      ∃ r n worst, t.audit.records = s.audit.records ++ [r] ∧ r.body = .verifyPass n worst 0) ∧
    (s.cal.notVerified = false → t.cal.notVerified = true →
      (∃ r changes further, t.audit.records = s.audit.records ++ [r] ∧ r.body = .calChange changes further) ∨
      (∃ r n worst failing, t.audit.records = s.audit.records ++ [r] ∧ r.body = .verifyFail n worst failing ∧
        failing ≠ 0) ∨
      (∃ lost : LostRegions, started lost ∧ (lost.calibration = true ∨ lost.audit = true))) ∧
    (∀ code, s.cal.lockout = some code → t.cal.lockout = none →
      ∃ r, t.audit.records = s.audit.records ++ [r] ∧ r.body = .lockoutClear code) ∧
    (∀ code, t.cal.lockout = some code → s.cal.lockout ≠ some code →
      (∃ r, t.cal.lockRecord = some r ∧ r.code = code ∧ r.time = t.site.clock ∧ r.epoch = t.cal.epoch ∧
        r.cleared = none) ∧
      (s.cal.lockout = none ∨ ∃ lost : LostRegions, started lost ∧ lost.calibration = true))

/-- R159, R203: whatever the command, a record of the audit log is never rewritten: each record held afterwards was
held before or is the one new record with the next number; and every region whose content changed stands in a retained
write that the command began. A command that is one event begins one write, of exactly the regions it changed, where it
changed any; only the commands that may end a round or start one bring several events, each with its own write. That an
event is what the model takes as one is its choice (log 9). -/
def Obligations.RecordsStandAndChangesAreWritten : Prop :=
  ∀ (c : Instr) (s t : State), s.commitNote = none → exec c s = .next t →
    (∀ r ∈ t.audit.records, r ∈ s.audit.records ∨ r.number = s.audit.next) ∧
    ((∀ lost, c ≠ .startSequence lost) → t.audit.next = s.audit.next ∨ t.audit.next = s.audit.next + 1) ∧
    ((∀ lost, c ≠ .startSequence lost) → c ≠ .retainedWriteComplete → c ≠ .commitWriteComplete →
      ∃ begun, t.writes = s.writes ++ begun ∧ (∀ w ∈ begun, w.regions ≠ []) ∧
        (∀ g ∈ changedRegions s t, ∃ w ∈ begun, g ∈ w.regions) ∧
        ((∀ a, c ≠ .cellAnswer a) → c ≠ .replyWindowClose → c ≠ .roundPeriodExpiry → c ≠ .supplyReturn →
          (changedRegions s t = [] → begun = []) ∧
          (changedRegions s t ≠ [] → ∃ w, begun = [w] ∧ w.regions = changedRegions s t)))
end

