-- ==== Sys2Proof/Laws/State.lean ====
section
/-! SUPPORT. What the plain updates of the state leave as it was, field by field, and what they write. -/

namespace Sys2Proof.Machine

/-- Leaves all but ports as it was. -/
@[simp] theorem State.setPort_frame (s : State) (p : Port) (q : PortState) :
    (s.setPort p q).pending = s.pending ∧ (s.setPort p q).phase = s.phase ∧ (s.setPort p q).bus = s.bus ∧
    (s.setPort p q).weigh = s.weigh ∧ (s.setPort p q).capture = s.capture ∧ (s.setPort p q).bridge = s.bridge ∧
    (s.setPort p q).axles = s.axles ∧ (s.setPort p q).visits = s.visits ∧ (s.setPort p q).inUse = s.inUse ∧
    (s.setPort p q).tares = s.tares ∧ (s.setPort p q).tickets = s.tickets ∧ (s.setPort p q).cal = s.cal ∧
    (s.setPort p q).staged = s.staged ∧ (s.setPort p q).switchOn = s.switchOn ∧
    (s.setPort p q).audit = s.audit ∧ (s.setPort p q).run = s.run ∧ (s.setPort p q).evidence = s.evidence ∧
    (s.setPort p q).faults = s.faults ∧ (s.setPort p q).site = s.site ∧ (s.setPort p q).clockSet = s.clockSet ∧
    (s.setPort p q).powered = s.powered ∧ (s.setPort p q).supplyGood = s.supplyGood ∧
    (s.setPort p q).dipTimer = s.dipTimer ∧ (s.setPort p q).writes = s.writes ∧
    (s.setPort p q).outbox = s.outbox ∧ (s.setPort p q).commitNote = s.commitNote ∧
    (s.setPort p q).choices = s.choices :=
  by cases p <;> simp [State.setPort]

/-- Leaves all but ports as it was. -/
@[simp] theorem State.hunt_frame (s : State) (p : Port) :
    (s.hunt p).pending = s.pending ∧ (s.hunt p).phase = s.phase ∧ (s.hunt p).bus = s.bus ∧
    (s.hunt p).weigh = s.weigh ∧ (s.hunt p).capture = s.capture ∧ (s.hunt p).bridge = s.bridge ∧
    (s.hunt p).axles = s.axles ∧ (s.hunt p).visits = s.visits ∧ (s.hunt p).inUse = s.inUse ∧
    (s.hunt p).tares = s.tares ∧ (s.hunt p).tickets = s.tickets ∧ (s.hunt p).cal = s.cal ∧
    (s.hunt p).staged = s.staged ∧ (s.hunt p).switchOn = s.switchOn ∧ (s.hunt p).audit = s.audit ∧
    (s.hunt p).run = s.run ∧ (s.hunt p).evidence = s.evidence ∧ (s.hunt p).faults = s.faults ∧
    (s.hunt p).site = s.site ∧ (s.hunt p).clockSet = s.clockSet ∧ (s.hunt p).powered = s.powered ∧
    (s.hunt p).supplyGood = s.supplyGood ∧ (s.hunt p).dipTimer = s.dipTimer ∧ (s.hunt p).writes = s.writes ∧
    (s.hunt p).outbox = s.outbox ∧ (s.hunt p).commitNote = s.commitNote ∧ (s.hunt p).choices = s.choices :=
  by simp [State.hunt]

/-- Leaves all but ports as it was. -/
@[simp] theorem State.putReply_frame (s : State) (p : Port) (kind : Nat) (tag : Octet) (st : Status) (c : Content) :
    (s.putReply p kind tag st c).pending = s.pending ∧ (s.putReply p kind tag st c).phase = s.phase ∧
    (s.putReply p kind tag st c).bus = s.bus ∧ (s.putReply p kind tag st c).weigh = s.weigh ∧
    (s.putReply p kind tag st c).capture = s.capture ∧ (s.putReply p kind tag st c).bridge = s.bridge ∧
    (s.putReply p kind tag st c).axles = s.axles ∧ (s.putReply p kind tag st c).visits = s.visits ∧
    (s.putReply p kind tag st c).inUse = s.inUse ∧ (s.putReply p kind tag st c).tares = s.tares ∧
    (s.putReply p kind tag st c).tickets = s.tickets ∧ (s.putReply p kind tag st c).cal = s.cal ∧
    (s.putReply p kind tag st c).staged = s.staged ∧ (s.putReply p kind tag st c).switchOn = s.switchOn ∧
    (s.putReply p kind tag st c).audit = s.audit ∧ (s.putReply p kind tag st c).run = s.run ∧
    (s.putReply p kind tag st c).evidence = s.evidence ∧ (s.putReply p kind tag st c).faults = s.faults ∧
    (s.putReply p kind tag st c).site = s.site ∧ (s.putReply p kind tag st c).clockSet = s.clockSet ∧
    (s.putReply p kind tag st c).powered = s.powered ∧ (s.putReply p kind tag st c).supplyGood = s.supplyGood ∧
    (s.putReply p kind tag st c).dipTimer = s.dipTimer ∧ (s.putReply p kind tag st c).writes = s.writes ∧
    (s.putReply p kind tag st c).outbox = s.outbox ∧ (s.putReply p kind tag st c).commitNote = s.commitNote ∧
    (s.putReply p kind tag st c).choices = s.choices :=
  by simp [State.putReply]

/-- Leaves all but outbox as it was. -/
@[simp] theorem State.post_frame (s : State) (p : Port) (n : Notice) :
    (s.post p n).pending = s.pending ∧ (s.post p n).phase = s.phase ∧ (s.post p n).bus = s.bus ∧
    (s.post p n).weigh = s.weigh ∧ (s.post p n).capture = s.capture ∧ (s.post p n).bridge = s.bridge ∧
    (s.post p n).axles = s.axles ∧ (s.post p n).visits = s.visits ∧ (s.post p n).inUse = s.inUse ∧
    (s.post p n).tares = s.tares ∧ (s.post p n).tickets = s.tickets ∧ (s.post p n).cal = s.cal ∧
    (s.post p n).staged = s.staged ∧ (s.post p n).switchOn = s.switchOn ∧ (s.post p n).audit = s.audit ∧
    (s.post p n).run = s.run ∧ (s.post p n).evidence = s.evidence ∧ (s.post p n).faults = s.faults ∧
    (s.post p n).site = s.site ∧ (s.post p n).clockSet = s.clockSet ∧ (s.post p n).powered = s.powered ∧
    (s.post p n).supplyGood = s.supplyGood ∧ (s.post p n).dipTimer = s.dipTimer ∧
    (s.post p n).ports = s.ports ∧ (s.post p n).writes = s.writes ∧ (s.post p n).commitNote = s.commitNote ∧
    (s.post p n).choices = s.choices :=
  ⟨rfl, rfl, rfl, rfl, rfl, rfl, rfl, rfl, rfl, rfl, rfl, rfl, rfl, rfl, rfl, rfl, rfl, rfl, rfl, rfl, rfl, rfl, rfl, rfl, rfl, rfl, rfl⟩

/-- Leaves all but outbox, ports as it was. -/
@[simp] theorem State.flush_frame (s : State) :
    (s.flush).pending = s.pending ∧ (s.flush).phase = s.phase ∧ (s.flush).bus = s.bus ∧
    (s.flush).weigh = s.weigh ∧ (s.flush).capture = s.capture ∧ (s.flush).bridge = s.bridge ∧
    (s.flush).axles = s.axles ∧ (s.flush).visits = s.visits ∧ (s.flush).inUse = s.inUse ∧
    (s.flush).tares = s.tares ∧ (s.flush).tickets = s.tickets ∧ (s.flush).cal = s.cal ∧
    (s.flush).staged = s.staged ∧ (s.flush).switchOn = s.switchOn ∧ (s.flush).audit = s.audit ∧
    (s.flush).run = s.run ∧ (s.flush).evidence = s.evidence ∧ (s.flush).faults = s.faults ∧
    (s.flush).site = s.site ∧ (s.flush).clockSet = s.clockSet ∧ (s.flush).powered = s.powered ∧
    (s.flush).supplyGood = s.supplyGood ∧ (s.flush).dipTimer = s.dipTimer ∧ (s.flush).writes = s.writes ∧
    (s.flush).commitNote = s.commitNote ∧ (s.flush).choices = s.choices :=
  ⟨rfl, rfl, rfl, rfl, rfl, rfl, rfl, rfl, rfl, rfl, rfl, rfl, rfl, rfl, rfl, rfl, rfl, rfl, rfl, rfl, rfl, rfl, rfl, rfl, rfl, rfl⟩

/-- Leaves all but phase as it was. -/
@[simp] theorem State.beginStart_frame (s : State) (c : StartCause) :
    (s.beginStart c).pending = s.pending ∧ (s.beginStart c).bus = s.bus ∧ (s.beginStart c).weigh = s.weigh ∧
    (s.beginStart c).capture = s.capture ∧ (s.beginStart c).bridge = s.bridge ∧
    (s.beginStart c).axles = s.axles ∧ (s.beginStart c).visits = s.visits ∧ (s.beginStart c).inUse = s.inUse ∧
    (s.beginStart c).tares = s.tares ∧ (s.beginStart c).tickets = s.tickets ∧ (s.beginStart c).cal = s.cal ∧
    (s.beginStart c).staged = s.staged ∧ (s.beginStart c).switchOn = s.switchOn ∧
    (s.beginStart c).audit = s.audit ∧ (s.beginStart c).run = s.run ∧ (s.beginStart c).evidence = s.evidence ∧
    (s.beginStart c).faults = s.faults ∧ (s.beginStart c).site = s.site ∧
    (s.beginStart c).clockSet = s.clockSet ∧ (s.beginStart c).powered = s.powered ∧
    (s.beginStart c).supplyGood = s.supplyGood ∧ (s.beginStart c).dipTimer = s.dipTimer ∧
    (s.beginStart c).ports = s.ports ∧ (s.beginStart c).writes = s.writes ∧
    (s.beginStart c).outbox = s.outbox ∧ (s.beginStart c).commitNote = s.commitNote ∧
    (s.beginStart c).choices = s.choices :=
  ⟨rfl, rfl, rfl, rfl, rfl, rfl, rfl, rfl, rfl, rfl, rfl, rfl, rfl, rfl, rfl, rfl, rfl, rfl, rfl, rfl, rfl, rfl, rfl, rfl, rfl, rfl, rfl⟩

/-- Leaves all but audit as it was. -/
@[simp] theorem State.appendAudit_frame (s : State) (before after : Nat) (body : AuditBody) :
    (s.appendAudit before after body).pending = s.pending ∧ (s.appendAudit before after body).phase = s.phase ∧
    (s.appendAudit before after body).bus = s.bus ∧ (s.appendAudit before after body).weigh = s.weigh ∧
    (s.appendAudit before after body).capture = s.capture ∧
    (s.appendAudit before after body).bridge = s.bridge ∧ (s.appendAudit before after body).axles = s.axles ∧
    (s.appendAudit before after body).visits = s.visits ∧ (s.appendAudit before after body).inUse = s.inUse ∧
    (s.appendAudit before after body).tares = s.tares ∧ (s.appendAudit before after body).tickets = s.tickets ∧
    (s.appendAudit before after body).cal = s.cal ∧ (s.appendAudit before after body).staged = s.staged ∧
    (s.appendAudit before after body).switchOn = s.switchOn ∧ (s.appendAudit before after body).run = s.run ∧
    (s.appendAudit before after body).evidence = s.evidence ∧
    (s.appendAudit before after body).faults = s.faults ∧ (s.appendAudit before after body).site = s.site ∧
    (s.appendAudit before after body).clockSet = s.clockSet ∧
    (s.appendAudit before after body).powered = s.powered ∧
    (s.appendAudit before after body).supplyGood = s.supplyGood ∧
    (s.appendAudit before after body).dipTimer = s.dipTimer ∧
    (s.appendAudit before after body).ports = s.ports ∧ (s.appendAudit before after body).writes = s.writes ∧
    (s.appendAudit before after body).outbox = s.outbox ∧
    (s.appendAudit before after body).commitNote = s.commitNote ∧
    (s.appendAudit before after body).choices = s.choices :=
  ⟨rfl, rfl, rfl, rfl, rfl, rfl, rfl, rfl, rfl, rfl, rfl, rfl, rfl, rfl, rfl, rfl, rfl, rfl, rfl, rfl, rfl, rfl, rfl, rfl, rfl, rfl, rfl⟩

/-- Leaves all but audit as it was. -/
@[simp] theorem State.appendAtEpoch_frame (s : State) (body : AuditBody) :
    (s.appendAtEpoch body).pending = s.pending ∧ (s.appendAtEpoch body).phase = s.phase ∧
    (s.appendAtEpoch body).bus = s.bus ∧ (s.appendAtEpoch body).weigh = s.weigh ∧
    (s.appendAtEpoch body).capture = s.capture ∧ (s.appendAtEpoch body).bridge = s.bridge ∧
    (s.appendAtEpoch body).axles = s.axles ∧ (s.appendAtEpoch body).visits = s.visits ∧
    (s.appendAtEpoch body).inUse = s.inUse ∧ (s.appendAtEpoch body).tares = s.tares ∧
    (s.appendAtEpoch body).tickets = s.tickets ∧ (s.appendAtEpoch body).cal = s.cal ∧
    (s.appendAtEpoch body).staged = s.staged ∧ (s.appendAtEpoch body).switchOn = s.switchOn ∧
    (s.appendAtEpoch body).run = s.run ∧ (s.appendAtEpoch body).evidence = s.evidence ∧
    (s.appendAtEpoch body).faults = s.faults ∧ (s.appendAtEpoch body).site = s.site ∧
    (s.appendAtEpoch body).clockSet = s.clockSet ∧ (s.appendAtEpoch body).powered = s.powered ∧
    (s.appendAtEpoch body).supplyGood = s.supplyGood ∧ (s.appendAtEpoch body).dipTimer = s.dipTimer ∧
    (s.appendAtEpoch body).ports = s.ports ∧ (s.appendAtEpoch body).writes = s.writes ∧
    (s.appendAtEpoch body).outbox = s.outbox ∧ (s.appendAtEpoch body).commitNote = s.commitNote ∧
    (s.appendAtEpoch body).choices = s.choices :=
  ⟨rfl, rfl, rfl, rfl, rfl, rfl, rfl, rfl, rfl, rfl, rfl, rfl, rfl, rfl, rfl, rfl, rfl, rfl, rfl, rfl, rfl, rfl, rfl, rfl, rfl, rfl, rfl⟩

/-- Leaves all but faults as it was. -/
@[simp] theorem State.setFaultEntry_frame (s : State) (k : FaultKey) (f : FaultEntry) :
    (s.setFaultEntry k f).pending = s.pending ∧ (s.setFaultEntry k f).phase = s.phase ∧
    (s.setFaultEntry k f).bus = s.bus ∧ (s.setFaultEntry k f).weigh = s.weigh ∧
    (s.setFaultEntry k f).capture = s.capture ∧ (s.setFaultEntry k f).bridge = s.bridge ∧
    (s.setFaultEntry k f).axles = s.axles ∧ (s.setFaultEntry k f).visits = s.visits ∧
    (s.setFaultEntry k f).inUse = s.inUse ∧ (s.setFaultEntry k f).tares = s.tares ∧
    (s.setFaultEntry k f).tickets = s.tickets ∧ (s.setFaultEntry k f).cal = s.cal ∧
    (s.setFaultEntry k f).staged = s.staged ∧ (s.setFaultEntry k f).switchOn = s.switchOn ∧
    (s.setFaultEntry k f).audit = s.audit ∧ (s.setFaultEntry k f).run = s.run ∧
    (s.setFaultEntry k f).evidence = s.evidence ∧ (s.setFaultEntry k f).site = s.site ∧
    (s.setFaultEntry k f).clockSet = s.clockSet ∧ (s.setFaultEntry k f).powered = s.powered ∧
    (s.setFaultEntry k f).supplyGood = s.supplyGood ∧ (s.setFaultEntry k f).dipTimer = s.dipTimer ∧
    (s.setFaultEntry k f).ports = s.ports ∧ (s.setFaultEntry k f).writes = s.writes ∧
    (s.setFaultEntry k f).outbox = s.outbox ∧ (s.setFaultEntry k f).commitNote = s.commitNote ∧
    (s.setFaultEntry k f).choices = s.choices :=
  ⟨rfl, rfl, rfl, rfl, rfl, rfl, rfl, rfl, rfl, rfl, rfl, rfl, rfl, rfl, rfl, rfl, rfl, rfl, rfl, rfl, rfl, rfl, rfl, rfl, rfl, rfl, rfl⟩

/-- Leaves all but capture, outbox as it was. -/
@[simp] theorem State.endCapture_frame (s : State) (c : Capture) (outcome : Status) (round : Option Nat)
    (accepted : Option AcceptedCapture) :
    (s.endCapture c outcome round accepted).pending = s.pending ∧
    (s.endCapture c outcome round accepted).phase = s.phase ∧
    (s.endCapture c outcome round accepted).bus = s.bus ∧
    (s.endCapture c outcome round accepted).weigh = s.weigh ∧
    (s.endCapture c outcome round accepted).bridge = s.bridge ∧
    (s.endCapture c outcome round accepted).axles = s.axles ∧
    (s.endCapture c outcome round accepted).visits = s.visits ∧
    (s.endCapture c outcome round accepted).inUse = s.inUse ∧
    (s.endCapture c outcome round accepted).tares = s.tares ∧
    (s.endCapture c outcome round accepted).tickets = s.tickets ∧
    (s.endCapture c outcome round accepted).cal = s.cal ∧
    (s.endCapture c outcome round accepted).staged = s.staged ∧
    (s.endCapture c outcome round accepted).switchOn = s.switchOn ∧
    (s.endCapture c outcome round accepted).audit = s.audit ∧
    (s.endCapture c outcome round accepted).run = s.run ∧
    (s.endCapture c outcome round accepted).evidence = s.evidence ∧
    (s.endCapture c outcome round accepted).faults = s.faults ∧
    (s.endCapture c outcome round accepted).site = s.site ∧
    (s.endCapture c outcome round accepted).clockSet = s.clockSet ∧
    (s.endCapture c outcome round accepted).powered = s.powered ∧
    (s.endCapture c outcome round accepted).supplyGood = s.supplyGood ∧
    (s.endCapture c outcome round accepted).dipTimer = s.dipTimer ∧
    (s.endCapture c outcome round accepted).ports = s.ports ∧
    (s.endCapture c outcome round accepted).writes = s.writes ∧
    (s.endCapture c outcome round accepted).commitNote = s.commitNote ∧
    (s.endCapture c outcome round accepted).choices = s.choices :=
  ⟨rfl, rfl, rfl, rfl, rfl, rfl, rfl, rfl, rfl, rfl, rfl, rfl, rfl, rfl, rfl, rfl, rfl, rfl, rfl, rfl, rfl, rfl, rfl, rfl, rfl, rfl⟩

/-- Leaves all but axles as it was. -/
@[simp] theorem State.zeroCounts_frame (s : State) :
    (s.zeroCounts).pending = s.pending ∧ (s.zeroCounts).phase = s.phase ∧ (s.zeroCounts).bus = s.bus ∧
    (s.zeroCounts).weigh = s.weigh ∧ (s.zeroCounts).capture = s.capture ∧ (s.zeroCounts).bridge = s.bridge ∧
    (s.zeroCounts).visits = s.visits ∧ (s.zeroCounts).inUse = s.inUse ∧ (s.zeroCounts).tares = s.tares ∧
    (s.zeroCounts).tickets = s.tickets ∧ (s.zeroCounts).cal = s.cal ∧ (s.zeroCounts).staged = s.staged ∧
    (s.zeroCounts).switchOn = s.switchOn ∧ (s.zeroCounts).audit = s.audit ∧ (s.zeroCounts).run = s.run ∧
    (s.zeroCounts).evidence = s.evidence ∧ (s.zeroCounts).faults = s.faults ∧ (s.zeroCounts).site = s.site ∧
    (s.zeroCounts).clockSet = s.clockSet ∧ (s.zeroCounts).powered = s.powered ∧
    (s.zeroCounts).supplyGood = s.supplyGood ∧ (s.zeroCounts).dipTimer = s.dipTimer ∧
    (s.zeroCounts).ports = s.ports ∧ (s.zeroCounts).writes = s.writes ∧ (s.zeroCounts).outbox = s.outbox ∧
    (s.zeroCounts).commitNote = s.commitNote ∧ (s.zeroCounts).choices = s.choices :=
  ⟨rfl, rfl, rfl, rfl, rfl, rfl, rfl, rfl, rfl, rfl, rfl, rfl, rfl, rfl, rfl, rfl, rfl, rfl, rfl, rfl, rfl, rfl, rfl, rfl, rfl, rfl, rfl⟩

/-- Leaves all but axles, bridge as it was. -/
@[simp] theorem State.unknownEnds_frame (s : State) :
    (s.unknownEnds).pending = s.pending ∧ (s.unknownEnds).phase = s.phase ∧ (s.unknownEnds).bus = s.bus ∧
    (s.unknownEnds).weigh = s.weigh ∧ (s.unknownEnds).capture = s.capture ∧ (s.unknownEnds).visits = s.visits ∧
    (s.unknownEnds).inUse = s.inUse ∧ (s.unknownEnds).tares = s.tares ∧ (s.unknownEnds).tickets = s.tickets ∧
    (s.unknownEnds).cal = s.cal ∧ (s.unknownEnds).staged = s.staged ∧ (s.unknownEnds).switchOn = s.switchOn ∧
    (s.unknownEnds).audit = s.audit ∧ (s.unknownEnds).run = s.run ∧ (s.unknownEnds).evidence = s.evidence ∧
    (s.unknownEnds).faults = s.faults ∧ (s.unknownEnds).site = s.site ∧ (s.unknownEnds).clockSet = s.clockSet ∧
    (s.unknownEnds).powered = s.powered ∧ (s.unknownEnds).supplyGood = s.supplyGood ∧
    (s.unknownEnds).dipTimer = s.dipTimer ∧ (s.unknownEnds).ports = s.ports ∧
    (s.unknownEnds).writes = s.writes ∧ (s.unknownEnds).outbox = s.outbox ∧
    (s.unknownEnds).commitNote = s.commitNote ∧ (s.unknownEnds).choices = s.choices :=
  ⟨rfl, rfl, rfl, rfl, rfl, rfl, rfl, rfl, rfl, rfl, rfl, rfl, rfl, rfl, rfl, rfl, rfl, rfl, rfl, rfl, rfl, rfl, rfl, rfl, rfl, rfl⟩

/-- Leaves all but bridge as it was. -/
@[simp] theorem State.setFeedback_frame (s : State) (e : BridgeEnd) (on : Bool) :
    (s.setFeedback e on).pending = s.pending ∧ (s.setFeedback e on).phase = s.phase ∧
    (s.setFeedback e on).bus = s.bus ∧ (s.setFeedback e on).weigh = s.weigh ∧
    (s.setFeedback e on).capture = s.capture ∧ (s.setFeedback e on).axles = s.axles ∧
    (s.setFeedback e on).visits = s.visits ∧ (s.setFeedback e on).inUse = s.inUse ∧
    (s.setFeedback e on).tares = s.tares ∧ (s.setFeedback e on).tickets = s.tickets ∧
    (s.setFeedback e on).cal = s.cal ∧ (s.setFeedback e on).staged = s.staged ∧
    (s.setFeedback e on).switchOn = s.switchOn ∧ (s.setFeedback e on).audit = s.audit ∧
    (s.setFeedback e on).run = s.run ∧ (s.setFeedback e on).evidence = s.evidence ∧
    (s.setFeedback e on).faults = s.faults ∧ (s.setFeedback e on).site = s.site ∧
    (s.setFeedback e on).clockSet = s.clockSet ∧ (s.setFeedback e on).powered = s.powered ∧
    (s.setFeedback e on).supplyGood = s.supplyGood ∧ (s.setFeedback e on).dipTimer = s.dipTimer ∧
    (s.setFeedback e on).ports = s.ports ∧ (s.setFeedback e on).writes = s.writes ∧
    (s.setFeedback e on).outbox = s.outbox ∧ (s.setFeedback e on).commitNote = s.commitNote ∧
    (s.setFeedback e on).choices = s.choices :=
  by cases e <;> simp [State.setFeedback]

/-- Leaves all but bridge as it was. -/
@[simp] theorem State.judgeSources_frame (s : State) :
    (s.judgeSources).pending = s.pending ∧ (s.judgeSources).phase = s.phase ∧ (s.judgeSources).bus = s.bus ∧
    (s.judgeSources).weigh = s.weigh ∧ (s.judgeSources).capture = s.capture ∧
    (s.judgeSources).axles = s.axles ∧ (s.judgeSources).visits = s.visits ∧ (s.judgeSources).inUse = s.inUse ∧
    (s.judgeSources).tares = s.tares ∧ (s.judgeSources).tickets = s.tickets ∧ (s.judgeSources).cal = s.cal ∧
    (s.judgeSources).staged = s.staged ∧ (s.judgeSources).switchOn = s.switchOn ∧
    (s.judgeSources).audit = s.audit ∧ (s.judgeSources).run = s.run ∧ (s.judgeSources).evidence = s.evidence ∧
    (s.judgeSources).faults = s.faults ∧ (s.judgeSources).site = s.site ∧
    (s.judgeSources).clockSet = s.clockSet ∧ (s.judgeSources).powered = s.powered ∧
    (s.judgeSources).supplyGood = s.supplyGood ∧ (s.judgeSources).dipTimer = s.dipTimer ∧
    (s.judgeSources).ports = s.ports ∧ (s.judgeSources).writes = s.writes ∧
    (s.judgeSources).outbox = s.outbox ∧ (s.judgeSources).commitNote = s.commitNote ∧
    (s.judgeSources).choices = s.choices :=
  ⟨rfl, rfl, rfl, rfl, rfl, rfl, rfl, rfl, rfl, rfl, rfl, rfl, rfl, rfl, rfl, rfl, rfl, rfl, rfl, rfl, rfl, rfl, rfl, rfl, rfl, rfl, rfl⟩

/-- Leaves all but bridge as it was. -/
@[simp] theorem State.pauseGrantTimer_frame (s : State) (paused : Bool) :
    (s.pauseGrantTimer paused).pending = s.pending ∧ (s.pauseGrantTimer paused).phase = s.phase ∧
    (s.pauseGrantTimer paused).bus = s.bus ∧ (s.pauseGrantTimer paused).weigh = s.weigh ∧
    (s.pauseGrantTimer paused).capture = s.capture ∧ (s.pauseGrantTimer paused).axles = s.axles ∧
    (s.pauseGrantTimer paused).visits = s.visits ∧ (s.pauseGrantTimer paused).inUse = s.inUse ∧
    (s.pauseGrantTimer paused).tares = s.tares ∧ (s.pauseGrantTimer paused).tickets = s.tickets ∧
    (s.pauseGrantTimer paused).cal = s.cal ∧ (s.pauseGrantTimer paused).staged = s.staged ∧
    (s.pauseGrantTimer paused).switchOn = s.switchOn ∧ (s.pauseGrantTimer paused).audit = s.audit ∧
    (s.pauseGrantTimer paused).run = s.run ∧ (s.pauseGrantTimer paused).evidence = s.evidence ∧
    (s.pauseGrantTimer paused).faults = s.faults ∧ (s.pauseGrantTimer paused).site = s.site ∧
    (s.pauseGrantTimer paused).clockSet = s.clockSet ∧ (s.pauseGrantTimer paused).powered = s.powered ∧
    (s.pauseGrantTimer paused).supplyGood = s.supplyGood ∧ (s.pauseGrantTimer paused).dipTimer = s.dipTimer ∧
    (s.pauseGrantTimer paused).ports = s.ports ∧ (s.pauseGrantTimer paused).writes = s.writes ∧
    (s.pauseGrantTimer paused).outbox = s.outbox ∧ (s.pauseGrantTimer paused).commitNote = s.commitNote ∧
    (s.pauseGrantTimer paused).choices = s.choices :=
  ⟨rfl, rfl, rfl, rfl, rfl, rfl, rfl, rfl, rfl, rfl, rfl, rfl, rfl, rfl, rfl, rfl, rfl, rfl, rfl, rfl, rfl, rfl, rfl, rfl, rfl, rfl, rfl⟩

/-- Leaves all but weigh as it was. -/
@[simp] theorem State.withdrawRound_frame (s : State) :
    (s.withdrawRound).pending = s.pending ∧ (s.withdrawRound).phase = s.phase ∧ (s.withdrawRound).bus = s.bus ∧
    (s.withdrawRound).capture = s.capture ∧ (s.withdrawRound).bridge = s.bridge ∧
    (s.withdrawRound).axles = s.axles ∧ (s.withdrawRound).visits = s.visits ∧
    (s.withdrawRound).inUse = s.inUse ∧ (s.withdrawRound).tares = s.tares ∧
    (s.withdrawRound).tickets = s.tickets ∧ (s.withdrawRound).cal = s.cal ∧
    (s.withdrawRound).staged = s.staged ∧ (s.withdrawRound).switchOn = s.switchOn ∧
    (s.withdrawRound).audit = s.audit ∧ (s.withdrawRound).run = s.run ∧
    (s.withdrawRound).evidence = s.evidence ∧ (s.withdrawRound).faults = s.faults ∧
    (s.withdrawRound).site = s.site ∧ (s.withdrawRound).clockSet = s.clockSet ∧
    (s.withdrawRound).powered = s.powered ∧ (s.withdrawRound).supplyGood = s.supplyGood ∧
    (s.withdrawRound).dipTimer = s.dipTimer ∧ (s.withdrawRound).ports = s.ports ∧
    (s.withdrawRound).writes = s.writes ∧ (s.withdrawRound).outbox = s.outbox ∧
    (s.withdrawRound).commitNote = s.commitNote ∧ (s.withdrawRound).choices = s.choices :=
  by
  unfold State.withdrawRound
  (try simp only [])
  repeat' split
  all_goals simp

/-- Leaves all but bus as it was. -/
@[simp] theorem State.abandonRound_frame (s : State) :
    (s.abandonRound).pending = s.pending ∧ (s.abandonRound).phase = s.phase ∧
    (s.abandonRound).weigh = s.weigh ∧ (s.abandonRound).capture = s.capture ∧
    (s.abandonRound).bridge = s.bridge ∧ (s.abandonRound).axles = s.axles ∧
    (s.abandonRound).visits = s.visits ∧ (s.abandonRound).inUse = s.inUse ∧ (s.abandonRound).tares = s.tares ∧
    (s.abandonRound).tickets = s.tickets ∧ (s.abandonRound).cal = s.cal ∧ (s.abandonRound).staged = s.staged ∧
    (s.abandonRound).switchOn = s.switchOn ∧ (s.abandonRound).audit = s.audit ∧ (s.abandonRound).run = s.run ∧
    (s.abandonRound).evidence = s.evidence ∧ (s.abandonRound).faults = s.faults ∧
    (s.abandonRound).site = s.site ∧ (s.abandonRound).clockSet = s.clockSet ∧
    (s.abandonRound).powered = s.powered ∧ (s.abandonRound).supplyGood = s.supplyGood ∧
    (s.abandonRound).dipTimer = s.dipTimer ∧ (s.abandonRound).ports = s.ports ∧
    (s.abandonRound).writes = s.writes ∧ (s.abandonRound).outbox = s.outbox ∧
    (s.abandonRound).commitNote = s.commitNote ∧ (s.abandonRound).choices = s.choices :=
  ⟨rfl, rfl, rfl, rfl, rfl, rfl, rfl, rfl, rfl, rfl, rfl, rfl, rfl, rfl, rfl, rfl, rfl, rfl, rfl, rfl, rfl, rfl, rfl, rfl, rfl, rfl, rfl⟩

/-- Leaves all but bridge as it was. -/
@[simp] theorem State.enterBridge_frame (s : State) :
    (s.enterBridge).pending = s.pending ∧ (s.enterBridge).phase = s.phase ∧ (s.enterBridge).bus = s.bus ∧
    (s.enterBridge).weigh = s.weigh ∧ (s.enterBridge).capture = s.capture ∧ (s.enterBridge).axles = s.axles ∧
    (s.enterBridge).visits = s.visits ∧ (s.enterBridge).inUse = s.inUse ∧ (s.enterBridge).tares = s.tares ∧
    (s.enterBridge).tickets = s.tickets ∧ (s.enterBridge).cal = s.cal ∧ (s.enterBridge).staged = s.staged ∧
    (s.enterBridge).switchOn = s.switchOn ∧ (s.enterBridge).audit = s.audit ∧ (s.enterBridge).run = s.run ∧
    (s.enterBridge).evidence = s.evidence ∧ (s.enterBridge).faults = s.faults ∧ (s.enterBridge).site = s.site ∧
    (s.enterBridge).clockSet = s.clockSet ∧ (s.enterBridge).powered = s.powered ∧
    (s.enterBridge).supplyGood = s.supplyGood ∧ (s.enterBridge).dipTimer = s.dipTimer ∧
    (s.enterBridge).ports = s.ports ∧ (s.enterBridge).writes = s.writes ∧ (s.enterBridge).outbox = s.outbox ∧
    (s.enterBridge).commitNote = s.commitNote ∧ (s.enterBridge).choices = s.choices :=
  ⟨rfl, rfl, rfl, rfl, rfl, rfl, rfl, rfl, rfl, rfl, rfl, rfl, rfl, rfl, rfl, rfl, rfl, rfl, rfl, rfl, rfl, rfl, rfl, rfl, rfl, rfl, rfl⟩

/-- Leaves all but run as it was. -/
@[simp] theorem State.restartPoint_frame (s : State) :
    (s.restartPoint).pending = s.pending ∧ (s.restartPoint).phase = s.phase ∧ (s.restartPoint).bus = s.bus ∧
    (s.restartPoint).weigh = s.weigh ∧ (s.restartPoint).capture = s.capture ∧
    (s.restartPoint).bridge = s.bridge ∧ (s.restartPoint).axles = s.axles ∧
    (s.restartPoint).visits = s.visits ∧ (s.restartPoint).inUse = s.inUse ∧ (s.restartPoint).tares = s.tares ∧
    (s.restartPoint).tickets = s.tickets ∧ (s.restartPoint).cal = s.cal ∧ (s.restartPoint).staged = s.staged ∧
    (s.restartPoint).switchOn = s.switchOn ∧ (s.restartPoint).audit = s.audit ∧
    (s.restartPoint).evidence = s.evidence ∧ (s.restartPoint).faults = s.faults ∧
    (s.restartPoint).site = s.site ∧ (s.restartPoint).clockSet = s.clockSet ∧
    (s.restartPoint).powered = s.powered ∧ (s.restartPoint).supplyGood = s.supplyGood ∧
    (s.restartPoint).dipTimer = s.dipTimer ∧ (s.restartPoint).ports = s.ports ∧
    (s.restartPoint).writes = s.writes ∧ (s.restartPoint).outbox = s.outbox ∧
    (s.restartPoint).commitNote = s.commitNote ∧ (s.restartPoint).choices = s.choices :=
  ⟨rfl, rfl, rfl, rfl, rfl, rfl, rfl, rfl, rfl, rfl, rfl, rfl, rfl, rfl, rfl, rfl, rfl, rfl, rfl, rfl, rfl, rfl, rfl, rfl, rfl, rfl, rfl⟩

/-- Leaves all but tares as it was. -/
@[simp] theorem State.dropLearned_frame (s : State) :
    (s.dropLearned).pending = s.pending ∧ (s.dropLearned).phase = s.phase ∧ (s.dropLearned).bus = s.bus ∧
    (s.dropLearned).weigh = s.weigh ∧ (s.dropLearned).capture = s.capture ∧ (s.dropLearned).bridge = s.bridge ∧
    (s.dropLearned).axles = s.axles ∧ (s.dropLearned).visits = s.visits ∧ (s.dropLearned).inUse = s.inUse ∧
    (s.dropLearned).tickets = s.tickets ∧ (s.dropLearned).cal = s.cal ∧ (s.dropLearned).staged = s.staged ∧
    (s.dropLearned).switchOn = s.switchOn ∧ (s.dropLearned).audit = s.audit ∧ (s.dropLearned).run = s.run ∧
    (s.dropLearned).evidence = s.evidence ∧ (s.dropLearned).faults = s.faults ∧ (s.dropLearned).site = s.site ∧
    (s.dropLearned).clockSet = s.clockSet ∧ (s.dropLearned).powered = s.powered ∧
    (s.dropLearned).supplyGood = s.supplyGood ∧ (s.dropLearned).dipTimer = s.dipTimer ∧
    (s.dropLearned).ports = s.ports ∧ (s.dropLearned).writes = s.writes ∧ (s.dropLearned).outbox = s.outbox ∧
    (s.dropLearned).commitNote = s.commitNote ∧ (s.dropLearned).choices = s.choices :=
  ⟨rfl, rfl, rfl, rfl, rfl, rfl, rfl, rfl, rfl, rfl, rfl, rfl, rfl, rfl, rfl, rfl, rfl, rfl, rfl, rfl, rfl, rfl, rfl, rfl, rfl, rfl, rfl⟩

/-- Leaves all but visits, outbox as it was. -/
@[simp] theorem State.firstWeighed_frame (s : State) (p : Nat) (v : Visit) (r : WeighRecord) :
    (s.firstWeighed p v r).pending = s.pending ∧ (s.firstWeighed p v r).phase = s.phase ∧
    (s.firstWeighed p v r).bus = s.bus ∧ (s.firstWeighed p v r).weigh = s.weigh ∧
    (s.firstWeighed p v r).capture = s.capture ∧ (s.firstWeighed p v r).bridge = s.bridge ∧
    (s.firstWeighed p v r).axles = s.axles ∧ (s.firstWeighed p v r).inUse = s.inUse ∧
    (s.firstWeighed p v r).tares = s.tares ∧ (s.firstWeighed p v r).tickets = s.tickets ∧
    (s.firstWeighed p v r).cal = s.cal ∧ (s.firstWeighed p v r).staged = s.staged ∧
    (s.firstWeighed p v r).switchOn = s.switchOn ∧ (s.firstWeighed p v r).audit = s.audit ∧
    (s.firstWeighed p v r).run = s.run ∧ (s.firstWeighed p v r).evidence = s.evidence ∧
    (s.firstWeighed p v r).faults = s.faults ∧ (s.firstWeighed p v r).site = s.site ∧
    (s.firstWeighed p v r).clockSet = s.clockSet ∧ (s.firstWeighed p v r).powered = s.powered ∧
    (s.firstWeighed p v r).supplyGood = s.supplyGood ∧ (s.firstWeighed p v r).dipTimer = s.dipTimer ∧
    (s.firstWeighed p v r).ports = s.ports ∧ (s.firstWeighed p v r).writes = s.writes ∧
    (s.firstWeighed p v r).commitNote = s.commitNote ∧ (s.firstWeighed p v r).choices = s.choices :=
  ⟨rfl, rfl, rfl, rfl, rfl, rfl, rfl, rfl, rfl, rfl, rfl, rfl, rfl, rfl, rfl, rfl, rfl, rfl, rfl, rfl, rfl, rfl, rfl, rfl, rfl, rfl⟩

/-- Leaves all but outbox as it was. -/
@[simp] theorem State.noteExpired_frame (s : State) (v : Visit) :
    (s.noteExpired v).pending = s.pending ∧ (s.noteExpired v).phase = s.phase ∧ (s.noteExpired v).bus = s.bus ∧
    (s.noteExpired v).weigh = s.weigh ∧ (s.noteExpired v).capture = s.capture ∧
    (s.noteExpired v).bridge = s.bridge ∧ (s.noteExpired v).axles = s.axles ∧
    (s.noteExpired v).visits = s.visits ∧ (s.noteExpired v).inUse = s.inUse ∧
    (s.noteExpired v).tares = s.tares ∧ (s.noteExpired v).tickets = s.tickets ∧ (s.noteExpired v).cal = s.cal ∧
    (s.noteExpired v).staged = s.staged ∧ (s.noteExpired v).switchOn = s.switchOn ∧
    (s.noteExpired v).audit = s.audit ∧ (s.noteExpired v).run = s.run ∧
    (s.noteExpired v).evidence = s.evidence ∧ (s.noteExpired v).faults = s.faults ∧
    (s.noteExpired v).site = s.site ∧ (s.noteExpired v).clockSet = s.clockSet ∧
    (s.noteExpired v).powered = s.powered ∧ (s.noteExpired v).supplyGood = s.supplyGood ∧
    (s.noteExpired v).dipTimer = s.dipTimer ∧ (s.noteExpired v).ports = s.ports ∧
    (s.noteExpired v).writes = s.writes ∧ (s.noteExpired v).commitNote = s.commitNote ∧
    (s.noteExpired v).choices = s.choices :=
  ⟨rfl, rfl, rfl, rfl, rfl, rfl, rfl, rfl, rfl, rfl, rfl, rfl, rfl, rfl, rfl, rfl, rfl, rfl, rfl, rfl, rfl, rfl, rfl, rfl, rfl, rfl, rfl⟩

/-- Leaves all but capture as it was. -/
@[simp] theorem State.beginCapture_frame (s : State) (o : Origin) :
    (s.beginCapture o).pending = s.pending ∧ (s.beginCapture o).phase = s.phase ∧
    (s.beginCapture o).bus = s.bus ∧ (s.beginCapture o).weigh = s.weigh ∧
    (s.beginCapture o).bridge = s.bridge ∧ (s.beginCapture o).axles = s.axles ∧
    (s.beginCapture o).visits = s.visits ∧ (s.beginCapture o).inUse = s.inUse ∧
    (s.beginCapture o).tares = s.tares ∧ (s.beginCapture o).tickets = s.tickets ∧
    (s.beginCapture o).cal = s.cal ∧ (s.beginCapture o).staged = s.staged ∧
    (s.beginCapture o).switchOn = s.switchOn ∧ (s.beginCapture o).audit = s.audit ∧
    (s.beginCapture o).run = s.run ∧ (s.beginCapture o).evidence = s.evidence ∧
    (s.beginCapture o).faults = s.faults ∧ (s.beginCapture o).site = s.site ∧
    (s.beginCapture o).clockSet = s.clockSet ∧ (s.beginCapture o).powered = s.powered ∧
    (s.beginCapture o).supplyGood = s.supplyGood ∧ (s.beginCapture o).dipTimer = s.dipTimer ∧
    (s.beginCapture o).ports = s.ports ∧ (s.beginCapture o).writes = s.writes ∧
    (s.beginCapture o).outbox = s.outbox ∧ (s.beginCapture o).commitNote = s.commitNote ∧
    (s.beginCapture o).choices = s.choices :=
  ⟨rfl, rfl, rfl, rfl, rfl, rfl, rfl, rfl, rfl, rfl, rfl, rfl, rfl, rfl, rfl, rfl, rfl, rfl, rfl, rfl, rfl, rfl, rfl, rfl, rfl, rfl, rfl⟩

/-- Leaves all but capture as it was. -/
@[simp] theorem State.refuseAtOnce_frame (s : State) (o : Origin) (code : Status) :
    (s.refuseAtOnce o code).pending = s.pending ∧ (s.refuseAtOnce o code).phase = s.phase ∧
    (s.refuseAtOnce o code).bus = s.bus ∧ (s.refuseAtOnce o code).weigh = s.weigh ∧
    (s.refuseAtOnce o code).bridge = s.bridge ∧ (s.refuseAtOnce o code).axles = s.axles ∧
    (s.refuseAtOnce o code).visits = s.visits ∧ (s.refuseAtOnce o code).inUse = s.inUse ∧
    (s.refuseAtOnce o code).tares = s.tares ∧ (s.refuseAtOnce o code).tickets = s.tickets ∧
    (s.refuseAtOnce o code).cal = s.cal ∧ (s.refuseAtOnce o code).staged = s.staged ∧
    (s.refuseAtOnce o code).switchOn = s.switchOn ∧ (s.refuseAtOnce o code).audit = s.audit ∧
    (s.refuseAtOnce o code).run = s.run ∧ (s.refuseAtOnce o code).evidence = s.evidence ∧
    (s.refuseAtOnce o code).faults = s.faults ∧ (s.refuseAtOnce o code).site = s.site ∧
    (s.refuseAtOnce o code).clockSet = s.clockSet ∧ (s.refuseAtOnce o code).powered = s.powered ∧
    (s.refuseAtOnce o code).supplyGood = s.supplyGood ∧ (s.refuseAtOnce o code).dipTimer = s.dipTimer ∧
    (s.refuseAtOnce o code).ports = s.ports ∧ (s.refuseAtOnce o code).writes = s.writes ∧
    (s.refuseAtOnce o code).outbox = s.outbox ∧ (s.refuseAtOnce o code).commitNote = s.commitNote ∧
    (s.refuseAtOnce o code).choices = s.choices :=
  ⟨rfl, rfl, rfl, rfl, rfl, rfl, rfl, rfl, rfl, rfl, rfl, rfl, rfl, rfl, rfl, rfl, rfl, rfl, rfl, rfl, rfl, rfl, rfl, rfl, rfl, rfl, rfl⟩

/-- Leaves all but bridge as it was. -/
@[simp] theorem State.append_frame (s : State) (v : Visit) (e : BridgeEnd) :
    (s.append v e).pending = s.pending ∧ (s.append v e).phase = s.phase ∧ (s.append v e).bus = s.bus ∧
    (s.append v e).weigh = s.weigh ∧ (s.append v e).capture = s.capture ∧ (s.append v e).axles = s.axles ∧
    (s.append v e).visits = s.visits ∧ (s.append v e).inUse = s.inUse ∧ (s.append v e).tares = s.tares ∧
    (s.append v e).tickets = s.tickets ∧ (s.append v e).cal = s.cal ∧ (s.append v e).staged = s.staged ∧
    (s.append v e).switchOn = s.switchOn ∧ (s.append v e).audit = s.audit ∧ (s.append v e).run = s.run ∧
    (s.append v e).evidence = s.evidence ∧ (s.append v e).faults = s.faults ∧ (s.append v e).site = s.site ∧
    (s.append v e).clockSet = s.clockSet ∧ (s.append v e).powered = s.powered ∧
    (s.append v e).supplyGood = s.supplyGood ∧ (s.append v e).dipTimer = s.dipTimer ∧
    (s.append v e).ports = s.ports ∧ (s.append v e).writes = s.writes ∧ (s.append v e).outbox = s.outbox ∧
    (s.append v e).commitNote = s.commitNote ∧ (s.append v e).choices = s.choices :=
  ⟨rfl, rfl, rfl, rfl, rfl, rfl, rfl, rfl, rfl, rfl, rfl, rfl, rfl, rfl, rfl, rfl, rfl, rfl, rfl, rfl, rfl, rfl, rfl, rfl, rfl, rfl, rfl⟩

/-- Leaves all but bridge as it was. -/
@[simp] theorem State.setLamps_frame (s : State) (e : BridgeEnd) (lit : Lamps) :
    (s.setLamps e lit).pending = s.pending ∧ (s.setLamps e lit).phase = s.phase ∧
    (s.setLamps e lit).bus = s.bus ∧ (s.setLamps e lit).weigh = s.weigh ∧
    (s.setLamps e lit).capture = s.capture ∧ (s.setLamps e lit).axles = s.axles ∧
    (s.setLamps e lit).visits = s.visits ∧ (s.setLamps e lit).inUse = s.inUse ∧
    (s.setLamps e lit).tares = s.tares ∧ (s.setLamps e lit).tickets = s.tickets ∧
    (s.setLamps e lit).cal = s.cal ∧ (s.setLamps e lit).staged = s.staged ∧
    (s.setLamps e lit).switchOn = s.switchOn ∧ (s.setLamps e lit).audit = s.audit ∧
    (s.setLamps e lit).run = s.run ∧ (s.setLamps e lit).evidence = s.evidence ∧
    (s.setLamps e lit).faults = s.faults ∧ (s.setLamps e lit).site = s.site ∧
    (s.setLamps e lit).clockSet = s.clockSet ∧ (s.setLamps e lit).powered = s.powered ∧
    (s.setLamps e lit).supplyGood = s.supplyGood ∧ (s.setLamps e lit).dipTimer = s.dipTimer ∧
    (s.setLamps e lit).ports = s.ports ∧ (s.setLamps e lit).writes = s.writes ∧
    (s.setLamps e lit).outbox = s.outbox ∧ (s.setLamps e lit).commitNote = s.commitNote ∧
    (s.setLamps e lit).choices = s.choices :=
  by cases e <;> simp [State.setLamps]

/-- Leaves all but run, outbox as it was. -/
@[simp] theorem State.recordPoint_frame (s : State) (r : Run) (w : WaitingPoint) (v : RoundValues) (indicated : Int) :
    (s.recordPoint r w v indicated).pending = s.pending ∧ (s.recordPoint r w v indicated).phase = s.phase ∧
    (s.recordPoint r w v indicated).bus = s.bus ∧ (s.recordPoint r w v indicated).weigh = s.weigh ∧
    (s.recordPoint r w v indicated).capture = s.capture ∧ (s.recordPoint r w v indicated).bridge = s.bridge ∧
    (s.recordPoint r w v indicated).axles = s.axles ∧ (s.recordPoint r w v indicated).visits = s.visits ∧
    (s.recordPoint r w v indicated).inUse = s.inUse ∧ (s.recordPoint r w v indicated).tares = s.tares ∧
    (s.recordPoint r w v indicated).tickets = s.tickets ∧ (s.recordPoint r w v indicated).cal = s.cal ∧
    (s.recordPoint r w v indicated).staged = s.staged ∧ (s.recordPoint r w v indicated).switchOn = s.switchOn ∧
    (s.recordPoint r w v indicated).audit = s.audit ∧ (s.recordPoint r w v indicated).evidence = s.evidence ∧
    (s.recordPoint r w v indicated).faults = s.faults ∧ (s.recordPoint r w v indicated).site = s.site ∧
    (s.recordPoint r w v indicated).clockSet = s.clockSet ∧
    (s.recordPoint r w v indicated).powered = s.powered ∧
    (s.recordPoint r w v indicated).supplyGood = s.supplyGood ∧
    (s.recordPoint r w v indicated).dipTimer = s.dipTimer ∧ (s.recordPoint r w v indicated).ports = s.ports ∧
    (s.recordPoint r w v indicated).writes = s.writes ∧
    (s.recordPoint r w v indicated).commitNote = s.commitNote ∧
    (s.recordPoint r w v indicated).choices = s.choices :=
  ⟨rfl, rfl, rfl, rfl, rfl, rfl, rfl, rfl, rfl, rfl, rfl, rfl, rfl, rfl, rfl, rfl, rfl, rfl, rfl, rfl, rfl, rfl, rfl, rfl, rfl, rfl⟩

/-- Leaves all but staged, cal as it was. -/
@[simp] theorem State.setStaged_frame (s : State) (t : CalTable) :
    (s.setStaged t).pending = s.pending ∧ (s.setStaged t).phase = s.phase ∧ (s.setStaged t).bus = s.bus ∧
    (s.setStaged t).weigh = s.weigh ∧ (s.setStaged t).capture = s.capture ∧ (s.setStaged t).bridge = s.bridge ∧
    (s.setStaged t).axles = s.axles ∧ (s.setStaged t).visits = s.visits ∧ (s.setStaged t).inUse = s.inUse ∧
    (s.setStaged t).tares = s.tares ∧ (s.setStaged t).tickets = s.tickets ∧
    (s.setStaged t).switchOn = s.switchOn ∧ (s.setStaged t).audit = s.audit ∧ (s.setStaged t).run = s.run ∧
    (s.setStaged t).evidence = s.evidence ∧ (s.setStaged t).faults = s.faults ∧ (s.setStaged t).site = s.site ∧
    (s.setStaged t).clockSet = s.clockSet ∧ (s.setStaged t).powered = s.powered ∧
    (s.setStaged t).supplyGood = s.supplyGood ∧ (s.setStaged t).dipTimer = s.dipTimer ∧
    (s.setStaged t).ports = s.ports ∧ (s.setStaged t).writes = s.writes ∧ (s.setStaged t).outbox = s.outbox ∧
    (s.setStaged t).commitNote = s.commitNote ∧ (s.setStaged t).choices = s.choices :=
  ⟨rfl, rfl, rfl, rfl, rfl, rfl, rfl, rfl, rfl, rfl, rfl, rfl, rfl, rfl, rfl, rfl, rfl, rfl, rfl, rfl, rfl, rfl, rfl, rfl, rfl, rfl⟩

/-- Leaves all but staged, cal as it was. -/
@[simp] theorem State.closeAccess_frame (s : State) :
    (s.closeAccess).pending = s.pending ∧ (s.closeAccess).phase = s.phase ∧ (s.closeAccess).bus = s.bus ∧
    (s.closeAccess).weigh = s.weigh ∧ (s.closeAccess).capture = s.capture ∧ (s.closeAccess).bridge = s.bridge ∧
    (s.closeAccess).axles = s.axles ∧ (s.closeAccess).visits = s.visits ∧ (s.closeAccess).inUse = s.inUse ∧
    (s.closeAccess).tares = s.tares ∧ (s.closeAccess).tickets = s.tickets ∧
    (s.closeAccess).switchOn = s.switchOn ∧ (s.closeAccess).audit = s.audit ∧ (s.closeAccess).run = s.run ∧
    (s.closeAccess).evidence = s.evidence ∧ (s.closeAccess).faults = s.faults ∧ (s.closeAccess).site = s.site ∧
    (s.closeAccess).clockSet = s.clockSet ∧ (s.closeAccess).powered = s.powered ∧
    (s.closeAccess).supplyGood = s.supplyGood ∧ (s.closeAccess).dipTimer = s.dipTimer ∧
    (s.closeAccess).ports = s.ports ∧ (s.closeAccess).writes = s.writes ∧ (s.closeAccess).outbox = s.outbox ∧
    (s.closeAccess).commitNote = s.commitNote ∧ (s.closeAccess).choices = s.choices :=
  ⟨rfl, rfl, rfl, rfl, rfl, rfl, rfl, rfl, rfl, rfl, rfl, rfl, rfl, rfl, rfl, rfl, rfl, rfl, rfl, rfl, rfl, rfl, rfl, rfl, rfl, rfl⟩

/-- Leaves all but capture, bridge, run as it was. -/
@[simp] theorem State.timersRun_frame (s : State) :
    (s.timersRun).pending = s.pending ∧ (s.timersRun).phase = s.phase ∧ (s.timersRun).bus = s.bus ∧
    (s.timersRun).weigh = s.weigh ∧ (s.timersRun).axles = s.axles ∧ (s.timersRun).visits = s.visits ∧
    (s.timersRun).inUse = s.inUse ∧ (s.timersRun).tares = s.tares ∧ (s.timersRun).tickets = s.tickets ∧
    (s.timersRun).cal = s.cal ∧ (s.timersRun).staged = s.staged ∧ (s.timersRun).switchOn = s.switchOn ∧
    (s.timersRun).audit = s.audit ∧ (s.timersRun).evidence = s.evidence ∧ (s.timersRun).faults = s.faults ∧
    (s.timersRun).site = s.site ∧ (s.timersRun).clockSet = s.clockSet ∧ (s.timersRun).powered = s.powered ∧
    (s.timersRun).supplyGood = s.supplyGood ∧ (s.timersRun).dipTimer = s.dipTimer ∧
    (s.timersRun).ports = s.ports ∧ (s.timersRun).writes = s.writes ∧ (s.timersRun).outbox = s.outbox ∧
    (s.timersRun).commitNote = s.commitNote ∧ (s.timersRun).choices = s.choices :=
  ⟨rfl, rfl, rfl, rfl, rfl, rfl, rfl, rfl, rfl, rfl, rfl, rfl, rfl, rfl, rfl, rfl, rfl, rfl, rfl, rfl, rfl, rfl, rfl, rfl, rfl⟩

/-- Leaves all but bus, weigh, capture, bridge, axles, visits, inUse, staged, run, faults, clockSet, powered, dipTimer, ports, outbox, commitNote as it was. -/
@[simp] theorem State.resetVolatile_frame (s : State) :
    (s.resetVolatile).pending = s.pending ∧ (s.resetVolatile).phase = s.phase ∧
    (s.resetVolatile).tares = s.tares ∧ (s.resetVolatile).tickets = s.tickets ∧ (s.resetVolatile).cal = s.cal ∧
    (s.resetVolatile).switchOn = s.switchOn ∧ (s.resetVolatile).audit = s.audit ∧
    (s.resetVolatile).evidence = s.evidence ∧ (s.resetVolatile).site = s.site ∧
    (s.resetVolatile).supplyGood = s.supplyGood ∧ (s.resetVolatile).writes = s.writes ∧
    (s.resetVolatile).choices = s.choices :=
  ⟨rfl, rfl, rfl, rfl, rfl, rfl, rfl, rfl, rfl, rfl, rfl, rfl⟩

/-- Leaves all but ports as it was. -/
@[simp] theorem State.setReceiver_frame (s : State) (p : Port) (r : Receiver) :
    (s.setReceiver p r).pending = s.pending ∧ (s.setReceiver p r).phase = s.phase ∧
    (s.setReceiver p r).bus = s.bus ∧ (s.setReceiver p r).weigh = s.weigh ∧
    (s.setReceiver p r).capture = s.capture ∧ (s.setReceiver p r).bridge = s.bridge ∧
    (s.setReceiver p r).axles = s.axles ∧ (s.setReceiver p r).visits = s.visits ∧
    (s.setReceiver p r).inUse = s.inUse ∧ (s.setReceiver p r).tares = s.tares ∧
    (s.setReceiver p r).tickets = s.tickets ∧ (s.setReceiver p r).cal = s.cal ∧
    (s.setReceiver p r).staged = s.staged ∧ (s.setReceiver p r).switchOn = s.switchOn ∧
    (s.setReceiver p r).audit = s.audit ∧ (s.setReceiver p r).run = s.run ∧
    (s.setReceiver p r).evidence = s.evidence ∧ (s.setReceiver p r).faults = s.faults ∧
    (s.setReceiver p r).site = s.site ∧ (s.setReceiver p r).clockSet = s.clockSet ∧
    (s.setReceiver p r).powered = s.powered ∧ (s.setReceiver p r).supplyGood = s.supplyGood ∧
    (s.setReceiver p r).dipTimer = s.dipTimer ∧ (s.setReceiver p r).writes = s.writes ∧
    (s.setReceiver p r).outbox = s.outbox ∧ (s.setReceiver p r).commitNote = s.commitNote ∧
    (s.setReceiver p r).choices = s.choices :=
  by simp [State.setReceiver]

/-! ### What the plain updates write -/

@[simp] theorem State.port_setPort (s : State) (p : Port) (q : PortState) : (s.setPort p q).port p = q := by
  cases p <;> rfl

theorem State.port_setPort_other (s : State) {p p' : Port} (h : p' ≠ p) (q : PortState) :
    (s.setPort p q).port p' = s.port p' := by
  cases p <;> cases p' <;> first | rfl | exact absurd rfl h

@[simp] theorem State.port_hunt (s : State) (p : Port) :
    (s.hunt p).port p = { s.port p with receiver := .hunting } := by
  simp [State.hunt]

@[simp] theorem State.post_outbox (s : State) (p : Port) (n : Notice) :
    (s.post p n).outbox = s.outbox ++ [(p, n)] := rfl

@[simp] theorem State.postAll_outbox (s : State) (ps : List Port) (n : Notice) :
    (s.postAll ps n).outbox = s.outbox ++ ps.map (fun p => (p, n)) := by
  unfold State.postAll
  induction ps generalizing s with
  | nil => simp
  | cons p rest ih => rw [List.foldl_cons, ih]; simp

@[simp] theorem State.flush_outbox (s : State) : s.flush.outbox = [] := rfl

@[simp] theorem State.setFaultEntry_lastStable (s : State) (k : FaultKey) (f : FaultEntry) :
    (s.setFaultEntry k f).faults.lastStable = s.faults.lastStable := rfl

/-- Only METROLOGY and FAULT of the hold sources, and nothing else of the bridge, are judged. -/
@[simp] theorem State.judgeSources_bridge (s : State) :
    s.judgeSources.bridge.waiting = s.bridge.waiting ∧ s.judgeSources.bridge.arrivals = s.bridge.arrivals ∧
    s.judgeSources.bridge.state = s.bridge.state ∧ s.judgeSources.bridge.startMark = s.bridge.startMark ∧
    s.judgeSources.bridge.grant = s.bridge.grant ∧ s.judgeSources.bridge.grantTimer = s.bridge.grantTimer ∧
    s.judgeSources.bridge.advance = s.bridge.advance ∧ s.judgeSources.bridge.withheld = s.bridge.withheld ∧
    s.judgeSources.bridge.aspectA = s.bridge.aspectA ∧ s.judgeSources.bridge.aspectB = s.bridge.aspectB ∧
    s.judgeSources.bridge.lampsA = s.bridge.lampsA ∧ s.judgeSources.bridge.lampsB = s.bridge.lampsB ∧
    s.judgeSources.bridge.feedbackA = s.bridge.feedbackA ∧ s.judgeSources.bridge.feedbackB = s.bridge.feedbackB :=
  ⟨rfl, rfl, rfl, rfl, rfl, rfl, rfl, rfl, rfl, rfl, rfl, rfl, rfl, rfl⟩

/-- The judged sources. -/
@[simp] theorem State.judgeSources_holds (s : State) :
    s.judgeSources.bridge.holds =
      { s.bridge.holds with
        metrology := s.accessOpen || s.run.isSome || s.bridge.holds.manual
        fault := s.faultJudged } := rfl

/-- Only the grant timer of the bridge is paused or resumed. -/
@[simp] theorem State.pauseGrantTimer_bridge (s : State) (paused : Bool) :
    (s.pauseGrantTimer paused).bridge =
      { s.bridge with grantTimer := s.bridge.grantTimer.map (fun t => { t with paused := paused }) } := rfl

/-- Only the feedback timers of the bridge are written. -/
@[simp] theorem State.setFeedback_bridge (s : State) (e : BridgeEnd) (on : Bool) :
    (s.setFeedback e on).bridge.waiting = s.bridge.waiting ∧
    (s.setFeedback e on).bridge.arrivals = s.bridge.arrivals ∧ (s.setFeedback e on).bridge.state = s.bridge.state ∧
    (s.setFeedback e on).bridge.startMark = s.bridge.startMark ∧
    (s.setFeedback e on).bridge.grant = s.bridge.grant ∧
    (s.setFeedback e on).bridge.grantTimer = s.bridge.grantTimer ∧
    (s.setFeedback e on).bridge.advance = s.bridge.advance ∧
    (s.setFeedback e on).bridge.withheld = s.bridge.withheld ∧
    (s.setFeedback e on).bridge.aspectA = s.bridge.aspectA ∧
    (s.setFeedback e on).bridge.aspectB = s.bridge.aspectB ∧
    (s.setFeedback e on).bridge.lampsA = s.bridge.lampsA ∧ (s.setFeedback e on).bridge.lampsB = s.bridge.lampsB ∧
    (s.setFeedback e on).bridge.holds = s.bridge.holds := by
  cases e <;> simp [State.setFeedback]

@[simp] theorem State.setFeedback_feedback (s : State) (e : BridgeEnd) (on : Bool) :
    (s.setFeedback e on).bridge.feedback e = on := by
  cases e <;> rfl

/-- Only the lamps of the bridge are written. -/
@[simp] theorem State.setLamps_bridge (s : State) (e : BridgeEnd) (lit : Lamps) :
    (s.setLamps e lit).bridge.waiting = s.bridge.waiting ∧ (s.setLamps e lit).bridge.arrivals = s.bridge.arrivals ∧
    (s.setLamps e lit).bridge.state = s.bridge.state ∧ (s.setLamps e lit).bridge.startMark = s.bridge.startMark ∧
    (s.setLamps e lit).bridge.grant = s.bridge.grant ∧ (s.setLamps e lit).bridge.grantTimer = s.bridge.grantTimer ∧
    (s.setLamps e lit).bridge.advance = s.bridge.advance ∧ (s.setLamps e lit).bridge.withheld = s.bridge.withheld ∧
    (s.setLamps e lit).bridge.aspectA = s.bridge.aspectA ∧ (s.setLamps e lit).bridge.aspectB = s.bridge.aspectB ∧
    (s.setLamps e lit).bridge.feedbackA = s.bridge.feedbackA ∧
    (s.setLamps e lit).bridge.feedbackB = s.bridge.feedbackB ∧ (s.setLamps e lit).bridge.holds = s.bridge.holds := by
  cases e <;> simp [State.setLamps]

@[simp] theorem State.setLamps_lamps (s : State) (e : BridgeEnd) (lit : Lamps) :
    (s.setLamps e lit).bridge.lamps e = lit := by
  cases e <;> rfl

end Sys2Proof.Machine
end

