-- ==== Sys2Proof/Laws/Frames.lean ====
section
/-! SUPPORT. What each operation of the blocks can change at all: one lemma for each operation. -/

namespace Sys2Proof.Machine

/-- What every step of a fold keeps, the fold keeps. -/
theorem foldl_keeps {α β γ : Type} (g : α → γ) (f : α → β → α) (h : ∀ a b, g (f a b) = g a) (l : List β) (a : α) :
    g (l.foldl f a) = g a := by
  induction l generalizing a with
  | nil => rfl
  | cons b rest ih => rw [List.foldl_cons, ih, h]

/-- Leaves all but outbox as it was. -/
@[simp] theorem State.postAll_frame (s : State) (ps : List Port) (n : Notice) :
    (s.postAll ps n).pending = s.pending ∧ (s.postAll ps n).phase = s.phase ∧ (s.postAll ps n).bus = s.bus ∧
    (s.postAll ps n).weigh = s.weigh ∧ (s.postAll ps n).capture = s.capture ∧
    (s.postAll ps n).bridge = s.bridge ∧ (s.postAll ps n).axles = s.axles ∧
    (s.postAll ps n).visits = s.visits ∧ (s.postAll ps n).inUse = s.inUse ∧ (s.postAll ps n).tares = s.tares ∧
    (s.postAll ps n).tickets = s.tickets ∧ (s.postAll ps n).cal = s.cal ∧ (s.postAll ps n).staged = s.staged ∧
    (s.postAll ps n).switchOn = s.switchOn ∧ (s.postAll ps n).audit = s.audit ∧ (s.postAll ps n).run = s.run ∧
    (s.postAll ps n).evidence = s.evidence ∧ (s.postAll ps n).faults = s.faults ∧
    (s.postAll ps n).site = s.site ∧ (s.postAll ps n).clockSet = s.clockSet ∧
    (s.postAll ps n).powered = s.powered ∧ (s.postAll ps n).supplyGood = s.supplyGood ∧
    (s.postAll ps n).dipTimer = s.dipTimer ∧ (s.postAll ps n).ports = s.ports ∧
    (s.postAll ps n).writes = s.writes ∧ (s.postAll ps n).commitNote = s.commitNote ∧
    (s.postAll ps n).choices = s.choices :=
  by
  unfold State.postAll
  induction ps generalizing s with
  | nil => simp
  | cons p rest ih => simp [ih]

/-- Leaves all but outbox as it was. -/
@[simp] theorem State.postCopy_frame (s : State) (n : Notice) :
    (s.postCopy n).pending = s.pending ∧ (s.postCopy n).phase = s.phase ∧ (s.postCopy n).bus = s.bus ∧
    (s.postCopy n).weigh = s.weigh ∧ (s.postCopy n).capture = s.capture ∧ (s.postCopy n).bridge = s.bridge ∧
    (s.postCopy n).axles = s.axles ∧ (s.postCopy n).visits = s.visits ∧ (s.postCopy n).inUse = s.inUse ∧
    (s.postCopy n).tares = s.tares ∧ (s.postCopy n).tickets = s.tickets ∧ (s.postCopy n).cal = s.cal ∧
    (s.postCopy n).staged = s.staged ∧ (s.postCopy n).switchOn = s.switchOn ∧ (s.postCopy n).audit = s.audit ∧
    (s.postCopy n).run = s.run ∧ (s.postCopy n).evidence = s.evidence ∧ (s.postCopy n).faults = s.faults ∧
    (s.postCopy n).site = s.site ∧ (s.postCopy n).clockSet = s.clockSet ∧ (s.postCopy n).powered = s.powered ∧
    (s.postCopy n).supplyGood = s.supplyGood ∧ (s.postCopy n).dipTimer = s.dipTimer ∧
    (s.postCopy n).ports = s.ports ∧ (s.postCopy n).writes = s.writes ∧
    (s.postCopy n).commitNote = s.commitNote ∧ (s.postCopy n).choices = s.choices :=
  by
  unfold State.postCopy
  split <;> simp

/-- Leaves all but outbox as it was. -/
@[simp] theorem State.noteNearFull_frame (s : State) :
    (s.noteNearFull).pending = s.pending ∧ (s.noteNearFull).phase = s.phase ∧ (s.noteNearFull).bus = s.bus ∧
    (s.noteNearFull).weigh = s.weigh ∧ (s.noteNearFull).capture = s.capture ∧
    (s.noteNearFull).bridge = s.bridge ∧ (s.noteNearFull).axles = s.axles ∧
    (s.noteNearFull).visits = s.visits ∧ (s.noteNearFull).inUse = s.inUse ∧ (s.noteNearFull).tares = s.tares ∧
    (s.noteNearFull).tickets = s.tickets ∧ (s.noteNearFull).cal = s.cal ∧ (s.noteNearFull).staged = s.staged ∧
    (s.noteNearFull).switchOn = s.switchOn ∧ (s.noteNearFull).audit = s.audit ∧ (s.noteNearFull).run = s.run ∧
    (s.noteNearFull).evidence = s.evidence ∧ (s.noteNearFull).faults = s.faults ∧
    (s.noteNearFull).site = s.site ∧ (s.noteNearFull).clockSet = s.clockSet ∧
    (s.noteNearFull).powered = s.powered ∧ (s.noteNearFull).supplyGood = s.supplyGood ∧
    (s.noteNearFull).dipTimer = s.dipTimer ∧ (s.noteNearFull).ports = s.ports ∧
    (s.noteNearFull).writes = s.writes ∧ (s.noteNearFull).commitNote = s.commitNote ∧
    (s.noteNearFull).choices = s.choices :=
  by
  unfold State.noteNearFull
  repeat' split
  all_goals simp

/-- Leaves all but evidence, cal, outbox as it was. -/
@[simp] theorem State.takeSnapshot_frame (s : State) (kind : SnapshotKind) (draft : Option Nat) :
    (s.takeSnapshot kind draft).pending = s.pending ∧ (s.takeSnapshot kind draft).phase = s.phase ∧
    (s.takeSnapshot kind draft).bus = s.bus ∧ (s.takeSnapshot kind draft).weigh = s.weigh ∧
    (s.takeSnapshot kind draft).capture = s.capture ∧ (s.takeSnapshot kind draft).bridge = s.bridge ∧
    (s.takeSnapshot kind draft).axles = s.axles ∧ (s.takeSnapshot kind draft).visits = s.visits ∧
    (s.takeSnapshot kind draft).inUse = s.inUse ∧ (s.takeSnapshot kind draft).tares = s.tares ∧
    (s.takeSnapshot kind draft).tickets = s.tickets ∧ (s.takeSnapshot kind draft).staged = s.staged ∧
    (s.takeSnapshot kind draft).switchOn = s.switchOn ∧ (s.takeSnapshot kind draft).audit = s.audit ∧
    (s.takeSnapshot kind draft).run = s.run ∧ (s.takeSnapshot kind draft).faults = s.faults ∧
    (s.takeSnapshot kind draft).site = s.site ∧ (s.takeSnapshot kind draft).clockSet = s.clockSet ∧
    (s.takeSnapshot kind draft).powered = s.powered ∧ (s.takeSnapshot kind draft).supplyGood = s.supplyGood ∧
    (s.takeSnapshot kind draft).dipTimer = s.dipTimer ∧ (s.takeSnapshot kind draft).ports = s.ports ∧
    (s.takeSnapshot kind draft).writes = s.writes ∧ (s.takeSnapshot kind draft).commitNote = s.commitNote ∧
    (s.takeSnapshot kind draft).choices = s.choices :=
  by simp [State.takeSnapshot]

/-- Leaves all but faults as it was. -/
@[simp] theorem State.clearFault_frame (s : State) (k : FaultKey) :
    (s.clearFault k).pending = s.pending ∧ (s.clearFault k).phase = s.phase ∧ (s.clearFault k).bus = s.bus ∧
    (s.clearFault k).weigh = s.weigh ∧ (s.clearFault k).capture = s.capture ∧
    (s.clearFault k).bridge = s.bridge ∧ (s.clearFault k).axles = s.axles ∧
    (s.clearFault k).visits = s.visits ∧ (s.clearFault k).inUse = s.inUse ∧ (s.clearFault k).tares = s.tares ∧
    (s.clearFault k).tickets = s.tickets ∧ (s.clearFault k).cal = s.cal ∧ (s.clearFault k).staged = s.staged ∧
    (s.clearFault k).switchOn = s.switchOn ∧ (s.clearFault k).audit = s.audit ∧ (s.clearFault k).run = s.run ∧
    (s.clearFault k).evidence = s.evidence ∧ (s.clearFault k).site = s.site ∧
    (s.clearFault k).clockSet = s.clockSet ∧ (s.clearFault k).powered = s.powered ∧
    (s.clearFault k).supplyGood = s.supplyGood ∧ (s.clearFault k).dipTimer = s.dipTimer ∧
    (s.clearFault k).ports = s.ports ∧ (s.clearFault k).writes = s.writes ∧
    (s.clearFault k).outbox = s.outbox ∧ (s.clearFault k).commitNote = s.commitNote ∧
    (s.clearFault k).choices = s.choices :=
  by
  unfold State.clearFault
  repeat' split
  all_goals simp

/-- Leaves all but run, outbox as it was. -/
@[simp] theorem State.endPoint_frame (s : State) (code : Status) :
    (s.endPoint code).pending = s.pending ∧ (s.endPoint code).phase = s.phase ∧ (s.endPoint code).bus = s.bus ∧
    (s.endPoint code).weigh = s.weigh ∧ (s.endPoint code).capture = s.capture ∧
    (s.endPoint code).bridge = s.bridge ∧ (s.endPoint code).axles = s.axles ∧
    (s.endPoint code).visits = s.visits ∧ (s.endPoint code).inUse = s.inUse ∧
    (s.endPoint code).tares = s.tares ∧ (s.endPoint code).tickets = s.tickets ∧ (s.endPoint code).cal = s.cal ∧
    (s.endPoint code).staged = s.staged ∧ (s.endPoint code).switchOn = s.switchOn ∧
    (s.endPoint code).audit = s.audit ∧ (s.endPoint code).evidence = s.evidence ∧
    (s.endPoint code).faults = s.faults ∧ (s.endPoint code).site = s.site ∧
    (s.endPoint code).clockSet = s.clockSet ∧ (s.endPoint code).powered = s.powered ∧
    (s.endPoint code).supplyGood = s.supplyGood ∧ (s.endPoint code).dipTimer = s.dipTimer ∧
    (s.endPoint code).ports = s.ports ∧ (s.endPoint code).writes = s.writes ∧
    (s.endPoint code).commitNote = s.commitNote ∧ (s.endPoint code).choices = s.choices :=
  by
  unfold State.endPoint
  repeat' split
  all_goals simp

/-- Leaves all but cal as it was. -/
@[simp] theorem State.setFlag_frame (s : State) (k : FaultKey) :
    (s.setFlag k).pending = s.pending ∧ (s.setFlag k).phase = s.phase ∧ (s.setFlag k).bus = s.bus ∧
    (s.setFlag k).weigh = s.weigh ∧ (s.setFlag k).capture = s.capture ∧ (s.setFlag k).bridge = s.bridge ∧
    (s.setFlag k).axles = s.axles ∧ (s.setFlag k).visits = s.visits ∧ (s.setFlag k).inUse = s.inUse ∧
    (s.setFlag k).tares = s.tares ∧ (s.setFlag k).tickets = s.tickets ∧ (s.setFlag k).staged = s.staged ∧
    (s.setFlag k).switchOn = s.switchOn ∧ (s.setFlag k).audit = s.audit ∧ (s.setFlag k).run = s.run ∧
    (s.setFlag k).evidence = s.evidence ∧ (s.setFlag k).faults = s.faults ∧ (s.setFlag k).site = s.site ∧
    (s.setFlag k).clockSet = s.clockSet ∧ (s.setFlag k).powered = s.powered ∧
    (s.setFlag k).supplyGood = s.supplyGood ∧ (s.setFlag k).dipTimer = s.dipTimer ∧
    (s.setFlag k).ports = s.ports ∧ (s.setFlag k).writes = s.writes ∧ (s.setFlag k).outbox = s.outbox ∧
    (s.setFlag k).commitNote = s.commitNote ∧ (s.setFlag k).choices = s.choices :=
  by
  unfold State.setFlag
  repeat' split
  all_goals simp

/-- Leaves all but cal, evidence, outbox as it was. -/
@[simp] theorem State.enterLockout_frame (s : State) (code : LockCode) :
    (s.enterLockout code).pending = s.pending ∧ (s.enterLockout code).phase = s.phase ∧
    (s.enterLockout code).bus = s.bus ∧ (s.enterLockout code).weigh = s.weigh ∧
    (s.enterLockout code).capture = s.capture ∧ (s.enterLockout code).bridge = s.bridge ∧
    (s.enterLockout code).axles = s.axles ∧ (s.enterLockout code).visits = s.visits ∧
    (s.enterLockout code).inUse = s.inUse ∧ (s.enterLockout code).tares = s.tares ∧
    (s.enterLockout code).tickets = s.tickets ∧ (s.enterLockout code).staged = s.staged ∧
    (s.enterLockout code).switchOn = s.switchOn ∧ (s.enterLockout code).audit = s.audit ∧
    (s.enterLockout code).run = s.run ∧ (s.enterLockout code).faults = s.faults ∧
    (s.enterLockout code).site = s.site ∧ (s.enterLockout code).clockSet = s.clockSet ∧
    (s.enterLockout code).powered = s.powered ∧ (s.enterLockout code).supplyGood = s.supplyGood ∧
    (s.enterLockout code).dipTimer = s.dipTimer ∧ (s.enterLockout code).ports = s.ports ∧
    (s.enterLockout code).writes = s.writes ∧ (s.enterLockout code).commitNote = s.commitNote ∧
    (s.enterLockout code).choices = s.choices :=
  by
  unfold State.enterLockout
  repeat' split
  all_goals simp

/-- Leaves all but run, outbox, cal, evidence as it was. -/
@[simp] theorem State.escalate_frame (s : State) (k : FaultKey) :
    ((s.escalate k).1).pending = s.pending ∧ ((s.escalate k).1).phase = s.phase ∧
    ((s.escalate k).1).bus = s.bus ∧ ((s.escalate k).1).weigh = s.weigh ∧
    ((s.escalate k).1).capture = s.capture ∧ ((s.escalate k).1).bridge = s.bridge ∧
    ((s.escalate k).1).axles = s.axles ∧ ((s.escalate k).1).visits = s.visits ∧
    ((s.escalate k).1).inUse = s.inUse ∧ ((s.escalate k).1).tares = s.tares ∧
    ((s.escalate k).1).tickets = s.tickets ∧ ((s.escalate k).1).staged = s.staged ∧
    ((s.escalate k).1).switchOn = s.switchOn ∧ ((s.escalate k).1).audit = s.audit ∧
    ((s.escalate k).1).faults = s.faults ∧ ((s.escalate k).1).site = s.site ∧
    ((s.escalate k).1).clockSet = s.clockSet ∧ ((s.escalate k).1).powered = s.powered ∧
    ((s.escalate k).1).supplyGood = s.supplyGood ∧ ((s.escalate k).1).dipTimer = s.dipTimer ∧
    ((s.escalate k).1).ports = s.ports ∧ ((s.escalate k).1).writes = s.writes ∧
    ((s.escalate k).1).commitNote = s.commitNote ∧ ((s.escalate k).1).choices = s.choices :=
  by
  unfold State.escalate
  (repeat' split) <;> (try simp only []) <;> (repeat' split) <;> simp

/-- Leaves all but faults, run, outbox, cal, evidence as it was. -/
@[simp] theorem State.raiseFault_frame (s : State) (k : FaultKey) (detail : Option DisagreeDetail) :
    (s.raiseFault k detail).pending = s.pending ∧ (s.raiseFault k detail).phase = s.phase ∧
    (s.raiseFault k detail).bus = s.bus ∧ (s.raiseFault k detail).weigh = s.weigh ∧
    (s.raiseFault k detail).capture = s.capture ∧ (s.raiseFault k detail).bridge = s.bridge ∧
    (s.raiseFault k detail).axles = s.axles ∧ (s.raiseFault k detail).visits = s.visits ∧
    (s.raiseFault k detail).inUse = s.inUse ∧ (s.raiseFault k detail).tares = s.tares ∧
    (s.raiseFault k detail).tickets = s.tickets ∧ (s.raiseFault k detail).staged = s.staged ∧
    (s.raiseFault k detail).switchOn = s.switchOn ∧ (s.raiseFault k detail).audit = s.audit ∧
    (s.raiseFault k detail).site = s.site ∧ (s.raiseFault k detail).clockSet = s.clockSet ∧
    (s.raiseFault k detail).powered = s.powered ∧ (s.raiseFault k detail).supplyGood = s.supplyGood ∧
    (s.raiseFault k detail).dipTimer = s.dipTimer ∧ (s.raiseFault k detail).ports = s.ports ∧
    (s.raiseFault k detail).writes = s.writes ∧ (s.raiseFault k detail).commitNote = s.commitNote ∧
    (s.raiseFault k detail).choices = s.choices :=
  by
  unfold State.raiseFault
  by_cases h : k.cls.metrological = true <;> simp [h]

/-- Leaves all but faults, run, outbox, cal, evidence as it was. -/
@[simp] theorem State.reportFault_frame (s : State) (k : FaultKey) (present : Bool) :
    (s.reportFault k present).pending = s.pending ∧ (s.reportFault k present).phase = s.phase ∧
    (s.reportFault k present).bus = s.bus ∧ (s.reportFault k present).weigh = s.weigh ∧
    (s.reportFault k present).capture = s.capture ∧ (s.reportFault k present).bridge = s.bridge ∧
    (s.reportFault k present).axles = s.axles ∧ (s.reportFault k present).visits = s.visits ∧
    (s.reportFault k present).inUse = s.inUse ∧ (s.reportFault k present).tares = s.tares ∧
    (s.reportFault k present).tickets = s.tickets ∧ (s.reportFault k present).staged = s.staged ∧
    (s.reportFault k present).switchOn = s.switchOn ∧ (s.reportFault k present).audit = s.audit ∧
    (s.reportFault k present).site = s.site ∧ (s.reportFault k present).clockSet = s.clockSet ∧
    (s.reportFault k present).powered = s.powered ∧ (s.reportFault k present).supplyGood = s.supplyGood ∧
    (s.reportFault k present).dipTimer = s.dipTimer ∧ (s.reportFault k present).ports = s.ports ∧
    (s.reportFault k present).writes = s.writes ∧ (s.reportFault k present).commitNote = s.commitNote ∧
    (s.reportFault k present).choices = s.choices :=
  by
  unfold State.reportFault
  repeat' split
  all_goals simp

/-- Leaves all but capture, outbox as it was. -/
@[simp] theorem State.refuseWaiting_frame (s : State) (code : Status) (round : Option Nat) :
    (s.refuseWaiting code round).pending = s.pending ∧ (s.refuseWaiting code round).phase = s.phase ∧
    (s.refuseWaiting code round).bus = s.bus ∧ (s.refuseWaiting code round).weigh = s.weigh ∧
    (s.refuseWaiting code round).bridge = s.bridge ∧ (s.refuseWaiting code round).axles = s.axles ∧
    (s.refuseWaiting code round).visits = s.visits ∧ (s.refuseWaiting code round).inUse = s.inUse ∧
    (s.refuseWaiting code round).tares = s.tares ∧ (s.refuseWaiting code round).tickets = s.tickets ∧
    (s.refuseWaiting code round).cal = s.cal ∧ (s.refuseWaiting code round).staged = s.staged ∧
    (s.refuseWaiting code round).switchOn = s.switchOn ∧ (s.refuseWaiting code round).audit = s.audit ∧
    (s.refuseWaiting code round).run = s.run ∧ (s.refuseWaiting code round).evidence = s.evidence ∧
    (s.refuseWaiting code round).faults = s.faults ∧ (s.refuseWaiting code round).site = s.site ∧
    (s.refuseWaiting code round).clockSet = s.clockSet ∧ (s.refuseWaiting code round).powered = s.powered ∧
    (s.refuseWaiting code round).supplyGood = s.supplyGood ∧
    (s.refuseWaiting code round).dipTimer = s.dipTimer ∧ (s.refuseWaiting code round).ports = s.ports ∧
    (s.refuseWaiting code round).writes = s.writes ∧ (s.refuseWaiting code round).commitNote = s.commitNote ∧
    (s.refuseWaiting code round).choices = s.choices :=
  by
  unfold State.refuseWaiting
  repeat' split
  all_goals simp

/-- Leaves all but capture, outbox as it was. -/
@[simp] theorem State.leaveOccupied_frame (s : State) :
    (s.leaveOccupied).pending = s.pending ∧ (s.leaveOccupied).phase = s.phase ∧ (s.leaveOccupied).bus = s.bus ∧
    (s.leaveOccupied).weigh = s.weigh ∧ (s.leaveOccupied).bridge = s.bridge ∧
    (s.leaveOccupied).axles = s.axles ∧ (s.leaveOccupied).visits = s.visits ∧
    (s.leaveOccupied).inUse = s.inUse ∧ (s.leaveOccupied).tares = s.tares ∧
    (s.leaveOccupied).tickets = s.tickets ∧ (s.leaveOccupied).cal = s.cal ∧
    (s.leaveOccupied).staged = s.staged ∧ (s.leaveOccupied).switchOn = s.switchOn ∧
    (s.leaveOccupied).audit = s.audit ∧ (s.leaveOccupied).run = s.run ∧
    (s.leaveOccupied).evidence = s.evidence ∧ (s.leaveOccupied).faults = s.faults ∧
    (s.leaveOccupied).site = s.site ∧ (s.leaveOccupied).clockSet = s.clockSet ∧
    (s.leaveOccupied).powered = s.powered ∧ (s.leaveOccupied).supplyGood = s.supplyGood ∧
    (s.leaveOccupied).dipTimer = s.dipTimer ∧ (s.leaveOccupied).ports = s.ports ∧
    (s.leaveOccupied).writes = s.writes ∧ (s.leaveOccupied).commitNote = s.commitNote ∧
    (s.leaveOccupied).choices = s.choices :=
  by simp [State.leaveOccupied]

/-- Leaves all but capture, outbox, bridge as it was. -/
@[simp] theorem State.moveBridge_frame (s : State) (b : BridgeState) :
    (s.moveBridge b).pending = s.pending ∧ (s.moveBridge b).phase = s.phase ∧ (s.moveBridge b).bus = s.bus ∧
    (s.moveBridge b).weigh = s.weigh ∧ (s.moveBridge b).axles = s.axles ∧ (s.moveBridge b).visits = s.visits ∧
    (s.moveBridge b).inUse = s.inUse ∧ (s.moveBridge b).tares = s.tares ∧
    (s.moveBridge b).tickets = s.tickets ∧ (s.moveBridge b).cal = s.cal ∧ (s.moveBridge b).staged = s.staged ∧
    (s.moveBridge b).switchOn = s.switchOn ∧ (s.moveBridge b).audit = s.audit ∧ (s.moveBridge b).run = s.run ∧
    (s.moveBridge b).evidence = s.evidence ∧ (s.moveBridge b).faults = s.faults ∧
    (s.moveBridge b).site = s.site ∧ (s.moveBridge b).clockSet = s.clockSet ∧
    (s.moveBridge b).powered = s.powered ∧ (s.moveBridge b).supplyGood = s.supplyGood ∧
    (s.moveBridge b).dipTimer = s.dipTimer ∧ (s.moveBridge b).ports = s.ports ∧
    (s.moveBridge b).writes = s.writes ∧ (s.moveBridge b).commitNote = s.commitNote ∧
    (s.moveBridge b).choices = s.choices :=
  by
  unfold State.moveBridge
  repeat' split
  all_goals simp

/-- Leaves all but inUse, axles, visits, outbox as it was. -/
@[simp] theorem State.endVisitUse_frame (s : State) (left : Bool) :
    (s.endVisitUse left).pending = s.pending ∧ (s.endVisitUse left).phase = s.phase ∧
    (s.endVisitUse left).bus = s.bus ∧ (s.endVisitUse left).weigh = s.weigh ∧
    (s.endVisitUse left).capture = s.capture ∧ (s.endVisitUse left).bridge = s.bridge ∧
    (s.endVisitUse left).tares = s.tares ∧ (s.endVisitUse left).tickets = s.tickets ∧
    (s.endVisitUse left).cal = s.cal ∧ (s.endVisitUse left).staged = s.staged ∧
    (s.endVisitUse left).switchOn = s.switchOn ∧ (s.endVisitUse left).audit = s.audit ∧
    (s.endVisitUse left).run = s.run ∧ (s.endVisitUse left).evidence = s.evidence ∧
    (s.endVisitUse left).faults = s.faults ∧ (s.endVisitUse left).site = s.site ∧
    (s.endVisitUse left).clockSet = s.clockSet ∧ (s.endVisitUse left).powered = s.powered ∧
    (s.endVisitUse left).supplyGood = s.supplyGood ∧ (s.endVisitUse left).dipTimer = s.dipTimer ∧
    (s.endVisitUse left).ports = s.ports ∧ (s.endVisitUse left).writes = s.writes ∧
    (s.endVisitUse left).commitNote = s.commitNote ∧ (s.endVisitUse left).choices = s.choices :=
  by
  unfold State.endVisitUse
  split
  · simp
  · split
    · simp
    · simp only []
      split <;> simp

/-- Leaves all but bridge, capture, outbox, inUse, axles, visits as it was. -/
@[simp] theorem State.vehicleLeft_frame (s : State) :
    (s.vehicleLeft).pending = s.pending ∧ (s.vehicleLeft).phase = s.phase ∧ (s.vehicleLeft).bus = s.bus ∧
    (s.vehicleLeft).weigh = s.weigh ∧ (s.vehicleLeft).tares = s.tares ∧ (s.vehicleLeft).tickets = s.tickets ∧
    (s.vehicleLeft).cal = s.cal ∧ (s.vehicleLeft).staged = s.staged ∧ (s.vehicleLeft).switchOn = s.switchOn ∧
    (s.vehicleLeft).audit = s.audit ∧ (s.vehicleLeft).run = s.run ∧ (s.vehicleLeft).evidence = s.evidence ∧
    (s.vehicleLeft).faults = s.faults ∧ (s.vehicleLeft).site = s.site ∧ (s.vehicleLeft).clockSet = s.clockSet ∧
    (s.vehicleLeft).powered = s.powered ∧ (s.vehicleLeft).supplyGood = s.supplyGood ∧
    (s.vehicleLeft).dipTimer = s.dipTimer ∧ (s.vehicleLeft).ports = s.ports ∧
    (s.vehicleLeft).writes = s.writes ∧ (s.vehicleLeft).commitNote = s.commitNote ∧
    (s.vehicleLeft).choices = s.choices :=
  by simp [State.vehicleLeft]

/-- Leaves all but inUse, axles, visits, outbox, bridge as it was. -/
@[simp] theorem State.withdrawGrant_frame (s : State) :
    (s.withdrawGrant).pending = s.pending ∧ (s.withdrawGrant).phase = s.phase ∧ (s.withdrawGrant).bus = s.bus ∧
    (s.withdrawGrant).weigh = s.weigh ∧ (s.withdrawGrant).capture = s.capture ∧
    (s.withdrawGrant).tares = s.tares ∧ (s.withdrawGrant).tickets = s.tickets ∧ (s.withdrawGrant).cal = s.cal ∧
    (s.withdrawGrant).staged = s.staged ∧ (s.withdrawGrant).switchOn = s.switchOn ∧
    (s.withdrawGrant).audit = s.audit ∧ (s.withdrawGrant).run = s.run ∧
    (s.withdrawGrant).evidence = s.evidence ∧ (s.withdrawGrant).faults = s.faults ∧
    (s.withdrawGrant).site = s.site ∧ (s.withdrawGrant).clockSet = s.clockSet ∧
    (s.withdrawGrant).powered = s.powered ∧ (s.withdrawGrant).supplyGood = s.supplyGood ∧
    (s.withdrawGrant).dipTimer = s.dipTimer ∧ (s.withdrawGrant).ports = s.ports ∧
    (s.withdrawGrant).writes = s.writes ∧ (s.withdrawGrant).commitNote = s.commitNote ∧
    (s.withdrawGrant).choices = s.choices :=
  by simp [State.withdrawGrant]

/-- Leaves all but visits, inUse as it was. -/
@[simp] theorem State.takeGrant_frame (s : State) (id : Ident) :
    (s.takeGrant id).pending = s.pending ∧ (s.takeGrant id).phase = s.phase ∧ (s.takeGrant id).bus = s.bus ∧
    (s.takeGrant id).weigh = s.weigh ∧ (s.takeGrant id).capture = s.capture ∧
    (s.takeGrant id).bridge = s.bridge ∧ (s.takeGrant id).axles = s.axles ∧ (s.takeGrant id).tares = s.tares ∧
    (s.takeGrant id).tickets = s.tickets ∧ (s.takeGrant id).cal = s.cal ∧ (s.takeGrant id).staged = s.staged ∧
    (s.takeGrant id).switchOn = s.switchOn ∧ (s.takeGrant id).audit = s.audit ∧ (s.takeGrant id).run = s.run ∧
    (s.takeGrant id).evidence = s.evidence ∧ (s.takeGrant id).faults = s.faults ∧
    (s.takeGrant id).site = s.site ∧ (s.takeGrant id).clockSet = s.clockSet ∧
    (s.takeGrant id).powered = s.powered ∧ (s.takeGrant id).supplyGood = s.supplyGood ∧
    (s.takeGrant id).dipTimer = s.dipTimer ∧ (s.takeGrant id).ports = s.ports ∧
    (s.takeGrant id).writes = s.writes ∧ (s.takeGrant id).outbox = s.outbox ∧
    (s.takeGrant id).commitNote = s.commitNote ∧ (s.takeGrant id).choices = s.choices :=
  by
  unfold State.takeGrant
  repeat' split
  all_goals simp

/-- Leaves all but bridge, axles, visits, inUse, outbox as it was. -/
@[simp] theorem State.grantTo_frame (s : State) (q : QueueEntry) :
    (s.grantTo q).pending = s.pending ∧ (s.grantTo q).phase = s.phase ∧ (s.grantTo q).bus = s.bus ∧
    (s.grantTo q).weigh = s.weigh ∧ (s.grantTo q).capture = s.capture ∧ (s.grantTo q).tares = s.tares ∧
    (s.grantTo q).tickets = s.tickets ∧ (s.grantTo q).cal = s.cal ∧ (s.grantTo q).staged = s.staged ∧
    (s.grantTo q).switchOn = s.switchOn ∧ (s.grantTo q).audit = s.audit ∧ (s.grantTo q).run = s.run ∧
    (s.grantTo q).evidence = s.evidence ∧ (s.grantTo q).faults = s.faults ∧ (s.grantTo q).site = s.site ∧
    (s.grantTo q).clockSet = s.clockSet ∧ (s.grantTo q).powered = s.powered ∧
    (s.grantTo q).supplyGood = s.supplyGood ∧ (s.grantTo q).dipTimer = s.dipTimer ∧
    (s.grantTo q).ports = s.ports ∧ (s.grantTo q).writes = s.writes ∧ (s.grantTo q).commitNote = s.commitNote ∧
    (s.grantTo q).choices = s.choices :=
  by simp [State.grantTo]

/-- Leaves all but bridge, axles, visits, inUse, outbox as it was. -/
@[simp] theorem State.grantIfDue_frame (s : State) :
    (s.grantIfDue).pending = s.pending ∧ (s.grantIfDue).phase = s.phase ∧ (s.grantIfDue).bus = s.bus ∧
    (s.grantIfDue).weigh = s.weigh ∧ (s.grantIfDue).capture = s.capture ∧ (s.grantIfDue).tares = s.tares ∧
    (s.grantIfDue).tickets = s.tickets ∧ (s.grantIfDue).cal = s.cal ∧ (s.grantIfDue).staged = s.staged ∧
    (s.grantIfDue).switchOn = s.switchOn ∧ (s.grantIfDue).audit = s.audit ∧ (s.grantIfDue).run = s.run ∧
    (s.grantIfDue).evidence = s.evidence ∧ (s.grantIfDue).faults = s.faults ∧ (s.grantIfDue).site = s.site ∧
    (s.grantIfDue).clockSet = s.clockSet ∧ (s.grantIfDue).powered = s.powered ∧
    (s.grantIfDue).supplyGood = s.supplyGood ∧ (s.grantIfDue).dipTimer = s.dipTimer ∧
    (s.grantIfDue).ports = s.ports ∧ (s.grantIfDue).writes = s.writes ∧
    (s.grantIfDue).commitNote = s.commitNote ∧ (s.grantIfDue).choices = s.choices :=
  by
  unfold State.grantIfDue
  repeat' split
  all_goals simp

/-- Leaves all but bridge, faults as it was. -/
@[simp] theorem State.compareLamps_frame (s : State) (e : BridgeEnd) :
    (s.compareLamps e).pending = s.pending ∧ (s.compareLamps e).phase = s.phase ∧
    (s.compareLamps e).bus = s.bus ∧ (s.compareLamps e).weigh = s.weigh ∧
    (s.compareLamps e).capture = s.capture ∧ (s.compareLamps e).axles = s.axles ∧
    (s.compareLamps e).visits = s.visits ∧ (s.compareLamps e).inUse = s.inUse ∧
    (s.compareLamps e).tares = s.tares ∧ (s.compareLamps e).tickets = s.tickets ∧
    (s.compareLamps e).cal = s.cal ∧ (s.compareLamps e).staged = s.staged ∧
    (s.compareLamps e).switchOn = s.switchOn ∧ (s.compareLamps e).audit = s.audit ∧
    (s.compareLamps e).run = s.run ∧ (s.compareLamps e).evidence = s.evidence ∧
    (s.compareLamps e).site = s.site ∧ (s.compareLamps e).clockSet = s.clockSet ∧
    (s.compareLamps e).powered = s.powered ∧ (s.compareLamps e).supplyGood = s.supplyGood ∧
    (s.compareLamps e).dipTimer = s.dipTimer ∧ (s.compareLamps e).ports = s.ports ∧
    (s.compareLamps e).writes = s.writes ∧ (s.compareLamps e).outbox = s.outbox ∧
    (s.compareLamps e).commitNote = s.commitNote ∧ (s.compareLamps e).choices = s.choices :=
  by
  unfold State.compareLamps
  repeat' split
  all_goals simp

/-- Leaves all but bridge, faults as it was. -/
@[simp] theorem State.recommand_frame (s : State) :
    (s.recommand).pending = s.pending ∧ (s.recommand).phase = s.phase ∧ (s.recommand).bus = s.bus ∧
    (s.recommand).weigh = s.weigh ∧ (s.recommand).capture = s.capture ∧ (s.recommand).axles = s.axles ∧
    (s.recommand).visits = s.visits ∧ (s.recommand).inUse = s.inUse ∧ (s.recommand).tares = s.tares ∧
    (s.recommand).tickets = s.tickets ∧ (s.recommand).cal = s.cal ∧ (s.recommand).staged = s.staged ∧
    (s.recommand).switchOn = s.switchOn ∧ (s.recommand).audit = s.audit ∧ (s.recommand).run = s.run ∧
    (s.recommand).evidence = s.evidence ∧ (s.recommand).site = s.site ∧ (s.recommand).clockSet = s.clockSet ∧
    (s.recommand).powered = s.powered ∧ (s.recommand).supplyGood = s.supplyGood ∧
    (s.recommand).dipTimer = s.dipTimer ∧ (s.recommand).ports = s.ports ∧ (s.recommand).writes = s.writes ∧
    (s.recommand).outbox = s.outbox ∧ (s.recommand).commitNote = s.commitNote ∧
    (s.recommand).choices = s.choices :=
  by simp [State.recommand]

/-- Leaves all but bridge, capture, outbox as it was. -/
@[simp] theorem State.followHold_frame (s : State) (before : Holds) :
    (s.followHold before).pending = s.pending ∧ (s.followHold before).phase = s.phase ∧
    (s.followHold before).bus = s.bus ∧ (s.followHold before).weigh = s.weigh ∧
    (s.followHold before).axles = s.axles ∧ (s.followHold before).visits = s.visits ∧
    (s.followHold before).inUse = s.inUse ∧ (s.followHold before).tares = s.tares ∧
    (s.followHold before).tickets = s.tickets ∧ (s.followHold before).cal = s.cal ∧
    (s.followHold before).staged = s.staged ∧ (s.followHold before).switchOn = s.switchOn ∧
    (s.followHold before).audit = s.audit ∧ (s.followHold before).run = s.run ∧
    (s.followHold before).evidence = s.evidence ∧ (s.followHold before).faults = s.faults ∧
    (s.followHold before).site = s.site ∧ (s.followHold before).clockSet = s.clockSet ∧
    (s.followHold before).powered = s.powered ∧ (s.followHold before).supplyGood = s.supplyGood ∧
    (s.followHold before).dipTimer = s.dipTimer ∧ (s.followHold before).ports = s.ports ∧
    (s.followHold before).writes = s.writes ∧ (s.followHold before).commitNote = s.commitNote ∧
    (s.followHold before).choices = s.choices :=
  by
  unfold State.followHold
  repeat' split
  all_goals simp

/-- Leaves all but run, outbox as it was. -/
@[simp] theorem State.followPointSources_frame (s : State) (before : Holds) :
    (s.followPointSources before).pending = s.pending ∧ (s.followPointSources before).phase = s.phase ∧
    (s.followPointSources before).bus = s.bus ∧ (s.followPointSources before).weigh = s.weigh ∧
    (s.followPointSources before).capture = s.capture ∧ (s.followPointSources before).bridge = s.bridge ∧
    (s.followPointSources before).axles = s.axles ∧ (s.followPointSources before).visits = s.visits ∧
    (s.followPointSources before).inUse = s.inUse ∧ (s.followPointSources before).tares = s.tares ∧
    (s.followPointSources before).tickets = s.tickets ∧ (s.followPointSources before).cal = s.cal ∧
    (s.followPointSources before).staged = s.staged ∧ (s.followPointSources before).switchOn = s.switchOn ∧
    (s.followPointSources before).audit = s.audit ∧ (s.followPointSources before).evidence = s.evidence ∧
    (s.followPointSources before).faults = s.faults ∧ (s.followPointSources before).site = s.site ∧
    (s.followPointSources before).clockSet = s.clockSet ∧ (s.followPointSources before).powered = s.powered ∧
    (s.followPointSources before).supplyGood = s.supplyGood ∧
    (s.followPointSources before).dipTimer = s.dipTimer ∧ (s.followPointSources before).ports = s.ports ∧
    (s.followPointSources before).writes = s.writes ∧ (s.followPointSources before).commitNote = s.commitNote ∧
    (s.followPointSources before).choices = s.choices :=
  by
  unfold State.followPointSources
  simp only []
  split <;> simp

/-- Leaves all but bridge, capture, outbox, run, visits, inUse, axles, faults as it was. -/
@[simp] theorem State.settlePass_frame (s : State) (before : Holds) :
    (s.settlePass before).pending = s.pending ∧ (s.settlePass before).phase = s.phase ∧
    (s.settlePass before).bus = s.bus ∧ (s.settlePass before).weigh = s.weigh ∧
    (s.settlePass before).tares = s.tares ∧ (s.settlePass before).tickets = s.tickets ∧
    (s.settlePass before).cal = s.cal ∧ (s.settlePass before).staged = s.staged ∧
    (s.settlePass before).switchOn = s.switchOn ∧ (s.settlePass before).audit = s.audit ∧
    (s.settlePass before).evidence = s.evidence ∧ (s.settlePass before).site = s.site ∧
    (s.settlePass before).clockSet = s.clockSet ∧ (s.settlePass before).powered = s.powered ∧
    (s.settlePass before).supplyGood = s.supplyGood ∧ (s.settlePass before).dipTimer = s.dipTimer ∧
    (s.settlePass before).ports = s.ports ∧ (s.settlePass before).writes = s.writes ∧
    (s.settlePass before).commitNote = s.commitNote ∧ (s.settlePass before).choices = s.choices :=
  by simp [State.settlePass]

/-- Leaves all but bridge, capture, outbox, run, visits, inUse, axles, faults as it was. -/
@[simp] theorem State.settle_frame (s : State) (before : Holds) :
    (s.settle before).pending = s.pending ∧ (s.settle before).phase = s.phase ∧ (s.settle before).bus = s.bus ∧
    (s.settle before).weigh = s.weigh ∧ (s.settle before).tares = s.tares ∧
    (s.settle before).tickets = s.tickets ∧ (s.settle before).cal = s.cal ∧
    (s.settle before).staged = s.staged ∧ (s.settle before).switchOn = s.switchOn ∧
    (s.settle before).audit = s.audit ∧ (s.settle before).evidence = s.evidence ∧
    (s.settle before).site = s.site ∧ (s.settle before).clockSet = s.clockSet ∧
    (s.settle before).powered = s.powered ∧ (s.settle before).supplyGood = s.supplyGood ∧
    (s.settle before).dipTimer = s.dipTimer ∧ (s.settle before).ports = s.ports ∧
    (s.settle before).writes = s.writes ∧ (s.settle before).commitNote = s.commitNote ∧
    (s.settle before).choices = s.choices :=
  by
  unfold State.settle
  simp only []
  split <;> simp

/-- Leaves all but writes, commitNote as it was. -/
@[simp] theorem retain_frame (s₀ s : State) :
    (retain s₀ s).pending = s.pending ∧ (retain s₀ s).phase = s.phase ∧ (retain s₀ s).bus = s.bus ∧
    (retain s₀ s).weigh = s.weigh ∧ (retain s₀ s).capture = s.capture ∧ (retain s₀ s).bridge = s.bridge ∧
    (retain s₀ s).axles = s.axles ∧ (retain s₀ s).visits = s.visits ∧ (retain s₀ s).inUse = s.inUse ∧
    (retain s₀ s).tares = s.tares ∧ (retain s₀ s).tickets = s.tickets ∧ (retain s₀ s).cal = s.cal ∧
    (retain s₀ s).staged = s.staged ∧ (retain s₀ s).switchOn = s.switchOn ∧ (retain s₀ s).audit = s.audit ∧
    (retain s₀ s).run = s.run ∧ (retain s₀ s).evidence = s.evidence ∧ (retain s₀ s).faults = s.faults ∧
    (retain s₀ s).site = s.site ∧ (retain s₀ s).clockSet = s.clockSet ∧ (retain s₀ s).powered = s.powered ∧
    (retain s₀ s).supplyGood = s.supplyGood ∧ (retain s₀ s).dipTimer = s.dipTimer ∧
    (retain s₀ s).ports = s.ports ∧ (retain s₀ s).outbox = s.outbox ∧ (retain s₀ s).choices = s.choices :=
  by
  unfold retain
  split <;> simp

/-- Leaves all but writes as it was. -/
@[simp] theorem State.beginWrite_frame (s : State) (regions : List Region) :
    (s.beginWrite regions).pending = s.pending ∧ (s.beginWrite regions).phase = s.phase ∧
    (s.beginWrite regions).bus = s.bus ∧ (s.beginWrite regions).weigh = s.weigh ∧
    (s.beginWrite regions).capture = s.capture ∧ (s.beginWrite regions).bridge = s.bridge ∧
    (s.beginWrite regions).axles = s.axles ∧ (s.beginWrite regions).visits = s.visits ∧
    (s.beginWrite regions).inUse = s.inUse ∧ (s.beginWrite regions).tares = s.tares ∧
    (s.beginWrite regions).tickets = s.tickets ∧ (s.beginWrite regions).cal = s.cal ∧
    (s.beginWrite regions).staged = s.staged ∧ (s.beginWrite regions).switchOn = s.switchOn ∧
    (s.beginWrite regions).audit = s.audit ∧ (s.beginWrite regions).run = s.run ∧
    (s.beginWrite regions).evidence = s.evidence ∧ (s.beginWrite regions).faults = s.faults ∧
    (s.beginWrite regions).site = s.site ∧ (s.beginWrite regions).clockSet = s.clockSet ∧
    (s.beginWrite regions).powered = s.powered ∧ (s.beginWrite regions).supplyGood = s.supplyGood ∧
    (s.beginWrite regions).dipTimer = s.dipTimer ∧ (s.beginWrite regions).ports = s.ports ∧
    (s.beginWrite regions).outbox = s.outbox ∧ (s.beginWrite regions).commitNote = s.commitNote ∧
    (s.beginWrite regions).choices = s.choices :=
  by
  unfold State.beginWrite
  repeat' split
  all_goals simp

/-- Leaves all but bridge, capture, outbox, run, visits, inUse, axles, faults, ports, writes, commitNote as it was. -/
@[simp] theorem event_frame (s₀ s : State) :
    (event s₀ s).pending = s.pending ∧ (event s₀ s).phase = s.phase ∧ (event s₀ s).bus = s.bus ∧
    (event s₀ s).weigh = s.weigh ∧ (event s₀ s).tares = s.tares ∧ (event s₀ s).tickets = s.tickets ∧
    (event s₀ s).cal = s.cal ∧ (event s₀ s).staged = s.staged ∧ (event s₀ s).switchOn = s.switchOn ∧
    (event s₀ s).audit = s.audit ∧ (event s₀ s).evidence = s.evidence ∧ (event s₀ s).site = s.site ∧
    (event s₀ s).clockSet = s.clockSet ∧ (event s₀ s).powered = s.powered ∧
    (event s₀ s).supplyGood = s.supplyGood ∧ (event s₀ s).dipTimer = s.dipTimer ∧
    (event s₀ s).choices = s.choices :=
  by simp [event]

/-- Leaves all but weigh as it was. -/
@[simp] theorem State.weighRound_frame (s : State) :
    (s.weighRound).pending = s.pending ∧ (s.weighRound).phase = s.phase ∧ (s.weighRound).bus = s.bus ∧
    (s.weighRound).capture = s.capture ∧ (s.weighRound).bridge = s.bridge ∧ (s.weighRound).axles = s.axles ∧
    (s.weighRound).visits = s.visits ∧ (s.weighRound).inUse = s.inUse ∧ (s.weighRound).tares = s.tares ∧
    (s.weighRound).tickets = s.tickets ∧ (s.weighRound).cal = s.cal ∧ (s.weighRound).staged = s.staged ∧
    (s.weighRound).switchOn = s.switchOn ∧ (s.weighRound).audit = s.audit ∧ (s.weighRound).run = s.run ∧
    (s.weighRound).evidence = s.evidence ∧ (s.weighRound).faults = s.faults ∧ (s.weighRound).site = s.site ∧
    (s.weighRound).clockSet = s.clockSet ∧ (s.weighRound).powered = s.powered ∧
    (s.weighRound).supplyGood = s.supplyGood ∧ (s.weighRound).dipTimer = s.dipTimer ∧
    (s.weighRound).ports = s.ports ∧ (s.weighRound).writes = s.writes ∧ (s.weighRound).outbox = s.outbox ∧
    (s.weighRound).commitNote = s.commitNote ∧ (s.weighRound).choices = s.choices :=
  by
  unfold State.weighRound
  (try simp only [])
  repeat' split
  all_goals simp

/-- Leaves all but weigh as it was. -/
@[simp] theorem State.judgeStability_frame (s : State) :
    (s.judgeStability).pending = s.pending ∧ (s.judgeStability).phase = s.phase ∧
    (s.judgeStability).bus = s.bus ∧ (s.judgeStability).capture = s.capture ∧
    (s.judgeStability).bridge = s.bridge ∧ (s.judgeStability).axles = s.axles ∧
    (s.judgeStability).visits = s.visits ∧ (s.judgeStability).inUse = s.inUse ∧
    (s.judgeStability).tares = s.tares ∧ (s.judgeStability).tickets = s.tickets ∧
    (s.judgeStability).cal = s.cal ∧ (s.judgeStability).staged = s.staged ∧
    (s.judgeStability).switchOn = s.switchOn ∧ (s.judgeStability).audit = s.audit ∧
    (s.judgeStability).run = s.run ∧ (s.judgeStability).evidence = s.evidence ∧
    (s.judgeStability).faults = s.faults ∧ (s.judgeStability).site = s.site ∧
    (s.judgeStability).clockSet = s.clockSet ∧ (s.judgeStability).powered = s.powered ∧
    (s.judgeStability).supplyGood = s.supplyGood ∧ (s.judgeStability).dipTimer = s.dipTimer ∧
    (s.judgeStability).ports = s.ports ∧ (s.judgeStability).writes = s.writes ∧
    (s.judgeStability).outbox = s.outbox ∧ (s.judgeStability).commitNote = s.commitNote ∧
    (s.judgeStability).choices = s.choices :=
  by
  unfold State.judgeStability
  (try simp only [])
  repeat' split
  all_goals simp

/-- Leaves all but weigh as it was. -/
@[simp] theorem State.setZeros_frame (s : State) (decks : List DeckValues) (news : List (Nat × Int)) :
    (s.setZeros decks news).pending = s.pending ∧ (s.setZeros decks news).phase = s.phase ∧
    (s.setZeros decks news).bus = s.bus ∧ (s.setZeros decks news).capture = s.capture ∧
    (s.setZeros decks news).bridge = s.bridge ∧ (s.setZeros decks news).axles = s.axles ∧
    (s.setZeros decks news).visits = s.visits ∧ (s.setZeros decks news).inUse = s.inUse ∧
    (s.setZeros decks news).tares = s.tares ∧ (s.setZeros decks news).tickets = s.tickets ∧
    (s.setZeros decks news).cal = s.cal ∧ (s.setZeros decks news).staged = s.staged ∧
    (s.setZeros decks news).switchOn = s.switchOn ∧ (s.setZeros decks news).audit = s.audit ∧
    (s.setZeros decks news).run = s.run ∧ (s.setZeros decks news).evidence = s.evidence ∧
    (s.setZeros decks news).faults = s.faults ∧ (s.setZeros decks news).site = s.site ∧
    (s.setZeros decks news).clockSet = s.clockSet ∧ (s.setZeros decks news).powered = s.powered ∧
    (s.setZeros decks news).supplyGood = s.supplyGood ∧ (s.setZeros decks news).dipTimer = s.dipTimer ∧
    (s.setZeros decks news).ports = s.ports ∧ (s.setZeros decks news).writes = s.writes ∧
    (s.setZeros decks news).outbox = s.outbox ∧ (s.setZeros decks news).commitNote = s.commitNote ∧
    (s.setZeros decks news).choices = s.choices :=
  by
  unfold State.setZeros
  (try simp only [])
  repeat' split
  all_goals simp

/-- Leaves all but weigh as it was. -/
@[simp] theorem State.makeStartUpZero_frame (s : State) (decks : List DeckValues) :
    (s.makeStartUpZero decks).pending = s.pending ∧ (s.makeStartUpZero decks).phase = s.phase ∧
    (s.makeStartUpZero decks).bus = s.bus ∧ (s.makeStartUpZero decks).capture = s.capture ∧
    (s.makeStartUpZero decks).bridge = s.bridge ∧ (s.makeStartUpZero decks).axles = s.axles ∧
    (s.makeStartUpZero decks).visits = s.visits ∧ (s.makeStartUpZero decks).inUse = s.inUse ∧
    (s.makeStartUpZero decks).tares = s.tares ∧ (s.makeStartUpZero decks).tickets = s.tickets ∧
    (s.makeStartUpZero decks).cal = s.cal ∧ (s.makeStartUpZero decks).staged = s.staged ∧
    (s.makeStartUpZero decks).switchOn = s.switchOn ∧ (s.makeStartUpZero decks).audit = s.audit ∧
    (s.makeStartUpZero decks).run = s.run ∧ (s.makeStartUpZero decks).evidence = s.evidence ∧
    (s.makeStartUpZero decks).faults = s.faults ∧ (s.makeStartUpZero decks).site = s.site ∧
    (s.makeStartUpZero decks).clockSet = s.clockSet ∧ (s.makeStartUpZero decks).powered = s.powered ∧
    (s.makeStartUpZero decks).supplyGood = s.supplyGood ∧ (s.makeStartUpZero decks).dipTimer = s.dipTimer ∧
    (s.makeStartUpZero decks).ports = s.ports ∧ (s.makeStartUpZero decks).writes = s.writes ∧
    (s.makeStartUpZero decks).outbox = s.outbox ∧ (s.makeStartUpZero decks).commitNote = s.commitNote ∧
    (s.makeStartUpZero decks).choices = s.choices :=
  by
  unfold State.makeStartUpZero
  (try simp only [])
  repeat' split
  all_goals simp

/-- Leaves all but weigh as it was. -/
@[simp] theorem State.tryStartUpZero_frame (s : State) :
    (s.tryStartUpZero).pending = s.pending ∧ (s.tryStartUpZero).phase = s.phase ∧
    (s.tryStartUpZero).bus = s.bus ∧ (s.tryStartUpZero).capture = s.capture ∧
    (s.tryStartUpZero).bridge = s.bridge ∧ (s.tryStartUpZero).axles = s.axles ∧
    (s.tryStartUpZero).visits = s.visits ∧ (s.tryStartUpZero).inUse = s.inUse ∧
    (s.tryStartUpZero).tares = s.tares ∧ (s.tryStartUpZero).tickets = s.tickets ∧
    (s.tryStartUpZero).cal = s.cal ∧ (s.tryStartUpZero).staged = s.staged ∧
    (s.tryStartUpZero).switchOn = s.switchOn ∧ (s.tryStartUpZero).audit = s.audit ∧
    (s.tryStartUpZero).run = s.run ∧ (s.tryStartUpZero).evidence = s.evidence ∧
    (s.tryStartUpZero).faults = s.faults ∧ (s.tryStartUpZero).site = s.site ∧
    (s.tryStartUpZero).clockSet = s.clockSet ∧ (s.tryStartUpZero).powered = s.powered ∧
    (s.tryStartUpZero).supplyGood = s.supplyGood ∧ (s.tryStartUpZero).dipTimer = s.dipTimer ∧
    (s.tryStartUpZero).ports = s.ports ∧ (s.tryStartUpZero).writes = s.writes ∧
    (s.tryStartUpZero).outbox = s.outbox ∧ (s.tryStartUpZero).commitNote = s.commitNote ∧
    (s.tryStartUpZero).choices = s.choices :=
  by
  unfold State.tryStartUpZero
  (try simp only [])
  repeat' split
  all_goals simp

/-- Leaves all but weigh as it was. -/
@[simp] theorem State.trackZero_frame (s : State) :
    (s.trackZero).pending = s.pending ∧ (s.trackZero).phase = s.phase ∧ (s.trackZero).bus = s.bus ∧
    (s.trackZero).capture = s.capture ∧ (s.trackZero).bridge = s.bridge ∧ (s.trackZero).axles = s.axles ∧
    (s.trackZero).visits = s.visits ∧ (s.trackZero).inUse = s.inUse ∧ (s.trackZero).tares = s.tares ∧
    (s.trackZero).tickets = s.tickets ∧ (s.trackZero).cal = s.cal ∧ (s.trackZero).staged = s.staged ∧
    (s.trackZero).switchOn = s.switchOn ∧ (s.trackZero).audit = s.audit ∧ (s.trackZero).run = s.run ∧
    (s.trackZero).evidence = s.evidence ∧ (s.trackZero).faults = s.faults ∧ (s.trackZero).site = s.site ∧
    (s.trackZero).clockSet = s.clockSet ∧ (s.trackZero).powered = s.powered ∧
    (s.trackZero).supplyGood = s.supplyGood ∧ (s.trackZero).dipTimer = s.dipTimer ∧
    (s.trackZero).ports = s.ports ∧ (s.trackZero).writes = s.writes ∧ (s.trackZero).outbox = s.outbox ∧
    (s.trackZero).commitNote = s.commitNote ∧ (s.trackZero).choices = s.choices :=
  by
  unfold State.trackZero
  (try simp only [])
  repeat' split
  all_goals simp

/-- Leaves all but faults as it was. -/
@[simp] theorem State.clearCell_frame (s : State) (i : Nat) :
    (s.clearCell i).pending = s.pending ∧ (s.clearCell i).phase = s.phase ∧ (s.clearCell i).bus = s.bus ∧
    (s.clearCell i).weigh = s.weigh ∧ (s.clearCell i).capture = s.capture ∧ (s.clearCell i).bridge = s.bridge ∧
    (s.clearCell i).axles = s.axles ∧ (s.clearCell i).visits = s.visits ∧ (s.clearCell i).inUse = s.inUse ∧
    (s.clearCell i).tares = s.tares ∧ (s.clearCell i).tickets = s.tickets ∧ (s.clearCell i).cal = s.cal ∧
    (s.clearCell i).staged = s.staged ∧ (s.clearCell i).switchOn = s.switchOn ∧
    (s.clearCell i).audit = s.audit ∧ (s.clearCell i).run = s.run ∧ (s.clearCell i).evidence = s.evidence ∧
    (s.clearCell i).site = s.site ∧ (s.clearCell i).clockSet = s.clockSet ∧
    (s.clearCell i).powered = s.powered ∧ (s.clearCell i).supplyGood = s.supplyGood ∧
    (s.clearCell i).dipTimer = s.dipTimer ∧ (s.clearCell i).ports = s.ports ∧
    (s.clearCell i).writes = s.writes ∧ (s.clearCell i).outbox = s.outbox ∧
    (s.clearCell i).commitNote = s.commitNote ∧ (s.clearCell i).choices = s.choices :=
  by simp [State.clearCell]

/-- Leaves all but faults as it was. -/
@[simp] theorem State.clearCells_frame (s : State) (l : List Nat) :
    (l.foldl State.clearCell s).pending = s.pending ∧ (l.foldl State.clearCell s).phase = s.phase ∧
    (l.foldl State.clearCell s).bus = s.bus ∧ (l.foldl State.clearCell s).weigh = s.weigh ∧
    (l.foldl State.clearCell s).capture = s.capture ∧ (l.foldl State.clearCell s).bridge = s.bridge ∧
    (l.foldl State.clearCell s).axles = s.axles ∧ (l.foldl State.clearCell s).visits = s.visits ∧
    (l.foldl State.clearCell s).inUse = s.inUse ∧ (l.foldl State.clearCell s).tares = s.tares ∧
    (l.foldl State.clearCell s).tickets = s.tickets ∧ (l.foldl State.clearCell s).cal = s.cal ∧
    (l.foldl State.clearCell s).staged = s.staged ∧ (l.foldl State.clearCell s).switchOn = s.switchOn ∧
    (l.foldl State.clearCell s).audit = s.audit ∧ (l.foldl State.clearCell s).run = s.run ∧
    (l.foldl State.clearCell s).evidence = s.evidence ∧ (l.foldl State.clearCell s).site = s.site ∧
    (l.foldl State.clearCell s).clockSet = s.clockSet ∧ (l.foldl State.clearCell s).powered = s.powered ∧
    (l.foldl State.clearCell s).supplyGood = s.supplyGood ∧ (l.foldl State.clearCell s).dipTimer = s.dipTimer ∧
    (l.foldl State.clearCell s).ports = s.ports ∧ (l.foldl State.clearCell s).writes = s.writes ∧
    (l.foldl State.clearCell s).outbox = s.outbox ∧ (l.foldl State.clearCell s).commitNote = s.commitNote ∧
    (l.foldl State.clearCell s).choices = s.choices :=
  ⟨foldl_keeps (fun x : State => x.pending) _ (fun _ _ => by simp) _ _,
   foldl_keeps (fun x : State => x.phase) _ (fun _ _ => by simp) _ _,
   foldl_keeps (fun x : State => x.bus) _ (fun _ _ => by simp) _ _,
   foldl_keeps (fun x : State => x.weigh) _ (fun _ _ => by simp) _ _,
   foldl_keeps (fun x : State => x.capture) _ (fun _ _ => by simp) _ _,
   foldl_keeps (fun x : State => x.bridge) _ (fun _ _ => by simp) _ _,
   foldl_keeps (fun x : State => x.axles) _ (fun _ _ => by simp) _ _,
   foldl_keeps (fun x : State => x.visits) _ (fun _ _ => by simp) _ _,
   foldl_keeps (fun x : State => x.inUse) _ (fun _ _ => by simp) _ _,
   foldl_keeps (fun x : State => x.tares) _ (fun _ _ => by simp) _ _,
   foldl_keeps (fun x : State => x.tickets) _ (fun _ _ => by simp) _ _,
   foldl_keeps (fun x : State => x.cal) _ (fun _ _ => by simp) _ _,
   foldl_keeps (fun x : State => x.staged) _ (fun _ _ => by simp) _ _,
   foldl_keeps (fun x : State => x.switchOn) _ (fun _ _ => by simp) _ _,
   foldl_keeps (fun x : State => x.audit) _ (fun _ _ => by simp) _ _,
   foldl_keeps (fun x : State => x.run) _ (fun _ _ => by simp) _ _,
   foldl_keeps (fun x : State => x.evidence) _ (fun _ _ => by simp) _ _,
   foldl_keeps (fun x : State => x.site) _ (fun _ _ => by simp) _ _,
   foldl_keeps (fun x : State => x.clockSet) _ (fun _ _ => by simp) _ _,
   foldl_keeps (fun x : State => x.powered) _ (fun _ _ => by simp) _ _,
   foldl_keeps (fun x : State => x.supplyGood) _ (fun _ _ => by simp) _ _,
   foldl_keeps (fun x : State => x.dipTimer) _ (fun _ _ => by simp) _ _,
   foldl_keeps (fun x : State => x.ports) _ (fun _ _ => by simp) _ _,
   foldl_keeps (fun x : State => x.writes) _ (fun _ _ => by simp) _ _,
   foldl_keeps (fun x : State => x.outbox) _ (fun _ _ => by simp) _ _,
   foldl_keeps (fun x : State => x.commitNote) _ (fun _ _ => by simp) _ _,
   foldl_keeps (fun x : State => x.choices) _ (fun _ _ => by simp) _ _⟩

/-- Leaves all but bus, faults as it was. -/
@[simp] theorem State.beginRound_frame (s : State) :
    (s.beginRound).pending = s.pending ∧ (s.beginRound).phase = s.phase ∧ (s.beginRound).weigh = s.weigh ∧
    (s.beginRound).capture = s.capture ∧ (s.beginRound).bridge = s.bridge ∧ (s.beginRound).axles = s.axles ∧
    (s.beginRound).visits = s.visits ∧ (s.beginRound).inUse = s.inUse ∧ (s.beginRound).tares = s.tares ∧
    (s.beginRound).tickets = s.tickets ∧ (s.beginRound).cal = s.cal ∧ (s.beginRound).staged = s.staged ∧
    (s.beginRound).switchOn = s.switchOn ∧ (s.beginRound).audit = s.audit ∧ (s.beginRound).run = s.run ∧
    (s.beginRound).evidence = s.evidence ∧ (s.beginRound).site = s.site ∧
    (s.beginRound).clockSet = s.clockSet ∧ (s.beginRound).powered = s.powered ∧
    (s.beginRound).supplyGood = s.supplyGood ∧ (s.beginRound).dipTimer = s.dipTimer ∧
    (s.beginRound).ports = s.ports ∧ (s.beginRound).writes = s.writes ∧ (s.beginRound).outbox = s.outbox ∧
    (s.beginRound).commitNote = s.commitNote ∧ (s.beginRound).choices = s.choices :=
  by simp [State.beginRound]

/-- Leaves all but faults, run, outbox, cal, evidence as it was. -/
@[simp] theorem State.reportFaults_frame (s : State) (l : List FaultClass) (i : Nat) (present : Bool) :
    (l.foldl (fun acc f => acc.reportFault (cellKey f i) present) s).pending = s.pending ∧
    (l.foldl (fun acc f => acc.reportFault (cellKey f i) present) s).phase = s.phase ∧
    (l.foldl (fun acc f => acc.reportFault (cellKey f i) present) s).bus = s.bus ∧
    (l.foldl (fun acc f => acc.reportFault (cellKey f i) present) s).weigh = s.weigh ∧
    (l.foldl (fun acc f => acc.reportFault (cellKey f i) present) s).capture = s.capture ∧
    (l.foldl (fun acc f => acc.reportFault (cellKey f i) present) s).bridge = s.bridge ∧
    (l.foldl (fun acc f => acc.reportFault (cellKey f i) present) s).axles = s.axles ∧
    (l.foldl (fun acc f => acc.reportFault (cellKey f i) present) s).visits = s.visits ∧
    (l.foldl (fun acc f => acc.reportFault (cellKey f i) present) s).inUse = s.inUse ∧
    (l.foldl (fun acc f => acc.reportFault (cellKey f i) present) s).tares = s.tares ∧
    (l.foldl (fun acc f => acc.reportFault (cellKey f i) present) s).tickets = s.tickets ∧
    (l.foldl (fun acc f => acc.reportFault (cellKey f i) present) s).staged = s.staged ∧
    (l.foldl (fun acc f => acc.reportFault (cellKey f i) present) s).switchOn = s.switchOn ∧
    (l.foldl (fun acc f => acc.reportFault (cellKey f i) present) s).audit = s.audit ∧
    (l.foldl (fun acc f => acc.reportFault (cellKey f i) present) s).site = s.site ∧
    (l.foldl (fun acc f => acc.reportFault (cellKey f i) present) s).clockSet = s.clockSet ∧
    (l.foldl (fun acc f => acc.reportFault (cellKey f i) present) s).powered = s.powered ∧
    (l.foldl (fun acc f => acc.reportFault (cellKey f i) present) s).supplyGood = s.supplyGood ∧
    (l.foldl (fun acc f => acc.reportFault (cellKey f i) present) s).dipTimer = s.dipTimer ∧
    (l.foldl (fun acc f => acc.reportFault (cellKey f i) present) s).ports = s.ports ∧
    (l.foldl (fun acc f => acc.reportFault (cellKey f i) present) s).writes = s.writes ∧
    (l.foldl (fun acc f => acc.reportFault (cellKey f i) present) s).commitNote = s.commitNote ∧
    (l.foldl (fun acc f => acc.reportFault (cellKey f i) present) s).choices = s.choices :=
  ⟨foldl_keeps (fun x : State => x.pending) _ (fun _ _ => by simp) _ _,
   foldl_keeps (fun x : State => x.phase) _ (fun _ _ => by simp) _ _,
   foldl_keeps (fun x : State => x.bus) _ (fun _ _ => by simp) _ _,
   foldl_keeps (fun x : State => x.weigh) _ (fun _ _ => by simp) _ _,
   foldl_keeps (fun x : State => x.capture) _ (fun _ _ => by simp) _ _,
   foldl_keeps (fun x : State => x.bridge) _ (fun _ _ => by simp) _ _,
   foldl_keeps (fun x : State => x.axles) _ (fun _ _ => by simp) _ _,
   foldl_keeps (fun x : State => x.visits) _ (fun _ _ => by simp) _ _,
   foldl_keeps (fun x : State => x.inUse) _ (fun _ _ => by simp) _ _,
   foldl_keeps (fun x : State => x.tares) _ (fun _ _ => by simp) _ _,
   foldl_keeps (fun x : State => x.tickets) _ (fun _ _ => by simp) _ _,
   foldl_keeps (fun x : State => x.staged) _ (fun _ _ => by simp) _ _,
   foldl_keeps (fun x : State => x.switchOn) _ (fun _ _ => by simp) _ _,
   foldl_keeps (fun x : State => x.audit) _ (fun _ _ => by simp) _ _,
   foldl_keeps (fun x : State => x.site) _ (fun _ _ => by simp) _ _,
   foldl_keeps (fun x : State => x.clockSet) _ (fun _ _ => by simp) _ _,
   foldl_keeps (fun x : State => x.powered) _ (fun _ _ => by simp) _ _,
   foldl_keeps (fun x : State => x.supplyGood) _ (fun _ _ => by simp) _ _,
   foldl_keeps (fun x : State => x.dipTimer) _ (fun _ _ => by simp) _ _,
   foldl_keeps (fun x : State => x.ports) _ (fun _ _ => by simp) _ _,
   foldl_keeps (fun x : State => x.writes) _ (fun _ _ => by simp) _ _,
   foldl_keeps (fun x : State => x.commitNote) _ (fun _ _ => by simp) _ _,
   foldl_keeps (fun x : State => x.choices) _ (fun _ _ => by simp) _ _⟩

/-- Leaves all but faults, run, outbox, cal, evidence as it was. -/
@[simp] theorem State.reportCell_frame (s : State) (i : Nat) (c : Option CellCondition) :
    (s.reportCell i c).pending = s.pending ∧ (s.reportCell i c).phase = s.phase ∧
    (s.reportCell i c).bus = s.bus ∧ (s.reportCell i c).weigh = s.weigh ∧
    (s.reportCell i c).capture = s.capture ∧ (s.reportCell i c).bridge = s.bridge ∧
    (s.reportCell i c).axles = s.axles ∧ (s.reportCell i c).visits = s.visits ∧
    (s.reportCell i c).inUse = s.inUse ∧ (s.reportCell i c).tares = s.tares ∧
    (s.reportCell i c).tickets = s.tickets ∧ (s.reportCell i c).staged = s.staged ∧
    (s.reportCell i c).switchOn = s.switchOn ∧ (s.reportCell i c).audit = s.audit ∧
    (s.reportCell i c).site = s.site ∧ (s.reportCell i c).clockSet = s.clockSet ∧
    (s.reportCell i c).powered = s.powered ∧ (s.reportCell i c).supplyGood = s.supplyGood ∧
    (s.reportCell i c).dipTimer = s.dipTimer ∧ (s.reportCell i c).ports = s.ports ∧
    (s.reportCell i c).writes = s.writes ∧ (s.reportCell i c).commitNote = s.commitNote ∧
    (s.reportCell i c).choices = s.choices :=
  by simp [State.reportCell]

/-- Leaves all but bus, faults, run, outbox, cal, evidence as it was. -/
@[simp] theorem State.judge_frame (s : State) (i : Nat) (reply : Option CellReply) :
    (s.judge i reply).pending = s.pending ∧ (s.judge i reply).phase = s.phase ∧
    (s.judge i reply).weigh = s.weigh ∧ (s.judge i reply).capture = s.capture ∧
    (s.judge i reply).bridge = s.bridge ∧ (s.judge i reply).axles = s.axles ∧
    (s.judge i reply).visits = s.visits ∧ (s.judge i reply).inUse = s.inUse ∧
    (s.judge i reply).tares = s.tares ∧ (s.judge i reply).tickets = s.tickets ∧
    (s.judge i reply).staged = s.staged ∧ (s.judge i reply).switchOn = s.switchOn ∧
    (s.judge i reply).audit = s.audit ∧ (s.judge i reply).site = s.site ∧
    (s.judge i reply).clockSet = s.clockSet ∧ (s.judge i reply).powered = s.powered ∧
    (s.judge i reply).supplyGood = s.supplyGood ∧ (s.judge i reply).dipTimer = s.dipTimer ∧
    (s.judge i reply).ports = s.ports ∧ (s.judge i reply).writes = s.writes ∧
    (s.judge i reply).commitNote = s.commitNote ∧ (s.judge i reply).choices = s.choices :=
  by simp [State.judge]

/-- Leaves all but bus, faults, run, outbox, cal, evidence as it was. -/
@[simp] theorem State.overrun_frame (s : State) :
    (s.overrun).pending = s.pending ∧ (s.overrun).phase = s.phase ∧ (s.overrun).weigh = s.weigh ∧
    (s.overrun).capture = s.capture ∧ (s.overrun).bridge = s.bridge ∧ (s.overrun).axles = s.axles ∧
    (s.overrun).visits = s.visits ∧ (s.overrun).inUse = s.inUse ∧ (s.overrun).tares = s.tares ∧
    (s.overrun).tickets = s.tickets ∧ (s.overrun).staged = s.staged ∧ (s.overrun).switchOn = s.switchOn ∧
    (s.overrun).audit = s.audit ∧ (s.overrun).site = s.site ∧ (s.overrun).clockSet = s.clockSet ∧
    (s.overrun).powered = s.powered ∧ (s.overrun).supplyGood = s.supplyGood ∧
    (s.overrun).dipTimer = s.dipTimer ∧ (s.overrun).ports = s.ports ∧ (s.overrun).writes = s.writes ∧
    (s.overrun).commitNote = s.commitNote ∧ (s.overrun).choices = s.choices :=
  by
  unfold State.overrun
  simp only []
  split <;> simp

/-- Leaves all but bus, faults, run, outbox, cal, evidence as it was. -/
@[simp] theorem State.endRound_frame (s : State) :
    (s.endRound).pending = s.pending ∧ (s.endRound).phase = s.phase ∧ (s.endRound).weigh = s.weigh ∧
    (s.endRound).capture = s.capture ∧ (s.endRound).bridge = s.bridge ∧ (s.endRound).axles = s.axles ∧
    (s.endRound).visits = s.visits ∧ (s.endRound).inUse = s.inUse ∧ (s.endRound).tares = s.tares ∧
    (s.endRound).tickets = s.tickets ∧ (s.endRound).staged = s.staged ∧ (s.endRound).switchOn = s.switchOn ∧
    (s.endRound).audit = s.audit ∧ (s.endRound).site = s.site ∧ (s.endRound).clockSet = s.clockSet ∧
    (s.endRound).powered = s.powered ∧ (s.endRound).supplyGood = s.supplyGood ∧
    (s.endRound).dipTimer = s.dipTimer ∧ (s.endRound).ports = s.ports ∧ (s.endRound).writes = s.writes ∧
    (s.endRound).commitNote = s.commitNote ∧ (s.endRound).choices = s.choices :=
  by
  unfold State.endRound
  simp only []
  split <;> simp

/-- Leaves all but axles, outbox as it was. -/
@[simp] theorem State.testAxleCount_frame (s : State) :
    (s.testAxleCount).pending = s.pending ∧ (s.testAxleCount).phase = s.phase ∧ (s.testAxleCount).bus = s.bus ∧
    (s.testAxleCount).weigh = s.weigh ∧ (s.testAxleCount).capture = s.capture ∧
    (s.testAxleCount).bridge = s.bridge ∧ (s.testAxleCount).visits = s.visits ∧
    (s.testAxleCount).inUse = s.inUse ∧ (s.testAxleCount).tares = s.tares ∧
    (s.testAxleCount).tickets = s.tickets ∧ (s.testAxleCount).cal = s.cal ∧
    (s.testAxleCount).staged = s.staged ∧ (s.testAxleCount).switchOn = s.switchOn ∧
    (s.testAxleCount).audit = s.audit ∧ (s.testAxleCount).run = s.run ∧
    (s.testAxleCount).evidence = s.evidence ∧ (s.testAxleCount).faults = s.faults ∧
    (s.testAxleCount).site = s.site ∧ (s.testAxleCount).clockSet = s.clockSet ∧
    (s.testAxleCount).powered = s.powered ∧ (s.testAxleCount).supplyGood = s.supplyGood ∧
    (s.testAxleCount).dipTimer = s.dipTimer ∧ (s.testAxleCount).ports = s.ports ∧
    (s.testAxleCount).writes = s.writes ∧ (s.testAxleCount).commitNote = s.commitNote ∧
    (s.testAxleCount).choices = s.choices :=
  by
  unfold State.testAxleCount
  repeat' split
  all_goals simp

/-- Leaves all but axles as it was. -/
@[simp] theorem State.traceTakesRound_frame (s : State) (r : RoundValues) :
    (s.traceTakesRound r).pending = s.pending ∧ (s.traceTakesRound r).phase = s.phase ∧
    (s.traceTakesRound r).bus = s.bus ∧ (s.traceTakesRound r).weigh = s.weigh ∧
    (s.traceTakesRound r).capture = s.capture ∧ (s.traceTakesRound r).bridge = s.bridge ∧
    (s.traceTakesRound r).visits = s.visits ∧ (s.traceTakesRound r).inUse = s.inUse ∧
    (s.traceTakesRound r).tares = s.tares ∧ (s.traceTakesRound r).tickets = s.tickets ∧
    (s.traceTakesRound r).cal = s.cal ∧ (s.traceTakesRound r).staged = s.staged ∧
    (s.traceTakesRound r).switchOn = s.switchOn ∧ (s.traceTakesRound r).audit = s.audit ∧
    (s.traceTakesRound r).run = s.run ∧ (s.traceTakesRound r).evidence = s.evidence ∧
    (s.traceTakesRound r).faults = s.faults ∧ (s.traceTakesRound r).site = s.site ∧
    (s.traceTakesRound r).clockSet = s.clockSet ∧ (s.traceTakesRound r).powered = s.powered ∧
    (s.traceTakesRound r).supplyGood = s.supplyGood ∧ (s.traceTakesRound r).dipTimer = s.dipTimer ∧
    (s.traceTakesRound r).ports = s.ports ∧ (s.traceTakesRound r).writes = s.writes ∧
    (s.traceTakesRound r).outbox = s.outbox ∧ (s.traceTakesRound r).commitNote = s.commitNote ∧
    (s.traceTakesRound r).choices = s.choices :=
  by
  unfold State.traceTakesRound
  repeat' split
  all_goals simp

/-- Leaves all but axles, outbox as it was. -/
@[simp] theorem State.freezeTrace_frame (s : State) (reason : FreezeReason) (id : Ident) (r : RoundValues) (draft : Option Nat) :
    (s.freezeTrace reason id r draft).pending = s.pending ∧ (s.freezeTrace reason id r draft).phase = s.phase ∧
    (s.freezeTrace reason id r draft).bus = s.bus ∧ (s.freezeTrace reason id r draft).weigh = s.weigh ∧
    (s.freezeTrace reason id r draft).capture = s.capture ∧
    (s.freezeTrace reason id r draft).bridge = s.bridge ∧ (s.freezeTrace reason id r draft).visits = s.visits ∧
    (s.freezeTrace reason id r draft).inUse = s.inUse ∧ (s.freezeTrace reason id r draft).tares = s.tares ∧
    (s.freezeTrace reason id r draft).tickets = s.tickets ∧ (s.freezeTrace reason id r draft).cal = s.cal ∧
    (s.freezeTrace reason id r draft).staged = s.staged ∧
    (s.freezeTrace reason id r draft).switchOn = s.switchOn ∧
    (s.freezeTrace reason id r draft).audit = s.audit ∧ (s.freezeTrace reason id r draft).run = s.run ∧
    (s.freezeTrace reason id r draft).evidence = s.evidence ∧
    (s.freezeTrace reason id r draft).faults = s.faults ∧ (s.freezeTrace reason id r draft).site = s.site ∧
    (s.freezeTrace reason id r draft).clockSet = s.clockSet ∧
    (s.freezeTrace reason id r draft).powered = s.powered ∧
    (s.freezeTrace reason id r draft).supplyGood = s.supplyGood ∧
    (s.freezeTrace reason id r draft).dipTimer = s.dipTimer ∧
    (s.freezeTrace reason id r draft).ports = s.ports ∧ (s.freezeTrace reason id r draft).writes = s.writes ∧
    (s.freezeTrace reason id r draft).commitNote = s.commitNote ∧
    (s.freezeTrace reason id r draft).choices = s.choices :=
  by
  unfold State.freezeTrace
  split
  · simp
  · simp

/-- Leaves all but visits as it was. -/
@[simp] theorem State.setDraft_frame (s : State) (d : DraftState) :
    (s.setDraft d).pending = s.pending ∧ (s.setDraft d).phase = s.phase ∧ (s.setDraft d).bus = s.bus ∧
    (s.setDraft d).weigh = s.weigh ∧ (s.setDraft d).capture = s.capture ∧ (s.setDraft d).bridge = s.bridge ∧
    (s.setDraft d).axles = s.axles ∧ (s.setDraft d).inUse = s.inUse ∧ (s.setDraft d).tares = s.tares ∧
    (s.setDraft d).tickets = s.tickets ∧ (s.setDraft d).cal = s.cal ∧ (s.setDraft d).staged = s.staged ∧
    (s.setDraft d).switchOn = s.switchOn ∧ (s.setDraft d).audit = s.audit ∧ (s.setDraft d).run = s.run ∧
    (s.setDraft d).evidence = s.evidence ∧ (s.setDraft d).faults = s.faults ∧ (s.setDraft d).site = s.site ∧
    (s.setDraft d).clockSet = s.clockSet ∧ (s.setDraft d).powered = s.powered ∧
    (s.setDraft d).supplyGood = s.supplyGood ∧ (s.setDraft d).dipTimer = s.dipTimer ∧
    (s.setDraft d).ports = s.ports ∧ (s.setDraft d).writes = s.writes ∧ (s.setDraft d).outbox = s.outbox ∧
    (s.setDraft d).commitNote = s.commitNote ∧ (s.setDraft d).choices = s.choices :=
  by
  unfold State.setDraft
  repeat' split
  all_goals simp

/-- Leaves all but faults, run, outbox, cal, evidence, axles as it was. -/
@[simp] theorem State.disagree_frame (s : State) (e : BridgeEnd) (dir : AxleDir) :
    (s.disagree e dir).pending = s.pending ∧ (s.disagree e dir).phase = s.phase ∧
    (s.disagree e dir).bus = s.bus ∧ (s.disagree e dir).weigh = s.weigh ∧
    (s.disagree e dir).capture = s.capture ∧ (s.disagree e dir).bridge = s.bridge ∧
    (s.disagree e dir).visits = s.visits ∧ (s.disagree e dir).inUse = s.inUse ∧
    (s.disagree e dir).tares = s.tares ∧ (s.disagree e dir).tickets = s.tickets ∧
    (s.disagree e dir).staged = s.staged ∧ (s.disagree e dir).switchOn = s.switchOn ∧
    (s.disagree e dir).audit = s.audit ∧ (s.disagree e dir).site = s.site ∧
    (s.disagree e dir).clockSet = s.clockSet ∧ (s.disagree e dir).powered = s.powered ∧
    (s.disagree e dir).supplyGood = s.supplyGood ∧ (s.disagree e dir).dipTimer = s.dipTimer ∧
    (s.disagree e dir).ports = s.ports ∧ (s.disagree e dir).writes = s.writes ∧
    (s.disagree e dir).commitNote = s.commitNote ∧ (s.disagree e dir).choices = s.choices :=
  by simp [State.disagree]

/-- Leaves all but faults, run, outbox, cal, evidence, axles as it was. -/
@[simp] theorem State.countAxle_frame (s : State) (e : BridgeEnd) (dir : AxleDir) (entryEnd : BridgeEnd) :
    ((s.countAxle e dir entryEnd).1).pending = s.pending ∧ ((s.countAxle e dir entryEnd).1).phase = s.phase ∧
    ((s.countAxle e dir entryEnd).1).bus = s.bus ∧ ((s.countAxle e dir entryEnd).1).weigh = s.weigh ∧
    ((s.countAxle e dir entryEnd).1).capture = s.capture ∧ ((s.countAxle e dir entryEnd).1).bridge = s.bridge ∧
    ((s.countAxle e dir entryEnd).1).visits = s.visits ∧ ((s.countAxle e dir entryEnd).1).inUse = s.inUse ∧
    ((s.countAxle e dir entryEnd).1).tares = s.tares ∧ ((s.countAxle e dir entryEnd).1).tickets = s.tickets ∧
    ((s.countAxle e dir entryEnd).1).staged = s.staged ∧
    ((s.countAxle e dir entryEnd).1).switchOn = s.switchOn ∧ ((s.countAxle e dir entryEnd).1).audit = s.audit ∧
    ((s.countAxle e dir entryEnd).1).site = s.site ∧ ((s.countAxle e dir entryEnd).1).clockSet = s.clockSet ∧
    ((s.countAxle e dir entryEnd).1).powered = s.powered ∧
    ((s.countAxle e dir entryEnd).1).supplyGood = s.supplyGood ∧
    ((s.countAxle e dir entryEnd).1).dipTimer = s.dipTimer ∧ ((s.countAxle e dir entryEnd).1).ports = s.ports ∧
    ((s.countAxle e dir entryEnd).1).writes = s.writes ∧
    ((s.countAxle e dir entryEnd).1).commitNote = s.commitNote ∧
    ((s.countAxle e dir entryEnd).1).choices = s.choices :=
  by
  unfold State.countAxle
  repeat' split
  all_goals simp

/-- Leaves all but capture, bridge, axles as it was. -/
@[simp] theorem State.passOn_frame (s : State) (e : TraceEvent) :
    (s.passOn e).pending = s.pending ∧ (s.passOn e).phase = s.phase ∧ (s.passOn e).bus = s.bus ∧
    (s.passOn e).weigh = s.weigh ∧ (s.passOn e).visits = s.visits ∧ (s.passOn e).inUse = s.inUse ∧
    (s.passOn e).tares = s.tares ∧ (s.passOn e).tickets = s.tickets ∧ (s.passOn e).cal = s.cal ∧
    (s.passOn e).staged = s.staged ∧ (s.passOn e).switchOn = s.switchOn ∧ (s.passOn e).audit = s.audit ∧
    (s.passOn e).run = s.run ∧ (s.passOn e).evidence = s.evidence ∧ (s.passOn e).faults = s.faults ∧
    (s.passOn e).site = s.site ∧ (s.passOn e).clockSet = s.clockSet ∧ (s.passOn e).powered = s.powered ∧
    (s.passOn e).supplyGood = s.supplyGood ∧ (s.passOn e).dipTimer = s.dipTimer ∧
    (s.passOn e).ports = s.ports ∧ (s.passOn e).writes = s.writes ∧ (s.passOn e).outbox = s.outbox ∧
    (s.passOn e).commitNote = s.commitNote ∧ (s.passOn e).choices = s.choices :=
  by
  unfold State.passOn
  simp only []
  split <;> simp

/-- Leaves all but inUse, axles, visits, outbox, bridge as it was. -/
@[simp] theorem State.intrude_frame (s : State) (e : BridgeEnd) :
    (s.intrude e).pending = s.pending ∧ (s.intrude e).phase = s.phase ∧ (s.intrude e).bus = s.bus ∧
    (s.intrude e).weigh = s.weigh ∧ (s.intrude e).capture = s.capture ∧ (s.intrude e).tares = s.tares ∧
    (s.intrude e).tickets = s.tickets ∧ (s.intrude e).cal = s.cal ∧ (s.intrude e).staged = s.staged ∧
    (s.intrude e).switchOn = s.switchOn ∧ (s.intrude e).audit = s.audit ∧ (s.intrude e).run = s.run ∧
    (s.intrude e).evidence = s.evidence ∧ (s.intrude e).faults = s.faults ∧ (s.intrude e).site = s.site ∧
    (s.intrude e).clockSet = s.clockSet ∧ (s.intrude e).powered = s.powered ∧
    (s.intrude e).supplyGood = s.supplyGood ∧ (s.intrude e).dipTimer = s.dipTimer ∧
    (s.intrude e).ports = s.ports ∧ (s.intrude e).writes = s.writes ∧ (s.intrude e).commitNote = s.commitNote ∧
    (s.intrude e).choices = s.choices :=
  by
  unfold State.intrude
  simp only []
  split <;> simp

/-- Leaves all but capture, bridge, axles, inUse, visits, faults, run, outbox, cal, evidence as it was. -/
@[simp] theorem State.crossAxle_frame (s : State) (e : BridgeEnd) (dir : AxleDir) (g : Grant) :
    (s.crossAxle e dir g).pending = s.pending ∧ (s.crossAxle e dir g).phase = s.phase ∧
    (s.crossAxle e dir g).bus = s.bus ∧ (s.crossAxle e dir g).weigh = s.weigh ∧
    (s.crossAxle e dir g).tares = s.tares ∧ (s.crossAxle e dir g).tickets = s.tickets ∧
    (s.crossAxle e dir g).staged = s.staged ∧ (s.crossAxle e dir g).switchOn = s.switchOn ∧
    (s.crossAxle e dir g).audit = s.audit ∧ (s.crossAxle e dir g).site = s.site ∧
    (s.crossAxle e dir g).clockSet = s.clockSet ∧ (s.crossAxle e dir g).powered = s.powered ∧
    (s.crossAxle e dir g).supplyGood = s.supplyGood ∧ (s.crossAxle e dir g).dipTimer = s.dipTimer ∧
    (s.crossAxle e dir g).ports = s.ports ∧ (s.crossAxle e dir g).writes = s.writes ∧
    (s.crossAxle e dir g).commitNote = s.commitNote ∧ (s.crossAxle e dir g).choices = s.choices :=
  by
  unfold State.crossAxle
  simp only []
  split <;> simp

/-- Leaves all but capture, bridge, axles, inUse, visits, faults, run, outbox, cal, evidence as it was. -/
@[simp] theorem State.treadle_frame (s : State) (e : BridgeEnd) (dir : AxleDir) :
    (s.treadle e dir).pending = s.pending ∧ (s.treadle e dir).phase = s.phase ∧ (s.treadle e dir).bus = s.bus ∧
    (s.treadle e dir).weigh = s.weigh ∧ (s.treadle e dir).tares = s.tares ∧
    (s.treadle e dir).tickets = s.tickets ∧ (s.treadle e dir).staged = s.staged ∧
    (s.treadle e dir).switchOn = s.switchOn ∧ (s.treadle e dir).audit = s.audit ∧
    (s.treadle e dir).site = s.site ∧ (s.treadle e dir).clockSet = s.clockSet ∧
    (s.treadle e dir).powered = s.powered ∧ (s.treadle e dir).supplyGood = s.supplyGood ∧
    (s.treadle e dir).dipTimer = s.dipTimer ∧ (s.treadle e dir).ports = s.ports ∧
    (s.treadle e dir).writes = s.writes ∧ (s.treadle e dir).commitNote = s.commitNote ∧
    (s.treadle e dir).choices = s.choices :=
  by
  unfold State.treadle
  repeat' split
  all_goals simp

/-- Leaves all but tares, outbox as it was. -/
@[simp] theorem State.learnTare_frame (s : State) (t : Tare) :
    (s.learnTare t).pending = s.pending ∧ (s.learnTare t).phase = s.phase ∧ (s.learnTare t).bus = s.bus ∧
    (s.learnTare t).weigh = s.weigh ∧ (s.learnTare t).capture = s.capture ∧ (s.learnTare t).bridge = s.bridge ∧
    (s.learnTare t).axles = s.axles ∧ (s.learnTare t).visits = s.visits ∧ (s.learnTare t).inUse = s.inUse ∧
    (s.learnTare t).tickets = s.tickets ∧ (s.learnTare t).cal = s.cal ∧ (s.learnTare t).staged = s.staged ∧
    (s.learnTare t).switchOn = s.switchOn ∧ (s.learnTare t).audit = s.audit ∧ (s.learnTare t).run = s.run ∧
    (s.learnTare t).evidence = s.evidence ∧ (s.learnTare t).faults = s.faults ∧ (s.learnTare t).site = s.site ∧
    (s.learnTare t).clockSet = s.clockSet ∧ (s.learnTare t).powered = s.powered ∧
    (s.learnTare t).supplyGood = s.supplyGood ∧ (s.learnTare t).dipTimer = s.dipTimer ∧
    (s.learnTare t).ports = s.ports ∧ (s.learnTare t).writes = s.writes ∧
    (s.learnTare t).commitNote = s.commitNote ∧ (s.learnTare t).choices = s.choices :=
  by
  unfold State.learnTare State.storeTare
  simp only []
  cases s.chooseTare t.ident <;> simp

/-- Leaves all but cal, outbox as it was. -/
@[simp] theorem State.takeNumber_frame (s : State) :
    (s.takeNumber).pending = s.pending ∧ (s.takeNumber).phase = s.phase ∧ (s.takeNumber).bus = s.bus ∧
    (s.takeNumber).weigh = s.weigh ∧ (s.takeNumber).capture = s.capture ∧ (s.takeNumber).bridge = s.bridge ∧
    (s.takeNumber).axles = s.axles ∧ (s.takeNumber).visits = s.visits ∧ (s.takeNumber).inUse = s.inUse ∧
    (s.takeNumber).tares = s.tares ∧ (s.takeNumber).tickets = s.tickets ∧ (s.takeNumber).staged = s.staged ∧
    (s.takeNumber).switchOn = s.switchOn ∧ (s.takeNumber).audit = s.audit ∧ (s.takeNumber).run = s.run ∧
    (s.takeNumber).evidence = s.evidence ∧ (s.takeNumber).faults = s.faults ∧ (s.takeNumber).site = s.site ∧
    (s.takeNumber).clockSet = s.clockSet ∧ (s.takeNumber).powered = s.powered ∧
    (s.takeNumber).supplyGood = s.supplyGood ∧ (s.takeNumber).dipTimer = s.dipTimer ∧
    (s.takeNumber).ports = s.ports ∧ (s.takeNumber).writes = s.writes ∧
    (s.takeNumber).commitNote = s.commitNote ∧ (s.takeNumber).choices = s.choices :=
  by
  unfold State.takeNumber
  repeat' split
  all_goals simp

/-- Leaves all but outbox as it was. -/
@[simp] theorem State.noteRing_frame (s : State) :
    (s.noteRing).pending = s.pending ∧ (s.noteRing).phase = s.phase ∧ (s.noteRing).bus = s.bus ∧
    (s.noteRing).weigh = s.weigh ∧ (s.noteRing).capture = s.capture ∧ (s.noteRing).bridge = s.bridge ∧
    (s.noteRing).axles = s.axles ∧ (s.noteRing).visits = s.visits ∧ (s.noteRing).inUse = s.inUse ∧
    (s.noteRing).tares = s.tares ∧ (s.noteRing).tickets = s.tickets ∧ (s.noteRing).cal = s.cal ∧
    (s.noteRing).staged = s.staged ∧ (s.noteRing).switchOn = s.switchOn ∧ (s.noteRing).audit = s.audit ∧
    (s.noteRing).run = s.run ∧ (s.noteRing).evidence = s.evidence ∧ (s.noteRing).faults = s.faults ∧
    (s.noteRing).site = s.site ∧ (s.noteRing).clockSet = s.clockSet ∧ (s.noteRing).powered = s.powered ∧
    (s.noteRing).supplyGood = s.supplyGood ∧ (s.noteRing).dipTimer = s.dipTimer ∧
    (s.noteRing).ports = s.ports ∧ (s.noteRing).writes = s.writes ∧ (s.noteRing).commitNote = s.commitNote ∧
    (s.noteRing).choices = s.choices :=
  by
  unfold State.noteRing
  repeat' split
  all_goals simp

/-- Leaves all but outbox as it was. -/
@[simp] theorem State.noteTicket_frame (s : State) (k : Ticket) :
    (s.noteTicket k).pending = s.pending ∧ (s.noteTicket k).phase = s.phase ∧ (s.noteTicket k).bus = s.bus ∧
    (s.noteTicket k).weigh = s.weigh ∧ (s.noteTicket k).capture = s.capture ∧
    (s.noteTicket k).bridge = s.bridge ∧ (s.noteTicket k).axles = s.axles ∧
    (s.noteTicket k).visits = s.visits ∧ (s.noteTicket k).inUse = s.inUse ∧ (s.noteTicket k).tares = s.tares ∧
    (s.noteTicket k).tickets = s.tickets ∧ (s.noteTicket k).cal = s.cal ∧ (s.noteTicket k).staged = s.staged ∧
    (s.noteTicket k).switchOn = s.switchOn ∧ (s.noteTicket k).audit = s.audit ∧ (s.noteTicket k).run = s.run ∧
    (s.noteTicket k).evidence = s.evidence ∧ (s.noteTicket k).faults = s.faults ∧
    (s.noteTicket k).site = s.site ∧ (s.noteTicket k).clockSet = s.clockSet ∧
    (s.noteTicket k).powered = s.powered ∧ (s.noteTicket k).supplyGood = s.supplyGood ∧
    (s.noteTicket k).dipTimer = s.dipTimer ∧ (s.noteTicket k).ports = s.ports ∧
    (s.noteTicket k).writes = s.writes ∧ (s.noteTicket k).commitNote = s.commitNote ∧
    (s.noteTicket k).choices = s.choices :=
  by simp [State.noteTicket]

/-- Leaves all but cal, tickets, outbox as it was. -/
@[simp] theorem State.issueTicket_frame (s : State) (v : Visit) (h : TicketHandoff) :
    (s.issueTicket v h).pending = s.pending ∧ (s.issueTicket v h).phase = s.phase ∧
    (s.issueTicket v h).bus = s.bus ∧ (s.issueTicket v h).weigh = s.weigh ∧
    (s.issueTicket v h).capture = s.capture ∧ (s.issueTicket v h).bridge = s.bridge ∧
    (s.issueTicket v h).axles = s.axles ∧ (s.issueTicket v h).visits = s.visits ∧
    (s.issueTicket v h).inUse = s.inUse ∧ (s.issueTicket v h).tares = s.tares ∧
    (s.issueTicket v h).staged = s.staged ∧ (s.issueTicket v h).switchOn = s.switchOn ∧
    (s.issueTicket v h).audit = s.audit ∧ (s.issueTicket v h).run = s.run ∧
    (s.issueTicket v h).evidence = s.evidence ∧ (s.issueTicket v h).faults = s.faults ∧
    (s.issueTicket v h).site = s.site ∧ (s.issueTicket v h).clockSet = s.clockSet ∧
    (s.issueTicket v h).powered = s.powered ∧ (s.issueTicket v h).supplyGood = s.supplyGood ∧
    (s.issueTicket v h).dipTimer = s.dipTimer ∧ (s.issueTicket v h).ports = s.ports ∧
    (s.issueTicket v h).writes = s.writes ∧ (s.issueTicket v h).commitNote = s.commitNote ∧
    (s.issueTicket v h).choices = s.choices :=
  by simp [State.issueTicket]

/-- Leaves all but cal, tickets, outbox, visits, inUse as it was. -/
@[simp] theorem State.ticketVisit_frame (s : State) (p : Nat) (v : Visit) (h : TicketHandoff) :
    (s.ticketVisit p v h).pending = s.pending ∧ (s.ticketVisit p v h).phase = s.phase ∧
    (s.ticketVisit p v h).bus = s.bus ∧ (s.ticketVisit p v h).weigh = s.weigh ∧
    (s.ticketVisit p v h).capture = s.capture ∧ (s.ticketVisit p v h).bridge = s.bridge ∧
    (s.ticketVisit p v h).axles = s.axles ∧ (s.ticketVisit p v h).tares = s.tares ∧
    (s.ticketVisit p v h).staged = s.staged ∧ (s.ticketVisit p v h).switchOn = s.switchOn ∧
    (s.ticketVisit p v h).audit = s.audit ∧ (s.ticketVisit p v h).run = s.run ∧
    (s.ticketVisit p v h).evidence = s.evidence ∧ (s.ticketVisit p v h).faults = s.faults ∧
    (s.ticketVisit p v h).site = s.site ∧ (s.ticketVisit p v h).clockSet = s.clockSet ∧
    (s.ticketVisit p v h).powered = s.powered ∧ (s.ticketVisit p v h).supplyGood = s.supplyGood ∧
    (s.ticketVisit p v h).dipTimer = s.dipTimer ∧ (s.ticketVisit p v h).ports = s.ports ∧
    (s.ticketVisit p v h).writes = s.writes ∧ (s.ticketVisit p v h).commitNote = s.commitNote ∧
    (s.ticketVisit p v h).choices = s.choices :=
  by simp [State.ticketVisit]

/-- Leaves all but outbox as it was. -/
@[simp] theorem State.notesExpired_frame (s : State) (l : Table Visit) :
    (l.foldl (fun t e => t.noteExpired e.2) s).pending = s.pending ∧
    (l.foldl (fun t e => t.noteExpired e.2) s).phase = s.phase ∧
    (l.foldl (fun t e => t.noteExpired e.2) s).bus = s.bus ∧
    (l.foldl (fun t e => t.noteExpired e.2) s).weigh = s.weigh ∧
    (l.foldl (fun t e => t.noteExpired e.2) s).capture = s.capture ∧
    (l.foldl (fun t e => t.noteExpired e.2) s).bridge = s.bridge ∧
    (l.foldl (fun t e => t.noteExpired e.2) s).axles = s.axles ∧
    (l.foldl (fun t e => t.noteExpired e.2) s).visits = s.visits ∧
    (l.foldl (fun t e => t.noteExpired e.2) s).inUse = s.inUse ∧
    (l.foldl (fun t e => t.noteExpired e.2) s).tares = s.tares ∧
    (l.foldl (fun t e => t.noteExpired e.2) s).tickets = s.tickets ∧
    (l.foldl (fun t e => t.noteExpired e.2) s).cal = s.cal ∧
    (l.foldl (fun t e => t.noteExpired e.2) s).staged = s.staged ∧
    (l.foldl (fun t e => t.noteExpired e.2) s).switchOn = s.switchOn ∧
    (l.foldl (fun t e => t.noteExpired e.2) s).audit = s.audit ∧
    (l.foldl (fun t e => t.noteExpired e.2) s).run = s.run ∧
    (l.foldl (fun t e => t.noteExpired e.2) s).evidence = s.evidence ∧
    (l.foldl (fun t e => t.noteExpired e.2) s).faults = s.faults ∧
    (l.foldl (fun t e => t.noteExpired e.2) s).site = s.site ∧
    (l.foldl (fun t e => t.noteExpired e.2) s).clockSet = s.clockSet ∧
    (l.foldl (fun t e => t.noteExpired e.2) s).powered = s.powered ∧
    (l.foldl (fun t e => t.noteExpired e.2) s).supplyGood = s.supplyGood ∧
    (l.foldl (fun t e => t.noteExpired e.2) s).dipTimer = s.dipTimer ∧
    (l.foldl (fun t e => t.noteExpired e.2) s).ports = s.ports ∧
    (l.foldl (fun t e => t.noteExpired e.2) s).writes = s.writes ∧
    (l.foldl (fun t e => t.noteExpired e.2) s).commitNote = s.commitNote ∧
    (l.foldl (fun t e => t.noteExpired e.2) s).choices = s.choices :=
  ⟨foldl_keeps (fun x : State => x.pending) _ (fun _ _ => by simp) _ _,
   foldl_keeps (fun x : State => x.phase) _ (fun _ _ => by simp) _ _,
   foldl_keeps (fun x : State => x.bus) _ (fun _ _ => by simp) _ _,
   foldl_keeps (fun x : State => x.weigh) _ (fun _ _ => by simp) _ _,
   foldl_keeps (fun x : State => x.capture) _ (fun _ _ => by simp) _ _,
   foldl_keeps (fun x : State => x.bridge) _ (fun _ _ => by simp) _ _,
   foldl_keeps (fun x : State => x.axles) _ (fun _ _ => by simp) _ _,
   foldl_keeps (fun x : State => x.visits) _ (fun _ _ => by simp) _ _,
   foldl_keeps (fun x : State => x.inUse) _ (fun _ _ => by simp) _ _,
   foldl_keeps (fun x : State => x.tares) _ (fun _ _ => by simp) _ _,
   foldl_keeps (fun x : State => x.tickets) _ (fun _ _ => by simp) _ _,
   foldl_keeps (fun x : State => x.cal) _ (fun _ _ => by simp) _ _,
   foldl_keeps (fun x : State => x.staged) _ (fun _ _ => by simp) _ _,
   foldl_keeps (fun x : State => x.switchOn) _ (fun _ _ => by simp) _ _,
   foldl_keeps (fun x : State => x.audit) _ (fun _ _ => by simp) _ _,
   foldl_keeps (fun x : State => x.run) _ (fun _ _ => by simp) _ _,
   foldl_keeps (fun x : State => x.evidence) _ (fun _ _ => by simp) _ _,
   foldl_keeps (fun x : State => x.faults) _ (fun _ _ => by simp) _ _,
   foldl_keeps (fun x : State => x.site) _ (fun _ _ => by simp) _ _,
   foldl_keeps (fun x : State => x.clockSet) _ (fun _ _ => by simp) _ _,
   foldl_keeps (fun x : State => x.powered) _ (fun _ _ => by simp) _ _,
   foldl_keeps (fun x : State => x.supplyGood) _ (fun _ _ => by simp) _ _,
   foldl_keeps (fun x : State => x.dipTimer) _ (fun _ _ => by simp) _ _,
   foldl_keeps (fun x : State => x.ports) _ (fun _ _ => by simp) _ _,
   foldl_keeps (fun x : State => x.writes) _ (fun _ _ => by simp) _ _,
   foldl_keeps (fun x : State => x.commitNote) _ (fun _ _ => by simp) _ _,
   foldl_keeps (fun x : State => x.choices) _ (fun _ _ => by simp) _ _⟩

/-- Leaves all but visits, outbox as it was. -/
@[simp] theorem State.ageVisits_frame (s : State) :
    (s.ageVisits).pending = s.pending ∧ (s.ageVisits).phase = s.phase ∧ (s.ageVisits).bus = s.bus ∧
    (s.ageVisits).weigh = s.weigh ∧ (s.ageVisits).capture = s.capture ∧ (s.ageVisits).bridge = s.bridge ∧
    (s.ageVisits).axles = s.axles ∧ (s.ageVisits).inUse = s.inUse ∧ (s.ageVisits).tares = s.tares ∧
    (s.ageVisits).tickets = s.tickets ∧ (s.ageVisits).cal = s.cal ∧ (s.ageVisits).staged = s.staged ∧
    (s.ageVisits).switchOn = s.switchOn ∧ (s.ageVisits).audit = s.audit ∧ (s.ageVisits).run = s.run ∧
    (s.ageVisits).evidence = s.evidence ∧ (s.ageVisits).faults = s.faults ∧ (s.ageVisits).site = s.site ∧
    (s.ageVisits).clockSet = s.clockSet ∧ (s.ageVisits).powered = s.powered ∧
    (s.ageVisits).supplyGood = s.supplyGood ∧ (s.ageVisits).dipTimer = s.dipTimer ∧
    (s.ageVisits).ports = s.ports ∧ (s.ageVisits).writes = s.writes ∧ (s.ageVisits).commitNote = s.commitNote ∧
    (s.ageVisits).choices = s.choices :=
  by simp [State.ageVisits]

/-- Leaves all but visits, outbox as it was. -/
@[simp] theorem State.timeoutVisit_frame (s : State) (p : Nat) :
    (s.timeoutVisit p).pending = s.pending ∧ (s.timeoutVisit p).phase = s.phase ∧
    (s.timeoutVisit p).bus = s.bus ∧ (s.timeoutVisit p).weigh = s.weigh ∧
    (s.timeoutVisit p).capture = s.capture ∧ (s.timeoutVisit p).bridge = s.bridge ∧
    (s.timeoutVisit p).axles = s.axles ∧ (s.timeoutVisit p).inUse = s.inUse ∧
    (s.timeoutVisit p).tares = s.tares ∧ (s.timeoutVisit p).tickets = s.tickets ∧
    (s.timeoutVisit p).cal = s.cal ∧ (s.timeoutVisit p).staged = s.staged ∧
    (s.timeoutVisit p).switchOn = s.switchOn ∧ (s.timeoutVisit p).audit = s.audit ∧
    (s.timeoutVisit p).run = s.run ∧ (s.timeoutVisit p).evidence = s.evidence ∧
    (s.timeoutVisit p).faults = s.faults ∧ (s.timeoutVisit p).site = s.site ∧
    (s.timeoutVisit p).clockSet = s.clockSet ∧ (s.timeoutVisit p).powered = s.powered ∧
    (s.timeoutVisit p).supplyGood = s.supplyGood ∧ (s.timeoutVisit p).dipTimer = s.dipTimer ∧
    (s.timeoutVisit p).ports = s.ports ∧ (s.timeoutVisit p).writes = s.writes ∧
    (s.timeoutVisit p).commitNote = s.commitNote ∧ (s.timeoutVisit p).choices = s.choices :=
  by
  unfold State.timeoutVisit
  split
  · simp
  · simp only []
    split <;> simp

/-- Leaves all but capture, outbox as it was. -/
@[simp] theorem State.attemptAuto_frame (s : State) :
    (s.attemptAuto).pending = s.pending ∧ (s.attemptAuto).phase = s.phase ∧ (s.attemptAuto).bus = s.bus ∧
    (s.attemptAuto).weigh = s.weigh ∧ (s.attemptAuto).bridge = s.bridge ∧ (s.attemptAuto).axles = s.axles ∧
    (s.attemptAuto).visits = s.visits ∧ (s.attemptAuto).inUse = s.inUse ∧ (s.attemptAuto).tares = s.tares ∧
    (s.attemptAuto).tickets = s.tickets ∧ (s.attemptAuto).cal = s.cal ∧ (s.attemptAuto).staged = s.staged ∧
    (s.attemptAuto).switchOn = s.switchOn ∧ (s.attemptAuto).audit = s.audit ∧ (s.attemptAuto).run = s.run ∧
    (s.attemptAuto).evidence = s.evidence ∧ (s.attemptAuto).faults = s.faults ∧ (s.attemptAuto).site = s.site ∧
    (s.attemptAuto).clockSet = s.clockSet ∧ (s.attemptAuto).powered = s.powered ∧
    (s.attemptAuto).supplyGood = s.supplyGood ∧ (s.attemptAuto).dipTimer = s.dipTimer ∧
    (s.attemptAuto).ports = s.ports ∧ (s.attemptAuto).writes = s.writes ∧
    (s.attemptAuto).commitNote = s.commitNote ∧ (s.attemptAuto).choices = s.choices :=
  by
  unfold State.attemptAuto
  repeat' split
  all_goals simp

/-- Leaves all but capture, outbox as it was. -/
@[simp] theorem State.quietExpires_frame (s : State) :
    (s.quietExpires).pending = s.pending ∧ (s.quietExpires).phase = s.phase ∧ (s.quietExpires).bus = s.bus ∧
    (s.quietExpires).weigh = s.weigh ∧ (s.quietExpires).bridge = s.bridge ∧ (s.quietExpires).axles = s.axles ∧
    (s.quietExpires).visits = s.visits ∧ (s.quietExpires).inUse = s.inUse ∧ (s.quietExpires).tares = s.tares ∧
    (s.quietExpires).tickets = s.tickets ∧ (s.quietExpires).cal = s.cal ∧ (s.quietExpires).staged = s.staged ∧
    (s.quietExpires).switchOn = s.switchOn ∧ (s.quietExpires).audit = s.audit ∧ (s.quietExpires).run = s.run ∧
    (s.quietExpires).evidence = s.evidence ∧ (s.quietExpires).faults = s.faults ∧
    (s.quietExpires).site = s.site ∧ (s.quietExpires).clockSet = s.clockSet ∧
    (s.quietExpires).powered = s.powered ∧ (s.quietExpires).supplyGood = s.supplyGood ∧
    (s.quietExpires).dipTimer = s.dipTimer ∧ (s.quietExpires).ports = s.ports ∧
    (s.quietExpires).writes = s.writes ∧ (s.quietExpires).commitNote = s.commitNote ∧
    (s.quietExpires).choices = s.choices :=
  by
  unfold State.quietExpires
  split
  · simp
  · simp only []
    split <;> simp

/-- Leaves all but bridge, capture, outbox as it was. -/
@[simp] theorem State.reportDraft_frame (s : State) (id : Ident) (anyOver completed : Bool) :
    (s.reportDraft id anyOver completed).pending = s.pending ∧
    (s.reportDraft id anyOver completed).phase = s.phase ∧ (s.reportDraft id anyOver completed).bus = s.bus ∧
    (s.reportDraft id anyOver completed).weigh = s.weigh ∧
    (s.reportDraft id anyOver completed).axles = s.axles ∧
    (s.reportDraft id anyOver completed).visits = s.visits ∧
    (s.reportDraft id anyOver completed).inUse = s.inUse ∧
    (s.reportDraft id anyOver completed).tares = s.tares ∧
    (s.reportDraft id anyOver completed).tickets = s.tickets ∧
    (s.reportDraft id anyOver completed).cal = s.cal ∧ (s.reportDraft id anyOver completed).staged = s.staged ∧
    (s.reportDraft id anyOver completed).switchOn = s.switchOn ∧
    (s.reportDraft id anyOver completed).audit = s.audit ∧ (s.reportDraft id anyOver completed).run = s.run ∧
    (s.reportDraft id anyOver completed).evidence = s.evidence ∧
    (s.reportDraft id anyOver completed).faults = s.faults ∧
    (s.reportDraft id anyOver completed).site = s.site ∧
    (s.reportDraft id anyOver completed).clockSet = s.clockSet ∧
    (s.reportDraft id anyOver completed).powered = s.powered ∧
    (s.reportDraft id anyOver completed).supplyGood = s.supplyGood ∧
    (s.reportDraft id anyOver completed).dipTimer = s.dipTimer ∧
    (s.reportDraft id anyOver completed).ports = s.ports ∧
    (s.reportDraft id anyOver completed).writes = s.writes ∧
    (s.reportDraft id anyOver completed).commitNote = s.commitNote ∧
    (s.reportDraft id anyOver completed).choices = s.choices :=
  by
  unfold State.reportDraft
  simp only []
  split
  · simp
  · split <;> simp

/-- Leaves all but axles, outbox, evidence, cal as it was. -/
@[simp] theorem State.overSteps_frame (s : State) (id : Ident) (d : DraftResult) (r : RoundValues) :
    (s.overSteps id d r).pending = s.pending ∧ (s.overSteps id d r).phase = s.phase ∧
    (s.overSteps id d r).bus = s.bus ∧ (s.overSteps id d r).weigh = s.weigh ∧
    (s.overSteps id d r).capture = s.capture ∧ (s.overSteps id d r).bridge = s.bridge ∧
    (s.overSteps id d r).visits = s.visits ∧ (s.overSteps id d r).inUse = s.inUse ∧
    (s.overSteps id d r).tares = s.tares ∧ (s.overSteps id d r).tickets = s.tickets ∧
    (s.overSteps id d r).staged = s.staged ∧ (s.overSteps id d r).switchOn = s.switchOn ∧
    (s.overSteps id d r).audit = s.audit ∧ (s.overSteps id d r).run = s.run ∧
    (s.overSteps id d r).faults = s.faults ∧ (s.overSteps id d r).site = s.site ∧
    (s.overSteps id d r).clockSet = s.clockSet ∧ (s.overSteps id d r).powered = s.powered ∧
    (s.overSteps id d r).supplyGood = s.supplyGood ∧ (s.overSteps id d r).dipTimer = s.dipTimer ∧
    (s.overSteps id d r).ports = s.ports ∧ (s.overSteps id d r).writes = s.writes ∧
    (s.overSteps id d r).commitNote = s.commitNote ∧ (s.overSteps id d r).choices = s.choices :=
  by
  unfold State.overSteps
  simp only []
  split <;> simp

/-- Leaves all but capture, bridge, outbox, axles, evidence, cal as it was. -/
@[simp] theorem State.acceptCapture_frame (s : State) (c : Capture) (d : DraftResult) (r : RoundValues) :
    (s.acceptCapture c d r).pending = s.pending ∧ (s.acceptCapture c d r).phase = s.phase ∧
    (s.acceptCapture c d r).bus = s.bus ∧ (s.acceptCapture c d r).weigh = s.weigh ∧
    (s.acceptCapture c d r).visits = s.visits ∧ (s.acceptCapture c d r).inUse = s.inUse ∧
    (s.acceptCapture c d r).tares = s.tares ∧ (s.acceptCapture c d r).tickets = s.tickets ∧
    (s.acceptCapture c d r).staged = s.staged ∧ (s.acceptCapture c d r).switchOn = s.switchOn ∧
    (s.acceptCapture c d r).audit = s.audit ∧ (s.acceptCapture c d r).run = s.run ∧
    (s.acceptCapture c d r).faults = s.faults ∧ (s.acceptCapture c d r).site = s.site ∧
    (s.acceptCapture c d r).clockSet = s.clockSet ∧ (s.acceptCapture c d r).powered = s.powered ∧
    (s.acceptCapture c d r).supplyGood = s.supplyGood ∧ (s.acceptCapture c d r).dipTimer = s.dipTimer ∧
    (s.acceptCapture c d r).ports = s.ports ∧ (s.acceptCapture c d r).writes = s.writes ∧
    (s.acceptCapture c d r).commitNote = s.commitNote ∧ (s.acceptCapture c d r).choices = s.choices :=
  by simp [State.acceptCapture]

/-- Leaves all but capture, axles, outbox as it was. -/
@[simp] theorem State.refuseStraddle_frame (s : State) (c : Capture) (r : RoundValues) (firstAxle lastAxle groups : Nat)
    (decks : List Nat) :
    (s.refuseStraddle c r firstAxle lastAxle groups decks).pending = s.pending ∧
    (s.refuseStraddle c r firstAxle lastAxle groups decks).phase = s.phase ∧
    (s.refuseStraddle c r firstAxle lastAxle groups decks).bus = s.bus ∧
    (s.refuseStraddle c r firstAxle lastAxle groups decks).weigh = s.weigh ∧
    (s.refuseStraddle c r firstAxle lastAxle groups decks).bridge = s.bridge ∧
    (s.refuseStraddle c r firstAxle lastAxle groups decks).visits = s.visits ∧
    (s.refuseStraddle c r firstAxle lastAxle groups decks).inUse = s.inUse ∧
    (s.refuseStraddle c r firstAxle lastAxle groups decks).tares = s.tares ∧
    (s.refuseStraddle c r firstAxle lastAxle groups decks).tickets = s.tickets ∧
    (s.refuseStraddle c r firstAxle lastAxle groups decks).cal = s.cal ∧
    (s.refuseStraddle c r firstAxle lastAxle groups decks).staged = s.staged ∧
    (s.refuseStraddle c r firstAxle lastAxle groups decks).switchOn = s.switchOn ∧
    (s.refuseStraddle c r firstAxle lastAxle groups decks).audit = s.audit ∧
    (s.refuseStraddle c r firstAxle lastAxle groups decks).run = s.run ∧
    (s.refuseStraddle c r firstAxle lastAxle groups decks).evidence = s.evidence ∧
    (s.refuseStraddle c r firstAxle lastAxle groups decks).faults = s.faults ∧
    (s.refuseStraddle c r firstAxle lastAxle groups decks).site = s.site ∧
    (s.refuseStraddle c r firstAxle lastAxle groups decks).clockSet = s.clockSet ∧
    (s.refuseStraddle c r firstAxle lastAxle groups decks).powered = s.powered ∧
    (s.refuseStraddle c r firstAxle lastAxle groups decks).supplyGood = s.supplyGood ∧
    (s.refuseStraddle c r firstAxle lastAxle groups decks).dipTimer = s.dipTimer ∧
    (s.refuseStraddle c r firstAxle lastAxle groups decks).ports = s.ports ∧
    (s.refuseStraddle c r firstAxle lastAxle groups decks).writes = s.writes ∧
    (s.refuseStraddle c r firstAxle lastAxle groups decks).commitNote = s.commitNote ∧
    (s.refuseStraddle c r firstAxle lastAxle groups decks).choices = s.choices :=
  by simp [State.refuseStraddle]

/-- Where it answers a state, leaves all but visits, tares, cal, tickets, outbox, inUse as it was. -/
theorem State.completeFirst_frame {s t : State} {p : Nat} {v : Visit} {r : WeighRecord}
    (h : s.completeFirst p v r = .ok t) :
    t.pending = s.pending ∧ t.phase = s.phase ∧ t.bus = s.bus ∧ t.weigh = s.weigh ∧ t.capture = s.capture ∧
    t.bridge = s.bridge ∧ t.axles = s.axles ∧ t.staged = s.staged ∧ t.switchOn = s.switchOn ∧
    t.audit = s.audit ∧ t.run = s.run ∧ t.evidence = s.evidence ∧ t.faults = s.faults ∧ t.site = s.site ∧
    t.clockSet = s.clockSet ∧ t.powered = s.powered ∧ t.supplyGood = s.supplyGood ∧ t.dipTimer = s.dipTimer ∧
    t.ports = s.ports ∧ t.writes = s.writes ∧ t.commitNote = s.commitNote ∧ t.choices = s.choices := by
  unfold State.completeFirst at h
  simp only [] at h
  repeat' split at h
  all_goals first | (cases h; simp; done) | cases h

/-- Where it answers a state, leaves all but visits, tares, cal, tickets, outbox, inUse as it was. -/
theorem State.completeSecond_frame {s t : State} {p : Nat} {v : Visit} {r : WeighRecord}
    (h : s.completeSecond p v r = .ok t) :
    t.pending = s.pending ∧ t.phase = s.phase ∧ t.bus = s.bus ∧ t.weigh = s.weigh ∧ t.capture = s.capture ∧
    t.bridge = s.bridge ∧ t.axles = s.axles ∧ t.staged = s.staged ∧ t.switchOn = s.switchOn ∧
    t.audit = s.audit ∧ t.run = s.run ∧ t.evidence = s.evidence ∧ t.faults = s.faults ∧ t.site = s.site ∧
    t.clockSet = s.clockSet ∧ t.powered = s.powered ∧ t.supplyGood = s.supplyGood ∧ t.dipTimer = s.dipTimer ∧
    t.ports = s.ports ∧ t.writes = s.writes ∧ t.commitNote = s.commitNote ∧ t.choices = s.choices := by
  unfold State.completeSecond at h
  split at h
  · cases h
  · injection h with h
    subst h
    split <;> simp

/-- Where it answers a state, leaves all but visits, tares, cal, tickets, outbox, inUse as it was. -/
theorem State.takeDraft_frame {s t : State} {p : Nat} {v : Visit} {d : DraftResult}
    (h : s.takeDraft p v d = .ok t) :
    t.pending = s.pending ∧ t.phase = s.phase ∧ t.bus = s.bus ∧ t.weigh = s.weigh ∧ t.capture = s.capture ∧
    t.bridge = s.bridge ∧ t.axles = s.axles ∧ t.staged = s.staged ∧ t.switchOn = s.switchOn ∧
    t.audit = s.audit ∧ t.run = s.run ∧ t.evidence = s.evidence ∧ t.faults = s.faults ∧ t.site = s.site ∧
    t.clockSet = s.clockSet ∧ t.powered = s.powered ∧ t.supplyGood = s.supplyGood ∧ t.dipTimer = s.dipTimer ∧
    t.ports = s.ports ∧ t.writes = s.writes ∧ t.commitNote = s.commitNote ∧ t.choices = s.choices := by
  unfold State.takeDraft at h
  split at h
  · injection h with h
    subst h
    simp
  · split at h
    · exact State.completeSecond_frame h
    · exact State.completeFirst_frame h

/-- Leaves all but visits, tares, cal, tickets, outbox, inUse, capture, bridge, axles, evidence as it was. -/
@[simp] theorem State.handOff_frame (s : State) (c : Capture) (r : RoundValues) (p : Nat) (v : Visit) :
    (s.handOff c r p v).pending = s.pending ∧ (s.handOff c r p v).phase = s.phase ∧
    (s.handOff c r p v).bus = s.bus ∧ (s.handOff c r p v).weigh = s.weigh ∧
    (s.handOff c r p v).staged = s.staged ∧ (s.handOff c r p v).switchOn = s.switchOn ∧
    (s.handOff c r p v).audit = s.audit ∧ (s.handOff c r p v).run = s.run ∧
    (s.handOff c r p v).faults = s.faults ∧ (s.handOff c r p v).site = s.site ∧
    (s.handOff c r p v).clockSet = s.clockSet ∧ (s.handOff c r p v).powered = s.powered ∧
    (s.handOff c r p v).supplyGood = s.supplyGood ∧ (s.handOff c r p v).dipTimer = s.dipTimer ∧
    (s.handOff c r p v).ports = s.ports ∧ (s.handOff c r p v).writes = s.writes ∧
    (s.handOff c r p v).commitNote = s.commitNote ∧ (s.handOff c r p v).choices = s.choices :=
  by
  unfold State.handOff
  split
  · simp
  · simp
  · split
    · simp
    · rename_i t h
      have hf := State.takeDraft_frame h
      simp [hf]

/-- Leaves all but visits, tares, cal, tickets, outbox, inUse, capture, bridge, axles, evidence as it was. -/
@[simp] theorem State.completeCapture_frame (s : State) (c : Capture) (r : RoundValues) :
    (s.completeCapture c r).pending = s.pending ∧ (s.completeCapture c r).phase = s.phase ∧
    (s.completeCapture c r).bus = s.bus ∧ (s.completeCapture c r).weigh = s.weigh ∧
    (s.completeCapture c r).staged = s.staged ∧ (s.completeCapture c r).switchOn = s.switchOn ∧
    (s.completeCapture c r).audit = s.audit ∧ (s.completeCapture c r).run = s.run ∧
    (s.completeCapture c r).faults = s.faults ∧ (s.completeCapture c r).site = s.site ∧
    (s.completeCapture c r).clockSet = s.clockSet ∧ (s.completeCapture c r).powered = s.powered ∧
    (s.completeCapture c r).supplyGood = s.supplyGood ∧ (s.completeCapture c r).dipTimer = s.dipTimer ∧
    (s.completeCapture c r).ports = s.ports ∧ (s.completeCapture c r).writes = s.writes ∧
    (s.completeCapture c r).commitNote = s.commitNote ∧ (s.completeCapture c r).choices = s.choices :=
  by
  unfold State.completeCapture
  repeat' split
  all_goals simp

/-- Leaves all but visits, tares, cal, tickets, outbox, inUse, capture, bridge, axles, evidence as it was. -/
@[simp] theorem State.captureTakesRound_frame (s : State) (r : RoundValues) :
    (s.captureTakesRound r).pending = s.pending ∧ (s.captureTakesRound r).phase = s.phase ∧
    (s.captureTakesRound r).bus = s.bus ∧ (s.captureTakesRound r).weigh = s.weigh ∧
    (s.captureTakesRound r).staged = s.staged ∧ (s.captureTakesRound r).switchOn = s.switchOn ∧
    (s.captureTakesRound r).audit = s.audit ∧ (s.captureTakesRound r).run = s.run ∧
    (s.captureTakesRound r).faults = s.faults ∧ (s.captureTakesRound r).site = s.site ∧
    (s.captureTakesRound r).clockSet = s.clockSet ∧ (s.captureTakesRound r).powered = s.powered ∧
    (s.captureTakesRound r).supplyGood = s.supplyGood ∧ (s.captureTakesRound r).dipTimer = s.dipTimer ∧
    (s.captureTakesRound r).ports = s.ports ∧ (s.captureTakesRound r).writes = s.writes ∧
    (s.captureTakesRound r).commitNote = s.commitNote ∧ (s.captureTakesRound r).choices = s.choices :=
  by
  unfold State.captureTakesRound
  repeat' split
  all_goals simp

/-- Leaves all but bridge, faults, run, outbox, cal, evidence as it was. -/
@[simp] theorem State.feedbackExpires_frame (s : State) (e : BridgeEnd) :
    (s.feedbackExpires e).pending = s.pending ∧ (s.feedbackExpires e).phase = s.phase ∧
    (s.feedbackExpires e).bus = s.bus ∧ (s.feedbackExpires e).weigh = s.weigh ∧
    (s.feedbackExpires e).capture = s.capture ∧ (s.feedbackExpires e).axles = s.axles ∧
    (s.feedbackExpires e).visits = s.visits ∧ (s.feedbackExpires e).inUse = s.inUse ∧
    (s.feedbackExpires e).tares = s.tares ∧ (s.feedbackExpires e).tickets = s.tickets ∧
    (s.feedbackExpires e).staged = s.staged ∧ (s.feedbackExpires e).switchOn = s.switchOn ∧
    (s.feedbackExpires e).audit = s.audit ∧ (s.feedbackExpires e).site = s.site ∧
    (s.feedbackExpires e).clockSet = s.clockSet ∧ (s.feedbackExpires e).powered = s.powered ∧
    (s.feedbackExpires e).supplyGood = s.supplyGood ∧ (s.feedbackExpires e).dipTimer = s.dipTimer ∧
    (s.feedbackExpires e).ports = s.ports ∧ (s.feedbackExpires e).writes = s.writes ∧
    (s.feedbackExpires e).commitNote = s.commitNote ∧ (s.feedbackExpires e).choices = s.choices :=
  by
  unfold State.feedbackExpires
  repeat' split
  all_goals simp

/-- Leaves all but inUse, axles, visits, outbox, bridge as it was. -/
@[simp] theorem State.noShow_frame (s : State) (id : Ident) :
    (s.noShow id).pending = s.pending ∧ (s.noShow id).phase = s.phase ∧ (s.noShow id).bus = s.bus ∧
    (s.noShow id).weigh = s.weigh ∧ (s.noShow id).capture = s.capture ∧ (s.noShow id).tares = s.tares ∧
    (s.noShow id).tickets = s.tickets ∧ (s.noShow id).cal = s.cal ∧ (s.noShow id).staged = s.staged ∧
    (s.noShow id).switchOn = s.switchOn ∧ (s.noShow id).audit = s.audit ∧ (s.noShow id).run = s.run ∧
    (s.noShow id).evidence = s.evidence ∧ (s.noShow id).faults = s.faults ∧ (s.noShow id).site = s.site ∧
    (s.noShow id).clockSet = s.clockSet ∧ (s.noShow id).powered = s.powered ∧
    (s.noShow id).supplyGood = s.supplyGood ∧ (s.noShow id).dipTimer = s.dipTimer ∧
    (s.noShow id).ports = s.ports ∧ (s.noShow id).writes = s.writes ∧ (s.noShow id).commitNote = s.commitNote ∧
    (s.noShow id).choices = s.choices :=
  by simp [State.noShow]

/-- Leaves all but inUse, axles, visits, outbox, bridge as it was. -/
@[simp] theorem State.grantExpires_frame (s : State) :
    (s.grantExpires).pending = s.pending ∧ (s.grantExpires).phase = s.phase ∧ (s.grantExpires).bus = s.bus ∧
    (s.grantExpires).weigh = s.weigh ∧ (s.grantExpires).capture = s.capture ∧
    (s.grantExpires).tares = s.tares ∧ (s.grantExpires).tickets = s.tickets ∧ (s.grantExpires).cal = s.cal ∧
    (s.grantExpires).staged = s.staged ∧ (s.grantExpires).switchOn = s.switchOn ∧
    (s.grantExpires).audit = s.audit ∧ (s.grantExpires).run = s.run ∧ (s.grantExpires).evidence = s.evidence ∧
    (s.grantExpires).faults = s.faults ∧ (s.grantExpires).site = s.site ∧
    (s.grantExpires).clockSet = s.clockSet ∧ (s.grantExpires).powered = s.powered ∧
    (s.grantExpires).supplyGood = s.supplyGood ∧ (s.grantExpires).dipTimer = s.dipTimer ∧
    (s.grantExpires).ports = s.ports ∧ (s.grantExpires).writes = s.writes ∧
    (s.grantExpires).commitNote = s.commitNote ∧ (s.grantExpires).choices = s.choices :=
  by
  unfold State.grantExpires
  repeat' split
  all_goals simp

/-- Leaves all but axles, bridge as it was. -/
@[simp] theorem State.unknownTakesRound_frame (s : State) (r : RoundValues) :
    (s.unknownTakesRound r).pending = s.pending ∧ (s.unknownTakesRound r).phase = s.phase ∧
    (s.unknownTakesRound r).bus = s.bus ∧ (s.unknownTakesRound r).weigh = s.weigh ∧
    (s.unknownTakesRound r).capture = s.capture ∧ (s.unknownTakesRound r).visits = s.visits ∧
    (s.unknownTakesRound r).inUse = s.inUse ∧ (s.unknownTakesRound r).tares = s.tares ∧
    (s.unknownTakesRound r).tickets = s.tickets ∧ (s.unknownTakesRound r).cal = s.cal ∧
    (s.unknownTakesRound r).staged = s.staged ∧ (s.unknownTakesRound r).switchOn = s.switchOn ∧
    (s.unknownTakesRound r).audit = s.audit ∧ (s.unknownTakesRound r).run = s.run ∧
    (s.unknownTakesRound r).evidence = s.evidence ∧ (s.unknownTakesRound r).faults = s.faults ∧
    (s.unknownTakesRound r).site = s.site ∧ (s.unknownTakesRound r).clockSet = s.clockSet ∧
    (s.unknownTakesRound r).powered = s.powered ∧ (s.unknownTakesRound r).supplyGood = s.supplyGood ∧
    (s.unknownTakesRound r).dipTimer = s.dipTimer ∧ (s.unknownTakesRound r).ports = s.ports ∧
    (s.unknownTakesRound r).writes = s.writes ∧ (s.unknownTakesRound r).outbox = s.outbox ∧
    (s.unknownTakesRound r).commitNote = s.commitNote ∧ (s.unknownTakesRound r).choices = s.choices :=
  by
  unfold State.unknownTakesRound
  repeat' split
  all_goals simp

/-- Leaves all but bridge, capture, outbox, inUse, axles, visits as it was. -/
@[simp] theorem State.arbiterTakesRound_frame (s : State) (r : RoundValues) :
    (s.arbiterTakesRound r).pending = s.pending ∧ (s.arbiterTakesRound r).phase = s.phase ∧
    (s.arbiterTakesRound r).bus = s.bus ∧ (s.arbiterTakesRound r).weigh = s.weigh ∧
    (s.arbiterTakesRound r).tares = s.tares ∧ (s.arbiterTakesRound r).tickets = s.tickets ∧
    (s.arbiterTakesRound r).cal = s.cal ∧ (s.arbiterTakesRound r).staged = s.staged ∧
    (s.arbiterTakesRound r).switchOn = s.switchOn ∧ (s.arbiterTakesRound r).audit = s.audit ∧
    (s.arbiterTakesRound r).run = s.run ∧ (s.arbiterTakesRound r).evidence = s.evidence ∧
    (s.arbiterTakesRound r).faults = s.faults ∧ (s.arbiterTakesRound r).site = s.site ∧
    (s.arbiterTakesRound r).clockSet = s.clockSet ∧ (s.arbiterTakesRound r).powered = s.powered ∧
    (s.arbiterTakesRound r).supplyGood = s.supplyGood ∧ (s.arbiterTakesRound r).dipTimer = s.dipTimer ∧
    (s.arbiterTakesRound r).ports = s.ports ∧ (s.arbiterTakesRound r).writes = s.writes ∧
    (s.arbiterTakesRound r).commitNote = s.commitNote ∧ (s.arbiterTakesRound r).choices = s.choices :=
  by
  unfold State.arbiterTakesRound
  repeat' split
  all_goals simp

/-- Leaves all but run, outbox as it was. -/
@[simp] theorem State.pointTakesRound_frame (s : State) (v : RoundValues) :
    (s.pointTakesRound v).pending = s.pending ∧ (s.pointTakesRound v).phase = s.phase ∧
    (s.pointTakesRound v).bus = s.bus ∧ (s.pointTakesRound v).weigh = s.weigh ∧
    (s.pointTakesRound v).capture = s.capture ∧ (s.pointTakesRound v).bridge = s.bridge ∧
    (s.pointTakesRound v).axles = s.axles ∧ (s.pointTakesRound v).visits = s.visits ∧
    (s.pointTakesRound v).inUse = s.inUse ∧ (s.pointTakesRound v).tares = s.tares ∧
    (s.pointTakesRound v).tickets = s.tickets ∧ (s.pointTakesRound v).cal = s.cal ∧
    (s.pointTakesRound v).staged = s.staged ∧ (s.pointTakesRound v).switchOn = s.switchOn ∧
    (s.pointTakesRound v).audit = s.audit ∧ (s.pointTakesRound v).evidence = s.evidence ∧
    (s.pointTakesRound v).faults = s.faults ∧ (s.pointTakesRound v).site = s.site ∧
    (s.pointTakesRound v).clockSet = s.clockSet ∧ (s.pointTakesRound v).powered = s.powered ∧
    (s.pointTakesRound v).supplyGood = s.supplyGood ∧ (s.pointTakesRound v).dipTimer = s.dipTimer ∧
    (s.pointTakesRound v).ports = s.ports ∧ (s.pointTakesRound v).writes = s.writes ∧
    (s.pointTakesRound v).commitNote = s.commitNote ∧ (s.pointTakesRound v).choices = s.choices :=
  by
  unfold State.pointTakesRound
  repeat' split
  all_goals simp

/-- Leaves all but run, cal, audit, outbox as it was. -/
@[simp] theorem State.endRun_frame (s : State) (r : Run) :
    (s.endRun r).pending = s.pending ∧ (s.endRun r).phase = s.phase ∧ (s.endRun r).bus = s.bus ∧
    (s.endRun r).weigh = s.weigh ∧ (s.endRun r).capture = s.capture ∧ (s.endRun r).bridge = s.bridge ∧
    (s.endRun r).axles = s.axles ∧ (s.endRun r).visits = s.visits ∧ (s.endRun r).inUse = s.inUse ∧
    (s.endRun r).tares = s.tares ∧ (s.endRun r).tickets = s.tickets ∧ (s.endRun r).staged = s.staged ∧
    (s.endRun r).switchOn = s.switchOn ∧ (s.endRun r).evidence = s.evidence ∧ (s.endRun r).faults = s.faults ∧
    (s.endRun r).site = s.site ∧ (s.endRun r).clockSet = s.clockSet ∧ (s.endRun r).powered = s.powered ∧
    (s.endRun r).supplyGood = s.supplyGood ∧ (s.endRun r).dipTimer = s.dipTimer ∧
    (s.endRun r).ports = s.ports ∧ (s.endRun r).writes = s.writes ∧ (s.endRun r).commitNote = s.commitNote ∧
    (s.endRun r).choices = s.choices :=
  by simp [State.endRun]

/-- Leaves all but staged, cal, evidence, outbox as it was. -/
@[simp] theorem State.withdrawSwitch_frame (s : State) :
    (s.withdrawSwitch).pending = s.pending ∧ (s.withdrawSwitch).phase = s.phase ∧
    (s.withdrawSwitch).bus = s.bus ∧ (s.withdrawSwitch).weigh = s.weigh ∧
    (s.withdrawSwitch).capture = s.capture ∧ (s.withdrawSwitch).bridge = s.bridge ∧
    (s.withdrawSwitch).axles = s.axles ∧ (s.withdrawSwitch).visits = s.visits ∧
    (s.withdrawSwitch).inUse = s.inUse ∧ (s.withdrawSwitch).tares = s.tares ∧
    (s.withdrawSwitch).tickets = s.tickets ∧ (s.withdrawSwitch).switchOn = s.switchOn ∧
    (s.withdrawSwitch).audit = s.audit ∧ (s.withdrawSwitch).run = s.run ∧
    (s.withdrawSwitch).faults = s.faults ∧ (s.withdrawSwitch).site = s.site ∧
    (s.withdrawSwitch).clockSet = s.clockSet ∧ (s.withdrawSwitch).powered = s.powered ∧
    (s.withdrawSwitch).supplyGood = s.supplyGood ∧ (s.withdrawSwitch).dipTimer = s.dipTimer ∧
    (s.withdrawSwitch).ports = s.ports ∧ (s.withdrawSwitch).writes = s.writes ∧
    (s.withdrawSwitch).commitNote = s.commitNote ∧ (s.withdrawSwitch).choices = s.choices :=
  by
  unfold State.withdrawSwitch
  repeat' split
  all_goals simp

/-- Leaves all but switchOn, staged, cal, evidence, outbox as it was. -/
@[simp] theorem State.switchChange_frame (s : State) (asserted : Bool) :
    (s.switchChange asserted).pending = s.pending ∧ (s.switchChange asserted).phase = s.phase ∧
    (s.switchChange asserted).bus = s.bus ∧ (s.switchChange asserted).weigh = s.weigh ∧
    (s.switchChange asserted).capture = s.capture ∧ (s.switchChange asserted).bridge = s.bridge ∧
    (s.switchChange asserted).axles = s.axles ∧ (s.switchChange asserted).visits = s.visits ∧
    (s.switchChange asserted).inUse = s.inUse ∧ (s.switchChange asserted).tares = s.tares ∧
    (s.switchChange asserted).tickets = s.tickets ∧ (s.switchChange asserted).audit = s.audit ∧
    (s.switchChange asserted).run = s.run ∧ (s.switchChange asserted).faults = s.faults ∧
    (s.switchChange asserted).site = s.site ∧ (s.switchChange asserted).clockSet = s.clockSet ∧
    (s.switchChange asserted).powered = s.powered ∧ (s.switchChange asserted).supplyGood = s.supplyGood ∧
    (s.switchChange asserted).dipTimer = s.dipTimer ∧ (s.switchChange asserted).ports = s.ports ∧
    (s.switchChange asserted).writes = s.writes ∧ (s.switchChange asserted).commitNote = s.commitNote ∧
    (s.switchChange asserted).choices = s.choices :=
  by
  unfold State.switchChange
  simp only []
  split <;> simp

/-- Leaves all but cal, staged, audit, tares, outbox, commitNote as it was. -/
@[simp] theorem State.commit_frame (s : State) (t : CalTable) :
    (s.commit t).pending = s.pending ∧ (s.commit t).phase = s.phase ∧ (s.commit t).bus = s.bus ∧
    (s.commit t).weigh = s.weigh ∧ (s.commit t).capture = s.capture ∧ (s.commit t).bridge = s.bridge ∧
    (s.commit t).axles = s.axles ∧ (s.commit t).visits = s.visits ∧ (s.commit t).inUse = s.inUse ∧
    (s.commit t).tickets = s.tickets ∧ (s.commit t).switchOn = s.switchOn ∧ (s.commit t).run = s.run ∧
    (s.commit t).evidence = s.evidence ∧ (s.commit t).faults = s.faults ∧ (s.commit t).site = s.site ∧
    (s.commit t).clockSet = s.clockSet ∧ (s.commit t).powered = s.powered ∧
    (s.commit t).supplyGood = s.supplyGood ∧ (s.commit t).dipTimer = s.dipTimer ∧
    (s.commit t).ports = s.ports ∧ (s.commit t).writes = s.writes ∧ (s.commit t).choices = s.choices :=
  by simp [State.commit]

/-- Leaves all but faults as it was. -/
@[simp] theorem State.acknowledge_frame (s : State) (k : FaultKey) :
    (s.acknowledge k).pending = s.pending ∧ (s.acknowledge k).phase = s.phase ∧ (s.acknowledge k).bus = s.bus ∧
    (s.acknowledge k).weigh = s.weigh ∧ (s.acknowledge k).capture = s.capture ∧
    (s.acknowledge k).bridge = s.bridge ∧ (s.acknowledge k).axles = s.axles ∧
    (s.acknowledge k).visits = s.visits ∧ (s.acknowledge k).inUse = s.inUse ∧
    (s.acknowledge k).tares = s.tares ∧ (s.acknowledge k).tickets = s.tickets ∧ (s.acknowledge k).cal = s.cal ∧
    (s.acknowledge k).staged = s.staged ∧ (s.acknowledge k).switchOn = s.switchOn ∧
    (s.acknowledge k).audit = s.audit ∧ (s.acknowledge k).run = s.run ∧
    (s.acknowledge k).evidence = s.evidence ∧ (s.acknowledge k).site = s.site ∧
    (s.acknowledge k).clockSet = s.clockSet ∧ (s.acknowledge k).powered = s.powered ∧
    (s.acknowledge k).supplyGood = s.supplyGood ∧ (s.acknowledge k).dipTimer = s.dipTimer ∧
    (s.acknowledge k).ports = s.ports ∧ (s.acknowledge k).writes = s.writes ∧
    (s.acknowledge k).outbox = s.outbox ∧ (s.acknowledge k).commitNote = s.commitNote ∧
    (s.acknowledge k).choices = s.choices :=
  by simp [State.acknowledge]

/-- Leaves all but faults as it was. -/
@[simp] theorem State.acknowledgeAll_frame (s : State) (l : List FaultKey) :
    (l.foldl State.acknowledge s).pending = s.pending ∧ (l.foldl State.acknowledge s).phase = s.phase ∧
    (l.foldl State.acknowledge s).bus = s.bus ∧ (l.foldl State.acknowledge s).weigh = s.weigh ∧
    (l.foldl State.acknowledge s).capture = s.capture ∧ (l.foldl State.acknowledge s).bridge = s.bridge ∧
    (l.foldl State.acknowledge s).axles = s.axles ∧ (l.foldl State.acknowledge s).visits = s.visits ∧
    (l.foldl State.acknowledge s).inUse = s.inUse ∧ (l.foldl State.acknowledge s).tares = s.tares ∧
    (l.foldl State.acknowledge s).tickets = s.tickets ∧ (l.foldl State.acknowledge s).cal = s.cal ∧
    (l.foldl State.acknowledge s).staged = s.staged ∧ (l.foldl State.acknowledge s).switchOn = s.switchOn ∧
    (l.foldl State.acknowledge s).audit = s.audit ∧ (l.foldl State.acknowledge s).run = s.run ∧
    (l.foldl State.acknowledge s).evidence = s.evidence ∧ (l.foldl State.acknowledge s).site = s.site ∧
    (l.foldl State.acknowledge s).clockSet = s.clockSet ∧ (l.foldl State.acknowledge s).powered = s.powered ∧
    (l.foldl State.acknowledge s).supplyGood = s.supplyGood ∧
    (l.foldl State.acknowledge s).dipTimer = s.dipTimer ∧ (l.foldl State.acknowledge s).ports = s.ports ∧
    (l.foldl State.acknowledge s).writes = s.writes ∧ (l.foldl State.acknowledge s).outbox = s.outbox ∧
    (l.foldl State.acknowledge s).commitNote = s.commitNote ∧ (l.foldl State.acknowledge s).choices = s.choices :=
  ⟨foldl_keeps (fun x : State => x.pending) _ (fun _ _ => by simp) _ _,
   foldl_keeps (fun x : State => x.phase) _ (fun _ _ => by simp) _ _,
   foldl_keeps (fun x : State => x.bus) _ (fun _ _ => by simp) _ _,
   foldl_keeps (fun x : State => x.weigh) _ (fun _ _ => by simp) _ _,
   foldl_keeps (fun x : State => x.capture) _ (fun _ _ => by simp) _ _,
   foldl_keeps (fun x : State => x.bridge) _ (fun _ _ => by simp) _ _,
   foldl_keeps (fun x : State => x.axles) _ (fun _ _ => by simp) _ _,
   foldl_keeps (fun x : State => x.visits) _ (fun _ _ => by simp) _ _,
   foldl_keeps (fun x : State => x.inUse) _ (fun _ _ => by simp) _ _,
   foldl_keeps (fun x : State => x.tares) _ (fun _ _ => by simp) _ _,
   foldl_keeps (fun x : State => x.tickets) _ (fun _ _ => by simp) _ _,
   foldl_keeps (fun x : State => x.cal) _ (fun _ _ => by simp) _ _,
   foldl_keeps (fun x : State => x.staged) _ (fun _ _ => by simp) _ _,
   foldl_keeps (fun x : State => x.switchOn) _ (fun _ _ => by simp) _ _,
   foldl_keeps (fun x : State => x.audit) _ (fun _ _ => by simp) _ _,
   foldl_keeps (fun x : State => x.run) _ (fun _ _ => by simp) _ _,
   foldl_keeps (fun x : State => x.evidence) _ (fun _ _ => by simp) _ _,
   foldl_keeps (fun x : State => x.site) _ (fun _ _ => by simp) _ _,
   foldl_keeps (fun x : State => x.clockSet) _ (fun _ _ => by simp) _ _,
   foldl_keeps (fun x : State => x.powered) _ (fun _ _ => by simp) _ _,
   foldl_keeps (fun x : State => x.supplyGood) _ (fun _ _ => by simp) _ _,
   foldl_keeps (fun x : State => x.dipTimer) _ (fun _ _ => by simp) _ _,
   foldl_keeps (fun x : State => x.ports) _ (fun _ _ => by simp) _ _,
   foldl_keeps (fun x : State => x.writes) _ (fun _ _ => by simp) _ _,
   foldl_keeps (fun x : State => x.outbox) _ (fun _ _ => by simp) _ _,
   foldl_keeps (fun x : State => x.commitNote) _ (fun _ _ => by simp) _ _,
   foldl_keeps (fun x : State => x.choices) _ (fun _ _ => by simp) _ _⟩

/-- Leaves all but cal, audit, outbox as it was. -/
@[simp] theorem State.unlock_frame (s : State) (code : LockCode) :
    (s.unlock code).pending = s.pending ∧ (s.unlock code).phase = s.phase ∧ (s.unlock code).bus = s.bus ∧
    (s.unlock code).weigh = s.weigh ∧ (s.unlock code).capture = s.capture ∧ (s.unlock code).bridge = s.bridge ∧
    (s.unlock code).axles = s.axles ∧ (s.unlock code).visits = s.visits ∧ (s.unlock code).inUse = s.inUse ∧
    (s.unlock code).tares = s.tares ∧ (s.unlock code).tickets = s.tickets ∧ (s.unlock code).staged = s.staged ∧
    (s.unlock code).switchOn = s.switchOn ∧ (s.unlock code).run = s.run ∧
    (s.unlock code).evidence = s.evidence ∧ (s.unlock code).faults = s.faults ∧ (s.unlock code).site = s.site ∧
    (s.unlock code).clockSet = s.clockSet ∧ (s.unlock code).powered = s.powered ∧
    (s.unlock code).supplyGood = s.supplyGood ∧ (s.unlock code).dipTimer = s.dipTimer ∧
    (s.unlock code).ports = s.ports ∧ (s.unlock code).writes = s.writes ∧
    (s.unlock code).commitNote = s.commitNote ∧ (s.unlock code).choices = s.choices :=
  by simp [State.unlock]

/-- Leaves all but visits, tares, cal, tickets, outbox, inUse, capture, bridge, axles, evidence, run, faults, ports, writes, commitNote as it was. -/
@[simp] theorem State.takeAs_frame (s : State) (r : RoundValues) (k : RoundTaker) :
    (State.takeAs r s k).pending = s.pending ∧ (State.takeAs r s k).phase = s.phase ∧
    (State.takeAs r s k).bus = s.bus ∧ (State.takeAs r s k).weigh = s.weigh ∧
    (State.takeAs r s k).staged = s.staged ∧ (State.takeAs r s k).switchOn = s.switchOn ∧
    (State.takeAs r s k).audit = s.audit ∧ (State.takeAs r s k).site = s.site ∧
    (State.takeAs r s k).clockSet = s.clockSet ∧ (State.takeAs r s k).powered = s.powered ∧
    (State.takeAs r s k).supplyGood = s.supplyGood ∧ (State.takeAs r s k).dipTimer = s.dipTimer ∧
    (State.takeAs r s k).choices = s.choices :=
  by cases k <;> simp [State.takeAs]

/-- Leaves all but visits, tares, cal, tickets, outbox, inUse, capture, bridge, axles, evidence, run, faults, ports, writes, commitNote as it was. -/
@[simp] theorem State.takersTake_frame (s : State) (r : RoundValues) (l : List RoundTaker) :
    (l.foldl (State.takeAs r) s).pending = s.pending ∧ (l.foldl (State.takeAs r) s).phase = s.phase ∧
    (l.foldl (State.takeAs r) s).bus = s.bus ∧ (l.foldl (State.takeAs r) s).weigh = s.weigh ∧
    (l.foldl (State.takeAs r) s).staged = s.staged ∧ (l.foldl (State.takeAs r) s).switchOn = s.switchOn ∧
    (l.foldl (State.takeAs r) s).audit = s.audit ∧ (l.foldl (State.takeAs r) s).site = s.site ∧
    (l.foldl (State.takeAs r) s).clockSet = s.clockSet ∧ (l.foldl (State.takeAs r) s).powered = s.powered ∧
    (l.foldl (State.takeAs r) s).supplyGood = s.supplyGood ∧
    (l.foldl (State.takeAs r) s).dipTimer = s.dipTimer ∧ (l.foldl (State.takeAs r) s).choices = s.choices :=
  ⟨foldl_keeps (fun x : State => x.pending) _ (fun _ _ => by simp) _ _,
   foldl_keeps (fun x : State => x.phase) _ (fun _ _ => by simp) _ _,
   foldl_keeps (fun x : State => x.bus) _ (fun _ _ => by simp) _ _,
   foldl_keeps (fun x : State => x.weigh) _ (fun _ _ => by simp) _ _,
   foldl_keeps (fun x : State => x.staged) _ (fun _ _ => by simp) _ _,
   foldl_keeps (fun x : State => x.switchOn) _ (fun _ _ => by simp) _ _,
   foldl_keeps (fun x : State => x.audit) _ (fun _ _ => by simp) _ _,
   foldl_keeps (fun x : State => x.site) _ (fun _ _ => by simp) _ _,
   foldl_keeps (fun x : State => x.clockSet) _ (fun _ _ => by simp) _ _,
   foldl_keeps (fun x : State => x.powered) _ (fun _ _ => by simp) _ _,
   foldl_keeps (fun x : State => x.supplyGood) _ (fun _ _ => by simp) _ _,
   foldl_keeps (fun x : State => x.dipTimer) _ (fun _ _ => by simp) _ _,
   foldl_keeps (fun x : State => x.choices) _ (fun _ _ => by simp) _ _⟩

/-- Leaves all but visits, tares, cal, tickets, outbox, inUse, capture, bridge, axles, evidence, run, faults, ports, writes, commitNote, choices as it was. -/
@[simp] theorem State.blocksTakeRound_frame (s : State) (r : RoundValues) :
    (s.blocksTakeRound r).pending = s.pending ∧ (s.blocksTakeRound r).phase = s.phase ∧
    (s.blocksTakeRound r).bus = s.bus ∧ (s.blocksTakeRound r).weigh = s.weigh ∧
    (s.blocksTakeRound r).staged = s.staged ∧ (s.blocksTakeRound r).switchOn = s.switchOn ∧
    (s.blocksTakeRound r).audit = s.audit ∧ (s.blocksTakeRound r).site = s.site ∧
    (s.blocksTakeRound r).clockSet = s.clockSet ∧ (s.blocksTakeRound r).powered = s.powered ∧
    (s.blocksTakeRound r).supplyGood = s.supplyGood ∧ (s.blocksTakeRound r).dipTimer = s.dipTimer :=
  by
  unfold State.blocksTakeRound
  repeat' split
  all_goals simp

/-- Leaves all but faults as it was. -/
@[simp] theorem State.keepLastStable_frame (s : State) (r : RoundValues) :
    (s.keepLastStable r).pending = s.pending ∧ (s.keepLastStable r).phase = s.phase ∧
    (s.keepLastStable r).bus = s.bus ∧ (s.keepLastStable r).weigh = s.weigh ∧
    (s.keepLastStable r).capture = s.capture ∧ (s.keepLastStable r).bridge = s.bridge ∧
    (s.keepLastStable r).axles = s.axles ∧ (s.keepLastStable r).visits = s.visits ∧
    (s.keepLastStable r).inUse = s.inUse ∧ (s.keepLastStable r).tares = s.tares ∧
    (s.keepLastStable r).tickets = s.tickets ∧ (s.keepLastStable r).cal = s.cal ∧
    (s.keepLastStable r).staged = s.staged ∧ (s.keepLastStable r).switchOn = s.switchOn ∧
    (s.keepLastStable r).audit = s.audit ∧ (s.keepLastStable r).run = s.run ∧
    (s.keepLastStable r).evidence = s.evidence ∧ (s.keepLastStable r).site = s.site ∧
    (s.keepLastStable r).clockSet = s.clockSet ∧ (s.keepLastStable r).powered = s.powered ∧
    (s.keepLastStable r).supplyGood = s.supplyGood ∧ (s.keepLastStable r).dipTimer = s.dipTimer ∧
    (s.keepLastStable r).ports = s.ports ∧ (s.keepLastStable r).writes = s.writes ∧
    (s.keepLastStable r).outbox = s.outbox ∧ (s.keepLastStable r).commitNote = s.commitNote ∧
    (s.keepLastStable r).choices = s.choices :=
  by
  unfold State.keepLastStable
  repeat' split
  all_goals simp

/-- Leaves all but visits, tares, cal, tickets, outbox, inUse, capture, bridge, axles, evidence, run, faults, ports, writes, commitNote, choices, weigh as it was. -/
@[simp] theorem State.issueRound_frame (s : State) :
    (s.issueRound).pending = s.pending ∧ (s.issueRound).phase = s.phase ∧ (s.issueRound).bus = s.bus ∧
    (s.issueRound).staged = s.staged ∧ (s.issueRound).switchOn = s.switchOn ∧ (s.issueRound).audit = s.audit ∧
    (s.issueRound).site = s.site ∧ (s.issueRound).clockSet = s.clockSet ∧ (s.issueRound).powered = s.powered ∧
    (s.issueRound).supplyGood = s.supplyGood ∧ (s.issueRound).dipTimer = s.dipTimer :=
  by
  unfold State.issueRound
  repeat' split
  all_goals simp

/-- Leaves all but visits, tares, cal, tickets, outbox, inUse, capture, bridge, axles, evidence, run, faults, ports, writes, commitNote, choices, weigh, bus as it was. -/
@[simp] theorem State.roundDone_frame (s : State) :
    (s.roundDone).pending = s.pending ∧ (s.roundDone).phase = s.phase ∧ (s.roundDone).staged = s.staged ∧
    (s.roundDone).switchOn = s.switchOn ∧ (s.roundDone).audit = s.audit ∧ (s.roundDone).site = s.site ∧
    (s.roundDone).clockSet = s.clockSet ∧ (s.roundDone).powered = s.powered ∧
    (s.roundDone).supplyGood = s.supplyGood ∧ (s.roundDone).dipTimer = s.dipTimer :=
  by simp [State.roundDone]

/-- Leaves all but visits, tares, cal, tickets, outbox, inUse, capture, bridge, axles, evidence, run, faults, ports, writes, commitNote, choices, weigh, bus as it was. -/
@[simp] theorem State.startRound_frame (s : State) :
    (s.startRound).pending = s.pending ∧ (s.startRound).phase = s.phase ∧ (s.startRound).staged = s.staged ∧
    (s.startRound).switchOn = s.switchOn ∧ (s.startRound).audit = s.audit ∧ (s.startRound).site = s.site ∧
    (s.startRound).clockSet = s.clockSet ∧ (s.startRound).powered = s.powered ∧
    (s.startRound).supplyGood = s.supplyGood ∧ (s.startRound).dipTimer = s.dipTimer :=
  by
  unfold State.startRound
  simp only []
  split <;> simp

/-- Leaves all but visits, tares, cal, tickets, outbox, inUse, capture, bridge, axles, evidence, run, faults, ports, writes, commitNote, choices, weigh, bus as it was. -/
@[simp] theorem State.roundEnds_frame (s : State) :
    (s.roundEnds).pending = s.pending ∧ (s.roundEnds).phase = s.phase ∧ (s.roundEnds).staged = s.staged ∧
    (s.roundEnds).switchOn = s.switchOn ∧ (s.roundEnds).audit = s.audit ∧ (s.roundEnds).site = s.site ∧
    (s.roundEnds).clockSet = s.clockSet ∧ (s.roundEnds).powered = s.powered ∧
    (s.roundEnds).supplyGood = s.supplyGood ∧ (s.roundEnds).dipTimer = s.dipTimer :=
  by
  unfold State.roundEnds
  simp only []
  split <;> simp

/-- Leaves all but visits, tares, cal, tickets, outbox, inUse, capture, bridge, axles, evidence, run, faults, ports, writes, commitNote, choices, weigh, bus as it was. -/
@[simp] theorem State.pollEnds_frame (s : State) (i : Nat) (reply : Option CellReply) :
    (s.pollEnds i reply).pending = s.pending ∧ (s.pollEnds i reply).phase = s.phase ∧
    (s.pollEnds i reply).staged = s.staged ∧ (s.pollEnds i reply).switchOn = s.switchOn ∧
    (s.pollEnds i reply).audit = s.audit ∧ (s.pollEnds i reply).site = s.site ∧
    (s.pollEnds i reply).clockSet = s.clockSet ∧ (s.pollEnds i reply).powered = s.powered ∧
    (s.pollEnds i reply).supplyGood = s.supplyGood ∧ (s.pollEnds i reply).dipTimer = s.dipTimer :=
  by
  unfold State.pollEnds
  simp only []
  split <;> simp

/-- Leaves all but visits, tares, cal, tickets, outbox, inUse, capture, bridge, axles, evidence, run, faults, ports, writes, commitNote, choices, weigh, bus as it was. -/
@[simp] theorem State.answer_frame (s : State) (a : List Octet) :
    (s.answer a).pending = s.pending ∧ (s.answer a).phase = s.phase ∧ (s.answer a).staged = s.staged ∧
    (s.answer a).switchOn = s.switchOn ∧ (s.answer a).audit = s.audit ∧ (s.answer a).site = s.site ∧
    (s.answer a).clockSet = s.clockSet ∧ (s.answer a).powered = s.powered ∧
    (s.answer a).supplyGood = s.supplyGood ∧ (s.answer a).dipTimer = s.dipTimer :=
  by
  unfold State.answer
  repeat' split
  all_goals simp

/-- Leaves all but visits, tares, cal, tickets, outbox, inUse, capture, bridge, axles, evidence, run, faults, ports, writes, commitNote, choices, weigh, bus as it was. -/
@[simp] theorem State.windowCloses_frame (s : State) :
    (s.windowCloses).pending = s.pending ∧ (s.windowCloses).phase = s.phase ∧
    (s.windowCloses).staged = s.staged ∧ (s.windowCloses).switchOn = s.switchOn ∧
    (s.windowCloses).audit = s.audit ∧ (s.windowCloses).site = s.site ∧
    (s.windowCloses).clockSet = s.clockSet ∧ (s.windowCloses).powered = s.powered ∧
    (s.windowCloses).supplyGood = s.supplyGood ∧ (s.windowCloses).dipTimer = s.dipTimer :=
  by
  unfold State.windowCloses
  repeat' split
  all_goals simp

/-- Leaves all but bus as it was. -/
@[simp] theorem State.pollSent_frame (s : State) :
    (s.pollSent).pending = s.pending ∧ (s.pollSent).phase = s.phase ∧ (s.pollSent).weigh = s.weigh ∧
    (s.pollSent).capture = s.capture ∧ (s.pollSent).bridge = s.bridge ∧ (s.pollSent).axles = s.axles ∧
    (s.pollSent).visits = s.visits ∧ (s.pollSent).inUse = s.inUse ∧ (s.pollSent).tares = s.tares ∧
    (s.pollSent).tickets = s.tickets ∧ (s.pollSent).cal = s.cal ∧ (s.pollSent).staged = s.staged ∧
    (s.pollSent).switchOn = s.switchOn ∧ (s.pollSent).audit = s.audit ∧ (s.pollSent).run = s.run ∧
    (s.pollSent).evidence = s.evidence ∧ (s.pollSent).faults = s.faults ∧ (s.pollSent).site = s.site ∧
    (s.pollSent).clockSet = s.clockSet ∧ (s.pollSent).powered = s.powered ∧
    (s.pollSent).supplyGood = s.supplyGood ∧ (s.pollSent).dipTimer = s.dipTimer ∧
    (s.pollSent).ports = s.ports ∧ (s.pollSent).writes = s.writes ∧ (s.pollSent).outbox = s.outbox ∧
    (s.pollSent).commitNote = s.commitNote ∧ (s.pollSent).choices = s.choices :=
  by
  unfold State.pollSent
  repeat' split
  all_goals simp

/-- Leaves all but visits, tares, cal, tickets, outbox, inUse, capture, bridge, axles, evidence, run, faults, ports, writes, commitNote, choices, weigh, bus as it was. -/
@[simp] theorem State.periodExpires_frame (s : State) :
    (s.periodExpires).pending = s.pending ∧ (s.periodExpires).phase = s.phase ∧
    (s.periodExpires).staged = s.staged ∧ (s.periodExpires).switchOn = s.switchOn ∧
    (s.periodExpires).audit = s.audit ∧ (s.periodExpires).site = s.site ∧
    (s.periodExpires).clockSet = s.clockSet ∧ (s.periodExpires).powered = s.powered ∧
    (s.periodExpires).supplyGood = s.supplyGood ∧ (s.periodExpires).dipTimer = s.dipTimer :=
  by
  unfold State.periodExpires
  split
  · simp
  · simp only []
    split <;> simp

/-- Leaves all but capture, bridge, run, site, powered, visits, outbox as it was. -/
@[simp] theorem State.second_frame (s : State) :
    (s.second).pending = s.pending ∧ (s.second).phase = s.phase ∧ (s.second).bus = s.bus ∧
    (s.second).weigh = s.weigh ∧ (s.second).axles = s.axles ∧ (s.second).inUse = s.inUse ∧
    (s.second).tares = s.tares ∧ (s.second).tickets = s.tickets ∧ (s.second).cal = s.cal ∧
    (s.second).staged = s.staged ∧ (s.second).switchOn = s.switchOn ∧ (s.second).audit = s.audit ∧
    (s.second).evidence = s.evidence ∧ (s.second).faults = s.faults ∧ (s.second).clockSet = s.clockSet ∧
    (s.second).supplyGood = s.supplyGood ∧ (s.second).dipTimer = s.dipTimer ∧ (s.second).ports = s.ports ∧
    (s.second).writes = s.writes ∧ (s.second).commitNote = s.commitNote ∧ (s.second).choices = s.choices :=
  by simp [State.second]

/-- Leaves all but bus, weigh, capture, outbox, run, supplyGood, dipTimer, bridge as it was. -/
@[simp] theorem State.fall_frame (s : State) :
    (s.fall).pending = s.pending ∧ (s.fall).phase = s.phase ∧ (s.fall).axles = s.axles ∧
    (s.fall).visits = s.visits ∧ (s.fall).inUse = s.inUse ∧ (s.fall).tares = s.tares ∧
    (s.fall).tickets = s.tickets ∧ (s.fall).cal = s.cal ∧ (s.fall).staged = s.staged ∧
    (s.fall).switchOn = s.switchOn ∧ (s.fall).audit = s.audit ∧ (s.fall).evidence = s.evidence ∧
    (s.fall).faults = s.faults ∧ (s.fall).site = s.site ∧ (s.fall).clockSet = s.clockSet ∧
    (s.fall).powered = s.powered ∧ (s.fall).ports = s.ports ∧ (s.fall).writes = s.writes ∧
    (s.fall).commitNote = s.commitNote ∧ (s.fall).choices = s.choices :=
  by simp [State.fall]

/-- Leaves all but visits, tares, cal, tickets, outbox, inUse, capture, bridge, axles, evidence, run, faults, ports, writes, commitNote, choices, weigh, bus, supplyGood, dipTimer as it was. -/
@[simp] theorem State.returns_frame (s : State) :
    (s.returns).pending = s.pending ∧ (s.returns).phase = s.phase ∧ (s.returns).staged = s.staged ∧
    (s.returns).switchOn = s.switchOn ∧ (s.returns).audit = s.audit ∧ (s.returns).site = s.site ∧
    (s.returns).clockSet = s.clockSet ∧ (s.returns).powered = s.powered :=
  by simp [State.returns]

/-- Leaves all but audit, visits, tares, tickets, site, evidence, cal as it was. -/
@[simp] theorem State.checkRegions_frame (s : State) (l : LostRegions) :
    (s.checkRegions l).pending = s.pending ∧ (s.checkRegions l).phase = s.phase ∧
    (s.checkRegions l).bus = s.bus ∧ (s.checkRegions l).weigh = s.weigh ∧
    (s.checkRegions l).capture = s.capture ∧ (s.checkRegions l).bridge = s.bridge ∧
    (s.checkRegions l).axles = s.axles ∧ (s.checkRegions l).inUse = s.inUse ∧
    (s.checkRegions l).staged = s.staged ∧ (s.checkRegions l).switchOn = s.switchOn ∧
    (s.checkRegions l).run = s.run ∧ (s.checkRegions l).faults = s.faults ∧
    (s.checkRegions l).clockSet = s.clockSet ∧ (s.checkRegions l).powered = s.powered ∧
    (s.checkRegions l).supplyGood = s.supplyGood ∧ (s.checkRegions l).dipTimer = s.dipTimer ∧
    (s.checkRegions l).ports = s.ports ∧ (s.checkRegions l).writes = s.writes ∧
    (s.checkRegions l).outbox = s.outbox ∧ (s.checkRegions l).commitNote = s.commitNote ∧
    (s.checkRegions l).choices = s.choices :=
  by
  unfold State.checkRegions
  simp only []
  (repeat' split) <;> simp

/-- Leaves all but audit, visits, tares, tickets, site, evidence, cal, writes as it was. -/
@[simp] theorem State.rewriteLost_frame (s : State) (l : LostRegions) :
    (s.rewriteLost l).pending = s.pending ∧ (s.rewriteLost l).phase = s.phase ∧ (s.rewriteLost l).bus = s.bus ∧
    (s.rewriteLost l).weigh = s.weigh ∧ (s.rewriteLost l).capture = s.capture ∧
    (s.rewriteLost l).bridge = s.bridge ∧ (s.rewriteLost l).axles = s.axles ∧
    (s.rewriteLost l).inUse = s.inUse ∧ (s.rewriteLost l).staged = s.staged ∧
    (s.rewriteLost l).switchOn = s.switchOn ∧ (s.rewriteLost l).run = s.run ∧
    (s.rewriteLost l).faults = s.faults ∧ (s.rewriteLost l).clockSet = s.clockSet ∧
    (s.rewriteLost l).powered = s.powered ∧ (s.rewriteLost l).supplyGood = s.supplyGood ∧
    (s.rewriteLost l).dipTimer = s.dipTimer ∧ (s.rewriteLost l).ports = s.ports ∧
    (s.rewriteLost l).outbox = s.outbox ∧ (s.rewriteLost l).commitNote = s.commitNote ∧
    (s.rewriteLost l).choices = s.choices :=
  by simp [State.rewriteLost]

/-- Leaves all but cal, writes as it was. -/
@[simp] theorem State.writeStartRecord_frame (s : State) (cause : StartCause) (l : LostRegions) :
    (s.writeStartRecord cause l).pending = s.pending ∧ (s.writeStartRecord cause l).phase = s.phase ∧
    (s.writeStartRecord cause l).bus = s.bus ∧ (s.writeStartRecord cause l).weigh = s.weigh ∧
    (s.writeStartRecord cause l).capture = s.capture ∧ (s.writeStartRecord cause l).bridge = s.bridge ∧
    (s.writeStartRecord cause l).axles = s.axles ∧ (s.writeStartRecord cause l).visits = s.visits ∧
    (s.writeStartRecord cause l).inUse = s.inUse ∧ (s.writeStartRecord cause l).tares = s.tares ∧
    (s.writeStartRecord cause l).tickets = s.tickets ∧ (s.writeStartRecord cause l).staged = s.staged ∧
    (s.writeStartRecord cause l).switchOn = s.switchOn ∧ (s.writeStartRecord cause l).audit = s.audit ∧
    (s.writeStartRecord cause l).run = s.run ∧ (s.writeStartRecord cause l).evidence = s.evidence ∧
    (s.writeStartRecord cause l).faults = s.faults ∧ (s.writeStartRecord cause l).site = s.site ∧
    (s.writeStartRecord cause l).clockSet = s.clockSet ∧ (s.writeStartRecord cause l).powered = s.powered ∧
    (s.writeStartRecord cause l).supplyGood = s.supplyGood ∧
    (s.writeStartRecord cause l).dipTimer = s.dipTimer ∧ (s.writeStartRecord cause l).ports = s.ports ∧
    (s.writeStartRecord cause l).outbox = s.outbox ∧ (s.writeStartRecord cause l).commitNote = s.commitNote ∧
    (s.writeStartRecord cause l).choices = s.choices :=
  by simp [State.writeStartRecord]

/-- Leaves all but cal, evidence, outbox as it was. -/
@[simp] theorem State.judgeAccessMarks_frame (s : State) :
    (s.judgeAccessMarks).pending = s.pending ∧ (s.judgeAccessMarks).phase = s.phase ∧
    (s.judgeAccessMarks).bus = s.bus ∧ (s.judgeAccessMarks).weigh = s.weigh ∧
    (s.judgeAccessMarks).capture = s.capture ∧ (s.judgeAccessMarks).bridge = s.bridge ∧
    (s.judgeAccessMarks).axles = s.axles ∧ (s.judgeAccessMarks).visits = s.visits ∧
    (s.judgeAccessMarks).inUse = s.inUse ∧ (s.judgeAccessMarks).tares = s.tares ∧
    (s.judgeAccessMarks).tickets = s.tickets ∧ (s.judgeAccessMarks).staged = s.staged ∧
    (s.judgeAccessMarks).switchOn = s.switchOn ∧ (s.judgeAccessMarks).audit = s.audit ∧
    (s.judgeAccessMarks).run = s.run ∧ (s.judgeAccessMarks).faults = s.faults ∧
    (s.judgeAccessMarks).site = s.site ∧ (s.judgeAccessMarks).clockSet = s.clockSet ∧
    (s.judgeAccessMarks).powered = s.powered ∧ (s.judgeAccessMarks).supplyGood = s.supplyGood ∧
    (s.judgeAccessMarks).dipTimer = s.dipTimer ∧ (s.judgeAccessMarks).ports = s.ports ∧
    (s.judgeAccessMarks).writes = s.writes ∧ (s.judgeAccessMarks).commitNote = s.commitNote ∧
    (s.judgeAccessMarks).choices = s.choices :=
  by
  unfold State.judgeAccessMarks
  simp only []
  split <;> simp

/-- Leaves all but bridge, capture, outbox, run, visits, inUse, axles, faults, ports, writes, commitNote, cal, evidence as it was. -/
@[simp] theorem State.lostRaises_frame (s : State) (l : List FaultClass) :
    (l.foldl (fun t c => event t (t.raiseFault (regionKey c) none)) s).pending = s.pending ∧
    (l.foldl (fun t c => event t (t.raiseFault (regionKey c) none)) s).phase = s.phase ∧
    (l.foldl (fun t c => event t (t.raiseFault (regionKey c) none)) s).bus = s.bus ∧
    (l.foldl (fun t c => event t (t.raiseFault (regionKey c) none)) s).weigh = s.weigh ∧
    (l.foldl (fun t c => event t (t.raiseFault (regionKey c) none)) s).tares = s.tares ∧
    (l.foldl (fun t c => event t (t.raiseFault (regionKey c) none)) s).tickets = s.tickets ∧
    (l.foldl (fun t c => event t (t.raiseFault (regionKey c) none)) s).staged = s.staged ∧
    (l.foldl (fun t c => event t (t.raiseFault (regionKey c) none)) s).switchOn = s.switchOn ∧
    (l.foldl (fun t c => event t (t.raiseFault (regionKey c) none)) s).audit = s.audit ∧
    (l.foldl (fun t c => event t (t.raiseFault (regionKey c) none)) s).site = s.site ∧
    (l.foldl (fun t c => event t (t.raiseFault (regionKey c) none)) s).clockSet = s.clockSet ∧
    (l.foldl (fun t c => event t (t.raiseFault (regionKey c) none)) s).powered = s.powered ∧
    (l.foldl (fun t c => event t (t.raiseFault (regionKey c) none)) s).supplyGood = s.supplyGood ∧
    (l.foldl (fun t c => event t (t.raiseFault (regionKey c) none)) s).dipTimer = s.dipTimer ∧
    (l.foldl (fun t c => event t (t.raiseFault (regionKey c) none)) s).choices = s.choices :=
  ⟨foldl_keeps (fun x : State => x.pending) _ (fun _ _ => by simp) _ _,
   foldl_keeps (fun x : State => x.phase) _ (fun _ _ => by simp) _ _,
   foldl_keeps (fun x : State => x.bus) _ (fun _ _ => by simp) _ _,
   foldl_keeps (fun x : State => x.weigh) _ (fun _ _ => by simp) _ _,
   foldl_keeps (fun x : State => x.tares) _ (fun _ _ => by simp) _ _,
   foldl_keeps (fun x : State => x.tickets) _ (fun _ _ => by simp) _ _,
   foldl_keeps (fun x : State => x.staged) _ (fun _ _ => by simp) _ _,
   foldl_keeps (fun x : State => x.switchOn) _ (fun _ _ => by simp) _ _,
   foldl_keeps (fun x : State => x.audit) _ (fun _ _ => by simp) _ _,
   foldl_keeps (fun x : State => x.site) _ (fun _ _ => by simp) _ _,
   foldl_keeps (fun x : State => x.clockSet) _ (fun _ _ => by simp) _ _,
   foldl_keeps (fun x : State => x.powered) _ (fun _ _ => by simp) _ _,
   foldl_keeps (fun x : State => x.supplyGood) _ (fun _ _ => by simp) _ _,
   foldl_keeps (fun x : State => x.dipTimer) _ (fun _ _ => by simp) _ _,
   foldl_keeps (fun x : State => x.choices) _ (fun _ _ => by simp) _ _⟩

/-- Leaves all but ports, phase as it was. -/
@[simp] theorem State.replySent_frame (s : State) (p : Port) :
    (s.replySent p).pending = s.pending ∧ (s.replySent p).bus = s.bus ∧ (s.replySent p).weigh = s.weigh ∧
    (s.replySent p).capture = s.capture ∧ (s.replySent p).bridge = s.bridge ∧ (s.replySent p).axles = s.axles ∧
    (s.replySent p).visits = s.visits ∧ (s.replySent p).inUse = s.inUse ∧ (s.replySent p).tares = s.tares ∧
    (s.replySent p).tickets = s.tickets ∧ (s.replySent p).cal = s.cal ∧ (s.replySent p).staged = s.staged ∧
    (s.replySent p).switchOn = s.switchOn ∧ (s.replySent p).audit = s.audit ∧ (s.replySent p).run = s.run ∧
    (s.replySent p).evidence = s.evidence ∧ (s.replySent p).faults = s.faults ∧ (s.replySent p).site = s.site ∧
    (s.replySent p).clockSet = s.clockSet ∧ (s.replySent p).powered = s.powered ∧
    (s.replySent p).supplyGood = s.supplyGood ∧ (s.replySent p).dipTimer = s.dipTimer ∧
    (s.replySent p).writes = s.writes ∧ (s.replySent p).outbox = s.outbox ∧
    (s.replySent p).commitNote = s.commitNote ∧ (s.replySent p).choices = s.choices :=
  by
  unfold State.replySent
  split
  · simp
  · simp only []
    split <;> simp

/-- Leaves all but writes as it was. -/
@[simp] theorem State.writeCompletes_frame (s : State) :
    (s.writeCompletes).pending = s.pending ∧ (s.writeCompletes).phase = s.phase ∧
    (s.writeCompletes).bus = s.bus ∧ (s.writeCompletes).weigh = s.weigh ∧
    (s.writeCompletes).capture = s.capture ∧ (s.writeCompletes).bridge = s.bridge ∧
    (s.writeCompletes).axles = s.axles ∧ (s.writeCompletes).visits = s.visits ∧
    (s.writeCompletes).inUse = s.inUse ∧ (s.writeCompletes).tares = s.tares ∧
    (s.writeCompletes).tickets = s.tickets ∧ (s.writeCompletes).cal = s.cal ∧
    (s.writeCompletes).staged = s.staged ∧ (s.writeCompletes).switchOn = s.switchOn ∧
    (s.writeCompletes).audit = s.audit ∧ (s.writeCompletes).run = s.run ∧
    (s.writeCompletes).evidence = s.evidence ∧ (s.writeCompletes).faults = s.faults ∧
    (s.writeCompletes).site = s.site ∧ (s.writeCompletes).clockSet = s.clockSet ∧
    (s.writeCompletes).powered = s.powered ∧ (s.writeCompletes).supplyGood = s.supplyGood ∧
    (s.writeCompletes).dipTimer = s.dipTimer ∧ (s.writeCompletes).ports = s.ports ∧
    (s.writeCompletes).outbox = s.outbox ∧ (s.writeCompletes).commitNote = s.commitNote ∧
    (s.writeCompletes).choices = s.choices :=
  by
  unfold State.writeCompletes
  repeat' split
  all_goals simp

/-- Leaves all but writes, outbox, ports as it was. -/
@[simp] theorem State.commitCompletes_frame (s : State) :
    (s.commitCompletes).pending = s.pending ∧ (s.commitCompletes).phase = s.phase ∧
    (s.commitCompletes).bus = s.bus ∧ (s.commitCompletes).weigh = s.weigh ∧
    (s.commitCompletes).capture = s.capture ∧ (s.commitCompletes).bridge = s.bridge ∧
    (s.commitCompletes).axles = s.axles ∧ (s.commitCompletes).visits = s.visits ∧
    (s.commitCompletes).inUse = s.inUse ∧ (s.commitCompletes).tares = s.tares ∧
    (s.commitCompletes).tickets = s.tickets ∧ (s.commitCompletes).cal = s.cal ∧
    (s.commitCompletes).staged = s.staged ∧ (s.commitCompletes).switchOn = s.switchOn ∧
    (s.commitCompletes).audit = s.audit ∧ (s.commitCompletes).run = s.run ∧
    (s.commitCompletes).evidence = s.evidence ∧ (s.commitCompletes).faults = s.faults ∧
    (s.commitCompletes).site = s.site ∧ (s.commitCompletes).clockSet = s.clockSet ∧
    (s.commitCompletes).powered = s.powered ∧ (s.commitCompletes).supplyGood = s.supplyGood ∧
    (s.commitCompletes).dipTimer = s.dipTimer ∧ (s.commitCompletes).commitNote = s.commitNote ∧
    (s.commitCompletes).choices = s.choices :=
  by
  unfold State.commitCompletes
  repeat' split
  all_goals simp

end Sys2Proof.Machine
end

