-- ==== Sys2Proof/Laws/Ops.lean ====
section
/-! SUPPORT. What each shared operation can do, said once: the numbered tables, the calendar's and the queues' small
operations, retained writes, and the settling of an event. -/

namespace Sys2Proof.Machine

/-! ### Numbered tables -/

@[simp] theorem Table.get?_nil {α : Type} (k : Nat) : Table.get? ([] : Table α) k = none := rfl

/-- What is set is read. -/
@[simp] theorem Table.get?_set_self {α : Type} (t : Table α) (k : Nat) (a : α) : Table.get? (Table.set t k a) k = some a := by
  induction t with
  | nil => simp [Table.set, Table.get?]
  | cons e rest ih =>
    obtain ⟨j, b⟩ := e
    unfold Table.set
    split
    · simp [Table.get?]
    · split
      · simp [Table.get?]
      · rename_i h1 h2
        simp [Table.get?, ih, show j ≠ k from fun h => h2 h.symm]

/-- Setting one key leaves what every other key reads. -/
theorem Table.get?_set_other {α : Type} (t : Table α) {k j : Nat} (a : α) (h : j ≠ k) :
    Table.get? (Table.set t k a) j = Table.get? t j := by
  induction t with
  | nil => simp [Table.set, Table.get?, Ne.symm h]
  | cons e rest ih =>
    obtain ⟨i, b⟩ := e
    unfold Table.set
    split
    · simp [Table.get?, Ne.symm h]
    · split
      · rename_i h1 h2
        subst h2
        simp [Table.get?, Ne.symm h]
      · simp [Table.get?, ih]

/-- What is erased is not listed. -/
@[simp] theorem Table.get?_erase_self {α : Type} (t : Table α) (k : Nat) : Table.get? (Table.erase t k) k = none := by
  induction t with
  | nil => rfl
  | cons e rest ih =>
    obtain ⟨j, b⟩ := e
    unfold Table.erase
    split
    · exact ih
    · rename_i h
      simp [Table.get?, h, ih]

/-- Erasing one key leaves what every other key reads. -/
theorem Table.get?_erase_other {α : Type} (t : Table α) {k j : Nat} (h : j ≠ k) :
    Table.get? (Table.erase t k) j = Table.get? t j := by
  induction t with
  | nil => rfl
  | cons e rest ih =>
    obtain ⟨i, b⟩ := e
    unfold Table.erase
    split
    · rename_i hi
      subst hi
      simp [Table.get?, Ne.symm h, ih]
    · simp [Table.get?, ih]

/-- The entry found is listed. -/
theorem Table.mem_of_get? {α : Type} {t : Table α} {k : Nat} {a : α} (h : Table.get? t k = some a) : (k, a) ∈ t := by
  induction t with
  | nil => cases h
  | cons e rest ih =>
    obtain ⟨j, b⟩ := e
    simp only [Table.get?] at h
    split at h
    · rename_i hj
      cases h
      simp [hj]
    · exact List.mem_cons_of_mem _ (ih h)

theorem Table.sortedFrom_cons {α : Type} (low : Option Nat) (j : Nat) (b : α) (rest : Table α) :
    Table.sortedFrom low ((j, b) :: rest) = true ↔
      (∀ l, low = some l → l < j) ∧ Table.sortedFrom (some j) rest = true := by
  cases low <;> simp [Table.sortedFrom]

/-- A lower bound may be lowered. -/
theorem Table.sortedFrom_weaken {α : Type} {t : Table α} {low : Option Nat} {m : Nat} (hl : ∀ l, low = some l → l ≤ m)
    (h : Table.sortedFrom (some m) t = true) : Table.sortedFrom low t = true := by
  cases t with
  | nil => rfl
  | cons e rest =>
    rw [Table.sortedFrom_cons] at h ⊢
    exact ⟨fun l hlow => Nat.lt_of_le_of_lt (hl l hlow) (h.1 m rfl), h.2⟩

theorem Table.sortedFrom_set {α : Type} (t : Table α) (k : Nat) (a : α) (low : Option Nat)
    (hl : ∀ l, low = some l → l < k) (hs : Table.sortedFrom low t = true) :
    Table.sortedFrom low (Table.set t k a) = true := by
  induction t generalizing low with
  | nil =>
    unfold Table.set
    rw [Table.sortedFrom_cons]
    exact ⟨hl, rfl⟩
  | cons e rest ih =>
    obtain ⟨j, b⟩ := e
    rw [Table.sortedFrom_cons] at hs
    unfold Table.set
    split
    · rename_i hlt
      rw [Table.sortedFrom_cons, Table.sortedFrom_cons]
      exact ⟨hl, fun l h => by cases h; exact hlt, hs.2⟩
    · split
      · rename_i _ hkj
        subst hkj
        rw [Table.sortedFrom_cons]
        exact hs
      · rename_i h1 h2
        rw [Table.sortedFrom_cons]
        exact ⟨hs.1, ih (some j) (fun l h => by cases h; omega) hs.2⟩

/-- Setting a key keeps the canonical form. -/
theorem Table.sorted_set {α : Type} (t : Table α) (k : Nat) (a : α) (h : Table.sorted t = true) :
    Table.sorted (Table.set t k a) = true :=
  Table.sortedFrom_set t k a none (fun _ h => by cases h) h

theorem Table.sortedFrom_erase {α : Type} (t : Table α) (k : Nat) (low : Option Nat)
    (hs : Table.sortedFrom low t = true) : Table.sortedFrom low (Table.erase t k) = true := by
  induction t generalizing low with
  | nil => rfl
  | cons e rest ih =>
    obtain ⟨j, b⟩ := e
    rw [Table.sortedFrom_cons] at hs
    unfold Table.erase
    split
    · exact ih low (Table.sortedFrom_weaken (fun l h => Nat.le_of_lt (hs.1 l h)) hs.2)
    · rw [Table.sortedFrom_cons]
      exact ⟨hs.1, ih (some j) hs.2⟩

/-- Erasing a key keeps the canonical form. -/
theorem Table.sorted_erase {α : Type} (t : Table α) (k : Nat) (h : Table.sorted t = true) :
    Table.sorted (Table.erase t k) = true := Table.sortedFrom_erase t k none h

/-- The number found free is not a key and lies below the bound. -/
theorem Table.firstFree_spec {α : Type} {t : Table α} {bound k : Nat} (h : Table.firstFree t bound = some k) :
    k < bound ∧ Table.get? t k = none ∧ ∀ j < k, (Table.get? t j).isSome = true := by
  have key : ∀ (fuel start : Nat), Table.firstFreeFrom t start fuel = some k →
      start ≤ k ∧ k < start + fuel ∧ Table.get? t k = none ∧ ∀ j, start ≤ j → j < k → (Table.get? t j).isSome = true := by
    intro fuel
    induction fuel with
    | zero => intro start hs; cases hs
    | succ n ih =>
      intro start hs
      simp only [Table.firstFreeFrom] at hs
      split at hs
      · rename_i hn
        cases hs
        exact ⟨Nat.le_refl _, by omega, by simpa using hn, by intro j h1 h2; omega⟩
      · rename_i hn
        obtain ⟨h1, h2, h3, h4⟩ := ih (start + 1) hs
        refine ⟨by omega, by omega, h3, ?_⟩
        intro j hj1 hj2
        by_cases hj : j = start
        · subst hj
          cases hg : Table.get? t j with
          | none => simp [hg] at hn
          | some a => rfl
        · exact h4 j (by omega) hj2
  obtain ⟨_, h2, h3, h4⟩ := key bound 0 h
  exact ⟨by omega, h3, fun j hj => h4 j (Nat.zero_le _) hj⟩

/-! ### Checks in order -/

@[simp] theorem refusal_nil : refusal [] = none := rfl

@[simp] theorem refusal_cons (b : Bool) (c : Status) (rest : List (Bool × Status)) :
    refusal ((b, c) :: rest) = if b then some c else refusal rest := rfl

/-! ### Notices -/

/-- R197: a queue that holds at most 16 notices still does after one more is brought. -/
theorem PortState.push_length (q : PortState) (n : Notice) (h : q.notices.length ≤ 16) :
    (q.push n).notices.length ≤ 16 := by
  unfold PortState.push
  split
  · simp only [List.length_append, List.length_cons, List.length_nil]
    omega
  · exact h

@[simp] theorem PortState.push_replies (q : PortState) (n : Notice) : (q.push n).replies = q.replies := by
  unfold PortState.push
  split <;> rfl

@[simp] theorem PortState.push_receiver (q : PortState) (n : Notice) : (q.push n).receiver = q.receiver := by
  unfold PortState.push
  split <;> rfl

/-- Notices brought to a queue one after another leave its receiver and replies and keep its bound. -/
theorem PortState.pushAll_spec (ns : List Notice) (q : PortState) :
    (ns.foldl PortState.push q).replies = q.replies ∧ (ns.foldl PortState.push q).receiver = q.receiver ∧
      (q.notices.length ≤ 16 → (ns.foldl PortState.push q).notices.length ≤ 16) := by
  induction ns generalizing q with
  | nil => exact ⟨rfl, rfl, id⟩
  | cons n rest ih =>
    obtain ⟨h1, h2, h3⟩ := ih (q.push n)
    exact ⟨by simpa using h1, by simpa using h2, fun h => h3 (q.push_length n h)⟩

/-- What the end of an event does to a port: the notices for it are brought to its queue in ascending number. -/
theorem State.flush_port (s : State) (p : Port) :
    s.flush.port p = (sortNotices (outboxFor s.outbox p)).foldl PortState.push (s.port p) := by
  cases p <;> rfl

/-- An event without notices leaves the ports. -/
theorem State.flush_of_empty (s : State) (h : s.outbox = []) : s.flush = s := by
  unfold State.flush
  rw [h]
  simp only [outboxFor, sortNotices, List.filter_nil, List.map_nil, List.foldl_nil]
  rw [← h]

/-- The end of an event leaves every port's receiver and replies. -/
@[simp] theorem State.flush_replies (s : State) (p : Port) : (s.flush.port p).replies = (s.port p).replies := by
  rw [State.flush_port]
  exact (PortState.pushAll_spec _ _).1

@[simp] theorem State.flush_receiver (s : State) (p : Port) : (s.flush.port p).receiver = (s.port p).receiver := by
  rw [State.flush_port]
  exact (PortState.pushAll_spec _ _).2.1

/-! ### Retained writes (R203) -/

/-- What an event's retained write can change: the list of writes and the note of a commit. -/
theorem retain_spec (s t : State) :
    retain s t = { t with writes := (retain s t).writes, commitNote := none } ∧
      ((changedRegions s t = [] ∧ t.commitNote = none ∧ (retain s t).writes = t.writes) ∨
        (retain s t).writes = t.writes ++ [{ regions := changedRegions s t, commit := t.commitNote }]) := by
  unfold retain
  split
  · rename_i h
    simp only [Bool.and_eq_true, List.isEmpty_iff, Option.isNone_iff_eq_none] at h
    exact ⟨by rw [← h.2], Or.inl ⟨h.1, h.2, rfl⟩⟩
  · exact ⟨rfl, Or.inr rfl⟩

/-- An event that touches no retained region and commits nothing begins no retained write. -/
theorem retain_of_untouched {s t : State} (h : changedRegions s t = []) (hn : t.commitNote = none) : retain s t = t := by
  simp [retain, h, hn]

/-- The regions that an event leaves are not among those it writes. -/
theorem changedRegions_same {s t : State} (h1 : t.cal = s.cal) (h2 : t.audit = s.audit) (h3 : t.visits = s.visits)
    (h4 : t.tares = s.tares) (h5 : t.tickets = s.tickets) (h6 : t.site = s.site) (h7 : t.evidence = s.evidence) :
    changedRegions s t = [] := by
  simp [changedRegions, h1, h2, h3, h4, h5, h6, h7]

/-! ### The settling of an event -/

/-- A report of absence where the condition is absent changes nothing. -/
theorem State.clearFault_of_absent {s : State} {k : FaultKey} (h : (s.faultEntry k).present = false) :
    s.clearFault k = s := by
  simp [State.clearFault, h]

theorem State.setFeedback_same (s : State) (e : BridgeEnd) (on : Bool) (h : s.bridge.feedback e = on) :
    s.setFeedback e on = s := by
  cases e <;> (simp only [Bridge.feedback] at h; subst h; rfl)

/-- The lamp comparison of an end that has been made changes nothing. -/
theorem State.compareLamps_of_settled {s : State} {e : BridgeEnd} (h : s.lampsSettled e = true) :
    s.compareLamps e = s := by
  unfold State.lampsSettled at h
  unfold State.compareLamps
  split
  · rename_i hm
    simp only [hm, if_true, Bool.and_eq_true, Bool.not_eq_true'] at h
    rw [State.setFeedback_same _ _ _ h.1, State.clearFault_of_absent h.2]
  · rename_i hm
    simp only [hm, Bool.false_eq_true, if_false, Bool.or_eq_true] at h
    split
    · rfl
    · rename_i hp
      exact State.setFeedback_same _ _ _ (h.resolve_right hp)

/-- What `bridgeSettled` says, clause by clause. -/
theorem State.bridgeSettled_iff (s : State) :
    s.bridgeSettled = true ↔
      s.bridge.holds.metrology = (s.accessOpen || s.run.isSome || s.bridge.holds.manual) ∧
      s.bridge.holds.fault = s.faultJudged ∧
      (s.bridge.state = .free → s.held = false → s.bridge.waiting = []) ∧
      s.bridge.aspectA = s.bridge.aspectFor .a ∧ s.bridge.aspectB = s.bridge.aspectFor .b ∧
      s.lampsSettled .a = true ∧ s.lampsSettled .b = true := by
  unfold State.bridgeSettled
  simp only [Bool.and_eq_true, List.isEmpty_iff, beq_iff_eq, Bool.or_eq_true, bne_iff_ne, ne_eq, and_assoc]
  constructor
  · rintro ⟨h2, h3, h4, h5⟩
    refine ⟨h2, h3, ?_, h5⟩
    intro hf hh
    rcases h4 with (h4 | h4) | h4
    · exact absurd hf h4
    · simp [hh] at h4
    · exact h4
  · rintro ⟨h2, h3, h4, h5⟩
    refine ⟨h2, h3, ?_, h5⟩
    by_cases hf : s.bridge.state = .free
    · cases hh : s.held with
      | true => exact Or.inl (Or.inr rfl)
      | false => exact Or.inr (h4 hf hh)
    · exact Or.inl (Or.inl hf)

/-- What `settled` says. -/
theorem State.settled_iff (s : State) : s.settled = true ↔ s.outbox = [] ∧ s.bridgeSettled = true := by
  simp [State.settled]

/-- Settling a settled bridge, from the hold set it has, changes nothing. -/
theorem State.settle_of_settled {u : State} {before : Holds} (h : u.bridgeSettled = true)
    (hh : u.bridge.holds = before) : u.settle before = u := by
  obtain ⟨h2, h3, h4, h5, h6, h7, h8⟩ := (State.bridgeSettled_iff u).1 h
  have hj : u.judgeSources = u := by
    unfold State.judgeSources
    rw [← h2, ← h3]
  have hf : u.followHold before = u := by
    unfold State.followHold
    rw [← hh]
    cases hx : u.held <;> simp_all [State.held]
  have hp : u.followPointSources before = u := by
    unfold State.followPointSources
    rw [← hh]
    simp
  have hg : u.grantIfDue = u := by
    unfold State.grantIfDue
    split
    · rename_i hc
      simp only [Bool.and_eq_true, decide_eq_true_eq, Bool.not_eq_true'] at hc
      rw [h4 hc.1 hc.2]
      rfl
    · rfl
  have hr : u.recommand = u := by
    have he : ({ u with bridge.aspectA := u.bridge.aspectFor .a, bridge.aspectB := u.bridge.aspectFor .b } : State) = u := by
      rw [← h5, ← h6]
    unfold State.recommand
    rw [he]
    simp only []
    rw [State.compareLamps_of_settled h7, State.compareLamps_of_settled h8]
  have hs : u.settlePass before = u := by
    unfold State.settlePass
    rw [hj, hf, hp, hg, hr]
  unfold State.settle
  rw [hs]
  simp [h3]

/-- An event that leaves the bridge settled, with the hold set it began with, ends with its notices queued and
its retained write begun. -/
theorem event_of_bridgeSettled {s u : State} (h : u.bridgeSettled = true) (hh : u.bridge.holds = s.bridge.holds) :
    event s u = retain s u.flush := by
  unfold event
  rw [State.settle_of_settled h hh]

/-- The event of a state that is settled already, with the hold set it began with, begins its retained write alone. -/
theorem event_of_settled {s u : State} (h : u.settled = true) (hh : u.bridge.holds = s.bridge.holds) :
    event s u = retain s u := by
  obtain ⟨h1, h2⟩ := (State.settled_iff u).1 h
  rw [event_of_bridgeSettled h2 hh, State.flush_of_empty u h1]

/-- Whether the bridge is settled depends on the bridge, access, the run, the register, the CALIBRATION region's flag
and lockout, and the policies alone. -/
theorem State.bridgeSettled_congr {s t : State} (h1 : t.bridge = s.bridge) (h2 : t.staged.isSome = s.staged.isSome)
    (h3 : t.run.isSome = s.run.isSome) (h4 : t.faults.register = s.faults.register) (h5 : t.cal.flag = s.cal.flag)
    (h6 : t.cal.lockout = s.cal.lockout) (h7 : t.site.policies = s.site.policies) :
    t.bridgeSettled = s.bridgeSettled := by
  have hp : ∀ c, t.policy c = s.policy c := by
    intro c
    cases c <;> simp [State.policy, h7]
  simp [State.bridgeSettled, State.accessOpen, State.held, State.faultJudged, State.heldByPresent, State.heldByMark,
    State.flagSet, State.locked, State.lampsSettled, State.faultEntry, h1, h2, h3, h4, h5, h6, hp]

end Sys2Proof.Machine
end

