-- ==== Sys2Proof/WellFormed.lean ====
section
/-! DEFINITION. Which commands the outside of the block can present: what a bus answer, a frame and a table position
must be. A command that is not well formed still has a meaning (exec is total). -/

namespace Sys2Proof

/-- Whether a payload fits the length octet of a frame: at most 240 octets (R192). -/
def payloadFits (payload : List Octet) : Bool := decide (payload.length ≤ 240)

/-- Well-formed operands, one arm for each constructor. -/
def Instr.wf : Instr → Bool
  | .cellAnswer answer => decide (answer.length = 11) && (answer.head? == some 0x5A#8)
  | .replyWindowClose => true
  | .roundPeriodExpiry => true
  | .treadleEvent _ _ => true
  | .lampFeedbackChange _ _ => true
  | .feedbackTimerExpiry _ => true
  | .calibrationSwitchChange _ => true
  | .supplyFall => true
  | .supplyReturn => true
  | .dipTimerExpiry => true
  | .powerOn => true
  | .resetLine => true
  | .startSequence _ => true
  | .captureTimeout => true
  | .grantTimerExpiry => true
  | .quietTimerExpiry => true
  | .trackingTimerExpiry => true
  | .testPointTimeout => true
  | .poweredSecond => true
  | .visitTimeout position => decide (position < 256)
  | .frameGapTimeout _ => true
  | .badFrame _ => true
  | .unknownKind _ kind _ payload => (Machine.catalogueRow kind.toNat).isNone && payloadFits payload
  | .replySent _ => true
  | .retainedWriteComplete => true
  | .commitWriteComplete => true
  | .pollSent => true
  | .octetReceived _ _ => true
  | .fetchNotice _ _ payload => payloadFits payload
  | .setSiteTime _ _ payload => payloadFits payload
  | .readSiteTime _ _ payload => payloadFits payload
  | .writeSiteSetting _ _ payload => payloadFits payload
  | .readSiteSettings _ _ payload => payloadFits payload
  | .readCell _ _ payload => payloadFits payload
  | .readBusStatus _ _ payload => payloadFits payload
  | .readLiveWeight _ _ payload => payloadFits payload
  | .readDeckValues _ _ payload => payloadFits payload
  | .zeroSet _ _ payload => payloadFits payload
  | .requestCapture _ _ payload => payloadFits payload
  | .readCapture _ _ payload => payloadFits payload
  | .reportArrival _ _ payload => payloadFits payload
  | .withdrawArrival _ _ payload => payloadFits payload
  | .releaseVehicle _ _ payload => payloadFits payload
  | .clearBridge _ _ payload => payloadFits payload
  | .holdBridge _ _ payload => payloadFits payload
  | .releaseHold _ _ payload => payloadFits payload
  | .readBridge _ _ payload => payloadFits payload
  | .writeConfiguration _ _ payload => payloadFits payload
  | .clearConfiguration _ _ payload => payloadFits payload
  | .readConfiguration _ _ payload => payloadFits payload
  | .restartWeighing _ _ payload => payloadFits payload
  | .readAxles _ _ payload => payloadFits payload
  | .releaseTrace _ _ payload => payloadFits payload
  | .readTrace _ _ payload => payloadFits payload
  | .expireVisits _ _ payload => payloadFits payload
  | .openVisit _ _ payload => payloadFits payload
  | .amendVisit _ _ payload => payloadFits payload
  | .cancelVisit _ _ payload => payloadFits payload
  | .readVisit _ _ payload => payloadFits payload
  | .listVisits _ _ payload => payloadFits payload
  | .checkTare _ _ payload => payloadFits payload
  | .keyTare _ _ payload => payloadFits payload
  | .flushTares _ _ payload => payloadFits payload
  | .deleteTare _ _ payload => payloadFits payload
  | .readTareSlot _ _ payload => payloadFits payload
  | .readTicketSequence _ _ payload => payloadFits payload
  | .rollTicketSeries _ _ payload => payloadFits payload
  | .collectTickets _ _ payload => payloadFits payload
  | .readTicket _ _ payload => payloadFits payload
  | .readTicketRing _ _ payload => payloadFits payload
  | .closeShift _ _ payload => payloadFits payload
  | .readTotals _ _ payload => payloadFits payload
  | .readLastShift _ _ payload => payloadFits payload
  | .openCalibration _ _ payload => payloadFits payload
  | .writeParameter _ _ payload => payloadFits payload
  | .readParameter _ _ payload => payloadFits payload
  | .readCalibrationState _ _ payload => payloadFits payload
  | .calibrateZero _ _ payload => payloadFits payload
  | .calibrateSpan _ _ payload => payloadFits payload
  | .commitCalibration _ _ payload => payloadFits payload
  | .abandonCalibration _ _ payload => payloadFits payload
  | .readAuditRecord _ _ payload => payloadFits payload
  | .readAuditSummary _ _ payload => payloadFits payload
  | .archiveAuditRecords _ _ payload => payloadFits payload
  | .beginVerification _ _ payload => payloadFits payload
  | .testPoint _ _ payload => payloadFits payload
  | .endVerification _ _ payload => payloadFits payload
  | .abortVerification _ _ payload => payloadFits payload
  | .readVerification _ _ payload => payloadFits payload
  | .takeSnapshot _ _ payload => payloadFits payload
  | .readSnapshot _ _ payload => payloadFits payload
  | .listSnapshots _ _ payload => payloadFits payload
  | .discardSnapshot _ _ payload => payloadFits payload
  | .writeFaultPolicy _ _ payload => payloadFits payload
  | .acknowledgeMetrologicalFault _ _ payload => payloadFits payload
  | .acknowledgeFault _ _ payload => payloadFits payload
  | .clearLockout _ _ payload => payloadFits payload
  | .readFaults _ _ payload => payloadFits payload
  | .restart _ _ payload => payloadFits payload
  | .readStartCause _ _ payload => payloadFits payload

end Sys2Proof
end

