-- ==== Sys2Proof/Laws/PerInstr.lean ====
section
/-! SUPPORT. One law for each command: a well-formed request carries a payload that fits a frame and a kind that the
catalogue holds, and a well-formed frame of an unknown kind one that it does not (R192, R194, R196). -/

namespace Sys2Proof

/-- Whether a command is a good frame whose kind the catalogue does not hold. -/
def Laws.CatalogueKind.unknown : Instr → Bool
  | .unknownKind _ _ _ _ => true
  | _ => false

/-- The law: the frame of a well-formed command fits, and its kind is in the catalogue unless it is the command of the
unknown kinds. -/
def Laws.CatalogueKind.Statement (i : Instr) : Prop :=
  i.wf = true → ∀ f, Machine.frameOf i = some f →
    f.payload.length ≤ 240 ∧
    (Machine.catalogueRow f.kind).isSome = !Laws.CatalogueKind.unknown i

/-- The law of a command that is no frame. -/
theorem Laws.catalogueKind_noFrame (i : Instr) (h : Machine.frameOf i = none) : Laws.CatalogueKind.Statement i := by
  intro _ f hf
  rw [h] at hf
  cases hf

/-- The law of a request whose kind the catalogue holds. -/
theorem Laws.catalogueKind_request (i : Instr) (p : Port) (k : Nat) (tag : Octet) (payload : List Octet)
    (hf : Machine.frameOf i = some ⟨p, k, tag, payload⟩) (hw : i.wf = payloadFits payload)
    (hk : (Machine.catalogueRow k).isSome = true) (hu : Laws.CatalogueKind.unknown i = false) :
    Laws.CatalogueKind.Statement i := by
  intro hwf f h
  rw [hf] at h
  cases h
  rw [hw] at hwf
  exact ⟨by simpa [payloadFits] using hwf, by simp [hk, hu]⟩

theorem Laws.CatalogueKind.cellAnswer (answer : List Octet) :
    Laws.CatalogueKind.Statement (.cellAnswer answer) :=
  Laws.catalogueKind_noFrame _ rfl

theorem Laws.CatalogueKind.replyWindowClose :
    Laws.CatalogueKind.Statement (.replyWindowClose) :=
  Laws.catalogueKind_noFrame _ rfl

theorem Laws.CatalogueKind.roundPeriodExpiry :
    Laws.CatalogueKind.Statement (.roundPeriodExpiry) :=
  Laws.catalogueKind_noFrame _ rfl

theorem Laws.CatalogueKind.treadleEvent (treadle : BridgeEnd) (dir : AxleDir) :
    Laws.CatalogueKind.Statement (.treadleEvent treadle dir) :=
  Laws.catalogueKind_noFrame _ rfl

theorem Laws.CatalogueKind.lampFeedbackChange (e : BridgeEnd) (lit : Lamps) :
    Laws.CatalogueKind.Statement (.lampFeedbackChange e lit) :=
  Laws.catalogueKind_noFrame _ rfl

theorem Laws.CatalogueKind.feedbackTimerExpiry (e : BridgeEnd) :
    Laws.CatalogueKind.Statement (.feedbackTimerExpiry e) :=
  Laws.catalogueKind_noFrame _ rfl

theorem Laws.CatalogueKind.calibrationSwitchChange (asserted : Bool) :
    Laws.CatalogueKind.Statement (.calibrationSwitchChange asserted) :=
  Laws.catalogueKind_noFrame _ rfl

theorem Laws.CatalogueKind.supplyFall :
    Laws.CatalogueKind.Statement (.supplyFall) :=
  Laws.catalogueKind_noFrame _ rfl

theorem Laws.CatalogueKind.supplyReturn :
    Laws.CatalogueKind.Statement (.supplyReturn) :=
  Laws.catalogueKind_noFrame _ rfl

theorem Laws.CatalogueKind.dipTimerExpiry :
    Laws.CatalogueKind.Statement (.dipTimerExpiry) :=
  Laws.catalogueKind_noFrame _ rfl

theorem Laws.CatalogueKind.powerOn :
    Laws.CatalogueKind.Statement (.powerOn) :=
  Laws.catalogueKind_noFrame _ rfl

theorem Laws.CatalogueKind.resetLine :
    Laws.CatalogueKind.Statement (.resetLine) :=
  Laws.catalogueKind_noFrame _ rfl

theorem Laws.CatalogueKind.startSequence (lost : LostRegions) :
    Laws.CatalogueKind.Statement (.startSequence lost) :=
  Laws.catalogueKind_noFrame _ rfl

theorem Laws.CatalogueKind.captureTimeout :
    Laws.CatalogueKind.Statement (.captureTimeout) :=
  Laws.catalogueKind_noFrame _ rfl

theorem Laws.CatalogueKind.grantTimerExpiry :
    Laws.CatalogueKind.Statement (.grantTimerExpiry) :=
  Laws.catalogueKind_noFrame _ rfl

theorem Laws.CatalogueKind.quietTimerExpiry :
    Laws.CatalogueKind.Statement (.quietTimerExpiry) :=
  Laws.catalogueKind_noFrame _ rfl

theorem Laws.CatalogueKind.trackingTimerExpiry :
    Laws.CatalogueKind.Statement (.trackingTimerExpiry) :=
  Laws.catalogueKind_noFrame _ rfl

theorem Laws.CatalogueKind.testPointTimeout :
    Laws.CatalogueKind.Statement (.testPointTimeout) :=
  Laws.catalogueKind_noFrame _ rfl

theorem Laws.CatalogueKind.poweredSecond :
    Laws.CatalogueKind.Statement (.poweredSecond) :=
  Laws.catalogueKind_noFrame _ rfl

theorem Laws.CatalogueKind.visitTimeout (position : Nat) :
    Laws.CatalogueKind.Statement (.visitTimeout position) :=
  Laws.catalogueKind_noFrame _ rfl

theorem Laws.CatalogueKind.frameGapTimeout (port : Port) :
    Laws.CatalogueKind.Statement (.frameGapTimeout port) :=
  Laws.catalogueKind_noFrame _ rfl

theorem Laws.CatalogueKind.badFrame (port : Port) :
    Laws.CatalogueKind.Statement (.badFrame port) :=
  Laws.catalogueKind_noFrame _ rfl

theorem Laws.CatalogueKind.unknownKind (port : Port) (kind tag : Octet) (payload : List Octet) :
    Laws.CatalogueKind.Statement (.unknownKind port kind tag payload) := by
  intro hwf f h
  cases h
  simp only [Instr.wf, Bool.and_eq_true, Option.isNone_iff_eq_none] at hwf
  exact ⟨by simpa [payloadFits] using hwf.2, by simp [hwf.1, Laws.CatalogueKind.unknown]⟩

theorem Laws.CatalogueKind.replySent (port : Port) :
    Laws.CatalogueKind.Statement (.replySent port) :=
  Laws.catalogueKind_noFrame _ rfl

theorem Laws.CatalogueKind.retainedWriteComplete :
    Laws.CatalogueKind.Statement (.retainedWriteComplete) :=
  Laws.catalogueKind_noFrame _ rfl

theorem Laws.CatalogueKind.commitWriteComplete :
    Laws.CatalogueKind.Statement (.commitWriteComplete) :=
  Laws.catalogueKind_noFrame _ rfl

theorem Laws.CatalogueKind.fetchNotice (port : Port) (tag : Octet) (payload : List Octet) :
    Laws.CatalogueKind.Statement (.fetchNotice port tag payload) :=
  Laws.catalogueKind_request _ port 1 tag payload rfl rfl (by decide) rfl

theorem Laws.CatalogueKind.setSiteTime (port : Port) (tag : Octet) (payload : List Octet) :
    Laws.CatalogueKind.Statement (.setSiteTime port tag payload) :=
  Laws.catalogueKind_request _ port 2 tag payload rfl rfl (by decide) rfl

theorem Laws.CatalogueKind.readSiteTime (port : Port) (tag : Octet) (payload : List Octet) :
    Laws.CatalogueKind.Statement (.readSiteTime port tag payload) :=
  Laws.catalogueKind_request _ port 3 tag payload rfl rfl (by decide) rfl

theorem Laws.CatalogueKind.writeSiteSetting (port : Port) (tag : Octet) (payload : List Octet) :
    Laws.CatalogueKind.Statement (.writeSiteSetting port tag payload) :=
  Laws.catalogueKind_request _ port 4 tag payload rfl rfl (by decide) rfl

theorem Laws.CatalogueKind.readSiteSettings (port : Port) (tag : Octet) (payload : List Octet) :
    Laws.CatalogueKind.Statement (.readSiteSettings port tag payload) :=
  Laws.catalogueKind_request _ port 5 tag payload rfl rfl (by decide) rfl

theorem Laws.CatalogueKind.readCell (port : Port) (tag : Octet) (payload : List Octet) :
    Laws.CatalogueKind.Statement (.readCell port tag payload) :=
  Laws.catalogueKind_request _ port 10 tag payload rfl rfl (by decide) rfl

theorem Laws.CatalogueKind.readBusStatus (port : Port) (tag : Octet) (payload : List Octet) :
    Laws.CatalogueKind.Statement (.readBusStatus port tag payload) :=
  Laws.catalogueKind_request _ port 11 tag payload rfl rfl (by decide) rfl

theorem Laws.CatalogueKind.readLiveWeight (port : Port) (tag : Octet) (payload : List Octet) :
    Laws.CatalogueKind.Statement (.readLiveWeight port tag payload) :=
  Laws.catalogueKind_request _ port 12 tag payload rfl rfl (by decide) rfl

theorem Laws.CatalogueKind.readDeckValues (port : Port) (tag : Octet) (payload : List Octet) :
    Laws.CatalogueKind.Statement (.readDeckValues port tag payload) :=
  Laws.catalogueKind_request _ port 13 tag payload rfl rfl (by decide) rfl

theorem Laws.CatalogueKind.zeroSet (port : Port) (tag : Octet) (payload : List Octet) :
    Laws.CatalogueKind.Statement (.zeroSet port tag payload) :=
  Laws.catalogueKind_request _ port 14 tag payload rfl rfl (by decide) rfl

theorem Laws.CatalogueKind.requestCapture (port : Port) (tag : Octet) (payload : List Octet) :
    Laws.CatalogueKind.Statement (.requestCapture port tag payload) :=
  Laws.catalogueKind_request _ port 15 tag payload rfl rfl (by decide) rfl

theorem Laws.CatalogueKind.readCapture (port : Port) (tag : Octet) (payload : List Octet) :
    Laws.CatalogueKind.Statement (.readCapture port tag payload) :=
  Laws.catalogueKind_request _ port 16 tag payload rfl rfl (by decide) rfl

theorem Laws.CatalogueKind.reportArrival (port : Port) (tag : Octet) (payload : List Octet) :
    Laws.CatalogueKind.Statement (.reportArrival port tag payload) :=
  Laws.catalogueKind_request _ port 20 tag payload rfl rfl (by decide) rfl

theorem Laws.CatalogueKind.withdrawArrival (port : Port) (tag : Octet) (payload : List Octet) :
    Laws.CatalogueKind.Statement (.withdrawArrival port tag payload) :=
  Laws.catalogueKind_request _ port 21 tag payload rfl rfl (by decide) rfl

theorem Laws.CatalogueKind.releaseVehicle (port : Port) (tag : Octet) (payload : List Octet) :
    Laws.CatalogueKind.Statement (.releaseVehicle port tag payload) :=
  Laws.catalogueKind_request _ port 22 tag payload rfl rfl (by decide) rfl

theorem Laws.CatalogueKind.clearBridge (port : Port) (tag : Octet) (payload : List Octet) :
    Laws.CatalogueKind.Statement (.clearBridge port tag payload) :=
  Laws.catalogueKind_request _ port 23 tag payload rfl rfl (by decide) rfl

theorem Laws.CatalogueKind.holdBridge (port : Port) (tag : Octet) (payload : List Octet) :
    Laws.CatalogueKind.Statement (.holdBridge port tag payload) :=
  Laws.catalogueKind_request _ port 24 tag payload rfl rfl (by decide) rfl

theorem Laws.CatalogueKind.releaseHold (port : Port) (tag : Octet) (payload : List Octet) :
    Laws.CatalogueKind.Statement (.releaseHold port tag payload) :=
  Laws.catalogueKind_request _ port 25 tag payload rfl rfl (by decide) rfl

theorem Laws.CatalogueKind.readBridge (port : Port) (tag : Octet) (payload : List Octet) :
    Laws.CatalogueKind.Statement (.readBridge port tag payload) :=
  Laws.catalogueKind_request _ port 26 tag payload rfl rfl (by decide) rfl

theorem Laws.CatalogueKind.writeConfiguration (port : Port) (tag : Octet) (payload : List Octet) :
    Laws.CatalogueKind.Statement (.writeConfiguration port tag payload) :=
  Laws.catalogueKind_request _ port 30 tag payload rfl rfl (by decide) rfl

theorem Laws.CatalogueKind.clearConfiguration (port : Port) (tag : Octet) (payload : List Octet) :
    Laws.CatalogueKind.Statement (.clearConfiguration port tag payload) :=
  Laws.catalogueKind_request _ port 31 tag payload rfl rfl (by decide) rfl

theorem Laws.CatalogueKind.readConfiguration (port : Port) (tag : Octet) (payload : List Octet) :
    Laws.CatalogueKind.Statement (.readConfiguration port tag payload) :=
  Laws.catalogueKind_request _ port 32 tag payload rfl rfl (by decide) rfl

theorem Laws.CatalogueKind.restartWeighing (port : Port) (tag : Octet) (payload : List Octet) :
    Laws.CatalogueKind.Statement (.restartWeighing port tag payload) :=
  Laws.catalogueKind_request _ port 33 tag payload rfl rfl (by decide) rfl

theorem Laws.CatalogueKind.readAxles (port : Port) (tag : Octet) (payload : List Octet) :
    Laws.CatalogueKind.Statement (.readAxles port tag payload) :=
  Laws.catalogueKind_request _ port 34 tag payload rfl rfl (by decide) rfl

theorem Laws.CatalogueKind.releaseTrace (port : Port) (tag : Octet) (payload : List Octet) :
    Laws.CatalogueKind.Statement (.releaseTrace port tag payload) :=
  Laws.catalogueKind_request _ port 35 tag payload rfl rfl (by decide) rfl

theorem Laws.CatalogueKind.readTrace (port : Port) (tag : Octet) (payload : List Octet) :
    Laws.CatalogueKind.Statement (.readTrace port tag payload) :=
  Laws.catalogueKind_request _ port 36 tag payload rfl rfl (by decide) rfl

theorem Laws.CatalogueKind.expireVisits (port : Port) (tag : Octet) (payload : List Octet) :
    Laws.CatalogueKind.Statement (.expireVisits port tag payload) :=
  Laws.catalogueKind_request _ port 39 tag payload rfl rfl (by decide) rfl

theorem Laws.CatalogueKind.openVisit (port : Port) (tag : Octet) (payload : List Octet) :
    Laws.CatalogueKind.Statement (.openVisit port tag payload) :=
  Laws.catalogueKind_request _ port 40 tag payload rfl rfl (by decide) rfl

theorem Laws.CatalogueKind.amendVisit (port : Port) (tag : Octet) (payload : List Octet) :
    Laws.CatalogueKind.Statement (.amendVisit port tag payload) :=
  Laws.catalogueKind_request _ port 41 tag payload rfl rfl (by decide) rfl

theorem Laws.CatalogueKind.cancelVisit (port : Port) (tag : Octet) (payload : List Octet) :
    Laws.CatalogueKind.Statement (.cancelVisit port tag payload) :=
  Laws.catalogueKind_request _ port 42 tag payload rfl rfl (by decide) rfl

theorem Laws.CatalogueKind.readVisit (port : Port) (tag : Octet) (payload : List Octet) :
    Laws.CatalogueKind.Statement (.readVisit port tag payload) :=
  Laws.catalogueKind_request _ port 43 tag payload rfl rfl (by decide) rfl

theorem Laws.CatalogueKind.listVisits (port : Port) (tag : Octet) (payload : List Octet) :
    Laws.CatalogueKind.Statement (.listVisits port tag payload) :=
  Laws.catalogueKind_request _ port 44 tag payload rfl rfl (by decide) rfl

theorem Laws.CatalogueKind.checkTare (port : Port) (tag : Octet) (payload : List Octet) :
    Laws.CatalogueKind.Statement (.checkTare port tag payload) :=
  Laws.catalogueKind_request _ port 45 tag payload rfl rfl (by decide) rfl

theorem Laws.CatalogueKind.keyTare (port : Port) (tag : Octet) (payload : List Octet) :
    Laws.CatalogueKind.Statement (.keyTare port tag payload) :=
  Laws.catalogueKind_request _ port 46 tag payload rfl rfl (by decide) rfl

theorem Laws.CatalogueKind.flushTares (port : Port) (tag : Octet) (payload : List Octet) :
    Laws.CatalogueKind.Statement (.flushTares port tag payload) :=
  Laws.catalogueKind_request _ port 47 tag payload rfl rfl (by decide) rfl

theorem Laws.CatalogueKind.deleteTare (port : Port) (tag : Octet) (payload : List Octet) :
    Laws.CatalogueKind.Statement (.deleteTare port tag payload) :=
  Laws.catalogueKind_request _ port 48 tag payload rfl rfl (by decide) rfl

theorem Laws.CatalogueKind.readTareSlot (port : Port) (tag : Octet) (payload : List Octet) :
    Laws.CatalogueKind.Statement (.readTareSlot port tag payload) :=
  Laws.catalogueKind_request _ port 49 tag payload rfl rfl (by decide) rfl

theorem Laws.CatalogueKind.readTicketSequence (port : Port) (tag : Octet) (payload : List Octet) :
    Laws.CatalogueKind.Statement (.readTicketSequence port tag payload) :=
  Laws.catalogueKind_request _ port 50 tag payload rfl rfl (by decide) rfl

theorem Laws.CatalogueKind.rollTicketSeries (port : Port) (tag : Octet) (payload : List Octet) :
    Laws.CatalogueKind.Statement (.rollTicketSeries port tag payload) :=
  Laws.catalogueKind_request _ port 51 tag payload rfl rfl (by decide) rfl

theorem Laws.CatalogueKind.collectTickets (port : Port) (tag : Octet) (payload : List Octet) :
    Laws.CatalogueKind.Statement (.collectTickets port tag payload) :=
  Laws.catalogueKind_request _ port 52 tag payload rfl rfl (by decide) rfl

theorem Laws.CatalogueKind.readTicket (port : Port) (tag : Octet) (payload : List Octet) :
    Laws.CatalogueKind.Statement (.readTicket port tag payload) :=
  Laws.catalogueKind_request _ port 53 tag payload rfl rfl (by decide) rfl

theorem Laws.CatalogueKind.readTicketRing (port : Port) (tag : Octet) (payload : List Octet) :
    Laws.CatalogueKind.Statement (.readTicketRing port tag payload) :=
  Laws.catalogueKind_request _ port 54 tag payload rfl rfl (by decide) rfl

theorem Laws.CatalogueKind.closeShift (port : Port) (tag : Octet) (payload : List Octet) :
    Laws.CatalogueKind.Statement (.closeShift port tag payload) :=
  Laws.catalogueKind_request _ port 55 tag payload rfl rfl (by decide) rfl

theorem Laws.CatalogueKind.readTotals (port : Port) (tag : Octet) (payload : List Octet) :
    Laws.CatalogueKind.Statement (.readTotals port tag payload) :=
  Laws.catalogueKind_request _ port 56 tag payload rfl rfl (by decide) rfl

theorem Laws.CatalogueKind.readLastShift (port : Port) (tag : Octet) (payload : List Octet) :
    Laws.CatalogueKind.Statement (.readLastShift port tag payload) :=
  Laws.catalogueKind_request _ port 57 tag payload rfl rfl (by decide) rfl

theorem Laws.CatalogueKind.openCalibration (port : Port) (tag : Octet) (payload : List Octet) :
    Laws.CatalogueKind.Statement (.openCalibration port tag payload) :=
  Laws.catalogueKind_request _ port 60 tag payload rfl rfl (by decide) rfl

theorem Laws.CatalogueKind.writeParameter (port : Port) (tag : Octet) (payload : List Octet) :
    Laws.CatalogueKind.Statement (.writeParameter port tag payload) :=
  Laws.catalogueKind_request _ port 61 tag payload rfl rfl (by decide) rfl

theorem Laws.CatalogueKind.readParameter (port : Port) (tag : Octet) (payload : List Octet) :
    Laws.CatalogueKind.Statement (.readParameter port tag payload) :=
  Laws.catalogueKind_request _ port 62 tag payload rfl rfl (by decide) rfl

theorem Laws.CatalogueKind.readCalibrationState (port : Port) (tag : Octet) (payload : List Octet) :
    Laws.CatalogueKind.Statement (.readCalibrationState port tag payload) :=
  Laws.catalogueKind_request _ port 63 tag payload rfl rfl (by decide) rfl

theorem Laws.CatalogueKind.calibrateZero (port : Port) (tag : Octet) (payload : List Octet) :
    Laws.CatalogueKind.Statement (.calibrateZero port tag payload) :=
  Laws.catalogueKind_request _ port 64 tag payload rfl rfl (by decide) rfl

theorem Laws.CatalogueKind.calibrateSpan (port : Port) (tag : Octet) (payload : List Octet) :
    Laws.CatalogueKind.Statement (.calibrateSpan port tag payload) :=
  Laws.catalogueKind_request _ port 65 tag payload rfl rfl (by decide) rfl

theorem Laws.CatalogueKind.commitCalibration (port : Port) (tag : Octet) (payload : List Octet) :
    Laws.CatalogueKind.Statement (.commitCalibration port tag payload) :=
  Laws.catalogueKind_request _ port 66 tag payload rfl rfl (by decide) rfl

theorem Laws.CatalogueKind.abandonCalibration (port : Port) (tag : Octet) (payload : List Octet) :
    Laws.CatalogueKind.Statement (.abandonCalibration port tag payload) :=
  Laws.catalogueKind_request _ port 67 tag payload rfl rfl (by decide) rfl

theorem Laws.CatalogueKind.readAuditRecord (port : Port) (tag : Octet) (payload : List Octet) :
    Laws.CatalogueKind.Statement (.readAuditRecord port tag payload) :=
  Laws.catalogueKind_request _ port 68 tag payload rfl rfl (by decide) rfl

theorem Laws.CatalogueKind.readAuditSummary (port : Port) (tag : Octet) (payload : List Octet) :
    Laws.CatalogueKind.Statement (.readAuditSummary port tag payload) :=
  Laws.catalogueKind_request _ port 69 tag payload rfl rfl (by decide) rfl

theorem Laws.CatalogueKind.archiveAuditRecords (port : Port) (tag : Octet) (payload : List Octet) :
    Laws.CatalogueKind.Statement (.archiveAuditRecords port tag payload) :=
  Laws.catalogueKind_request _ port 70 tag payload rfl rfl (by decide) rfl

theorem Laws.CatalogueKind.beginVerification (port : Port) (tag : Octet) (payload : List Octet) :
    Laws.CatalogueKind.Statement (.beginVerification port tag payload) :=
  Laws.catalogueKind_request _ port 80 tag payload rfl rfl (by decide) rfl

theorem Laws.CatalogueKind.testPoint (port : Port) (tag : Octet) (payload : List Octet) :
    Laws.CatalogueKind.Statement (.testPoint port tag payload) :=
  Laws.catalogueKind_request _ port 81 tag payload rfl rfl (by decide) rfl

theorem Laws.CatalogueKind.endVerification (port : Port) (tag : Octet) (payload : List Octet) :
    Laws.CatalogueKind.Statement (.endVerification port tag payload) :=
  Laws.catalogueKind_request _ port 82 tag payload rfl rfl (by decide) rfl

theorem Laws.CatalogueKind.abortVerification (port : Port) (tag : Octet) (payload : List Octet) :
    Laws.CatalogueKind.Statement (.abortVerification port tag payload) :=
  Laws.catalogueKind_request _ port 83 tag payload rfl rfl (by decide) rfl

theorem Laws.CatalogueKind.readVerification (port : Port) (tag : Octet) (payload : List Octet) :
    Laws.CatalogueKind.Statement (.readVerification port tag payload) :=
  Laws.catalogueKind_request _ port 84 tag payload rfl rfl (by decide) rfl

theorem Laws.CatalogueKind.takeSnapshot (port : Port) (tag : Octet) (payload : List Octet) :
    Laws.CatalogueKind.Statement (.takeSnapshot port tag payload) :=
  Laws.catalogueKind_request _ port 85 tag payload rfl rfl (by decide) rfl

theorem Laws.CatalogueKind.readSnapshot (port : Port) (tag : Octet) (payload : List Octet) :
    Laws.CatalogueKind.Statement (.readSnapshot port tag payload) :=
  Laws.catalogueKind_request _ port 86 tag payload rfl rfl (by decide) rfl

theorem Laws.CatalogueKind.listSnapshots (port : Port) (tag : Octet) (payload : List Octet) :
    Laws.CatalogueKind.Statement (.listSnapshots port tag payload) :=
  Laws.catalogueKind_request _ port 87 tag payload rfl rfl (by decide) rfl

theorem Laws.CatalogueKind.discardSnapshot (port : Port) (tag : Octet) (payload : List Octet) :
    Laws.CatalogueKind.Statement (.discardSnapshot port tag payload) :=
  Laws.catalogueKind_request _ port 88 tag payload rfl rfl (by decide) rfl

theorem Laws.CatalogueKind.writeFaultPolicy (port : Port) (tag : Octet) (payload : List Octet) :
    Laws.CatalogueKind.Statement (.writeFaultPolicy port tag payload) :=
  Laws.catalogueKind_request _ port 90 tag payload rfl rfl (by decide) rfl

theorem Laws.CatalogueKind.acknowledgeMetrologicalFault (port : Port) (tag : Octet) (payload : List Octet) :
    Laws.CatalogueKind.Statement (.acknowledgeMetrologicalFault port tag payload) :=
  Laws.catalogueKind_request _ port 91 tag payload rfl rfl (by decide) rfl

theorem Laws.CatalogueKind.acknowledgeFault (port : Port) (tag : Octet) (payload : List Octet) :
    Laws.CatalogueKind.Statement (.acknowledgeFault port tag payload) :=
  Laws.catalogueKind_request _ port 92 tag payload rfl rfl (by decide) rfl

theorem Laws.CatalogueKind.clearLockout (port : Port) (tag : Octet) (payload : List Octet) :
    Laws.CatalogueKind.Statement (.clearLockout port tag payload) :=
  Laws.catalogueKind_request _ port 93 tag payload rfl rfl (by decide) rfl

theorem Laws.CatalogueKind.readFaults (port : Port) (tag : Octet) (payload : List Octet) :
    Laws.CatalogueKind.Statement (.readFaults port tag payload) :=
  Laws.catalogueKind_request _ port 94 tag payload rfl rfl (by decide) rfl

theorem Laws.CatalogueKind.restart (port : Port) (tag : Octet) (payload : List Octet) :
    Laws.CatalogueKind.Statement (.restart port tag payload) :=
  Laws.catalogueKind_request _ port 100 tag payload rfl rfl (by decide) rfl

theorem Laws.CatalogueKind.readStartCause (port : Port) (tag : Octet) (payload : List Octet) :
    Laws.CatalogueKind.Statement (.readStartCause port tag payload) :=
  Laws.catalogueKind_request _ port 101 tag payload rfl rfl (by decide) rfl

theorem Laws.CatalogueKind.pollSent :
    Laws.CatalogueKind.Statement (.pollSent) :=
  Laws.catalogueKind_noFrame _ rfl

theorem Laws.CatalogueKind.octetReceived (port : Port) (octet : Octet) :
    Laws.CatalogueKind.Statement (.octetReceived port octet) :=
  Laws.catalogueKind_noFrame _ rfl

end Sys2Proof
end

