-- ==== Sys2Proof/Laws/Settle.lean ====
section
/-! SUPPORT. What the settling of an event leaves, said once: the state it answers is settled (R63, R74 to R76, R183,
R197). -/

namespace Sys2Proof.Machine

/-! ### Small facts -/

theorem Table.mem_set {α : Type} {t : Table α} {k : Nat} {a : α} {e : Nat × α} (h : e ∈ Table.set t k a) :
    e = (k, a) ∨ e ∈ t := by
  induction t with
  | nil => exact Or.inl (by simpa [Table.set] using h)
  | cons f rest ih =>
    obtain ⟨j, b⟩ := f
    unfold Table.set at h
    split at h
    · rcases List.mem_cons.1 h with h | h
      · exact Or.inl h
      · exact Or.inr h
    · split at h
      · rcases List.mem_cons.1 h with h | h
        · exact Or.inl h
        · exact Or.inr (List.mem_cons_of_mem _ h)
      · rcases List.mem_cons.1 h with h | h
        · exact Or.inr (h ▸ List.mem_cons_self)
        · rcases ih h with h | h
          · exact Or.inl h
          · exact Or.inr (List.mem_cons_of_mem _ h)

/-- Nothing granted where no entry waits. -/
theorem selectEntry_eq_none {qs : List QueueEntry} (h : selectEntry qs = none) : qs = [] := by
  cases qs with
  | nil => rfl
  | cons a rest =>
    simp only [selectEntry] at h
    split at h
    · cases h
    · split at h <;> cases h

/-- The entries of the two ends' lamps stand at different places of the register. -/
theorem lampKey_place_ne {e f : BridgeEnd} (h : e ≠ f) : (lampKey e).place ≠ (lampKey f).place := by
  cases e <;> cases f <;> first | exact absurd rfl h | decide

/-- Two instances numbered below 32 stand at one place of the register only where they are the same. -/
theorem FaultKey.place_injective {j k : FaultKey} (hj : j.inst < 32) (hk : k.inst < 32) (h : j.place = k.place) :
    j = k := by
  obtain ⟨c, m⟩ := j
  obtain ⟨d, n⟩ := k
  simp only [FaultKey.place] at *
  have hc : c.number = d.number := by omega
  have hm : m = n := by omega
  have hcd : c = d := by
    cases c <;> cases d <;> first | rfl | exact absurd hc (by decide)
  rw [hcd, hm]

/-! ### Reports of absence -/

/-- A report of absence makes the condition absent. -/
theorem State.clearFault_present (s : State) (k : FaultKey) : ((s.clearFault k).faultEntry k).present = false := by
  unfold State.clearFault
  split
  · simp [State.faultEntry, State.setFaultEntry]
  · rename_i h
    simpa using h

/-- A report of absence leaves the entry of every other place. -/
theorem State.clearFault_other (s : State) {k j : FaultKey} (h : j.place ≠ k.place) :
    (s.clearFault k).faultEntry j = s.faultEntry j := by
  unfold State.clearFault
  split
  · unfold State.faultEntry State.setFaultEntry
    simp only []
    rw [Table.get?_set_other _ _ h]
  · rfl

/-- R183: a report of absence never sets the FAULT source. -/
theorem State.clearFault_faultJudged (s : State) (k : FaultKey) (h : s.faultJudged = false) :
    (s.clearFault k).faultJudged = false := by
  unfold State.clearFault
  split
  · rename_i hp
    have hpol : ∀ c, (s.setFaultEntry k { s.faultEntry k with present := false }).policy c = s.policy c := by
      intro c; cases c <;> rfl
    have hmem : (k.place, s.faultEntry k) ∈ s.faults.register := by
      unfold State.faultEntry at hp ⊢
      cases hg : Table.get? s.faults.register k.place with
      | none => rw [hg] at hp; exact absurd hp (by simp [FaultEntry.blank])
      | some a => exact Table.mem_of_get? hg
    simp only [State.faultJudged, Bool.or_eq_false_iff] at h ⊢
    obtain ⟨⟨⟨h1, h2⟩, h3⟩, h4⟩ := h
    refine ⟨⟨⟨?_, h2⟩, ?_⟩, h4⟩
    · unfold State.heldByPresent at h1 ⊢
      rw [List.any_eq_false] at h1 ⊢
      intro e he
      simp only [hpol]
      rcases Table.mem_set he with he | he
      · subst he; simp
      · exact h1 e he
    · unfold State.heldByMark at h3 ⊢
      rw [List.any_eq_false] at h3 ⊢
      intro e he
      simp only [hpol]
      rcases Table.mem_set he with he | he
      · subst he
        have := h3 _ hmem
        simpa using this
      · exact h3 e he
  · exact h

/-! ### The comparison of the lamps -/

/-- The comparison of an end leaves the bridge but for the feedback timers. -/
theorem State.compareLamps_bridge (s : State) (e : BridgeEnd) :
    (s.compareLamps e).bridge.waiting = s.bridge.waiting ∧ (s.compareLamps e).bridge.arrivals = s.bridge.arrivals ∧
    (s.compareLamps e).bridge.state = s.bridge.state ∧ (s.compareLamps e).bridge.startMark = s.bridge.startMark ∧
    (s.compareLamps e).bridge.grant = s.bridge.grant ∧
    (s.compareLamps e).bridge.grantTimer = s.bridge.grantTimer ∧
    (s.compareLamps e).bridge.advance = s.bridge.advance ∧
    (s.compareLamps e).bridge.withheld = s.bridge.withheld ∧
    (s.compareLamps e).bridge.aspectA = s.bridge.aspectA ∧ (s.compareLamps e).bridge.aspectB = s.bridge.aspectB ∧
    (s.compareLamps e).bridge.lampsA = s.bridge.lampsA ∧ (s.compareLamps e).bridge.lampsB = s.bridge.lampsB ∧
    (s.compareLamps e).bridge.holds = s.bridge.holds := by
  unfold State.compareLamps
  split
  · simp
  · split <;> simp

theorem State.compareLamps_faultJudged (s : State) (e : BridgeEnd) (h : s.faultJudged = false) :
    (s.compareLamps e).faultJudged = false := by
  have hf : (s.setFeedback e false).faultJudged = s.faultJudged := by cases e <;> rfl
  have ht : (s.setFeedback e true).faultJudged = s.faultJudged := by cases e <;> rfl
  unfold State.compareLamps
  split
  · exact State.clearFault_faultJudged _ _ (by rw [hf]; exact h)
  · split
    · exact h
    · rw [ht]; exact h

theorem Bridge.aspect_lamps_congr {a b : Bridge} (e : BridgeEnd) (h1 : a.aspectA = b.aspectA)
    (h2 : a.aspectB = b.aspectB) (h3 : a.lampsA = b.lampsA) (h4 : a.lampsB = b.lampsB) :
    a.aspect e = b.aspect e ∧ a.lamps e = b.lamps e := by
  cases e <;> simp [Bridge.aspect, Bridge.lamps, h1, h2, h3, h4]

/-- R75: the comparison of an end settles it. -/
theorem State.compareLamps_settles (s : State) (e : BridgeEnd) : (s.compareLamps e).lampsSettled e = true := by
  have hb := s.compareLamps_bridge e
  obtain ⟨ha, hl⟩ := Bridge.aspect_lamps_congr (a := (s.compareLamps e).bridge) (b := s.bridge) e
    hb.2.2.2.2.2.2.2.2.1 hb.2.2.2.2.2.2.2.2.2.1 hb.2.2.2.2.2.2.2.2.2.2.1 hb.2.2.2.2.2.2.2.2.2.2.2.1
  unfold State.lampsSettled
  rw [ha, hl]
  by_cases hm : lampsMatch (s.bridge.aspect e) (s.bridge.lamps e) = true
  · have hc : s.compareLamps e = (s.setFeedback e false).clearFault (lampKey e) := by
      simp [State.compareLamps, hm]
    rw [if_pos hm, hc]
    simp [State.clearFault_present]
  · rw [if_neg hm]
    unfold State.compareLamps
    rw [if_neg hm]
    split
    · rename_i hp; simp [hp]
    · simp

/-- The comparison of one end leaves the other as settled as it was. -/
theorem State.compareLamps_keeps (s : State) {e f : BridgeEnd} (hne : f ≠ e) :
    (s.compareLamps e).lampsSettled f = s.lampsSettled f := by
  have hb := s.compareLamps_bridge e
  obtain ⟨ha, hl⟩ := Bridge.aspect_lamps_congr (a := (s.compareLamps e).bridge) (b := s.bridge) f
    hb.2.2.2.2.2.2.2.2.1 hb.2.2.2.2.2.2.2.2.2.1 hb.2.2.2.2.2.2.2.2.2.2.1 hb.2.2.2.2.2.2.2.2.2.2.2.1
  have hfb : ∀ on, (s.setFeedback e on).bridge.feedback f = s.bridge.feedback f := by
    intro on
    cases e <;> cases f <;> first | rfl | exact absurd rfl hne
  have hfe : ∀ on, (s.setFeedback e on).faultEntry (lampKey f) = s.faultEntry (lampKey f) := by
    intro on; cases e <;> rfl
  have h1 : (s.compareLamps e).bridge.feedback f = s.bridge.feedback f := by
    unfold State.compareLamps
    split
    · simp only [State.clearFault_frame]
      exact hfb false
    · split
      · rfl
      · exact hfb true
  have h2 : (s.compareLamps e).faultEntry (lampKey f) = s.faultEntry (lampKey f) := by
    unfold State.compareLamps
    split
    · rw [State.clearFault_other _ (lampKey_place_ne hne), hfe]
    · split
      · rfl
      · exact hfe true
  unfold State.lampsSettled
  rw [ha, hl, h1, h2]

/-- The aspects depend on the state, the grant, the advance mark and the hold set alone (R74). -/
theorem Bridge.aspectFor_congr {a b : Bridge} (e : BridgeEnd) (h1 : a.state = b.state) (h2 : a.grant = b.grant)
    (h3 : a.advance = b.advance) (h4 : a.holds = b.holds) : a.aspectFor e = b.aspectFor e := by
  simp [Bridge.aspectFor, h1, h2, h3, h4]

/-- What the commanding of the signals leaves: the aspects of R74, the lamps compared, the rest of the bridge as it
was, and a FAULT source that was not to be set still not to be set. -/
theorem State.recommand_spec (s : State) :
    s.recommand.bridge.waiting = s.bridge.waiting ∧ s.recommand.bridge.arrivals = s.bridge.arrivals ∧
    s.recommand.bridge.state = s.bridge.state ∧ s.recommand.bridge.startMark = s.bridge.startMark ∧
    s.recommand.bridge.grant = s.bridge.grant ∧ s.recommand.bridge.grantTimer = s.bridge.grantTimer ∧
    s.recommand.bridge.advance = s.bridge.advance ∧ s.recommand.bridge.withheld = s.bridge.withheld ∧
    s.recommand.bridge.holds = s.bridge.holds ∧
    s.recommand.bridge.aspectA = s.bridge.aspectFor .a ∧ s.recommand.bridge.aspectB = s.bridge.aspectFor .b ∧
    s.recommand.lampsSettled .a = true ∧ s.recommand.lampsSettled .b = true ∧
    (s.faultJudged = false → s.recommand.faultJudged = false) := by
  unfold State.recommand
  simp only []
  refine ⟨?_, ?_, ?_, ?_, ?_, ?_, ?_, ?_, ?_, ?_, ?_, ?_, ?_, ?_⟩
  iterate 11 simp [State.compareLamps_bridge]
  · rw [State.compareLamps_keeps _ (by decide)]
    exact State.compareLamps_settles _ _
  · exact State.compareLamps_settles _ _
  · intro h
    exact State.compareLamps_faultJudged _ _ (State.compareLamps_faultJudged _ _ h)

/-! ### A pass of settling -/

/-- What a hold coming into force or leaving it does to the bridge: its grant timer alone (R77, R78). -/
theorem State.followHold_bridge (s : State) (before : Holds) :
    (s.followHold before).bridge = { s.bridge with grantTimer := (s.followHold before).bridge.grantTimer } := by
  unfold State.followHold
  split
  · simp
  · split
    · simp
    · rfl

/-- The end of a waiting point leaves the run ACTIVE (R168). -/
theorem State.endPoint_run (s : State) (code : Status) : (s.endPoint code).run.isSome = s.run.isSome := by
  unfold State.endPoint
  split
  · rfl
  · rename_i r hr
    split
    · simp
    · simp [hr]

theorem State.followPointSources_run (s : State) (before : Holds) :
    (s.followPointSources before).run.isSome = s.run.isSome := by
  unfold State.followPointSources
  simp only []
  split
  · exact State.endPoint_run _ _
  · rfl

/-- A grant, made or not: the hold set stays, and no entry waits at a FREE bridge with no hold in force. -/
theorem State.grantIfDue_spec (s : State) :
    s.grantIfDue.bridge.holds = s.bridge.holds ∧
    (s.grantIfDue.bridge.state = .free → s.held = false → s.grantIfDue.bridge.waiting = []) := by
  unfold State.grantIfDue
  split
  · split
    · rename_i hsel
      exact ⟨rfl, fun _ _ => selectEntry_eq_none hsel⟩
    · simp [State.grantTo]
  · rename_i hc
    refine ⟨rfl, fun h1 h2 => ?_⟩
    simp [h1, h2] at hc

/-- The FAULT source as judged depends on the register, the CALIBRATION region and the policies alone (R183). -/
theorem State.faultJudged_congr {s t : State} (h1 : s.faults = t.faults) (h2 : s.cal = t.cal) (h3 : s.site = t.site) :
    s.faultJudged = t.faultJudged := by
  have hp : ∀ c, s.policy c = t.policy c := by intro c; cases c <;> simp [State.policy, h3]
  simp [State.faultJudged, State.heldByPresent, State.flagSet, State.heldByMark, State.locked, h1, h2, hp]

/-- What one pass leaves: METROLOGY as its causes give it, FAULT as it was judged, no entry waiting at a FREE bridge
with no hold in force, the aspects of R74 and the lamps compared. -/
theorem State.settlePass_spec (s : State) (before : Holds) :
    (s.settlePass before).bridge.holds.metrology
        = ((s.settlePass before).accessOpen || (s.settlePass before).run.isSome
            || (s.settlePass before).bridge.holds.manual) ∧
    (s.settlePass before).bridge.holds.fault = s.faultJudged ∧
    ((s.settlePass before).bridge.state = .free → (s.settlePass before).held = false →
      (s.settlePass before).bridge.waiting = []) ∧
    (s.settlePass before).bridge.aspectA = (s.settlePass before).bridge.aspectFor .a ∧
    (s.settlePass before).bridge.aspectB = (s.settlePass before).bridge.aspectFor .b ∧
    (s.settlePass before).lampsSettled .a = true ∧ (s.settlePass before).lampsSettled .b = true ∧
    (s.faultJudged = false → (s.settlePass before).faultJudged = false) := by
  unfold State.settlePass
  have hj := s.judgeSources_holds
  generalize hu : s.judgeSources = u at hj
  have hb := State.followHold_bridge u before
  generalize hv : u.followHold before = v at hb
  have hr := State.followPointSources_run v before
  have hpf := State.followPointSources_frame v before
  generalize hw : v.followPointSources before = w at hr hpf
  have hg := w.grantIfDue_spec
  have hgf := w.grantIfDue_frame
  generalize hx : w.grantIfDue = x at hg hgf
  have hc := x.recommand_spec
  have hcf := x.recommand_frame
  generalize hy : x.recommand = y at hc hcf
  have hvh : v.bridge.holds = u.bridge.holds := by rw [hb]
  have hwh : w.bridge = v.bridge := hpf.2.2.2.2.2.1
  have hxh : x.bridge.holds = u.bridge.holds := by rw [hg.1, hwh, hvh]
  have hyh : y.bridge.holds = u.bridge.holds := by rw [hc.2.2.2.2.2.2.2.2.1, hxh]
  have hurun : u.run = s.run := by rw [← hu]; simp
  have hvrun : v.run = u.run := by rw [← hv]; simp
  have hyrun : y.run.isSome = s.run.isSome := by
    have h1 : y.run = x.run := by rw [← hy]; simp
    have h2 : x.run = w.run := by rw [← hx]; simp
    rw [h1, h2, hr, hvrun, hurun]
  have hyst : y.staged = s.staged := by
    rw [← hy, ← hx, ← hw, ← hv, ← hu]; simp
  refine ⟨?_, ?_, ?_, ?_, ?_, hc.2.2.2.2.2.2.2.2.2.2.2.1, hc.2.2.2.2.2.2.2.2.2.2.2.2.1, ?_⟩
  · rw [hyh, hj, hyrun]
    simp [State.accessOpen, hyst]
  · rw [hyh, hj]
  · intro h1 h2
    rw [hc.2.2.1] at h1
    rw [hc.1]
    apply hg.2 h1
    unfold State.held at h2 ⊢
    rw [hyh] at h2
    rw [hwh, hvh]
    exact h2
  · rw [hc.2.2.2.2.2.2.2.2.2.1]
    exact Bridge.aspectFor_congr _ hc.2.2.1.symm hc.2.2.2.2.1.symm hc.2.2.2.2.2.2.1.symm hc.2.2.2.2.2.2.2.2.1.symm
  · rw [hc.2.2.2.2.2.2.2.2.2.2.1]
    exact Bridge.aspectFor_congr _ hc.2.2.1.symm hc.2.2.2.2.1.symm hc.2.2.2.2.2.2.1.symm hc.2.2.2.2.2.2.2.2.1.symm
  · intro h
    apply hc.2.2.2.2.2.2.2.2.2.2.2.2.2
    have : x.faultJudged = s.faultJudged := by
      apply State.faultJudged_congr
      · rw [← hx, ← hw, ← hv, ← hu]; simp
      · rw [← hx, ← hw, ← hv, ← hu]; simp
      · rw [← hx, ← hw, ← hv, ← hu]; simp
    rw [this]
    exact h

/-- A pass that found nothing to change in the FAULT source settles all but the notices. -/
theorem State.settle_spec (s : State) (before : Holds) :
    (s.settle before).bridge.holds.metrology
        = ((s.settle before).accessOpen || (s.settle before).run.isSome || (s.settle before).bridge.holds.manual) ∧
    (s.settle before).bridge.holds.fault = (s.settle before).faultJudged ∧
    ((s.settle before).bridge.state = .free → (s.settle before).held = false →
      (s.settle before).bridge.waiting = []) ∧
    (s.settle before).bridge.aspectA = (s.settle before).bridge.aspectFor .a ∧
    (s.settle before).bridge.aspectB = (s.settle before).bridge.aspectFor .b ∧
    (s.settle before).lampsSettled .a = true ∧ (s.settle before).lampsSettled .b = true := by
  have h1 := s.settlePass_spec before
  unfold State.settle
  generalize hp : s.settlePass before = p at h1
  obtain ⟨a1, a2, a3, a4, a5, a6, a7, a8⟩ := h1
  simp only []
  split
  · rename_i hf
    exact ⟨a1, hf.symm, a3, a4, a5, a6, a7⟩
  · rename_i hf
    have h2 := p.settlePass_spec p.bridge.holds
    generalize p.settlePass p.bridge.holds = q at h2
    obtain ⟨b1, b2, b3, b4, b5, b6, b7, b8⟩ := h2
    have hpf : p.faultJudged = false := by
      cases hs : s.faultJudged with
      | false => exact a8 hs
      | true =>
        cases hq : p.faultJudged with
        | false => rfl
        | true => exact absurd (by rw [a2, hs, hq]) hf
    exact ⟨b1, by rw [b2, hpf, b8 hpf], b3, b4, b5, b6, b7⟩

/-- Neither the writes begun nor the note of a commit settle or unsettle anything. -/
theorem retain_settled (s t : State) : (retain s t).settled = t.settled := by
  have h : (retain s t).bridgeSettled = t.bridgeSettled := by apply State.bridgeSettled_congr <;> simp
  simp [State.settled, h]

/-- The end of an event settles the state. -/
theorem event_settled (s t : State) : (event s t).settled = true := by
  unfold event
  rw [retain_settled, State.settled_iff, State.bridgeSettled_iff]
  have h := t.settle_spec s.bridge.holds
  generalize t.settle s.bridge.holds = u at h
  obtain ⟨a1, a2, a3, a4, a5, a6, a7⟩ := h
  exact ⟨rfl, a1, a2, a3, a4, a5, a6, a7⟩

end Sys2Proof.Machine
end

