-- ==== Sys2Proof/Laws/Requests.lean ====
section
/-! SUPPORT. What a good frame comes to (R194, R195), said once for the requests that read and for those that change
something. -/

namespace Sys2Proof.Machine

theorem State.accepts_iff (s : State) (p : Port) (kind : Nat) (payload : List Octet) :
    s.accepts p kind payload = true ↔ s.running = true ∧ (s.port p).replies = [] ∧ permitted kind p = true ∧
      payload.length = requestLength kind := by
  simp [State.accepts, and_assoc]

theorem State.calm_iff (s : State) :
    s.calm = true ↔ s.running = true ∧ s.outbox = [] ∧ s.bridgeSettled = true ∧ s.commitNote = none := by
  simp [State.calm, State.settled, and_assoc]

theorem State.ready_iff (s : State) (p : Port) (kind : Nat) (payload : List Octet) :
    s.ready p kind payload = true ↔ s.accepts p kind payload = true ∧ s.calm = true := by
  simp [State.ready]

/-- R194: a frame that every check passes is taken. -/
theorem State.frameGate_hunt_of_accepts {s : State} {p : Port} {kind : Nat} {payload : List Octet}
    (h : s.accepts p kind payload = true) : (s.hunt p).frameGate p kind payload = .take := by
  obtain ⟨_, hr, hp, hl⟩ := (State.accepts_iff _ _ _ _).1 h
  simp [State.frameGate, hr, hp, hl]

/-- A request taken: refused with a code and nothing changed, or answered with what its rule made, its event ended. -/
theorem request_of_accepts {s : State} {p : Port} {kind : Nat} {tag : Octet} {payload : List Octet}
    (rule : State → Taken) (h : s.accepts p kind payload = true) :
    request kind p tag payload rule s = .next
      (match rule (s.hunt p) with
       | .error code => (s.hunt p).putReply p kind tag code .empty
       | .ok (u, st, c) => (event (s.hunt p) u).putReply p kind tag st c) := by
  have hr := ((State.accepts_iff _ _ _ _).1 h).1
  simp only [request, act, hr, if_true, serve, State.frameGate_hunt_of_accepts h] <;>
    rcases rule (s.hunt p) with code | ⟨u, st, c⟩ <;> rfl

/-- A reading request taken: it answers, and changes nothing but its port. -/
theorem readRequest_of_accepts {s : State} {p : Port} {kind : Nat} {tag : Octet} {payload : List Octet}
    (rule : State → Except Status Content) (h : s.accepts p kind payload = true) :
    readRequest kind p tag payload rule s = .next
      (match rule (s.hunt p) with
       | .error code => s.answered p kind tag code .empty
       | .ok c => s.answered p kind tag .ok c) := by
  have hr := ((State.accepts_iff _ _ _ _).1 h).1
  simp only [readRequest, hr, if_true, serveRead, State.frameGate_hunt_of_accepts h, State.answered] <;>
    rcases rule (s.hunt p) with code | c <;> rfl

/-- An answer writes nothing that is retained: it can be formed before the event's write as well as after it. -/
theorem retain_answered (s u : State) (p : Port) (kind : Nat) (tag : Octet) (st : Status) (c : Content) :
    (retain (s.hunt p) (u.hunt p)).putReply p kind tag st c = retain s (u.answered p kind tag st c) := by
  have h1 : changedRegions (s.hunt p) (u.hunt p) = changedRegions s u := by simp [changedRegions]
  have h2 : changedRegions s (u.answered p kind tag st c) = changedRegions s u := by
    simp [changedRegions, State.answered]
  have hn : (u.answered p kind tag st c).commitNote = u.commitNote := by simp [State.answered]
  by_cases hc : ((changedRegions s u).isEmpty && u.commitNote.isNone) = true
  · have e1 : retain (s.hunt p) (u.hunt p) = u.hunt p := by
      unfold retain
      rw [h1, (by simp : (u.hunt p).commitNote = u.commitNote), if_pos hc]
    have e2 : retain s (u.answered p kind tag st c) = u.answered p kind tag st c := by
      unfold retain
      rw [h2, hn, if_pos hc]
    rw [e1, e2]
    rfl
  · have e1 : retain (s.hunt p) (u.hunt p) = { u.hunt p with
        writes := u.writes ++ [{ regions := changedRegions s u, commit := u.commitNote }], commitNote := none } := by
      unfold retain
      rw [h1, (by simp : (u.hunt p).commitNote = u.commitNote), if_neg hc]
      simp
    have e2 : retain s (u.answered p kind tag st c) = { u.answered p kind tag st c with
        writes := u.writes ++ [{ regions := changedRegions s u, commit := u.commitNote }], commitNote := none } := by
      unfold retain
      rw [h2, hn, if_neg hc]
      simp [State.answered]
    rw [e1, e2]
    cases p <;> rfl

/-- A refused request changes nothing but its port. -/
theorem request_refused {s : State} {p : Port} {kind : Nat} {tag : Octet} {payload : List Octet} {code : Status}
    (rule : State → Taken) (h : s.accepts p kind payload = true)
    (hc : rule (s.hunt p) = .error code) :
    request kind p tag payload rule s = .next (s.answered p kind tag code .empty) := by
  rw [request_of_accepts rule h, hc]
  rfl

/-- The bridge is settled whatever the receivers do. -/
theorem State.bridgeSettled_hunt (u : State) (p : Port) : (u.hunt p).bridgeSettled = u.bridgeSettled := by
  apply State.bridgeSettled_congr <;> cases p <;> rfl

/-- Queueing the notices of an event and returning a receiver to hunting commute. -/
theorem State.flush_hunt (u : State) (p : Port) : (u.hunt p).flush = u.flush.hunt p := by
  have hk : ∀ (ns : List Notice) (q : PortState),
      ns.foldl PortState.push { q with receiver := Receiver.hunting }
        = { ns.foldl PortState.push q with receiver := Receiver.hunting } := by
    intro ns
    induction ns with
    | nil => intro q; rfl
    | cons n rest ih =>
      intro q
      simp only [List.foldl_cons]
      rw [show PortState.push { q with receiver := Receiver.hunting } n
          = { PortState.push q n with receiver := Receiver.hunting } by simp only [PortState.push]; split <;> rfl]
      exact ih _
  cases p <;> simp [State.flush, State.hunt, State.setPort, State.port, hk]

/-- A request taken whose rule leaves the bridge settled, with the hold set it found: its notices are queued and it is
answered. -/
theorem request_settled {s u : State} {p : Port} {kind : Nat} {tag : Octet} {payload : List Octet} {st : Status}
    {c : Content} (rule : State → Taken) (h : s.accepts p kind payload = true)
    (hu : rule (s.hunt p) = .ok (u.hunt p, st, c)) (hb : u.bridgeSettled = true)
    (hh : u.bridge.holds = s.bridge.holds) :
    request kind p tag payload rule s = .next (retain s (u.flush.answered p kind tag st c)) := by
  rw [request_of_accepts rule h, hu]
  simp only []
  rw [event_of_bridgeSettled (by rw [State.bridgeSettled_hunt]; exact hb) (by cases p <;> exact hh),
    State.flush_hunt, retain_answered]

/-- The same where the rule makes no notice. -/
theorem request_quiet {s u : State} {p : Port} {kind : Nat} {tag : Octet} {payload : List Octet} {st : Status}
    {c : Content} (rule : State → Taken) (h : s.accepts p kind payload = true)
    (hu : rule (s.hunt p) = .ok (u.hunt p, st, c)) (ho : u.outbox = []) (hb : u.bridgeSettled = true)
    (hh : u.bridge.holds = s.bridge.holds) :
    request kind p tag payload rule s = .next (retain s (u.answered p kind tag st c)) := by
  rw [request_settled rule h hu hb hh, State.flush_of_empty u ho]

/-- R194: a good frame is taken as any command that it spells. -/
theorem routeFrame_eq_exec {c : Instr} {f : Frame} (s : State) (h : frameOf c = some f) :
    routeFrame f.port f.kind f.tag f.payload s = exec c s := by
  cases c <;> simp only [frameOf, Option.some.injEq, reduceCtorEq] at h <;> subst h <;> rfl

end Sys2Proof.Machine
end

