-- ==== Sys2Proof/Laws/Rounds.lean ====
section
/-! SUPPORT. The end of a poll and of a round, said once: what the two commands that end a poll answer, the round that a
state at its last poll comes to, the six orders in which the blocks take a round, and what a start writes. -/

namespace Sys2Proof.Machine

/-! ### The command that ends a poll (R3) -/

/-- Once eleven octets of an answer have been received, what is received later is left over. -/
@[simp] theorem answerReceived_full {received : List Octet} (octets : List Octet) (hl : received.length = 11)
    (hh : received.head? = some 0x5A#8) : answerReceived received octets = received := by
  cases received with
  | nil => simp at hl
  | cons a rest =>
    obtain rfl : a = 0x5A#8 := by simpa using hh
    have hr : 10 = rest.length := by
      simp at hl
      omega
    simp [answerReceived, hr]

/-- A complete answer, the first of its window, is the answer of the window. -/
@[simp] theorem answerReceived_first {octets : List Octet} (hl : octets.length = 11)
    (hh : octets.head? = some 0x5A#8) : answerReceived [] octets = octets := by
  simpa [answerReceived] using answerReceived_full [] hl hh

/-- Both commands that end a poll answer the end of that poll. -/
theorem exec_ends_poll {c : Instr} {s : State} {i : Nat} {received : List Octet} {reply : Option CellReply}
    (hp : s.bus.poll = .window i received) (hc : pollEndedBy c i received = some reply) (hr : s.running = true) : exec c s = .next (s.pollEnds i reply) := by
  cases c <;> simp only [pollEndedBy, reduceCtorEq] at hc
  case cellAnswer a =>
    obtain ⟨r, hr', rfl⟩ := Option.map_eq_some_iff.1 hc
    simp [exec, execCellAnswer, act, State.answer, hp, hr, hr']
  case replyWindowClose =>
    cases hc
    simp [exec, execReplyWindowClose, act, State.windowCloses, hp, hr]

/-- What `State.endsRound` says of a state, a command and a round. -/
theorem State.endsRound_iff {s : State} {c : Instr} {r : RoundValues} :
    s.endsRound c r = true ↔ s.calm = true ∧ s.bus.toPoll = [] ∧
      (s.bus.overrun = false ∨ s.nextStartsQuietly = true) ∧ ∃ i received reply, s.bus.poll = .window i received ∧ pollEndedBy c i received = some reply ∧
        s.reportsNothing i reply = true ∧ r = (s.polled i reply).computeRound := by
  unfold State.endsRound
  cases hp : s.bus.poll with
  | window i received =>
    cases hc : pollEndedBy c i received with
    | none => simp [hc]
    | some reply => simp [hc, and_assoc]
  | idle => simp
  | sending i => simp

/-! ### The judged record and the judged round -/

/-- The last poll of a command that ends it is judged with the reply that ends it. -/
theorem State.lastPolled_eq {c : Instr} {s : State} {i : Nat} {received : List Octet} {reply : Option CellReply}
    (hp : s.bus.poll = .window i received) (hc : pollEndedBy c i received = some reply) :
    s.lastPolled c = s.polled i reply := by
  simp [State.lastPolled, hp, hc]

/-- A round that ends is computed from the records as its last poll left them. -/
theorem State.endsRound_computed {s : State} {c : Instr} {r : RoundValues} (h : s.endsRound c r = true) :
    r = (s.lastPolled c).computeRound := by
  obtain ⟨-, -, -, i, received, reply, hp, hc, -, hr⟩ := State.endsRound_iff.1 h
  rw [State.lastPolled_eq hp hc, hr]

/-- The end of a poll leaves every address as CONFIGURED as it was. -/
theorem CellRecord.judged_configured (r : CellRecord) (serial : Int) (reply : Option CellReply) :
    (r.judged serial reply).configured = r.configured := by
  unfold CellRecord.judged
  cases reply with
  | none => rfl
  | some a =>
    simp only []
    split <;> rfl

/-- The start of a round that makes no address absent changes the cell bus alone. -/
theorem State.beginRound_quiet {s : State} (h : s.nextStartsQuietly = true) :
    s.beginRound = { s with bus := s.beginRound.bus } := by
  have hg : addresses.filter (fun i => (s.bus.record i).configured && !s.tableInUse.configured i) = [] := by
    rw [List.filter_eq_nil_iff]
    intro i hi
    simp only [State.nextStartsQuietly, Bool.and_eq_true, List.all_eq_true] at h
    have hq := h.2 i hi
    cases hc : (s.bus.record i).configured <;> simp [hc] at hq ⊢
    exact hq
  unfold State.beginRound
  simp only [hg, List.foldl_nil]

@[simp] theorem State.polled_weigh (s : State) (i : Nat) (reply : Option CellReply) :
    (s.polled i reply).weigh = s.weigh := rfl
@[simp] theorem State.polled_bridge (s : State) (i : Nat) (reply : Option CellReply) :
    (s.polled i reply).bridge = s.bridge := rfl
@[simp] theorem State.polled_faults (s : State) (i : Nat) (reply : Option CellReply) :
    (s.polled i reply).faults = s.faults := rfl
@[simp] theorem State.polled_capture (s : State) (i : Nat) (reply : Option CellReply) :
    (s.polled i reply).capture = s.capture := rfl

/-! ### The order of the blocks (R32, R54, R105) -/

/-- The free order is one of the six. -/
theorem takerOrder_mem (k : Fin 6) : takerOrder k ∈ takerOrders := by
  revert k
  decide

/-- Over a bridge that is OCCUPIED the blocks take the round in one of the six orders. -/
theorem State.blocksTakeRound_occupied {s : State} (r : RoundValues) (h : s.bridge.state = .occupied) :
    ∃ order ∈ takerOrders,
      s.blocksTakeRound r = order.foldl (State.takeAs r) { s with choices := s.choices + 1 } :=
  ⟨takerOrder (Config.roundOrder s.choices), takerOrder_mem _, by simp [State.blocksTakeRound, h]⟩

/-- Over any other bridge they take it in the order of the chapters. -/
theorem State.blocksTakeRound_else {s : State} (r : RoundValues) (h : s.bridge.state ≠ .occupied) :
    s.blocksTakeRound r =
      State.takeAs r (State.takeAs r (State.takeAs r s .capture) .trace) .arbiter := by
  simp [State.blocksTakeRound, h, takerOrder, takerOrders]

/-! ### What a start writes (R204, R206) -/

/-- A write begun of no region is none. -/
theorem State.beginWrite_writes (s : State) (regions : List Region) :
    (s.beginWrite regions).writes =
      s.writes ++ (if regions = [] then [] else [{ regions := regions, commit := none }]) := by
  unfold State.beginWrite
  cases regions <;> simp

/-- A region is in the write of the check exactly where it was found lost or has changed. -/
theorem mem_rewrittenRegions {s t : State} {l : LostRegions} {g : Region} :
    g ∈ rewrittenRegions s t l ↔
      (match g with
        | .calibration => l.calibration = true
        | .audit => l.audit = true
        | .visits => l.visits = true
        | .tares => l.tares = true
        | .tickets => l.tickets = true
        | .site => l.site = true
        | .evidence => l.evidence = true) ∨ g ∈ changedRegions s t := by
  cases g <;> simp [rewrittenRegions]

/-- A start sequence that runs answers the sequence. -/
theorem exec_startSequence {s : State} {cause : StartCause} (lost : LostRegions) (hp : s.phase = .starting cause)
    (hg : s.supplyGood = true) : exec (.startSequence lost) s = .next (s.startSequence cause lost) := by
  simp [exec, execStartSequence, hp, hg]

/-! ### Groups on the bridge (R85) -/

/-- An axle of a group is on the bridge exactly where some axle of its range has entered and not exited. -/
theorem partlyOn_iff {entered exited : Nat} {r : Nat × Nat} :
    partlyOn entered exited r = true ↔ ∃ k, (exited < k ∧ k ≤ entered) ∧ r.1 ≤ k ∧ k ≤ r.2 := by
  simp only [partlyOn, decide_eq_true_eq]
  constructor
  · intro h
    exact ⟨max (exited + 1) r.1, by omega, by omega, by omega⟩
  · rintro ⟨k, h, h1, h2⟩
    omega

end Sys2Proof.Machine
end

