-- ==== Sys2Proof/Laws/Tickets.lean ====
section
/-! SUPPORT. The order of ticket keys, what the sequence does when a number is taken, what stands of the keys of the ring
(R133 to R136), and the notices that the parts of a completed weighing hand over. -/

namespace Sys2Proof.Machine

/-! ### The order of keys (07 section 7.3) -/

theorem TicketKey.le_iff {a b : TicketKey} :
    a.le b = true ↔ a.series < b.series ∨ (a.series = b.series ∧ a.number ≤ b.number) := by
  simp [TicketKey.le]

theorem TicketKey.lt_iff {a b : TicketKey} :
    a.lt b = true ↔ a.series < b.series ∨ (a.series = b.series ∧ a.number < b.number) := by
  obtain ⟨x, m⟩ := a
  obtain ⟨y, n⟩ := b
  simp only [TicketKey.lt, Bool.and_eq_true, TicketKey.le_iff, decide_eq_true_eq, ne_eq, TicketKey.mk.injEq]
  omega

theorem TicketKey.lt_trans {a b c : TicketKey} (h : a.lt b = true) (k : b.lt c = true) : a.lt c = true := by
  rw [TicketKey.lt_iff] at *
  omega

theorem TicketKey.le_of_lt {a b : TicketKey} (h : a.lt b = true) : a.le b = true := by
  rw [TicketKey.lt_iff] at h
  rw [TicketKey.le_iff]
  omega

theorem TicketKey.lt_of_lt_of_le {a b c : TicketKey} (h : a.lt b = true) (k : b.le c = true) : a.lt c = true := by
  rw [TicketKey.lt_iff] at *
  rw [TicketKey.le_iff] at k
  omega

/-! ### The sequence (R133, R134) -/

/-- The number taken lies below the next one, or it was the last of the last series and the sequence is EXHAUSTED. -/
theorem State.takeNumber_key (s : State) (hs : s.cal.series ≤ 99) (hn : s.cal.nextNumber ≤ 99999999)
    (he : s.cal.exhausted = false) :
    (s.takeNumber.cal.exhausted = false ∧ s.nextKey.lt s.takeNumber.nextKey = true) ∨
    (s.takeNumber.cal.exhausted = true ∧ s.nextKey = .greatest ∧ s.takeNumber.nextKey = s.nextKey) := by
  unfold State.takeNumber
  split
  · exact .inl ⟨he, by simp [TicketKey.lt_iff, State.nextKey]⟩
  · split
    · exact .inl ⟨by simpa [State.postAll, State.post] using he,
        by simp [TicketKey.lt_iff, State.nextKey, State.postAll, State.post]⟩
    · refine .inr ⟨by simp [State.postAll, State.post], ?_, by simp [State.nextKey, State.postAll, State.post]⟩
      simp only [State.nextKey, TicketKey.greatest, TicketKey.mk.injEq]
      omega

/-- A key that is used stays used as long as the sequence only goes on. -/
theorem State.keyUsed_mono {s t : State} {k : TicketKey} (h : s.keyUsed k = true)
    (hx : s.cal.exhausted = true → t.cal.exhausted = true) (hk : s.nextKey.le t.nextKey = true)
    (hg : s.nextKey.le .greatest = true) : t.keyUsed k = true := by
  unfold State.keyUsed at *
  cases hs : s.cal.exhausted with
  | true => simpa [hs, hx hs] using h
  | false =>
    rw [hs] at h
    simp only [Bool.false_eq_true, if_false] at h
    cases t.cal.exhausted with
    | true => exact TicketKey.le_of_lt (TicketKey.lt_of_lt_of_le h hg)
    | false => exact TicketKey.lt_of_lt_of_le h hk

/-- What `State.keysRise` says. -/
theorem State.keysRise_iff {s : State} :
    s.keysRise = true ↔
      (s.tickets.ring.map (·.key)).Pairwise (fun a b => a.lt b = true) ∧
      (∀ t ∈ s.tickets.ring, s.keyUsed t.key = true ∧ ∀ k, s.cal.lastKey = some k → t.key.le k = true) ∧
      (∀ k, s.cal.lastKey = some k → s.keyUsed k = true) ∧
      (1 ≤ s.cal.series ∧ s.cal.series ≤ 99 ∧ 1 ≤ s.cal.nextNumber ∧ s.cal.nextNumber ≤ 99999999) ∧
      (s.cal.exhausted = true → s.cal.series = 99) := by
  unfold State.keysRise
  cases s.cal.lastKey <;> cases s.cal.exhausted <;> simp [and_assoc]

/-- The keys of a state depend on its ring and its sequence alone. -/
theorem State.keysRise_congr {s t : State} (h1 : t.tickets.ring = s.tickets.ring) (h2 : t.cal.series = s.cal.series)
    (h3 : t.cal.nextNumber = s.cal.nextNumber) (h4 : t.cal.exhausted = s.cal.exhausted)
    (h5 : t.cal.lastKey = s.cal.lastKey) : t.keysRise = s.keysRise := by
  have hk : t.keyUsed = s.keyUsed := funext fun k => by simp [State.keyUsed, State.nextKey, h2, h3, h4]
  simp [State.keysRise, hk, h1, h2, h3, h4, h5]

/-! ### What the parts of a completed weighing hand to the queues -/

/-- R133, R134: the notices of a number taken. -/
theorem State.takeNumber_outbox (s : State) :
    s.takeNumber.outbox = s.outbox ++
      (if s.cal.nextNumber < 99999999 then []
       else notesTo [.gatehouse, .metrology]
         (if s.cal.series < 99 then .seriesRolled (s.cal.series + 1) .automatic else .sequenceExhausted)) := by
  unfold State.takeNumber notesTo
  split
  · simp
  · split <;> simp [State.postAll_outbox]

/-- R139: the notices of a ticket. -/
theorem State.noteTicket_outbox (s : State) (k : Ticket) :
    (s.noteTicket k).outbox = s.outbox ++
      notesTo (if s.site.settings.copyToMetrology then [.gatehouse, .metrology] else [.gatehouse])
        (.ticketIssued k.key k.ident k.kind k.commodity k.gross k.tare k.net k.flags) ++
      [(.lane, .ticketIssuedShort k.key k.ident k.net k.flags)] := by
  unfold State.noteTicket State.postCopy notesTo
  simp only [State.post_frame]
  split <;> simp

/-- R122: the notice of a LEARNED store. -/
theorem State.learnTare_outbox (s : State) (t : Tare) : (s.learnTare t).outbox = s.outbox ++ s.learnNews t := by
  unfold State.learnTare State.storeTare State.learnNews
  cases s.chooseTare t.ident <;> simp

/-- R105: the notices of a freeze. -/
theorem State.freezeTrace_outbox (s : State) (reason : FreezeReason) (id : Ident) (r : RoundValues)
    (draft : Option Nat) :
    (s.freezeTrace reason id r draft).outbox =
      s.outbox ++ s.freezeNews { reason := reason, ident := id, round := r.index, draft := draft } := by
  unfold State.freezeTrace State.freezeNews notesTo
  cases s.axles.trace.frozen <;> simp [State.postAll_outbox]

/-- R101: the notices of the steps of an accepted draft. -/
theorem State.overSteps_outbox (s : State) (id : Ident) (d : DraftResult) (r : RoundValues) :
    (s.overSteps id d r).outbox =
      s.outbox ++ s.overNews d { reason := .overVerdict, ident := id, round := r.index, draft := some d.draft.used } := by
  unfold State.overSteps State.overNews
  cases d.anyOver with
  | false => simp
  | true =>
    simp only [Bool.not_true, Bool.false_eq_true, if_false, if_true]
    rw [State.freezeTrace_outbox]
    unfold State.takeSnapshot State.postCopy State.freezeNews State.snapshotNumber notesTo
    cases h : s.site.settings.copyToMetrology <;> simp [h, State.postAll, State.post]

end Sys2Proof.Machine
end

