-- ==== Sys2Proof/Machine/Wire.lean ====
section
/-! DEFINITION. Replies and notices as octets (R192, R196, R198, R201). R201 numbers a named value by its place in the
list that defines it; the widths that R201 leaves to a rule's range are those of log 16, those of counts without a range
those of log 40, the forms of absent fields and records those of log 29, and the octet of a mark that of log 45. -/

namespace Sys2Proof.Machine

/-! ### Forms (R201) -/

/-- An unsigned integer of `n` octets, high octet first. -/
def be : Nat → Nat → List Octet
  | 0, _ => []
  | n + 1, v => be n (v / 256) ++ [BitVec.ofNat 8 v]

/-- A signed integer of `n` octets in two's complement. -/
def beInt (n : Nat) (v : Int) : List Octet := be n (v % ((256 ^ n : Nat) : Int)).toNat

/-- One octet of a mark, of a flag, or of whether something holds. R201 gives no form for it: the model sends 1 for set,
present or yes and 0 for clear, absent or no (DESIGN CHOICE, log 45). -/
def mark (b : Bool) : List Octet := be 1 (if b then 1 else 0)

/-- A field that may be absent: 1 and the field, or 0 and zeros. -/
def optional {α : Type} (width : Nat) (f : α → List Octet) : Option α → List Octet
  | some a => be 1 1 ++ f a
  | none => be 1 0 ++ be width 0

/-- A record of varying length that may be absent: 1 and the record, or 0 alone (log 29). -/
def optionalRecord {α : Type} (f : α → List Octet) : Option α → List Octet
  | some a => be 1 1 ++ f a
  | none => be 1 0

/-- A list of varying length, after its number of entries. -/
def listOf {α : Type} (f : α → List Octet) (l : List α) : List Octet := be 1 l.length ++ l.flatMap f

/-- A weight in kilograms. -/
def kg (v : Int) : List Octet := beInt 4 v

/-- A value in grams, or of a calibration parameter. -/
def grams (v : Int) : List Octet := beInt 5 v

/-- An ident in 12 octets. -/
def identOctets (id : Ident) : List Octet := (id ++ List.replicate 12 0#8).take 12

/-- A date: the first four octets of a site time, also where a date stands alone (log 36). -/
def dateOctets (d : SiteDate) : List Octet := be 2 d.year ++ be 1 d.month ++ be 1 d.day

/-- A time of day, 255 in each octet where it is absent. -/
def todOctets : Option TimeOfDay → List Octet
  | some t => be 1 t.hour ++ be 1 t.minute ++ be 1 t.second
  | none => List.replicate 3 0xFF#8

/-- A site time in 7 octets. -/
def timeOctets (t : SiteTime) : List Octet := dateOctets t.date ++ todOctets (some t.tod)

/-- A configuration code, 0 where it is absent. -/
def configOctets (c : Option Nat) : List Octet := be 1 (c.getD 0)

/-- A priority class, 255 where it is absent. -/
def classOctets (c : Option Nat) : List Octet := be 1 (c.getD 255)

/-- A ticket key. -/
def keyOctets (k : TicketKey) : List Octet := be 1 k.series ++ be 4 k.number

/-! ### Named values -/

/-- Whether a named value of two is the second. -/
def second (b : Bool) : List Octet := mark b

/-- Ends: 0 A, 1 B. -/
def endOctet (e : BridgeEnd) : List Octet := be 1 (endNumber e)

/-- Travel directions. -/
def travelOctet (t : Travel) : List Octet := second (t = .bToA)

/-- Visit kinds: 0 DELIVERY, 1 COLLECTION. -/
def kindOctet (k : VisitKind) : List Octet := second (k = .collection)

/-- Directions of an axle. -/
def dirOctet (d : AxleDir) : List Octet := second (d = .outward)

/-- Policies: 0 HOLD, 1 CONTINUE. -/
def policyOctet (p : Policy) : List Octet := second (p = .continue_)

/-- Status codes. -/
def statusOctet (s : Status) : List Octet := be 1 s.code

/-- Cell conditions. -/
def conditionOctet : CellCondition → List Octet
  | .online => be 1 0
  | .missing => be 1 1
  | .silent => be 1 2
  | .faulted => be 1 3
  | .overRange => be 1 4
  | .substituted => be 1 5

/-- Cell statuses. -/
def cellStatusOctet : CellStatus → List Octet
  | .ok => be 1 0
  | .overRange => be 1 1
  | .internalFault => be 1 2

/-- Deck validities (R31): one octet of four values, VALID and the three reasons, and no field of a reason that may be
absent (DESIGN CHOICE, log 54). -/
def validityOctet : DeckValidity → List Octet
  | .valid => be 1 0
  | .noCells => be 1 1
  | .cell => be 1 2
  | .grossRange => be 1 3

/-- Range verdicts, in the order of the table of R30, which defines them, not of R31's list (DESIGN CHOICE, log 53). -/
def rangeOctet : RangeVerdict → List Octet
  | .overload => be 1 0
  | .underload => be 1 1
  | .normal => be 1 2

/-- Verdicts. -/
def verdictOctet : Verdict → List Octet
  | .within => be 1 0
  | .advisory => be 1 1
  | .over => be 1 2
  | .unresolved => be 1 3
  | .notChecked => be 1 4

/-- Weighing sources. -/
def sourceOctet : WeightSource → List Octet
  | .single => be 1 0
  | .composed => be 1 1
  | .storedTare => be 1 2
  | .keyedTare => be 1 3

/-- Bridge states. -/
def bridgeStateOctet : BridgeState → List Octet
  | .free => be 1 0
  | .granted => be 1 1
  | .occupied => be 1 2
  | .released => be 1 3
  | .occupiedUnknown => be 1 4

/-- Aspects. -/
def aspectOctet : Aspect → List Octet
  | .red => be 1 0
  | .amber => be 1 1
  | .green => be 1 2

/-- Visit states. -/
def visitStateOctet : VisitState → List Octet
  | .awaitingFirst => be 1 0
  | .firstInProgress => be 1 1
  | .awaitingSecond => be 1 2
  | .secondInProgress => be 1 3

/-- Snapshot kinds. -/
def snapshotKindOctet : SnapshotKind → List Octet
  | .overVerdict => be 1 0
  | .requested => be 1 1
  | .lockout => be 1 2

/-- Lockout codes, 1 to 4 (10 section 10.4). -/
def lockOctet : LockCode → List Octet
  | .secondFault => be 1 1
  | .calibrationLost => be 1 2
  | .calFaultInVerification => be 1 3
  | .calAccessInterrupted => be 1 4

/-- The outcome of a raise (R181): its octet, then the code of a lockout entered as a field that may be absent. That the
code is a field of its own is the model's choice (log 57). -/
def raiseOutcomeOctets (o : RaiseOutcome) : List Octet :=
  match o with
  | .flagSet => be 1 0 ++ optional 1 lockOctet none
  | .lockout code => be 1 1 ++ optional 1 lockOctet (some code)
  | .flagAlreadySet => be 1 2 ++ optional 1 lockOctet none
  | .none_ => be 1 3 ++ optional 1 lockOctet none

/-- Start causes, in the order of R206. -/
def causeOctet : StartCause → List Octet
  | .powerOn => be 1 0
  | .resetLine => be 1 1
  | .supplyLoss => be 1 2
  | .ordered => be 1 3

/-- A fault class and its instance. -/
def faultKeyOctets (k : FaultKey) : List Octet := be 1 k.cls.number ++ be 1 k.inst

/-- A test point's target: 0 BRIDGE, or the deck number. -/
def targetOctet : PointTarget → List Octet
  | .bridge => be 1 0
  | .deck d => be 1 d

/-- The two visit options. -/
def optionsOctet (v : Visit) : List Octet := be 1 ((if v.useStored then 1 else 0) + (if v.learn then 2 else 0))

/-- Ports, in the order of 11. -/
def portOctet : Port → List Octet
  | .gatehouse => be 1 0
  | .lane => be 1 1
  | .metrology => be 1 2

/-- The origin of a capture (03 section 3.3) in 5 octets: its name, then the port that asked and the tag, each absent
for AUTO. That the port is sent, here and in CAPTURE_OUTCOME (R45, R46), is the model's choice (log 34). -/
def originOctets : Origin → List Octet
  | .request p tag => be 1 0 ++ optional 1 portOctet (some p) ++ optional 1 (fun t => [t]) (some tag)
  | .auto => be 1 1 ++ optional 1 portOctet none ++ optional 1 (fun t => [t]) none

/-! ### Records -/

/-- A group entry; an UNRESOLVED weight is sent as 0. -/
def groupOctets (g : GroupEntry) : List Octet := kg (g.weight.getD 0) ++ verdictOctet g.verdict

/-- The flags of a ticket, bits 0 to 6 of two octets. -/
def flagOctets (f : TicketFlags) : List Octet :=
  be 2 (statusBit f.crossEpoch 0 + statusBit f.negativeNet 1 + statusBit f.composed 2 + statusBit f.keyedTare 3
    + statusBit f.inconsistentDraft 4 + statusBit f.overVerdict 5 + statusBit f.advisoryVerdict 6)

/-- The ticket record in the layout of R201. -/
def ticketOctets (t : Ticket) : List Octet :=
  keyOctets t.key ++ identOctets t.ident ++ kindOctet t.kind ++ be 1 t.commodity ++ configOctets t.config
    ++ kg t.gross ++ kg t.tare ++ kg t.net ++ sourceOctet t.grossSource ++ sourceOctet t.tareSource
    ++ be 4 t.firstEpoch ++ be 4 t.secondEpoch ++ timeOctets t.firstTime ++ dateOctets t.secondDate
    ++ todOctets t.secondTod ++ be 1 t.groups.length ++ (t.groups.flatMap groupOctets ++ be 40 0).take 40
    ++ verdictOctet t.combination ++ flagOctets t.flags

/-- A cell record (R15). -/
def cellOctets (r : CellRecord) : List Octet :=
  mark r.configured ++ optional 1 conditionOctet r.condition ++ be 1 r.miss ++ optional 4 (beInt 4) r.lastCount
    ++ optional 1 cellStatusOctet r.lastStatus ++ optional 4 (be 4) r.lastSerial

/-- The linearization mark of a deck, LINEARIZATION_DISABLED or absent (R31): a field that may be absent, holding the one
named value of its list. That it is no octet of a mark is the model's reading (log 41). -/
def linearizationOctets (disabled : Bool) : List Octet :=
  optional 1 (fun _ => be 1 0) (if disabled then some () else none)

/-- The values of one deck (R31). -/
def deckOctets (d : DeckValues) : List Octet :=
  validityOctet d.validity ++ linearizationOctets d.linearizationDisabled ++ optional 5 grams d.raw
    ++ optional 5 grams d.linearized ++ optional 5 grams d.filtered ++ optional 1 (be 1) d.filterCount ++ grams d.zeroUsed ++ optional 5 grams d.gross
    ++ optional 4 kg d.rounded ++ optional 1 rangeOctet d.range

/-- The round values (R31). -/
def roundOctets (r : RoundValues) : List Octet :=
  be 4 r.index ++ mark r.overrun ++ listOf deckOctets r.decks ++ second (!r.valid) ++ optional 5 grams r.gross
    ++ optional 4 kg r.rounded ++ optional 1 rangeOctet r.bridgeRange ++ rangeOctet r.range

/-- A weighing record (06 section 6.1). -/
def weighOctets (r : WeighRecord) : List Octet :=
  kg r.weight ++ sourceOctet r.source ++ be 4 r.epoch ++ timeOctets r.time ++ listOf groupOctets r.groups
    ++ verdictOctet r.combination ++ mark r.inconsistent ++ be 1 r.drafts

/-- A captured group. -/
def capturedOctets (g : CapturedGroup) : List Octet := kg g.weight ++ verdictOctet g.verdict ++ be 1 g.draft

/-- A freeze record (R105). -/
def freezeOctets (r : FreezeRecord) : List Octet :=
  second (r.reason = .straddle) ++ identOctets r.ident ++ be 4 r.round ++ optional 1 (be 1) r.draft

/-- A trace sample (05 section 5.6). A gross that is INVALID is sent as an absent field (log 41); the count of further
events, which the spec gives no range, in four octets (log 40). -/
def sampleOctets (x : TraceSample) : List Octet :=
  be 4 x.round ++ optional 5 grams x.gross
    ++ listOf (fun e => endOctet e.treadle ++ dirOctet e.dir ++ second (!e.counted)) x.events ++ be 4 x.further

/-- One end as Read Bridge shows it (R79); the lamps lit are a list, RED, AMBER, GREEN (DESIGN CHOICE, log 55). -/
def endReportOctets (r : EndReport) : List Octet :=
  aspectOctet r.aspect
    ++ listOf aspectOctet ((if r.lamps.red then [Aspect.red] else []) ++ (if r.lamps.amber then [Aspect.amber] else [])
        ++ (if r.lamps.green then [Aspect.green] else []))
    ++ mark r.lampFeedback

/-- A queue entry. -/
def entryOctets (q : QueueEntry) : List Octet := identOctets q.ident ++ be 4 q.arrival ++ be 1 q.cls ++ be 1 q.passes

/-- Read Bridge (R79). The grant timer's seconds and whether it is paused are two fields, each with a presence octet (log
29). R79 shows METROLOGY in two parts and fixes neither their number nor their order: the model sends two marks, the
manual hold first, then whether another cause of METROLOGY holds, and no mark of the source itself (DESIGN CHOICE, log
44). -/
def bridgeOctets (r : BridgeReport) : List Octet :=
  bridgeStateOctet r.state ++ mark r.startMark ++ optional 12 identOctets r.ident ++ optional 1 endOctet r.entryEnd
    ++ optional 1 travelOctet r.travel ++ optional 2 (be 2) (r.timer.map (·.secondsLeft))
    ++ optional 1 mark (r.timer.map (·.paused)) ++ mark r.advance ++ mark r.withheld ++ endReportOctets r.endA
    ++ endReportOctets r.endB ++ mark r.gatehouse ++ mark r.lane ++ mark r.manual ++ mark r.otherMetrology
    ++ mark r.fault ++ mark r.supply ++ be 4 r.arrivals ++ listOf entryOctets r.queueA ++ listOf entryOctets r.queueB

/-- A configuration as Read Configuration gives it (R90): groups, axle ranges, T, combination limit and tolerance. -/
def configurationOctets (c : Configuration) : List Octet :=
  listOf (fun g => be 1 g.axles ++ kg g.limit) c.groups ++ listOf (fun r => be 1 r.1 ++ be 1 r.2) c.ranges ++ be 1 c.total
    ++ kg c.combination
    ++ beInt 2 c.tolerance

/-- Read Axles (R103). -/
def axleOctets (r : AxleReport) : List Octet :=
  be 1 r.entered ++ be 1 r.exited ++ optional 1 endOctet r.entryEnd ++ optional 1 travelOctet r.travel
    ++ optional 1 (be 1) r.firstAxle ++ optional 1 (be 1) r.lastAxle ++ be 2 r.disagreements ++ mark r.axleCount
    ++ configOctets r.config ++ optional 1 (be 1) r.total ++ be 1 r.used ++ listOf (optional 6 capturedOctets) r.groups
    ++ mark r.inconsistent

/-- A visit (R111), its draft state with one group record for each group of its configuration (R91), then whether it is
queued and the end and arrival number of its queue entry, each a field that may be absent. -/
def visitOctets (v : Visit) (groups : List (Option CapturedGroup)) (inUse axleCount : Bool)
    (queued : Option (BridgeEnd × Nat)) : List Octet :=
  identOctets v.ident ++ kindOctet v.kind ++ be 1 v.commodity ++ configOctets v.config ++ classOctets v.cls
    ++ optionsOctet v ++ visitStateOctet v.state ++ optionalRecord weighOctets v.first ++ be 1 v.draft.used
    ++ listOf (optional 6 capturedOctets) groups ++ mark v.draft.inconsistent ++ be 4 v.age
    ++ mark inUse ++ mark axleCount ++ mark queued.isSome ++ optional 1 endOctet (queued.map (·.1))
    ++ optional 4 (be 4) (queued.map (·.2))

/-- A valid tare slot (06 section 6.3). -/
def tareOctets (t : Tare) : List Octet :=
  identOctets t.ident ++ kg t.tare ++ second (t.origin = .keyed) ++ be 4 t.epoch ++ dateOctets t.stored
    ++ classOctets t.cls

/-- A total. -/
def totalOctets (t : Total) : List Octet := be 4 t.net ++ be 2 t.count ++ mark t.ovf

/-- A flagged count. -/
def flaggedOctets (f : Flagged) : List Octet := be 2 f.count ++ mark f.ovf

/-- The totals of a shift (R142): commodities 0 to 15, both kinds of each, then the flagged counts and the marks. -/
def shiftOctets (t : ShiftTotals) : List Octet :=
  (List.range 32).flatMap (fun k => totalOctets ((Table.get? t.totals k).getD { net := 0, count := 0, ovf := false }))
    ++ (List.range 16).flatMap (fun c => flaggedOctets ((Table.get? t.flagged c).getD { count := 0, ovf := false }))
    ++ optional 5 keyOctets t.firstKey ++ optional 5 keyOctets t.lastKey

/-- The audit summary (R162). Each claim is a field that may be absent, in the order in which R159 meets them: lockout,
access, run (log 36). -/
def summaryOctets (a : AuditSummary) : List Octet :=
  be 1 a.held ++ optional 4 (be 4) a.oldest ++ optional 4 (be 4) a.newest ++ optional 4 (be 4) a.next ++ be 1 a.free
    ++ optional 1 mark a.lockoutClaim ++ optional 1 mark a.accessClaim ++ optional 1 mark a.runClaim ++ mark a.spare
    ++ beInt 2 a.headroom

/-- The kind of an audit record and its kind-specific list (08 section 8.6). -/
def bodyOctets : AuditBody → List Octet
  | .calChange changes further =>
    be 1 0 ++ listOf (fun c => be 2 c.id ++ grams c.old ++ grams c.new) changes ++ be 1 further
  | .verifyPass points worst failing => be 1 1 ++ be 1 points ++ grams worst ++ be 1 failing
  | .verifyFail points worst failing => be 1 2 ++ be 1 points ++ grams worst ++ be 1 failing
  | .keyedTare id tare => be 1 3 ++ identOctets id ++ kg tare
  | .lockoutClear code => be 1 4 ++ lockOctet code
  | .seriesRoll series => be 1 5 ++ be 1 series
  | .restartOrdered => be 1 6

/-- An audit record; its kind comes after the number, as the table of 08 section 8.6 orders the fields. -/
def recordOctets (r : AuditRecord) : List Octet :=
  be 4 r.number ++ (bodyOctets r.body).take 1 ++ timeOctets r.time ++ be 4 r.epochBefore ++ be 4 r.epochAfter
    ++ (bodyOctets r.body).drop 1

/-- A recorded test point (09 section 9.2). -/
def pointOctets (p : TestPoint) : List Octet :=
  be 1 p.number ++ targetOctet p.target ++ kg p.reference ++ be 4 p.round ++ grams p.indicated ++ grams p.error
    ++ grams p.mpe ++ second (!p.pass) ++ timeOctets p.time

/-- A waiting point (R174). -/
def waitingOctets (w : WaitingPoint) : List Octet :=
  targetOctet w.target ++ kg w.reference ++ be 1 w.secondsLeft ++ mark w.restart.isSome

/-- A verification run (R174). -/
def runOctets (r : Run) : List Octet :=
  timeOctets r.time ++ be 4 r.epoch ++ listOf pointOctets r.points ++ optional 7 waitingOctets r.waiting

/-- A deck of a snapshot (09 section 9.4): six fields that may each be absent. -/
def snapshotDeckOctets (d : SnapshotDeck) : List Octet :=
  optional 1 validityOctet (some d.validity) ++ optional 5 grams d.raw ++ optional 5 grams d.linearized
    ++ optional 5 grams d.filtered ++ optional 5 grams (some d.zeroUsed) ++ optional 5 grams d.gross

/-- A snapshot (09 section 9.4); the stability verdict is a named value, 0 stable and 1 unstable (log 36). Where there
were no round values the list of decks is empty (log 41). -/
def snapshotOctets (x : Snapshot) : List Octet :=
  be 4 x.number ++ snapshotKindOctet x.kind ++ timeOctets x.time ++ be 4 x.epoch ++ optional 4 (be 4) x.round
    ++ x.cells.flatMap (fun c => mark c.configured ++ optional 1 conditionOctet c.condition
        ++ optional 4 (beInt 4) c.lastCount ++ optional 1 cellStatusOctet c.lastStatus)
    ++ listOf snapshotDeckOctets x.decks ++ optional 5 grams x.gross ++ optional 4 kg x.rounded
    ++ optional 1 (fun b => second (!b)) x.stable
    ++ optional 12 identOctets x.ident ++ optional 1 (be 1) x.draft

/-- A row of List Snapshots (R178). -/
def snapshotRowOctets (x : SnapshotRow) : List Octet :=
  be 4 x.number ++ snapshotKindOctet x.kind ++ timeOctets x.time ++ optional 12 identOctets x.ident

/-- A raise record. -/
def raiseOctets (r : RaiseRecord) : List Octet := faultKeyOctets r.key ++ timeOctets r.time

/-- The lockout record (R187), its cleared mark and the number of its LOCKOUT_CLEAR record, absent until it is cleared
(R190). That the mark stands also in a record not cleared is the model's choice (log 41). -/
def lockRecordOctets (r : LockRecord) : List Octet :=
  lockOctet r.code ++ timeOctets r.time ++ bridgeStateOctet r.bridge ++ optional 12 identOctets r.ident
    ++ optional 4 kg r.lastStable ++ be 4 r.epoch ++ listOf faultKeyOctets r.present ++ mark r.cleared.isSome
    ++ optional 4 (be 4) r.cleared

/-- A register entry (R180). A metrological entry, which has no outstanding mark, is sent with that mark clear and no
presence octet: the model's choice (log 41). -/
def faultEntryOctets (e : FaultEntry) : List Octet :=
  faultKeyOctets e.key ++ mark e.present ++ mark e.outstanding ++ be 2 e.count ++ optional 7 timeOctets e.raisedAt

/-- Read Faults (R190). The lockout state is its code as a field that is absent while UNLOCKED (log 36); the ten policies
come in the order of the classes (DESIGN CHOICE, log 55). -/
def faultReportOctets (r : FaultReport) : List Octet :=
  mark r.flag.isSome ++ optional 9 raiseOctets r.flag ++ optional 1 lockOctet r.lockout
    ++ optionalRecord lockRecordOctets r.record ++ r.policies.flatMap policyOctet ++ listOf faultEntryOctets r.entries
    ++ mark r.fault ++ mark r.byPresent ++ mark r.byFlag ++ mark r.byMark ++ mark r.byLockout

/-- The numbers of the regions found lost, in the order of R203 (DESIGN CHOICE, log 55). -/
def lostNumbers (l : LostRegions) : List Nat :=
  ([(l.calibration, 0), (l.audit, 1), (l.visits, 2), (l.tares, 3), (l.tickets, 4), (l.site, 5), (l.evidence, 6)].filter
    (·.1)).map (·.2)

/-- The last outcome of the Capture Unit (R46). -/
def outcomeOctets (o : CaptureOutcome) : List Octet :=
  originOctets o.origin ++ optional 12 identOctets o.ident ++ statusOctet o.outcome ++ optional 4 (be 4) o.round

/-- The site settings (R200), in order of id (DESIGN CHOICE, log 55). -/
def settingsOctets (s : SiteSettings) : List Octet :=
  ([if s.autoCapture then 1 else 0, s.captureTimeout, s.grantTimeout, s.visitTimeout, s.validity,
    if s.holdExit then 1 else 0, s.classA, s.classB, if s.copyToMetrology then 1 else 0] : List Nat).flatMap (be 4)

/-! ### Notices (R198) -/

/-- A notice's content after its number. The reasons of SERIES_ROLLED, AUTOMATIC (R133) and REQUESTED (R135), stand in no
one list: the model sends 0 and 1; the kind in VERIFICATION_ENDED is numbered as the audit kinds are (DESIGN CHOICE, log
53). FAULT_RAISED carries its outcome and then the code of a lockout entered, a field that may be absent (R181; DESIGN
CHOICE, log 57). -/
def Notice.octets : Notice → List Octet
  | .captureOutcome o id outcome acc =>
    originOctets o ++ identOctets id ++ statusOctet outcome ++ optional 4 (be 4) (acc.map (·.round))
      ++ optional 4 kg (acc.map (·.weight)) ++ optional 1 (be 1) (acc.map (·.draft))
  | .granted id e => identOctets id ++ endOctet e
  | .noShow id => identOctets id
  | .intrusion e id => endOctet e ++ optional 12 identOctets id
  | .exitWithheld id => identOctets id
  | .axleCount id entered total => identOctets id ++ be 1 entered ++ be 1 total
  | .reposition id first last groups decks =>
    identOctets id ++ be 1 first ++ be 1 last ++ be 1 groups ++ listOf (be 1) decks
  | .overVerdict id draft groups comb =>
    identOctets id ++ be 1 draft ++ listOf (fun g => be 1 g.group ++ kg g.weight ++ kg g.limit) groups
      ++ optional 4 kg (comb.map (·.1)) ++ optional 4 kg (comb.map (·.2))
  | .weighingRestarted id => identOctets id
  | .traceFrozen r => freezeOctets r
  | .firstWeighed id kind weight source comb drafts =>
    identOctets id ++ kindOctet kind ++ kg weight ++ sourceOctet source ++ verdictOctet comb ++ be 1 drafts
  | .tareGone id gross reason => identOctets id ++ kg gross ++ second (reason = .notHeld)
  | .leftUnweighed id which drafts => identOctets id ++ second (which = .second) ++ be 1 drafts
  | .visitExpired id kind state first =>
    identOctets id ++ kindOctet kind ++ visitStateOctet state ++ optional 4 kg (first.map (·.1))
      ++ optional 7 timeOctets (first.map (·.2))
  | .tareReplaced id slot => identOctets id ++ be 1 slot
  | .tareTableFull id tare => identOctets id ++ kg tare
  | .seriesRolled series reason => be 1 series ++ second (reason = .requested)
  | .sequenceExhausted => []
  | .ticketRingFull oldest newest => keyOctets oldest ++ keyOctets newest
  | .ticketIssued key id kind commodity gross tare net flags =>
    keyOctets key ++ identOctets id ++ kindOctet kind ++ be 1 commodity ++ kg gross ++ kg tare ++ kg net
      ++ flagOctets flags
  | .ticketIssuedShort key id net flags => keyOctets key ++ identOctets id ++ kg net ++ flagOctets flags
  | .calibrationCommitted n => be 4 n.epoch ++ be 4 n.record ++ be 1 n.changes
  | .accessClosed => be 1 0
  | .auditNearFull held free headroom => be 1 held ++ be 1 free ++ beInt 2 headroom
  | .testPointRecorded p =>
    be 1 p.number ++ targetOctet p.target ++ kg p.reference ++ be 4 p.round ++ grams p.indicated ++ grams p.error
      ++ grams p.mpe ++ second (!p.pass)
  | .testPointEnded target reference code => targetOctet target ++ kg reference ++ statusOctet code
  | .verificationEnded record pass points worst failing =>
    be 4 record ++ be 1 (if pass then 1 else 2) ++ be 1 points ++ grams worst ++ be 1 failing
  | .snapshotTaken number kind slot replaced =>
    be 4 number ++ snapshotKindOctet kind ++ be 1 slot ++ optional 4 (be 4) (replaced.map (·.1))
      ++ optional 1 snapshotKindOctet (replaced.map (·.2))
  | .faultRaised key metrological policy outcome time detail =>
    faultKeyOctets key ++ mark metrological ++ policyOctet policy ++ raiseOutcomeOctets outcome ++ timeOctets time
      ++ optional 1 dirOctet (detail.map (·.dir)) ++ optional 1 (be 1) (detail.map (·.entered))
      ++ optional 1 (be 1) (detail.map (·.exited))
  | .lockoutEntered code time => lockOctet code ++ timeOctets time
  | .lockoutCleared code record => lockOctet code ++ be 4 record

/-! ### Replies (R192, R196) -/

/-- The content of a reply. Read Deck Values sends one list with a zero offset and a history count for each deck (log
36); Read Calibration State sends the number of commits whose retained write has not completed, which the spec gives no
range, in four octets (log 40). Check Tare sends FOUND and NONE as two layouts: the outcome's octet, 0 or 1, then only
the fields of that outcome (DESIGN CHOICE, log 47). Read Last Shift sends the record in the layout of Read Totals, then
its site time (DESIGN CHOICE, log 50); Read Tare Slot sends the valid flag as the presence octet of the slot's record and
no octet of its own, and the mark of a period that has run out within that record (DESIGN CHOICE, log 51). -/
def Content.octets : Content → List Octet
  | .empty => []
  | .notice n => be 1 n.number ++ n.octets
  | .siteTime clock isSet => timeOctets clock ++ mark isSet
  | .settings s => settingsOctets s
  | .cell r => cellOctets r
  | .busStatus index period overruns present valid =>
    be 4 index ++ grams period ++ be 1 overruns ++ mark present ++ listOf mark valid
  | .liveWeight word value index => be 1 word.code ++ optional 4 kg value ++ optional 4 (be 4) index
  | .deckValues values zeros counts =>
    optionalRecord roundOctets values ++ listOf (fun e => grams e.1 ++ be 1 e.2) (zeros.zip counts)
  | .capture waiting arm last =>
    second waiting.isSome
      ++ optional 19 (fun c => originOctets c.origin ++ identOctets c.ident ++ be 1 c.secondsLeft
          ++ mark c.restart.isSome) waiting
      ++ mark arm ++ optional 24 outcomeOctets last
  | .arrival n => be 4 n
  | .bridge r => bridgeOctets r
  | .configuration c => optionalRecord configurationOctets c
  | .axles r => axleOctets r
  | .trace frozen held samples =>
    mark frozen.isSome ++ optional 19 freezeOctets frozen ++ be 2 held ++ listOf sampleOctets samples
  | .removed n => be 2 n
  | .invalidated n => be 1 n
  | .position p => be 1 p
  | .visit v groups inUse axleCount queued => visitOctets v groups inUse axleCount queued
  | .visitList held rows =>
    be 2 held ++ listOf (fun r => be 1 r.position ++ identOctets r.ident ++ kindOctet r.kind ++ visitStateOctet r.state
      ++ mark r.inUse ++ be 4 r.age) rows
  | .tareFound n t =>
    be 1 0 ++ be 1 n ++ kg t.tare ++ second (t.origin = .keyed) ++ be 4 t.epoch ++ dateOctets t.stored
      ++ classOctets t.cls
  | .tareNone reason => be 1 1 ++ second (reason = .notHeld)
  | .slot n => be 1 n
  | .tareSlot t pointer learned keyed =>
    optional 27 (fun x => tareOctets x.1 ++ mark x.2) t ++ be 1 pointer ++ be 1 learned ++ be 1 keyed
  | .sequence n next exhausted last =>
    be 1 n ++ optional 4 (be 4) next ++ mark exhausted ++ optional 5 keyOctets last
  | .series n => be 1 n
  | .collected n newest => be 1 n ++ keyOctets newest
  | .ticket t => ticketOctets t
  | .ring held oldest newest keys =>
    be 1 held ++ optional 5 keyOctets oldest ++ optional 5 keyOctets newest ++ listOf keyOctets keys
  | .shiftClosed t => timeOctets t
  | .totals t => shiftOctets t
  | .lastShift r => optional 291 (fun x => shiftOctets x.totals ++ timeOctets x.time) r
  | .parameter v => grams v
  | .calibrationState r =>
    second r.accessOpen ++ mark r.switchOn ++ be 4 r.epoch ++ mark r.notVerified ++ optional 1 (be 1) r.differences
      ++ optionalRecord (listOf mark) r.pointsInOrder ++ be 4 r.pendingCommits ++ summaryOctets r.audit
  | .calibratedZero v => grams v
  | .span load reference cells =>
    grams load ++ Config.ratioOctets reference load
      ++ listOf (fun c => be 1 c.address ++ grams c.old ++ grams c.new ++ mark c.clamped) cells
  | .auditRecord r => recordOctets r
  | .auditSummary a => summaryOctets a
  | .archived n oldest => be 1 n ++ optional 4 (be 4) oldest
  | .recordNumber n => be 4 n
  | .verification run notVerified => second run.isSome ++ optionalRecord runOctets run ++ mark notVerified
  | .snapshotTaken number n => be 4 number ++ be 1 n
  | .snapshot n x => snapshotOctets x ++ be 1 n
  | .snapshotList rows next => rows.flatMap (optional 25 snapshotRowOctets) ++ be 4 next
  | .raise r => raiseOctets r
  | .acknowledged n => be 1 n
  | .faults r => faultReportOctets r
  | .startCause r seconds => causeOctet r.cause ++ listOf (be 1) (lostNumbers r.lost) ++ be 4 seconds

/-- The payload of a reply: status code, port status, content (R196). -/
def Reply.payload (r : Reply) : List Octet := statusOctet r.status ++ [r.portStatus] ++ r.content.octets

/-- R192: a frame, from a kind, a tag and a payload; none where the payload is longer than a frame carries (log 14). -/
def frame (kind tag : Octet) (payload : List Octet) : Option (List Octet) :=
  if payload.length ≤ 240 then
    let body := be 1 payload.length ++ [kind, tag] ++ payload
    some ([0xA5#8] ++ body ++ be 2 (crc16 body).toNat)
  else none

/-- The frame in which a reply is sent. -/
def Reply.frame (r : Reply) : Option (List Octet) := Machine.frame r.kind r.tag r.payload

end Sys2Proof.Machine
end

