-- ==== Sys2Proof/Tests/Slice0.lean ====
section
/-! SUPPORT. Tests of the model, each against a figure of the manual named in its comment, the smoke tests of the
well-formedness checks, and the states and operands that meet the hypotheses of each statement. -/

namespace Sys2Proof.Tests

set_option Elab.async false

open Sys2Proof.Machine

/-! ### Helpers -/

/-- The next state of an outcome. -/
def nxt (o : Host.Outcome State Fault Refusal) : State :=
  match o with
  | .next t => t
  | _ => State.reset

/-- The state after commands. -/
def run (s : State) (cs : List Instr) : State := cs.foldl (fun t c => nxt (exec c t)) s

/-- The replies pending on a port, as status and content. -/
def said (p : Port) (s : State) : List (Status × Content) := (s.port p).replies.map (fun r => (r.status, r.content))

/-- One lamp lit. -/
def lamp : Aspect → Lamps
  | .red => { red := true, amber := false, green := false }
  | .amber => { red := false, amber := true, green := false }
  | .green => { red := false, amber := false, green := true }

/-- A calm state with the bridge FREE. -/
def free : State :=
  { State.reset with phase := .running, bridge.state := .free, bridge.startMark := false, bridge.lampsA := lamp .red,
                     bridge.lampsB := lamp .red }

/-- A number in octets, high octet first. -/
def be (len n : Nat) : List Octet := (List.range len).map (fun i => BitVec.ofNat 8 (n / 256 ^ (len - 1 - i)))

/-- An ident field of one character and eleven octets of 0. -/
def idf (c : Nat) : List Octet := be 1 c ++ List.replicate 11 0#8

/-- A visit of the ident A, with catalogue entry 1. -/
def visitA : Visit :=
  { ident := [0x41#8], kind := .delivery, commodity := 3, config := some 1, cls := none, useStored := false,
    learn := false, state := .awaitingFirst, first := none,
    draft := { used := 0, groups := [], inconsistent := false }, age := 0 }

/-- `free` with that visit at position 0. -/
def withVisit : State := { free with visits := [(0, visitA)] }

/-- A calm state in which the visit at position 0 holds the grant from end A. -/
def granted : State :=
  { withVisit with
    visits := [(0, visitA.granted)], inUse := some 0, bridge.state := .granted,
    bridge.grant := some { ident := [0x41#8], entryEnd := .a },
    bridge.grantTimer := some { secondsLeft := 120, paused := false }, bridge.aspectA := .green,
    bridge.lampsA := lamp .green }

/-- A calm state with two axles of that vehicle on the bridge. -/
def occupied : State :=
  { granted with
    bridge.state := .occupied, bridge.grantTimer := none, bridge.aspectA := .red, bridge.lampsA := lamp .red,
    axles.entered := 2 }

/-- `occupied` with a capture WAITING. -/
def capturing : State :=
  { occupied with
    capture.waiting := some { origin := .request .lane 9#8, ident := [0x41#8], secondsLeft := 20, restart := none } }

/-- A calibration table with parameters set. -/
def tab (ps : List (Nat × Int)) : CalTable := ps.foldl (fun t e => t.put e.1 e.2) []

/-- A calibration table of one deck that cell 1 and cell 2 carry, with serial numbers 111 and 222. -/
def table2 : CalTable := tab [(1010, 1), (1013, 111), (1020, 1), (1023, 222)]

/-- `free` under that table, its round in progress, the reply window of cell 1 open. -/
def polling : State :=
  { free with
    cal.committed := table2
    bus := { free.bus with table := table2, inProgress := true, toPoll := [2], poll := .window 1 [], index := 7,
                           periodTimer := true,
                           records := [(1, { CellRecord.absent with configured := true, condition := some .missing,
                                                                     miss := 2 })] } }

theorem test_states_are_calm :
    free.calm = true ∧ withVisit.calm = true ∧ granted.calm = true ∧ occupied.calm = true ∧ capturing.calm = true ∧
      polling.calm = true := by decide +kernel

theorem test_states_are_consistent :
    free.bridgeConsistent = true ∧ granted.bridgeConsistent = true ∧ occupied.bridgeConsistent = true ∧
      capturing.bridgeConsistent = true := by decide +kernel

/-! ### Well-formedness: an ill-formed term for each check -/

theorem test_wf_refuses_a_short_answer : Instr.wf (.cellAnswer [0x5A#8, 1#8]) = false := by decide +kernel

theorem test_wf_refuses_an_answer_of_another_start :
    Instr.wf (.cellAnswer (0x5B#8 :: List.replicate 10 0#8)) = false := by decide +kernel

theorem test_wf_refuses_a_position_beyond_the_table : Instr.wf (.visitTimeout 256) = false := by decide +kernel

theorem test_wf_refuses_a_known_kind : Instr.wf (.unknownKind .lane 20#8 0#8 []) = false := by decide +kernel

theorem test_wf_refuses_a_payload_beyond_a_frame :
    Instr.wf (.readCell .gatehouse 0#8 (List.replicate 241 0#8)) = false ∧
      Instr.wf (.unknownKind .lane 0#8 0#8 (List.replicate 241 0#8)) = false := by decide +kernel

theorem test_wf_takes_the_others :
    Instr.wf (.readCell .gatehouse 0#8 (List.replicate 240 0#8)) = true ∧ Instr.wf (.visitTimeout 255) = true ∧
      Instr.wf (.unknownKind .lane 0#8 0#8 []) = true ∧ Instr.wf (.cellAnswer (0x5A#8 :: List.replicate 10 0#8)) = true := by
  decide +kernel

theorem test_the_table_gives_no_bits : decodeTableWord 8 0 = none ∧ (free.withFetchWord 8 0) = free := by decide +kernel

/-! ### The cell bus (01) -/

/-- R3: the poll of cell 5 is 0x5A, 0x05 and their exclusive-or 0x5F. -/
theorem test_poll_of_cell_5 : pollOctets 5 = [0x5A#8, 0x05#8, 0x5F#8] := by decide +kernel

/-- R3: an answer of cell 1 written out: serial 111 (0x0000006F), count −2 (0xFFFFFE), status OK; its check octet is
0x5A ^ 0x01 ^ 0x6F ^ 0xFF ^ 0xFF ^ 0xFE = 0xCA. -/
def answer1 : List Octet := [0x5A#8, 0x01#8, 0x00#8, 0x00#8, 0x00#8, 0x6F#8, 0xFF#8, 0xFF#8, 0xFE#8, 0x00#8, 0xCA#8]

theorem test_answer_is_read : cellReply answer1 1 = some { serial := 111, count := -2, status := .ok } := by decide +kernel

theorem test_answer_of_another_address_is_none : cellReply answer1 2 = none := by decide +kernel

/-- 1.9.1: the third poll without a reply makes the cell SILENT and CELL_SILENT present. -/
theorem test_third_miss :
    ((run polling [.replyWindowClose]).bus.record 1).condition = some .silent ∧
      ((run polling [.replyWindowClose]).faultEntry (cellKey .cellSilent 1)).present = true := by decide +kernel

/-- 1.9.1: the reply that ends the run of misses makes CELL_SILENT absent and the cell ONLINE. -/
theorem test_reply_ends_the_silence :
    let s := { polling with bus.records := [(1, { CellRecord.absent with configured := true, condition := some .silent,
                                                                         miss := 4 })] }
    ((run s [.cellAnswer answer1]).bus.record 1).condition = some .online ∧
      ((run s [.cellAnswer answer1]).bus.record 1).miss = 0 := by decide +kernel

/-- R4, R7: a reply of another serial number is a mismatch whatever its status; its count is not recorded. -/
theorem test_serial_mismatch :
    let s := { polling with bus.table := table2.put 1013 112 }
    ((run s [.cellAnswer answer1]).bus.record 1).condition = some .substituted ∧
      ((run s [.cellAnswer answer1]).bus.record 1).lastCount = none ∧
      ((run s [.cellAnswer answer1]).bus.record 1).lastSerial = some 111 := by decide +kernel

/-- 1.9.2: the third overrun makes ROUND_OVERRUN present at the expiry of the timer. -/
theorem test_third_overrun :
    ((run { polling with bus.overruns := 2 } [.roundPeriodExpiry]).faultEntry overrunKey).present = true ∧
      ((run { polling with bus.overruns := 1 } [.roundPeriodExpiry]).faultEntry overrunKey).present = false := by decide +kernel

/-- R2: after a round that ended within its period the next one starts at the expiry, under the next index (R9). -/
theorem test_expiry_starts_the_next_round :
    let s := { polling with bus.inProgress := false, bus.poll := .idle, bus.toPoll := [], bus.index := 4294967295 }
    (run s [.roundPeriodExpiry]).bus.poll = .sending 1 ∧ (run s [.roundPeriodExpiry]).bus.index = 1 := by decide +kernel

/-- R3: the window opens when the poll has been sent. -/
theorem test_poll_sent :
    (run { polling with bus.poll := .sending 1 } [.pollSent]).bus.poll = .window 1 [] := by decide +kernel

/-- R3: the answer of a window is the first: after one with a wrong check octet a good one is left over, and the close
of the window ends the poll without a reply. Octets before the first 0x5A are discarded. -/
theorem test_one_answer_in_a_window :
    let bad := answer1.take 10 ++ [0#8]
    ((run polling [.cellAnswer bad, .cellAnswer answer1]).bus.poll = .window 1 bad) ∧
      ((run polling [.cellAnswer bad, .cellAnswer answer1, .replyWindowClose]).bus.record 1).condition = some .silent ∧
      ((run polling [.cellAnswer ([0#8, 7#8] ++ answer1.take 4), .cellAnswer (answer1.drop 4)]).bus.record 1).lastCount =
        some (-2) := by decide +kernel

/-- R15: an address outside 1 to 16 is refused. -/
theorem test_read_cell_range :
    said .gatehouse (run polling [.readCell .gatehouse 1#8 [17#8]]) = [(.noSuchCell, .empty)] := by decide +kernel

theorem test_read_bus_status :
    said .gatehouse (run polling [.readBusStatus .gatehouse 1#8 []]) = [(.ok, .busStatus 0 40 0 false [false])] := by
  decide +kernel

/-- R15, R201: the round period is sent as any calibration parameter is, in five octets. -/
theorem test_bus_status_octets :
    Content.octets (.busStatus 7 80 2 true [true, false]) =
      [0#8, 0#8, 0#8, 7#8] ++ [0#8, 0#8, 0#8, 0#8, 80#8] ++ [2#8] ++ [1#8] ++ [2#8, 1#8, 0#8] := by decide +kernel

/-! ### Weight arithmetic (02) -/

/-- R16: the six rows of its table. -/
theorem test_rounding_rows :
    roundDiv (5000 * 12680031) 20000000 = 3170 ∧ roundDiv 12930000 20000 = 647 ∧ roundDiv (-12930000) 20000 = -647 ∧
      roundDiv 90748671 4 = 22687168 ∧ roundDiv (-1) 2 = -1 ∧ roundDiv 4999 10000 = 0 := by decide +kernel

/-- 2.3, note: 30.5 g for each count. -/
theorem test_cell_weight_half_grams :
    cellWeight (tab [(1012, 1998848)]) 1 185001 = 5642531 ∧
      cellWeight (tab [(1012, 1998848)]) 1 (-185001) = -5642531 := by decide +kernel

/-- 2.5.1: the corrections of deck 2. -/
theorem test_correction_rows :
    let p : List (Int × Int) := [(10000000, 4000), (30000000, 9000), (50000000, 6000)]
    correction p (-45000) = 0 ∧ correction p 2500000 = 1000 ∧ correction p 10000000 = 4000 ∧
      correction p 22680031 = 7170 ∧ correction p 40000000 = 7500 ∧ correction p 58000000 = 6000 := by decide +kernel

/-- 2.13.1: the filtered value of deck 2 with N = 4. -/
theorem test_filter_of_deck_2 :
    filtered (tab [(5, 4)]) (appendHistory [5, 22686950, 22687420, 22687100] 22687201) = 22687168 := by decide +kernel

/-- 2.13.3: decks 2 to 4 and the bridge, with e = 20. -/
theorem test_rounded_weights :
    roundedKg [] 22648768 = 22640 ∧ roundedKg [] 17415040 = 17420 ∧ roundedKg [] 12930000 = 12940 ∧
      roundedKg [] 52993836 = 53000 := by decide +kernel

/-- R29, note: two decks of 30,000 g. -/
theorem test_rounded_decks_differ_by_one_division : roundedKg [] 30000 = 40 ∧ roundedKg [] 60000 = 60 := by decide +kernel

/-- R30: exactly Max + 9e and exactly −20e are NORMAL. -/
theorem test_range_limits :
    rangeVerdict [] 40000 40180000 = .normal ∧ rangeVerdict [] 40000 40180001 = .overload ∧
      rangeVerdict [] 40000 (-400000) = .normal ∧ rangeVerdict [] 40000 (-400001) = .underload := by decide +kernel

/-- R21: exactly four times deck Max passes. -/
theorem test_gross_range :
    grossRangeOk [] 1 240000000 = true ∧ grossRangeOk [] 1 240000001 = false ∧
      grossRangeOk [] 1 (-240000001) = false := by decide +kernel

theorem test_read_live_weight :
    said .lane (run free [.readLiveWeight .lane 1#8 []]) = [(.ok, .liveWeight .invalid none none)] := by decide +kernel

theorem test_read_deck_values :
    said .metrology (run free [.readDeckValues .metrology 1#8 []]) = [(.ok, .deckValues none [0] [0])] := by decide +kernel

/-! ### Stability, zero and capture (03) -/

/-- Window entries of grosses, of rounds that ended one after another from a moment on. -/
def entries (from_ : Nat) (gs : List Int) : List WindowEntry :=
  (gs.zip (List.range gs.length)).map (fun g => { gross := g.1, index := from_ + g.2, moment := from_ + g.2 })

/-- 3.5.1: with S = 4 and a band of 20,000 g, round 501 is unstable, 502 and 505 are stable. -/
theorem test_stability_rows :
    let t : CalTable := tab [(6, 4)]
    windowStable t (entries 497 [41212000, 41236000, 41254000, 41262000, 41266000]) = false ∧
      windowStable t (entries 498 [41236000, 41254000, 41262000, 41266000, 41268000]) = true ∧
      windowStable t (entries 502 [41268000, 41270000, 41265000, 41267000]) = true := by decide +kernel

/-- 3.5.1: after a treadle event that came after round 501, round 504 does not complete the wait and round 505 does. -/
theorem test_wait_after_a_treadle_event :
    let s (gs : List WindowEntry) : State :=
      { free with weigh.roundTable := tab [(6, 4)], weigh.window := gs, weigh.stable := true }
    (s (entries 501 [41266000, 41268000, 41270000, 41265000])).waitComplete (some 501) = false ∧
      (s (entries 502 [41268000, 41270000, 41265000, 41267000])).waitComplete (some 501) = true := by decide +kernel

/-- One valid deck of a round by its filtered value, the zero used and its gross. -/
def deck (f z : Int) : DeckValues :=
  { validity := .valid, linearizationDisabled := false, raw := some f, linearized := some f, filtered := some f,
    filterCount := some 4, zeroUsed := z, gross := some (f - z), rounded := some (roundedKg [] (f - z)),
    range := some .normal }

/-- 3.5.3: the start-up zero reduces the entries by 6,260 g. -/
theorem test_start_up_zero_shift :
    zeroShift [deck 21150 20000, deck 38400 36000, deck 40250 41000, deck 33460 30000]
      [(1, 21150), (2, 38400), (3, 40250), (4, 33460)] = 6260 := by decide +kernel

/-- Round values of decks whose bridge gross is given. -/
def values (ds : List DeckValues) (g : Int) : RoundValues :=
  { index := 5, overrun := false, decks := ds, valid := true, gross := some g, rounded := some (roundedKg [] g),
    bridgeRange := some .normal, range := .normal }

/-- `free` with a stable round of one deck, its start-up zero made at 1,000 g. -/
def weighed (f : Int) : State :=
  { free with
    weigh.latest := some (values [deck f 1000] (f - 1000)), weigh.stable := true, weigh.zeroUnset := false,
    weigh.zero := [(1, 1000)], weigh.startZero := [(1, 1000)],
    weigh.window := [{ gross := f - 1000, index := 5, moment := 5 }], cal.notVerified := false }

/-- R42: deck Max 60,000 kg gives a working range of 1,200,000 g. -/
theorem test_zero_set_within_the_working_range :
    said .lane (run (weighed 1201000) [.zeroSet .lane 1#8 []]) = [(.ok, .empty)] ∧
      (run (weighed 1201000) [.zeroSet .lane 1#8 []]).weigh.zero = [(1, 1201000)] := by decide +kernel

theorem test_zero_set_beyond_the_working_range :
    said .lane (run (weighed 1201001) [.zeroSet .lane 1#8 []]) = [(.zeroRange, .empty)] := by decide +kernel

/-- R44: with zero tracking on, a deck within 0.5e (10,000 g) is tracked and one beyond it is not. -/
theorem test_tracking :
    let s (f : Int) : State := { weighed f with cal.committed := tab [(8, 1)] }
    (run (s 11000) [.trackingTimerExpiry]).weigh.zero = [(1, 11000)] ∧
      (run (s 11001) [.trackingTimerExpiry]).weigh.zero = [(1, 1000)] := by decide +kernel

/-- `occupied` by a vehicle with the start-up zero made, so that a capture may begin. -/
def weighing : State := { occupied with weigh.zeroUnset := false, cal.notVerified := false }

theorem test_request_capture :
    said .lane (run weighing [.requestCapture .lane 1#8 []]) = [(.accepted, .empty)] ∧
      (run weighing [.requestCapture .lane 1#8 []]).capture.waiting.map (·.secondsLeft) = some 20 := by decide +kernel

/-- R47: the first condition of the table gives the refusal. -/
theorem test_request_capture_refused :
    said .lane (run free [.requestCapture .lane 1#8 []]) = [(.noVehicle, .empty)] ∧
      said .lane (run occupied [.requestCapture .lane 1#8 []]) = [(.zeroUnset, .empty)] := by decide +kernel

theorem test_read_capture :
    said .lane (run free [.readCapture .lane 1#8 []]) = [(.ok, .capture none false none)] := by decide +kernel

/-- R52: the timeout refuses the WAITING capture and tells the Lane Port. -/
theorem test_capture_timeout :
    (run capturing [.captureTimeout]).capture.waiting = none ∧
      ((run capturing [.captureTimeout]).port .lane).notices =
        [.captureOutcome (.request .lane 9#8) [0x41#8] .captureTimeout none] := by decide +kernel

/-- R56, R57: with auto-capture on and the arm set, the quiet timer begins an AUTO capture. -/
theorem test_auto_capture :
    let s : State := { weighing with site.settings.autoCapture := true, capture.arm := true, capture.quietTimer := true }
    (run s [.quietTimerExpiry]).capture.waiting.map (·.origin) = some .auto := by decide +kernel

/-- R53: a hold that comes into force refuses the WAITING capture with HELD. -/
theorem test_hold_refuses_the_capture :
    (run capturing [.holdBridge .gatehouse 1#8 []]).capture.lastOutcome.map (·.outcome) = some .held := by decide +kernel

/-! ### Bridge access and holds (04) -/

/-- An arrival payload: ident and end. -/
def arrival (c e : Nat) : List Octet := idf c ++ be 1 e

/-- 4.2: an arrival at a FREE bridge is granted in the same event, GREEN at its end. -/
theorem test_arrival_is_granted :
    let t := run withVisit [.reportArrival .lane 1#8 (arrival 0x41 1)]
    said .lane t = [(.ok, .arrival 1)] ∧ t.bridge.state = .granted ∧ t.bridge.aspectB = .green ∧
      (Table.get? t.visits 0).map (·.state) = some .firstInProgress := by decide +kernel

theorem test_arrival_without_a_visit :
    said .lane (run free [.reportArrival .lane 1#8 (arrival 0x41 1)]) = [(.noVisit, .empty)] ∧
      said .lane (run free [.reportArrival .lane 1#8 (arrival 0x61 1)]) = [(.badArgument, .empty)] := by decide +kernel

/-- 4.8.1, before grant 4: entries by ident, class, number and pass count. -/
def before4 : List QueueEntry :=
  [{ ident := [0x54#8], entryEnd := .a, arrival := 5, cls := 1, passes := 3 },
   { ident := [0x55#8], entryEnd := .a, arrival := 6, cls := 1, passes := 3 },
   { ident := [0x56#8], entryEnd := .a, arrival := 7, cls := 1, passes := 0 },
   { ident := [0x58#8], entryEnd := .b, arrival := 1, cls := 0, passes := 3 }]

/-- 4.8.1: grant 4 goes to T; U rises to class 2 and X to class 1; then U and then X are selected. -/
theorem test_promotion :
    (selectEntry before4).map (·.ident) = some [0x54#8] ∧
      (((before4.drop 1).map QueueEntry.promoted).map (fun q => (q.cls, q.passes))) = [(2, 0), (1, 1), (1, 0)] ∧
      (selectEntry ((before4.drop 1).map QueueEntry.promoted)).map (·.ident) = some [0x55#8] ∧
      (selectEntry ((before4.drop 2).map QueueEntry.promoted)).map (·.ident) = some [0x58#8] := by decide +kernel

/-- R59: at 999,999,999 the waiting entries are renumbered first. -/
theorem test_renumbering :
    let q : QueueEntry := { ident := [0x42#8], entryEnd := .a, arrival := 999999999, cls := 0, passes := 0 }
    let s : State := { occupied with bridge.arrivals := 999999999, bridge.waiting := [q]
                                     visits := occupied.visits ++ [(1, { visitA with ident := [0x43#8] })] }
    (run s [.reportArrival .lane 1#8 (arrival 0x43 0)]).bridge.waiting.map (·.arrival) = [1, 2] := by decide +kernel

theorem test_withdraw_arrival :
    said .lane (run granted [.withdrawArrival .lane 1#8 (idf 0x41)]) = [(.notQueued, .empty)] := by decide +kernel

/-- 4.8.2: the expiry first, the axle second: the no-show, then the intrusion without an ident. -/
theorem test_no_show_then_intrusion :
    let t := run granted [.grantTimerExpiry, .treadleEvent .a .inward]
    t.bridge.state = .occupiedUnknown ∧ (Table.get? t.visits 0).map (·.state) = some .awaitingFirst ∧
      (t.port .lane).notices = [.noShow [0x41#8], .intrusion .a none] := by decide +kernel

/-- 4.8.2: the axle first: OCCUPIED, and the expiry finds no timer. -/
theorem test_axle_then_expiry :
    let t := run granted [.treadleEvent .a .inward, .grantTimerExpiry]
    t.bridge.state = .occupied ∧ t.axles.entered = 1 ∧ t.bridge.grantTimer = none := by decide +kernel

/-- R68: an inward axle at the exit treadle in GRANTED withdraws the grant. -/
theorem test_intrusion_withdraws_the_grant :
    let t := run granted [.treadleEvent .b .inward]
    t.bridge.state = .occupiedUnknown ∧ t.bridge.grant = none ∧
      (t.port .gatehouse).notices = [.intrusion .b (some [0x41#8])] := by decide +kernel

/-- R70: Release Vehicle shows GREEN at the exit. -/
theorem test_release_vehicle :
    let t := run occupied [.releaseVehicle .gatehouse 1#8 []]
    t.bridge.state = .released ∧ t.bridge.aspectB = .green ∧ t.bridge.aspectA = .red := by decide +kernel

/-- R72: without a stable round Clear Bridge is refused with MOTION; below the threshold it ends the grant. -/
theorem test_clear_bridge :
    said .gatehouse (run occupied [.clearBridge .gatehouse 1#8 []]) = [(.motion, .empty)] ∧
      (run { occupied with weigh := (weighed 1000).weigh } [.clearBridge .gatehouse 1#8 []]).bridge.state = .free ∧
      said .gatehouse (run { occupied with weigh := (weighed 1001000).weigh } [.clearBridge .gatehouse 1#8 []]) =
        [(.bridgeOccupied, .empty)] := by decide +kernel

/-- R76 to R78: a hold pauses the grant timer and turns GREEN to RED; its release brings both back. -/
theorem test_hold_and_release :
    let t := run granted [.holdBridge .lane 1#8 []]
    let u := run t [.replySent .lane, .releaseHold .lane 2#8 []]
    t.bridge.aspectA = .red ∧ t.bridge.grantTimer.map (·.paused) = some true ∧
      u.bridge.aspectA = .green ∧ u.bridge.grantTimer.map (·.paused) = some false := by decide +kernel

theorem test_read_bridge :
    (match said .lane (run granted [.readBridge .lane 1#8 []]) with
     | [(_, .bridge r)] => decide (r.ident = some [0x41#8] ∧ r.travel = some .aToB ∧ r.endA.aspect = .green)
     | _ => false) = true := by decide +kernel

/-- R75: a dark signal starts the timer; its expiry makes LAMP_FEEDBACK present, and the FAULT source holds the bridge. -/
theorem test_lamp_feedback :
    let t := run free [.lampFeedbackChange .b lampsDark]
    let u := run t [.feedbackTimerExpiry .b]
    t.bridge.feedbackB = true ∧ (u.faultEntry (lampKey .b)).present = true ∧ u.bridge.holds.fault = true := by decide +kernel

/-! ### Axle groups and drafts (05) -/

/-- R83: its example of two events that arrive together, in both orders. -/
theorem test_crossings_in_both_orders :
    treadleChange true .inward 5 5 = some (6, 5) ∧ treadleChange false .outward 6 5 = some (6, 6) ∧
      treadleChange false .outward 5 5 = none ∧ treadleChange true .inward 255 0 = none ∧
      treadleChange false .inward 5 0 = none := by decide +kernel

/-- R84: a disagreement leaves the counts and is counted; with the default policy HOLD it holds the bridge. -/
theorem test_disagreement :
    let t := run occupied [.treadleEvent .b .inward]
    t.axles.entered = 2 ∧ t.axles.exited = 0 ∧ t.axles.disagreements = 1 ∧ t.bridge.holds.fault = true ∧
      (t.faultEntry (treadleKey .b)).present = false ∧ (t.faultEntry (treadleKey .b)).outstanding = true := by decide +kernel

/-- R86: the third axle of a vehicle of two sets the mark; backing off clears it. -/
theorem test_axle_count_mark :
    let t := run occupied [.treadleEvent .a .inward]
    t.axles.axleCount = true ∧ (t.port .lane).notices = [.axleCount [0x41#8] 3 2] ∧
      (run t [.treadleEvent .a .outward]).axles.axleCount = false := by decide +kernel

/-- The table of R88: T, the last axle range and the limits of codes 7 and 8. -/
theorem test_catalogue :
    (fixedConfiguration 7).map (·.total) = some 11 ∧ (fixedConfiguration 8).map (·.total) = some 16 ∧
      (fixedConfiguration 7).map (·.ranges) = some [(1, 1), (2, 3), (4, 6), (7, 8), (9, 11)] ∧
      (fixedConfiguration 6).map (fun c => (c.combination, (c.groups.map (·.limit)).sum)) = some (50500, 56000) := by
  decide +kernel

/-- Four decks by their rounded weights. -/
def decks4 (a b c d : Int) : List DeckValues :=
  [a, b, c, d].map (fun w => { deck (1000 * w) 0 with rounded := some w })

/-- Configuration 7. -/
def config7 : Configuration := (fixedConfiguration 7).getD { groups := [], combination := 0, tolerance := 0 }

/-- 5.7.1: the stop of draft 1. -/
def stop1 : Handoff :=
  { entered := 6, exited := 0, mark := false, travel := .aToB, draft := .empty, threshold := 1000, band := 60,
    decks := decks4 0 20640 16740 6120, rounded := 43500 }

/-- 5.7.1: the draft state after draft 1. -/
def draft1 : DraftState :=
  { used := 1, inconsistent := false
    groups := [(1, { weight := 6120, verdict := .within, draft := 1 }),
               (2, { weight := 16740, verdict := .advisory, draft := 1 }),
               (3, { weight := 20640, verdict := .over, draft := 1 })] }

theorem test_road_train_draft_1 :
    resolveDraft (some config7) stop1 =
      .result { draft := draft1, overGroups := [{ group := 3, weight := 20640, limit := 20000 }], overCombination := none,
                content := none } := by decide +kernel

/-- 5.7.3: the stop of draft 2, by the weight of deck 4. -/
def stop2 (deck4 : Int) : Handoff :=
  { stop1 with entered := 11, exited := 3, draft := draft1, decks := decks4 0 19880 16420 deck4 }

/-- 5.7.3: the COMPOSED gross of 79,800 kg, ADVISORY in combination, no OVER verdict given in draft 2. -/
theorem test_road_train_draft_2 :
    (match resolveDraft (some config7) (stop2 20600) with
     | .result d => decide (d.content.map (fun w => (w.weight, w.source, w.combination, w.inconsistent, w.drafts)) =
         some (79800, .composed, .advisory, false, 2) ∧ d.overGroups = [] ∧
         d.content.map (fun w => w.groups.map (·.weight)) =
           some [some 6120, some 16740, some 20640, some 16420, some 19880])
     | _ => false) = true := by decide +kernel

/-- 5.7.4: deck 4 at 20,720 kg: inconsistent; only two decks occupied: STRADDLE; six drafts used: DRAFT_LIMIT. And
5.7.2: axle 11 not yet on: PARTIAL_GROUP. -/
theorem test_road_train_variants :
    (match resolveDraft (some config7) (stop2 20720) with
     | .result d => d.draft.inconsistent
     | _ => false) = true ∧
      resolveDraft (some config7) { stop2 20600 with decks := decks4 0 0 16420 20600 } = .straddle 4 11 3 [4, 3] ∧
      resolveDraft (some config7) { stop2 20600 with draft := { draft1 with used := 6 } } = .refused .draftLimit ∧
      resolveDraft (some config7) { stop2 20600 with entered := 10 } = .refused .partialGroup := by decide +kernel

/-- R54, R85, R92: with as many axles exited as entered no axle is on the bridge, also inside a group: 5 and 5 with a
group 4 to 6 is NO_GROUP. -/
theorem test_no_group : resolveDraft (some config7) { stop1 with entered := 5, exited := 5 } = .refused .noGroup ∧
    resolveDraft (some config7) { stop1 with entered := 6, exited := 5 } = .refused .partialGroup := by decide +kernel

/-- 5.8: cases (a) and (b) of a vehicle of configuration 4 travelling B→A, and (b) after an earlier draft. -/
theorem test_one_stop :
    let h : Handoff := { entered := 6, exited := 0, mark := false, travel := .bToA, draft := .empty, threshold := 1000,
                         band := 60, decks := decks4 6240 14100 0 19860, rounded := 40220 }
    let b : Handoff := { h with decks := decks4 6240 9020 9100 15840, rounded := 40200 }
    (match resolveDraft (fixedConfiguration 4) h with
     | .result d => decide (d.content.map (fun w => (w.weight, w.source, w.combination)) = some (40220, .single, .within) ∧
         d.content.map (fun w => w.groups.map (fun g => (g.weight, g.verdict))) =
           some [(some 6240, .within), (some 14100, .within), (some 19860, .within)])
     | _ => false) = true ∧
    (match resolveDraft (fixedConfiguration 4) b with
     | .result d => decide (d.content.map (fun w => (w.weight, w.combination)) = some (40200, .within) ∧
         d.content.map (fun w => w.groups.map (·.verdict)) = some [.unresolved, .unresolved, .unresolved])
     | _ => false) = true ∧
    resolveDraft (fixedConfiguration 4) { b with draft := { DraftState.empty with used := 1 } } =
      .straddle 1 6 3 [1, 2, 3, 4] := by decide +kernel

/-- R89: the order of the refusals of Write Configuration. -/
theorem test_write_configuration :
    let payload (code groups : Nat) : List Octet :=
      be 1 code ++ be 1 groups ++ be 1 2 ++ be 4 6500 ++ List.replicate 35 0#8 ++ be 4 15500 ++ be 2 300
    said .gatehouse (run free [.writeConfiguration .gatehouse 1#8 (payload 25 1)]) = [(.noSuchConfiguration, .empty)] ∧
      said .gatehouse (run free [.writeConfiguration .gatehouse 1#8 (payload 8 1)]) = [(.fixedConfiguration, .empty)] ∧
      said .gatehouse (run free [.writeConfiguration .gatehouse 1#8 (payload 9 0)]) = [(.badConfiguration, .empty)] ∧
      said .gatehouse (run free [.writeConfiguration .gatehouse 1#8 (payload 9 1)]) = [(.ok, .empty)] := by decide +kernel

theorem test_clear_configuration_in_use :
    let s : State := { withVisit with visits := [(0, { visitA with config := some 9 })] }
    said .gatehouse (run s [.clearConfiguration .gatehouse 1#8 [9#8]]) = [(.configurationInUse, .empty)] := by decide +kernel

theorem test_read_configuration :
    said .lane (run free [.readConfiguration .lane 1#8 [0#8]]) = [(.noSuchConfiguration, .empty)] ∧
      said .lane (run free [.readConfiguration .lane 1#8 [24#8]]) = [(.ok, .configuration none)] := by decide +kernel

/-- R102: Restart Weighing empties the drafts, and without drafts is refused. -/
theorem test_restart_weighing :
    let s : State := { occupied with visits := [(0, { visitA.granted with draft := draft1 })] }
    said .gatehouse (run occupied [.restartWeighing .gatehouse 1#8 []]) = [(.noDrafts, .empty)] ∧
      (Table.get? (run s [.restartWeighing .gatehouse 1#8 []]).visits 0).map (·.draft) = some .empty ∧
      ((run s [.restartWeighing .gatehouse 1#8 []]).port .lane).notices = [.weighingRestarted [0x41#8]] := by decide +kernel

/-- R85: the axles on the bridge. -/
theorem test_read_axles :
    (match said .lane (run { occupied with axles.exited := 1 } [.readAxles .lane 1#8 []]) with
     | [(_, .axles r)] => decide (r.firstAxle = some 2 ∧ r.lastAxle = some 2 ∧ r.total = some 2 ∧ r.used = 0)
     | _ => false) = true := by decide +kernel

/-- R106: the count is checked before the position. -/
theorem test_read_trace :
    said .gatehouse (run free [.readTrace .gatehouse 1#8 (be 2 5 ++ be 1 17)]) = [(.badArgument, .empty)] ∧
      said .gatehouse (run free [.readTrace .gatehouse 1#8 (be 2 5 ++ be 1 16)]) = [(.noSuchSample, .empty)] ∧
      said .gatehouse (run free [.readTrace .gatehouse 1#8 (be 2 0 ++ be 1 16)]) = [(.ok, .trace none 0 [])] := by decide +kernel

theorem test_release_trace :
    let s : State := { free with axles.trace.frozen := some { reason := .straddle, ident := [0x41#8], round := 3, draft := none } }
    (run s [.releaseTrace .gatehouse 1#8 []]).axles.trace.frozen = none := by decide +kernel


/-! ### Visits and stored tares (06) -/

/-- The payload of Open Visit: ident, kind, commodity, code, class (255 none), options. -/
def opening (c kind commodity code cls options : Nat) : List Octet :=
  idf c ++ be 1 kind ++ be 1 commodity ++ be 1 code ++ be 1 cls ++ be 1 options

/-- R108: the lowest empty position; and its refusals. -/
theorem test_open_visit :
    said .gatehouse (run withVisit [.openVisit .gatehouse 1#8 (opening 0x42 0 3 0 255 1)]) = [(.ok, .position 1)] ∧
      said .gatehouse (run withVisit [.openVisit .gatehouse 1#8 (opening 0x41 0 3 0 255 1)]) =
        [(.duplicateVisit, .empty)] ∧
      said .gatehouse (run withVisit [.openVisit .gatehouse 1#8 (opening 0x42 0 3 9 255 1)]) =
        [(.badConfiguration, .empty)] := by decide +kernel

/-- R108: a COLLECTION with use stored tare, a commodity of 16 and a class of 4 are BAD_ARGUMENT. -/
theorem test_open_visit_arguments :
    said .gatehouse (run free [.openVisit .gatehouse 1#8 (opening 0x42 1 3 0 255 1)]) = [(.badArgument, .empty)] ∧
      said .gatehouse (run free [.openVisit .gatehouse 1#8 (opening 0x42 0 16 0 255 0)]) = [(.badArgument, .empty)] ∧
      said .gatehouse (run free [.openVisit .gatehouse 1#8 (opening 0x42 0 15 0 4 0)]) = [(.badArgument, .empty)] := by
  decide +kernel

/-- R109: only the carried field changes; a draft of the visit in use turns the amend away. -/
theorem test_amend_visit :
    let amend := idf 0x41 ++ be 1 2 ++ be 1 1 ++ be 1 9 ++ be 1 0 ++ be 1 255 ++ be 1 0
    let t := run withVisit [.amendVisit .gatehouse 1#8 amend]
    let s : State := { occupied with visits := [(0, { visitA.granted with draft := draft1 })] }
    Table.get? t.visits 0 = some { visitA with commodity := 9 } ∧
      said .gatehouse (run s [.amendVisit .gatehouse 1#8 amend]) = [(.visitInUse, .empty)] := by decide +kernel

/-- R110: the queue entry goes with the visit; a visit in use stays. -/
theorem test_cancel_visit :
    let q : QueueEntry := { ident := [0x41#8], entryEnd := .a, arrival := 1, cls := 0, passes := 0 }
    let s : State := { withVisit with bridge.waiting := [q] }
    let t := run s [.cancelVisit .gatehouse 1#8 (idf 0x41)]
    t.visits = [] ∧ t.bridge.waiting = [] ∧
      said .gatehouse (run granted [.cancelVisit .gatehouse 1#8 (idf 0x41)]) = [(.visitInUse, .empty)] := by decide +kernel

theorem test_read_visit :
    said .gatehouse (run granted [.readVisit .gatehouse 1#8 (idf 0x41)]) =
        [(.ok, .visit visitA.granted [none, none] true false none)] ∧
      said .gatehouse (run granted [.readVisit .gatehouse 1#8 (idf 0x42)]) = [(.noVisit, .empty)] := by decide +kernel

theorem test_list_visits :
    let s : State := { withVisit with visits := [(0, visitA), (7, { visitA with ident := [0x42#8], age := 5 })] }
    said .gatehouse (run s [.listVisits .gatehouse 1#8 (be 1 1 ++ be 1 16)]) =
        [(.ok, .visitList 2 [{ position := 7, ident := [0x42#8], kind := .delivery, state := .awaitingFirst,
                               inUse := false, age := 5 }])] ∧
      said .gatehouse (run s [.listVisits .gatehouse 1#8 (be 1 0 ++ be 1 17)]) = [(.badArgument, .empty)] := by decide +kernel

/-- R117: at 18 hours, 64,800 s, the entry goes; the second before it only ages. -/
theorem test_visit_timeout :
    let at_ (n : Nat) : State := { withVisit with visits := [(0, { visitA with age := n })] }
    (run (at_ 64799) [.visitTimeout 0]).visits = [] ∧
      ((run (at_ 64799) [.visitTimeout 0]).port .gatehouse).notices =
        [.visitExpired [0x41#8] .delivery .awaitingFirst none] ∧
      run (at_ 64798) [.visitTimeout 0] = at_ 64798 := by decide +kernel

/-- R116, R199: one powered second: an idle visit ages, a queued one does not, the clock advances. -/
theorem test_powered_second :
    let q : QueueEntry := { ident := [0x42#8], entryEnd := .a, arrival := 1, cls := 0, passes := 0 }
    let s : State := { occupied with visits := occupied.visits ++ [(1, { visitA with ident := [0x42#8] }),
                                                                   (2, { visitA with ident := [0x43#8] })]
                                     bridge.waiting := [q] }
    let t := run s [.poweredSecond]
    t.visits.map (·.2.age) = [0, 0, 1] ∧ t.powered = 1 ∧ t.site.clock.tod.second = 1 := by decide +kernel

/-- R118: a threshold of 0 removes every idle visit; 73 hours are refused. -/
theorem test_expire_visits :
    said .gatehouse (run withVisit [.expireVisits .gatehouse 1#8 [0#8]]) = [(.ok, .removed 1)] ∧
      said .gatehouse (run granted [.expireVisits .gatehouse 1#8 [0#8]]) = [(.ok, .removed 0)] ∧
      said .gatehouse (run withVisit [.expireVisits .gatehouse 1#8 [73#8]]) = [(.badArgument, .empty)] := by decide +kernel

/-- The idents of 6.4.1. -/
def hb220 : Ident := [0x48#8, 0x42#8, 0x32#8, 0x32#8, 0x30#8]
def gt7005 : Ident := [0x47#8, 0x54#8, 0x37#8, 0x30#8, 0x30#8, 0x35#8]

/-- A tare of the ident with the given origin. -/
def tareOf (id : Ident) (o : TareOrigin) : Tare :=
  { ident := id, tare := 14380, origin := o, epoch := 0, stored := SiteTime.epochStart.date, cls := none }

/-- The slots of 6.4.1: all 96 valid, 40 and 41 KEYED, 42 of HB220, 43 of GT7005. -/
def slots641 : Table Tare :=
  (List.range 96).map (fun i =>
    (i, tareOf (if i = 42 then hb220 else if i = 43 then gt7005 else [0x58#8, BitVec.ofNat 8 i])
      (if i = 40 ∨ i = 41 then .keyed else .learned)))

/-- `free` with that table, the pointer at slot 40. -/
def s641 : State := { free with tares := { slots := slots641, pointer := 40 } }

/-- 6.4.1, its first row: from slot 40, slot 42 is replaced and the pointer names slot 43. -/
theorem test_641_replacement :
    let t := s641.learnTare (tareOf [0x4B#8] .learned)
    t.tares.pointer = 43 ∧ t.outbox = [(.gatehouse, .tareReplaced hb220 42)] ∧
      (Table.get? t.tares.slots 42).map (·.ident) = some [0x4B#8] := by decide +kernel

/-- 6.4.1, its second and fourth rows: the lookup of the pointed-to slot moves the pointer, the delete does not. -/
theorem test_641_lookup_and_delete :
    let s : State := { s641 with tares := { s641.tares with pointer := 43 } }
    let id := gt7005 ++ List.replicate 6 0#8
    let t := run s [.checkTare .gatehouse 1#8 id]
    let u := run t [.replySent .gatehouse, .deleteTare .gatehouse 2#8 id]
    said .gatehouse t = [(.ok, .tareFound 43 (tareOf gt7005 .learned))] ∧ t.tares.pointer = 44 ∧
      Table.get? u.tares.slots 43 = none ∧ u.tares.pointer = 44 := by decide +kernel

/-- 6.4.1, its last row: the store takes the invalid slot 43 and leaves the pointer. -/
theorem test_641_invalid_slot :
    let s : State := { s641 with tares := { slots := Table.erase slots641 43, pointer := 44 } }
    let t := s.learnTare (tareOf [0x4D#8] .learned)
    (Table.get? t.tares.slots 43).map (·.ident) = some [0x4D#8] ∧ t.tares.pointer = 44 ∧ t.outbox = [] := by decide +kernel

/-- 6.4.2: stored on 2 March with 90 days, within the period on 30 May and run out on 31 May (of 2026). -/
theorem test_642_run_out :
    let t : Tare := { tareOf hb220 .learned with stored := { year := 2026, month := 3, day := 2 } }
    t.runOut 90 { year := 2026, month := 5, day := 30 } = false ∧
      t.runOut 90 { year := 2026, month := 5, day := 31 } = true := by decide +kernel

/-- R124: a keyed tare is a multiple of e (20 kg by default); it appends a KEYED_TARE record. -/
theorem test_key_tare :
    let key (kg : Nat) : List Octet := idf 0x41 ++ be 4 kg ++ be 1 255
    let t := run free [.keyTare .metrology 1#8 (key 14380)]
    said .metrology t = [(.ok, .slot 0)] ∧ (Table.get? t.tares.slots 0).map (·.origin) = some .keyed ∧
      t.audit.records.map (·.body) = [.keyedTare [0x41#8] 14380] ∧
      said .metrology (run free [.keyTare .metrology 1#8 (key 14390)]) = [(.badArgument, .empty)] := by decide +kernel

theorem test_flush_tares :
    let t := run s641 [.flushTares .gatehouse 1#8 []]
    said .gatehouse t = [(.ok, .invalidated 94)] ∧ t.tares.slots.length = 2 ∧ t.tares.pointer = 40 := by decide +kernel

/-- R125: on the Gatehouse Port a KEYED slot is not deleted; on the Metrology Port it is. -/
theorem test_delete_keyed_tare :
    let s : State := { free with tares := { slots := [(5, tareOf [0x41#8] .keyed)], pointer := 0 } }
    said .gatehouse (run s [.deleteTare .gatehouse 1#8 (idf 0x41)]) = [(.tareKeyed, .empty)] ∧
      (run s [.deleteTare .metrology 1#8 (idf 0x41)]).tares.slots = [] := by decide +kernel

theorem test_read_tare_slot :
    said .gatehouse (run s641 [.readTareSlot .gatehouse 1#8 [42#8]]) =
        [(.ok, .tareSlot (some (tareOf hb220 .learned, false)) 40 94 2)] ∧
      said .gatehouse (run s641 [.readTareSlot .gatehouse 1#8 [96#8]]) = [(.noSuchSlot, .empty)] := by decide +kernel

/-! ### Tickets and totals (07) -/

/-- A site time of 2026. -/
def at_ (month day hour minute : Nat) : SiteTime :=
  { date := { year := 2026, month := month, day := day }, tod := { hour := hour, minute := minute, second := 0 } }

/-- A weighing record without groups. -/
def record (kg : Int) (epoch : Nat) (time : SiteTime) : WeighRecord :=
  { weight := kg, source := .single, epoch := epoch, time := time, groups := [], combination := .notChecked,
    inconsistent := false, drafts := 1 }

/-- 7.6.1: the visit, the slot and the state of the Ticket Unit before the issue. -/
def fx322 : Visit := { visitA with commodity := 2, config := none, useStored := true, state := .firstInProgress }
def slot6 : Tare :=
  { ident := [0x41#8], tare := 13920, origin := .keyed, epoch := 398, stored := (at_ 4 14 0 0).date, cls := none }
def s761 : State :=
  { free with cal.series := 3, cal.nextNumber := 1204557
              tickets.shift.totals := [(4, { net := 1482300, count := 61, ovf := false })] }

theorem test_761_ticket :
    let t := s761.issueTicket fx322 (.stored (record 38460 413 (at_ 6 9 10 12)) slot6)
    t.tickets.ring.map (fun k => (k.key, k.gross, k.tare, k.net)) =
        [({ series := 3, number := 1204557 }, 38460, 13920, 24540)] ∧
      t.tickets.ring.map (fun k => (k.flags.crossEpoch, k.flags.keyedTare, k.flags.composed, k.secondTod)) =
        [(true, true, false, none)] ∧
      t.cal.nextNumber = 1204558 ∧ t.tickets.shift.totals = [(4, { net := 1506840, count := 62, ovf := false })] := by
  decide +kernel

/-- 7.6.2: the 64 tickets (3, 1,204,494) to (3, 1,204,557). -/
def ring762 : List Ticket :=
  (List.range 64).map (fun i =>
    ticketOf { series := 3, number := 1204494 + i } fx322 (.stored (record 38460 413 (at_ 6 9 10 12)) slot6))

theorem test_762_collection :
    let t := run { free with tickets.ring := ring762 } [.collectTickets .gatehouse 1#8 (be 1 3 ++ be 4 1204520)]
    said .gatehouse t = [(.ok, .collected 27 { series := 3, number := 1204520 })] ∧ t.tickets.ring.length = 37 ∧
      t.tickets.ring.head?.map (·.key.number) = some 1204521 := by decide +kernel

/-- R137: the ranges of the key come first. -/
theorem test_collect_tickets_refused :
    said .gatehouse (run free [.collectTickets .gatehouse 1#8 (be 1 100 ++ be 4 1)]) = [(.badArgument, .empty)] ∧
      said .gatehouse (run free [.collectTickets .gatehouse 1#8 (be 1 99 ++ be 4 99999999)]) =
        [(.nothingToCollect, .empty)] := by decide +kernel

/-- 7.6.2: a full ring refuses the completing capture. -/
theorem test_full_ring_refuses :
    State.ticketRefusal { free with tickets.ring := ring762 } = some .ticketStoreFull ∧
      State.ticketRefusal { free with tickets.ring := ring762.drop 1, cal.exhausted := true } =
        some .sequenceExhausted := by decide +kernel

/-- 7.6.3: the number after (7, 99,999,998) and after (7, 99,999,999); the same in series 99. -/
theorem test_763_series :
    let s (series n : Nat) : State := { free with cal.series := series, cal.nextNumber := n }
    (s 7 99999998).takeNumber.cal.nextNumber = 99999999 ∧ (s 7 99999999).takeNumber.cal.series = 8 ∧
      (s 7 99999999).takeNumber.cal.nextNumber = 1 ∧
      (s 7 99999999).takeNumber.outbox.head? = some (.gatehouse, .seriesRolled 8 .automatic) ∧
      (s 99 99999999).takeNumber.cal.exhausted = true := by decide +kernel

/-- 7.6.4: the net total saturates with its OVF flag, the count rises. -/
theorem test_764_saturation :
    Total.add { net := 999980000, count := 40000, ovf := false } 31200 =
      { net := 999999999, count := 40001, ovf := true } := by decide +kernel

theorem test_roll_ticket_series :
    let t := run { free with cal.series := 3, cal.nextNumber := 77 } [.rollTicketSeries .metrology 1#8 []]
    said .metrology t = [(.ok, .series 4)] ∧ t.cal.nextNumber = 1 ∧ t.audit.records.map (·.body) = [.seriesRoll 4] ∧
      said .metrology (run { free with cal.series := 99 } [.rollTicketSeries .metrology 1#8 []]) =
        [(.seriesLimit, .empty)] := by decide +kernel

theorem test_read_ticket_sequence :
    said .gatehouse (run { s761 with cal.exhausted := true } [.readTicketSequence .gatehouse 1#8 []]) =
      [(.ok, .sequence 3 none true none)] := by decide +kernel

theorem test_read_ticket :
    said .gatehouse (run { free with tickets.ring := ring762 }
        [.readTicket .gatehouse 1#8 (be 1 3 ++ be 4 1204493)]) = [(.noSuchTicket, .empty)] := by decide +kernel

/-- R138: 16 keys from a position on. -/
theorem test_read_ticket_ring :
    (match said .gatehouse (run { free with tickets.ring := ring762 } [.readTicketRing .gatehouse 1#8 [48#8]]) with
     | [(_, .ring held _ newest keys)] =>
       decide (held = 64 ∧ newest.map (·.number) = some 1204557 ∧ keys.length = 16 ∧
         keys.head?.map (·.number) = some 1204542)
     | _ => false) = true := by decide +kernel

theorem test_close_shift :
    let t := run s761 [.closeShift .gatehouse 1#8 []]
    t.tickets.shift = .zero ∧ t.tickets.last.map (·.totals.totals) =
      some [(4, { net := 1482300, count := 61, ovf := false })] := by decide +kernel

theorem test_read_totals_and_last_shift :
    said .gatehouse (run s761 [.readTotals .gatehouse 1#8 []]) = [(.ok, .totals s761.tickets.shift)] ∧
      said .gatehouse (run s761 [.readLastShift .gatehouse 1#8 []]) = [(.ok, .lastShift none)] := by decide +kernel

/-! ### Calibration and the audit log (08) -/

/-- 8.7.1: the committed table of the four-deck bridge, as far as deck 2 shows it. -/
def table871 : CalTable :=
  tab [(3, 4), (201, 36000), (1050, 2), (1052, 1966080), (1060, 2), (1062, 1998848), (1070, 2), (1072, 1966080),
       (1080, 2), (1082, 1998848)]

/-- 171 records numbered 2,147 to 2,317. -/
def log871 : Audit :=
  { records := (List.range 171).map (fun i =>
      { number := 2147 + i, time := .epochStart, epochBefore := 412, epochAfter := 412, body := .restartOrdered })
    next := 2318, epochMark := 412 }

/-- 8.7.1 before Open Calibration: the switch asserted and the bridge FREE. -/
def s871 : State :=
  { free with cal.committed := table871, cal.epoch := 412, audit := log871, switchOn := true
              bus.table := table871 }

/-- 8.7.1 with access OPEN and a stable round in which deck 2 has a filtered value. -/
def open871 (f : Int) (t : CalTable) : State :=
  { s871 with staged := some t, cal.accessMark := true, cal.diffMark := decide (t ≠ table871)
              bridge.holds.metrology := true, weigh.stable := true
              weigh.latest := some (values [deck 0 0, deck f 36000, deck 0 0, deck 0 0] 0) }

/-- 8.7.1: the staged table after Calibrate Zero, and after Calibrate Span and the write of parameter 9. -/
def zeroed871 : CalTable := table871.put 201 38400
def spanned871 : CalTable :=
  ((((zeroed871.put 1052 1961639).put 1062 1994333).put 1072 1961639).put 1082 1994333).put 9 40

theorem test_871_states_are_calm :
    s871.calm = true ∧ (open871 38400 table871).calm = true ∧ (open871 22689568 zeroed871).calm = true := by decide +kernel

theorem test_871_open_calibration :
    let t := run s871 [.openCalibration .metrology 1#8 []]
    s871.headroom = 28 ∧ t.headroom = 27 ∧ t.accessOpen = true ∧ t.bridge.holds.metrology = true ∧
      said .metrology (run { s871 with switchOn := false } [.openCalibration .metrology 1#8 []]) =
        [(.switchOff, .empty)] := by decide +kernel

theorem test_871_calibrate_zero :
    let t := run (open871 38400 table871) [.calibrateZero .metrology 1#8 [2#8]]
    said .metrology t = [(.ok, .calibratedZero 38400)] ∧ t.staged = some zeroed871 ∧ t.cal.diffMark = true := by decide +kernel

theorem test_871_calibrate_span :
    let t := run (open871 22689568 zeroed871) [.calibrateSpan .metrology 1#8 (be 1 2 ++ be 4 22600)]
    t.staged.map (fun u => [u.val 1052, u.val 1062, u.val 1072, u.val 1082]) =
        some [1961639, 1994333, 1961639, 1994333] ∧
      t.stagedDifferences.map (·.id) = [201, 1052, 1062, 1072, 1082] ∧
      said .metrology (run (open871 22689568 zeroed871) [.calibrateSpan .metrology 1#8 (be 1 2 ++ be 4 50000)]) =
        [(.spanRange, .empty)] := by decide +kernel

/-- 8.7.1: the commit: epoch 413, record 2,318 with its six changes, headroom 27. -/
theorem test_871_commit :
    let t := run (open871 22689568 spanned871) [.commitCalibration .metrology 1#8 []]
    said .metrology t = [(.accepted, .empty)] ∧ t.cal.epoch = 413 ∧ t.cal.notVerified = true ∧ t.accessOpen = false ∧
      t.headroom = 27 ∧ t.audit.records.getLast?.map (fun r => (r.number, r.epochBefore, r.epochAfter)) =
        some (2318, 412, 413) := by decide +kernel

theorem test_871_commit_record :
    ((run (open871 22689568 spanned871) [.commitCalibration .metrology 1#8 []]).audit.records.getLast?.map (·.body)) =
      some (.calChange [{ id := 9, old := 50, new := 40 }, { id := 201, old := 36000, new := 38400 },
                        { id := 1052, old := 1966080, new := 1961639 }, { id := 1062, old := 1998848, new := 1994333 },
                        { id := 1072, old := 1966080, new := 1961639 }, { id := 1082, old := 1998848, new := 1994333 }]
              0) := by decide +kernel

/-- R147: Max values are judged with the staged e; an id outside the table is NO_SUCH_PARAMETER. -/
theorem test_write_parameter :
    let w (id v : Nat) : State := run (open871 0 table871) [.writeParameter .metrology 1#8 (be 2 id ++ be 5 v)]
    said .metrology (w 2 60010) = [(.badParameter, .empty)] ∧ said .metrology (w 11 0) = [(.noSuchParameter, .empty)] ∧
      (w 9 40).cal.diffMark = true ∧ (w 9 50).cal.diffMark = false ∧
      said .metrology (run s871 [.writeParameter .metrology 1#8 (be 2 9 ++ be 5 40)]) = [(.notOpen, .empty)] := by decide +kernel

theorem test_read_parameter :
    said .metrology (run s871 [.readParameter .metrology 1#8 (be 2 1052 ++ be 1 0)]) = [(.ok, .parameter 1966080)] ∧
      said .metrology (run s871 [.readParameter .metrology 1#8 (be 2 1052 ++ be 1 1)]) = [(.notOpen, .empty)] := by decide +kernel

theorem test_read_calibration_state :
    (match said .metrology (run (open871 0 spanned871) [.readCalibrationState .metrology 1#8 []]) with
     | [(_, .calibrationState r)] =>
       decide (r.differences = some 6 ∧ r.epoch = 412 ∧ r.pointsInOrder = some [true, true, true, true] ∧
         r.audit.headroom = 27)
     | _ => false) = true := by decide +kernel

theorem test_abandon_calibration :
    let t := run (open871 0 spanned871) [.abandonCalibration .metrology 1#8 []]
    t.accessOpen = false ∧ t.cal.committed = table871 ∧ t.cal.epoch = 412 ∧ t.cal.diffMark = false := by decide +kernel

/-- 8.7.3: the switch withdrawn with differences staged enters lockout; without, it only closes access. -/
theorem test_873_switch_withdrawn :
    let t := run (open871 0 spanned871) [.calibrationSwitchChange false]
    let u := run (open871 0 table871) [.calibrationSwitchChange false]
    t.cal.lockout = some .calAccessInterrupted ∧ t.headroom = 28 ∧ t.bridge.holds.fault = true ∧
      t.bridge.holds.metrology = false ∧ u.cal.lockout = none ∧ (u.port .metrology).notices = [.accessClosed] := by decide +kernel

/-- 8.7.2: 198 records, then a log that gains the records of a commit and of Clear Lockout. -/
def log872 (n : Nat) : Audit :=
  { records := (List.range n).map (fun i =>
      { number := 1 + i, time := .epochStart, epochBefore := 0, epochAfter := 0, body := .restartOrdered })
    next := n + 1, epochMark := 0 }

theorem test_872_headroom :
    let s (n : Nat) : State := { free with audit := log872 n }
    (s 198).headroom = 1 ∧ State.headroom { s 198 with staged := some [] } = 0 ∧
      State.headroom { s 198 with staged := some [], cal.lockout := some .secondFault } = 0 ∧
      State.headroom { s 199 with cal.lockout := some .secondFault } = 0 ∧ (s 200).headroom = -1 := by decide +kernel

theorem test_872_archive :
    let t := run { free with audit := log872 200 } [.archiveAuditRecords .metrology 1#8 (be 4 30)]
    said .metrology t = [(.ok, .archived 30 (some 31))] ∧ t.headroom = 29 ∧
      said .metrology (run { free with audit := log872 200 } [.archiveAuditRecords .metrology 1#8 (be 4 201)]) =
        [(.noSuchRecord, .empty)] := by decide +kernel

theorem test_read_audit_record :
    said .metrology (run s871 [.readAuditRecord .metrology 1#8 (be 4 2146)]) = [(.noSuchRecord, .empty)] := by decide +kernel

theorem test_read_audit_summary :
    (match said .metrology (run s871 [.readAuditSummary .metrology 1#8 []]) with
     | [(_, .auditSummary r)] =>
       decide (r.held = 171 ∧ r.oldest = some 2147 ∧ r.newest = some 2317 ∧ r.next = some 2318 ∧ r.free = 29 ∧
         r.spare = true)
     | _ => false) = true := by decide +kernel

/-! ### Verification and evidence (09) -/

/-- 9.3: the mpe of its points with e = 20, and the limits of the bands. -/
theorem test_mpe :
    mpe 20 10000 = 10000 ∧ mpe 20 10001 = 20000 ∧ mpe 20 22600 = 20000 ∧ mpe 20 40000 = 20000 ∧ mpe 20 40001 = 30000 ∧
      mpe 20 60000 = 30000 := by decide +kernel

/-- An ACTIVE run of one deck with a waiting point, and the points it has recorded. -/
def verifying (ps : List TestPoint) (w : Option WaitingPoint) : State :=
  { free with cal.epoch := 413, cal.committed := table2, bus.table := table2, weigh.zeroUnset := false
              run := some { time := .epochStart, epoch := 413, points := ps, waiting := w }
              bridge.holds.metrology := true }

/-- A waiting point on the bridge. -/
def bridgePoint (kg : Int) : WaitingPoint := { target := .bridge, reference := kg, secondsLeft := 20, restart := none }

/-- 9.3: point 3 of the first run: 59,968,000 g against 60,000 kg. -/
theorem test_93_point_3 :
    let s := verifying [] (some (bridgePoint 60000))
    (s.pointOf { time := .epochStart, epoch := 413, points := [], waiting := none } (bridgePoint 60000)
      (values [] 59968000) 59968000) =
      { number := 1, target := .bridge, reference := 60000, round := 5, indicated := 59968000, error := -32000,
        mpe := 30000, pass := false, time := .epochStart } := by decide +kernel

/-- 9.3: the points of its first run. -/
def points93 : List TestPoint :=
  [(10000, 10004000, 10000, true), (22600, 22611500, 20000, true), (60000, 59968000, 30000, false)].map
    (fun p : Int × Int × Int × Bool =>
      { number := 1, target := .bridge, reference := p.1, round := 1, indicated := p.2.1, error := p.2.1 - p.1 * 1000,
        mpe := p.2.2.1, pass := p.2.2.2, time := .epochStart })

theorem test_93_end_verification :
    let t := run (verifying points93 none) [.endVerification .metrology 1#8 []]
    t.audit.records.map (·.body) = [.verifyFail 3 (-32000) 1] ∧ t.cal.notVerified = true ∧ t.run = none ∧
      t.bridge.holds.metrology = false ∧
      (run (verifying (points93.take 2) none) [.endVerification .metrology 1#8 []]).cal.notVerified = false := by decide +kernel

theorem test_begin_verification :
    (run free [.beginVerification .metrology 1#8 []]).run.map (·.points) = some [] ∧
      said .metrology (run occupied [.beginVerification .metrology 1#8 []]) = [(.bridgeOccupied, .empty)] := by decide +kernel

theorem test_test_point :
    let p (target kg : Nat) : State := run (verifying [] none) [.testPoint .metrology 1#8 (be 1 target ++ be 4 kg)]
    said .metrology (p 1 999999) = [(.accepted, .empty)] ∧ said .metrology (p 2 1) = [(.badArgument, .empty)] ∧
      said .metrology (p 0 0) = [(.badArgument, .empty)] ∧
      said .metrology (run free [.testPoint .metrology 1#8 (be 1 0 ++ be 4 1)]) = [(.noRun, .empty)] := by decide +kernel

theorem test_test_point_timeout :
    let t := run (verifying [] (some (bridgePoint 60000))) [.testPointTimeout]
    t.run.map (·.waiting) = some none ∧ (t.port .metrology).notices = [.testPointEnded .bridge 60000 .captureTimeout] := by
  decide +kernel

theorem test_abort_verification :
    let t := run (verifying points93 (some (bridgePoint 1))) [.abortVerification .metrology 1#8 []]
    t.run = none ∧ t.audit.records = [] ∧ (t.port .metrology).notices = [.testPointEnded .bridge 1 .aborted] := by decide +kernel

theorem test_read_verification :
    said .gatehouse (run free [.readVerification .gatehouse 1#8 []]) = [(.ok, .verification none true)] := by decide +kernel

theorem test_take_and_read_snapshot :
    let t := run free [.takeSnapshot .gatehouse 1#8 []]
    said .gatehouse t = [(.ok, .snapshotTaken 1 0)] ∧ t.cal.snapshotNext = 2 ∧
      said .gatehouse (run free [.readSnapshot .gatehouse 1#8 (be 4 1)]) = [(.noSuchSnapshot, .empty)] := by decide +kernel

/-- R176: eight slots by kind, in the order taken. -/
def store (ks : List SnapshotKind) : List EvidenceSlot :=
  (ks.zip (List.range ks.length)).map (fun k =>
    { slot := k.2, snapshot := { free.snapshotOf (k.2 + 1) k.1 none with number := k.2 + 1 } })

/-- R176: a full store replaces its oldest snapshot that is not LOCKOUT; a LOCKOUT one replaces the LOCKOUT one. -/
theorem test_evidence_slots :
    let ks : List SnapshotKind := [.lockout, .requested, .overVerdict, .requested, .requested, .requested, .requested,
                                   .requested]
    chooseEvidenceSlot (store ks) .overVerdict = 1 ∧ chooseEvidenceSlot (store ks) .lockout = 0 ∧
      chooseEvidenceSlot (store (ks.drop 2)) .lockout = 6 := by decide +kernel

/-- R176: the number after 4,294,967,295 is 1, and a number still held is passed over. -/
theorem test_snapshot_numbers :
    nextSnapshotNumber 4294967295 = 1 ∧
      State.snapshotNumber { free with evidence := store [.requested, .requested] } = 3 := by decide +kernel

theorem test_list_snapshots :
    said .gatehouse (run free [.listSnapshots .gatehouse 1#8 []]) = [(.ok, .snapshotList (List.replicate 8 none) 1)] := by
  decide +kernel

/-- R179: a LOCKOUT snapshot is protected while lockout stands. -/
theorem test_discard_snapshot :
    let s : State := { free with evidence := store [.lockout] }
    (run s [.discardSnapshot .metrology 1#8 (be 4 1)]).evidence = [] ∧
      said .metrology (run { s with cal.lockout := some .secondFault, bridge.holds.fault := true }
        [.discardSnapshot .metrology 1#8 (be 4 1)]) = [(.snapshotProtected, .empty)] := by decide +kernel

/-! ### Faults and lockout (10) -/

/-- `polling` with the poll of cell 1 two misses deep, after the flag was set by cell 6. -/
def flagged : State :=
  { polling with cal.flag := some { key := cellKey .cellSilent 6, time := .epochStart }
                 bridge.holds.fault := true, faults.lastStable := some 0 }

/-- 10.7.1, round 103: the first metrological raise sets the flag, and FAULT_RAISED says FLAG_SET. -/
theorem test_1071_first_raise :
    let t := run polling [.replyWindowClose]
    t.cal.flag.map (·.key) = some (cellKey .cellSilent 1) ∧ t.cal.lockout = none ∧ t.bridge.holds.fault = true ∧
      (t.port .lane).notices =
        [.faultRaised (cellKey .cellSilent 1) true .hold .flagSet .epochStart none] := by decide +kernel

/-- 10.7.1, round 140: a raise under the set flag enters lockout; its record lists the present entries. -/
theorem test_1071_second_raise :
    let t := run flagged [.replyWindowClose]
    t.cal.lockout = some .secondFault ∧ t.cal.flag.map (·.key) = some (cellKey .cellSilent 6) ∧
      t.cal.lockRecord.map (fun r => (r.lastStable, r.present)) = some (some 0, [cellKey .cellSilent 1]) ∧
      t.evidence.map (·.snapshot.kind) = [.lockout] ∧ t.headroom = flagged.headroom := by decide +kernel

/-- 10.7.1: LOCKED with the flag set and CELL_SUBSTITUTED 11 present. -/
def locked1071 : State :=
  { flagged with
    cal.lockout := some .secondFault
    faults.register := Table.set [] (cellKey .cellSubstituted 11).place
      { key := cellKey .cellSubstituted 11, present := true, outstanding := false, count := 1, raisedAt := none } }

/-- 10.7.1, its last rows: FAULTS_ACTIVE with the flag set, and with the condition present; then cleared. -/
theorem test_1071_clear_lockout :
    let acked : State := { locked1071 with cal.flag := none }
    let u := run { acked with faults.register := [] } [.clearLockout .metrology 1#8 []]
    said .metrology (run locked1071 [.clearLockout .metrology 1#8 []]) = [(.faultsActive, .empty)] ∧
      said .metrology (run acked [.clearLockout .metrology 1#8 []]) = [(.faultsActive, .empty)] ∧
      said .metrology u = [(.ok, .recordNumber 1)] ∧ u.cal.lockout = none ∧ u.bridge.holds.fault = false ∧
      u.audit.records.map (·.body) = [.lockoutClear .secondFault] := by decide +kernel

theorem test_1071_acknowledge :
    let t := run locked1071 [.acknowledgeMetrologicalFault .metrology 1#8 []]
    said .metrology t = [(.ok, .raise { key := cellKey .cellSilent 6, time := .epochStart })] ∧ t.cal.flag = none ∧
      t.bridge.holds.fault = true ∧
      said .metrology (run free [.acknowledgeMetrologicalFault .metrology 1#8 []]) = [(.nothingOutstanding, .empty)] := by
  decide +kernel

/-- R172, R184: a metrological raise during a run enters one lockout, CAL_FAULT_IN_VERIFICATION. -/
theorem test_raise_during_a_run :
    let s : State := { polling with run := some { time := .epochStart, epoch := 0, points := [],
                                                  waiting := some (bridgePoint 60000) }
                                    bridge.holds.metrology := true }
    let t := run s [.replyWindowClose]
    t.cal.lockout = some .calFaultInVerification ∧ t.run = none ∧ t.cal.flag.isSome = true ∧
      (t.port .metrology).notices.head? = some (.testPointEnded .bridge 60000 .fault) := by decide +kernel

/-- 10.7.2: A→B, entered 4 and exited 4, an outward axle at treadle B, under each policy. -/
def crossed (p : Policy) : State :=
  { occupied with axles.entered := 4, axles.exited := 4, site.policies.treadleDisagree := p }

theorem test_1072_policy_hold :
    let t := run (crossed .hold) [.treadleEvent .b .outward]
    let u := run t [.acknowledgeFault .gatehouse 1#8 [4#8, 1#8]]
    (t.faultEntry (treadleKey .b)).count = 1 ∧ (t.faultEntry (treadleKey .b)).outstanding = true ∧
      t.bridge.holds.fault = true ∧ t.axles.exited = 4 ∧
      said .gatehouse u = [(.ok, .acknowledged 1)] ∧ u.bridge.holds.fault = false := by decide +kernel

theorem test_1072_policy_continue :
    let t := run (crossed .continue_) [.treadleEvent .b .outward]
    let u := run t [.writeFaultPolicy .gatehouse 1#8 [4#8, 0#8]]
    t.bridge.holds.fault = false ∧ (t.faultEntry (treadleKey .b)).outstanding = true ∧ u.bridge.holds.fault = true := by
  decide +kernel

theorem test_write_fault_policy :
    said .gatehouse (run free [.writeFaultPolicy .gatehouse 1#8 [3#8, 1#8]]) = [(.fixedPolicy, .empty)] ∧
      said .gatehouse (run free [.writeFaultPolicy .gatehouse 1#8 [10#8, 1#8]]) = [(.badArgument, .empty)] ∧
      said .gatehouse (run free [.writeFaultPolicy .gatehouse 1#8 [9#8, 2#8]]) = [(.badArgument, .empty)] := by decide +kernel

theorem test_acknowledge_fault_refused :
    said .gatehouse (run free [.acknowledgeFault .gatehouse 1#8 [4#8, 2#8]]) = [(.badArgument, .empty)] ∧
      said .gatehouse (run free [.acknowledgeFault .gatehouse 1#8 [0#8, 1#8]]) = [(.badArgument, .empty)] ∧
      said .gatehouse (run free [.acknowledgeFault .gatehouse 1#8 [4#8, 255#8]]) = [(.nothingOutstanding, .empty)] := by
  decide +kernel

theorem test_read_faults :
    (match said .lane (run locked1071 [.readFaults .lane 1#8 []]) with
     | [(_, .faults r)] =>
       decide (r.lockout = some .secondFault ∧ r.byFlag = true ∧ r.byLockout = true ∧ r.byPresent = true ∧
         r.byMark = false ∧ r.entries.length = 1)
     | _ => false) = true := by decide +kernel

/-! ### Ports and requests (11) -/

/-- R192: the CRC of the nine characters "123456789". -/
theorem test_crc :
    crc16 [0x31#8, 0x32#8, 0x33#8, 0x34#8, 0x35#8, 0x36#8, 0x37#8, 0x38#8, 0x39#8] = 0x29B1#16 := by decide +kernel

/-- The octets of a frame after its start octet. -/
def framed (body : List Octet) : List Octet := body ++ be 2 (crc16 body).toNat

/-- The commands of octets on a port. -/
def octets (p : Port) (os : List Octet) : List Instr := os.map (fun o => .octetReceived p o)

/-- R193: octets before a 0xA5 are discarded; a good frame of Read Site Time with tag 7 is answered. -/
theorem test_octets_make_a_request :
    let t := run free (octets .lane ([0x00#8, 0xA5#8] ++ framed [0#8, 3#8, 7#8]))
    (t.port .lane).replies.map (fun r => (r.kind, r.tag, r.status)) = [(131#8, 7#8, .ok)] ∧
      (t.port .lane).receiver = .hunting := by decide +kernel

/-- R193: a wrong CRC, and a length above 240, return the receiver to hunting without a reply. -/
theorem test_bad_octets :
    (run free (octets .lane ([0xA5#8] ++ [0#8, 3#8, 7#8, 0#8, 0#8]))) = free ∧
      (run free (octets .lane [0xA5#8, 241#8])) = free ∧
      ((run free (octets .lane [0xA5#8, 240#8])).port .lane).receiver = .collecting [240#8] := by decide +kernel

theorem test_gap_and_bad_frame :
    let t := run free (octets .lane [0xA5#8, 0#8])
    run t [.frameGapTimeout .lane] = free ∧ run t [.badFrame .lane] = free := by decide +kernel

/-- R194: the order of the checks: kind or port, then length. -/
theorem test_frame_checks :
    said .lane (run free [.setSiteTime .lane 1#8 []]) = [(.notPermitted, .empty)] ∧
      said .gatehouse (run free [.setSiteTime .gatehouse 1#8 []]) = [(.malformed, .empty)] ∧
      said .lane (run free [.unknownKind .lane 99#8 1#8 []]) = [(.notPermitted, .empty)] := by decide +kernel

/-- 11.7: a queue of 15 notices, Read Ticket answered, Collect Tickets answered BUSY, a third frame discarded. -/
def busyPort : State := { free with ports.gatehouse.notices := List.replicate 15 (.noShow [0x41#8]) }

theorem test_117_replies :
    let t := run busyPort [.readTicket .gatehouse 41#8 (be 1 3 ++ be 4 1)]
    let u := run t [.collectTickets .gatehouse 42#8 (be 1 3 ++ be 4 1)]
    (t.port .gatehouse).replies.map (fun r => (r.kind, r.tag, r.portStatus)) = [(181#8, 41#8, 0x40#8)] ∧
      ((u.port .gatehouse).replies.drop 1).map (fun r => (r.kind, r.tag, r.status)) = [(180#8, 42#8, .busy)] ∧
      run u [.fetchNotice .gatehouse 43#8 []] = u := by decide +kernel

/-- 11.7: the sixteenth notice fits, the seventeenth sets the mark; Fetch Notice carries bits 5 and 6 and clears it. -/
theorem test_117_overflow :
    let q := ((busyPort.port .gatehouse).push (.noShow [0x42#8])).push (.noShow [0x43#8])
    let t := run { busyPort with ports.gatehouse := q } [.fetchNotice .gatehouse 43#8 []]
    q.notices.length = 16 ∧ q.overflow = true ∧
      (t.port .gatehouse).replies.map (fun r => (r.kind, r.status, r.portStatus)) = [(129#8, .ok, 0x60#8)] ∧
      (t.port .gatehouse).notices.length = 15 ∧ (t.port .gatehouse).overflow = false := by decide +kernel

theorem test_fetch_notice_of_an_empty_queue :
    said .lane (run free [.fetchNotice .lane 1#8 []]) = [(.empty, .empty)] := by decide +kernel

/-- R195: the reply slot frees when the last octet has been sent. -/
theorem test_reply_sent :
    ((run free [.readSiteTime .lane 1#8 [], .replySent .lane]).port .lane).replies = [] := by decide +kernel

/-- R199: 29 February 2096 is a date, 29 February 2099 is not. -/
theorem test_set_site_time :
    let set (y m d : Nat) : State := run free [.setSiteTime .gatehouse 1#8 (be 2 y ++ be 1 m ++ be 1 d ++ be 3 0)]
    (set 2096 2 29).clockSet = true ∧ (set 2096 2 29).site.clock.date = { year := 2096, month := 2, day := 29 } ∧
      said .gatehouse (set 2099 2 29) = [(.badArgument, .empty)] ∧
      said .gatehouse (set 1999 12 31) = [(.badArgument, .empty)] := by decide +kernel

/-- R199: the clock follows the calendar and holds its last value. -/
theorem test_clock :
    let last (y m d : Nat) : SiteTime :=
      { date := { year := y, month := m, day := d }, tod := { hour := 23, minute := 59, second := 59 } }
    (last 2096 2 28).tick.date = { year := 2096, month := 2, day := 29 } ∧
      (last 2095 12 31).tick.date = { year := 2096, month := 1, day := 1 } ∧ (last 2099 12 31).tick = last 2099 12 31 := by
  decide +kernel

theorem test_read_site_time :
    said .lane (run free [.readSiteTime .lane 1#8 []]) = [(.ok, .siteTime .epochStart false)] := by decide +kernel

/-- R200: the range of the capture timeout is 5 to 60 s. -/
theorem test_write_site_setting :
    let w (id v : Nat) : State := run free [.writeSiteSetting .gatehouse 1#8 (be 1 id ++ be 4 v)]
    (w 2 60).site.settings.captureTimeout = 60 ∧ said .gatehouse (w 2 61) = [(.badArgument, .empty)] ∧
      said .gatehouse (w 10 1) = [(.badArgument, .empty)] := by decide +kernel

theorem test_read_site_settings :
    said .gatehouse (run free [.readSiteSettings .gatehouse 1#8 []]) = [(.ok, .settings .defaults)] := by decide +kernel

/-- R201: the ticket record of 7.6.1 as it is sent: 100 octets, its key (3, 1,204,557), its flags CROSS_EPOCH and
KEYED_TARE, its second time of day 255. -/
theorem test_ticket_octets :
    let os := ticketOctets (ticketOf { series := 3, number := 1204557 } fx322
      (.stored (record 38460 413 (at_ 6 9 10 12)) slot6))
    os.length = 100 ∧ os.take 5 = [3#8, 0#8, 0x12#8, 0x61#8, 0x4D#8] ∧
      (os.drop 49).take 7 = [0x07#8, 0xEA#8, 4#8, 14#8, 0xFF#8, 0xFF#8, 0xFF#8] ∧ os.drop 98 = [0#8, 0x09#8] := by decide +kernel

/-- R192: the reply frame of an EMPTY Fetch Notice with tag 5 under port status 0x00: seven octets of frame and
payload, and the CRC over the five after the start octet. -/
theorem test_reply_frame :
    let r : Reply := { kind := 129#8, tag := 5#8, status := .empty, portStatus := 0#8, content := .empty }
    r.frame = some ([0xA5#8, 2#8, 129#8, 5#8, 2#8, 0#8] ++ be 2 (crc16 [2#8, 129#8, 5#8, 2#8, 0#8]).toNat) := by decide +kernel

/-! ### Retention, supply and start-up (12) -/

/-- No region, or CALIBRATION alone, found lost. -/
def lostCalibration : LostRegions := { noneLost with calibration := true }

/-- 12.5: before the start: the counts of the part, and the regions that remain. -/
def before125 : State :=
  { free with
    phase := .starting .powerOn
    cal.epoch := 414, cal.series := 3, cal.nextNumber := 1204600, cal.snapshotNext := 71, cal.committed := table2
    audit := { log871 with next := 2331, epochMark := 414 }
    tickets.ring := ring762
    evidence := (List.range 7).map (fun i =>
      { slot := i, snapshot := { free.snapshotOf (64 + i) .requested none with number := 64 + i } }) }

theorem test_125_counts :
    let t := run before125 [.startSequence lostCalibration]
    t.cal.epoch = 414 ∧ t.cal.series = 4 ∧ t.cal.nextNumber = 1 ∧ t.cal.lastKey = none ∧ t.cal.snapshotNext = 72 ∧
      t.cal.notVerified = true ∧ t.cal.committed = [] := by decide +kernel

theorem test_125_lockout :
    let t := run before125 [.startSequence lostCalibration]
    t.cal.lockout = some .calibrationLost ∧ t.bridge.state = .occupiedUnknown ∧
      t.cal.startRecord = { cause := .powerOn, lost := lostCalibration } ∧ t.phase = .running ∧
      t.evidence.getLast?.map (fun x => (x.slot, x.snapshot.number, x.snapshot.kind)) = some (7, 71, .lockout) ∧
      (t.port .lane).notices = [.lockoutEntered .calibrationLost .epochStart] := by decide +kernel

/-- R204: every other region lost, with its raises under the default policy CONTINUE; R205: the series in 99. -/
theorem test_lost_regions :
    let l : LostRegions := { noneLost with visits := true, tares := true, tickets := true, site := true }
    let t := run { before125 with visits := [(0, visitA)], site.settings.validity := 5 } [.startSequence l]
    t.visits = [] ∧ t.tickets.ring = [] ∧ t.site.settings.validity = 90 ∧ t.cal.epoch = 414 ∧ t.bridge.holds.fault = false ∧
      (t.port .lane).notices.length = 4 ∧ (t.faultEntry (regionKey .siteLost)).present = true ∧
      State.recoveredCalibration { free with tickets.ring := ring762.map (fun k => { k with key.series := 99 }) } false =
        { Calibration.defaults with series := 99, exhausted := true } := by decide +kernel

/-- R206: from reset with nothing placed, the start sequence gives control to the blocks. -/
theorem test_first_start :
    let t := run State.reset [.startSequence noneLost]
    t.phase = .running ∧ t.bridge.state = .occupiedUnknown ∧ t.bus.index = 1 ∧ t.bridge.startMark = true := by decide +kernel

/-- R204, R208: a region found lost is written again, also where its content was its defaults already, and then the start
record; a lockout entered and an access mark cleared have their own writes. -/
theorem test_lost_regions_are_written :
    (run before125 [.startSequence { noneLost with evidence := true }]).writes.map (·.regions) =
        [[.evidence], [.calibration]] ∧
      (run { before125 with evidence := [] } [.startSequence { noneLost with evidence := true }]).writes.map (·.regions) =
        [[.evidence], [.calibration]] ∧
      (run { before125 with cal.accessMark := true } [.startSequence { noneLost with audit := true }]).writes.map
        (·.regions) = [[.audit], [.calibration], [.calibration, .evidence], [.calibration]] := by decide +kernel

/-- R46, R201: an origin as sent: the name, the port that asked and the tag; an absent waiting record is sent as a 0 and
zeros, of the same length as one that is present. -/
theorem test_origin_octets :
    originOctets (.request .lane 9#8) = [0#8, 1#8, 1#8, 1#8, 9#8] ∧ originOctets .auto = [1#8, 0#8, 0#8, 0#8, 0#8] ∧
      (Content.octets (.capture none false none)).length =
        (Content.octets (.capture (some { origin := .auto, ident := [0x41#8], secondsLeft := 20, restart := none }) false
          (some { origin := .auto, ident := none, outcome := .held, round := none }))).length := by decide +kernel

/-- R31, R104, R176, R190, R201: fields that may be absent, each after its own presence octet, and the cleared mark. -/
theorem test_presence_octets :
    linearizationOctets true = [1#8, 0#8] ∧ linearizationOctets false = [0#8, 0#8] ∧
      sampleOctets { round := 7, gross := none, events := [], further := 258 } =
        [0#8, 0#8, 0#8, 7#8] ++ List.replicate 6 0#8 ++ [0#8] ++ [0#8, 0#8, 1#8, 2#8] ∧
      (Notice.snapshotTaken 1 .requested 3 (some (5, .lockout))).octets =
        [0#8, 0#8, 0#8, 1#8, 1#8, 3#8] ++ [1#8, 0#8, 0#8, 0#8, 5#8] ++ [1#8, 2#8] ∧
      (lockRecordOctets { code := .secondFault, time := .epochStart, bridge := .free, ident := none, lastStable := none,
                          epoch := 0, present := [], cleared := some 9 }).drop 31 =
        [0#8] ++ [1#8] ++ [1#8, 0#8, 0#8, 0#8, 9#8] := by decide +kernel

/-- R206: the events that begin a start, and what blocks do meanwhile. -/
theorem test_starts_begun :
    (run free [.powerOn]).phase = .starting .powerOn ∧ (run free [.resetLine]).phase = .starting .resetLine ∧
      (run { free with cal.pendingMark := true } [.powerOn]).phase = .starting .supplyLoss ∧
      run free [.resetLine, .treadleEvent .a .inward] = run free [.resetLine] := by decide +kernel

/-- R209: the fall ends the WAITING capture with SUPPLY and sets the hold; the return starts a new round. -/
theorem test_dip :
    let t := run capturing [.supplyFall]
    let u := run free [.supplyFall, .supplyReturn]
    t.bridge.holds.supply = true ∧ t.dipTimer = true ∧ t.capture.lastOutcome.map (·.outcome) = some .supply ∧
      u.bridge.holds.supply = false ∧ u.dipTimer = false ∧ u.bus.index = free.bus.index + 1 := by decide +kernel

theorem test_long_dip :
    let t := run free [.supplyFall, .dipTimerExpiry]
    t.phase = .starting .supplyLoss ∧ t.cal.pendingMark = true ∧ run t [.startSequence noneLost] = t ∧
      (run t [.supplyReturn, .startSequence noneLost]).cal.startRecord.cause = .supplyLoss := by decide +kernel

/-- R207: the OK of a Restart begins the ORDERED start when its last octet has been sent. -/
theorem test_restart :
    let t := run free [.restart .metrology 1#8 []]
    t.audit.records.map (·.body) = [.restartOrdered] ∧ t.phase = .running ∧
      (run t [.replySent .metrology]).phase = .starting .ordered ∧
      said .metrology (run { free with audit := log872 199 } [.restart .metrology 1#8 []]) = [(.logFull, .empty)] := by decide +kernel

theorem test_read_start_cause :
    said .gatehouse (run { free with powered := 61 } [.readStartCause .gatehouse 1#8 []]) =
      [(.ok, .startCause { cause := .powerOn, lost := noneLost } 61)] := by decide +kernel

/-- R153: the retained write of a commit completes and its notice is queued at both ports. -/
theorem test_commit_write_complete :
    let n : CommitNote := { epoch := 413, record := 2318, changes := 6 }
    let s : State := { free with writes := [{ regions := [.calibration, .audit], commit := some n }] }
    let t := run s [.commitWriteComplete]
    (t.port .metrology).notices = [.calibrationCommitted n] ∧ (t.port .gatehouse).notices = [.calibrationCommitted n] ∧
      t.writes = [] ∧ run s [.retainedWriteComplete] = s := by decide +kernel

theorem test_retained_write_complete :
    let t := run free [.writeSiteSetting .gatehouse 1#8 (be 1 2 ++ be 4 60)]
    t.writes = [{ regions := [.site], commit := none }] ∧ (run t [.retainedWriteComplete]).writes = [] := by decide +kernel

/-! ### Witnesses: states and operands that meet the hypotheses of the statements, clause by clause -/

/-- A pending reply of a kind and status. -/
def reply (kind : Nat) (st : Status) : Reply :=
  { kind := BitVec.ofNat 8 kind, tag := 1#8, status := st, portStatus := 0#8, content := .empty }

/-- `free` with replies pending on the Lane Port. -/
def laneReplies (rs : List Reply) : State := { free with ports.lane.replies := rs }

/-- `free` with the Lane Port's receiver in a state. -/
def receiving (r : Receiver) : State := { free with ports.lane.receiver := r }

theorem witness_StepTakesTheFrontCommand :
    (show State from { free with pending := [.pollSent, .powerOn] }).pending = .pollSent :: [.powerOn] := by decide +kernel

theorem witness_EveryCommandAnswersAndLeavesTheQueue : free.pending = [] ∧ State.reset.pending = [] := by decide +kernel

theorem witness_FramesTurnedAwayChangeOnlyTheirPort :
    frameOf (.readSiteTime .lane 1#8 []) = some ⟨.lane, 3, 1#8, []⟩ ∧ free.running = true ∧ free.commitNote = none ∧
      ((laneReplies [reply 131 .ok, reply 131 .busy]).port .lane).replies.any (fun r => r.status = .busy) = true ∧
      ((laneReplies [reply 131 .ok]).port .lane).replies ≠ [] ∧
      ((laneReplies [reply 131 .ok]).port .lane).replies.any (fun r => r.status = .busy) = false ∧
      frameOf (.setSiteTime .lane 1#8 []) = some ⟨.lane, 2, 1#8, []⟩ ∧ (free.port .lane).replies = [] ∧
      permitted 2 .lane = false ∧
      frameOf (.unknownKind .lane 127#8 1#8 []) = some ⟨.lane, 127, 1#8, []⟩ ∧ permitted 127 .lane = false ∧
      (free.port .gatehouse).replies = [] ∧ permitted 2 .gatehouse = true ∧
      ([0#8] : List Octet).length ≠ requestLength 3 ∧ (List.replicate 6 0#8).length ≠ requestLength 2 ∧
      (List.replicate 8 0#8).length ≠ requestLength 2 := by decide +kernel

theorem witness_FramesThatAreNoRequests :
    free.running = true ∧ free.commitNote = none ∧ (free.port .lane).replies = [] ∧
      catalogueRow (0#8).toNat = none ∧ catalogueRow (102#8).toNat = none ∧ catalogueRow (255#8).toNat = none := by decide +kernel

theorem witness_ReceiverTakesFramesOctetByOctet :
    free.running = true ∧ (free.port .lane).receiver = .hunting ∧
      (receiving (.collecting [])).running = true ∧ ((receiving (.collecting [])).port .lane).receiver = .collecting [] ∧
      (0#8).toNat = ([] : List Octet).length ∧ ([] : List Octet).length ≤ 240 ∧
      (240#8).toNat = (List.replicate 240 7#8).length ∧ (List.replicate 240 7#8).length ≤ 240 ∧
      ((receiving (.collecting (0#8 :: [3#8, 7#8]))).port .lane).receiver = .collecting (0#8 :: [3#8, 7#8]) ∧
      ([3#8, 7#8] : List Octet).length + 1 < ([] : List Octet).length + 4 ∧
      ((receiving (.collecting (240#8 :: []))).port .lane).receiver = .collecting (240#8 :: []) ∧
      ([] : List Octet).length + 1 < (List.replicate 240 7#8).length + 4 ∧
      ((receiving (.collecting (0#8 :: 3#8 :: 7#8 :: [] ++ [9#8]))).port .lane).receiver =
        .collecting (0#8 :: 3#8 :: 7#8 :: [] ++ [9#8]) ∧ ([9#8] : List Octet).length = 1 := by decide +kernel

/-- A frame whose CRC matches, one whose CRC differs, and the two commands that a frame of kind 3 is. -/
theorem witness_ReceiverTakesFramesOctetByOctet_crc :
    let crc := be 2 (crc16 (0#8 :: 3#8 :: 7#8 :: [])).toNat
    let first : List Octet := crc.take 1
    let last : Octet := (crc[1]?).getD 0#8
    first.length = 1 ∧ (crc16 (0#8 :: 3#8 :: 7#8 :: [])).toNat = natOf (first ++ [last]) ∧
      (crc16 (0#8 :: 3#8 :: 7#8 :: [])).toNat ≠ natOf (first ++ [last + 1#8]) ∧
      frameOf (.readSiteTime .lane 7#8 []) = some ⟨.lane, (3#8).toNat, 7#8, []⟩ ∧
      frameOf (.unknownKind .lane 3#8 7#8 []) = some ⟨.lane, (3#8).toNat, 7#8, []⟩ ∧
      catalogueRow (3#8).toNat ≠ none := by decide +kernel

theorem witness_ReplySentFreesThePortOrBeginsTheOrderedStart :
    (laneReplies [reply 131 .ok]).running = true ∧ (laneReplies [reply 131 .ok]).commitNote = none ∧
      ((laneReplies [reply 131 .ok, reply 131 .busy]).port .lane).replies = reply 131 .ok :: [reply 131 .busy] ∧
      (reply 228 .ok).kind = 228#8 := by decide +kernel

theorem witness_CellBusAndWeighingReads :
    polling.accepts .gatehouse 10 [1#8] = true ∧ natAt [1#8] 0 1 = 1 ∧ natAt [16#8] 0 1 = 16 ∧
      polling.accepts .metrology 10 [17#8] = true ∧ ¬(1 ≤ natAt [17#8] 0 1 ∧ natAt [17#8] 0 1 ≤ 16) ∧
      ¬(1 ≤ natAt [0#8] 0 1 ∧ natAt [0#8] 0 1 ≤ 16) ∧ polling.accepts .gatehouse 11 [] = true ∧
      polling.accepts .lane 12 [] = true ∧ polling.accepts .gatehouse 13 [] = true := by decide +kernel

/-- A round whose range verdict and decks are given, in a state. -/
def withRound (s : State) (ds : List DeckValues) (r : RangeVerdict) : State :=
  { s with weigh.latest := some { values ds 0 with range := r } }

/-- A deck whose linearization is disabled. -/
def disabled : DeckValues := { deck 0 0 with linearizationDisabled := true }

theorem witness_LiveWeightWordAndValue :
    free.weigh.latest = none ∧ (values [] 0).valid = true ∧
      (withRound free [] .overload).weigh.latest = some { values [] 0 with range := .overload } ∧
      (withRound free [] .underload).weigh.latest = some { values [] 0 with range := .underload } ∧
      (withRound (open871 0 []) [disabled] .normal).accessOpen = true ∧
      (∃ d ∈ [disabled], d.linearizationDisabled = true) ∧
      (∀ d ∈ [deck 0 0], d.linearizationDisabled = false) ∧
      (withRound free [] .normal).accessOpen = false ∧ (withRound free [] .normal).cal.notVerified = true ∧
      (weighed 1000).accessOpen = false ∧ (weighed 1000).cal.notVerified = false ∧
      (weighed 1000).weigh.zeroUnset = false ∧ (weighed 1000).weigh.stable = true ∧
      (withRound weighing [] .normal).weigh.zeroUnset = false ∧ (withRound weighing [] .normal).cal.notVerified = false ∧
      (withRound weighing [] .normal).weigh.stable = false ∧
      (show State from { withRound free [] .normal with cal.notVerified := false }).weigh.zeroUnset = true := by decide +kernel

theorem witness_LiveWeightWordAndValue_invalid :
    (show State from { free with weigh.latest := some { values [] 0 with valid := false } }).weigh.latest =
      some { values [] 0 with valid := false } := by decide +kernel

/-- A trace of three samples. -/
def traced : State :=
  { free with
    axles.trace.samples := [1, 2, 3].map (fun n => { round := n, gross := none, events := [], further := 0 }) }

theorem witness_CaptureBridgeAndAxleReads :
    free.accepts .lane 16 [] = true ∧ free.accepts .lane 26 [] = true ∧ free.accepts .lane 32 [1#8] = true ∧
      natAt [24#8] 0 1 ≤ 24 ∧ ¬(1 ≤ natAt [25#8] 0 1 ∧ natAt [25#8] 0 1 ≤ 24) ∧
      ¬(1 ≤ natAt [0#8] 0 1 ∧ natAt [0#8] 0 1 ≤ 24) ∧
      occupied.accepts .lane 34 [] = true ∧ occupied.visitInUse = some visitA.granted ∧
      free.accepts .lane 34 [] = true ∧ free.visitInUse = none ∧
      traced.accepts .gatehouse 36 [0#8, 2#8, 16#8] = true ∧ natAt [0#8, 2#8, 16#8] 2 1 = 16 ∧
      natAt [0#8, 2#8, 16#8] 0 2 < traced.axles.trace.samples.length ∧
      free.accepts .gatehouse 36 [0#8, 0#8, 1#8] = true ∧ natAt [0#8, 0#8, 1#8] 0 2 = 0 ∧
      free.axles.trace.samples.length = 0 ∧
      ¬(1 ≤ natAt [0#8, 0#8, 17#8] 2 1 ∧ natAt [0#8, 0#8, 17#8] 2 1 ≤ 16) ∧
      ¬(1 ≤ natAt [0#8, 0#8, 0#8] 2 1 ∧ natAt [0#8, 0#8, 0#8] 2 1 ≤ 16) ∧
      traced.axles.trace.samples.length ≤ natAt [0#8, 3#8, 1#8] 0 2 ∧
      free.axles.trace.samples.length ≤ natAt [0#8, 1#8, 1#8] 0 2 ∧ ¬(natAt [0#8, 1#8, 1#8] 0 2 = 0) := by decide +kernel

theorem witness_VisitTareAndTicketReads :
    granted.accepts .gatehouse 43 (idf 0x41) = true ∧ identAt (idf 0x41) 0 = some [0x41#8] ∧
      granted.accepts .metrology 43 (idf 0x61) = true ∧ identAt (idf 0x61) 0 = none ∧
      findVisit granted.visits [0x41#8] = some (0, visitA.granted) ∧ findVisit free.visits [0x41#8] = none ∧
      granted.accepts .gatehouse 44 [0#8, 16#8] = true ∧ natAt [0#8, 16#8] 1 1 = 16 ∧ natAt [0#8, 1#8] 1 1 = 1 ∧
      ¬(1 ≤ natAt [0#8, 17#8] 1 1 ∧ natAt [0#8, 17#8] 1 1 ≤ 16) ∧
      ¬(1 ≤ natAt [0#8, 0#8] 1 1 ∧ natAt [0#8, 0#8] 1 1 ≤ 16) ∧
      s641.accepts .gatehouse 49 [95#8] = true ∧ natAt [95#8] 0 1 < 96 ∧ 96 ≤ natAt [96#8] 0 1 ∧
      free.accepts .gatehouse 50 [] = true ∧ free.accepts .gatehouse 56 [] = true ∧
      free.accepts .gatehouse 57 [] = true ∧ free.accepts .gatehouse 54 [48#8] = true := by decide +kernel

theorem witness_VisitTareAndTicketReads_ticket :
    let s : State := { free with tickets.ring := ring762.take 2 }
    s.accepts .gatehouse 53 (be 1 3 ++ be 4 1204495) = true ∧
      (∃ t ∈ s.tickets.ring, t.key = keyAt (be 1 3 ++ be 4 1204495)) ∧
      (∀ t ∈ s.tickets.ring, t.key ≠ keyAt (be 1 3 ++ be 4 1204496)) := by decide +kernel

theorem witness_CalibrationAndAuditReads :
    s871.accepts .metrology 62 (be 2 1052 ++ be 1 0) = true ∧ natAt (be 2 1052 ++ be 1 2) 2 1 = 2 ∧
      isParam (natAt (be 2 11 ++ be 1 1) 0 2) = false ∧ natAt (be 2 11 ++ be 1 1) 2 1 ≤ 1 ∧
      isParam (natAt (be 2 1163 ++ be 1 0) 0 2) = true ∧ natAt (be 2 1 ++ be 1 1) 2 1 = 1 ∧ s871.staged = none ∧
      (open871 0 table871).accepts .gatehouse 62 (be 2 1 ++ be 1 1) = true ∧
      (open871 0 table871).staged = some table871 ∧
      s871.accepts .gatehouse 63 [] = true ∧ s871.accepts .metrology 68 (be 4 2147) = true ∧
      (∃ r ∈ s871.audit.records, r.number = natAt (be 4 2317) 0 4) ∧
      (∀ r ∈ s871.audit.records, r.number ≠ natAt (be 4 2318) 0 4) ∧ s871.accepts .gatehouse 69 [] = true := by decide +kernel

theorem witness_EvidenceFaultAndSiteReads :
    let s : State := { free with evidence := store [.lockout, .requested] }
    s.accepts .gatehouse 84 [] = true ∧ s.accepts .gatehouse 86 (be 4 2) = true ∧
      (∃ x ∈ s.evidence, x.snapshot.number = natAt (be 4 2) 0 4) ∧
      (∀ x ∈ s.evidence, x.snapshot.number ≠ natAt (be 4 3) 0 4) ∧ s.accepts .metrology 87 [] = true ∧
      s.accepts .lane 94 [] = true ∧ s.accepts .lane 3 [] = true ∧ s.accepts .gatehouse 5 [] = true ∧
      s.accepts .metrology 101 [] = true := by decide +kernel

/-! #### The cell bus and the rounds -/

/-- The answer of a cell: its address, its serial number, a count and the status OK. -/
def answerOf (address serial count : Nat) : List Octet :=
  let b := [0x5A#8] ++ be 1 address ++ be 4 serial ++ be 3 count ++ [0#8]
  b ++ [checkOctet b]

/-- `polling` with the window of cell 2, the round's last poll, open; its round an overrun round or not. -/
def lastPoll (overrun : Bool) : State :=
  { polling with bus.poll := .window 2 [], bus.toPoll := [], bus.overrun := overrun, bus.periodTimer := !overrun }

theorem witness_PollsOpenAWindowAndDiscardWhatIsNoReply :
    polling.running = true ∧ polling.commitNote = none ∧
      (show State from { polling with bus.poll := .sending 1 }).bus.poll = .sending 1 ∧
      (show State from { polling with bus.poll := .sending 16 }).bus.poll = .sending 16 ∧
      polling.bus.poll = .window 1 [] ∧ cellReply (answerReceived [] (answerOf 2 111 0)) 1 = none ∧
      cellReply (answerReceived [] (answer1.take 10)) 1 = none ∧ cellReply (answerReceived [] answer1) 1 ≠ none ∧
      (answerOf 2 111 0).length = 11 ∧ (answerOf 2 111 0).head? = some 0x5A#8 ∧
      cellReply (answerOf 2 111 0) 1 = none := by decide +kernel

/-- A window whose answer has come and was no reply: only its close ends the poll. -/
def spent (s : State) : State := { s with bus.poll := .window 1 (answerOf 2 111 0) }

theorem witness_PollsOpenAWindowAndDiscardWhatIsNoReply_spent :
    (spent polling).calm = true ∧ (spent polling).bus.poll = .window 1 (answerOf 2 111 0) ∧
      (spent polling).bus.toPoll = 2 :: [] ∧ pollEndedBy .replyWindowClose 1 (answerOf 2 111 0) = some none ∧
      pollEndedBy (.cellAnswer answer1) 1 (answerOf 2 111 0) = none := by decide +kernel

theorem witness_PollsOpenAWindowAndDiscardWhatIsNoReply_closed : ∀ i received, free.bus.poll ≠ .window i received := by
  intro i received h
  cases h

theorem witness_PollJudgementSetsTheCellRecord :
    polling.calm = true ∧ polling.bus.poll = .window 1 [] ∧ polling.bus.toPoll = 2 :: [] ∧
      cellReply answer1 1 = some { serial := 111, count := -2, status := .ok } ∧
      (polling.bus.record 1).miss + 1 = 3 ∧ (111 : Int) = polling.bus.table.serial 1 := by decide +kernel

theorem witness_PollsOpenAWindowAndDiscardWhatIsNoReply_octets :
    (cellReply answer1 1).isSome = true ∧ (0x01#8).toNat = 1 ∧ (2#8).toNat ≤ 2 ∧
      0xC8#8 = 0x5A#8 ^^^ 0x01#8 ^^^ 0#8 ^^^ 0#8 ^^^ 0#8 ^^^ 0x6F#8 ^^^ 0xFF#8 ^^^ 0xFF#8 ^^^ 0xFE#8 ^^^ 2#8 := by decide +kernel

theorem witness_LastPollEndsTheRound :
    (lastPoll false).calm = true ∧ (lastPoll false).bus.poll = .window 2 [] ∧ (lastPoll false).bus.toPoll = [] ∧
      (lastPoll false).bus.overrun = false ∧
      (lastPoll true).calm = true ∧ (lastPoll true).bus.poll = .window 2 [] ∧ (lastPoll true).bus.toPoll = [] ∧
      (lastPoll true).bus.overrun = true ∧ (lastPoll true).tableInUse.configuredList = 1 :: [2] ∧
      pollEndedBy .replyWindowClose 2 [] = some none ∧
      pollEndedBy (.cellAnswer (answerOf 2 222 5)) 2 [] = some (some { serial := 222, count := 5, status := .ok }) ∧
      (let s : State := { lastPoll true with cal.committed := [] }
       s.calm = true ∧ s.bus.poll = .window 2 [] ∧ s.bus.toPoll = [] ∧ s.bus.overrun = true ∧
         s.tableInUse.configuredList = []) := by decide +kernel

/-! A round of one cell on one deck, S = 2 and N = 1, at the window of its last poll. -/

/-- A table of one deck and one cell, of N = 1, S = 2 and a bridge Max of 2,000 kg. -/
def table1 : CalTable := tab [(2, 2000), (5, 1), (6, 2), (1010, 1), (1013, 111)]

/-- A state at the last poll of a round under that table, with one window entry of a gross, of a round that ended at
moment 5. -/
def ending (s : State) (g : Int) : State :=
  { s with
    cal.committed := table1, cal.notVerified := false
    weigh := { s.weigh with window := [{ gross := g, index := 106, moment := 5 }], rounds := 5, roundTable := table1 }
    bus := { s.bus with
      table := table1, inProgress := true, toPoll := [], poll := .window 1 [], index := 107, periodTimer := true
      records := [(1, { CellRecord.absent with configured := true, condition := some .online, lastSerial := some 111 })] } }

/-- The answer of that cell, and what the round comes to with it: a gross of as many grams as the count. -/
def lastAnswer (n : Nat) : Instr := .cellAnswer (answerOf 1 111 n)
def endOf1 (s : State) (n : Nat) : RoundValues :=
  (s.polled 1 (some { serial := 111, count := (n : Int), status := .ok })).computeRound

/-- The command ends the round, and no capture waits. -/
def endsWith (s : State) (n : Nat) : Bool := s.endsRound (lastAnswer n) (endOf1 s n) && s.capture.waiting.isNone

/-- `ending` of `occupied` with its counts. -/
def onBridge (n x : Nat) (g : Int) : State := ending { occupied with axles.entered := n, axles.exited := x } g

/-- The rounded weight lies below the occupancy threshold, or not. -/
def isLow (s : State) (n : Nat) : Bool := (endOf1 s n).rounded.any (fun w => decide (w < s.bus.table.occupancyKg))

theorem witness_RoundReachesZeroBridgeAndTrace :
    endsWith (ending free 0) 0 = true ∧ (ending free 0).weigh.zeroUnset = true ∧
      ((ending free 0).judgedOn (endOf1 (ending free 0) 0)).weigh.stable = true ∧
      (numbered (endOf1 (ending free 0) 0).decks).map (fun e => (e.1, e.2.filtered)) = [(1, some 0)] ∧
      |(0 : Int) - table1.zero0 1| ≤ table1.deckMax 1 * 100 ∧ (ending free 0).bridge.state = .free ∧
      endsWith (ending free 6000001) 6000001 = true ∧ ¬(|(6000001 : Int) - table1.zero0 1| ≤ table1.deckMax 1 * 100) ∧
      endsWith (onBridge 2 2 0) 0 = true ∧ isLow (onBridge 2 2 0) 0 = true ∧
      ((onBridge 2 2 0).judgedOn (endOf1 (onBridge 2 2 0) 0)).weigh.stable = true ∧
      (onBridge 2 2 0).bridge.waiting = [] ∧ (onBridge 2 2 0).inUse = some 0 ∧
      Table.get? (onBridge 2 2 0).visits 0 = some visitA.granted ∧ (onBridge 2 2 0).run = none ∧
      visitA.granted.inProgress = true ∧
      (let s : State := { onBridge 2 2 0 with bridge.waiting := [{ ident := [0x43#8], entryEnd := .b, arrival := 1, cls := 0,
                                                                   passes := 0 }] }
       endsWith s 0 = true ∧ (selectEntry s.bridge.waiting).isSome = true ∧ s.held = false) ∧
      (let s : State := { onBridge 2 2 0 with bridge.holds.gatehouse := true }
       endsWith s 0 = true ∧ s.bridge.holds.gatehouse = true) ∧
      endsWith (onBridge 2 0 0) 0 = true ∧ (onBridge 2 0 0).axles.entered ≠ (onBridge 2 0 0).axles.exited ∧
      (onBridge 2 0 0).axles.trace.frozen = none ∧
      (let s : State := { onBridge 2 0 0 with axles.trace.frozen := some { reason := .straddle, ident := [0x41#8],
                                                                           round := 3, draft := none } }
       endsWith s 0 = true ∧ s.axles.trace.frozen ≠ none) ∧
      endsWith (ending granted 0) 0 = true ∧ (ending granted 0).bridge.state = .granted := by decide +kernel

/-- The state OCCUPIED_UNKNOWN meets a low round, one at the occupancy threshold, and an invalid one. -/
theorem witness_RoundReachesZeroBridgeAndTrace_unknown :
    let s : State := ending { free with bridge.state := .occupiedUnknown, bridge.startMark := true } 0
    let w : State := { s with bridge.startMark := false, weigh.window := [] }
    endsWith s 0 = true ∧ s.bridge.state = .occupiedUnknown ∧ isLow s 0 = true ∧ isLow s 1000000 = false ∧
      endsWith s 1000000 = true ∧ (endOf1 s 1000000).rounded = some 1000 ∧ s.bus.table.occupancyKg ≤ 1000 ∧
      endsWith w 0 = true ∧ (w.judgedOn (endOf1 w 0)).weigh.stable = false ∧
      s.endsRound .replyWindowClose ((s.polled 1 none).computeRound) = true ∧
      ((s.polled 1 none).computeRound).rounded = none := by decide +kernel

/-- A tare stored so long ago that its period of 90 days has run out on 1 January 2000. -/
def oldTare : Tare := { tareOf [0x41#8] .learned with stored := { year := 1999, month := 1, day := 1 } }

/-- The state with its round an overrun round (R2, R10). -/
def overrunRound (s : State) : State := { s with bus := { s.bus with overrun := true, overruns := 1, periodTimer := false } }

/-- An overrun round ends as well, with ROUND_OVERRUN absent or present, in FREE, in OCCUPIED with the vehicle gone or
on the bridge; not one after which a round would start with nothing to poll, or make an address absent. -/
theorem witness_RoundReachesZeroBridgeAndTrace_overrun :
    let gone : State := overrunRound (onBridge 2 2 0)
    endsWith (overrunRound (ending free 0)) 0 = true ∧ (endOf1 (overrunRound (ending free 0)) 0).overrun = true ∧
      endsWith gone 0 = true ∧ isLow gone 0 = true ∧ (gone.judgedOn (endOf1 gone 0)).weigh.stable = true ∧
      gone.bridge.waiting = [] ∧ gone.run = none ∧ endsWith (overrunRound (onBridge 2 0 0)) 0 = true ∧
      endsWith { overrunRound (ending free 0) with
        bus.overruns := 3, cal.flag := some { key := overrunKey, time := .epochStart }, bridge.holds.fault := true
        faults.register := [(overrunKey.place, { FaultEntry.blank overrunKey with present := true, count := 1 })] } 0 =
          true ∧
      endsWith { overrunRound (ending free 0) with cal.committed := [] } 0 = false ∧
      endsWith { overrunRound (ending free 0) with cal.committed := table2.erase 1010 } 0 = false := by decide +kernel

/-- `onBridge` with two axles and a capture that waits with a restart point, and the visit replaced. -/
def awaiting (restart : Option Nat) (v : Visit) (g : Int) : State :=
  let s := onBridge 2 0 g
  { s with weigh.zeroUnset := false, visits := [(0, v)]
           capture.waiting := some { origin := .request .lane 9#8, ident := [0x41#8], secondsLeft := 20, restart := restart } }

/-- The command ends the round of a state in which that capture waits, in OCCUPIED without a hold. -/
def endsAwaiting (s : State) (n : Nat) : Bool :=
  s.endsRound (lastAnswer n) (endOf1 s n) && s.bridge.state == .occupied && !s.held && s.capture.waiting.isSome
    && s.inUse == some 0

/-- The round completes the wait. -/
def completes (s : State) (n : Nat) : Bool := s.completesWait (endOf1 s n) (s.capture.waiting.bind (·.restart))

/-- How the draft of a stop resolves: refused 0, a straddle 1, a draft more 2, a completed weighing 3. -/
def resolves (s : State) (v : Visit) (n : Nat) : Nat :=
  match resolveDraft (s.configOf v) ((s.judgedOn (endOf1 s n)).handoff v (endOf1 s n)) with
  | .refused _ => 0
  | .straddle _ _ _ _ => 1
  | .result d => if d.content.isNone then 2 else 3

/-- The wait goes on (also while the vehicle leaves), completes as it leaves, is barred from trade, or meets a round out
of range at the boundary of nine divisions above Max. -/
theorem witness_RoundCompletesACapture :
    let v := visitA.granted
    let s := awaiting none v 1000000
    let later := awaiting (some 5) v 1000000
    let left (restart : Option Nat) : State := { awaiting restart v 0 with axles.exited := 2 }
    endsAwaiting later 1000000 = true ∧ completes later 1000000 = false ∧ later.seesLeft (endOf1 later 1000000) = false ∧
      completes (awaiting (some 4) v 1000000) 1000000 = true ∧
      endsAwaiting (left (some 5)) 0 = true ∧ completes (left (some 5)) 0 = false ∧
      (left (some 5)).seesLeft (endOf1 (left (some 5)) 0) = true ∧
      endsAwaiting (left none) 0 = true ∧ completes (left none) 0 = true ∧
      (left none).seesLeft (endOf1 (left none) 0) = true ∧ v.inProgress = true ∧
      ((left none).configOf v).any (fun c => c.groups.all (fun g => decide (1 ≤ g.axles))) = true ∧
      endsAwaiting s 1000000 = true ∧ completes s 1000000 = true ∧ s.seesLeft (endOf1 s 1000000) = false ∧
      ¬(s.staged ≠ none ∨ s.cal.lockout ≠ none ∨ s.cal.notVerified = true) ∧ s.run = none ∧
      (endOf1 s 1000000).range = .normal ∧
      (let b : State := { s with cal.notVerified := true }
       endsAwaiting b 1000000 = true ∧ completes b 1000000 = true ∧ b.cal.notVerified = true) ∧
      (let o := awaiting none v 2180001
       endsAwaiting o 2180001 = true ∧ completes o 2180001 = true ∧ (endOf1 o 2180001).range = .overload ∧
         (endOf1 o 2180000).range = .normal) := by decide +kernel

/-- An overrun round meets a capture that waits on, completes, or is refused as the vehicle has gone. -/
theorem witness_RoundCompletesACapture_overrun :
    let v := visitA.granted
    let s : State := overrunRound (awaiting none v 1000000)
    let later : State := overrunRound (awaiting (some 5) v 1000000)
    let left : State := overrunRound { awaiting (some 5) v 0 with axles.exited := 2 }
    endsAwaiting s 1000000 = true ∧ completes s 1000000 = true ∧ s.seesLeft (endOf1 s 1000000) = false ∧
      resolves s v 1000000 = 3 ∧ endsAwaiting later 1000000 = true ∧ completes later 1000000 = false ∧
      endsAwaiting left 0 = true ∧ completes left 0 = false ∧ left.seesLeft (endOf1 left 0) = true := by decide +kernel

/-- The ways a stop resolves: refused, a straddle, a draft more, and a completed weighing. -/
theorem witness_RoundCompletesACapture_resolved :
    let v := visitA.granted
    let n := 1000000
    (let s : State := { awaiting none v 1000000 with axles.axleCount := true }
     endsAwaiting s n = true ∧ completes s n = true ∧ resolves s v n = 0) ∧
    (let w : Visit := { v with draft := { used := 1, groups := [], inconsistent := false } }
     endsAwaiting (awaiting none w 1000000) n = true ∧ resolves (awaiting none w 1000000) w n = 1) ∧
    (let s : State := { awaiting none v 1000000 with axles.entered := 1 }
     endsAwaiting s n = true ∧ completes s n = true ∧ s.seesLeft (endOf1 s n) = false ∧ resolves s v n = 2) ∧
    resolves (awaiting none v 1000000) v n = 3 ∧
    Table.get? (awaiting none v 1000000).visits 0 = some v ∧ v.state = .firstInProgress ∧ v.kind = .delivery ∧
    v.useStored = false ∧ (∀ slot tare, (awaiting none v 1000000).lookup v.ident ≠ .found slot tare) := by
  refine ⟨by decide, by decide, by decide, by decide, by decide, by decide, by decide, by decide, ?_⟩
  intro slot tare h
  have e : (awaiting none visitA.granted 1000000).lookup visitA.granted.ident = .notHeld := by decide +kernel
  rw [e] at h
  cases h

/-- Drafts with an OVER verdict, against a site configuration of limits of 400 kg: one that leaves the weighing to go on
and one that completes it. -/
theorem witness_RoundCompletesACapture_over :
    let v : Visit := { visitA.granted with config := some 9 }
    let n := 1000000
    let cfg (groups : List AxleGroup) : Configuration := { groups := groups, combination := 800, tolerance := 0 }
    let s (groups : List AxleGroup) (entered : Nat) : State :=
      { awaiting none v 1000000 with site.catalogue := [(9, cfg groups)], axles.entered := entered }
    let more := s [{ axles := 1, limit := 400 }, { axles := 1, limit := 400 }] 1
    let last := s [{ axles := 2, limit := 400 }] 2
    let isOver (t : State) : Bool :=
      match resolveDraft (t.configOf v) ((t.judgedOn (endOf1 t n)).handoff v (endOf1 t n)) with
      | .result d => d.anyOver
      | _ => false
    endsAwaiting more n = true ∧ completes more n = true ∧ more.seesLeft (endOf1 more n) = false ∧
      resolves more v n = 2 ∧ isOver more = true ∧ more.run = none ∧
      endsAwaiting last n = true ∧ completes last n = true ∧ last.seesLeft (endOf1 last n) = false ∧
      resolves last v n = 3 ∧ isOver last = true := by decide +kernel

/-- The visits that a completed weighing meets: a collection, a stored tare that is found, and a second weighing; a ring
of 64 and an EXHAUSTED sequence refuse. -/
theorem witness_RoundCompletesACapture_weighings :
    let n := 1000000
    let v := visitA.granted
    let c : Visit := { v with kind := .collection, learn := true }
    let u : Visit := { v with useStored := true }
    let w : Visit := { v with state := .secondInProgress, first := some (record 900 0 .epochStart) }
    let tare : Tare := { ident := [0x41#8], tare := 500, origin := .keyed, epoch := 0, stored := free.site.clock.date,
                         cls := none }
    let held : State := { awaiting none u 1000000 with tares.slots := [(95, tare)] }
    let ticket := ticketOf { series := 1, number := 1 } u (.stored (record 900 0 .epochStart) tare)
    let full : State := { held with tickets.ring := List.replicate 64 ticket }
    endsAwaiting (awaiting none c 1000000) n = true ∧ resolves (awaiting none c 1000000) c n = 3 ∧
      endsAwaiting held n = true ∧ completes held n = true ∧ resolves held u n = 3 ∧ held.lookup u.ident = .found 95 tare ∧
      held.tickets.ring.length < 64 ∧ held.cal.exhausted = false ∧
      endsAwaiting full n = true ∧ 64 ≤ full.tickets.ring.length ∧
      (show State from { held with cal.exhausted := true }).cal.exhausted = true ∧
      endsAwaiting (awaiting none w 1000000) n = true ∧ resolves (awaiting none w 1000000) w n = 3 ∧
      w.first.isSome = true := by decide +kernel

/-- A round of 1,000 kg completes the wait of a capture, the vehicle on the bridge, and with it the weighing of the visit. -/
def weighsOut (s : State) (v : Visit) : Bool :=
  endsAwaiting s 1000000 && completes s 1000000 && !s.seesLeft (endOf1 s 1000000) && resolves s v 1000000 == 3

/-- What becomes of tares and notices: a collection that learns none, a stored tare that is not held or has expired, a
second weighing of a delivery that learns its tare and of one that does not, an exit withheld before, a ring that the
ticket fills and a sequence at its last number. -/
theorem witness_RoundCompletesACapture_news :
    let v := visitA.granted
    let c : Visit := { v with kind := .collection }
    let u : Visit := { v with useStored := true }
    let w (learn : Bool) : Visit :=
      { v with state := .secondInProgress, first := some (record 900 0 .epochStart), learn := learn }
    let old : State := { awaiting none u 1000000 with tares.slots := [(5, oldTare)] }
    let ticket := ticketOf { series := 1, number := 1 } u (.weighed (record 900 0 .epochStart) (record 500 0 .epochStart))
    let last : State :=
      { awaiting none (w true) 1000000 with
        tickets.ring := List.replicate 63 ticket, cal.series := 99, cal.nextNumber := 99999999, bridge.withheld := true }
    weighsOut (awaiting none c 1000000) c = true ∧ c.learn = false ∧
      weighsOut (awaiting none u 1000000) u = true ∧ (awaiting none u 1000000).lookup u.ident = .notHeld ∧
      weighsOut old u = true ∧ old.lookup u.ident = .expired 5 ∧
      weighsOut (awaiting none (w true) 1000000) (w true) = true ∧ weighsOut (awaiting none (w false) 1000000) (w false) = true ∧
      weighsOut last (w true) = true ∧ last.tickets.ring.length = 63 ∧ last.cal.exhausted = false := by decide +kernel

/-- `ending` of `free` with a run whose test point waits. -/
def pointWaiting (target : PointTarget) (restart : Option Nat) (g : Int) : State :=
  ending { free with
    bridge.holds.metrology := true
    run := some { time := .epochStart, epoch := 0, points := []
                  waiting := some { target := target, reference := 1000, secondsLeft := 20, restart := restart } } } g

theorem witness_RoundCompletesATestPoint :
    let s := pointWaiting .bridge none 1000000
    let later := pointWaiting .bridge (some 5) 1000000
    let o := pointWaiting (.deck 1) none 2180001
    endsWith s 1000000 = true ∧ s.completesWait (endOf1 s 1000000) none = true ∧ (endOf1 s 1000000).range = .normal ∧
      (endOf1 s 1000000).gross = some 1000000 ∧ ((endOf1 s 1000000).decks[1 - 1]?).bind (·.gross) = some 1000000 ∧
      s.bridge.state = .free ∧ endsWith later 1000000 = true ∧
      later.completesWait (endOf1 later 1000000) (some 5) = false ∧
      endsWith o 2180001 = true ∧ o.completesWait (endOf1 o 2180001) none = true ∧
      (endOf1 o 2180001).range ≠ .normal ∧
      endsWith (overrunRound s) 1000000 = true ∧
      (overrunRound s).completesWait (endOf1 (overrunRound s) 1000000) none = true := by decide +kernel

theorem witness_PeriodExpiryMarksOrStartsARound :
    (lastPoll true).calm = true ∧ (lastPoll true).bus.periodTimer = false ∧ polling.calm = true ∧
      polling.bus.periodTimer = true ∧ polling.bus.inProgress = true ∧
      (show State from { polling with bus.overruns := 2 }).bus.overruns = 2 ∧
      (let s : State := { polling with bus.inProgress := false, bus.poll := .idle, bus.toPoll := [] }
       s.calm = true ∧ s.bus.periodTimer = true ∧ s.bus.inProgress = false ∧
         s.tableInUse.configuredList = 1 :: [2]) ∧
      (let s : State := { free with bus.periodTimer := true, bus.index := 4294967295 }
       s.calm = true ∧ s.bus.periodTimer = true ∧ s.bus.inProgress = false ∧ s.tableInUse.configuredList = []) := by
  decide +kernel

/-- `polling` with cell 1 SILENT and the condition present. -/
def silent1 : State :=
  { polling with
    bus := polling.bus.setRecord 1 { (polling.bus.record 1) with miss := 3, condition := some .silent }
    faults.register := Table.set [] (cellKey .cellSilent 1).place
      { key := cellKey .cellSilent 1, present := true, outstanding := false, count := 1, raisedAt := some .epochStart }
    bridge.holds.fault := true }

/-- The third miss, a reply of another serial number and one of status INTERNAL_FAULT each stand for an absent condition;
a fourth miss stands for a present one, and a good reply for none. -/
theorem witness_PollJudgementSetsTheCellRecord_conditions :
    let condition (s : State) (reply : Option CellReply) :=
      ((s.bus.record 1).judged (s.bus.table.serial 1) reply).condition
    polling.calm = true ∧ polling.bus.poll = .window 1 [] ∧ polling.bus.toPoll = 2 :: [] ∧
      pollEndedBy .replyWindowClose 1 [] = some none ∧ condition polling none = some .silent ∧
      pollEndedBy (.cellAnswer (answerOf 1 222 5)) 1 [] = some (some { serial := 222, count := 5, status := .ok }) ∧
      condition polling (some { serial := 222, count := 5, status := .ok }) = some .substituted ∧
      condition polling (some { serial := 111, count := 5, status := .internalFault }) = some .faulted ∧
      condition polling (some { serial := 111, count := 5, status := .ok }) = some .online ∧
      (polling.faultEntry (cellKey .cellSilent 1)).present = false ∧
      (polling.faultEntry (cellKey .cellFault 1)).present = false ∧
      (polling.faultEntry (cellKey .cellSubstituted 1)).present = false ∧
      silent1.calm = true ∧ silent1.bus.poll = .window 1 [] ∧ silent1.bus.toPoll = 2 :: [] ∧
      (silent1.faultEntry (cellKey .cellSilent 1)).present = true ∧ condition silent1 none = some .silent ∧
      condition silent1 (some { serial := 111, count := 5, status := .ok }) = some .online := by decide +kernel

/-! #### Weight arithmetic -/

/-- The points of deck 2 in 2.5.1. -/
def points251 : List (Int × Int) := [(10000000, 4000), (30000000, 9000), (50000000, 6000)]

theorem witness_RoundingIsToNearestHalfAwayFromZero :
    (4 : Int) ≠ 0 ∧ (-4 : Int) ≠ 0 ∧ 2 * |(6 : Int) - 4 * roundDiv 6 4| = |(4 : Int)| ∧
      2 * |(-6 : Int) - 4 * roundDiv (-6) 4| = |(4 : Int)| := by decide +kernel

theorem witness_CorrectionFollowsThePoints :
    CalTable.pointsInOrder [(102, 2), (111, 1), (112, 2)] 1 = true ∧ pointsRise 0 points251 = true ∧ pointsRise 0 [] = true ∧
      points251 = (10000000, 4000) :: [(30000000, 9000), (50000000, 6000)] ∧
      (0 : Int) < 10000000 ∧
      points251 = [(10000000, 4000)] ++ (30000000, 9000) :: (50000000, 6000) :: [] ∧ (30000000 : Int) < 30000001 ∧
      (30000001 : Int) ≤ 50000000 ∧ points251.getLast? = some (50000000, 6000) ∧ (50000000 : Int) < 50000001 ∧
      ((30000000, 9000) : Int × Int) ∈ points251 ∧ ∀ q ∈ points251, (0 : Int) ≤ q.2 ∧ q.2 ≤ 9000 := by decide +kernel

theorem witness_CorrectionFollowsThePoints_filter :
    1 ≤ CalTable.depth [(5, 1)] ∧ CalTable.depth [(5, 16)] = 16 ∧ ([] : List Int).length ≤ 16 ∧
      (List.replicate 15 (7 : Int)).length < 16 ∧ (List.replicate 16 (7 : Int)).length = 16 := by decide +kernel

/-- The end of a round of two cells on one deck, both ONLINE, with a count of cell 1. -/
def weighable (count : Int) : State :=
  let r (c : Int) : CellRecord :=
    { configured := true, condition := some .online, miss := 0, lastCount := some c, lastStatus := some .ok,
      lastSerial := some 111 }
  { polling with bus.records := [(1, r count), (2, r 0)] }

theorem witness_RoundedDecksStayNearTheRoundedBridge :
    0 < (weighable 30000).bus.table.e ∧ (weighable 30000).computeRound.rounded = some 40 := by decide +kernel

/-- The decks of a round by number, with their validity, raw sum and gross. -/
def deckSums (s : State) : List (Nat × DeckValidity × Option Int × Option Int) :=
  (numbered s.computeRound.decks).map (fun e => (e.1, e.2.validity, e.2.raw, e.2.gross))

/-- The deck has no cell, a cell that is not ONLINE, a raw sum at and beyond four times its Max, and a gross at and
beyond the limits of the range; its table is that of the previous round or not. -/
theorem witness_ValidRoundSumsItsDeckGrosses :
    deckSums free = [(1, .noCells, none, none)] ∧ addresses.filter (fun i => free.bus.table.val (1000 + 10 * i) = 1) = [] ∧
      deckSums polling = [(1, .cell, none, none)] ∧ (polling.bus.record 1).condition ≠ some .online ∧
      addresses.filter (fun i => polling.bus.table.val (1000 + 10 * i) = 1) = [1, 2] := by decide +kernel

theorem witness_ValidRoundSumsItsDeckGrosses_sums :
    deckSums (weighable 240000000) = [(1, .valid, some 240000000, some 240000000)] ∧
      deckSums (weighable (-240000001)) = [(1, .grossRange, some (-240000001), none)] ∧
      4 * (weighable 0).bus.table.val 100 * 1000 = 240000000 ∧
      ((weighable 0).bus.record 1).condition = some .online ∧ ((weighable 0).bus.record 2).condition = some .online ∧
      (weighable 0).weigh.roundTable.decks = 1 ∧
      addresses.filter (fun i => (weighable 0).weigh.roundTable.val (1000 + 10 * i) = 1) ≠ [1, 2] ∧
      (let s : State := { weighable 0 with weigh.roundTable := (weighable 0).bus.table }
       addresses.filter (fun i => s.weigh.roundTable.val (1000 + 10 * i) = 1) = [1, 2]) ∧
      (weighable 0).bus.table.decks < 2 := by decide +kernel

theorem witness_ValidRoundSumsItsDeckGrosses_range :
    let range (g : Int) := ((weighable g).computeRound.valid, (weighable g).computeRound.range)
    polling.computeRound.valid = false ∧ range 60180000 = (true, .normal) ∧ range 60180001 = (true, .overload) ∧
      range (-400000) = (true, .normal) ∧ range (-400001) = (true, .underload) ∧
      ((weighable 0).bus.table.bridgeMax + 9 * (weighable 0).bus.table.e) * 1000 = 60180000 ∧
      20 * (weighable 0).bus.table.e * 1000 = 400000 := by decide +kernel

theorem witness_StabilityIsJudgedOnTheRecentGrosses :
    (weighed 1000).weigh.latest = some (values [deck 1000 1000] 0) ∧
      1 ≤ (weighed 1000).weigh.roundTable.stabilityRounds ∧ (values [deck 1000 1000] 0).gross = some 0 ∧
      (show State from { free with weigh.latest := some { values [] 0 with gross := none, valid := false } }).weigh.latest =
        some { values [] 0 with gross := none, valid := false } := by decide +kernel

/-- `weighed` before its start-up zero. -/
def unzeroed (f : Int) : State := { weighed f with weigh.zeroUnset := true, weigh.zero := [], weigh.startZero := [] }

theorem witness_ZeroSetChecksSetsAndAdjusts :
    putZeros (weighed 1000).weigh.zero [(1, 1000)] = (weighed 1000).weigh.zero ∧
      putZeros (weighed 1000).weigh.zero [(1, 1001)] ≠ (weighed 1000).weigh.zero ∧
      occupied.ready .lane 14 [] = true ∧ weighing.weigh.zeroUnset = false ∧ weighing.ready .gatehouse 14 [] = true ∧
      weighing.bridge.state ≠ .free ∧
      (let s : State := { weighed 1000 with weigh.stable := false }
       s.ready .lane 14 [] = true ∧ s.weigh.zeroUnset = false ∧ s.bridge.state = .free ∧ s.weigh.stable = false) ∧
      (let s (f : Int) : State := weighed f
       let centre (f : Int) : Int := (Table.get? (s f).weigh.startZero 1).getD ((s f).weigh.roundTable.zero0 1)
       (s 1201001).ready .lane 14 [] = true ∧ (s 1201000).ready .lane 14 [] = true ∧
         (numbered (s 1201000).latestDecks).map (fun e => (e.1, e.2.filtered)) = [(1, some 1201000)] ∧
         |(1201000 : Int) - centre 1201000| ≤ (s 1201000).tableInUse.deckMax 1 * 20 ∧
         ¬(|(1201001 : Int) - centre 1201001| ≤ (s 1201001).tableInUse.deckMax 1 * 20)) := by
  decide +kernel

theorem witness_ZeroSetChecksSetsAndAdjusts_start_up :
    (unzeroed 6000000).ready .lane 14 [] = true ∧ (unzeroed 6000000).weigh.zeroUnset = true ∧
      (unzeroed 6000000).weigh.stable = true ∧ (unzeroed 6000001).ready .lane 14 [] = true ∧
      (numbered (unzeroed 6000000).latestDecks).map (fun e => (e.1, e.2.filtered)) = [(1, some 6000000)] ∧
      |(6000000 : Int) - (unzeroed 6000000).weigh.roundTable.zero0 1| ≤ (unzeroed 6000000).weigh.roundTable.deckMax 1 * 100 ∧
      ¬(|(6000001 : Int) - (unzeroed 6000001).weigh.roundTable.zero0 1| ≤
        (unzeroed 6000001).weigh.roundTable.deckMax 1 * 100) ∧ free.ready .lane 14 [] = true ∧
      free.weigh.zeroUnset = true ∧ free.weigh.stable = false := by decide +kernel

theorem witness_TrackingMovesTheQualifyingDecks :
    let s (f : Int) : State := { weighed f with cal.committed := [(8, 1)] }
    free.calm = true ∧ free.weigh.trackingTimer = true ∧
      ¬(free.tableInUse.val 8 = 1 ∧ free.weigh.zeroUnset = false ∧ free.bridge.state = .free ∧ free.held = false ∧
        free.weigh.stable = true) ∧
      (s 11000).calm = true ∧ (s 11000).weigh.trackingTimer = true ∧ (s 11000).tableInUse.val 8 = 1 ∧
      (s 11000).weigh.zeroUnset = false ∧ (s 11000).bridge.state = .free ∧ (s 11000).held = false ∧
      (s 11000).weigh.stable = true ∧ (1, deck 11000 1000) ∈ numbered (s 11000).latestDecks ∧
      (deck 11000 1000).gross = some 10000 ∧ (deck 11000 1000).filtered = some 11000 ∧
      |(10000 : Int)| ≤ 500 * (s 11000).weigh.roundTable.e ∧
      |(11000 : Int) - (s 11000).workingCentre 1| ≤ (s 11000).tableInUse.deckMax 1 * 20 ∧
      (s 11001).calm = true ∧ (1, deck 11001 1000) ∈ numbered (s 11001).latestDecks ∧
      ¬(|(10001 : Int)| ≤ 500 * (s 11001).weigh.roundTable.e) := by decide +kernel

/-! #### The bridge -/

/-- A waiting entry of an ident at end A. -/
def entry (c : Nat) : QueueEntry :=
  { ident := [BitVec.ofNat 8 c], entryEnd := .a, arrival := 1, cls := 0, passes := 0 }

/-- `occupied` after Release Vehicle. -/
def released : State :=
  { occupied with bridge.state := .released, bridge.aspectB := .green, bridge.lampsB := lamp .green }

/-- A state with the bridge OCCUPIED_UNKNOWN. -/
def unknown : State := { free with bridge.state := .occupiedUnknown, bridge.startMark := true }

theorem witness_TreadleEventsCountEnterOrIntrude :
    free.calm = true ∧ free.axles.exited ≤ free.axles.entered ∧ free.axles.entered ≤ 255 ∧
      unknown.calm = true ∧ unknown.bridge.state = .occupiedUnknown ∧ free.bridge.state = .free ∧
      free.bridge.grant = none ∧
      granted.calm = true ∧ granted.bridge.state = .granted ∧
      granted.bridge.grant = some { ident := [0x41#8], entryEnd := .a } ∧ BridgeEnd.b ≠ .a ∧
      granted.inUse = some 0 ∧ Table.get? granted.visits 0 = some visitA.granted ∧ granted.inUse ≠ some 1 ∧
      granted.axles.entered < 255 ∧
      occupied.calm = true ∧ occupied.bridge.state = .occupied ∧ occupied.axles.entered ≤ 255 ∧
      occupied.bridge.grant = some { ident := [0x41#8], entryEnd := .a } ∧
      released.calm = true ∧ released.bridge.state = .released := by decide +kernel

/-- A disagreement with a WAITING capture: its hold comes into force, is one of others, or its policy is CONTINUE; and
one with a waiting test point, under METROLOGY, that sets the FAULT source. -/
theorem witness_TreadleEventsCountEnterOrIntrude_waiting :
    let s : State := { capturing with axles.entered := 255 }
    let v := verifying [] (some (bridgePoint 1))
    s.calm = true ∧ s.site.policies.treadleDisagree = .hold ∧ s.held = false ∧ s.capture.waiting ≠ none ∧
      s.bridge.state = .occupied ∧ s.bridge.holds.fault = false ∧
      (show State from { s with site.policies.treadleDisagree := .continue_ }).calm = true ∧
      (show State from { s with bridge.holds.gatehouse := true, bridge.aspectB := .red, bridge.lampsB := lamp .red }).calm =
        true ∧
      v.run.map (·.waiting) = some (some (bridgePoint 1)) ∧ v.bridge.holds.fault = false ∧
      v.site.policies.treadleDisagree = .hold := by decide +kernel

/-- R56, R57: the refusal that a disagreement's hold brings clears the arm that the event set (log 48). -/
theorem test_disagreement_refuses_and_disarms :
    let t := run { capturing with axles.entered := 255 } [.treadleEvent .a .inward]
    t.capture.waiting = none ∧ t.capture.arm = false ∧ t.capture.quietTimer = true ∧
      t.capture.lastOutcome.map (·.outcome) = some .held := by decide +kernel

/-- The counts at which the clauses of a counted event and of a disagreement meet, in `occupied` with its counts
replaced: 254 to 255 entered is counted; 256 is not; exited 2 of 2 is counted, 3 is not. -/
theorem witness_TreadleEventsCountEnterOrIntrude_counts :
    let s (n x : Nat) : State := { occupied with axles.entered := n, axles.exited := x }
    (s 254 0).calm = true ∧ ((255 : Nat) : Int) = (s 254 0).axles.entered + 1 ∧ 0 ≤ 255 ∧ 255 ≤ 255 ∧
      (s 255 0).calm = true ∧ (s 255 0).axles.entered ≤ 255 ∧ ((256 : Nat) : Int) = (s 255 0).axles.entered + 1 ∧
      ¬(0 ≤ 256 ∧ 256 ≤ 255) ∧
      (s 2 1).calm = true ∧ ((2 : Nat) : Int) = (s 2 1).axles.exited - (-1) ∧
      (s 2 2).calm = true ∧ ((3 : Nat) : Int) = (s 2 2).axles.exited - (-1) ∧ ¬(3 ≤ 2 ∧ 2 ≤ 255) ∧
      (s 0 0).calm = true ∧ (s 0 0).axles.exited ≤ (s 0 0).axles.entered ∧
      (let t (n : Nat) : State := { granted with axles.entered := n }
       (t 254).calm = true ∧ (t 254).axles.entered < 255 ∧ (t 255).calm = true ∧ (t 255).axles.entered = 255 ∧
         (t 255).bridge.state = .granted ∧ (t 255).site.policies.treadleDisagree = .hold) := by decide +kernel

/-- Where AXLE_COUNT is set, stands and is not: two axles are those of the visit's configuration, a third is beyond them.
The pending list takes a fourth event and counts a fifth. -/
theorem witness_TreadleEventsCountEnterOrIntrude_mark :
    let events (n : Nat) : List TraceEvent := List.replicate n { treadle := .a, dir := .inward, counted := true }
    let s (n k : Nat) : State := { occupied with axles.entered := n, axles.trace.events := events k }
    (s 2 3).calm = true ∧ (s 2 3).visitInUse = some visitA.granted ∧ (s 2 3).axles.axleCount = false ∧
      ((s 2 3).configOf visitA.granted).map (·.total) = some 2 ∧ (s 2 3).axles.trace.events.length < 4 ∧
      (s 1 4).calm = true ∧ ¬(s 1 4).axles.trace.events.length < 4 ∧
      (show State from { s 3 0 with axles.axleCount := true }).calm = true := by decide +kernel

/-- No counts satisfy the table of R83 for an outward axle at the entry treadle in GRANTED, whose counts are 0. -/
theorem witness_TreadleEventsCountEnterOrIntrude_outward : ∀ n x : Nat,
    (if BridgeEnd.a = .a then (n : Int) = granted.axles.entered - 1 ∧ x = granted.axles.exited
     else n = granted.axles.entered ∧ (x : Int) = granted.axles.exited + 1) → ¬(x ≤ n ∧ n ≤ 255) := by
  intro n x h
  have h1 := h.1
  have e : granted.axles.entered = 0 := by decide +kernel
  rw [e] at h1
  omega

/-- No counts at all satisfy the table of R83 for an inward axle at the exit treadle of a bridge that none has left. -/
theorem witness_TreadleEventsCountEnterOrIntrude_no_counts : ∀ n x : Nat,
    (if BridgeEnd.b = .a then (n : Int) = occupied.axles.entered + 1 ∧ x = occupied.axles.exited
     else n = occupied.axles.entered ∧ (x : Int) = occupied.axles.exited - 1) → ¬(x ≤ n ∧ n ≤ 255) := by
  intro n x h
  have h2 := h.2
  have e : occupied.axles.exited = 0 := by decide +kernel
  rw [e] at h2
  omega

/-- `free` with a dark signal at end A: its feedback timer running, or its condition present under the policy
CONTINUE. -/
def dark (running : Bool) : State :=
  { free with
    bridge.lampsA := lampsDark
    bridge.feedbackA := running
    site.policies.lampFeedback := .continue_
    faults.register := if running then [] else Table.set [] (lampKey .a).place
      { key := lampKey .a, present := true, outstanding := true, count := 1, raisedAt := some .epochStart } }

theorem witness_LampFeedbackFollowsTheAspect :
    free.calm = true ∧ lampsMatch (free.bridge.aspect .a) (lamp .red) = true ∧
      (free.faultEntry (lampKey .a)).present = false ∧ lampsMatch (free.bridge.aspect .a) lampsDark = false ∧
      lampsMatch (free.bridge.aspect .b) { red := true, amber := true, green := false } = false ∧
      (dark false).calm = true ∧ ((dark false).faultEntry (lampKey .a)).present = true ∧
      lampsMatch ((dark false).bridge.aspect .a) (lamp .green) = false ∧
      lampsMatch ((dark false).bridge.aspect .a) (lamp .red) = true ∧ free.bridge.feedback .a = false ∧
      (dark true).calm = true ∧ (dark true).bridge.feedback .a = true ∧
      ((dark true).faultEntry (lampKey .a)).present = false ∧
      (dark true).site.policies.lampFeedback = .continue_ := by decide +kernel

theorem witness_GrantTimerExpiryIsANoShow :
    granted.calm = true ∧ granted.bridge.state = .granted ∧
      granted.bridge.grant = some { ident := [0x41#8], entryEnd := .a } ∧
      granted.bridge.grantTimer = some { secondsLeft := 120, paused := false } ∧ granted.held = false ∧
      granted.bridge.waiting = [] ∧ granted.inUse = some 0 ∧ Table.get? granted.visits 0 = some visitA.granted ∧
      (let s : State := { granted with bridge.waiting := [entry 0x42] }
       s.calm = true ∧ selectEntry s.bridge.waiting = some (entry 0x42)) := by decide +kernel

theorem witness_GrantTimerExpiryIsANoShow_no_timer :
    ∀ n, free.bridge.grantTimer ≠ some { secondsLeft := n, paused := false } := by
  intro n h
  cases h

/-- `weighing` with auto-capture on and the quiet timer running. -/
def quiet : State :=
  { weighing with site.settings.autoCapture := true, capture.arm := true, capture.quietTimer := true }

theorem witness_CapturesBeginAndTimeOut :
    weighing.ready .lane 15 [] = true ∧ weighing.captureRefusal = none ∧
      weighing.visitInUse = some visitA.granted ∧
      free.ready .lane 15 [] = true ∧ free.captureRefusal = some .noVehicle ∧
      occupied.captureRefusal = some .zeroUnset ∧
      (show State from { weighing with bridge.holds.lane := true }).captureRefusal = some .held ∧
      (show State from { weighing with capture.waiting := capturing.capture.waiting }).captureRefusal =
        some .capturePending ∧
      (show State from { weighing with cal.notVerified := true }).captureRefusal = some .notForTrade ∧
      free.calm = true ∧ free.capture.waiting = none ∧ capturing.calm = true ∧
      capturing.capture.waiting =
        some { origin := .request .lane 9#8, ident := [0x41#8], secondsLeft := 20, restart := none } ∧
      free.capture.quietTimer = false ∧
      quiet.calm = true ∧ quiet.capture.quietTimer = true ∧ quiet.site.settings.autoCapture = true ∧
      quiet.capture.arm = true ∧ quiet.capture.waiting = none ∧ quiet.captureRefusal = none ∧
      quiet.visitInUse = some visitA.granted ∧
      (let s : State := { quiet with site.settings.autoCapture := false }
       s.calm = true ∧ s.capture.quietTimer = true ∧ s.site.settings.autoCapture = false) ∧
      (let s : State := { quiet with cal.notVerified := true }
       s.calm = true ∧ s.captureRefusal = some .notForTrade ∧
         s.bridge.grant = some { ident := [0x41#8], entryEnd := .a }) := by decide +kernel

/-- The payload of an arrival of the ident A at end B. -/
def arrivalA : List Octet := arrival 0x41 1

/-- `withVisit` with a vehicle of another ident on the bridge, and entries waiting at end B. -/
def waitingB (n : Nat) : State :=
  { withVisit with bridge.state := .occupiedUnknown
                   bridge.waiting := (List.range n).map (fun i => { entry (0x50 + i) with entryEnd := .b })
                   bridge.arrivals := n }

theorem witness_ArrivalsQueueAndAreGranted :
    withVisit.ready .lane 20 arrivalA = true ∧ identAt arrivalA 0 = some [0x41#8] ∧
      endOf (natAt arrivalA 12 1) = some .b ∧ identAt (arrival 0x61 1) 0 = none ∧
      endOf (natAt (arrival 0x41 2) 12 1) = none ∧ free.ready .lane 20 arrivalA = true ∧
      findVisit free.visits [0x41#8] = none ∧ findVisit withVisit.visits [0x41#8] = some (0, visitA) ∧
      granted.ready .lane 20 arrivalA = true ∧ findVisit granted.visits [0x41#8] = some (0, visitA.granted) ∧
      visitA.granted.inProgress = true ∧ visitA.inProgress = false ∧ (∀ q ∈ withVisit.bridge.waiting, q.ident ≠ [0x41#8]) ∧
      withVisit.bridge.grant.map (·.ident) ≠ some [0x41#8] ∧
      (withVisit.bridge.waiting.filter (fun q => q.entryEnd = .b)).length < 8 ∧ withVisit.bridge.arrivals < 999999999 ∧
      withVisit.bridge.state = .free ∧ withVisit.held = false := by decide +kernel

theorem witness_ArrivalsQueueAndAreGranted_waiting :
    (waitingB 8).ready .lane 20 arrivalA = true ∧
      8 ≤ ((waitingB 8).bridge.waiting.filter (fun q => q.entryEnd = .b)).length ∧
      (waitingB 7).ready .lane 20 arrivalA = true ∧
      ((waitingB 7).bridge.waiting.filter (fun q => q.entryEnd = .b)).length < 8 ∧
      (∀ q ∈ (waitingB 7).bridge.waiting, q.ident ≠ [0x41#8]) ∧ (waitingB 7).bridge.state ≠ .free ∧
      (let s : State := { waitingB 7 with bridge.waiting := [entry 0x41] }
       s.ready .lane 20 arrivalA = true ∧ (∃ q ∈ s.bridge.waiting, q.ident = [0x41#8])) ∧
      (waitingB 1).ready .lane 21 (idf 0x50) = true ∧ identAt (idf 0x50) 0 = some [0x50#8] ∧
      (∃ q ∈ (waitingB 1).bridge.waiting, q.ident = [0x50#8]) ∧ identAt (idf 0x60) 0 = none ∧
      (∀ q ∈ (waitingB 1).bridge.waiting, q.ident ≠ [0x41#8]) ∧
      (let s : State := { waitingB 7 with bridge.arrivals := 999999999 }
       s.ready .lane 20 arrivalA = true ∧ 999999999 ≤ s.bridge.arrivals ∧ s.bridge.state ≠ .free) ∧
      (let s : State := { waitingB 2 with bridge.state := .free }
       s.held = false ∧ s.bridge.state = .free ∧ (selectEntry s.bridge.waiting).map (·.arrival) = some 1) := by decide +kernel

/-- `occupied` with a stable round of the given gross in grams. -/
def standing (g : Int) : State := { occupied with weigh := (weighed (g + 1000)).weigh }

theorem witness_ReleaseAndClearEndAnOccupiedBridge :
    free.ready .gatehouse 22 [] = true ∧ free.bridge.state ≠ .occupied ∧ capturing.ready .gatehouse 22 [] = true ∧
      capturing.bridge.state = .occupied ∧ capturing.capture.waiting.isSome = true ∧ capturing.held = false ∧
      capturing.bridge.grant = some { ident := [0x41#8], entryEnd := .a } ∧
      free.ready .gatehouse 23 [] = true ∧ granted.ready .gatehouse 23 [] = true ∧ granted.bridge.state = .granted ∧
      occupied.ready .gatehouse 23 [] = true ∧ occupied.bridge.state ≠ .free ∧ occupied.bridge.state ≠ .granted ∧
      occupied.weigh.latest = none ∧
      (standing 990000).ready .gatehouse 23 [] = true ∧ (standing 990000).weigh.stable = true ∧
      (standing 990000).weigh.latest.map (·.rounded) = some (some 1000) ∧
      (standing 990000).weigh.roundTable.occupancyKg = 1000 ∧
      (standing 989999).ready .gatehouse 23 [] = true ∧ (standing 989999).weigh.latest.map (·.rounded) = some (some 980) ∧
      (standing 989999).bridge.waiting = [] ∧ (standing 989999).inUse = some 0 ∧
      (let s : State := { standing 0 with bridge.waiting := [entry 0x42] }
       s.ready .gatehouse 23 [] = true ∧ selectEntry s.bridge.waiting = some (entry 0x42) ∧ s.held = false) ∧
      (let s : State := { standing 0 with bridge.waiting := [entry 0x42], bridge.holds.lane := true }
       s.ready .gatehouse 23 [] = true ∧ s.bridge.holds.lane = true ∧
         (run s [.clearBridge .gatehouse 1#8 []]).bridge.state = .free ∧
         (run s [.clearBridge .gatehouse 1#8 []]).bridge.waiting = [entry 0x42]) ∧
      (let s : State := { unknown with weigh := (weighed 1000).weigh }
       s.ready .gatehouse 23 [] = true ∧ s.bridge.state = .occupiedUnknown ∧ s.weigh.stable = true) := by decide +kernel

/-- `granted` under the hold of the Lane Port. -/
def heldGrant : State :=
  { granted with bridge.holds.lane := true, bridge.aspectA := .red, bridge.lampsA := lamp .red
                 bridge.grantTimer := some { secondsLeft := 120, paused := true } }

theorem witness_PortHoldsSetAndClearTheirSource :
    granted.ready .lane 24 [] = true ∧ granted.held = false ∧ capturing.ready .metrology 24 [] = true ∧
      heldGrant.ready .gatehouse 24 [] = true ∧ heldGrant.held = true ∧ heldGrant.ready .lane 24 [] = true ∧
      heldGrant.bridge.holds.lane = true ∧ capturing.ready .gatehouse 24 [] = true ∧ capturing.held = false ∧
      capturing.capture.waiting.isSome = true ∧ capturing.bridge.holds.gatehouse = false ∧
      (verifying [] (some (bridgePoint 1))).ready .gatehouse 24 [] = true ∧
      (verifying [] (some (bridgePoint 1))).bridge.holds.gatehouse = false ∧
      (verifying [] (some (bridgePoint 1))).run.map (·.waiting) = some (some (bridgePoint 1)) ∧
      heldGrant.ready .lane 25 [] = true ∧ heldGrant.bridgeConsistent = true ∧ heldGrant.bridge.state ≠ .free ∧
      granted.ready .gatehouse 25 [] = true ∧ granted.bridgeConsistent = true ∧
      (let s : State := { withVisit with bridge.holds.lane := true, bridge.waiting := [entry 0x41] }
       s.ready .lane 25 [] = true ∧ s.bridgeConsistent = true ∧ s.bridge.state = .free ∧
         selectEntry s.bridge.waiting = some (entry 0x41) ∧ (run s [.releaseHold .lane 1#8 []]).held = false) := by decide +kernel

/-! #### Time, supply and starts -/

theorem witness_PoweredSecondRunsTheClockAndTheAges :
    withVisit.calm = true ∧ Table.sorted withVisit.visits = true ∧ Table.get? withVisit.visits 0 = some visitA ∧
      visitA.awaiting = true ∧ withVisit.inUse ≠ some 0 ∧ (∀ w ∈ withVisit.bridge.waiting, w.ident ≠ visitA.ident) ∧
      visitA.age + 1 < withVisit.site.settings.visitTimeout * 3600 ∧ Table.get? withVisit.visits 1 = none ∧
      granted.calm = true ∧ Table.sorted granted.visits = true ∧
      ¬(visitA.granted.awaiting = true ∧ granted.inUse ≠ some 0) ∧
      (let s : State := { withVisit with visits := [(0, { visitA with age := 64799 })] }
       s.calm = true ∧ Table.sorted s.visits = true ∧ Table.get? s.visits 0 = some { visitA with age := 64799 } ∧
         s.site.settings.visitTimeout * 3600 ≤ 64799 + 1 ∧ ¬(s.site.settings.visitTimeout * 3600 ≤ 64798 + 1)) := by decide +kernel

/-- Two visits that reach the timeout in one second tell so in order of position, a third one second short does not. -/
theorem test_two_visits_expire :
    let v (c : Octet) (age : Nat) : Visit := { visitA with ident := [c], age := age }
    let t := run { withVisit with visits := [(0, v 0x42#8 64799), (3, v 0x41#8 64799), (4, v 0x43#8 64798)] }
      [.poweredSecond]
    t.ports.gatehouse.notices = [.visitExpired [0x42#8] .delivery .awaitingFirst none,
        .visitExpired [0x41#8] .delivery .awaitingFirst none] ∧
      t.visits.map (·.1) = [4] := by decide +kernel

theorem witness_SwitchWithdrawalClosesAccess :
    s871.calm = true ∧ s871.staged = none ∧ (open871 0 table871).calm = true ∧
      (open871 0 table871).staged = some table871 ∧
      paramChanges (open871 0 table871).cal.committed table871 = [] ∧
      (open871 0 spanned871).calm = true ∧ (open871 0 spanned871).staged = some spanned871 ∧
      paramChanges (open871 0 spanned871).cal.committed spanned871 ≠ [] ∧ (open871 0 spanned871).cal.lockout = none ∧
      (let s : State := { open871 0 spanned871 with cal.lockout := some .secondFault, bridge.holds.fault := true }
       s.calm = true ∧ s.cal.lockout ≠ none) := by decide +kernel

/-- `polling` during a dip. -/
def dipped : State :=
  { polling with supplyGood := false, dipTimer := true, bridge.holds.supply := true
                 bus := { polling.bus with inProgress := false, toPoll := [], poll := .idle, periodTimer := false } }

theorem witness_SupplyDipStopsRoundsAndItsReturnStartsOne :
    dipped.calm = true ∧ dipped.supplyGood = false ∧ dipped.tableInUse.configuredList = 1 :: [2] ∧
      free.calm = true ∧ free.supplyGood = true ∧ free.capture.waiting = none ∧ capturing.calm = true ∧
      capturing.supplyGood = true ∧
      capturing.capture.waiting =
        some { origin := .request .lane 9#8, ident := [0x41#8], secondsLeft := 20, restart := none } := by decide +kernel

/-- A LAMP_FEEDBACK present at a GREEN end, its lamps showing RED alone or AMBER: the fall that commands RED makes the
first absent (log 58) and leaves the second. -/
theorem witness_SupplyDipStopsRoundsAndItsReturnStartsOne_lamps :
    let s (l : Aspect) : State :=
      { granted with
        bridge.lampsA := lamp l, site.policies.lampFeedback := .continue_
        faults.register := Table.set [] (lampKey .a).place
          { key := lampKey .a, present := true, outstanding := true, count := 1, raisedAt := some .epochStart } }
    (s .red).calm = true ∧ (s .red).supplyGood = true ∧ (s .amber).calm = true ∧ (s .red).bridge.aspectA = .green ∧
      ((nxt (exec .supplyFall (s .red))).faultEntry (lampKey .a)).present = false ∧
      ((nxt (exec .supplyFall (s .amber))).faultEntry (lampKey .a)).present = true ∧
      (∀ e, (treadleKey .a).place ≠ (lampKey e).place) := by
  refine ⟨by decide +kernel, by decide +kernel, by decide +kernel, by decide +kernel, by decide +kernel,
    by decide +kernel, fun e => ?_⟩
  cases e <;> decide

theorem witness_StartsAreBegunAndBlocksStop :
    dipped.commitNote = none ∧ dipped.cal.pendingMark = false ∧ dipped.dipTimer = true ∧ free.dipTimer = false ∧
      free.cal.pendingMark = false ∧ (show State from { free with cal.pendingMark := true }).cal.pendingMark = true ∧
      State.reset.phase = .starting .powerOn ∧ frameOf (.readSiteTime .lane 1#8 []) = some ⟨.lane, 3, 1#8, []⟩ ∧
      (show State from { State.reset with supplyGood := false }).supplyGood = false := by decide +kernel

theorem witness_StartSequenceSetsEveryBlock :
    before125.phase = .starting .powerOn ∧ before125.supplyGood = true ∧ noneLost.calibration = false ∧
      1 ≤ before125.cal.committed.decks ∧ before125.cal.committed.configuredList = 1 :: [2] ∧
      before125.cal.lockout = none ∧ State.reset.cal.committed.configuredList = [] ∧ 1 ≤ CalTable.decks [] ∧
      (let s : State := { before125 with cal.accessMark := true, cal.diffMark := true }
       s.cal.accessMark = true ∧ s.cal.diffMark = true) ∧
      (show State from { before125 with cal.lockout := some .secondFault }).cal.lockout ≠ none ∧ before125.cal.committed.configured 1 = true ∧
      before125.cal.committed.configured 16 = false ∧ lostCalibration.calibration = true ∧
      State.reset.phase = .starting .powerOn ∧ State.reset.supplyGood = true := by decide +kernel

theorem witness_RetainedWritesCompleteInOrder :
    (let s : State := { free with writes := [{ regions := [.site], commit := none }] }
     s.writes = { regions := [.site], commit := none } :: []) ∧
    (let n : CommitNote := { epoch := 413, record := 2318, changes := 6 }
     let s : State := { free with writes := [{ regions := [.calibration, .audit], commit := some n }] }
     s.writes = { regions := [.calibration, .audit], commit := some n } :: []) ∧ free.writes = [] := by decide +kernel

/-! #### The Port Controller's requests -/

/-- The payload of Set Site Time for midnight of a date. -/
def midnight (y m d : Nat) : List Octet := be 2 y ++ be 1 m ++ be 1 d ++ be 3 0

theorem witness_PortControllerRequests :
    free.ready .lane 1 [] = true ∧ (free.port .lane).notices = [] ∧ busyPort.ready .gatehouse 1 [] = true ∧
      (busyPort.port .gatehouse).notices = .noShow [0x41#8] :: List.replicate 14 (.noShow [0x41#8]) ∧
      free.ready .gatehouse 2 (midnight 2099 12 31) = true ∧ (timeAt (midnight 2099 12 31) 0).valid = true ∧
      (timeAt (midnight 2000 1 1) 0).valid = true ∧ (timeAt (midnight 2100 1 1) 0).valid = false ∧
      (timeAt (midnight 2000 0 1) 0).valid = false ∧
      free.ready .gatehouse 4 (be 1 2 ++ be 4 5) = true ∧
      settingInRange (natAt (be 1 2 ++ be 4 5) 0 1) (natAt (be 1 2 ++ be 4 5) 1 4) = true ∧
      settingInRange (natAt (be 1 2 ++ be 4 4) 0 1) (natAt (be 1 2 ++ be 4 4) 1 4) = false ∧
      settingInRange (natAt (be 1 0 ++ be 4 0) 0 1) (natAt (be 1 0 ++ be 4 0) 1 4) = false ∧
      free.ready .metrology 100 [] = true ∧ free.hasHeadroom = true ∧
      (let s : State := { free with audit := log872 199 }
       s.ready .metrology 100 [] = true ∧ s.hasHeadroom = false) ∧
      (let s : State := { free with audit := log872 198 }
       s.hasHeadroom = true) ∧
      (let s : State := { free with audit := { log872 1 with next := 4294967296 } }
       s.hasHeadroom = false) := by decide +kernel

/-! #### Configurations, drafts and visits -/

/-- The payload of Write Configuration: a code, a number of groups of two axles with a limit of 6,500 kg, a
combination limit of 15,500 kg and a tolerance. -/
def writing (code groups tolerance : Nat) : List Octet :=
  be 1 code ++ be 1 groups ++ (List.replicate groups (be 1 2 ++ be 4 6500)).flatten ++
    List.replicate (5 * (8 - groups)) 0#8 ++ be 4 15500 ++ be 2 tolerance

/-- What Write Configuration judges of a payload. -/
def judged (s : State) (payload : List Octet) : Option Status :=
  s.configurationRefusal (natAt payload 0 1)
    (configurationOk s.cal.committed.e (natAt payload 1 1) (configurationAt payload))

theorem witness_ConfigurationAndDraftRequests :
    free.ready .gatehouse 30 (writing 9 1 2000) = true ∧ judged free (writing 9 1 2000) = none ∧
      judged free (writing 24 8 0) = none ∧ judged free (writing 25 1 0) = some .noSuchConfiguration ∧
      judged free (writing 0 1 0) = some .noSuchConfiguration ∧ judged free (writing 8 1 0) = some .fixedConfiguration ∧
      judged free (writing 9 1 2001) = some .badConfiguration ∧
      (let s : State := { withVisit with visits := [(0, { visitA with config := some 9 })] }
       s.ready .gatehouse 31 [9#8] = true ∧ s.configurationRefusal 9 true = some .configurationInUse ∧
         s.configurationRefusal 10 true = none) ∧
      free.ready .gatehouse 33 [] = true ∧ free.bridge.state ≠ .occupied ∧ occupied.ready .gatehouse 33 [] = true ∧
      occupied.visitInUse = some visitA.granted ∧ visitA.granted.draft.used = 0 ∧
      (let s : State := { occupied with visits := [(0, { visitA.granted with draft := draft1 })] }
       s.ready .gatehouse 33 [] = true ∧ s.inUse = some 0 ∧
         Table.get? s.visits 0 = some { visitA.granted with draft := draft1 } ∧ draft1.used ≠ 0) ∧
      free.ready .metrology 35 [] = true := by decide +kernel

/-- The payload of Amend Visit for the ident A: the marking octet, then the fields. -/
def amending (marks kind commodity code cls options : Nat) : List Octet :=
  idf 0x41 ++ be 1 marks ++ be 1 kind ++ be 1 commodity ++ be 1 code ++ be 1 cls ++ be 1 options

theorem witness_VisitRequests :
    withVisit.ready .gatehouse 39 [72#8] = true ∧ natAt [72#8] 0 1 ≤ 72 ∧ 72 < natAt [73#8] 0 1 ∧
      withVisit.ready .gatehouse 40 (opening 0x42 0 15 1 3 1) = true ∧
      identAt (opening 0x42 0 15 1 3 1) 0 = some [0x42#8] ∧ identAt (opening 0x61 0 15 1 3 1) 0 = none ∧
      natAt (opening 0x42 0 15 1 3 1) 13 1 ≤ 15 ∧ ¬(natAt (opening 0x42 0 16 1 3 1) 13 1 ≤ 15) ∧
      natAt (opening 0x42 0 15 1 3 1) 15 1 ≤ 3 ∧ natAt (opening 0x42 0 15 1 255 1) 15 1 = 255 ∧
      ¬(natAt (opening 0x42 0 15 1 4 1) 15 1 ≤ 3 ∨ natAt (opening 0x42 0 15 1 4 1) 15 1 = 255) ∧
      findVisit withVisit.visits [0x41#8] ≠ none ∧ findVisit withVisit.visits [0x42#8] = none ∧
      withVisit.entryOf 9 = none ∧ withVisit.entryOf 8 ≠ none ∧
      Table.get? withVisit.visits 1 = none ∧ (∀ q < 1, Table.get? withVisit.visits q ≠ none) ∧
      (let malformed := idf 0x61 ++ (amending 2 1 9 0 255 0).drop 12
       withVisit.ready .gatehouse 41 malformed = true ∧ identAt malformed 0 = none) ∧
      withVisit.ready .gatehouse 42 (idf 0) = true ∧ identAt (idf 0) 0 = none ∧
      withVisit.ready .gatehouse 41 (amending 2 1 9 0 255 0) = true ∧
      findVisit withVisit.visits [0x41#8] = some (0, visitA) ∧
      withVisit.amendRefusal 0 visitA (carriedAt (amending 2 1 9 0 255 0) 12) (visitArgsAt (amending 2 1 9 0 255 0) 13) =
        none ∧ withVisit.inUse ≠ some 0 ∧
      withVisit.amendRefusal 0 visitA (carriedAt (amending 2 1 16 0 255 0) 12)
        (visitArgsAt (amending 2 1 16 0 255 0) 13) = some .badArgument ∧
      occupied.ready .gatehouse 41 (amending 4 0 0 1 0 0) = true ∧ occupied.inUse = some 0 ∧
      occupied.amendRefusal 0 visitA.granted (carriedAt (amending 4 0 0 1 0 0) 12)
        (visitArgsAt (amending 4 0 0 1 0 0) 13) = none ∧
      (occupied.configOf (visitA.granted.amended (carriedAt (amending 4 0 0 1 0 0) 12)
        (visitArgsAt (amending 4 0 0 1 0 0) 13))).map (·.total) = some 2 ∧ occupied.axles.axleCount = false ∧
      (let s : State := { occupied with axles.entered := 3 }
       s.ready .gatehouse 41 (amending 4 0 0 1 0 0) = true ∧ 2 < s.axles.entered) ∧
      natAt (amending 63 1 9 0 255 3) 12 1 / 2 ^ 5 % 2 = 1 ∧ ¬(natAt (amending 31 1 9 0 255 3) 12 1 / 2 ^ 5 % 2 = 1) ∧
      occupied.amendRefusal 0 { visitA.granted with draft := { used := 1, groups := [], inconsistent := false } }
        (carriedAt (amending 4 0 0 1 0 0) 12) (visitArgsAt (amending 4 0 0 1 0 0) 13) = some .visitInUse ∧
      free.ready .gatehouse 42 (idf 0x41) = true ∧ granted.ready .gatehouse 42 (idf 0x41) = true ∧
      withVisit.ready .gatehouse 42 (idf 0x41) = true := by decide +kernel

/-- A full Visit Table, idents of two characters apart from the ident B. -/
def fullTable : Table Visit :=
  (List.range 256).map (fun i =>
    (i, { visitA with ident := [BitVec.ofNat 8 (0x41 + i / 16), BitVec.ofNat 8 (0x41 + i % 16)] }))

theorem witness_VisitRequests_full :
    let s : State := { free with visits := fullTable }
    s.ready .gatehouse 40 (opening 0x42 0 3 0 255 1) = true ∧ findVisit s.visits [0x42#8] = none ∧
      (∀ q < 256, Table.get? s.visits q ≠ none) ∧
      (let t : State := { s with visits := Table.erase fullTable 255 }
       Table.get? t.visits 255 = none ∧ ∀ q < 255, Table.get? t.visits q ≠ none) := by decide +kernel

/-! #### Tares and tickets -/

/-- `free` with a table of tares and a pointer. -/
def withTares (slots : Table Tare) (pointer : Nat) : State := { free with tares := { slots := slots, pointer := pointer } }

theorem witness_LookupsAndStoresMoveThePointer :
    findTare (withTares [(95, tareOf [0x41#8] .learned)] 95).tares.slots [0x41#8] = some (95, tareOf [0x41#8] .learned) ∧
      (withTares [] 0).runOut (tareOf [0x41#8] .learned) = false ∧
      findTare (withTares [(5, oldTare)] 0).tares.slots [0x41#8] = some (5, oldTare) ∧
      (withTares [] 0).runOut oldTare = true ∧ findTare (withTares [] 0).tares.slots [0x41#8] = none ∧
      findTare (s641.tares.slots.filter (fun e => !s641.runOut e.2)) hb220 = some (42, tareOf hb220 .learned) ∧
      (let valid := (Table.erase slots641 43).filter (fun e => !free.runOut e.2)
       findTare valid [0x41#8] = none ∧ Table.get? valid 43 = none ∧ ∀ j < 43, Table.get? valid j ≠ none) := by decide +kernel

/-- The replacement of 6.4.1: from slot 40 the third slot; and a table of KEYED slots only. -/
theorem witness_LookupsAndStoresMoveThePointer_full :
    let valid := s641.tares.slots.filter (fun e => !s641.runOut e.2)
    findTare valid [0x41#8] = none ∧ (∀ j < 96, Table.get? valid j ≠ none) ∧
      Table.get? valid ((s641.tares.pointer + 2) % 96) = some (tareOf hb220 .learned) ∧
      (∀ j < 2, (Table.get? valid ((s641.tares.pointer + j) % 96)).all (fun o => o.origin = .keyed) = true) ∧
      (let keyed : Table Tare := (List.range 96).map (fun i => (i, tareOf [0x58#8, BitVec.ofNat 8 i] .keyed))
       let s := withTares keyed 0
       findTare (s.tares.slots.filter (fun e => !s.runOut e.2)) [0x41#8] = none ∧
         ∀ j < 96, (Table.get? (s.tares.slots.filter (fun e => !s.runOut e.2)) j).map (·.origin) = some .keyed) := by decide +kernel

/-- The payload of Key Tare for the ident A. -/
def keying (kg cls : Nat) : List Octet := idf 0x41 ++ be 4 kg ++ be 1 cls

theorem witness_TareRequests :
    (let s := withTares [(5, tareOf [0x41#8] .learned)] 0
     s.ready .gatehouse 45 (idf 0x41) = true ∧ identAt (idf 0x41) 0 = some [0x41#8] ∧
       s.lookup [0x41#8] = .found 5 (tareOf [0x41#8] .learned) ∧ s.ready .gatehouse 48 (idf 0x41) = true ∧
       findTare s.tares.slots [0x41#8] = some (5, tareOf [0x41#8] .learned) ∧ s.ready .gatehouse 47 [] = true) ∧
      (withTares [(5, oldTare)] 0).ready .gatehouse 45 (idf 0x41) = true ∧
      (withTares [(5, oldTare)] 0).lookup [0x41#8] = .expired 5 ∧ free.ready .gatehouse 45 (idf 0x41) = true ∧
      free.lookup [0x41#8] = .notHeld ∧ free.ready .metrology 46 (keying 60000 3) = true ∧
      intAt (keying 60000 3) 12 4 % free.cal.committed.e = 0 ∧ intAt (keying 60000 3) 12 4 = free.cal.committed.bridgeMax ∧
      ¬(intAt (keying 60020 3) 12 4 ≤ free.cal.committed.bridgeMax) ∧ intAt (keying 0 255) 12 4 = 0 ∧
      ¬(intAt (keying 10 255) 12 4 % free.cal.committed.e = 0) ∧
      (free.storeTare { tareOf [0x41#8] .keyed with tare := 60000 }).isSome = true ∧ free.hasHeadroom = true ∧
      (let s : State := { free with audit := log872 199 }
       s.ready .metrology 46 (keying 60000 3) = true ∧ s.hasHeadroom = false) ∧
      free.ready .metrology 48 (idf 0x41) = true ∧ findTare free.tares.slots [0x41#8] = none ∧
      (let s := withTares [(5, tareOf [0x41#8] .keyed)] 0
       s.ready .gatehouse 48 (idf 0x41) = true ∧ s.ready .metrology 48 (idf 0x41) = true ∧
         findTare s.tares.slots [0x41#8] = some (5, tareOf [0x41#8] .keyed)) := by decide +kernel

/-- A malformed ident meets the three tare requests that carry one: a 0 octet before a character, a character outside A to
Z and 0 to 9. -/
theorem witness_TareRequests_malformed :
    free.ready .gatehouse 45 (be 2 0x41 ++ List.replicate 10 0#8) = true ∧
      identAt (be 2 0x41 ++ List.replicate 10 0#8) 0 = none ∧
      free.ready .metrology 46 (idf 0x61 ++ be 4 60000 ++ be 1 3) = true ∧
      identAt (idf 0x61 ++ be 4 60000 ++ be 1 3) 0 = none ∧ free.ready .gatehouse 48 (idf 0x5B) = true ∧
      free.ready .metrology 48 (idf 0x5B) = true ∧ identAt (idf 0x5B) 0 = none := by decide +kernel

theorem witness_TareRequests_full :
    let keyed : Table Tare := (List.range 96).map (fun i => (i, tareOf [0x58#8, BitVec.ofNat 8 i] .keyed))
    (withTares keyed 0).ready .metrology 46 (keying 60000 3) = true ∧
      (withTares keyed 0).storeTare { tareOf [0x41#8] .keyed with tare := 60000, cls := some 3 } = none := by decide +kernel

theorem witness_TicketsTakeTheirWeightsAndNumber :
    s761.cal.nextNumber < 99999999 ∧
      (show State from { s761 with cal.nextNumber := 99999998 }).cal.nextNumber < 99999999 ∧
      99999999 ≤ (show State from { s761 with cal.nextNumber := 99999999 }).cal.nextNumber ∧ s761.cal.series < 99 ∧
      99 ≤ (show State from { s761 with cal.series := 99 }).cal.series := by decide +kernel

theorem witness_TicketRequestsAndTotals :
    free.ready .metrology 51 [] = true ∧ free.cal.series < 99 ∧ free.hasHeadroom = true ∧
      (let s : State := { free with cal.series := 99 }
       s.ready .metrology 51 [] = true ∧ 99 ≤ s.cal.series) ∧
      (let s : State := { free with cal.series := 98, audit := log872 199 }
       s.ready .metrology 51 [] = true ∧ s.cal.series < 99 ∧ s.hasHeadroom = false) ∧
      free.ready .gatehouse 52 (be 1 1 ++ be 4 1) = true ∧ free.ready .gatehouse 52 (be 1 100 ++ be 4 1) = true ∧
      ¬((keyAt (be 1 100 ++ be 4 1)).series ≤ 99) ∧ ¬(1 ≤ (keyAt (be 1 1 ++ be 4 0)).number) ∧
      ¬((keyAt (be 1 1 ++ be 4 100000000)).number ≤ 99999999) ∧ (keyAt (be 1 99 ++ be 4 99999999)).series = 99 ∧
      (keyAt (be 1 99 ++ be 4 99999999)).number = 99999999 ∧ (∀ t ∈ free.tickets.ring, t.key.le (keyAt []) = false) ∧
      (let s : State := { free with tickets.ring := ring762.take 2 }
       s.ready .gatehouse 52 (be 1 99 ++ be 4 99999999) = true ∧
         (s.tickets.ring.filter (fun t => t.key.le (keyAt (be 1 99 ++ be 4 99999999)))).getLast? = ring762[1]?) ∧
      free.ready .gatehouse 55 [] = true := by decide +kernel

theorem witness_TicketRequestsAndTotals_nets :
    let k (g : Int) := ticketOf { series := 1, number := 1 } fx322 (.stored (record g 413 (at_ 6 9 10 12)) slot6)
    (k 13920).net = 0 ∧ 0 ≤ (k 13920).net ∧ (k 13900).net < 0 ∧ 2 ≠ (k 13920).commodity + 1 := by decide +kernel

/-! #### Drafts -/

theorem witness_StopsResolveToDraftsOrRefusals :
    stop1.exited = 0 ∧ 1 ≤ stop1.entered ∧ ¬((stop2 20600).exited = 0 ∧ 1 ≤ (stop2 20600).entered) ∧
      ¬((show Handoff from { stop1 with entered := 0 }).exited = 0 ∧ 1 ≤ (show Handoff from { stop1 with entered := 0 }).entered) ∧
      (0 : Int) ≤ 500 ∧ verdictOf 20500 20000 500 = .advisory ∧ verdictOf 20501 20000 500 = .over ∧
      verdictOf 20000 20000 500 = .within ∧
      (show Handoff from { stop1 with mark := true }).mark = true ∧ stop1.mark = false ∧
      config7.ranges = [(1, 1), (2, 3), (4, 6), (7, 8), (9, 11)] ∧
      (∃ r ∈ config7.ranges, (∃ k < 6, (0 < k ∧ k ≤ 5) ∧ r.1 ≤ k ∧ k ≤ r.2) ∧ ¬(0 + 1 ≤ r.1 ∧ r.2 ≤ 5)) ∧
      (∀ r ∈ config7.ranges, ¬((∃ k < 7, (stop1.exited < k ∧ k ≤ stop1.entered) ∧ r.1 ≤ k ∧ k ≤ r.2) ∧
        ¬(stop1.exited + 1 ≤ r.1 ∧ r.2 ≤ stop1.entered))) ∧
      (∃ r ∈ config7.ranges, stop1.exited + 1 ≤ r.1 ∧ r.2 ≤ stop1.entered) ∧
      (groupsOn stop1.entered stop1.exited config7.ranges).length =
        (occupiedDecks stop1.travel stop1.threshold stop1.decks).length ∧ stop1.draft.used < 6 ∧
      (show Handoff from { stop1 with draft := { draft1 with used := 6 } }).draft.used = 6 ∧
      (∀ r ∈ config7.ranges, ¬(11 + 1 ≤ r.1 ∧ r.2 ≤ 11)) ∧
      (∀ r ∈ config7.ranges, ¬(∃ k < 12, (5 < k ∧ k ≤ 5) ∧ r.1 ≤ k ∧ k ≤ r.2)) ∧
      (∀ r ∈ config7.ranges, ¬(5 + 1 ≤ r.1 ∧ r.2 ≤ 5)) := by decide +kernel

/-- The clauses of a captured stop: in draft 2 of 5.7.3 the groups 3, 4 and 5 take the decks 4, 3 and 2 in order, group 3
keeping what draft 1 captured, with a second weight within the band or beyond it. -/
theorem witness_StopsResolveToDraftsOrRefusals_groups :
    groupsOn (stop2 20600).entered (stop2 20600).exited config7.ranges = [3, 4, 5] ∧
      occupiedDecks (stop2 20600).travel (stop2 20600).threshold (stop2 20600).decks = [(4, 20600), (3, 16420), (2, 19880)] ∧
      Table.get? (stop2 20600).draft.groups 3 = some { weight := 20640, verdict := .over, draft := 1 } ∧
      Table.get? (stop2 20600).draft.groups 4 = none ∧ (config7.groups[4 - 1]?).isSome = true ∧
      ¬((stop2 20580).band < |(20580 : Int) - 20640|) ∧ (stop2 20560).band < |(20560 : Int) - 20640| := by decide +kernel

/-- A stop with fewer occupied decks than groups: the whole vehicle of configuration 7 on, and only part of it. -/
theorem witness_StopsResolveToDraftsOrRefusals_straddle :
    let whole : Handoff := { stop1 with entered := 11, decks := decks4 0 0 16420 20600 }
    let part : Handoff := { stop1 with decks := decks4 0 0 16420 20600 }
    (groupsOn whole.entered whole.exited config7.ranges).length ≠
        (occupiedDecks whole.travel whole.threshold whole.decks).length ∧ whole.draft.used = 0 ∧
      whole.entered = config7.total ∧ whole.exited = 0 ∧ whole.mark = false ∧
      (groupsOn part.entered part.exited config7.ranges).length ≠
        (occupiedDecks part.travel part.threshold part.decks).length ∧
      ¬(part.draft.used = 0 ∧ part.entered = config7.total ∧ part.exited = 0) ∧ part.mark = false := by decide +kernel

/-! #### Calibration -/

theorem witness_CalibrationAccessOpensAndCloses :
    s871.ready .metrology 60 [] = true ∧ s871.openRefusal = none ∧ free.ready .metrology 60 [] = true ∧
      free.openRefusal = some .switchOff ∧ (open871 0 table871).openRefusal = some .alreadyOpen ∧
      (show State from { s871 with bridge.state := .granted }).openRefusal = some .bridgeOccupied ∧
      (show State from { s871 with capture.waiting := capturing.capture.waiting }).openRefusal = some .capturePending ∧
      (show State from { s871 with run := (verifying [] none).run }).openRefusal = some .runActive ∧
      (show State from { s871 with cal.lockout := some .secondFault }).openRefusal = some .lockout ∧
      (show State from { s871 with audit := log872 199 }).openRefusal = some .logFull ∧
      free.ready .metrology 67 [] = true ∧ free.staged = none ∧ (open871 0 spanned871).ready .metrology 67 [] = true ∧
      (open871 0 spanned871).staged ≠ none := by decide +kernel

/-- The payload of Write Parameter, and of Calibrate Span. -/
def writingParam (id v : Nat) : List Octet := be 2 id ++ be 5 v
def spanning (d kg : Nat) : List Octet := be 1 d ++ be 4 kg

theorem witness_StagedTableIsWrittenAndAdjusted :
    s871.ready .metrology 61 (writingParam 9 40) = true ∧ s871.staged = none ∧
      (open871 0 table871).ready .metrology 61 (writingParam 9 500) = true ∧
      (open871 0 table871).staged = some table871 ∧ isParam (natAt (writingParam 9 500) 0 2) = true ∧
      paramInRange table871 9 500 = true ∧ intAt (writingParam 9 500) 2 5 = 500 ∧ paramInRange table871 9 501 = false ∧
      isParam (natAt (writingParam 0 1) 0 2) = false ∧ isParam (natAt (writingParam 1164 1) 0 2) = false ∧
      s871.ready .metrology 64 [2#8] = true ∧ (open871 38400 table871).ready .metrology 64 [4#8] = true ∧
      natAt [4#8] 0 1 ≤ table871.decks ∧ ¬(1 ≤ natAt [5#8] 0 1 ∧ natAt [5#8] 0 1 ≤ table871.decks) ∧
      ¬(1 ≤ natAt [0#8] 0 1 ∧ natAt [0#8] 0 1 ≤ table871.decks) ∧ (open871 38400 table871).weigh.stable = true ∧
      (show State from { open871 0 table871 with weigh.stable := false }).weigh.stable = false ∧
      (let s : State := { open871 0 table871 with weigh.latest := some (values [{ deck 0 0 with filtered := none }] 0) }
       s.ready .metrology 64 [1#8] = true ∧ s.weigh.stable = true ∧
         s.weigh.latest.map (fun r => (r.decks[1 - 1]?).map (·.filtered)) = some (some none)) ∧
      (open871 2000000000 table871).weigh.latest.map (fun r => r.decks[2 - 1]?.bind (·.filtered)) = some (some 2000000000) ∧
      (open871 2000000001 table871).weigh.latest.map (fun r => r.decks[2 - 1]?.bind (·.filtered)) =
        some (some 2000000001) := by decide +kernel

theorem witness_StagedTableIsWrittenAndAdjusted_span :
    s871.ready .metrology 65 (spanning 2 22600) = true ∧ s871.staged = none ∧
      (open871 22689568 zeroed871).ready .metrology 65 (spanning 2 22600) = true ∧
      (open871 22689568 zeroed871).staged = some zeroed871 ∧ intAt (spanning 2 999999) 1 4 = 999999 ∧
      ¬(intAt (spanning 2 1000000) 1 4 ≤ 999999) ∧ ¬(1 ≤ intAt (spanning 2 0) 1 4) ∧
      (open871 22689568 zeroed871).weigh.stable = true ∧ (0 : Int) < 22689568 - zeroed871.val 201 ∧
      22689568 - zeroed871.val 201 ≤ 2 * (22600 * 1000) ∧ 22600 * 1000 ≤ 2 * (22689568 - zeroed871.val 201) ∧
      2 * (22689568 - zeroed871.val 201) < 50000 * 1000 ∧ (38400 : Int) - zeroed871.val 201 ≤ 0 := by decide +kernel

/-- A table of one deck with more than four cells, and one whose points are out of order. -/
def fiveCells : CalTable := tab [(1010, 1), (1020, 1), (1030, 1), (1040, 1), (1050, 1)]
def outOfOrder : CalTable := tab [(102, 2), (111, 20), (112, 10)]

theorem witness_CommitRaisesTheEpochAndRecordsIt :
    s871.ready .metrology 66 [] = true ∧ s871.staged = none ∧ (open871 0 spanned871).ready .metrology 66 [] = true ∧
      (open871 0 spanned871).staged = some spanned871 ∧ spanned871.decks = 4 ∧
      (∀ d < 5, 1 ≤ d → spanned871.pointsInOrder d = true ∧ (spanned871.cellsOf d).length ≤ 4) ∧
      paramChanges table871 spanned871 ≠ [] ∧ paramChanges table871 table871 = [] ∧
      (open871 0 spanned871).cal.epoch < 999999 ∧ (open871 0 spanned871).holderMayAppend = true ∧
      (open871 0 outOfOrder).ready .metrology 66 [] = true ∧ outOfOrder.pointsInOrder 1 = false ∧ outOfOrder.decks = 1 ∧
      (open871 0 fiveCells).ready .metrology 66 [] = true ∧ fiveCells.pointsInOrder 1 = true ∧
      (fiveCells.cellsOf 1).length = 5 ∧ fiveCells.decks = 1 ∧
      (let s : State := { open871 0 spanned871 with cal.epoch := 999999 }
       s.ready .metrology 66 [] = true ∧ 999999 ≤ s.cal.epoch) ∧
      (let s : State := { open871 0 spanned871 with audit := log872 200 }
       s.ready .metrology 66 [] = true ∧ s.holderMayAppend = false) := by decide +kernel

/-! #### Verification, evidence and faults -/

/-- The payload of Test Point. -/
def testing (target kg : Nat) : List Octet := be 1 target ++ be 4 kg

theorem witness_VerificationRunsBeginTestAndEnd :
    free.ready .metrology 80 [] = true ∧ free.beginRefusal = none ∧ occupied.ready .metrology 80 [] = true ∧
      occupied.beginRefusal = some .bridgeOccupied ∧ (verifying [] none).beginRefusal = some .runActive ∧
      (open871 0 table871).beginRefusal = some .accessOpen ∧ capturing.beginRefusal = some .capturePending ∧
      locked1071.beginRefusal = some .lockout ∧
      (show State from { free with audit := log872 199 }).beginRefusal = some .logFull ∧
      free.ready .metrology 81 (testing 0 1) = true ∧ free.run = none ∧
      (verifying [] none).ready .metrology 81 (testing 1 999999) = true ∧
      natAt (testing 1 999999) 0 1 ≤ (verifying [] none).cal.committed.decks ∧
      ¬(natAt (testing 2 1) 0 1 ≤ (verifying [] none).cal.committed.decks) ∧ intAt (testing 1 999999) 1 4 = 999999 ∧
      ¬(intAt (testing 1 1000000) 1 4 ≤ 999999) ∧ (verifying [] none).weigh.zeroUnset = false ∧
      (verifying [] none).bridge.holds.gatehouse = false ∧ (verifying [] none).bridge.holds.lane = false ∧
      (verifying [] none).bridge.holds.fault = false ∧ (verifying [] none).bridge.holds.supply = false ∧
      (verifying [] (some (bridgePoint 1))).ready .metrology 81 (testing 0 1) = true ∧
      (let s : State := { verifying [] none with bridge.holds.lane := true }
       s.ready .metrology 81 (testing 0 1) = true ∧ s.bridge.holds.lane = true) ∧
      (let s : State := { verifying [] none with weigh.zeroUnset := true }
       s.ready .metrology 81 (testing 0 1) = true ∧ s.weigh.zeroUnset = true) := by decide +kernel

theorem witness_VerificationRunsBeginTestAndEnd_points :
    (verifying (points93 ++ points93 ++ points93 ++ points93) none).ready .metrology 81 (testing 0 1) = true ∧
      12 ≤ ((points93 ++ points93 ++ points93 ++ points93)).length ∧ ((points93 ++ points93 ++ points93 ++ points93).tail).length < 12 ∧
      free.ready .metrology 82 [] = true ∧ (verifying [] (some (bridgePoint 1))).ready .metrology 82 [] = true ∧
      (verifying [] none).ready .metrology 82 [] = true ∧ (verifying points93 none).ready .metrology 82 [] = true ∧
      points93 ≠ [] ∧ (verifying points93 none).holderMayAppend = true ∧
      (let s : State := { verifying points93 none with audit := log872 200 }
       s.ready .metrology 82 [] = true ∧ s.holderMayAppend = false) ∧
      free.ready .metrology 83 [] = true ∧ (verifying points93 none).ready .metrology 83 [] = true ∧
      (verifying points93 none).run ≠ none ∧ free.calm = true ∧
      (verifying [] (some (bridgePoint 60000))).calm = true ∧
      (verifying [] (some (bridgePoint 60000))).run.map (·.waiting) = some (some (bridgePoint 60000)) := by decide +kernel

theorem witness_ArchiveAndEvidenceRequests :
    s871.ready .metrology 70 (be 4 2317) = true ∧ (∃ r ∈ s871.audit.records, r.number = natAt (be 4 2317) 0 4) ∧
      (∀ r ∈ s871.audit.records, r.number ≠ natAt (be 4 2146) 0 4) ∧ free.ready .gatehouse 85 [] = true ∧
      (let s : State := { free with evidence := store [.lockout] }
       s.ready .metrology 88 (be 4 1) = true ∧ (∀ x ∈ s.evidence, x.snapshot.number ≠ natAt (be 4 2) 0 4) ∧
         s.evidence.find? (fun y => y.snapshot.number = natAt (be 4 1) 0 4) = (store [.lockout])[0]? ∧
         s.cal.lockout = none) ∧
      (let s : State := { locked1071 with evidence := store [.lockout] }
       s.ready .metrology 88 (be 4 1) = true ∧ s.cal.lockout ≠ none) := by decide +kernel

theorem witness_ArchiveAndEvidenceRequests_slots :
    let ks : List SnapshotKind := [.lockout, .requested, .overVerdict, .requested, .requested, .requested, .requested,
                                   .requested]
    (∃ x ∈ store ks, x.snapshot.kind = .lockout) ∧ (∀ x ∈ store (ks.drop 1), x.snapshot.kind ≠ .lockout) ∧
      (∀ x ∈ store (ks.drop 1), x.slot ≠ 7) ∧ (∀ j < 7, ∃ x ∈ store (ks.drop 1), x.slot = j) ∧
      (∀ j < 8, ∃ y ∈ store ks, y.slot = j) ∧
      store ks = (store ks).take 1 ++ (store ks).drop 1 ∧ ((store ks)[1]?).map (·.snapshot.kind) = some .requested ∧
      (∀ y ∈ (store ks).take 1, y.snapshot.kind = .lockout) := by decide +kernel

theorem witness_FaultRequests :
    free.ready .gatehouse 90 [4#8, 0#8] = true ∧ faultClassOf (natAt [10#8, 0#8] 0 1) = none ∧
      policyOf (natAt [9#8, 2#8] 1 1) = none ∧ faultClassOf (natAt [3#8, 1#8] 0 1) = some .roundOverrun ∧
      policyOf (natAt [3#8, 1#8] 1 1) = some .continue_ ∧ FaultClass.roundOverrun.metrological = true ∧
      faultClassOf (natAt [4#8, 0#8] 0 1) = some .treadleDisagree ∧ FaultClass.treadleDisagree.metrological = false ∧
      free.ready .metrology 91 [] = true ∧ free.cal.flag = none ∧ locked1071.ready .metrology 91 [] = true ∧
      locked1071.cal.flag = some { key := cellKey .cellSilent 6, time := .epochStart } ∧
      free.ready .gatehouse 92 [4#8, 1#8] = true ∧
      namedInstances .treadleDisagree (natAt [4#8, 1#8] 1 1) = some [treadleKey .b] ∧
      namedInstances .treadleDisagree (natAt [4#8, 255#8] 1 1) = some [treadleKey .a, treadleKey .b] ∧
      (free.faultEntry (treadleKey .b)).outstanding = false ∧ namedInstances .treadleDisagree 2 = none ∧
      treadleKey .a ∉ [treadleKey .b] ∧ (treadleKey .a).cls = .treadleDisagree ∧ (treadleKey .a).inst < 32 ∧
      faultClassOf (natAt [0#8, 1#8] 0 1) = some .cellSilent ∧ FaultClass.cellSilent.metrological = true := by decide +kernel

/-- An unacknowledged disagreement at treadle B. -/
def disagreed : State :=
  { free with
    bridge.holds.fault := true
    faults.register := Table.set [] (treadleKey .b).place
      { key := treadleKey .b, present := false, outstanding := true, count := 1, raisedAt := some .epochStart } }

theorem witness_FaultRequests_lockout :
    disagreed.ready .gatehouse 92 [4#8, 1#8] = true ∧ (disagreed.faultEntry (treadleKey .b)).outstanding = true ∧
      free.ready .metrology 93 [] = true ∧ free.cal.lockout = none ∧ locked1071.ready .metrology 93 [] = true ∧
      locked1071.cal.lockout = some .secondFault ∧ locked1071.metrologicalPresent = true ∧ locked1071.cal.flag ≠ none ∧
      (let s : State := { locked1071 with cal.flag := none, faults.register := [] }
       s.ready .metrology 93 [] = true ∧ s.metrologicalPresent = false ∧ s.cal.flag = none ∧ s.staged = none ∧
         s.lockoutMayAppend = true) ∧
      (let s : State := { locked1071 with cal.flag := none, faults.register := [], audit := log872 200 }
       s.ready .metrology 93 [] = true ∧ s.metrologicalPresent = false ∧ s.lockoutMayAppend = false) := by decide +kernel

theorem witness_MetrologicalRaiseEscalates :
    (cellKey .cellSilent 1).cls.metrological = true ∧ (cellKey .cellFault 16).cls.metrological = true ∧
      (treadleKey .b).place ≠ (cellKey .cellSilent 1).place ∧ (verifying [] none).run ≠ none ∧ free.run = none ∧
      locked1071.run = none ∧ locked1071.cal.lockout ≠ none ∧ flagged.run = none ∧ flagged.cal.lockout = none ∧
      flagged.cal.flag = some { key := cellKey .cellSilent 6, time := .epochStart } ∧ free.cal.lockout = none ∧
      free.cal.flag = none := by decide +kernel

/-! #### The whole machine -/

/-- A state about to take the arrival of 4.2, and one about to take a start. -/
def queuedArrival : State := { withVisit with pending := [.reportArrival .lane 1#8 arrivalA] }
def queuedStart : State := { State.reset with pending := [.startSequence noneLost] }

/-- The state a step leaves. -/
def after (s : State) : State := nxt (step s)

/-- An outcome that goes on is the next state it leaves. -/
theorem nxt_of_goesOn (o : Host.Outcome State Fault Refusal)
    (h : (match o with | .next _ => true | _ => false) = true) : o = .next (nxt o) := by
  cases o <;> simp_all [nxt]

theorem queuedArrival_step : step queuedArrival = .next (after queuedArrival) :=
  nxt_of_goesOn _ (by decide +kernel)
theorem queuedStart_step : step queuedStart = .next (after queuedStart) :=
  nxt_of_goesOn _ (by decide +kernel)

theorem witness_EveryStepLeavesTheBridgeSettled :
    (queuedArrival.running = true ∧ queuedArrival.settled = true ∧ queuedArrival.commitNote = none ∧
      step queuedArrival = .next (after queuedArrival) ∧ (after queuedArrival).running = true) ∧
    (queuedStart.running = false ∧ step queuedStart = .next (after queuedStart) ∧
      (after queuedStart).running = true) :=
  ⟨⟨by decide +kernel, by decide +kernel, by decide +kernel, queuedArrival_step, by decide +kernel⟩,
    by decide +kernel, queuedStart_step, by decide +kernel⟩

theorem witness_EveryStepKeepsTheBridgeConsistent :
    queuedArrival.bridgeConsistent = true ∧ step queuedArrival = .next (after queuedArrival) ∧
      (after queuedArrival).bridge.state = .granted :=
  ⟨by decide +kernel, queuedArrival_step, by decide +kernel⟩

theorem witness_EveryStepKeepsStoresAndPortsBounded :
    queuedArrival.storesBounded = true ∧ queuedArrival.tablesSorted = true ∧
      queuedArrival.ports.bounded = true ∧ step queuedArrival = .next (after queuedArrival) :=
  ⟨by decide +kernel, by decide +kernel, by decide +kernel, queuedArrival_step⟩

/-- `free` with the two oldest tickets of the ring of 7.3 (07), the sequence just after the second. -/
def rung : State :=
  let ring := ring762.take 2
  let k : TicketKey := (ring.getLast?.map (·.key)).getD .greatest
  { free with tickets.ring := ring, cal.series := k.series, cal.nextNumber := k.number + 1, cal.lastKey := some k }

/-- A ring of tickets meets the invariant of the keys, below the next key or with the sequence EXHAUSTED; a roll moves
the sequence on, and a start that finds CALIBRATION good leaves it. -/
theorem witness_EveryStepKeepsStoresAndPortsBounded_keys :
    let s : State := { rung with pending := [.rollTicketSeries .metrology 1#8 []] }
    let x : State := { rung with cal.series := 99, cal.exhausted := true }
    s.keysRise = true ∧ x.keysRise = true ∧ x.cal.exhausted = true ∧ queuedArrival.keysRise = true ∧
      queuedStart.keysRise = true ∧ queuedStart.pending.head? = some (.startSequence noneLost) ∧
      noneLost.calibration = false ∧ s.pending.head? = some (.rollTicketSeries .metrology 1#8 []) ∧
      (after s).cal.series = s.cal.series + 1 ∧ (after s).keysRise = true ∧
      (show State from { rung with cal.nextNumber := 1 }).keysRise = false := by decide +kernel

/-- A calibration session whose commit is accepted, a verification complete, a Lockout clear of its cause. -/
def calReady : State := open871 22689568 spanned871
def verReady : State := { verifying (points93.take 2) none with cal.notVerified := true }
def lockReady : State := { locked1071 with cal.flag := none, faults.register := [] }

/-- The other direction of the marks, and the starts: a commit and a failed run set NOT_VERIFIED, a withdrawn switch
enters lockout, a start that lost CALIBRATION changes the epoch and the code of a lockout, and one that lost AUDIT sets
NOT_VERIFIED. -/
theorem witness_MetrologicalMarksChangeOnlyWithTheirRecords_set :
    let verified (s : State) : State := { s with cal.notVerified := false }
    let lost (cal audit : Bool) : LostRegions := { noneLost with calibration := cal, audit := audit }
    let started (s : State) (l : LostRegions) : State :=
      nxt (exec (.startSequence l) { s with phase := .starting .powerOn, supplyGood := true })
    let epoch5 : State := { free with cal.epoch := 5, cal.lockout := some .secondFault }
    (nxt (exec (.commitCalibration .metrology 1#8 []) (verified calReady))).cal.notVerified = true ∧
      (nxt (exec (.endVerification .metrology 1#8 []) (verified (verifying points93 none)))).cal.notVerified = true ∧
      (verified (verifying points93 none)).run ≠ none ∧
      (open871 0 spanned871).cal.lockout = none ∧
      (nxt (exec (.calibrationSwitchChange false) (open871 0 spanned871))).cal.lockout =
        some .calAccessInterrupted ∧
      (started epoch5 (lost true false)).cal.epoch ≠ epoch5.cal.epoch ∧
      (started epoch5 (lost true false)).cal.lockout = some .calibrationLost ∧
      (started (verified free) (lost false true)).cal.notVerified = true := by decide +kernel

theorem witness_MetrologicalMarksChangeOnlyWithTheirRecords :
    (∃ t, exec (.commitCalibration .metrology 1#8 []) calReady = .next t ∧ t.cal.epoch ≠ calReady.cal.epoch) ∧
    (∃ t, exec (.endVerification .metrology 1#8 []) verReady = .next t ∧
      verReady.cal.notVerified = true ∧ t.cal.notVerified = false) ∧
    (∃ t, exec (.clearLockout .metrology 1#8 []) lockReady = .next t ∧
      lockReady.cal.lockout = some .secondFault ∧ t.cal.lockout = none) :=
  ⟨⟨_, nxt_of_goesOn _ (by decide +kernel), by decide +kernel⟩, ⟨_, nxt_of_goesOn _ (by decide +kernel), by decide +kernel⟩,
    ⟨_, nxt_of_goesOn _ (by decide +kernel), by decide +kernel⟩⟩

/-- R32, R203: a last poll whose judgement raises CELL_SILENT, of an address in no deck, and whose round shows the vehicle
gone begins two writes, one for each event. -/
theorem test_each_event_begins_its_write :
    let s : State := ending { released with axles.entered := 2, axles.exited := 2 } 0
    let online : CellRecord := { CellRecord.absent with configured := true, condition := some .online, lastCount := some 0 }
    let t := run { s with bus := { s.bus with poll := .window 3 [], records := [(1, online), (3, { online with miss := 2 })] } }
      [.replyWindowClose]
    t.writes.map (·.regions) = [[.calibration], [.visits]] ∧ t.bridge.state = .free ∧ t.cal.flag ≠ none := by
  decide +kernel

theorem witness_RecordsStandAndChangesAreWritten :
    free.commitNote = none ∧
    (∃ t, exec (.restart .metrology 1#8 []) free = .next t ∧ t.audit.records.length = 1 ∧
      changedRegions free t = [.audit]) ∧
    (∃ t, exec .pollSent free = .next t ∧ changedRegions free t = []) :=
  ⟨by decide +kernel, ⟨_, nxt_of_goesOn _ (by decide +kernel), by decide +kernel⟩, ⟨_, nxt_of_goesOn _ (by decide +kernel), by decide +kernel⟩⟩

end Sys2Proof.Tests
end

