-- ==== Sys2Proof/Proofs/Bounds.lean ====
section
/-! What every step keeps (the bounds and the order of the numbered stores, the rise of the ticket keys, the bounds of
the ports), as one relation between a state and the state that an operation makes of it. The relation is transitive,
so each operation of the model needs it once. -/

namespace Sys2Proof.Machine

/-! ### Numbered tables -/

/-- The canonical form is a strict rise of the keys. -/
theorem Table.sortedFrom_iff {α : Type} (t : Table α) (low : Option Nat) :
    Table.sortedFrom low t = true ↔
      (∀ l, low = some l → ∀ e ∈ t, l < e.1) ∧ (t.map Prod.fst).Pairwise (· < ·) := by
  induction t generalizing low with
  | nil => simp [Table.sortedFrom]
  | cons e rest ih =>
    obtain ⟨j, b⟩ := e
    rw [Table.sortedFrom_cons, ih]
    simp only [List.map_cons, List.pairwise_cons, List.mem_map, List.mem_cons, Option.some.injEq, forall_eq',
      forall_exists_index, and_imp, forall_apply_eq_imp_iff₂, forall_eq_or_imp]
    constructor
    · rintro ⟨h1, h2, h3⟩
      exact ⟨fun l hl => ⟨h1 l hl, fun e he => Nat.lt_trans (h1 l hl) (h2 e he)⟩, h2, h3⟩
    · rintro ⟨h1, h2, h3⟩
      exact ⟨fun l hl => (h1 l hl).1, h2, h3⟩

theorem Table.sorted_iff {α : Type} (t : Table α) :
    Table.sorted t = true ↔ (t.map Prod.fst).Pairwise (· < ·) := by
  simp [Table.sorted, Table.sortedFrom_iff]

theorem Table.sorted_filter {α : Type} (t : Table α) (p : Nat × α → Bool) (h : Table.sorted t = true) :
    Table.sorted (t.filter p) = true := by
  rw [Table.sorted_iff] at h ⊢
  exact h.sublist (List.filter_sublist.map _)

/-- An entry that is not set or erased was listed before. -/
theorem Table.mem_of_mem_erase {α : Type} {t : Table α} {k : Nat} {e : Nat × α} (h : e ∈ Table.erase t k) : e ∈ t := by
  induction t with
  | nil => exact h
  | cons f rest ih =>
    obtain ⟨j, b⟩ := f
    unfold Table.erase at h
    split at h
    · exact List.mem_cons_of_mem _ (ih h)
    · rcases List.mem_cons.1 h with h | h
      · exact h ▸ List.mem_cons_self
      · exact List.mem_cons_of_mem _ (ih h)

/-- A change of a numbered table keeps its canonical form and a bound of its numbers. -/
structure TableKept {α : Type} (bound : Nat) (t u : Table α) : Prop where
  sorted : Table.sorted t = true → Table.sorted u = true
  below : (∀ e ∈ t, e.1 < bound) → ∀ e ∈ u, e.1 < bound

namespace TableKept
variable {α : Type} {bound : Nat}

theorem refl (t : Table α) : TableKept bound t t := ⟨id, id⟩

theorem trans {t u v : Table α} (h : TableKept bound t u) (k : TableKept bound u v) : TableKept bound t v :=
  ⟨k.sorted ∘ h.sorted, k.below ∘ h.below⟩

theorem nil (t : Table α) : TableKept bound t [] := ⟨fun _ => rfl, fun _ _ h => nomatch h⟩

/-- Setting an entry at a number below the bound, or wherever that follows from the bound. -/
theorem set {t : Table α} {k : Nat} (a : α) (hk : (∀ e ∈ t, e.1 < bound) → k < bound) :
    TableKept bound t (Table.set t k a) :=
  ⟨Table.sorted_set t k a, fun h e he => by
    rcases Table.mem_set he with rfl | he
    · exact hk h
    · exact h e he⟩

/-- Setting an entry that is listed. -/
theorem set_listed {t : Table α} {k : Nat} (a : α) {b : α} (hk : (k, b) ∈ t) : TableKept bound t (Table.set t k a) :=
  set a (fun h => h _ hk)

theorem erase (t : Table α) (k : Nat) : TableKept bound t (Table.erase t k) :=
  ⟨Table.sorted_erase t k, fun h e he => h e (Table.mem_of_mem_erase he)⟩

theorem filter (t : Table α) (p : Nat × α → Bool) : TableKept bound t (t.filter p) :=
  ⟨Table.sorted_filter t p, fun h e he => h e (List.mem_filter.1 he).1⟩

/-- Changing entries without their numbers. -/
theorem map (t : Table α) {f : Nat × α → Nat × α} (hf : ∀ e, (f e).1 = e.1) : TableKept bound t (t.map f) := by
  have hm : (t.map f).map Prod.fst = t.map Prod.fst := by simp [Function.comp_def, hf]
  refine ⟨fun h => ?_, fun h e he => ?_⟩
  · rw [Table.sorted_iff] at h ⊢
    rwa [hm]
  · obtain ⟨e', he', rfl⟩ := List.mem_map.1 he
    exact (hf e').symm ▸ h e' he'

end TableKept

/-! ### The other stores -/

/-- R176: the slots of the Evidence Store. -/
def evidenceOk (ev : List EvidenceSlot) : Prop := (∀ x ∈ ev, x.slot < 8) ∧ (ev.map (·.slot)).Nodup

/-- R60: both approach queues. -/
def queuesOk (qs : List QueueEntry) : Prop := ∀ e, (qs.map (·.entryEnd)).count e ≤ 8

/-- R165: the points of a run, a waiting one counted. -/
def runOk (run : Option Run) : Prop :=
  ∀ r, run = some r → r.points.length + (if r.waiting.isSome then 1 else 0) ≤ 12

theorem runOk_none : runOk none := nofun

theorem State.queueLength_eq (s : State) (e : BridgeEnd) :
    s.queueLength e = (s.bridge.waiting.map (·.entryEnd)).count e := by
  rw [List.count, List.countP_map, List.countP_eq_length_filter]
  rfl

/-- Fewer entries wait. -/
theorem queuesOk_of_sublist {qs rs : List QueueEntry} (h : rs.Sublist qs) (k : queuesOk qs) : queuesOk rs :=
  fun e => Nat.le_trans ((h.map _).count_le e) (k e)

/-- The entries waiting change, their ends do not. -/
theorem queuesOk_of_ends {qs rs : List QueueEntry} (h : rs.map (·.entryEnd) = qs.map (·.entryEnd)) (k : queuesOk qs) :
    queuesOk rs := by
  unfold queuesOk
  rwa [h]

theorem chooseEvidenceSlot_lt {ev : List EvidenceSlot} (h : ∀ x ∈ ev, x.slot < 8) (kind : SnapshotKind) :
    chooseEvidenceSlot ev kind < 8 := by
  have hfind : ∀ (p : EvidenceSlot → Bool) (i : Nat), (ev.find? p).map (·.slot) = some i → i < 8 := by
    intro p i hi
    obtain ⟨x, hx, rfl⟩ := Option.map_eq_some_iff.1 hi
    exact h x (List.mem_of_find?_eq_some hx)
  unfold chooseEvidenceSlot
  simp only []
  split
  · rename_i i hi
    split at hi
    · exact hfind _ i hi
    · cases hi
  · split
    · rename_i i hi
      have := List.mem_of_find?_eq_some hi
      simp only [List.mem_cons, List.not_mem_nil, or_false] at this
      omega
    · cases ho : oldestReplaceable ev with
      | none => exact Nat.zero_lt_succ _
      | some i => exact hfind _ i ho

/-- R176: a snapshot takes its slot alone, and a slot of the eight. -/
theorem evidenceOk_store {ev : List EvidenceSlot} (h : evidenceOk ev) (kind : SnapshotKind) (x : Snapshot) :
    evidenceOk (ev.filter (fun y => y.slot ≠ chooseEvidenceSlot ev kind) ++
      [{ slot := chooseEvidenceSlot ev kind, snapshot := x }]) := by
  constructor
  · intro y hy
    rcases List.mem_append.1 hy with hy | hy
    · exact h.1 y (List.mem_filter.1 hy).1
    · obtain rfl := List.mem_singleton.1 hy
      exact chooseEvidenceSlot_lt h.1 kind
  · rw [List.map_append, List.nodup_append]
    refine ⟨h.2.sublist (List.filter_sublist.map _), by simp, ?_⟩
    intro a ha b hb
    obtain ⟨y, hy, rfl⟩ := List.mem_map.1 ha
    obtain rfl : b = chooseEvidenceSlot ev kind := by simpa using hb
    simpa using (List.mem_filter.1 hy).2

theorem evidenceOk_filter {ev : List EvidenceSlot} (p : EvidenceSlot → Bool) (h : evidenceOk ev) :
    evidenceOk (ev.filter p) :=
  ⟨fun x hx => h.1 x (List.mem_filter.1 hx).1, h.2.sublist (List.filter_sublist.map _)⟩

theorem lastN_length_le {α : Type} (n : Nat) (l : List α) : (lastN n l).length ≤ n := by
  simp only [lastN, List.length_drop]
  omega

/-! ### Ticket keys -/

/-- R133, R134: the sequence goes on from one state to another: the keys rise still, the next key does not fall, an
exhausted sequence stays exhausted, and a ticket that is new carries a key not used before. -/
def KeysGoOn (s t : State) : Prop :=
  t.keysRise = true ∧ s.nextKey.le t.nextKey = true ∧ (s.cal.exhausted = true → t.cal.exhausted = true) ∧
    ∀ x ∈ t.tickets.ring, x ∈ s.tickets.ring ∨ (s.cal.exhausted = false ∧ s.nextKey.le x.key = true)

theorem KeysGoOn.rise {s t : State} (h : KeysGoOn s t) : t.keysRise = true := h.1

theorem TicketKey.le_refl (a : TicketKey) : a.le a = true := by simp [TicketKey.le_iff]

theorem TicketKey.le_trans {a b c : TicketKey} (h : a.le b = true) (k : b.le c = true) : a.le c = true := by
  rw [TicketKey.le_iff] at *
  omega

/-- A change that leaves the ring and the sequence. -/
theorem KeysGoOn.of_same {s t : State} (h1 : t.tickets.ring = s.tickets.ring) (h2 : t.cal.series = s.cal.series)
    (h3 : t.cal.nextNumber = s.cal.nextNumber) (h4 : t.cal.exhausted = s.cal.exhausted)
    (h5 : t.cal.lastKey = s.cal.lastKey) (hs : s.keysRise = true) : KeysGoOn s t :=
  ⟨(State.keysRise_congr h1 h2 h3 h4 h5).trans hs, by simp [State.nextKey, h2, h3, TicketKey.le_refl], h4.trans,
    fun _ hx => .inl (h1 ▸ hx)⟩

theorem KeysGoOn.trans {s t u : State} (h : KeysGoOn s t) (k : KeysGoOn t u) : KeysGoOn s u := by
  obtain ⟨-, hn, hx, hr⟩ := h
  obtain ⟨ku, kn, kx, kr⟩ := k
  refine ⟨ku, TicketKey.le_trans hn kn, kx ∘ hx, fun x hxr => ?_⟩
  rcases kr x hxr with hxt | ⟨he, hk⟩
  · exact hr x hxt
  · refine .inr ⟨?_, TicketKey.le_trans hn hk⟩
    cases hs : s.cal.exhausted with
    | false => rfl
    | true => exact absurd (hx hs) (by simp [he])

/-! ### Ports -/

/-- An operation of a block leaves the replies pending on every port and the bound of its notices. -/
structure PortKept (q r : PortState) : Prop where
  replies : r.replies = q.replies
  notices : q.notices.length ≤ 16 → r.notices.length ≤ 16

theorem PortKept.refl (q : PortState) : PortKept q q := ⟨rfl, id⟩

theorem PortKept.trans {q r u : PortState} (h : PortKept q r) (k : PortKept r u) : PortKept q u :=
  ⟨k.replies.trans h.replies, k.notices ∘ h.notices⟩

/-! ### The relation -/

/-- The stores of a state stay within their bounds, the numbered tables in their canonical form. -/
structure Held (s t : State) : Prop where
  audit : s.audit.records.length ≤ 200 → t.audit.records.length ≤ 200
  ring : s.tickets.ring.length ≤ 64 → t.tickets.ring.length ≤ 64
  evidence : evidenceOk s.evidence → evidenceOk t.evidence
  overruns : s.bus.overruns ≤ 3 → t.bus.overruns ≤ 3
  histories : (∀ e ∈ s.weigh.histories, e.2.length ≤ 16) → ∀ e ∈ t.weigh.histories, e.2.length ≤ 16
  window : s.weigh.window.length ≤ 32 → t.weigh.window.length ≤ 32
  samples : s.axles.trace.samples.length ≤ 512 → t.axles.trace.samples.length ≤ 512
  events : s.axles.trace.events.length ≤ 4 → t.axles.trace.events.length ≤ 4
  queues : queuesOk s.bridge.waiting → queuesOk t.bridge.waiting
  visits : TableKept 256 s.visits t.visits
  slots : TableKept 96 s.tares.slots t.tares.slots
  pointer : s.tares.pointer < 96 → t.tares.pointer < 96
  run : runOk s.run → runOk t.run
  catalogue : Table.sorted s.site.catalogue = true → Table.sorted t.site.catalogue = true
  register : Table.sorted s.faults.register = true → Table.sorted t.faults.register = true
  records : Table.sorted s.bus.records = true → Table.sorted t.bus.records = true

/-- What every operation of a block keeps: the stores, the sequence of ticket keys, the replies and the notices of the
ports. -/
structure Kept (s t : State) : Prop extends Held s t where
  keys : s.keysRise = true → KeysGoOn s t
  ports : ∀ p, PortKept (s.port p) (t.port p)

/-- What every command keeps: as an operation, but a reply may come or go. -/
structure Stepped (s t : State) : Prop extends Held s t where
  keys : s.keysRise = true → KeysGoOn s t
  ports : s.ports.bounded = true → t.ports.bounded = true

theorem Held.trans {s t u : State} (h : Held s t) (k : Held t u) : Held s u where
  audit := k.audit ∘ h.audit
  ring := k.ring ∘ h.ring
  evidence := k.evidence ∘ h.evidence
  overruns := k.overruns ∘ h.overruns
  histories := k.histories ∘ h.histories
  window := k.window ∘ h.window
  samples := k.samples ∘ h.samples
  events := k.events ∘ h.events
  queues := k.queues ∘ h.queues
  visits := h.visits.trans k.visits
  slots := h.slots.trans k.slots
  pointer := k.pointer ∘ h.pointer
  run := k.run ∘ h.run
  catalogue := k.catalogue ∘ h.catalogue
  register := k.register ∘ h.register
  records := k.records ∘ h.records

theorem Kept.refl (s : State) : Kept s s :=
  { audit := id, ring := id, evidence := id, overruns := id, histories := id, window := id, samples := id, events := id,
    queues := id, visits := TableKept.refl _, slots := TableKept.refl _, pointer := id, run := id, catalogue := id,
    register := id, records := id, keys := KeysGoOn.of_same rfl rfl rfl rfl rfl, ports := fun _ => PortKept.refl _ }

theorem Kept.trans {s t u : State} (h : Kept s t) (k : Kept t u) : Kept s u where
  toHeld := h.toHeld.trans k.toHeld
  keys hs := (h.keys hs).trans (k.keys (h.keys hs).rise)
  ports p := (h.ports p).trans (k.ports p)

/-- An operation after another, named before the one it comes after. -/
theorem Kept.after {s t u : State} (k : Kept t u) (h : Kept s t) : Kept s u := h.trans k

theorem Stepped.trans {s t u : State} (h : Stepped s t) (k : Stepped t u) : Stepped s u where
  toHeld := h.toHeld.trans k.toHeld
  keys hs := (h.keys hs).trans (k.keys (h.keys hs).rise)
  ports := k.ports ∘ h.ports

theorem State.ports_bounded_iff (s : State) : s.ports.bounded = true ↔ ∀ p, (s.port p).bounded = true := by
  simp only [Ports.bounded, Bool.and_eq_true]
  constructor
  · rintro ⟨⟨hg, hl⟩, hm⟩ (_ | _ | _)
    · exact hg
    · exact hl
    · exact hm
  · exact fun h => ⟨⟨h .gatehouse, h .lane⟩, h .metrology⟩

theorem PortKept.bounded {q r : PortState} (h : PortKept q r) (hq : q.bounded = true) : r.bounded = true := by
  simp only [PortState.bounded, Bool.and_eq_true, decide_eq_true_eq, h.replies] at hq ⊢
  exact ⟨h.notices hq.1, hq.2⟩

/-- A command that is an operation of a block. -/
theorem Kept.stepped {s t : State} (h : Kept s t) : Stepped s t where
  toHeld := h.toHeld
  keys := h.keys
  ports := by
    simp only [State.ports_bounded_iff]
    exact fun hb p => (h.ports p).bounded (hb p)

/-- What every step of a fold keeps, the fold keeps. -/
theorem Kept.foldl {β : Type} {f : State → β → State} (h : ∀ a b, Kept a (f a b)) (l : List β) (s : State) :
    Kept s (l.foldl f s) := by
  induction l generalizing s with
  | nil => exact Kept.refl s
  | cons b rest ih => exact (h s b).trans (ih _)

/-- Two ways on, by a condition. -/
theorem Kept.ite {c : Prop} [Decidable c] {s t u : State} (ht : Kept s t) (hu : Kept s u) :
    Kept s (if c then t else u) := by
  split
  · exact ht
  · exact hu

end Sys2Proof.Machine
end

