-- ==== Sys2Proof/Proofs/BoundsShared.lean ====
section
/-! What the operations that every block shares keep: notices, records, snapshots, faults, the bridge, and the end of an
event. -/

namespace Sys2Proof.Machine

/-! ### Notices and records -/

theorem State.kept_post (s : State) (p : Port) (n : Notice) : Kept s (s.post p n) := { Kept.refl _ with }

theorem State.kept_postAll (s : State) (ps : List Port) (n : Notice) : Kept s (s.postAll ps n) :=
  Kept.foldl (fun t p => t.kept_post p n) ps s

theorem State.kept_postCopy (s : State) (n : Notice) : Kept s (s.postCopy n) :=
  Kept.ite (s.kept_post _ _) (Kept.refl s)

theorem State.kept_noteNearFull (s : State) : Kept s s.noteNearFull :=
  Kept.ite (s.kept_post _ _) (Kept.refl s)

/-- R159: a record is appended where a slot is free. -/
theorem State.kept_appendAudit (s : State) (before after : Nat) (body : AuditBody) (h : 1 ≤ s.auditFree) :
    Kept s (s.appendAudit before after body) :=
  { Kept.refl s with
    audit := fun _ => by
      simp only [State.appendAudit, List.length_append, List.length_singleton]
      simp only [State.auditFree] at h
      omega }

theorem State.kept_appendAtEpoch (s : State) (body : AuditBody) (h : 1 ≤ s.auditFree) :
    Kept s (s.appendAtEpoch body) := s.kept_appendAudit _ _ _ h

/-- R159: headroom, and each claim that is met, leaves a free slot. -/
theorem State.auditFree_of_hasHeadroom {s : State} (h : s.hasHeadroom = true) : 1 ≤ s.auditFree := by
  simp only [State.hasHeadroom, Bool.and_eq_true, decide_eq_true_eq] at h
  obtain ⟨-, h⟩ := h
  unfold State.headroom at h
  split at h <;> omega

theorem State.auditFree_of_holderMayAppend {s : State} (h : s.holderMayAppend = true) : 1 ≤ s.auditFree := by
  simp only [State.holderMayAppend, Bool.and_eq_true, State.holderClaimMet, decide_eq_true_eq] at h
  split at h <;> omega

theorem State.auditFree_of_lockoutMayAppend {s : State} (h : s.lockoutMayAppend = true) : 1 ≤ s.auditFree := by
  simp only [State.lockoutMayAppend, Bool.and_eq_true, State.lockoutClaimMet, decide_eq_true_eq] at h
  exact h.2

theorem State.kept_takeSnapshot (s : State) (kind : SnapshotKind) (draft : Option Nat) :
    Kept s (s.takeSnapshot kind draft) :=
  { Kept.refl s with
    evidence := fun h => evidenceOk_store h kind _ }

/-! ### Faults -/

theorem State.kept_setFaultEntry (s : State) (k : FaultKey) (f : FaultEntry) : Kept s (s.setFaultEntry k f) :=
  { Kept.refl s with
    register := Table.sorted_set _ _ _ }

theorem State.kept_clearFault (s : State) (k : FaultKey) : Kept s (s.clearFault k) :=
  Kept.ite (s.kept_setFaultEntry _ _) (Kept.refl s)

theorem State.kept_endPoint (s : State) (code : Status) : Kept s (s.endPoint code) := by
  unfold State.endPoint
  split
  · exact Kept.refl s
  · rename_i r hr
    split
    · exact Kept.refl s
    · refine Kept.after (State.kept_post _ _ _) { Kept.refl _ with run := fun h => ?_ }
      rintro r' ⟨⟩
      exact Nat.le_trans (Nat.le_add_right _ _) (h r hr)

theorem State.kept_setFlag (s : State) (k : FaultKey) : Kept s (s.setFlag k) :=
  Kept.ite (Kept.refl s) { Kept.refl _ with }

theorem State.kept_enterLockout (s : State) (code : LockCode) : Kept s (s.enterLockout code) := by
  unfold State.enterLockout
  split
  · exact Kept.refl s
  · exact Kept.after (State.kept_postAll _ _ _) (Kept.after (State.kept_takeSnapshot _ _ _) { Kept.refl _ with })

theorem State.kept_escalate (s : State) (k : FaultKey) : Kept s (s.escalate k).1 := by
  unfold State.escalate
  split
  · have h : Kept s { s.endPoint .fault with run := none } :=
      (s.kept_endPoint _).trans { Kept.refl _ with run := fun _ => runOk_none }
    simp only []
    split
    · exact h.trans (State.kept_setFlag _ _)
    · exact (h.trans (State.kept_setFlag _ _)).trans (State.kept_enterLockout _ _)
  · split
    · exact s.kept_setFlag k
    · split
      · exact s.kept_enterLockout _
      · exact s.kept_setFlag k

theorem State.kept_raiseFault (s : State) (k : FaultKey) (detail : Option DisagreeDetail) :
    Kept s (s.raiseFault k detail) := by
  unfold State.raiseFault
  simp only []
  refine Kept.trans ?_ (State.kept_postAll _ _ _)
  split
  · exact (s.kept_setFaultEntry _ _).trans (State.kept_escalate _ _)
  · exact s.kept_setFaultEntry _ _

theorem State.kept_reportFault (s : State) (k : FaultKey) (present : Bool) : Kept s (s.reportFault k present) :=
  Kept.ite (Kept.ite (Kept.refl s) (s.kept_raiseFault k none)) (s.kept_clearFault k)

/-! ### Captures and the bridge -/

theorem State.kept_endCapture (s : State) (c : Capture) (outcome : Status) (round : Option Nat)
    (accepted : Option AcceptedCapture) : Kept s (s.endCapture c outcome round accepted) := { Kept.refl _ with }

theorem State.kept_refuseWaiting (s : State) (code : Status) (round : Option Nat) :
    Kept s (s.refuseWaiting code round) := by
  unfold State.refuseWaiting
  split
  · exact Kept.refl s
  · exact s.kept_endCapture _ _ _ _

theorem State.kept_leaveOccupied (s : State) : Kept s s.leaveOccupied :=
  (s.kept_refuseWaiting .noVehicle none).trans { Kept.refl _ with }

theorem State.kept_moveBridge (s : State) (b : BridgeState) : Kept s (s.moveBridge b) :=
  (Kept.ite s.kept_leaveOccupied (Kept.refl s)).trans { Kept.refl _ with }

/-- The visit at a position replaced, where one is there. -/
theorem State.kept_setVisit (s : State) {p : Nat} {v : Visit} (w : Visit) (h : Table.get? s.visits p = some v) :
    Kept s { s with visits := Table.set s.visits p w } :=
  { Kept.refl s with
    visits := TableKept.set_listed w (Table.mem_of_get? h) }

theorem State.kept_endVisitUse (s : State) (left : Bool) : Kept s (s.endVisitUse left) := by
  have h : Kept s { s with inUse := none, axles.axleCount := false } := { Kept.refl _ with }
  unfold State.endVisitUse
  simp only []
  split
  · exact h
  · split
    · exact h
    · rename_i v hv
      have hu := h.trans (State.kept_setVisit _ v.returned hv)
      split
      · exact hu.trans (State.kept_postAll _ _ _)
      · exact hu

theorem State.kept_zeroCounts (s : State) : Kept s s.zeroCounts := { Kept.refl _ with }

theorem State.kept_vehicleLeft (s : State) : Kept s s.vehicleLeft :=
  (((s.kept_moveBridge _).trans (State.kept_endVisitUse _ _)).trans (State.kept_zeroCounts _)).trans { Kept.refl _ with }

theorem State.kept_unknownEnds (s : State) : Kept s s.unknownEnds := { Kept.refl _ with }

theorem State.kept_withdrawGrant (s : State) : Kept s s.withdrawGrant :=
  (s.kept_endVisitUse false).trans { Kept.refl _ with }

/-- The visit found for an ident stands at a position of the table. -/
theorem mem_of_findVisit {vs : Table Visit} {id : Ident} {p : Nat} {v : Visit} (h : findVisit vs id = some (p, v)) :
    (p, v) ∈ vs := List.mem_of_find?_eq_some h

theorem State.kept_takeGrant (s : State) (id : Ident) : Kept s (s.takeGrant id) := by
  unfold State.takeGrant
  split
  · exact Kept.refl s
  · rename_i hv
    exact { Kept.refl _ with visits := TableKept.set_listed _ (mem_of_findVisit hv) }

/-- R65: promotion leaves the ends of the entries. -/
theorem promoted_ends (qs : List QueueEntry) : (qs.map QueueEntry.promoted).map (·.entryEnd) = qs.map (·.entryEnd) := by
  have h : ∀ q : QueueEntry, q.promoted.entryEnd = q.entryEnd := by
    intro q
    unfold QueueEntry.promoted
    split <;> rfl
  simp [Function.comp_def, h]

theorem Axles.atGrant_events (a : Axles) (h : a.trace.events.length ≤ 4) : a.atGrant.trace.events.length ≤ 4 := by
  unfold Axles.atGrant
  simp only []
  split
  · exact Nat.zero_le _
  · exact h

theorem Axles.atGrant_samples (a : Axles) (h : a.trace.samples.length ≤ 512) :
    a.atGrant.trace.samples.length ≤ 512 := by
  unfold Axles.atGrant
  simp only []
  split
  · exact Nat.zero_le _
  · exact h

theorem State.kept_grantTo (s : State) (q : QueueEntry) : Kept s (s.grantTo q) := by
  refine (Kept.trans ?_ (State.kept_takeGrant _ q.ident)).trans (State.kept_postAll _ _ _)
  exact
    { Kept.refl s with
      queues := fun h => queuesOk_of_ends (promoted_ends _) (queuesOk_of_sublist List.filter_sublist h)
      samples := s.axles.atGrant_samples
      events := s.axles.atGrant_events }

theorem State.kept_grantIfDue (s : State) : Kept s s.grantIfDue := by
  unfold State.grantIfDue
  split
  · split
    · exact Kept.refl s
    · exact s.kept_grantTo _
  · exact Kept.refl s

theorem State.kept_setFeedback (s : State) (e : BridgeEnd) (on : Bool) : Kept s (s.setFeedback e on) := by
  cases e <;> exact { Kept.refl _ with }

theorem State.kept_compareLamps (s : State) (e : BridgeEnd) : Kept s (s.compareLamps e) :=
  Kept.ite ((s.kept_setFeedback e false).trans (State.kept_clearFault _ _))
    (Kept.ite (Kept.refl s) (s.kept_setFeedback e true))

theorem State.kept_recommand (s : State) : Kept s s.recommand :=
  Kept.after (State.kept_compareLamps _ .b) (Kept.after (State.kept_compareLamps _ .a) { Kept.refl _ with })

/-! ### The end of an event -/

theorem State.kept_judgeSources (s : State) : Kept s s.judgeSources := { Kept.refl _ with }

theorem State.kept_pauseGrantTimer (s : State) (paused : Bool) : Kept s (s.pauseGrantTimer paused) :=
  { Kept.refl _ with }

theorem State.kept_followHold (s : State) (before : Holds) : Kept s (s.followHold before) :=
  Kept.ite ((s.kept_pauseGrantTimer true).trans (State.kept_refuseWaiting _ _ _))
    (Kept.ite (s.kept_pauseGrantTimer false) (Kept.refl s))

theorem State.kept_followPointSources (s : State) (before : Holds) : Kept s (s.followPointSources before) :=
  Kept.ite (s.kept_endPoint .held) (Kept.refl s)

theorem State.kept_settlePass (s : State) (before : Holds) : Kept s (s.settlePass before) :=
  (((s.kept_judgeSources.trans (State.kept_followHold _ _)).trans (State.kept_followPointSources _ _)).trans
    (State.kept_grantIfDue _)).trans (State.kept_recommand _)

theorem State.kept_settle (s : State) (before : Holds) : Kept s (s.settle before) :=
  Kept.ite (s.kept_settlePass before) ((s.kept_settlePass before).trans (State.kept_settlePass _ _))

theorem State.kept_flush (s : State) : Kept s s.flush :=
  { Kept.refl s with
    ports := fun p => by
      obtain ⟨hr, -, hn⟩ := PortState.pushAll_spec (sortNotices (outboxFor s.outbox p)) (s.port p)
      rw [State.flush_port]
      exact ⟨hr, hn⟩ }

theorem kept_retain (s t : State) : Kept t (retain s t) := Kept.ite (Kept.refl t) { Kept.refl _ with }

theorem State.kept_beginWrite (s : State) (regions : List Region) : Kept s (s.beginWrite regions) :=
  Kept.ite (Kept.refl s) { Kept.refl _ with }

/-- The end of an event keeps what its own rules made. -/
theorem kept_event (s t : State) : Kept t (event s t) :=
  ((t.kept_settle _).trans (State.kept_flush _)).trans (kept_retain s _)

/-- An event keeps what its own rules keep. -/
theorem Kept.event {s t : State} (h : Kept s t) : Kept s (event s t) := h.trans (kept_event s t)

end Sys2Proof.Machine
end

