-- ==== Sys2Proof/Proofs/BoundsRounds.lean ====
section
/-! What the blocks keep: the cell bus, the weighing, the axles, the tables and the captures, and the chain of a
round. -/

namespace Sys2Proof.Machine

/-! ### The cell bus -/

theorem Bus.sorted_setRecord {b : Bus} (i : Nat) (r : CellRecord) (h : Table.sorted b.records = true) :
    Table.sorted (b.setRecord i r).records = true := by
  unfold Bus.setRecord
  simp only []
  split
  · exact Table.sorted_erase _ _ h
  · exact Table.sorted_set _ _ _ h

/-- Marking the records of a list of addresses. -/
theorem Bus.foldl_setRecord (t : CalTable) (is : List Nat) (b : Bus) :
    ((is.foldl (fun acc i => acc.setRecord i ((acc.record i).marked t i)) b).overruns = b.overruns) ∧
      (Table.sorted b.records = true →
        Table.sorted (is.foldl (fun acc i => acc.setRecord i ((acc.record i).marked t i)) b).records = true) := by
  induction is generalizing b with
  | nil => exact ⟨rfl, id⟩
  | cons i rest ih =>
    obtain ⟨h1, h2⟩ := ih (b.setRecord i ((b.record i).marked t i))
    exact ⟨h1, fun h => h2 (Bus.sorted_setRecord _ _ h)⟩

theorem Bus.markRecords_overruns (b : Bus) (t : CalTable) : (b.markRecords t).overruns = b.overruns :=
  (Bus.foldl_setRecord t addresses b).1

theorem Bus.sorted_markRecords {b : Bus} (t : CalTable) (h : Table.sorted b.records = true) :
    Table.sorted (b.markRecords t).records = true := (Bus.foldl_setRecord t addresses b).2 h

@[simp] theorem Bus.sendNext_overruns (b : Bus) : b.sendNext.overruns = b.overruns := by
  unfold Bus.sendNext
  split <;> rfl

@[simp] theorem Bus.sendNext_records (b : Bus) : b.sendNext.records = b.records := by
  unfold Bus.sendNext
  split <;> rfl

/-- The next poll sent, whatever else the cell bus was given. -/
theorem State.kept_sendNext (s : State) (b : Bus) (ho : b.overruns = s.bus.overruns)
    (hr : Table.sorted s.bus.records = true → Table.sorted b.records = true) : Kept s { s with bus := b.sendNext } :=
  { Kept.refl s with
    overruns := fun h => by simpa [ho] using h
    records := fun h => by simpa using hr h }

theorem State.kept_clearCell (s : State) (i : Nat) : Kept s (s.clearCell i) :=
  ((s.kept_clearFault _).trans (State.kept_clearFault _ _)).trans (State.kept_clearFault _ _)

theorem State.kept_beginRound (s : State) : Kept s s.beginRound := by
  have ho := s.bus.markRecords_overruns s.tableInUse
  have hr := Bus.sorted_markRecords (b := s.bus) s.tableInUse
  unfold State.beginRound
  simp only []
  generalize addresses.filter _ = gone
  generalize s.bus.markRecords s.tableInUse = marked at ho hr ⊢
  refine Kept.trans (State.kept_sendNext s _ ?_ ?_) (Kept.foldl (fun t i => t.kept_clearCell i) gone _)
  · exact ho
  · exact hr

theorem State.kept_reportCell (s : State) (i : Nat) (c : Option CellCondition) : Kept s (s.reportCell i c) :=
  (Kept.foldl (fun t f => t.kept_reportFault (cellKey f i) false) _ s).trans
    (Kept.foldl (fun t f => t.kept_reportFault (cellKey f i) true) _ _)

theorem State.kept_judge (s : State) (i : Nat) (reply : Option CellReply) : Kept s (s.judge i reply) :=
  Kept.after (State.kept_reportCell _ _ _) { Kept.refl _ with records := Bus.sorted_setRecord _ _ }

theorem State.kept_overrun (s : State) : Kept s s.overrun := by
  have h : Kept s { s with bus.overrun := true, bus.overruns := min (s.bus.overruns + 1) 3 } :=
    { Kept.refl _ with overruns := fun _ => Nat.min_le_right _ _ }
  exact Kept.ite (h.trans (State.kept_reportFault _ _ _)) h

theorem State.kept_endRound (s : State) : Kept s s.endRound :=
  Kept.ite { Kept.refl _ with } (Kept.after (State.kept_reportFault _ _ _)
    { Kept.refl _ with overruns := fun _ => Nat.zero_le _ })

theorem State.kept_abandonRound (s : State) : Kept s s.abandonRound := { Kept.refl _ with }

/-! ### Weighing and zero -/

theorem State.deckRound_history (s : State) (t : CalTable) (d : Nat) : (s.deckRound t d).2.length ≤ 16 := by
  unfold State.deckRound
  simp only []
  split
  · exact Nat.zero_le _
  · split
    · exact Nat.zero_le _
    · split
      · exact Nat.zero_le _
      · exact lastN_length_le 16 _

theorem State.kept_weighRound (s : State) : Kept s s.weighRound :=
  { Kept.refl s with
    histories := fun _ e he => by
      obtain ⟨d, -, rfl⟩ := List.mem_map.1 (List.mem_filter.1 he).1
      exact s.deckRound_history _ d }

theorem State.kept_judgeStability (s : State) : Kept s s.judgeStability := by
  unfold State.judgeStability
  split
  · exact { Kept.refl _ with window := fun _ => Nat.zero_le _ }
  · exact { Kept.refl _ with window := fun _ => lastN_length_le 32 _ }

theorem State.kept_setZeros (s : State) (decks : List DeckValues) (news : List (Nat × Int)) :
    Kept s (s.setZeros decks news) :=
  Kept.ite (Kept.refl s) { Kept.refl _ with window := fun h => by simpa using h }

theorem State.kept_makeStartUpZero (s : State) (decks : List DeckValues) : Kept s (s.makeStartUpZero decks) :=
  (s.kept_setZeros decks _).trans { Kept.refl _ with }

theorem State.kept_tryStartUpZero (s : State) : Kept s s.tryStartUpZero := by
  unfold State.tryStartUpZero
  split
  · exact Kept.refl s
  · exact Kept.ite (s.kept_makeStartUpZero _) (Kept.refl s)

theorem State.kept_trackZero (s : State) : Kept s s.trackZero :=
  Kept.ite (s.kept_setZeros _ _) (Kept.refl s)

/-! ### Axles and the trace -/

theorem State.kept_testAxleCount (s : State) : Kept s s.testAxleCount := by
  unfold State.testAxleCount
  split
  · exact { Kept.refl _ with }
  · refine Kept.ite { Kept.refl _ with } (Kept.ite (Kept.refl s) ?_)
    exact Kept.after (State.kept_postAll _ _ _) { Kept.refl _ with }

theorem Trace.join_events (t : Trace) (e : TraceEvent) (h : t.events.length ≤ 4) : (t.join e).events.length ≤ 4 := by
  unfold Trace.join
  split
  · simp only [List.length_append, List.length_singleton]
    omega
  · exact h

@[simp] theorem Trace.join_samples (t : Trace) (e : TraceEvent) : (t.join e).samples = t.samples := by
  unfold Trace.join
  split <;> rfl

theorem Trace.append_samples (t : Trace) (r : RoundValues) : (t.append r).samples.length ≤ 512 := by
  simp only [Trace.append]
  exact lastN_length_le 512 (_ ++ _)

theorem Trace.append_events (t : Trace) (r : RoundValues) : (t.append r).events.length ≤ 4 := Nat.zero_le _

/-- The trace replaced by one within its bounds. -/
theorem State.kept_setTrace (s : State) {t : Trace} (h : t.samples.length ≤ 512) (k : t.events.length ≤ 4) :
    Kept s { s with axles.trace := t } :=
  { Kept.refl s with
    samples := fun _ => h
    events := fun _ => k }

theorem State.kept_traceTakesRound (s : State) (r : RoundValues) : Kept s (s.traceTakesRound r) := by
  unfold State.traceTakesRound
  split
  · exact { Kept.refl _ with events := fun _ => Nat.zero_le _ }
  · split
    · exact s.kept_setTrace (s.axles.trace.append_samples r) (s.axles.trace.append_events r)
    · exact Kept.refl s

theorem State.kept_freezeTrace (s : State) (reason : FreezeReason) (id : Ident) (r : RoundValues)
    (draft : Option Nat) : Kept s (s.freezeTrace reason id r draft) := by
  have hs := s.axles.trace.append_samples r
  have he := s.axles.trace.append_events r
  unfold State.freezeTrace
  refine Kept.ite (Kept.refl s) (Kept.trans ?_ (State.kept_postAll _ _ _))
  generalize s.axles.trace.append r = t at hs he ⊢
  split
  · exact { Kept.refl _ with }
  · exact { Kept.refl _ with samples := fun _ => hs, events := fun _ => he }

theorem State.visitInUse_eq {s : State} {v : Visit} (h : s.visitInUse = some v) :
    ∃ p, s.inUse = some p ∧ Table.get? s.visits p = some v := by
  unfold State.visitInUse at h
  cases hp : s.inUse with
  | none => simp [hp] at h
  | some p => exact ⟨p, rfl, by simpa [hp] using h⟩

theorem State.kept_setDraft (s : State) (d : DraftState) : Kept s (s.setDraft d) := by
  unfold State.setDraft
  split
  · rename_i p v hp hv
    obtain ⟨p', hp', hg⟩ := State.visitInUse_eq hv
    obtain rfl : p = p' := by simpa [hp] using hp'
    exact s.kept_setVisit _ hg
  · exact Kept.refl s

theorem State.kept_disagree (s : State) (e : BridgeEnd) (dir : AxleDir) : Kept s (s.disagree e dir) :=
  ((s.kept_raiseFault _ _).trans (State.kept_clearFault _ _)).trans { Kept.refl _ with }

theorem State.kept_countAxle (s : State) (e : BridgeEnd) (dir : AxleDir) (entryEnd : BridgeEnd) :
    Kept s (s.countAxle e dir entryEnd).1 := by
  unfold State.countAxle
  split
  · exact Kept.after (State.kept_testAxleCount _) { Kept.refl _ with }
  · exact s.kept_disagree e dir

theorem State.kept_enterBridge (s : State) : Kept s s.enterBridge := { Kept.refl _ with }

theorem State.kept_passOn (s : State) (e : TraceEvent) : Kept s (s.passOn e) :=
  Kept.ite { Kept.refl _ with events := Trace.join_events _ e, samples := fun h => by simpa using h } { Kept.refl _ with }

theorem State.kept_intrude (s : State) (e : BridgeEnd) : Kept s (s.intrude e) :=
  Kept.after (State.kept_postAll _ _ _) ((Kept.ite s.kept_withdrawGrant (Kept.refl s)).trans { Kept.refl _ with })

theorem State.kept_crossAxle (s : State) (e : BridgeEnd) (dir : AxleDir) (g : Grant) :
    Kept s (s.crossAxle e dir g) := by
  have h := s.kept_countAxle e dir g.entryEnd
  exact (h.trans (Kept.ite (State.kept_enterBridge _) (Kept.refl _))).trans (State.kept_passOn _ _)

theorem State.kept_restartPoint (s : State) : Kept s s.restartPoint :=
  { Kept.refl s with
    run := fun h r hr => by
      obtain ⟨r', hr', rfl⟩ := Option.map_eq_some_iff.1 hr
      simpa using h r' hr' }

theorem State.kept_treadle (s : State) (e : BridgeEnd) (dir : AxleDir) : Kept s (s.treadle e dir) := by
  unfold State.treadle
  split
  · exact Kept.refl s
  · exact Kept.ite (s.kept_intrude e) (Kept.refl s)
  · exact Kept.ite (s.kept_intrude e) (s.kept_crossAxle e dir _)
  · exact s.kept_crossAxle e dir _
  · exact s.kept_crossAxle e dir _
  · exact Kept.refl s

/-! ### Tares -/

theorem nextSlot_lt {n : Nat} (h : n < 96) : nextSlot n < 96 := by
  unfold nextSlot
  split <;> omega

theorem pointerPast_lt {pointer : Nat} (slot : Nat) (h : pointer < 96) : pointerPast pointer slot < 96 := by
  unfold pointerPast
  split
  · exact nextSlot_lt h
  · exact h

/-- R122: a slot chosen to be taken lies below 96, as every listed one. -/
theorem chooseSlot_take {slots : Table Tare} {pointer slot : Nat} {id : Ident}
    (h : chooseSlot slots pointer id = .take slot) (hb : ∀ e ∈ slots, e.1 < 96) : slot < 96 := by
  unfold chooseSlot at h
  split at h
  · rename_i hf
    cases h
    exact hb _ (List.mem_of_find?_eq_some hf)
  · split at h
    · rename_i hf
      cases h
      exact (Table.firstFree_spec hf).1
    · split at h <;> cases h

/-- R122: a slot chosen to be replaced lies below 96. -/
theorem chooseSlot_replace {slots : Table Tare} {pointer slot : Nat} {id : Ident} {old : Tare}
    (h : chooseSlot slots pointer id = .replace slot old) : slot < 96 := by
  unfold chooseSlot at h
  split at h
  · cases h
  · split at h
    · cases h
    · split at h
      · rename_i hr
        cases h
        obtain ⟨i, hi, ht⟩ := List.exists_of_findSome?_eq_some hr
        obtain ⟨k, -, rfl⟩ := List.mem_map.1 hi
        split at ht
        · split at ht <;> cases ht
          exact Nat.mod_lt _ (by decide)
        · cases ht
      · cases h

theorem State.kept_storeTare (s : State) (t : Tare) {u : State} {slot : Nat} (h : s.storeTare t = some (u, slot)) :
    Kept s u := by
  have hf : TableKept 96 s.tares.slots s.unexpired := TableKept.filter _ _
  unfold State.storeTare at h
  simp only [] at h
  split at h
  · rename_i i hc
    cases h
    exact
      { Kept.refl s with
        slots := hf.trans (TableKept.set t (chooseSlot_take hc))
        pointer := pointerPast_lt _ }
  · rename_i i old hc
    cases h
    have hi := chooseSlot_replace hc
    exact Kept.after (State.kept_post _ _ _)
      { Kept.refl s with
        slots := hf.trans (TableKept.set t (fun _ => hi))
        pointer := fun _ => nextSlot_lt hi }
  · cases h

theorem State.kept_learnTare (s : State) (t : Tare) : Kept s (s.learnTare t) := by
  unfold State.learnTare
  split
  · rename_i h
    exact s.kept_storeTare t h
  · exact s.kept_post _ _

theorem State.kept_dropLearned (s : State) : Kept s s.dropLearned :=
  { Kept.refl s with
    slots := TableKept.filter _ _ }

/-- R121: a lookup marks or removes one slot. -/
theorem State.kept_looked (s : State) (l : Lookup) : Kept s { s with tares := s.tares.looked l } := by
  cases l with
  | found slot t => exact { Kept.refl _ with pointer := pointerPast_lt _ }
  | expired slot => exact { Kept.refl _ with slots := TableKept.erase _ _ }
  | notHeld => exact { Kept.refl _ with }

/-! ### Tickets -/

theorem State.kept_noteRing (s : State) : Kept s s.noteRing := by
  unfold State.noteRing
  split
  · exact Kept.ite (s.kept_post _ _) (Kept.refl s)
  · exact Kept.refl s

theorem State.kept_noteTicket (s : State) (k : Ticket) : Kept s (s.noteTicket k) :=
  ((s.kept_post _ _).trans (State.kept_postCopy _ _)).trans (State.kept_post _ _ _)

theorem ticketOf_key (key : TicketKey) (v : Visit) (h : TicketHandoff) : (ticketOf key v h).key = key := rfl

theorem State.ticketRefusal_none {s : State} (h : s.ticketRefusal = none) :
    s.tickets.ring.length < 64 ∧ s.cal.exhausted = false := by
  simp only [State.ticketRefusal, refusal_cons, refusal_nil] at h
  split at h
  · cases h
  · split at h
    · cases h
    · simp_all

/-- The greatest key is not exceeded by a key in its ranges. -/
theorem State.nextKey_le_greatest {s : State} (h1 : s.cal.series ≤ 99) (h2 : s.cal.nextNumber ≤ 99999999) :
    s.nextKey.le .greatest = true := by
  rw [TicketKey.le_iff]
  simp only [State.nextKey, TicketKey.greatest]
  omega

theorem State.takeNumber_tickets (s : State) : s.takeNumber.tickets = s.tickets := by simp

theorem State.takeNumber_lastKey (s : State) : s.takeNumber.cal.lastKey = s.cal.lastKey := by
  unfold State.takeNumber
  split
  · rfl
  · split <;> simp

/-- R133: the number taken leaves the sequence in its ranges. -/
theorem State.takeNumber_ranges (s : State) (he : s.cal.exhausted = false) (h1 : 1 ≤ s.cal.series)
    (h2 : s.cal.series ≤ 99) (h3 : 1 ≤ s.cal.nextNumber) (h4 : s.cal.nextNumber ≤ 99999999) :
    (1 ≤ s.takeNumber.cal.series ∧ s.takeNumber.cal.series ≤ 99 ∧ 1 ≤ s.takeNumber.cal.nextNumber ∧
      s.takeNumber.cal.nextNumber ≤ 99999999) ∧
      (s.takeNumber.cal.exhausted = true → s.takeNumber.cal.series = 99) := by
  unfold State.takeNumber
  split
  · simp only [he]
    refine ⟨⟨h1, h2, ?_, ?_⟩, nofun⟩ <;> omega
  · split
    · simp only [State.postAll_frame, he]
      refine ⟨⟨?_, ?_, ?_, ?_⟩, nofun⟩ <;> omega
    · simp only [State.postAll_frame]
      refine ⟨⟨?_, ?_, ?_, ?_⟩, fun _ => ?_⟩ <;> omega

/-- R133: the key of a ticket that is issued is used by the sequence it leaves. -/
theorem State.takeNumber_keyUsed (s : State) (he : s.cal.exhausted = false) (h2 : s.cal.series ≤ 99)
    (h4 : s.cal.nextNumber ≤ 99999999) :
    s.nextKey.le s.takeNumber.nextKey = true ∧ s.takeNumber.keyUsed s.nextKey = true := by
  unfold State.keyUsed
  rcases s.takeNumber_key h2 h4 he with ⟨hx, hk⟩ | ⟨hx, hg, hk⟩
  · exact ⟨TicketKey.le_of_lt hk, by simp [hx, hk]⟩
  · exact ⟨by simp [hk, TicketKey.le_refl], by simp [hx, hg, TicketKey.le_refl]⟩

/-- R133, R136: the ring and the sequence after an issue: its key is the next one, above every other of the ring. -/
theorem KeysGoOn.issue {s t : State} {k : Ticket} (hk : k.key = s.nextKey) (he : s.cal.exhausted = false)
    (hr : t.tickets.ring = s.tickets.ring ++ [k]) (hl : t.cal.lastKey = some k.key)
    (hn : t.nextKey = s.takeNumber.nextKey) (hx : t.cal.exhausted = s.takeNumber.cal.exhausted)
    (hs : s.keysRise = true) : KeysGoOn s t := by
  obtain ⟨hp, hring, -, ⟨h1, h2, h3, h4⟩, -⟩ := State.keysRise_iff.1 hs
  obtain ⟨hle, hused⟩ := s.takeNumber_keyUsed he h2 h4
  obtain ⟨hrange, h99⟩ := s.takeNumber_ranges he h1 h2 h3 h4
  have hser : t.cal.series = s.takeNumber.cal.series := congrArg TicketKey.series hn
  have hnum : t.cal.nextNumber = s.takeNumber.cal.nextNumber := congrArg TicketKey.number hn
  have hu : ∀ key, t.keyUsed key = s.takeNumber.keyUsed key := by intro key; simp [State.keyUsed, hn, hx]
  have hlt : ∀ x ∈ s.tickets.ring, x.key.lt s.nextKey = true := by
    intro x hxr
    simpa [State.keyUsed, he] using (hring x hxr).1
  have hmono : ∀ x ∈ s.tickets.ring, t.keyUsed x.key = true := by
    intro x hxr
    rw [hu]
    exact State.keyUsed_mono (hring x hxr).1 (by simp [he]) hle (State.nextKey_le_greatest h2 h4)
  refine ⟨State.keysRise_iff.2 ⟨?_, ?_, ?_, ?_, ?_⟩, by rw [hn]; exact hle, by simp [he], ?_⟩
  · rw [hr, List.map_append, List.pairwise_append]
    refine ⟨hp, by simp, ?_⟩
    intro a ha b hb
    obtain ⟨x, hxr, rfl⟩ := List.mem_map.1 ha
    obtain rfl : b = s.nextKey := by simpa [hk] using hb
    exact hlt x hxr
  · intro x hxr
    rw [hr] at hxr
    rcases List.mem_append.1 hxr with hxr | hxr
    · refine ⟨hmono x hxr, fun key hkey => ?_⟩
      obtain rfl : k.key = key := by simpa [hl] using hkey
      exact TicketKey.le_of_lt (hk ▸ hlt x hxr)
    · obtain rfl : x = k := by simpa using hxr
      refine ⟨by rw [hu, hk]; exact hused, fun key hkey => ?_⟩
      obtain rfl : x.key = key := by simpa [hl] using hkey
      exact TicketKey.le_refl _
  · intro key hkey
    obtain rfl : k.key = key := by simpa [hl] using hkey
    rw [hu, hk]
    exact hused
  · rw [hser, hnum]
    exact hrange
  · rw [hx, hser]
    exact h99
  · intro x hxr
    rw [hr] at hxr
    rcases List.mem_append.1 hxr with hxr | hxr
    · exact .inl hxr
    · obtain rfl : x = k := by simpa using hxr
      exact .inr ⟨he, by rw [hk]; exact TicketKey.le_refl _⟩

/-- The number that a state takes depends on its sequence alone. -/
theorem State.takeNumber_congr {s t : State} (h1 : t.cal.series = s.cal.series)
    (h2 : t.cal.nextNumber = s.cal.nextNumber) (h3 : t.cal.exhausted = s.cal.exhausted) :
    t.takeNumber.nextKey = s.takeNumber.nextKey ∧ t.takeNumber.cal.exhausted = s.takeNumber.cal.exhausted := by
  unfold State.takeNumber State.nextKey
  simp only [h1, h2]
  split
  · simp [h3]
  · split <;> simp [h3]

theorem State.takeNumber_eq (s : State) :
    s.takeNumber = { s with cal := s.takeNumber.cal, outbox := s.takeNumber.outbox } := by
  unfold State.takeNumber
  split
  · rfl
  · split <;> rfl

theorem State.kept_issueTicket (s : State) (v : Visit) (h : TicketHandoff) (hr : s.ticketRefusal = none) :
    Kept s (s.issueTicket v h) := by
  obtain ⟨hl, he⟩ := State.ticketRefusal_none hr
  refine Kept.trans ?_ (State.kept_noteTicket _ _)
  refine Kept.trans ?_ (State.kept_noteRing _)
  generalize hu : ({ s with
      cal.lastKey := some (ticketOf { series := s.cal.series, number := s.cal.nextNumber } v h).key
      tickets.ring := s.tickets.ring ++ [ticketOf { series := s.cal.series, number := s.cal.nextNumber } v h]
      tickets.shift := s.tickets.shift.take (ticketOf { series := s.cal.series, number := s.cal.nextNumber } v h) } :
    State) = u
  have hu' : Kept s u.takeNumber := by
    obtain ⟨hn, hx⟩ := State.takeNumber_congr (s := s) (t := u) (hu ▸ rfl) (hu ▸ rfl) (hu ▸ rfl)
    have hlast := u.takeNumber_lastKey
    rw [u.takeNumber_eq]
    subst hu
    exact
      { Kept.refl s with
        ring := fun _ => by
          simp only [List.length_append, List.length_singleton]
          omega
        keys := KeysGoOn.issue rfl he rfl hlast hn hx }
  exact hu'

end Sys2Proof.Machine
end

