-- ==== Sys2Proof/Proofs/BoundsBlocks.lean ====
section
/-! What the visits, the captures, the runs and the chain of a round keep. -/

namespace Sys2Proof.Machine

/-! ### Visits -/

theorem State.kept_firstWeighed (s : State) {p : Nat} {v : Visit} (w : Visit) (r : WeighRecord)
    (h : Table.get? s.visits p = some v) : Kept s (s.firstWeighed p w r) :=
  (s.kept_setVisit _ h).trans (State.kept_post _ _ _)

theorem State.kept_ticketVisit (s : State) (p : Nat) (v : Visit) (h : TicketHandoff) (hr : s.ticketRefusal = none) :
    Kept s (s.ticketVisit p v h) :=
  (s.kept_issueTicket v h hr).trans { Kept.refl _ with visits := TableKept.erase _ _ }

/-- R127: what refuses a ticket lies in the ring and the sequence alone. -/
theorem State.ticketRefusal_congr {s t : State} (h1 : t.tickets = s.tickets) (h2 : t.cal = s.cal) :
    t.ticketRefusal = s.ticketRefusal := by
  simp [State.ticketRefusal, h1, h2]

theorem State.kept_completeFirst (s : State) {p : Nat} {v : Visit} {r : WeighRecord} {t : State}
    (hv : Table.get? s.visits p = some v) (h : s.completeFirst p v r = .ok t) : Kept s t := by
  unfold State.completeFirst at h
  split at h
  · cases h
    by_cases hl : v.learn = true
    · simp only [hl, if_true]
      exact (s.kept_learnTare _).trans (State.kept_firstWeighed _ v r (by simpa using hv))
    · simp only [hl]
      exact s.kept_firstWeighed v r hv
  · split at h
    · simp only [] at h
      have hl := s.kept_looked (s.lookup v.ident)
      have hgone : ∀ why, Kept s ((State.firstWeighed { s with tares := s.tares.looked (s.lookup v.ident) } p v r).postAll
          [.gatehouse, .lane] (.tareGone v.ident r.weight why)) := fun why =>
        (hl.trans (State.kept_firstWeighed _ v r hv)).trans (State.kept_postAll _ _ _)
      generalize hlk : s.lookup v.ident = l at h hl hgone
      cases l with
      | found slot tare =>
        simp only [] at h
        split at h
        · cases h
        · rename_i hr
          cases h
          exact hl.trans (State.kept_ticketVisit _ p v _ hr)
      | expired slot => cases h; exact hgone _
      | notHeld => cases h; exact hgone _
    · cases h
      exact s.kept_firstWeighed v r hv

theorem State.kept_completeSecond (s : State) {p : Nat} {v : Visit} {r : WeighRecord} {t : State}
    (h : s.completeSecond p v r = .ok t) : Kept s t := by
  unfold State.completeSecond at h
  split at h
  · cases h
  · rename_i hr
    cases h
    split
    · refine (s.kept_learnTare _).trans (State.kept_ticketVisit _ p v _ ?_)
      rwa [State.ticketRefusal_congr (s := s) (by simp) (by simp)]
    · exact s.kept_ticketVisit p v _ hr

theorem State.kept_takeDraft (s : State) {p : Nat} {v : Visit} {d : DraftResult} {t : State}
    (hv : Table.get? s.visits p = some v) (h : s.takeDraft p v d = .ok t) : Kept s t := by
  unfold State.takeDraft at h
  split at h
  · cases h
    exact s.kept_setVisit _ hv
  · split at h
    · exact s.kept_completeSecond h
    · exact s.kept_completeFirst hv h

theorem State.kept_noteExpired (s : State) (v : Visit) : Kept s (s.noteExpired v) := s.kept_post _ _

theorem State.aged_number (s : State) (e : Nat × Visit) : (s.aged e).1 = e.1 := by
  unfold State.aged
  split <;> rfl

theorem State.kept_ageVisits (s : State) : Kept s s.ageVisits :=
  Kept.after (Kept.foldl (fun t (e : Nat × Visit) => t.kept_noteExpired e.2) _ _)
    { Kept.refl _ with visits := (TableKept.map _ s.aged_number).trans (TableKept.filter _ _) }

theorem State.kept_timeoutVisit (s : State) (p : Nat) : Kept s (s.timeoutVisit p) := by
  unfold State.timeoutVisit
  split
  · exact Kept.refl s
  · exact Kept.ite (Kept.after (State.kept_noteExpired _ _) { Kept.refl _ with visits := TableKept.erase _ _ }) (Kept.refl s)

/-! ### Captures -/

theorem State.kept_beginCapture (s : State) (o : Origin) : Kept s (s.beginCapture o) := { Kept.refl _ with }

theorem State.kept_refuseAtOnce (s : State) (o : Origin) (code : Status) : Kept s (s.refuseAtOnce o code) :=
  { Kept.refl _ with }

theorem State.kept_attemptAuto (s : State) : Kept s s.attemptAuto := by
  unfold State.attemptAuto
  split
  · exact (s.kept_refuseAtOnce _ _).trans (State.kept_post _ _ _)
  · exact s.kept_beginCapture _

theorem State.kept_quietExpires (s : State) : Kept s s.quietExpires :=
  Kept.ite (Kept.refl s) (Kept.ite { Kept.refl _ with } (Kept.after (State.kept_attemptAuto _) { Kept.refl _ with }))

theorem State.kept_reportDraft (s : State) (id : Ident) (anyOver completed : Bool) :
    Kept s (s.reportDraft id anyOver completed) :=
  Kept.ite { Kept.refl _ with } (Kept.ite (Kept.after (State.kept_postAll _ _ _) { Kept.refl _ with })
    (Kept.after (State.kept_moveBridge _ _) { Kept.refl _ with }))

theorem State.kept_overSteps (s : State) (id : Ident) (d : DraftResult) (r : RoundValues) :
    Kept s (s.overSteps id d r) :=
  Kept.ite (Kept.refl s) ((((s.kept_postAll _ _).trans (State.kept_postCopy _ _)).trans
    (State.kept_takeSnapshot _ _ _)).trans (State.kept_freezeTrace _ _ _ _ _))

theorem State.kept_acceptCapture (s : State) (c : Capture) (d : DraftResult) (r : RoundValues) :
    Kept s (s.acceptCapture c d r) :=
  ((s.kept_endCapture _ _ _ _).trans (State.kept_overSteps _ _ _ _)).trans (State.kept_reportDraft _ _ _ _)

theorem State.kept_refuseStraddle (s : State) (c : Capture) (r : RoundValues) (firstAxle lastAxle groups : Nat)
    (decks : List Nat) : Kept s (s.refuseStraddle c r firstAxle lastAxle groups decks) :=
  ((s.kept_freezeTrace _ _ _ _).trans (State.kept_post _ _ _)).trans (State.kept_endCapture _ _ _ _ _)

theorem State.kept_handOff (s : State) (c : Capture) (r : RoundValues) {p : Nat} {v : Visit}
    (hv : Table.get? s.visits p = some v) : Kept s (s.handOff c r p v) := by
  unfold State.handOff
  split
  · exact s.kept_endCapture _ _ _ _
  · exact s.kept_refuseStraddle _ _ _ _ _ _
  · split
    · exact s.kept_endCapture _ _ _ _
    · rename_i h
      exact (s.kept_takeDraft hv h).trans (State.kept_acceptCapture _ _ _ _)

theorem State.kept_completeCapture (s : State) (c : Capture) (r : RoundValues) : Kept s (s.completeCapture c r) := by
  have hend : ∀ code, Kept s (s.endCapture c code (some r.index) none) := fun _ => s.kept_endCapture _ _ _ _
  unfold State.completeCapture
  refine Kept.ite (hend _) (Kept.ite (hend _) ?_)
  split
  · rename_i p v hp hv
    obtain ⟨p', hp', hg⟩ := State.visitInUse_eq hv
    obtain rfl : p = p' := by simpa [hp] using hp'
    exact Kept.ite (s.kept_handOff c r hg) (hend _)
  · exact hend _

theorem State.kept_captureTakesRound (s : State) (r : RoundValues) : Kept s (s.captureTakesRound r) := by
  unfold State.captureTakesRound
  split
  · exact Kept.refl s
  · exact Kept.ite (s.kept_completeCapture _ r) (Kept.refl s)

/-! ### Timers and lines -/

theorem State.kept_setLamps (s : State) (e : BridgeEnd) (lit : Lamps) : Kept s (s.setLamps e lit) := by
  cases e <;> exact { Kept.refl _ with }

theorem State.kept_feedbackExpires (s : State) (e : BridgeEnd) : Kept s (s.feedbackExpires e) :=
  Kept.ite ((s.kept_setFeedback e false).trans (State.kept_reportFault _ _ _)) (Kept.refl s)

theorem State.kept_noShow (s : State) (id : Ident) : Kept s (s.noShow id) :=
  Kept.after (State.kept_postAll _ _ _) (s.kept_withdrawGrant.trans { Kept.refl _ with })

theorem State.kept_grantExpires (s : State) : Kept s s.grantExpires := by
  unfold State.grantExpires
  split
  · exact Kept.ite (Kept.refl s) (s.kept_noShow _)
  · exact Kept.refl s

theorem State.kept_unknownTakesRound (s : State) (r : RoundValues) : Kept s (s.unknownTakesRound r) := by
  unfold State.unknownTakesRound
  split
  · exact Kept.refl s
  · exact Kept.ite (Kept.ite s.kept_unknownEnds { Kept.refl _ with }) (Kept.ite s.kept_unknownEnds (Kept.refl s))

theorem State.kept_arbiterTakesRound (s : State) (r : RoundValues) : Kept s (s.arbiterTakesRound r) := by
  unfold State.arbiterTakesRound
  split
  · exact Kept.ite s.kept_vehicleLeft (Kept.refl s)
  · exact Kept.ite s.kept_vehicleLeft (Kept.refl s)
  · exact s.kept_unknownTakesRound r
  · exact Kept.refl s

/-! ### Calibration access and runs -/

theorem State.kept_setStaged (s : State) (t : CalTable) : Kept s (s.setStaged t) := { Kept.refl _ with }

theorem State.kept_closeAccess (s : State) : Kept s s.closeAccess := { Kept.refl _ with }

theorem State.kept_withdrawSwitch (s : State) : Kept s s.withdrawSwitch :=
  Kept.ite (s.kept_closeAccess.trans (State.kept_post _ _ _)) (s.kept_closeAccess.trans (State.kept_enterLockout _ _))

theorem State.kept_switchChange (s : State) (asserted : Bool) : Kept s (s.switchChange asserted) :=
  Kept.ite (Kept.after (State.kept_withdrawSwitch _) { Kept.refl _ with }) { Kept.refl _ with }

theorem State.kept_commit (s : State) (t : CalTable) (h : 1 ≤ s.auditFree) : Kept s (s.commit t) :=
  Kept.after (State.kept_noteNearFull _)
    ((((s.kept_appendAudit _ _ _ h).trans (State.kept_dropLearned _)).trans (State.kept_closeAccess _)).trans
      { Kept.refl _ with })

theorem State.kept_recordPoint (s : State) {r : Run} {w : WaitingPoint} (v : RoundValues) (i : Int)
    (hr : s.run = some r) (hw : r.waiting = some w) : Kept s (s.recordPoint r w v i) := by
  refine Kept.after (State.kept_post _ _ _) { Kept.refl _ with run := fun h => ?_ }
  rintro r' ⟨⟩
  simpa [hw] using h r hr

theorem State.kept_pointTakesRound (s : State) (v : RoundValues) : Kept s (s.pointTakesRound v) := by
  unfold State.pointTakesRound
  split
  · exact Kept.refl s
  · rename_i hr
    split
    · exact Kept.refl s
    · rename_i hw
      refine Kept.ite (Kept.refl s) (Kept.ite (s.kept_endPoint _) ?_)
      split
      · exact Kept.refl s
      · exact s.kept_recordPoint v _ hr hw

theorem State.kept_endRun (s : State) (r : Run) (h : 1 ≤ s.auditFree) : Kept s (s.endRun r) :=
  Kept.after (State.kept_postAll _ _ _) (Kept.after (State.kept_noteNearFull _)
    ((s.kept_appendAtEpoch _ h).trans { Kept.refl _ with run := fun _ => runOk_none }))

/-! ### The chain of a round (R32) -/

theorem State.kept_takeAs (r : RoundValues) (s : State) (k : RoundTaker) : Kept s (State.takeAs r s k) := by
  cases k with
  | capture => exact (s.kept_captureTakesRound r).event
  | trace => exact (s.kept_traceTakesRound r).event
  | arbiter => exact (s.kept_arbiterTakesRound r).event

theorem State.kept_blocksTakeRound (s : State) (r : RoundValues) : Kept s (s.blocksTakeRound r) :=
  Kept.ite (Kept.after (Kept.foldl (State.kept_takeAs r) _ _) { Kept.refl _ with }) (Kept.foldl (State.kept_takeAs r) _ _)

theorem State.kept_keepLastStable (s : State) (r : RoundValues) : Kept s (s.keepLastStable r) :=
  Kept.ite { Kept.refl _ with } (Kept.refl s)

theorem State.kept_issueRound (s : State) : Kept s s.issueRound := by
  unfold State.issueRound
  split
  · exact Kept.refl s
  · exact ((((s.kept_judgeStability.event).trans (State.kept_tryStartUpZero _).event).trans
      (State.kept_blocksTakeRound _ _)).trans (State.kept_pointTakesRound _ _).event).trans
        (State.kept_keepLastStable _ _).event

theorem State.kept_roundDone (s : State) : Kept s s.roundDone :=
  ((s.kept_endRound.trans (State.kept_weighRound _)).event).trans (State.kept_issueRound _)

theorem State.kept_startRound (s : State) : Kept s s.startRound :=
  Kept.ite (s.kept_beginRound.event.trans (State.kept_roundDone _)) s.kept_beginRound.event

theorem State.kept_roundEnds (s : State) : Kept s s.roundEnds :=
  Kept.ite (s.kept_roundDone.trans (State.kept_startRound _)) s.kept_roundDone

theorem State.kept_pollEnds (s : State) (i : Nat) (reply : Option CellReply) : Kept s (s.pollEnds i reply) :=
  Kept.ite ((s.kept_judge i reply).event.trans (State.kept_roundEnds _))
    ((s.kept_judge i reply).event.trans (State.kept_sendNext _ _ rfl id))

theorem State.kept_answer (s : State) (octets : List Octet) : Kept s (s.answer octets) := by
  unfold State.answer
  split
  · split
    · exact s.kept_pollEnds _ _
    · exact { Kept.refl _ with }
  · exact Kept.refl s

theorem State.kept_windowCloses (s : State) : Kept s s.windowCloses := by
  unfold State.windowCloses
  split
  · exact s.kept_pollEnds _ _
  · exact Kept.refl s

theorem State.kept_pollSent (s : State) : Kept s s.pollSent := by
  unfold State.pollSent
  split
  · exact { Kept.refl _ with }
  · exact Kept.refl s

theorem State.kept_periodExpires (s : State) : Kept s s.periodExpires := by
  have h : Kept s { s with bus.periodTimer := false } := { Kept.refl _ with }
  exact Kept.ite (Kept.refl s) (Kept.ite (h.trans (State.kept_overrun _)).event (h.trans (State.kept_startRound _)))

/-! ### Seconds, the supply and retained writes -/

theorem State.kept_timersRun (s : State) : Kept s s.timersRun :=
  { Kept.refl s with
    run := fun h r hr => by
      obtain ⟨r', hr', rfl⟩ := Option.map_eq_some_iff.1 hr
      simpa using h r' hr' }

theorem State.kept_second (s : State) : Kept s s.second :=
  Kept.after (State.kept_ageVisits _) (s.kept_timersRun.trans { Kept.refl _ with })

theorem State.kept_withdrawRound (s : State) : Kept s s.withdrawRound :=
  { Kept.refl s with
    histories := fun _ => nofun
    window := fun _ => Nat.zero_le _ }

theorem State.kept_fall (s : State) : Kept s s.fall :=
by
  have h : Kept s (((s.abandonRound.withdrawRound).refuseWaiting .supply none).endPoint .supply) :=
    ((s.kept_abandonRound.trans (State.kept_withdrawRound _)).trans (State.kept_refuseWaiting _ _ _)).trans
      (State.kept_endPoint _ _)
  unfold State.fall
  generalize ((s.abandonRound.withdrawRound).refuseWaiting .supply none).endPoint .supply = t at h
  exact h.trans { Kept.refl t with }

theorem State.kept_returns (s : State) : Kept s s.returns :=
  Kept.after (State.kept_startRound _) (Kept.event { Kept.refl _ with })

theorem State.kept_beginStart (s : State) (c : StartCause) : Kept s (s.beginStart c) := { Kept.refl _ with }

theorem State.kept_writeCompletes (s : State) : Kept s s.writeCompletes := by
  unfold State.writeCompletes
  split
  · exact Kept.ite { Kept.refl _ with } (Kept.refl s)
  · exact Kept.refl s

theorem State.kept_commitCompletes (s : State) : Kept s s.commitCompletes := by
  unfold State.commitCompletes
  split
  · split
    · exact Kept.after (State.kept_flush _) (Kept.after (State.kept_postAll _ _ _) { Kept.refl _ with })
    · exact Kept.refl s
  · exact Kept.refl s

end Sys2Proof.Machine
end

