-- ==== Sys2Proof/Proofs/BoundsRequests.lean ====
section
/-! What the requests of the ports keep, and the bounds of what is pending on a port. -/

namespace Sys2Proof.Machine

/-- What a request's rule makes, where it is not refused, is kept as every operation keeps it. -/
def ruleKeeps (s : State) (taken : Taken) : Prop :=
  match taken with
  | .error _ => True
  | .ok r => Kept s r.1

theorem ruleKeeps_ok {s t : State} {st : Status} {c : Content} (h : Kept s t) : ruleKeeps s (.ok (t, st, c)) := h

theorem orRefuse_keeps {s t : State} {why : Option Status} {st : Status} {c : Content} (h : why = none → Kept s t) :
    ruleKeeps s (orRefuse why t st c) := by
  cases why with
  | none => exact h rfl
  | some code => trivial

/-- A request that is taken whatever it finds, or refused before it changes anything. -/
theorem orRefuse_keeps_of {s t : State} {why : Option Status} {st : Status} {c : Content} (h : Kept s t) :
    ruleKeeps s (orRefuse why t st c) := orRefuse_keeps (fun _ => h)

/-- No condition of a table applies where the table refuses nothing. -/
theorem refusal_eq_none {l : List (Bool × Status)} : refusal l = none ↔ ∀ x ∈ l, x.1 = false := by
  induction l with
  | nil => simp
  | cons e rest ih =>
    obtain ⟨b, c⟩ := e
    cases b <;> simp [ih]

/-! ### Ports, clock and settings -/

theorem fetchNotice_keeps (p : Port) (s : State) : ruleKeeps s (fetchNotice p s) := by
  unfold fetchNotice
  split
  · exact Kept.refl s
  · rename_i n rest hn
    cases p
    all_goals
      refine ruleKeeps_ok { Kept.refl _ with ports := fun p' => ?_ }
      cases p' <;> first
        | exact PortKept.refl _
        | exact ⟨rfl, fun h => by simp only [hn, List.length_cons] at h; exact Nat.le_of_succ_le h⟩

theorem setSiteTime_keeps (payload : List Octet) (s : State) : ruleKeeps s (setSiteTime payload s) :=
  orRefuse_keeps_of { Kept.refl _ with }

theorem writeSiteSetting_keeps (payload : List Octet) (s : State) : ruleKeeps s (writeSiteSetting payload s) :=
  orRefuse_keeps_of { Kept.refl _ with }

theorem restartRequest_keeps (s : State) : ruleKeeps s (restartRequest s) :=
  orRefuse_keeps (fun h => by
    have hr : s.hasHeadroom = true := by simpa using refusal_eq_none.1 h
    exact (s.kept_appendAtEpoch _ (State.auditFree_of_hasHeadroom hr)).trans (State.kept_noteNearFull _))

/-! ### Zero, captures and the bridge -/

theorem zeroSet_keeps (s : State) : ruleKeeps s (zeroSet s) :=
  orRefuse_keeps_of (Kept.ite (s.kept_makeStartUpZero _) (s.kept_setZeros _ _))

theorem requestCapture_keeps (p : Port) (tag : Octet) (s : State) : ruleKeeps s (requestCapture p tag s) := by
  unfold requestCapture
  split
  · exact ruleKeeps_ok (s.kept_refuseAtOnce _ _)
  · exact ruleKeeps_ok (s.kept_beginCapture _)

/-- R59: renumbering leaves the ends of the entries. -/
theorem Bridge.renumber_ends (b : Bridge) :
    b.renumber.waiting.map (·.entryEnd) = b.waiting.map (·.entryEnd) := by
  unfold Bridge.renumber
  split
  · rfl
  · have h : (numbered b.waiting).map Prod.snd = b.waiting := List.map_snd_zip (by simp)
    calc (renumbered b.waiting).map (·.entryEnd)
        = ((numbered b.waiting).map Prod.snd).map (·.entryEnd) := by simp [renumbered, Function.comp_def]
      _ = b.waiting.map (·.entryEnd) := by rw [h]

/-- R60: an entry joins a queue of fewer than eight. -/
theorem State.kept_append (s : State) (v : Visit) (e : BridgeEnd) (h : s.queueLength e < 8) : Kept s (s.append v e) :=
  { Kept.refl s with
    queues := fun hq f => by
      rw [State.queueLength_eq] at h
      simp only [State.append, List.map_append, s.bridge.renumber_ends, List.count_append, List.map_cons, List.map_nil,
        List.count_singleton]
      have := hq f
      split
      · rename_i hf
        obtain rfl : e = f := by simpa using hf
        omega
      · omega }

theorem reportArrival_keeps (payload : List Octet) (s : State) : ruleKeeps s (reportArrival payload s) := by
  unfold reportArrival
  split
  · split
    · trivial
    · refine orRefuse_keeps (fun h => s.kept_append _ _ ?_)
      have := refusal_eq_none.1 h
      simp only [List.mem_cons, List.not_mem_nil, or_false, forall_eq_or_imp, forall_eq, decide_eq_false_iff_not] at this
      omega
  · trivial

/-- Entries withdrawn from the queues. -/
theorem State.kept_filterWaiting (s : State) (p : QueueEntry → Bool) :
    Kept s { s with bridge.waiting := s.bridge.waiting.filter p } :=
  { Kept.refl s with
    queues := queuesOk_of_sublist List.filter_sublist }

theorem withdrawArrival_keeps (payload : List Octet) (s : State) : ruleKeeps s (withdrawArrival payload s) := by
  unfold withdrawArrival
  split
  · trivial
  · exact orRefuse_keeps_of (s.kept_filterWaiting _)

theorem releaseVehicle_keeps (s : State) : ruleKeeps s (releaseVehicle s) :=
  orRefuse_keeps_of (Kept.after (State.kept_moveBridge _ _) { Kept.refl _ with })

theorem clearBridge_keeps (s : State) : ruleKeeps s (clearBridge s) :=
  orRefuse_keeps_of (Kept.ite s.kept_unknownEnds s.kept_vehicleLeft)

theorem holdBridge_keeps (p : Port) (s : State) : ruleKeeps s (holdBridge p s) := ruleKeeps_ok { Kept.refl _ with }

theorem releaseHold_keeps (p : Port) (s : State) : ruleKeeps s (releaseHold p s) := ruleKeeps_ok { Kept.refl _ with }

/-! ### Axles and drafts -/

theorem writeConfiguration_keeps (payload : List Octet) (s : State) : ruleKeeps s (writeConfiguration payload s) :=
  orRefuse_keeps_of { Kept.refl _ with catalogue := Table.sorted_set _ _ _ }

theorem clearConfiguration_keeps (payload : List Octet) (s : State) : ruleKeeps s (clearConfiguration payload s) :=
  orRefuse_keeps_of { Kept.refl _ with catalogue := Table.sorted_erase _ _ }

theorem restartWeighing_keeps (s : State) : ruleKeeps s (restartWeighing s) :=
  orRefuse_keeps_of (Kept.after (State.kept_post _ _ _) ((s.kept_setDraft _).trans { Kept.refl _ with }))

theorem releaseTrace_keeps (s : State) : ruleKeeps s (releaseTrace s) := ruleKeeps_ok { Kept.refl _ with }

/-! ### Visits and tares -/

theorem expireVisits_keeps (payload : List Octet) (s : State) : ruleKeeps s (expireVisits payload s) := by
  unfold expireVisits
  simp only []
  split
  · exact ruleKeeps_ok { Kept.refl _ with visits := TableKept.filter _ _ }
  · trivial

theorem openVisit_keeps (payload : List Octet) (s : State) : ruleKeeps s (openVisit payload s) := by
  unfold openVisit
  split
  · trivial
  · simp only []
    split
    · trivial
    · split
      · trivial
      · rename_i hp
        exact ruleKeeps_ok { Kept.refl _ with visits := TableKept.set _ (fun _ => (Table.firstFree_spec hp).1) }

theorem amendVisit_keeps (payload : List Octet) (s : State) : ruleKeeps s (amendVisit payload s) := by
  unfold amendVisit
  split
  · trivial
  · split
    · trivial
    · rename_i p v hv
      have h : Kept s { s with visits := Table.set s.visits p (v.amended (carriedAt payload 12) (visitArgsAt payload 13)) } :=
        { Kept.refl _ with visits := TableKept.set_listed _ (mem_of_findVisit hv) }
      exact orRefuse_keeps_of (Kept.ite (h.trans (State.kept_testAxleCount _)) h)

theorem cancelVisit_keeps (payload : List Octet) (s : State) : ruleKeeps s (cancelVisit payload s) := by
  unfold cancelVisit
  split
  · trivial
  · split
    · trivial
    · split
      · trivial
      · exact ruleKeeps_ok
          { Kept.refl _ with visits := TableKept.erase _ _, queues := queuesOk_of_sublist List.filter_sublist }

theorem checkTare_keeps (payload : List Octet) (s : State) : ruleKeeps s (checkTare payload s) := by
  unfold checkTare
  split
  · trivial
  · exact ruleKeeps_ok (s.kept_looked _)

theorem State.storeTare_audit {s : State} {t : Tare} {u : State} {slot : Nat} (h : s.storeTare t = some (u, slot)) :
    u.audit = s.audit := by
  unfold State.storeTare at h
  simp only [] at h
  split at h <;> cases h <;> rfl

theorem keyTare_keeps (payload : List Octet) (s : State) : ruleKeeps s (keyTare payload s) := by
  unfold keyTare
  split
  · trivial
  · simp only []
    split
    · trivial
    · split
      · trivial
      · rename_i u slot hu
        split
        · rename_i hr
          have hf : 1 ≤ u.auditFree := by
            have := State.auditFree_of_hasHeadroom hr
            rwa [State.auditFree, State.storeTare_audit hu]
          exact ruleKeeps_ok
            (((s.kept_storeTare _ hu).trans (State.kept_appendAtEpoch _ _ hf)).trans (State.kept_noteNearFull _))
        · trivial

theorem flushTares_keeps (s : State) : ruleKeeps s (flushTares s) := ruleKeeps_ok s.kept_dropLearned

theorem deleteTare_keeps (p : Port) (payload : List Octet) (s : State) : ruleKeeps s (deleteTare p payload s) := by
  unfold deleteTare
  split
  · trivial
  · split
    · trivial
    · split
      · trivial
      · exact ruleKeeps_ok { Kept.refl _ with slots := TableKept.erase _ _ }

/-! ### Tickets -/

/-- R135: the series rolls from one below 99, which is not exhausted. -/
theorem KeysGoOn.roll {s t : State} (hlt : s.cal.series < 99) (hr : t.tickets.ring = s.tickets.ring)
    (h1 : t.cal.series = s.cal.series + 1) (h2 : t.cal.nextNumber = 1) (h3 : t.cal.exhausted = s.cal.exhausted)
    (h4 : t.cal.lastKey = s.cal.lastKey) (hs : s.keysRise = true) : KeysGoOn s t := by
  obtain ⟨hp, hring, hlast, ⟨g1, g2, g3, g4⟩, g5⟩ := State.keysRise_iff.1 hs
  have hle : s.nextKey.le t.nextKey = true := by
    rw [TicketKey.le_iff]
    simp [State.nextKey, h1]
  have hmono : ∀ k, s.keyUsed k = true → t.keyUsed k = true := fun k hk =>
    State.keyUsed_mono hk h3.trans hle (State.nextKey_le_greatest g2 g4)
  refine ⟨State.keysRise_iff.2 ⟨hr ▸ hp, ?_, ?_, ?_, ?_⟩, hle, h3.trans, fun x hx => .inl (hr ▸ hx)⟩
  · intro x hx
    rw [hr] at hx
    exact ⟨hmono _ (hring x hx).1, h4 ▸ (hring x hx).2⟩
  · intro k hk
    exact hmono _ (hlast k (h4 ▸ hk))
  · rw [h1, h2]
    omega
  · rw [h3]
    intro he
    exact absurd (g5 he) (by omega)

theorem rollTicketSeries_keeps (s : State) : ruleKeeps s (rollTicketSeries s) :=
  orRefuse_keeps (fun h => by
    have h' := refusal_eq_none.1 h
    simp only [List.mem_cons, List.not_mem_nil, or_false, forall_eq_or_imp, forall_eq, decide_eq_false_iff_not,
      Bool.not_eq_false'] at h'
    obtain ⟨h99, hr⟩ := h'
    have hk : Kept s { s with cal.series := s.cal.series + 1, cal.nextNumber := 1 } :=
      { Kept.refl _ with keys := KeysGoOn.roll (Nat.lt_of_not_le h99) rfl rfl rfl rfl rfl }
    exact ((hk.trans (State.kept_appendAtEpoch _ _ (State.auditFree_of_hasHeadroom hr :))).trans
      (State.kept_postAll _ _ _)).trans (State.kept_noteNearFull _))

/-- R137: tickets collected leave the others in their order. -/
theorem KeysGoOn.collect {s t : State} (p : Ticket → Bool) (hr : t.tickets.ring = s.tickets.ring.filter p)
    (hc : t.cal = s.cal) (hs : s.keysRise = true) : KeysGoOn s t := by
  obtain ⟨hp, hring, hlast, hrange, h99⟩ := State.keysRise_iff.1 hs
  have hu : ∀ k, t.keyUsed k = s.keyUsed k := by intro k; simp [State.keyUsed, State.nextKey, hc]
  have hmem : ∀ x ∈ t.tickets.ring, x ∈ s.tickets.ring := fun x hx => (List.mem_filter.1 (hr ▸ hx)).1
  refine ⟨State.keysRise_iff.2 ⟨?_, ?_, ?_, hc ▸ hrange, hc ▸ h99⟩, ?_, hc ▸ id, fun x hx => .inl (hmem x hx)⟩
  · rw [hr]
    exact hp.sublist (List.filter_sublist.map _)
  · intro x hx
    rw [hu, hc]
    exact hring x (hmem x hx)
  · simp only [hu, hc]
    exact hlast
  · simp [State.nextKey, hc, TicketKey.le_refl]

theorem collectTickets_keeps (payload : List Octet) (s : State) : ruleKeeps s (collectTickets payload s) := by
  unfold collectTickets
  simp only []
  split
  · trivial
  · split
    · trivial
    · exact ruleKeeps_ok
        { Kept.refl _ with ring := fun h => Nat.le_trans (List.length_filter_le _ _) h, keys := KeysGoOn.collect _ rfl rfl }

theorem closeShift_keeps (s : State) : ruleKeeps s (closeShift s) := ruleKeeps_ok { Kept.refl _ with }

/-! ### Calibration, runs and evidence -/

theorem openCalibration_keeps (s : State) : ruleKeeps s (openCalibration s) := orRefuse_keeps_of { Kept.refl _ with }

theorem writeParameter_keeps (payload : List Octet) (s : State) : ruleKeeps s (writeParameter payload s) := by
  unfold writeParameter
  simp only []
  split
  · trivial
  · exact orRefuse_keeps_of (s.kept_setStaged _)

theorem calibrateZero_keeps (payload : List Octet) (s : State) : ruleKeeps s (calibrateZero payload s) := by
  unfold calibrateZero
  simp only []
  split
  · trivial
  · split
    · trivial
    · split
      · trivial
      · split
        · exact ruleKeeps_ok (s.kept_setStaged _)
        · trivial

theorem calibrateSpan_keeps (payload : List Octet) (s : State) : ruleKeeps s (calibrateSpan payload s) := by
  unfold calibrateSpan
  simp only []
  split
  · trivial
  · split
    · trivial
    · split
      · trivial
      · split
        · trivial
        · exact ruleKeeps_ok (s.kept_setStaged _)

theorem commitCalibration_keeps (s : State) : ruleKeeps s (commitCalibration s) := by
  unfold commitCalibration
  split
  · trivial
  · split
    · trivial
    · split
      · exact ruleKeeps_ok s.kept_closeAccess
      · refine orRefuse_keeps (fun h => s.kept_commit _ (State.auditFree_of_holderMayAppend ?_))
        simpa using (refusal_eq_none.1 h) (!s.holderMayAppend, .logFull) (by simp)

theorem abandonCalibration_keeps (s : State) : ruleKeeps s (abandonCalibration s) := orRefuse_keeps_of s.kept_closeAccess

theorem archiveAuditRecords_keeps (payload : List Octet) (s : State) : ruleKeeps s (archiveAuditRecords payload s) :=
  orRefuse_keeps_of { Kept.refl _ with audit := fun h => Nat.le_trans (List.length_filter_le _ _) h }

theorem beginVerification_keeps (s : State) : ruleKeeps s (beginVerification s) :=
  orRefuse_keeps_of { Kept.refl _ with run := fun _ r hr => by cases hr; exact Nat.zero_le _ }

theorem testPoint_keeps (payload : List Octet) (s : State) : ruleKeeps s (testPoint payload s) := by
  unfold testPoint
  simp only []
  split
  · trivial
  · rename_i r hr
    refine orRefuse_keeps (fun h => { Kept.refl _ with run := fun _ r' hr' => ?_ })
    have h12 := (refusal_eq_none.1 h) (decide (12 ≤ r.points.length), .runFull) (by simp)
    rw [decide_eq_false_iff_not] at h12
    cases hr'
    simp only [Option.isSome_some, if_true]
    omega

theorem endVerification_keeps (s : State) : ruleKeeps s (endVerification s) := by
  unfold endVerification
  split
  · trivial
  · refine orRefuse_keeps (fun h => s.kept_endRun _ (State.auditFree_of_holderMayAppend ?_))
    simpa using (refusal_eq_none.1 h) (!s.holderMayAppend, .logFull) (by simp)

theorem abortVerification_keeps (s : State) : ruleKeeps s (abortVerification s) := by
  unfold abortVerification
  split
  · trivial
  · exact ruleKeeps_ok ((s.kept_endPoint _).trans { Kept.refl _ with run := fun _ => runOk_none })

theorem requestSnapshot_keeps (s : State) : ruleKeeps s (requestSnapshot s) := ruleKeeps_ok (s.kept_takeSnapshot _ _)

theorem discardSnapshot_keeps (payload : List Octet) (s : State) : ruleKeeps s (discardSnapshot payload s) := by
  unfold discardSnapshot
  split
  · trivial
  · exact orRefuse_keeps_of { Kept.refl _ with evidence := evidenceOk_filter _ }

/-! ### Faults -/

theorem writeFaultPolicy_keeps (payload : List Octet) (s : State) : ruleKeeps s (writeFaultPolicy payload s) := by
  unfold writeFaultPolicy
  split
  · exact orRefuse_keeps_of { Kept.refl _ with }
  · trivial

theorem acknowledgeMetrological_keeps (s : State) : ruleKeeps s (acknowledgeMetrological s) := by
  unfold acknowledgeMetrological
  split
  · trivial
  · exact ruleKeeps_ok { Kept.refl _ with }

theorem State.kept_acknowledge (s : State) (k : FaultKey) : Kept s (s.acknowledge k) := s.kept_setFaultEntry _ _

theorem acknowledgeFault_keeps (payload : List Octet) (s : State) : ruleKeeps s (acknowledgeFault payload s) := by
  unfold acknowledgeFault
  split
  · trivial
  · split
    · trivial
    · split
      · trivial
      · simp only []
        split
        · trivial
        · exact ruleKeeps_ok (Kept.foldl State.kept_acknowledge _ _)

theorem State.kept_unlock (s : State) (code : LockCode) (h : 1 ≤ s.auditFree) : Kept s (s.unlock code) :=
  Kept.after (State.kept_postAll _ _ _) (Kept.after (State.kept_noteNearFull _)
    ((s.kept_appendAtEpoch _ h).trans { Kept.refl _ with }))

theorem clearLockout_keeps (s : State) : ruleKeeps s (clearLockout s) := by
  unfold clearLockout
  split
  · trivial
  · refine orRefuse_keeps (fun h => s.kept_unlock _ (State.auditFree_of_lockoutMayAppend ?_))
    simpa using (refusal_eq_none.1 h) (!s.lockoutMayAppend, .logFull) (by simp)

/-! ### Replies -/

/-- One port replaced by one within its bounds. -/
theorem State.stepped_setPort (s : State) (p : Port) (q : PortState)
    (h : (s.port p).bounded = true → q.bounded = true) : Stepped s (s.setPort p q) :=
  { (Kept.refl s).stepped with
    toHeld := by cases p <;> exact { Kept.refl _ with }
    keys := by cases p <;> exact KeysGoOn.of_same rfl rfl rfl rfl rfl
    ports := by
      simp only [State.ports_bounded_iff]
      intro hb p'
      by_cases hp : p' = p
      · rw [hp, State.port_setPort]
        exact h (hb p)
      · rw [State.port_setPort_other s hp]
        exact hb p' }

theorem State.stepped_setReceiver (s : State) (p : Port) (r : Receiver) : Stepped s (s.setReceiver p r) :=
  s.stepped_setPort p _ id

theorem State.stepped_hunt (s : State) (p : Port) : Stepped s (s.hunt p) := s.stepped_setPort p _ id

/-- R195: a reply joins a port where none is pending, or, a BUSY, one where an answer is. -/
theorem State.stepped_putReply (s : State) (p : Port) (kind : Nat) (tag : Octet) (st : Status) (c : Content)
    (h : (s.port p).replies = [] ∨ (st = .busy ∧ (s.port p).replies.any (fun r => r.status = .busy) = false)) :
    Stepped s (s.putReply p kind tag st c) := by
  refine s.stepped_setPort p _ (fun hb => ?_)
  simp only [PortState.bounded, Bool.and_eq_true, decide_eq_true_eq] at hb ⊢
  refine ⟨hb.1, ?_⟩
  rcases h with h | ⟨rfl, hn⟩
  · simp [h]
  · revert hn hb
    generalize (s.port p).replies = rs
    intro hb hn
    match rs with
    | [] => rfl
    | [a] => simpa using hn
    | [a, b] => simp_all
    | _ :: _ :: _ :: _ => simp at hb

/-- What the judgement of a frame finds pending on its port (R195). -/
theorem State.frameGate_pending (s : State) (p : Port) (kind : Nat) (payload : List Octet) :
    match s.frameGate p kind payload with
    | .discard => True
    | .answer st => (s.port p).replies = [] ∨ (st = .busy ∧ (s.port p).replies.any (fun r => r.status = .busy) = false)
    | .take => (s.port p).replies = [] := by
  unfold State.frameGate
  simp only []
  by_cases hb : (s.port p).replies.any (fun r => r.status = .busy) = true
  · simp [hb]
  · rw [if_neg hb]
    by_cases he : (s.port p).replies = []
    · simp only [he, List.isEmpty_nil, Bool.not_true, Bool.false_eq_true, if_false]
      split <;> simp
    · rw [if_pos (by simpa using he)]
      exact .inr ⟨rfl, by simpa using hb⟩

/-- A request keeps what its rule keeps. -/
theorem serve_stepped (kind : Nat) (p : Port) (tag : Octet) (payload : List Octet) {rule : State → Taken}
    (h : ∀ s, ruleKeeps s (rule s)) (s : State) : Stepped s (serve kind p tag payload rule s) := by
  unfold serve
  simp only []
  have hg := (s.hunt p).frameGate_pending p kind payload
  refine (s.stepped_hunt p).trans ?_
  generalize s.hunt p = t at hg
  revert hg
  cases t.frameGate p kind payload with
  | discard => exact fun _ => (Kept.refl t).stepped
  | answer st => exact fun hg => t.stepped_putReply p kind tag st .empty hg
  | take =>
    intro hg
    have hk := h t
    revert hk
    cases rule t with
    | error code => exact fun _ => t.stepped_putReply p kind tag code .empty (.inl hg)
    | ok r =>
      intro hk
      obtain ⟨u, st, c⟩ := r
      have he : Kept t (event t u) := Kept.event hk
      exact he.stepped.trans (State.stepped_putReply _ p kind tag st c (.inl ((he.ports p).replies.trans hg)))

theorem serveRead_stepped (kind : Nat) (p : Port) (tag : Octet) (payload : List Octet)
    (rule : State → Except Status Content) (s : State) : Stepped s (serveRead kind p tag payload rule s) := by
  unfold serveRead
  simp only []
  have hg := (s.hunt p).frameGate_pending p kind payload
  refine (s.stepped_hunt p).trans ?_
  generalize s.hunt p = t at hg
  revert hg
  cases t.frameGate p kind payload with
  | discard => exact fun _ => (Kept.refl t).stepped
  | answer st => exact fun hg => t.stepped_putReply p kind tag st .empty hg
  | take =>
    intro hg
    cases rule t with
    | error code => exact t.stepped_putReply p kind tag code .empty (.inl hg)
    | ok c => exact t.stepped_putReply p kind tag .ok c (.inl hg)

end Sys2Proof.Machine
end

