-- ==== Sys2Proof/Proofs/BoundsStep.lean ====
section
/-! Every command, and so every step, keeps the stores, the tables, the ticket keys and the ports. -/

namespace Sys2Proof.Machine

/-! ### Requests by their kind -/

theorem act_stepped {f : State → State} {s t : State} (hf : ∀ s, Kept s (f s)) (h : act f s = .next t) :
    Stepped s t := by
  cases h
  split
  · exact (hf s).stepped
  · exact (Kept.refl s).stepped

theorem request_stepped {kind : Nat} {p : Port} {tag : Octet} {payload : List Octet} {rule : State → Taken}
    {s t : State} (hr : ∀ s, ruleKeeps s (rule s)) (h : request kind p tag payload rule s = .next t) :
    Stepped s t := by
  cases h
  split
  · exact serve_stepped kind p tag payload hr s
  · exact (Kept.refl s).stepped

theorem readRequest_stepped {kind : Nat} {p : Port} {tag : Octet} {payload : List Octet}
    {rule : State → Except Status Content} {s t : State} (h : readRequest kind p tag payload rule s = .next t) :
    Stepped s t := by
  cases h
  split
  · exact serveRead_stepped kind p tag payload rule s
  · exact (Kept.refl s).stepped

/-- R194: a good frame of any kind, in the order of the catalogue. -/
theorem routeFrame_stepped {p : Port} {kind : Nat} {tag : Octet} {payload : List Octet} {s t : State}
    (h : routeFrame p kind tag payload s = .next t) : Stepped s t := by
  unfold routeFrame at h
  split at h
  · exact request_stepped (fetchNotice_keeps p) h
  · exact request_stepped (setSiteTime_keeps payload) h
  · exact readRequest_stepped h
  · exact request_stepped (writeSiteSetting_keeps payload) h
  · exact readRequest_stepped h
  · exact readRequest_stepped h
  · exact readRequest_stepped h
  · exact readRequest_stepped h
  · exact readRequest_stepped h
  · exact request_stepped zeroSet_keeps h
  · exact request_stepped (requestCapture_keeps p tag) h
  · exact readRequest_stepped h
  · exact request_stepped (reportArrival_keeps payload) h
  · exact request_stepped (withdrawArrival_keeps payload) h
  · exact request_stepped releaseVehicle_keeps h
  · exact request_stepped clearBridge_keeps h
  · exact request_stepped (holdBridge_keeps p) h
  · exact request_stepped (releaseHold_keeps p) h
  · exact readRequest_stepped h
  · exact request_stepped (writeConfiguration_keeps payload) h
  · exact request_stepped (clearConfiguration_keeps payload) h
  · exact readRequest_stepped h
  · exact request_stepped restartWeighing_keeps h
  · exact readRequest_stepped h
  · exact request_stepped releaseTrace_keeps h
  · exact readRequest_stepped h
  · exact request_stepped (expireVisits_keeps payload) h
  · exact request_stepped (openVisit_keeps payload) h
  · exact request_stepped (amendVisit_keeps payload) h
  · exact request_stepped (cancelVisit_keeps payload) h
  · exact readRequest_stepped h
  · exact readRequest_stepped h
  · exact request_stepped (checkTare_keeps payload) h
  · exact request_stepped (keyTare_keeps payload) h
  · exact request_stepped flushTares_keeps h
  · exact request_stepped (deleteTare_keeps p payload) h
  · exact readRequest_stepped h
  · exact readRequest_stepped h
  · exact request_stepped rollTicketSeries_keeps h
  · exact request_stepped (collectTickets_keeps payload) h
  · exact readRequest_stepped h
  · exact readRequest_stepped h
  · exact request_stepped closeShift_keeps h
  · exact readRequest_stepped h
  · exact readRequest_stepped h
  · exact request_stepped openCalibration_keeps h
  · exact request_stepped (writeParameter_keeps payload) h
  · exact readRequest_stepped h
  · exact readRequest_stepped h
  · exact request_stepped (calibrateZero_keeps payload) h
  · exact request_stepped (calibrateSpan_keeps payload) h
  · exact request_stepped commitCalibration_keeps h
  · exact request_stepped abandonCalibration_keeps h
  · exact readRequest_stepped h
  · exact readRequest_stepped h
  · exact request_stepped (archiveAuditRecords_keeps payload) h
  · exact request_stepped beginVerification_keeps h
  · exact request_stepped (testPoint_keeps payload) h
  · exact request_stepped endVerification_keeps h
  · exact request_stepped abortVerification_keeps h
  · exact readRequest_stepped h
  · exact request_stepped requestSnapshot_keeps h
  · exact readRequest_stepped h
  · exact readRequest_stepped h
  · exact request_stepped (discardSnapshot_keeps payload) h
  · exact request_stepped (writeFaultPolicy_keeps payload) h
  · exact request_stepped acknowledgeMetrological_keeps h
  · exact request_stepped (acknowledgeFault_keeps payload) h
  · exact request_stepped clearLockout_keeps h
  · exact readRequest_stepped h
  · exact request_stepped restartRequest_keeps h
  · exact readRequest_stepped h
  · exact request_stepped (rule := fun _ => .error .notPermitted) (fun _ => trivial) h

/-! ### The start sequence -/

theorem le_foldl_max (l : List Nat) (a : Nat) : a ≤ l.foldl max a ∧ ∀ x ∈ l, x ≤ l.foldl max a := by
  induction l generalizing a with
  | nil => exact ⟨Nat.le_refl a, nofun⟩
  | cons b rest ih =>
    obtain ⟨h1, h2⟩ := ih (max a b)
    refine ⟨Nat.le_trans (Nat.le_max_left a b) h1, fun x hx => ?_⟩
    rcases List.mem_cons.1 hx with rfl | hx
    · exact Nat.le_trans (Nat.le_max_right a x) h1
    · exact h2 x hx

theorem series_le_highestSeries {ring : List Ticket} {x : Ticket} (h : x ∈ ring) :
    x.key.series ≤ highestSeries ring :=
  (le_foldl_max _ 0).2 _ (List.mem_map.2 ⟨x, h, rfl⟩)

/-- Every used key is at most the greatest. -/
theorem State.keyUsed_le_greatest {s : State} (hs : s.keysRise = true) {k : TicketKey} (h : s.keyUsed k = true) :
    k.le .greatest = true := by
  obtain ⟨-, -, -, ⟨-, h2, -, h4⟩, -⟩ := State.keysRise_iff.1 hs
  unfold State.keyUsed at h
  split at h
  · exact h
  · exact TicketKey.le_trans (TicketKey.le_of_lt h) (State.nextKey_le_greatest h2 h4)

/-- R204: lost regions at their defaults keep the bounds of the stores. -/
theorem State.held_checkRegions (s : State) (l : LostRegions) : Held s (s.checkRegions l) := by
  obtain ⟨calibration, audit, visits, tares, tickets, site, evidence⟩ := l
  have h : Held s
      { s with
        audit := if audit then .defaults else s.audit
        visits := if visits then [] else s.visits
        tares := if tares then .defaults else s.tares
        tickets := if tickets then .defaults else s.tickets
        site := if site then .defaults else s.site
        evidence := if evidence then [] else s.evidence } :=
    { (Kept.refl s).toHeld with
      audit := by cases audit <;> simp [Audit.defaults]
      ring := by cases tickets <;> simp [Tickets.defaults]
      evidence := by cases evidence <;> simp [evidenceOk]
      visits := by
        cases visits
        · exact TableKept.refl _
        · exact TableKept.nil _
      slots := by
        cases tares
        · exact TableKept.refl _
        · exact TableKept.nil _
      pointer := by cases tares <;> simp [Tares.defaults]
      catalogue := by cases site <;> simp [Site.defaults, Table.sorted, Table.sortedFrom] }
  unfold State.checkRegions
  simp only []
  cases calibration
  · exact h
  · refine h.trans ?_
    cases audit
    · exact { (Kept.refl _).toHeld with }
    · refine Held.trans ?_ (State.kept_dropLearned _).toHeld
      exact { (Kept.refl _).toHeld with }

/-- R204: the ring and the sequence where CALIBRATION is good. -/
theorem KeysGoOn.checkRegions {s : State} {l : LostRegions} (hl : l.calibration = false) (hs : s.keysRise = true) :
    KeysGoOn s (s.checkRegions l) := by
  refine KeysGoOn.collect (fun _ => !l.tickets) ?_ ?_ hs
  · cases ht : l.tickets <;> simp [State.checkRegions, hl, ht, Tickets.defaults]
  · simp [State.checkRegions, hl]

/-- R205: the sequence recovered from the ring goes on above its highest series, or is exhausted. -/
theorem State.keysRise_recovered {s t : State} {p : Ticket → Bool} (hr : t.tickets.ring = s.tickets.ring.filter p)
    (hs : t.cal.series = if highestSeries t.tickets.ring < 99 then highestSeries t.tickets.ring + 1 else 99)
    (hn : t.cal.nextNumber = 1) (hx : t.cal.exhausted = decide (99 ≤ highestSeries t.tickets.ring))
    (hl : t.cal.lastKey = none) (h : s.keysRise = true) : t.keysRise = true := by
  obtain ⟨hp, hring, -, -, -⟩ := State.keysRise_iff.1 h
  refine State.keysRise_iff.2 ⟨?_, ?_, by simp [hl], ?_, ?_⟩
  · rw [hr]
    exact hp.sublist (List.filter_sublist.map _)
  · intro x hx'
    refine ⟨?_, by simp [hl]⟩
    unfold State.keyUsed
    split
    · exact State.keyUsed_le_greatest h (hring x (List.mem_filter.1 (hr ▸ hx')).1).1
    · rename_i hne
      have htop := series_le_highestSeries hx'
      rw [hx, decide_eq_true_eq, Nat.not_le] at hne
      rw [if_pos hne] at hs
      rw [TicketKey.lt_iff]
      simp only [State.nextKey, hs]
      omega
  · rw [hs, hn]
    split <;> omega
  · rw [hx, hs, decide_eq_true_eq]
    intro h99
    rw [if_neg (Nat.not_lt.2 h99)]

theorem State.keysRise_checkRegions {s : State} (l : LostRegions) (hs : s.keysRise = true) :
    (s.checkRegions l).keysRise = true := by
  cases hc : l.calibration with
  | false => exact (KeysGoOn.checkRegions hc hs).rise
  | true =>
    have ht : (s.checkRegions l).tickets = if l.tickets then Tickets.defaults else s.tickets := by
      simp only [State.checkRegions, hc, if_true, Bool.true_and]
      split <;> rfl
    have hcal : (s.checkRegions l).cal.series =
          (if highestSeries (s.checkRegions l).tickets.ring < 99 then highestSeries (s.checkRegions l).tickets.ring + 1
            else 99) ∧
        (s.checkRegions l).cal.nextNumber = 1 ∧
        (s.checkRegions l).cal.exhausted = decide (99 ≤ highestSeries (s.checkRegions l).tickets.ring) ∧
        (s.checkRegions l).cal.lastKey = none := by
      simp only [State.checkRegions, hc, if_true, Bool.true_and]
      split <;> exact ⟨rfl, rfl, rfl, rfl⟩
    obtain ⟨h1, h2, h3, h4⟩ := hcal
    refine State.keysRise_recovered (p := fun _ => !l.tickets) ?_ h1 h2 h3 h4 hs
    rw [ht]
    cases l.tickets <;> simp [Tickets.defaults]

/-- R208: every block's volatile state as after a start. -/
theorem State.stepped_resetVolatile (s : State) : Stepped s s.resetVolatile :=
  { (Kept.refl s).stepped with
    overruns := fun _ => by
      have h := Bus.reset.markRecords_overruns s.cal.committed
      exact Nat.le_trans (Nat.le_of_eq h) (Nat.zero_le 3)
    histories := fun _ => nofun
    window := fun _ => Nat.zero_le _
    samples := fun _ => Nat.zero_le _
    events := fun _ => Nat.zero_le _
    queues := fun _ _ => Nat.zero_le _
    visits := TableKept.map _ (fun _ => rfl)
    run := fun _ => runOk_none
    register := fun _ => rfl
    records := fun _ => Bus.sorted_markRecords (b := Bus.reset) _ rfl
    ports := fun _ => rfl }

theorem State.kept_judgeAccessMarks (s : State) : Kept s s.judgeAccessMarks :=
  (Kept.ite (s.kept_enterLockout _) (Kept.refl s)).trans { Kept.refl _ with }

/-- R208: what follows the check of the regions. -/
theorem State.stepped_startSequence (s : State) (cause : StartCause) (l : LostRegions) :
    Stepped (({ s with writes := [] } : State).checkRegions l) (s.startSequence cause l) := by
  unfold State.startSequence
  simp only []
  have h3 : Kept (({ s with writes := [] } : State).checkRegions l)
      ((({ s with writes := [] } : State).rewriteLost l).writeStartRecord cause l) :=
    Kept.after (State.kept_beginWrite _ _) ((State.kept_beginWrite _ _).trans { Kept.refl _ with })
  generalize (({ s with writes := [] } : State).rewriteLost l).writeStartRecord cause l = t3 at h3
  have h4 := (h3.stepped.trans t3.stepped_resetVolatile).trans (kept_retain t3 t3.resetVolatile).stepped
  generalize retain t3 t3.resetVolatile = t4 at h4
  refine h4.trans (Kept.stepped ?_)
  have h5 : Kept t4 (if l.calibration || l.audit then event t4 (t4.enterLockout .calibrationLost) else t4) :=
    Kept.ite (t4.kept_enterLockout _).event (Kept.refl t4)
  refine ((h5.trans (State.kept_judgeAccessMarks _).event).trans ?_).trans (State.kept_startRound _)
  exact (Kept.foldl (fun t c => (t.kept_raiseFault (regionKey c) none).event) _ _).trans { Kept.refl _ with }

/-! ### Commands -/

theorem State.stepped_replySent (s : State) (p : Port) : Stepped s (s.replySent p) := by
  unfold State.replySent
  split
  · exact (Kept.refl s).stepped
  · rename_i r rest hr
    have h : Stepped s (s.setPort p { s.port p with replies := rest }) := by
      refine s.stepped_setPort p _ (fun hb => ?_)
      simp only [PortState.bounded, Bool.and_eq_true, decide_eq_true_eq, hr] at hb ⊢
      refine ⟨hb.1, ?_⟩
      match rest with
      | [] => rfl
      | [b] => rfl
      | _ :: _ :: _ => exact absurd hb.2 (by simp)
    simp only []
    split
    · exact h.trans (State.kept_beginStart _ _).stepped
    · exact h

theorem execOctetReceived_stepped {p : Port} {o : Octet} {s t : State} (h : execOctetReceived p o s = .next t) :
    Stepped s t := by
  unfold execOctetReceived at h
  split at h
  · split at h
    · cases h
      exact s.stepped_setReceiver p _
    · exact routeFrame_stepped h
  · cases h
    exact (Kept.refl s).stepped

/-- A command that answers an operation of a block. -/
theorem stepped_of_next {s t u : State} (h : (Host.Outcome.next u : Host.Outcome State Fault Refusal) = .next t)
    (k : Kept s u) : Stepped s t := by
  cases h
  exact k.stepped

/-- Every command but a start keeps the stores, the sequence and the ports. -/
theorem exec_stepped {c : Instr} {s t : State} (h : exec c s = .next t) (hc : ∀ lost, c ≠ .startSequence lost) :
    Stepped s t := by
  cases hf : frameOf c with
  | some f =>
    rw [← routeFrame_eq_exec s hf] at h
    exact routeFrame_stepped h
  | none =>
    cases c with
    | cellAnswer a => exact act_stepped (fun s => s.kept_answer a) h
    | replyWindowClose => exact act_stepped State.kept_windowCloses h
    | roundPeriodExpiry => exact act_stepped State.kept_periodExpires h
    | treadleEvent e dir =>
      exact act_stepped (fun s => (s.kept_restartPoint.trans (State.kept_treadle _ e dir)).event) h
    | lampFeedbackChange e lit =>
      exact stepped_of_next h (Kept.ite (s.kept_setLamps e lit).event (s.kept_setLamps e lit))
    | feedbackTimerExpiry e => exact act_stepped (fun s => (s.kept_feedbackExpires e).event) h
    | calibrationSwitchChange on =>
      exact stepped_of_next h (Kept.ite (s.kept_switchChange on).event { Kept.refl _ with })
    | supplyFall => exact stepped_of_next h (Kept.ite (Kept.refl s) (Kept.ite s.kept_fall.event { Kept.refl _ with }))
    | supplyReturn => exact stepped_of_next h (Kept.ite (Kept.refl s) (Kept.ite s.kept_returns { Kept.refl _ with }))
    | dipTimerExpiry =>
      exact stepped_of_next h (Kept.ite (Kept.after (kept_retain s _) { Kept.refl _ with }) (Kept.refl s))
    | powerOn => exact stepped_of_next h (s.kept_beginStart _)
    | resetLine => exact stepped_of_next h (s.kept_beginStart _)
    | startSequence lost => exact absurd rfl (hc lost)
    | captureTimeout => exact act_stepped (fun s => (s.kept_refuseWaiting _ _).event) h
    | grantTimerExpiry => exact act_stepped (fun s => s.kept_grantExpires.event) h
    | quietTimerExpiry => exact act_stepped (fun s => s.kept_quietExpires.event) h
    | trackingTimerExpiry => exact act_stepped (fun s => s.kept_trackZero.event) h
    | testPointTimeout => exact act_stepped (fun s => (s.kept_endPoint _).event) h
    | poweredSecond => exact act_stepped (fun s => s.kept_second.event) h
    | visitTimeout position => exact act_stepped (fun s => (s.kept_timeoutVisit position).event) h
    | frameGapTimeout p =>
      cases h
      split
      · exact s.stepped_hunt p
      · exact (Kept.refl s).stepped
    | badFrame p =>
      cases h
      split
      · exact s.stepped_hunt p
      · exact (Kept.refl s).stepped
    | unknownKind p kind tag payload => exact routeFrame_stepped h
    | replySent p =>
      cases h
      split
      · exact s.stepped_replySent p
      · exact (Kept.refl s).stepped
    | retainedWriteComplete => exact stepped_of_next h s.kept_writeCompletes
    | commitWriteComplete => exact stepped_of_next h s.kept_commitCompletes
    | pollSent => exact act_stepped State.kept_pollSent h
    | octetReceived p o => exact execOctetReceived_stepped h
    | _ => cases hf

/-- A start keeps the stores and the ports and leaves keys that rise; where CALIBRATION is good the sequence goes on. -/
theorem exec_startSequence_kept {lost : LostRegions} {s t : State} (h : exec (.startSequence lost) s = .next t) :
    Held s t ∧ (s.ports.bounded = true → t.ports.bounded = true) ∧ (s.keysRise = true → t.keysRise = true) ∧
      (lost.calibration = false → s.keysRise = true → KeysGoOn s t) := by
  have hrefl : Stepped s s := (Kept.refl s).stepped
  simp only [exec, execStartSequence, Host.Outcome.next.injEq] at h
  split at h
  · subst h
    exact ⟨hrefl.toHeld, id, id, fun _ => hrefl.keys⟩
  · rename_i cause _
    split at h
    · subst h
      have hw : Kept s { s with writes := [] } := { Kept.refl _ with }
      have hrest := s.stepped_startSequence cause lost
      have hports : (({ s with writes := [] } : State).checkRegions lost).ports = s.ports := by simp
      refine ⟨(hw.toHeld.trans (State.held_checkRegions _ lost)).trans hrest.toHeld, ?_, ?_, ?_⟩
      · rw [← hports]
        exact hrest.ports
      · exact fun hs => (hrest.keys (State.keysRise_checkRegions lost (hw.keys hs).rise)).rise
      · exact fun hl hs =>
          have hk := (hw.keys hs).trans (KeysGoOn.checkRegions hl (hw.keys hs).rise)
          hk.trans (hrest.keys hk.rise)
    · subst h
      exact ⟨hrefl.toHeld, id, id, fun _ => hrefl.keys⟩

/-! ### Steps -/

/-- What every step keeps of the stores, the ports and the keys. -/
theorem step_kept {s t : State} (h : step s = .next t) :
    Held s t ∧ (s.ports.bounded = true → t.ports.bounded = true) ∧ (s.keysRise = true → t.keysRise = true) ∧
      ((∀ lost, s.pending.head? = some (.startSequence lost) → lost.calibration = false) → s.keysRise = true →
        KeysGoOn s t) := by
  unfold step at h
  split at h
  · cases h
    have hrefl : Stepped s s := (Kept.refl s).stepped
    exact ⟨hrefl.toHeld, id, id, fun _ => hrefl.keys⟩
  · rename_i c rest hp
    have hq : Stepped s { s with pending := rest } := { (Kept.refl s).stepped with }
    by_cases hc : ∃ lost, c = .startSequence lost
    · obtain ⟨lost, rfl⟩ := hc
      obtain ⟨h1, h2, h3, h4⟩ := exec_startSequence_kept h
      refine ⟨hq.toHeld.trans h1, h2, fun hs => h3 (hq.keys hs).rise, fun hl hs => ?_⟩
      exact (hq.keys hs).trans (h4 (hl lost (by rw [hp]; rfl)) (hq.keys hs).rise)
    · have ht := hq.trans (exec_stepped h (fun lost hl => hc ⟨lost, hl⟩))
      exact ⟨ht.toHeld, ht.ports, fun hs => (ht.keys hs).rise, fun _ => ht.keys⟩

/-- The bounds of the stores, clause by clause. -/
theorem State.storesBounded_iff (s : State) :
    s.storesBounded = true ↔ s.audit.records.length ≤ 200 ∧ s.tickets.ring.length ≤ 64 ∧ evidenceOk s.evidence ∧
      s.bus.overruns ≤ 3 ∧ (∀ e ∈ s.weigh.histories, e.2.length ≤ 16) ∧ s.weigh.window.length ≤ 32 ∧
      s.axles.trace.samples.length ≤ 512 ∧ s.axles.trace.events.length ≤ 4 ∧ queuesOk s.bridge.waiting ∧
      (∀ e ∈ s.visits, e.1 < 256) ∧ (∀ e ∈ s.tares.slots, e.1 < 96) ∧ s.tares.pointer < 96 ∧ runOk s.run := by
  have hq : queuesOk s.bridge.waiting ↔ s.queueLength .a ≤ 8 ∧ s.queueLength .b ≤ 8 := by
    simp only [State.queueLength_eq]
    exact ⟨fun h => ⟨h .a, h .b⟩, fun ⟨ha, hb⟩ e => by cases e <;> assumption⟩
  have hr : runOk s.run ↔
      s.run.all (fun r => decide (r.points.length + (if r.waiting.isSome then 1 else 0) ≤ 12)) = true := by
    cases s.run <;> simp [runOk]
  simp only [State.storesBounded, hq, hr, evidenceOk, Bool.and_eq_true, decide_eq_true_eq, List.all_eq_true, and_assoc]

theorem Held.storesBounded {s t : State} (h : Held s t) (hs : s.storesBounded = true) : t.storesBounded = true := by
  rw [State.storesBounded_iff] at hs ⊢
  obtain ⟨h1, h2, h3, h4, h5, h6, h7, h8, h9, h10, h11, h12, h13⟩ := hs
  exact ⟨h.audit h1, h.ring h2, h.evidence h3, h.overruns h4, h.histories h5, h.window h6, h.samples h7, h.events h8,
    h.queues h9, h.visits.below h10, h.slots.below h11, h.pointer h12, h.run h13⟩

theorem Held.tablesSorted {s t : State} (h : Held s t) (hs : s.tablesSorted = true) : t.tablesSorted = true := by
  simp only [State.tablesSorted, Bool.and_eq_true] at hs ⊢
  obtain ⟨⟨⟨⟨h1, h2⟩, h3⟩, h4⟩, h5⟩ := hs
  exact ⟨⟨⟨⟨h.visits.sorted h1, h.slots.sorted h2⟩, h.catalogue h3⟩, h.register h4⟩, h.records h5⟩

/-- Settles O58: each operation of the model is related by `Kept` to the state it finds, the relation is transitive, and
every step is made of such operations, a start alone setting the sequence anew. -/
theorem everyStepKeepsStoresAndPortsBounded : Obligations.EveryStepKeepsStoresAndPortsBounded := by
  unfold Obligations.EveryStepKeepsStoresAndPortsBounded
  refine ⟨⟨fun s t hs h => (step_kept h).1.storesBounded hs, fun s t hs h => (step_kept h).1.tablesSorted hs⟩,
    fun s t hs h => (step_kept h).2.1 hs, fun s t hs h => (step_kept h).2.2.1 hs, fun s t hs h hl => ?_⟩
  obtain ⟨-, -, -, hk⟩ := step_kept h
  exact (hk hl hs).2

end Sys2Proof.Machine
end

