-- ==== Sys2Proof/Proofs/CellAnswers.lean ====
section
/-! The reads of the cell bus and of the weighing (R15, R35), and what the octets of an answer spell (R3). -/

namespace Sys2Proof.Machine

/-! ### Reads -/

/-- A read that is taken and finds its content answers it. -/
theorem readRequest_content {s : State} {p : Port} {kind : Nat} {tag : Octet} {payload : List Octet} {c : Content}
    {rule : State → Except Status Content} (h : s.accepts p kind payload = true) (hc : rule (s.hunt p) = .ok c) :
    readRequest kind p tag payload rule s = .next (s.answered p kind tag .ok c) := by
  rw [readRequest_of_accepts rule h, hc]

/-- A read that is taken and refused answers its code. -/
theorem readRequest_error {s : State} {p : Port} {kind : Nat} {tag : Octet} {payload : List Octet} {code : Status}
    {rule : State → Except Status Content} (h : s.accepts p kind payload = true) (hc : rule (s.hunt p) = .error code) :
    readRequest kind p tag payload rule s = .next (s.answered p kind tag code .empty) := by
  rw [readRequest_of_accepts rule h, hc]

theorem readCell_of_address {payload : List Octet} (s : State) (h1 : 1 ≤ natAt payload 0 1)
    (h16 : natAt payload 0 1 ≤ 16) : readCell payload s = .ok (.cell (s.bus.record (natAt payload 0 1))) :=
  if_pos ⟨h1, h16⟩

theorem readCell_of_no_address {payload : List Octet} (s : State)
    (h : ¬(1 ≤ natAt payload 0 1 ∧ natAt payload 0 1 ≤ 16)) : readCell payload s = .error .noSuchCell :=
  if_neg h

/-- The four reads look past the receiver that hunts again. -/
theorem readCell_hunt (payload : List Octet) (s : State) (p : Port) :
    readCell payload (s.hunt p) = readCell payload s := by cases p <;> rfl

theorem readBusStatus_hunt (s : State) (p : Port) : readBusStatus (s.hunt p) = readBusStatus s := by cases p <;> rfl

theorem readLiveWeight_hunt (s : State) (p : Port) : readLiveWeight (s.hunt p) = readLiveWeight s := by
  cases p <;> rfl

theorem readDeckValues_hunt (s : State) (p : Port) : readDeckValues (s.hunt p) = readDeckValues s := by
  cases p <;> rfl

/-- Settles O7: each of the four commands is a read whose rule answers the content that the statement names. -/
theorem cellBusAndWeighingReads : Obligations.CellBusAndWeighingReads := by
  unfold Obligations.CellBusAndWeighingReads
  refine ⟨⟨?_, ?_, fun s p tag payload => ⟨fun h h1 h16 => ?_, fun h hn => ?_, fun h => ?_⟩⟩,
    ?_, ?_, fun s p tag payload => ⟨fun h => ?_, fun h => ?_⟩⟩
  · exact fun p => by cases p <;> decide
  · exact fun p => by cases p <;> decide
  · exact readRequest_content h ((readCell_hunt payload s p).trans (readCell_of_address s h1 h16))
  · exact readRequest_error h ((readCell_hunt payload s p).trans (readCell_of_no_address s hn))
  · exact readRequest_content h (readBusStatus_hunt s p)
  · exact fun p => by cases p <;> decide
  · exact fun p => by cases p <;> decide
  · exact readRequest_content h (readLiveWeight_hunt s p)
  · exact readRequest_content h (readDeckValues_hunt s p)

/-! ### Octets as numbers (R3, R201) -/

/-- An octet put behind a word: the word is shifted by eight places. -/
theorem toNat_append_octet {n : Nat} (x : BitVec n) (o : Octet) : (x ++ o).toNat = 256 * x.toNat + o.toNat := by
  rw [BitVec.toNat_append, ← Nat.shiftLeft_add_eq_or_of_lt o.isLt, Nat.shiftLeft_eq]
  omega

/-- The number that four octets spell is that of the word they make. -/
theorem natOf_four (s3 s2 s1 s0 : Octet) : natOf [s3, s2, s1, s0] = (s3 ++ s2 ++ s1 ++ s0 : BitVec 32).toNat := by
  simp [natOf, toNat_append_octet]

/-- The signed number that three octets spell is that of the word they make. -/
theorem intOf_three (c2 c1 c0 : Octet) : intOf [c2, c1, c0] = (c2 ++ c1 ++ c0 : BitVec 24).toInt := by
  have hn : natOf [c2, c1, c0] = (c2 ++ c1 ++ c0 : BitVec 24).toNat := by simp [natOf, toNat_append_octet]
  rw [BitVec.toInt_eq_toNat_cond, ← hn]
  simp [intOf]

theorem checkOctet_ten (a0 a1 s3 s2 s1 s0 c2 c1 c0 st : Octet) :
    checkOctet [a0, a1, s3, s2, s1, s0, c2, c1, c0, st] =
      a0 ^^^ a1 ^^^ s3 ^^^ s2 ^^^ s1 ^^^ s0 ^^^ c2 ^^^ c1 ^^^ c0 ^^^ st := by
  simp [checkOctet]

/-- A status octet is one of the three. -/
theorem cellStatusOf_eq_some {st : Octet} {c : CellStatus} :
    cellStatusOf st.toNat = some c ↔
      (st = 0#8 ∧ c = .ok) ∨ (st = 1#8 ∧ c = .overRange) ∨ (st = 2#8 ∧ c = .internalFault) := by
  have hz : ∀ k : Octet, st = k ↔ st.toNat = k.toNat := fun k => BitVec.toNat_inj.symm
  rw [hz, hz, hz]
  generalize st.toNat = n
  match n with
  | 0 => simp [cellStatusOf, eq_comm]
  | 1 => simp [cellStatusOf, eq_comm]
  | 2 => simp [cellStatusOf, eq_comm]
  | n + 3 => simp [cellStatusOf]

theorem cellStatusOf_isSome {n : Nat} : (cellStatusOf n).isSome = true ↔ n ≤ 2 := by
  match n with
  | 0 => decide
  | 1 => decide
  | 2 => decide
  | n + 3 => simp [cellStatusOf]

/-- Eleven octets are a reply exactly where they begin with 0x5A, carry the address, end with the check octet and have
one of the three statuses; the reply's fields are those that the octets spell. -/
theorem cellReply_eleven {a0 a1 s3 s2 s1 s0 c2 c1 c0 st ck : Octet} {address : Nat} :
    cellReply [a0, a1, s3, s2, s1, s0, c2, c1, c0, st, ck] address =
      if a0 = 0x5A#8 ∧ a1.toNat = address ∧
          ck = a0 ^^^ a1 ^^^ s3 ^^^ s2 ^^^ s1 ^^^ s0 ^^^ c2 ^^^ c1 ^^^ c0 ^^^ st then
        (cellStatusOf st.toNat).map (fun c =>
          { serial := natOf [s3, s2, s1, s0], count := intOf [c2, c1, c0], status := c })
      else none := by
  have h0 : a0.toNat = 0x5A ↔ a0 = 0x5A#8 := BitVec.toNat_inj (y := 0x5A#8)
  have one : ∀ o : Octet, natOf [o] = o.toNat := fun o => by simp [natOf]
  simp only [cellReply, natAt, intAt, field, List.drop, List.take, List.headD, one, h0, checkOctet_ten,
    List.length_cons, List.length_nil, true_and, eq_comm (b := ck)]
  refine if_congr Iff.rfl ?_ rfl
  cases cellStatusOf st.toNat <;> rfl

/-! ### Polls and their windows (R3) -/

/-- The last octet of a poll opens its window. -/
theorem exec_pollSent {s : State} {i : Nat} (hr : s.running = true) (hp : s.bus.poll = .sending i) :
    exec .pollSent s = .next { s with bus.poll := .window i [] } := by
  simp [exec, execPollSent, act, State.pollSent, hr, hp]

/-- With no window open an answer is discarded. -/
theorem exec_cellAnswer_no_window {s : State} (a : List Octet) (hr : s.running = true)
    (hp : ∀ i received, s.bus.poll ≠ .window i received) : exec (.cellAnswer a) s = .next s := by
  have hs : s.answer a = s := by
    unfold State.answer
    split
    · exact absurd ‹_› (hp _ _)
    · rfl
  simp [exec, execCellAnswer, act, hr, hs]

/-- An answer that is no reply yet is kept by its window, which stays open. -/
theorem exec_cellAnswer_no_reply {s : State} {i : Nat} {received a : List Octet} (hr : s.running = true)
    (hp : s.bus.poll = .window i received) (hn : cellReply (answerReceived received a) i = none) :
    exec (.cellAnswer a) s = .next { s with bus.poll := .window i (answerReceived received a) } := by
  simp [exec, execCellAnswer, act, State.answer, hr, hp, hn]

/-- Settles O13: the commands of a poll by the form of the poll, and a reply by its octets. -/
theorem pollsOpenAWindowAndDiscardWhatIsNoReply : Obligations.PollsOpenAWindowAndDiscardWhatIsNoReply := by
  unfold Obligations.PollsOpenAWindowAndDiscardWhatIsNoReply
  refine ⟨fun s i hr _ hp => exec_pollSent hr hp, fun s a hr _ hp => exec_cellAnswer_no_window a hr hp,
    fun s a received i hr _ hp => ⟨exec_cellAnswer_no_reply hr hp, fun r h => ?_, fun hl hh hn => ?_⟩,
    fun address a0 a1 s3 s2 s1 s0 c2 c1 c0 st ck => ⟨fun r h => ?_, fun h0 h1 hk hs => ?_⟩⟩
  · exact congrArg (Option.map some) h
  · have hfull : answerReceived received a = received := answerReceived_full a hl hh
    rw [exec_cellAnswer_no_reply hr hp (hfull.symm ▸ hn), hfull, ← hp]
  · rw [cellReply_eleven] at h
    split at h
    · rename_i hform
      obtain ⟨h0, h1, hk⟩ := hform
      obtain ⟨c, hc, rfl⟩ := Option.map_eq_some_iff.1 h
      exact ⟨h0, h1, hk, congrArg Nat.cast (natOf_four s3 s2 s1 s0), intOf_three c2 c1 c0, cellStatusOf_eq_some.1 hc⟩
    · cases h
  · rw [cellReply_eleven, if_pos ⟨h0, h1, hk⟩, Option.isSome_map]
    exact cellStatusOf_isSome.2 hs

end Sys2Proof.Machine
end

