-- ==== Sys2Proof/Proofs/Register.lean ====
section
/-! What an event leaves (the frame, the outbox, the settled bridge) and what reports to the Fault Unit and the end of
an event do to the entries of the fault register (R11, R75, R181). -/

namespace Sys2Proof.Machine

/-- Two states are the same where each of their fields is. -/
theorem State.eq_iff_fields {s t : State} : s = t ↔
    s.pending = t.pending ∧ s.phase = t.phase ∧ s.bus = t.bus ∧ s.weigh = t.weigh ∧ s.capture = t.capture ∧
    s.bridge = t.bridge ∧ s.axles = t.axles ∧ s.visits = t.visits ∧ s.inUse = t.inUse ∧ s.tares = t.tares ∧
    s.tickets = t.tickets ∧ s.cal = t.cal ∧ s.staged = t.staged ∧ s.switchOn = t.switchOn ∧ s.audit = t.audit ∧
    s.run = t.run ∧ s.evidence = t.evidence ∧ s.faults = t.faults ∧ s.site = t.site ∧ s.clockSet = t.clockSet ∧
    s.powered = t.powered ∧ s.supplyGood = t.supplyGood ∧ s.dipTimer = t.dipTimer ∧ s.ports = t.ports ∧
    s.writes = t.writes ∧ s.outbox = t.outbox ∧ s.commitNote = t.commitNote ∧ s.choices = t.choices := by
  cases s; cases t; simp only [State.mk.injEq]

/-! ### The end of an event -/

@[simp] theorem event_outbox (s t : State) : (event s t).outbox = [] := by
  unfold event
  rw [(retain_spec s _).1]
  rfl

@[simp] theorem event_commitNote (s t : State) : (event s t).commitNote = none := by
  unfold event
  rw [(retain_spec s _).1]

theorem event_bridgeSettled (s t : State) : (event s t).bridgeSettled = true :=
  ((State.settled_iff _).1 (event_settled s t)).2

/-- Neither the delivery of the notices nor the writes begun touch what the settling left. -/
theorem event_settle (s t : State) :
    (event s t).bridge = (t.settle s.bridge.holds).bridge ∧ (event s t).capture = (t.settle s.bridge.holds).capture ∧
    (event s t).axles = (t.settle s.bridge.holds).axles ∧ (event s t).visits = (t.settle s.bridge.holds).visits ∧
    (event s t).inUse = (t.settle s.bridge.holds).inUse ∧ (event s t).run = (t.settle s.bridge.holds).run ∧
    (event s t).faults = (t.settle s.bridge.holds).faults ∧
    (event s t).ports = (t.settle s.bridge.holds).flush.ports := by
  unfold event
  simp

/-! ### Entries of the register -/

/-- The entries depend on the register alone. -/
theorem State.faultEntry_congr {s t : State} (h : s.faults.register = t.faults.register) (k : FaultKey) :
    s.faultEntry k = t.faultEntry k := by
  simp only [State.faultEntry, h]

theorem State.faultEntry_setFaultEntry (s : State) (k : FaultKey) (f : FaultEntry) :
    (s.setFaultEntry k f).faultEntry k = f := by
  simp [State.faultEntry, State.setFaultEntry]

theorem State.faultEntry_setFaultEntry_other (s : State) {k j : FaultKey} (f : FaultEntry) (h : j.place ≠ k.place) :
    (s.setFaultEntry k f).faultEntry j = s.faultEntry j := by
  simp [State.faultEntry, State.setFaultEntry, Table.get?_set_other _ _ h]

/-- An entry that is present is listed. -/
theorem State.mem_register_of_present {s : State} {k : FaultKey} (h : (s.faultEntry k).present = true) :
    (k.place, s.faultEntry k) ∈ s.faults.register := by
  unfold State.faultEntry at h ⊢
  cases hg : Table.get? s.faults.register k.place with
  | none =>
    rw [hg] at h
    cases h
  | some a => exact Table.mem_of_get? hg

/-- R183: a present condition of a class with the policy HOLD has the FAULT source judged set. -/
theorem State.faultJudged_of_present {s : State} {k : FaultKey} (hp : (s.faultEntry k).present = true)
    (hk : (s.faultEntry k).key = k) (hc : s.policy k.cls = .hold) : s.faultJudged = true := by
  have hany : s.heldByPresent = true := by
    unfold State.heldByPresent
    exact List.any_eq_true.2 ⟨_, s.mem_register_of_present hp, by simp [hp, hk, hc]⟩
  simp [State.faultJudged, hany]

/-- R182: the metrological classes have the policy HOLD. -/
theorem State.policy_of_metrological (s : State) {c : FaultClass} (h : c.metrological = true) : s.policy c = .hold := by
  cases c <;> first | rfl | cases h

/-- A report of absence leaves the entry but for its presence. -/
theorem State.faultEntry_clearFault (s : State) (k : FaultKey) :
    (s.clearFault k).faultEntry k = { s.faultEntry k with present := false } := by
  unfold State.clearFault
  split
  · exact s.faultEntry_setFaultEntry k _
  · next h =>
    have habsent : (s.faultEntry k).present = false := by simpa using h
    rw [← habsent]

/-- The entry that a raise makes of the entry it finds (R181). -/
def FaultEntry.raised (old : FaultEntry) (k : FaultKey) (now : SiteTime) : FaultEntry :=
  { key := k, present := true, outstanding := old.outstanding || !k.cls.metrological, count := min (old.count + 1) 65535,
    raisedAt := some now }

/-- A raise sets its entry in the register and nothing else of the Fault Unit. -/
theorem State.raiseFault_faults (s : State) (k : FaultKey) (detail : Option DisagreeDetail) :
    (s.raiseFault k detail).faults = (s.setFaultEntry k ((s.faultEntry k).raised k s.site.clock)).faults := by
  unfold State.raiseFault
  cases h : k.cls.metrological <;> simp [FaultEntry.raised, h]

theorem State.faultEntry_raiseFault (s : State) (k : FaultKey) (detail : Option DisagreeDetail) :
    (s.raiseFault k detail).faultEntry k = (s.faultEntry k).raised k s.site.clock :=
  (State.faultEntry_congr (congrArg _ (s.raiseFault_faults k detail)) k).trans (s.faultEntry_setFaultEntry k _)

theorem State.faultEntry_raiseFault_other (s : State) {k j : FaultKey} (detail : Option DisagreeDetail)
    (h : j.place ≠ k.place) : (s.raiseFault k detail).faultEntry j = s.faultEntry j :=
  (State.faultEntry_congr (congrArg _ (s.raiseFault_faults k detail)) j).trans
    (s.faultEntry_setFaultEntry_other _ h)

/-- R11: what a report makes of its entry. -/
theorem State.faultEntry_reportFault (s : State) (k : FaultKey) (present : Bool) :
    (s.reportFault k present).faultEntry k =
      if present = true then
        if (s.faultEntry k).present = true then s.faultEntry k else (s.faultEntry k).raised k s.site.clock
      else { s.faultEntry k with present := false } := by
  unfold State.reportFault
  cases present with
  | false => simpa using s.faultEntry_clearFault k
  | true =>
    simp only [if_true]
    split
    · rfl
    · exact s.faultEntry_raiseFault k none

theorem State.faultEntry_reportFault_other (s : State) {k j : FaultKey} (present : Bool) (h : j.place ≠ k.place) :
    (s.reportFault k present).faultEntry j = s.faultEntry j := by
  unfold State.reportFault
  split
  · split
    · rfl
    · exact s.faultEntry_raiseFault_other none h
  · exact s.clearFault_other h

/-! ### The lamps and the register (R75) -/

/-- The comparison of an end leaves every entry but that of its lamps. -/
theorem State.faultEntry_compareLamps (s : State) {e : BridgeEnd} {k : FaultKey} (h : k.place ≠ (lampKey e).place) :
    (s.compareLamps e).faultEntry k = s.faultEntry k := by
  have hf : ∀ on, (s.setFeedback e on).faultEntry k = s.faultEntry k :=
    fun on => State.faultEntry_congr (by simp) k
  unfold State.compareLamps
  split
  · exact (State.clearFault_other _ h).trans (hf false)
  · split
    · rfl
    · exact hf true

theorem State.faultEntry_recommand (s : State) {k : FaultKey} (h : ∀ e, k.place ≠ (lampKey e).place) :
    s.recommand.faultEntry k = s.faultEntry k := by
  unfold State.recommand
  exact (State.faultEntry_compareLamps _ (h .b)).trans (State.faultEntry_compareLamps _ (h .a))

theorem State.faultEntry_settlePass (s : State) (before : Holds) {k : FaultKey}
    (h : ∀ e, k.place ≠ (lampKey e).place) : (s.settlePass before).faultEntry k = s.faultEntry k := by
  unfold State.settlePass
  exact (State.faultEntry_recommand _ h).trans (State.faultEntry_congr (by simp) k)

/-- The end of an event leaves every entry but those of the lamps. -/
theorem State.faultEntry_event (s t : State) {k : FaultKey} (h : ∀ e, k.place ≠ (lampKey e).place) :
    (event s t).faultEntry k = t.faultEntry k := by
  obtain ⟨-, -, -, -, -, -, hf, -⟩ := event_settle s t
  rw [State.faultEntry_congr (congrArg _ hf)]
  unfold State.settle
  simp only []
  split
  · exact t.faultEntry_settlePass _ h
  · exact (State.faultEntry_settlePass _ _ h).trans (t.faultEntry_settlePass _ h)

end Sys2Proof.Machine
end

