-- ==== Sys2Proof/Proofs/PollJudgement.lean ====
section
/-! The judgement of a poll (R4, R5, R11): the cell record it leaves and the three fault conditions of the cell. -/

namespace Sys2Proof.Machine

/-! ### Records -/

@[simp] theorem Bus.record_setRecord_self (b : Bus) (i : Nat) (r : CellRecord) : (b.setRecord i r).record i = r := by
  unfold Bus.setRecord Bus.record
  split
  · next h => simp [h]
  · simp

theorem Bus.record_setRecord_other (b : Bus) {i j : Nat} (r : CellRecord) (h : j ≠ i) :
    (b.setRecord i r).record j = b.record j := by
  unfold Bus.setRecord Bus.record
  split
  · rw [Table.get?_erase_other _ h]
  · rw [Table.get?_set_other _ _ h]

/-- The records of a bus are what its list of records says. -/
theorem Bus.record_congr {a b : Bus} (h : a.records = b.records) (i : Nat) : a.record i = b.record i := by
  simp only [Bus.record, h]

/-- What a bus with another record holds apart from its records. -/
theorem Bus.setRecord_eq (b : Bus) (i : Nat) (r : CellRecord) :
    b.setRecord i r = { b with records := (b.setRecord i r).records } := rfl

/-- The miss of a poll (R5). -/
theorem CellRecord.judged_none (r : CellRecord) (serial : Int) :
    r.judged serial none =
      { r with miss := min (r.miss + 1) 255, condition := some (if r.miss + 1 < 3 then .missing else .silent) } := by
  have h : min (r.miss + 1) 255 < 3 ↔ r.miss + 1 < 3 := by omega
  simp only [CellRecord.judged, h]

/-- The reply of a poll (R5): of another serial number, or of the configured one. -/
theorem CellRecord.judged_some (r : CellRecord) (serial : Int) (a : CellReply) :
    r.judged serial (some a) =
      if (a.serial : Int) ≠ serial then
        { r with miss := 0, condition := some .substituted, lastSerial := some a.serial }
      else
        { r with
          miss := 0
          condition := some (if a.status = .internalFault then .faulted
            else if a.status = .overRange then .overRange else .online)
          lastCount := some a.count
          lastStatus := some a.status
          lastSerial := some a.serial } := by
  unfold CellRecord.judged
  simp only []
  split
  · rfl
  · cases a.status <;> rfl

/-! ### The conditions of a cell (R11) -/

/-- The three conditions of a cell. -/
def cellClasses : List FaultClass := [.cellSilent, .cellFault, .cellSubstituted]

theorem cellClasses_metrological {f : FaultClass} (h : f ∈ cellClasses) : f.metrological = true := by
  revert f
  decide

/-- A class is among those that a condition makes present where the condition is its own. -/
theorem mem_cellFaults {c : Option CellCondition} {f : FaultClass} :
    f ∈ cellFaults c ↔ (f = .cellSilent ∧ c = some .silent) ∨ (f = .cellFault ∧ c = some .faulted) ∨
      (f = .cellSubstituted ∧ c = some .substituted) := by
  match c with
  | none => simp [cellFaults]
  | some x => cases x <;> simp [cellFaults]

/-- A condition makes one class present or none. -/
theorem cellFaults_form (c : Option CellCondition) : cellFaults c = [] ∨ ∃ f ∈ cellClasses, cellFaults c = [f] := by
  match c with
  | none => exact .inl rfl
  | some x => cases x <;> simp [cellFaults, cellClasses]

theorem cellKey_place_ne {f g : FaultClass} (i : Nat) (h : f ≠ g) : (cellKey f i).place ≠ (cellKey g i).place := by
  have hn : f.number ≠ g.number := by
    intro hn
    exact h (by cases f <;> cases g <;> first | rfl | cases hn)
  simp only [FaultKey.place, cellKey]
  omega

/-- The entry of a condition of an address stands apart from those of the lamps. -/
theorem cellKey_place_ne_lamp {f : FaultClass} {i : Nat} (hf : f ∈ cellClasses) (hi : i < 32) (e : BridgeEnd) :
    (cellKey f i).place ≠ (lampKey e).place := by
  intro h
  have hk := FaultKey.place_injective (j := cellKey f i) hi (by cases e <;> decide) h
  have hc : f = .lampFeedback := congrArg FaultKey.cls hk
  subst hc
  revert hf
  decide

/-- Reports of absence of some classes of an address: the entry of each is left absent, the others stand. -/
theorem State.faultEntry_reportAway (s : State) (i : Nat) (f : FaultClass) (fs : List FaultClass) :
    (fs.foldl (fun acc g => acc.reportFault (cellKey g i) false) s).faultEntry (cellKey f i) =
      if f ∈ fs then { s.faultEntry (cellKey f i) with present := false } else s.faultEntry (cellKey f i) := by
  induction fs generalizing s with
  | nil => rfl
  | cons g rest ih =>
    rw [List.foldl_cons, ih]
    by_cases hg : f = g
    · subst hg
      simp [State.faultEntry_reportFault]
    · rw [State.faultEntry_reportFault_other _ _ (cellKey_place_ne i hg)]
      simp [hg]

/-- R11: what the report of a condition makes of the entry of each class of the address. -/
theorem State.faultEntry_reportCell (s : State) (i : Nat) (c : Option CellCondition) {f : FaultClass}
    (hf : f ∈ cellClasses) :
    (s.reportCell i c).faultEntry (cellKey f i) =
      if f ∈ cellFaults c then
        if (s.faultEntry (cellKey f i)).present = true then s.faultEntry (cellKey f i)
        else (s.faultEntry (cellKey f i)).raised (cellKey f i) s.site.clock
      else { s.faultEntry (cellKey f i) with present := false } := by
  unfold State.reportCell
  have haway : f ∈ ([.cellSilent, .cellFault, .cellSubstituted] : List FaultClass).filter
      (fun f => !(cellFaults c).contains f) ↔ f ∉ cellFaults c := by
    rw [List.mem_filter]
    simp only [cellClasses] at hf
    simp [hf]
  generalize ([.cellSilent, .cellFault, .cellSubstituted] : List FaultClass).filter
    (fun f => !(cellFaults c).contains f) = away at haway
  have hentry := s.faultEntry_reportAway i f away
  have hclock : (away.foldl (fun acc f => acc.reportFault (cellKey f i) false) s).site = s.site := by simp
  rcases cellFaults_form c with hc | ⟨g, -, hc⟩
  · rw [hc] at haway ⊢
    simpa [haway] using hentry
  · rw [hc] at haway ⊢
    simp only [List.foldl_cons, List.foldl_nil]
    by_cases hg : f = g
    · subst hg
      rw [State.faultEntry_reportFault, hentry, hclock]
      simp [haway]
    · rw [State.faultEntry_reportFault_other _ _ (cellKey_place_ne i hg), hentry]
      simp [haway, hg]

/-! ### The end of a poll that is not the last (R4) -/

/-- The bus that a judgement leaves. -/
theorem State.judge_bus (s : State) (i : Nat) (reply : Option CellReply) :
    (s.judge i reply).bus = s.bus.setRecord i ((s.bus.record i).judged (s.bus.table.serial i) reply) := by
  simp [State.judge]

/-- A poll that is not the round's last is followed by the next one. -/
theorem State.pollEnds_next {s : State} {i next : Nat} {rest : List Nat} (reply : Option CellReply)
    (h : s.bus.toPoll = next :: rest) :
    s.pollEnds i reply = { event s (s.judge i reply) with
      bus := { s.bus with
        records := (s.bus.setRecord i ((s.bus.record i).judged (s.bus.table.serial i) reply)).records
        poll := .sending next, toPoll := rest } } := by
  have hb : (event s (s.judge i reply)).bus
      = { s.bus with records := (s.bus.setRecord i ((s.bus.record i).judged (s.bus.table.serial i) reply)).records } := by
    rw [(event_frame s _).2.2.1, s.judge_bus]
    rfl
  unfold State.pollEnds
  simp only [hb, h, List.isEmpty_cons, Bool.false_eq_true, if_false, Bus.sendNext]

/-- What a poll that is not the round's last leaves of the state. -/
theorem State.pollEnds_next_frame {s : State} {i next : Nat} {rest : List Nat} {reply : Option CellReply}
    (hs : s.calm = true) (h : s.bus.toPoll = next :: rest) (t : State) (ht : t = s.pollEnds i reply) :
    t = { s with bus := t.bus, bridge := t.bridge, capture := t.capture, axles := t.axles, visits := t.visits,
                 inUse := t.inUse, cal := t.cal, run := t.run, evidence := t.evidence, faults := t.faults,
                 ports := t.ports, writes := t.writes } := by
  obtain ⟨-, hout, -, hnote⟩ := s.calm_iff.1 hs
  have he := ht.trans (State.pollEnds_next reply h)
  refine State.eq_iff_fields.2 ?_
  simp [he, hout, hnote]

/-- The records that a poll that is not the round's last leaves. -/
theorem State.pollEnds_next_record {s : State} {i next : Nat} {rest : List Nat} (reply : Option CellReply)
    (h : s.bus.toPoll = next :: rest) :
    (s.pollEnds i reply).bus.record i = (s.bus.record i).judged (s.bus.table.serial i) reply ∧
      ∀ j ≠ i, (s.pollEnds i reply).bus.record j = s.bus.record j := by
  rw [State.pollEnds_next reply h]
  exact ⟨s.bus.record_setRecord_self i _, fun j hj => s.bus.record_setRecord_other _ hj⟩

/-- The entries of the cell that a poll that is not the round's last leaves, the FAULT source set with a present one. -/
theorem State.pollEnds_next_entry {s : State} {i next : Nat} {rest : List Nat} (reply : Option CellReply)
    (h : s.bus.toPoll = next :: rest) (hi : i ≤ 16) {f : FaultClass} (hf : f ∈ cellClasses) :
    (s.pollEnds i reply).faultEntry (cellKey f i) =
      (s.judge i reply).faultEntry (cellKey f i) := by
  have hfaults : (s.pollEnds i reply).faults.register = (event s (s.judge i reply)).faults.register := by
    rw [State.pollEnds_next reply h]
  exact (State.faultEntry_congr hfaults _).trans
    (State.faultEntry_event s _ (cellKey_place_ne_lamp hf (Nat.lt_of_le_of_lt hi (by decide))))

theorem State.pollEnds_next_faultJudged {s : State} {i next : Nat} {rest : List Nat} (reply : Option CellReply)
    (h : s.bus.toPoll = next :: rest) :
    (s.pollEnds i reply).bridge.holds.fault = (s.pollEnds i reply).faultJudged := by
  rw [State.pollEnds_next reply h]
  obtain ⟨-, hfault, -⟩ := (State.bridgeSettled_iff _).1 (event_bridgeSettled s (s.judge i reply))
  exact hfault.trans (State.faultJudged_congr rfl rfl rfl)

/-- A set FAULT source is a hold in force. -/
theorem State.held_of_fault {s : State} (h : s.bridge.holds.fault = true) : s.held = true := by
  simp [State.held, Holds.inForce, h]

/-- Settles O14: either command that ends the poll comes to `State.pollEnds`, of which the lemmas above say the record,
the next poll, the frame and the entries of the cell. -/
theorem pollJudgementSetsTheCellRecord : Obligations.PollJudgementSetsTheCellRecord := by
  unfold Obligations.PollJudgementSetsTheCellRecord
  intro s i next rest received hs hp hq
  have hr : s.running = true := (s.calm_iff.1 hs).1
  have hbus : ∀ reply, (s.pollEnds i reply).bus.poll = .sending next ∧ (s.pollEnds i reply).bus.toPoll = rest ∧
      (s.pollEnds i reply).bus.inProgress = s.bus.inProgress ∧ (s.pollEnds i reply).bus.index = s.bus.index ∧
      (s.pollEnds i reply).bus.table = s.bus.table := by
    intro reply
    rw [State.pollEnds_next reply hq]
    exact ⟨rfl, rfl, rfl, rfl, rfl⟩
  refine ⟨?_, fun a r ha => ?_, fun c reply hc _ hi => ?_⟩
  · obtain ⟨hself, hother⟩ := State.pollEnds_next_record none hq (i := i)
    obtain ⟨b1, b2, b3, b4, b5⟩ := hbus none
    exact ⟨_, exec_ends_poll hp rfl hr, hself.trans (CellRecord.judged_none _ _), hother, b1, b2, b3, b4, b5,
      State.pollEnds_next_frame hs hq _ rfl⟩
  · obtain ⟨hself, hother⟩ := State.pollEnds_next_record (some r) hq (i := i)
    obtain ⟨b1, b2, b3, b4, b5⟩ := hbus (some r)
    have hc : pollEndedBy (.cellAnswer a) i received = some (some r) := congrArg (Option.map some) ha
    exact ⟨_, exec_ends_poll hp hc hr, hself.trans (CellRecord.judged_some _ _ r), hother, b1, b2, b3, b4, b5,
      State.pollEnds_next_frame hs hq _ rfl⟩
  · obtain ⟨hself, -⟩ := State.pollEnds_next_record reply hq (i := i)
    refine ⟨_, exec_ends_poll hp hc hr, hself, fun f hf => ?_⟩
    have hentry := (State.pollEnds_next_entry reply hq hi hf).trans (State.faultEntry_reportCell _ i _ hf)
    have hold : (show State from { s with
        bus := s.bus.setRecord i ((s.bus.record i).judged (s.bus.table.serial i) reply) }).faultEntry (cellKey f i)
        = s.faultEntry (cellKey f i) := rfl
    rw [hold] at hentry
    simp only [hself]
    rw [← mem_cellFaults]
    refine ⟨fun hin habsent => ?_, fun hin hpresent => ?_, fun hout => ?_⟩
    · have hnew : (s.pollEnds i reply).faultEntry (cellKey f i)
          = (s.faultEntry (cellKey f i)).raised (cellKey f i) s.site.clock := by
        rw [hentry]
        simp [hin, habsent]
      have hmet : (cellKey f i).cls.metrological = true := cellClasses_metrological hf
      have hfault : (s.pollEnds i reply).bridge.holds.fault = true := by
        rw [State.pollEnds_next_faultJudged reply hq]
        exact State.faultJudged_of_present (k := cellKey f i) (by rw [hnew]; rfl) (by rw [hnew]; rfl)
          (State.policy_of_metrological _ hmet)
      refine ⟨?_, hfault, State.held_of_fault hfault⟩
      rw [hnew]
      simp [FaultEntry.raised, hmet]
    · rw [hentry]
      simp [hin, hpresent]
    · rw [hentry]
      simp [hout]

end Sys2Proof.Machine
end

