-- ==== Sys2Proof/Proofs/CommittedTable.lean ====
section
/-! The committed table through the end of a poll and of a round: nothing that a round sets off changes it (R153 alone
does), so the table in use at the next start is that of the state before. -/

namespace Sys2Proof.Machine

/-! ### The Fault Unit and the evidence -/

@[simp] theorem State.committed_takeSnapshot (s : State) (kind : SnapshotKind) (draft : Option Nat) :
    (s.takeSnapshot kind draft).cal.committed = s.cal.committed := rfl

@[simp] theorem State.committed_enterLockout (s : State) (code : LockCode) :
    (s.enterLockout code).cal.committed = s.cal.committed := by
  unfold State.enterLockout
  split
  · rfl
  · simp

@[simp] theorem State.committed_setFlag (s : State) (k : FaultKey) :
    (s.setFlag k).cal.committed = s.cal.committed := by
  unfold State.setFlag
  split <;> rfl

@[simp] theorem State.committed_escalate (s : State) (k : FaultKey) :
    (s.escalate k).1.cal.committed = s.cal.committed := by
  unfold State.escalate
  simp only []
  split
  · split <;> simp
  · split
    · simp
    · split <;> simp

@[simp] theorem State.committed_raiseFault (s : State) (k : FaultKey) (detail : Option DisagreeDetail) :
    (s.raiseFault k detail).cal.committed = s.cal.committed := by
  unfold State.raiseFault
  cases k.cls.metrological <;> simp

@[simp] theorem State.committed_reportFault (s : State) (k : FaultKey) (present : Bool) :
    (s.reportFault k present).cal.committed = s.cal.committed := by
  unfold State.reportFault
  split
  · split <;> simp
  · simp

/-! ### Polls, rounds and captures -/

theorem State.committed_reports (s : State) (i : Nat) (fs : List FaultClass) (present : Bool) :
    (fs.foldl (fun acc f => acc.reportFault (cellKey f i) present) s).cal.committed = s.cal.committed :=
  foldl_keeps (fun x : State => x.cal.committed) _ (fun _ _ => by simp) _ _

@[simp] theorem State.committed_judge (s : State) (i : Nat) (reply : Option CellReply) :
    (s.judge i reply).cal.committed = s.cal.committed := by
  unfold State.judge State.reportCell
  simp only [State.committed_reports]

@[simp] theorem State.committed_endRound (s : State) : s.endRound.cal.committed = s.cal.committed := by
  unfold State.endRound
  simp only []
  split <;> simp

@[simp] theorem State.committed_takeNumber (s : State) : s.takeNumber.cal.committed = s.cal.committed := by
  unfold State.takeNumber
  split
  · rfl
  · split <;> simp

@[simp] theorem State.committed_ticketVisit (s : State) (p : Nat) (v : Visit) (h : TicketHandoff) :
    (s.ticketVisit p v h).cal.committed = s.cal.committed := by
  simp [State.ticketVisit, State.issueTicket]

theorem State.committed_completeFirst {s t : State} {p : Nat} {v : Visit} {r : WeighRecord}
    (h : s.completeFirst p v r = .ok t) : t.cal.committed = s.cal.committed := by
  unfold State.completeFirst at h
  split at h
  · cases h
    split <;> simp
  · split at h
    · simp only [] at h
      generalize s.lookup v.ident = l at h
      cases l with
      | found slot tare =>
        simp only [] at h
        split at h
        · cases h
        · cases h
          simp
      | expired slot => cases h; simp
      | notHeld => cases h; simp
    · cases h
      simp

theorem State.committed_completeSecond {s t : State} {p : Nat} {v : Visit} {r : WeighRecord}
    (h : s.completeSecond p v r = .ok t) : t.cal.committed = s.cal.committed := by
  unfold State.completeSecond at h
  split at h
  · cases h
  · cases h
    split <;> simp

theorem State.committed_takeDraft {s t : State} {p : Nat} {v : Visit} {d : DraftResult}
    (h : s.takeDraft p v d = .ok t) : t.cal.committed = s.cal.committed := by
  unfold State.takeDraft at h
  split at h
  · cases h
    rfl
  · split at h
    · exact State.committed_completeSecond h
    · exact State.committed_completeFirst h

@[simp] theorem State.committed_acceptCapture (s : State) (c : Capture) (d : DraftResult) (r : RoundValues) :
    (s.acceptCapture c d r).cal.committed = s.cal.committed := by
  unfold State.acceptCapture State.overSteps
  simp only [State.reportDraft_frame]
  split <;> simp

@[simp] theorem State.committed_captureTakesRound (s : State) (r : RoundValues) :
    (s.captureTakesRound r).cal.committed = s.cal.committed := by
  unfold State.captureTakesRound State.completeCapture State.handOff
  split
  · rfl
  · split
    · split
      · simp
      · split
        · simp
        · split
          · split
            · split
              · simp
              · simp
              · split
                · simp
                · next h => simp [State.committed_takeDraft h]
            · simp
          · simp
    · rfl

@[simp] theorem State.committed_takeAs (s : State) (r : RoundValues) (k : RoundTaker) :
    (s.takeAs r k).cal.committed = s.cal.committed := by
  cases k <;> simp [State.takeAs]

@[simp] theorem State.committed_blocksTakeRound (s : State) (r : RoundValues) :
    (s.blocksTakeRound r).cal.committed = s.cal.committed := by
  have hfold : ∀ (ks : List RoundTaker) (u : State),
      (ks.foldl (State.takeAs r) u).cal.committed = u.cal.committed :=
    foldl_keeps (fun x : State => x.cal.committed) _ (fun _ _ => by simp)
  unfold State.blocksTakeRound
  split
  · exact hfold _ _
  · exact hfold _ _

@[simp] theorem State.committed_issueRound (s : State) : s.issueRound.cal.committed = s.cal.committed := by
  unfold State.issueRound
  split
  · rfl
  · simp

@[simp] theorem State.committed_roundDone (s : State) : s.roundDone.cal.committed = s.cal.committed := by
  simp [State.roundDone]

/-- The table in use stands over the end of a round. -/
theorem State.tableInUse_roundDone (s : State) : s.roundDone.tableInUse = s.tableInUse := by
  simp [State.tableInUse]

/-- The table in use stands over the judgement of a poll. -/
theorem State.tableInUse_judge (s u : State) (i : Nat) (reply : Option CellReply) :
    (event u (s.judge i reply)).tableInUse = s.tableInUse := by
  simp [State.tableInUse]

end Sys2Proof.Machine
end

