-- ==== Sys2Proof/Proofs/RoundEnds.lean ====
section
/-! The start and the end of a round, said once: the bus and the values that each leaves (R1, R2, R9, R10, R31), and
what the last poll of a round comes to. -/

namespace Sys2Proof.Machine

/-! ### The marking of the records (R11) -/

/-- The marking of the addresses of a list changes the records alone. -/
theorem Bus.markAll_eq (t : CalTable) (l : List Nat) (b : Bus) :
    l.foldl (fun acc i => acc.setRecord i ((acc.record i).marked t i)) b =
      { b with records := (l.foldl (fun acc i => acc.setRecord i ((acc.record i).marked t i)) b).records } := by
  induction l generalizing b with
  | nil => rfl
  | cons i rest ih =>
    rw [List.foldl_cons]
    exact ih _

/-- The marking of the records changes the records alone. -/
theorem Bus.markRecords_eq (b : Bus) (t : CalTable) :
    b.markRecords t = { b with records := (b.markRecords t).records } :=
  Bus.markAll_eq t addresses b

/-- Each address of a list is marked once. -/
theorem Bus.record_markAll (t : CalTable) {l : List Nat} (hl : l.Nodup) (b : Bus) (j : Nat) :
    (l.foldl (fun acc i => acc.setRecord i ((acc.record i).marked t i)) b).record j =
      if j ∈ l then (b.record j).marked t j else b.record j := by
  induction l generalizing b with
  | nil => rfl
  | cons i rest ih =>
    obtain ⟨hi, hrest⟩ := List.nodup_cons.1 hl
    rw [List.foldl_cons, ih hrest]
    by_cases hj : j = i
    · subst hj
      simp [hi]
    · simp [hj, Bus.record_setRecord_other _ _ hj]

theorem Bus.record_markRecords (b : Bus) (t : CalTable) (j : Nat) :
    (b.markRecords t).record j = if j ∈ addresses then (b.record j).marked t j else b.record j :=
  Bus.record_markAll t (by decide) b j

/-- An address that stays as CONFIGURED as it was keeps its record. -/
theorem Bus.record_markRecords_same {b : Bus} {t : CalTable} {j : Nat} (h : t.configured j = (b.record j).configured) :
    (b.markRecords t).record j = b.record j := by
  rw [Bus.record_markRecords]
  simp [CellRecord.marked, h]

/-! ### The start of a round (R1, R2, R11) -/

/-- The bus that the start of a round leaves. -/
theorem State.beginRound_bus (s : State) :
    s.beginRound.bus = Bus.sendNext
      { s.bus with
        records := (s.bus.markRecords s.tableInUse).records, table := s.tableInUse, inProgress := true
        toPoll := s.tableInUse.configuredList, index := nextIndex s.bus.index, overrun := false
        periodTimer := true } := by
  unfold State.beginRound
  simp only [State.clearCells_frame]
  rw [Bus.markRecords_eq]

/-- With a CONFIGURED address the first poll is being sent. -/
theorem State.beginRound_bus_cons {s : State} {first : Nat} {rest : List Nat}
    (h : s.tableInUse.configuredList = first :: rest) :
    s.beginRound.bus =
      { s.bus with
        records := (s.bus.markRecords s.tableInUse).records, table := s.tableInUse, inProgress := true
        toPoll := rest, poll := .sending first, index := nextIndex s.bus.index, overrun := false
        periodTimer := true } := by
  rw [State.beginRound_bus, h]
  rfl

/-- With none no poll is sent. -/
theorem State.beginRound_bus_nil {s : State} (h : s.tableInUse.configuredList = []) :
    s.beginRound.bus =
      { s.bus with
        records := (s.bus.markRecords s.tableInUse).records, table := s.tableInUse, inProgress := true
        toPoll := [], poll := .idle, index := nextIndex s.bus.index, overrun := false, periodTimer := true } := by
  rw [State.beginRound_bus, h]
  rfl

theorem State.startRound_cons {s : State} {first : Nat} {rest : List Nat}
    (h : s.tableInUse.configuredList = first :: rest) : s.startRound = event s s.beginRound := by
  unfold State.startRound
  simp [State.beginRound_bus_cons h]

theorem State.startRound_nil {s : State} (h : s.tableInUse.configuredList = []) :
    s.startRound = (event s s.beginRound).roundDone := by
  unfold State.startRound
  simp [State.beginRound_bus_nil h]

/-! ### The values of a round (R31) -/

/-- The values of a round are computed from the weighing, the table, the records, the index and the mark. -/
theorem State.computeRound_congr {s t : State} (hw : s.weigh = t.weigh) (ht : s.bus.table = t.bus.table)
    (hr : s.bus.records = t.bus.records) (hi : s.bus.index = t.bus.index) (ho : s.bus.overrun = t.bus.overrun) :
    s.computeRound = t.computeRound := by
  have hd : ∀ c d, s.deckRound c d = t.deckRound c d := by
    intro c d
    have hrec : ∀ i, s.bus.record i = t.bus.record i := Bus.record_congr hr
    have hz : s.zeroFor c d = t.zeroFor c d := by simp only [State.zeroFor, hw]
    have hv : deckCellValid c s.bus d = deckCellValid c t.bus d := by simp only [deckCellValid, hrec]
    have hraw : deckRawSum c s.bus (c.cellsOf d) = deckRawSum c t.bus (c.cellsOf d) := by simp only [deckRawSum, hrec]
    simp only [State.deckRound, hz, hv, hraw, hw]
  simp only [State.computeRound, hd, ht, hi, ho]

/-- A round has the values of each deck of its table. -/
theorem State.computeRound_decks_length (s : State) : s.computeRound.decks.length = s.bus.table.decks := by
  simp [State.computeRound, CalTable.deckList]

/-- R27: the bridge has a gross exactly where every deck has one. -/
theorem bridgeGross_isSome (decks : List DeckValues) :
    (bridgeGross decks).isSome = true ↔ ∀ d ∈ decks, d.gross.isSome = true := by
  induction decks with
  | nil => simp [bridgeGross]
  | cons d rest ih =>
    rw [List.forall_mem_cons, ← ih]
    cases hd : d.gross <;> cases hr : bridgeGross rest <;> simp [bridgeGross, hd, hr]

/-- A round is valid exactly where every deck has a gross. -/
theorem State.computeRound_valid (s : State) :
    s.computeRound.valid = true ↔ ∀ d ∈ s.computeRound.decks, d.gross.isSome = true :=
  bridgeGross_isSome _

/-! ### The end of a round (R9, R10, R32) -/

/-- The latest values, the table they are of and the count of rounds, which the blocks that take a round leave. -/
def State.lastRound (s : State) : Option RoundValues × CalTable × Nat :=
  (s.weigh.latest, s.weigh.roundTable, s.weigh.rounds)

theorem State.lastRound_judgeStability (s : State) : s.judgeStability.lastRound = s.lastRound := by
  unfold State.judgeStability
  split <;> rfl

theorem State.lastRound_setZeros (s : State) (decks : List DeckValues) (news : List (Nat × Int)) :
    (s.setZeros decks news).lastRound = s.lastRound := by
  unfold State.setZeros
  simp only []
  split <;> rfl

theorem State.lastRound_tryStartUpZero (s : State) : s.tryStartUpZero.lastRound = s.lastRound := by
  unfold State.tryStartUpZero
  split
  · rfl
  · split
    · exact s.lastRound_setZeros _ _
    · rfl

theorem State.lastRound_congr {s t : State} (h : s.weigh = t.weigh) : s.lastRound = t.lastRound := by
  simp only [State.lastRound, h]

/-- The blocks that take a round leave its values. -/
theorem State.lastRound_issueRound (s : State) : s.issueRound.lastRound = s.lastRound := by
  unfold State.issueRound
  split
  · rfl
  · refine (State.lastRound_congr (t := (event s s.judgeStability).tryStartUpZero) (by simp)).trans ?_
    rw [State.lastRound_tryStartUpZero, State.lastRound_congr (t := s.judgeStability) (by simp),
      State.lastRound_judgeStability]

/-- The bus that the end of a round leaves. -/
theorem State.endRound_bus (s : State) :
    s.endRound.bus =
      { s.bus with
        inProgress := false, poll := .idle, handedIndex := s.bus.index
        handedValid := s.bus.table.deckList.map (fun d => deckCellValid s.bus.table s.bus d)
        overruns := if s.bus.overrun = true then s.bus.overruns else 0 } := by
  unfold State.endRound
  simp only []
  split <;> simp [*]

theorem State.roundDone_bus (s : State) :
    s.roundDone.bus =
      { s.bus with
        inProgress := false, poll := .idle, handedIndex := s.bus.index
        handedValid := s.bus.table.deckList.map (fun d => deckCellValid s.bus.table s.bus d)
        overruns := if s.bus.overrun = true then s.bus.overruns else 0 } := by
  simp [State.roundDone, State.endRound_bus]

/-- The values that the end of a round leaves. -/
theorem State.roundDone_lastRound (s : State) :
    s.roundDone.lastRound = (some s.computeRound, s.bus.table, s.weigh.rounds + 1) := by
  have hb := s.endRound_bus
  have hc : s.endRound.computeRound = s.computeRound := by
    refine State.computeRound_congr ?_ ?_ ?_ ?_ ?_ <;> simp [hb]
  unfold State.roundDone
  rw [State.lastRound_issueRound, State.lastRound_congr (t := s.endRound.weighRound) (by simp)]
  simp [State.lastRound, State.weighRound, hc, hb]

theorem State.roundDone_latest (s : State) : s.roundDone.weigh.latest = some s.computeRound := by
  have h := s.roundDone_lastRound
  simp only [State.lastRound, Prod.mk.injEq] at h
  exact h.1

/-- The end of a round is an event, so it leaves no notice and no commit to note. -/
theorem State.roundDone_quiet (s : State) : s.roundDone.outbox = [] ∧ s.roundDone.commitNote = none := by
  unfold State.roundDone State.issueRound
  split <;> simp

/-- So is a start. -/
theorem State.startRound_quiet (s : State) : s.startRound.outbox = [] ∧ s.startRound.commitNote = none := by
  unfold State.startRound
  simp only []
  split
  · exact State.roundDone_quiet _
  · simp

/-- A round that starts with no CONFIGURED address has ended under its index (R1). -/
theorem State.startRound_nil_bus {s : State} (h : s.tableInUse.configuredList = []) :
    s.startRound.bus =
      { s.bus with
        records := (s.bus.markRecords s.tableInUse).records, table := s.tableInUse, inProgress := false, toPoll := []
        poll := .idle, index := nextIndex s.bus.index, overrun := false, periodTimer := true, overruns := 0
        handedIndex := nextIndex s.bus.index, handedValid := s.startRound.bus.handedValid } := by
  rw [State.startRound_nil h, State.roundDone_bus]
  simp [State.beginRound_bus_nil h]

theorem State.startRound_nil_latest {s : State} (h : s.tableInUse.configuredList = []) :
    s.startRound.weigh.latest = some (event s s.beginRound).computeRound := by
  rw [State.startRound_nil h]
  exact State.roundDone_latest _

/-- The values of a round that starts with no CONFIGURED address carry its index and no mark. -/
theorem State.startRound_nil_values {s : State} (h : s.tableInUse.configuredList = []) :
    (event s s.beginRound).computeRound.index = nextIndex s.bus.index ∧
      (event s s.beginRound).computeRound.overrun = false := by
  simp [State.computeRound, State.beginRound_bus_nil h]

/-- The state that the end of a round, or the start of one, leaves apart from what they may touch. -/
theorem State.eq_with_rounds {s t : State} (hq : t.outbox = s.outbox ∧ t.commitNote = s.commitNote)
    (h : t.pending = s.pending ∧ t.phase = s.phase ∧ t.staged = s.staged ∧ t.switchOn = s.switchOn ∧
      t.audit = s.audit ∧ t.site = s.site ∧ t.clockSet = s.clockSet ∧ t.powered = s.powered ∧
      t.supplyGood = s.supplyGood ∧ t.dipTimer = s.dipTimer) :
    t = { s with bus := t.bus, weigh := t.weigh, capture := t.capture, bridge := t.bridge, axles := t.axles,
                 visits := t.visits, inUse := t.inUse, tares := t.tares, tickets := t.tickets, cal := t.cal,
                 run := t.run, evidence := t.evidence, faults := t.faults, ports := t.ports, writes := t.writes,
                 choices := t.choices } := by
  refine State.eq_iff_fields.2 ?_
  simp [hq, h]

/-! ### The last poll (R2, R4) -/

/-- The state at the end of a round's last poll: the poll judged and its event ended. -/
def State.lastJudged (s : State) (i : Nat) (reply : Option CellReply) : State := event s (s.judge i reply)

theorem State.lastJudged_bus (s : State) (i : Nat) (reply : Option CellReply) :
    (s.lastJudged i reply).bus = (s.polled i reply).bus := by
  simp [State.lastJudged, State.judge_bus, State.polled]

/-- The round is computed from the records as the last poll leaves them. -/
theorem State.lastJudged_computeRound (s : State) (i : Nat) (reply : Option CellReply) :
    (s.lastJudged i reply).computeRound = (s.polled i reply).computeRound := by
  have hb := s.lastJudged_bus i reply
  refine State.computeRound_congr ?_ ?_ ?_ ?_ ?_ <;> simp [hb]
  simp [State.lastJudged]

theorem State.lastJudged_tableInUse (s : State) (i : Nat) (reply : Option CellReply) :
    (s.lastJudged i reply).tableInUse = s.tableInUse :=
  s.tableInUse_judge s i reply

theorem State.roundEnds_within {s : State} (h : s.bus.overrun = false) : s.roundEnds = s.roundDone := by
  simp [State.roundEnds, h]

theorem State.roundEnds_overrun {s : State} (h : s.bus.overrun = true) : s.roundEnds = s.roundDone.startRound := by
  simp [State.roundEnds, h]

theorem State.pollEnds_of_last {s : State} (i : Nat) (reply : Option CellReply) (h : s.bus.toPoll = []) :
    s.pollEnds i reply = (s.lastJudged i reply).roundEnds := by
  have hnone : (s.lastJudged i reply).bus.toPoll.isEmpty = true := by
    rw [State.lastJudged_bus]
    exact List.isEmpty_iff.2 h
  exact if_pos hnone

/-- The last poll of a round within its period ends the round. -/
theorem State.pollEnds_last {s : State} {i : Nat} (reply : Option CellReply) (h : s.bus.toPoll = [])
    (ho : s.bus.overrun = false) : s.pollEnds i reply = (s.lastJudged i reply).roundDone :=
  (State.pollEnds_of_last i reply h).trans (State.roundEnds_within (by rw [State.lastJudged_bus]; exact ho))

/-- The last poll of an overrun round ends it and the next one starts. -/
theorem State.pollEnds_overrun {s : State} {i : Nat} (reply : Option CellReply) (h : s.bus.toPoll = [])
    (ho : s.bus.overrun = true) : s.pollEnds i reply = (s.lastJudged i reply).roundDone.startRound :=
  (State.pollEnds_of_last i reply h).trans (State.roundEnds_overrun (by rw [State.lastJudged_bus]; exact ho))

theorem State.lastJudged_roundDone_tableInUse (s : State) (i : Nat) (reply : Option CellReply) :
    (s.lastJudged i reply).roundDone.tableInUse = s.tableInUse :=
  (State.tableInUse_roundDone _).trans (s.lastJudged_tableInUse i reply)

/-- The bus that the end of a round leaves after its last poll. -/
theorem State.lastJudged_roundDone_bus (s : State) (i : Nat) (reply : Option CellReply) :
    (s.lastJudged i reply).roundDone.bus =
      { (s.polled i reply).bus with
        inProgress := false, poll := .idle, handedIndex := s.bus.index
        handedValid := s.bus.table.deckList.map (fun d => deckCellValid s.bus.table (s.polled i reply).bus d)
        overruns := if s.bus.overrun = true then s.bus.overruns else 0 } := by
  rw [State.roundDone_bus, State.lastJudged_bus]
  rfl

/-- The values that the end of a round leaves after its last poll. -/
theorem State.lastJudged_roundDone_lastRound (s : State) (i : Nat) (reply : Option CellReply) :
    (s.lastJudged i reply).roundDone.lastRound =
      (some (s.polled i reply).computeRound, s.bus.table, s.weigh.rounds + 1) := by
  rw [State.roundDone_lastRound, State.lastJudged_computeRound, State.lastJudged_bus]
  simp [State.lastJudged, State.polled]
  rfl

/-- What a poll that is the round's last leaves apart from what rounds touch. -/
theorem State.pollEnds_last_frame {s t : State} {i : Nat} {reply : Option CellReply} (hs : s.calm = true)
    (h : s.bus.toPoll = []) (ht : t = s.pollEnds i reply) :
    t = { s with bus := t.bus, weigh := t.weigh, capture := t.capture, bridge := t.bridge, axles := t.axles,
                 visits := t.visits, inUse := t.inUse, tares := t.tares, tickets := t.tickets, cal := t.cal,
                 run := t.run, evidence := t.evidence, faults := t.faults, ports := t.ports, writes := t.writes,
                 choices := t.choices } := by
  obtain ⟨-, hout, -, hnote⟩ := s.calm_iff.1 hs
  have hq : t.outbox = [] ∧ t.commitNote = none := by
    cases ho : s.bus.overrun with
    | false =>
      rw [ht, State.pollEnds_last reply h ho]
      exact State.roundDone_quiet _
    | true =>
      rw [ht, State.pollEnds_overrun reply h ho]
      exact State.startRound_quiet _
  exact State.eq_with_rounds (by rw [hout, hnote]; exact hq) (by simp [ht])

/-- Settles O15: the last poll comes to `State.pollEnds`; a round within its period ends, an overrun round ends and the
next one starts, with a cell to poll or with none. -/
theorem lastPollEndsTheRound : Obligations.LastPollEndsTheRound := by
  unfold Obligations.LastPollEndsTheRound
  refine ⟨fun s c i received reply hs hp hc hq ho => ?_, fun s c i first rest received reply hs hp hc hq ho hl => ?_,
    fun s c i received reply hs hp hc hq ho hl => ?_⟩
  · have hexec := exec_ends_poll hp hc (s.calm_iff.1 hs).1
    have he := State.pollEnds_last (i := i) reply hq ho
    have hbus := s.lastJudged_roundDone_bus i reply
    have hlast := s.lastJudged_roundDone_lastRound i reply
    rw [← he] at hbus hlast
    simp only [State.lastRound, Prod.mk.injEq] at hlast
    obtain ⟨hlatest, htable, hrounds⟩ := hlast
    refine ⟨_, hexec, ?_⟩
    have hframe := State.pollEnds_last_frame (i := i) (reply := reply) hs hq rfl
    have hself : (s.pollEnds i reply).bus.record i = (s.bus.record i).judged (s.bus.table.serial i) reply :=
      (Bus.record_congr (congrArg Bus.records hbus) i).trans (s.bus.record_setRecord_self i _)
    have hother : ∀ j ≠ i, (s.pollEnds i reply).bus.record j = s.bus.record j := fun j hj =>
      (Bus.record_congr (congrArg Bus.records hbus) j).trans (s.bus.record_setRecord_other _ hj)
    exact ⟨by rw [hbus], by rw [hbus], hself, hother, by rw [hbus], by rw [hbus]; rfl, by rw [hbus, ho]; rfl,
      by rw [hbus], by rw [hbus]; rfl, hlatest, rfl, ho, State.computeRound_decks_length _, State.computeRound_valid _,
      hrounds, htable, hframe⟩
  · have hexec := exec_ends_poll hp hc (s.calm_iff.1 hs).1
    have he := State.pollEnds_overrun (i := i) reply hq ho
    have hframe := State.pollEnds_last_frame (i := i) (reply := reply) hs hq rfl
    have hdone := s.lastJudged_roundDone_bus i reply
    have hlast := s.lastJudged_roundDone_lastRound i reply
    have huse := s.lastJudged_roundDone_tableInUse i reply
    generalize (s.lastJudged i reply).roundDone = u at he hdone hlast huse
    have hlist : u.tableInUse.configuredList = first :: rest := by rw [huse, hl]
    have hbus : (s.pollEnds i reply).bus = u.beginRound.bus := by simp [he, State.startRound_cons hlist]
    have hweigh : (s.pollEnds i reply).weigh = u.weigh := by simp [he, State.startRound_cons hlist]
    rw [State.beginRound_bus_cons hlist] at hbus
    refine ⟨_, hexec, ?_, rfl, ho, ?_⟩
    · rw [hweigh]
      simp only [State.lastRound, Prod.mk.injEq] at hlast
      exact hlast.1
    · refine ⟨?_, ?_, ?_, ?_, ?_, ?_, ?_, ?_, ?_, hframe⟩ <;> simp [hbus, hdone, huse, ho]
      rfl
  · have hexec := exec_ends_poll hp hc (s.calm_iff.1 hs).1
    have he := State.pollEnds_overrun (i := i) reply hq ho
    have hframe := State.pollEnds_last_frame (i := i) (reply := reply) hs hq rfl
    have hdone := s.lastJudged_roundDone_bus i reply
    have huse := s.lastJudged_roundDone_tableInUse i reply
    generalize (s.lastJudged i reply).roundDone = u at he hdone huse
    have hlist : u.tableInUse.configuredList = [] := by rw [huse, hl]
    have hbus := State.startRound_nil_bus hlist
    have hlatest := State.startRound_nil_latest hlist
    obtain ⟨hindex, hmark⟩ := State.startRound_nil_values hlist
    rw [← he] at hbus hlatest
    refine ⟨_, _, hexec, hlatest, ?_, hmark, ?_⟩
    · rw [hindex, hbus]
    · refine ⟨?_, ?_, ?_, ?_, ?_, ?_, ?_, hframe⟩ <;> rw [hbus]
      · exact huse
      · rw [hdone]; rfl

end Sys2Proof.Machine
end

