-- ==== Sys2Proof/Proofs/QuietEvents.lean ====
section
/-! Events that set no hold source (R53, R63, R64, R77, R78, R168): they end no capture and no waiting point, and
bring a grant or nothing to the bridge. The start of a round is one (R2, R11), as is the return of the supply (R209).
-/

namespace Sys2Proof.Machine

/-! ### The sources of a hold set -/

/-- Every source of a hold set is one of another. -/
def Holds.within (h before : Holds) : Prop :=
  (h.gatehouse = true → before.gatehouse = true) ∧ (h.lane = true → before.lane = true) ∧
    (h.metrology = true → before.metrology = true) ∧ (h.fault = true → before.fault = true) ∧
    (h.supply = true → before.supply = true)

theorem Holds.within.inForce {h before : Holds} (hw : h.within before) (hi : h.inForce = true) :
    before.inForce = true := by
  obtain ⟨h1, h2, h3, h4, h5⟩ := hw
  simp only [Holds.inForce, Bool.or_eq_true] at hi ⊢
  rcases hi with (((hi | hi) | hi) | hi) | hi <;> simp [*]

/-- Sources that are all among those before refuse no capture (R53). -/
theorem State.followHold_within {s : State} {before : Holds} (h : s.bridge.holds.within before) :
    s.followHold before = s ∨ s.followHold before = s.pauseGrantTimer false := by
  unfold State.followHold
  split
  · next hc =>
    simp only [Bool.and_eq_true, Bool.not_eq_true'] at hc
    exact absurd (h.inForce hc.2) (by simp [hc.1])
  · split
    · exact .inr rfl
    · exact .inl rfl

/-- Nor do they end a waiting point (R168). -/
theorem State.followPointSources_within {s : State} {before : Holds} (h : s.bridge.holds.within before) :
    s.followPointSources before = s := by
  obtain ⟨h1, h2, -, h4, -⟩ := h
  have himp : ∀ a b : Bool, (b = true → a = true) → (!a && b) = false := by decide
  unfold State.followPointSources
  simp [himp _ _ h1, himp _ _ h2, himp _ _ h4]

/-! ### A grant or nothing -/

/-- Between two states the bridge has been granted to an entry that waited, with its notices, or neither its state nor
its queues have changed and no notice has come. -/
def State.grantsOrStays (s t : State) : Prop :=
  (t.bridge.state = s.bridge.state ∧ t.bridge.waiting = s.bridge.waiting ∧ t.outbox = s.outbox) ∨
  (s.bridge.state = .free ∧ t.bridge.state = .granted ∧
    ∃ q, selectEntry s.bridge.waiting = some q ∧
      t.outbox = s.outbox ++ notesTo [.lane, .gatehouse] (.granted q.ident q.entryEnd))

theorem State.grantsOrStays.trans {s t u : State} (h : s.grantsOrStays t) (k : t.grantsOrStays u) :
    s.grantsOrStays u := by
  rcases h with ⟨h1, h2, h3⟩ | ⟨h1, h2, q, h3, h4⟩
  · rw [State.grantsOrStays, h1, h2, h3] at k
    exact k
  · rcases k with ⟨k1, -, k3⟩ | ⟨k1, -⟩
    · exact .inr ⟨h1, k1.trans h2, q, h3, k3.trans h4⟩
    · exact absurd (h2.symm.trans k1) (by decide)

/-- What depends on the bridge's state, its queues and the outbox alone. -/
theorem State.grantsOrStays_of_same {s t : State} (h1 : t.bridge.state = s.bridge.state)
    (h2 : t.bridge.waiting = s.bridge.waiting) (h3 : t.outbox = s.outbox) : s.grantsOrStays t :=
  .inl ⟨h1, h2, h3⟩

theorem State.grantsOrStays_grantIfDue (s : State) : s.grantsOrStays s.grantIfDue := by
  unfold State.grantIfDue
  split
  · next hc =>
    simp only [Bool.and_eq_true, decide_eq_true_eq] at hc
    split
    · exact .inl ⟨rfl, rfl, rfl⟩
    · next q hq =>
      refine .inr ⟨hc.1, by simp [State.grantTo], q, hq, ?_⟩
      simp [State.grantTo, postAll_outbox, notesTo]
  · exact .inl ⟨rfl, rfl, rfl⟩

/-! ### The settling of an event that sets no source -/

/-- What a settling that sets no source leaves: the capture, the run and the other sources, and a grant or nothing. -/
structure State.SettledQuietly (s t : State) : Prop where
  capture : t.capture = s.capture
  run : t.run = s.run
  supply : t.bridge.holds.supply = s.bridge.holds.supply
  grants : s.grantsOrStays t

theorem State.SettledQuietly.trans {s t u : State} (h : s.SettledQuietly t) (k : t.SettledQuietly u) :
    s.SettledQuietly u where
  capture := k.capture.trans h.capture
  run := k.run.trans h.run
  supply := k.supply.trans h.supply
  grants := h.grants.trans k.grants

theorem State.settlePass_within {s : State} {before : Holds} (h : s.judgeSources.bridge.holds.within before) :
    s.SettledQuietly (s.settlePass before) ∧ (s.settlePass before).bridge.holds = s.judgeSources.bridge.holds := by
  unfold State.settlePass
  have hj : s.SettledQuietly s.judgeSources := ⟨rfl, rfl, rfl, .inl ⟨rfl, rfl, rfl⟩⟩
  generalize s.judgeSources = j at h hj
  have hf : j.SettledQuietly (j.followHold before) ∧ (j.followHold before).bridge.holds = j.bridge.holds := by
    rcases State.followHold_within h with hf | hf <;> rw [hf] <;>
      exact ⟨⟨rfl, rfl, rfl, .inl ⟨rfl, rfl, rfl⟩⟩, rfl⟩
  obtain ⟨hf, hfh⟩ := hf
  generalize j.followHold before = f at hf hfh
  rw [State.followPointSources_within (by rw [hfh]; exact h)]
  have hg : f.SettledQuietly f.grantIfDue :=
    ⟨by simp, by simp, by rw [f.grantIfDue_spec.1], f.grantsOrStays_grantIfDue⟩
  have hgh := f.grantIfDue_spec.1
  generalize f.grantIfDue = g at hg hgh
  obtain ⟨hw, -, hst, -, -, -, -, -, hh, -⟩ := g.recommand_spec
  have hr : g.SettledQuietly g.recommand := ⟨by simp, by simp, by rw [hh], .inl ⟨hst, hw, by simp⟩⟩
  exact ⟨((hj.trans hf).trans hg).trans hr, by rw [hh, hgh, hfh]⟩

theorem State.settle_within {s : State} {before : Holds} (h : s.judgeSources.bridge.holds.within before) :
    s.SettledQuietly (s.settle before) := by
  obtain ⟨h1, -⟩ := State.settlePass_within h
  obtain ⟨hmet, hfault, -, -, -, -, -, hlow⟩ := s.settlePass_spec before
  unfold State.settle
  generalize s.settlePass before = p at h1 hmet hfault hlow ⊢
  simp only []
  split
  · exact h1
  · have hnot : p.faultJudged = true → p.bridge.holds.fault = true := by
      intro hp
      rw [hfault]
      by_contra hs
      exact absurd hp (by simp [hlow (by simpa using hs)])
    have hw : p.judgeSources.bridge.holds.within p.bridge.holds :=
      ⟨id, id, fun hm => hmet.trans hm, hnot, id⟩
    exact h1.trans (State.settlePass_within hw).1

/-- What an event that sets no source leaves: the capture and the run; its notices are those of the grant it brings. -/
theorem event_within {s u : State} (h : u.judgeSources.bridge.holds.within s.bridge.holds) :
    (event s u).capture = u.capture ∧ (event s u).run = u.run ∧
      (event s u).bridge.holds.supply = u.bridge.holds.supply ∧
      ∃ box, (event s u).ports = ({ u with outbox := box } : State).flush.ports ∧
        u.grantsOrStays { event s u with outbox := box } := by
  have hs := State.settle_within h
  obtain ⟨hb, hc, -, -, -, hr, -, hp⟩ := event_settle s u
  refine ⟨hc.trans hs.capture, hr.trans hs.run, (congrArg (·.holds.supply) hb).trans hs.supply,
    (u.settle s.bridge.holds).outbox, ?_, ?_⟩
  · rw [hp]
    simp [State.flush]
  · have hg := hs.grants
    simp only [State.grantsOrStays] at hg ⊢
    rw [hb]
    exact hg

/-! ### The start of a round as an event -/

theorem State.clearCells_faultJudged (l : List Nat) (s : State) (h : s.faultJudged = false) :
    (l.foldl State.clearCell s).faultJudged = false := by
  induction l generalizing s with
  | nil => exact h
  | cons i rest ih =>
    refine ih _ ?_
    unfold State.clearCell
    exact State.clearFault_faultJudged _ _ (State.clearFault_faultJudged _ _ (State.clearFault_faultJudged _ _ h))

/-- The conditions that a start withdraws set no FAULT source (R11, R183). -/
theorem State.beginRound_faultJudged (s : State) (h : s.faultJudged = false) : s.beginRound.faultJudged = false := by
  unfold State.beginRound
  exact State.clearCells_faultJudged _ _ ((State.faultJudged_congr rfl rfl rfl).trans h)

/-- The start of a round over a settled bridge sets no source. -/
theorem State.beginRound_within {s : State} (h : s.bridgeSettled = true) :
    s.beginRound.judgeSources.bridge.holds.within s.bridge.holds := by
  obtain ⟨hmet, hfault, -⟩ := s.bridgeSettled_iff.1 h
  have hf : s.beginRound.faultJudged = true → s.bridge.holds.fault = true := by
    intro hb
    rw [hfault]
    by_contra hs
    exact absurd hb (by simp [s.beginRound_faultJudged (by simpa using hs)])
  refine ⟨?_, ?_, ?_, hf, ?_⟩ <;> simp [State.judgeSources, State.accessOpen]
  intro hb
  rw [hmet]
  simpa [State.accessOpen] using hb

/-- A start that polls a cell leaves all but the bus, the register and what a grant brings. -/
theorem State.startRound_cons_frame {s t : State} {first : Nat} {rest : List Nat} (hb : s.bridgeSettled = true)
    (ho : s.outbox = [] ∧ s.commitNote = none) (hl : s.tableInUse.configuredList = first :: rest)
    (ht : t = s.startRound) :
    t = { s with bus := t.bus, bridge := t.bridge, axles := t.axles, visits := t.visits, inUse := t.inUse,
                 faults := t.faults, ports := t.ports, writes := t.writes } := by
  rw [State.startRound_cons hl] at ht
  obtain ⟨hc, hr, -⟩ := event_within (State.beginRound_within hb)
  refine State.eq_iff_fields.2 ?_
  simp [ht, ho, hc, hr]

end Sys2Proof.Machine
end

