-- ==== Sys2Proof/Proofs/PeriodExpiry.lean ====
section
/-! The third overrun over a register that keeps another class's entry at the place of ROUND_OVERRUN (R10, R183). -/

namespace Sys2Proof.Machine

theorem exec_roundPeriodExpiry {s : State} (h : s.running = true) :
    exec .roundPeriodExpiry s = .next s.periodExpires := by
  simp [exec, execRoundPeriodExpiry, act, h]

/-- A state in its third overrun round whose register holds, at the place of ROUND_OVERRUN, a present entry of the class
LAMP_FEEDBACK, which has the policy CONTINUE. No sequence of commands leads to it; `State.calm` does not exclude it. -/
def misfiledOverrun : State :=
  { State.reset with
    phase := .running
    bus := { Bus.reset with inProgress := true, periodTimer := true, overruns := 2 }
    bridge := { Bridge.reset with feedbackA := true, feedbackB := true }
    faults.register := [(overrunKey.place,
      { key := lampKey .a, present := true, outstanding := false, count := 1, raisedAt := none })]
    site.policies.lampFeedback := .continue_ }

theorem misfiledOverrun_calm : misfiledOverrun.calm = true := by
  decide

/-- ROUND_OVERRUN reads as present already, so the third overrun raises nothing and the FAULT source stays clear. -/
theorem misfiledOverrun_fault : misfiledOverrun.periodExpires.bridge.holds.fault = false := by
  decide +kernel

/-- Refutes O19: the third overrun sets the FAULT source only where ROUND_OVERRUN was absent or its entry bears its
own class. A calm state whose register holds an entry of a class with the policy CONTINUE at the place of
ROUND_OVERRUN has the condition present after the expiry and the FAULT source clear. -/
theorem not_periodExpiryMarksOrStartsARound : ¬ Obligations.PeriodExpiryMarksOrStartsARound := by
  unfold Obligations.PeriodExpiryMarksOrStartsARound
  intro h
  obtain ⟨-, hoverrun, -⟩ := h misfiledOverrun misfiledOverrun_calm
  obtain ⟨t, ht, -, hthird, -⟩ := hoverrun rfl rfl
  rw [exec_roundPeriodExpiry (by decide), Host.Outcome.next.injEq] at ht
  obtain ⟨-, hfault⟩ := hthird rfl
  rw [← ht, misfiledOverrun_fault] at hfault
  exact absurd hfault (by decide)

end Sys2Proof.Machine
end

