-- ==== Sys2Proof/Proofs/SupplyLine.lean ====
section
/-! The supply-good line (R13, R36, R55, R168, R209): a fall, which is settled under a standing SUPPLY source, and a
return, which starts a round. -/

namespace Sys2Proof.Machine

/-! ### Notices and writes of an event -/

/-- The ports that the delivery of notices leaves depend on the ports and the outbox alone. -/
theorem State.flush_ports_congr {s t : State} (hp : s.ports = t.ports) (ho : s.outbox = t.outbox) :
    s.flush.ports = t.flush.ports := by
  simp only [State.flush, hp, ho]

theorem State.flush_ports_of_empty {s : State} (h : s.outbox = []) : s.flush.ports = s.ports := by
  rw [State.flush_of_empty s h]

/-- An event that leaves every retained region begins no write. -/
theorem event_writes_of_same {s t : State} (h : changedRegions s (t.settle s.bridge.holds).flush = [])
    (hn : t.commitNote = none) : (event s t).writes = t.writes := by
  unfold event
  rw [retain_of_untouched h (by simpa using hn)]
  simp

/-! ### Settling under a standing SUPPLY source -/

/-- With a hold in force every aspect is RED (R74). -/
theorem Bridge.aspectFor_of_inForce {b : Bridge} (e : BridgeEnd) (h : b.holds.inForce = true) :
    b.aspectFor e = .red := by
  unfold Bridge.aspectFor
  split
  · rfl
  · split <;> simp [h]

/-- What a settling under a standing SUPPLY source leaves: nothing is ended, granted or noticed, and the LAMP_FEEDBACK
of an end whose lamps show RED alone becomes absent (log 58). -/
structure State.SettledHeld (s t : State) : Prop where
  capture : t.capture = s.capture
  run : t.run = s.run
  axles : t.axles = s.axles
  visits : t.visits = s.visits
  inUse : t.inUse = s.inUse
  outbox : t.outbox = s.outbox
  supply : t.bridge.holds.supply = true
  lamps : ∀ e, t.bridge.lamps e = s.bridge.lamps e
  lampEntry : ∀ e, t.faultEntry (lampKey e) =
    { s.faultEntry (lampKey e) with
      present := (s.faultEntry (lampKey e)).present && !lampsMatch .red (s.bridge.lamps e) }
  otherEntry : ∀ k : FaultKey, (∀ e, k.place ≠ (lampKey e).place) → t.faultEntry k = s.faultEntry k
  lastStable : t.faults.lastStable = s.faults.lastStable

theorem State.SettledHeld.trans {s t u : State} (h : s.SettledHeld t) (k : t.SettledHeld u) : s.SettledHeld u where
  capture := k.capture.trans h.capture
  run := k.run.trans h.run
  axles := k.axles.trans h.axles
  visits := k.visits.trans h.visits
  inUse := k.inUse.trans h.inUse
  outbox := k.outbox.trans h.outbox
  supply := k.supply
  lamps := fun e => (k.lamps e).trans (h.lamps e)
  lampEntry := fun e => by rw [k.lampEntry, h.lampEntry, h.lamps, Bool.and_assoc, Bool.and_self]
  otherEntry := fun key hk => (k.otherEntry key hk).trans (h.otherEntry key hk)
  lastStable := k.lastStable.trans h.lastStable

/-- R75: the comparison of an end makes the condition of its lamps absent where they match. -/
theorem State.faultEntry_compareLamps_self (s : State) (e : BridgeEnd) :
    (s.compareLamps e).faultEntry (lampKey e) =
      { s.faultEntry (lampKey e) with
        present := (s.faultEntry (lampKey e)).present && !lampsMatch (s.bridge.aspect e) (s.bridge.lamps e) } := by
  have hset : ∀ on, (s.setFeedback e on).faultEntry (lampKey e) = s.faultEntry (lampKey e) :=
    fun on => State.faultEntry_congr (by simp) _
  unfold State.compareLamps
  split
  · next h => rw [State.faultEntry_clearFault, hset, h, Bool.not_true, Bool.and_false]
  · next h =>
    have hno : lampsMatch (s.bridge.aspect e) (s.bridge.lamps e) = false := by simpa using h
    rw [hno, Bool.not_false, Bool.and_true]
    split
    · rfl
    · exact hset true

/-- The comparison of an end leaves the aspects and the lamps of each end. -/
theorem State.compareLamps_signals (s : State) (e f : BridgeEnd) :
    (s.compareLamps e).bridge.aspect f = s.bridge.aspect f ∧ (s.compareLamps e).bridge.lamps f = s.bridge.lamps f := by
  obtain ⟨-, -, -, -, -, -, -, -, ha, hb, la, lb, -⟩ := s.compareLamps_bridge e
  exact Bridge.aspect_lamps_congr f ha hb la lb

theorem State.compareLamps_lastStable (s : State) (e : BridgeEnd) :
    (s.compareLamps e).faults.lastStable = s.faults.lastStable := by
  have hclear : ∀ (u : State) (k : FaultKey), (u.clearFault k).faults.lastStable = u.faults.lastStable := by
    intro u k
    unfold State.clearFault
    split <;> rfl
  unfold State.compareLamps
  split
  · rw [hclear]
    simp
  · split
    · rfl
    · simp

/-- The signals commanded anew under a standing SUPPLY source. -/
theorem State.recommand_held {s : State} (h : s.bridge.holds.supply = true) : s.SettledHeld s.recommand := by
  have hin : s.bridge.holds.inForce = true := by simp [Holds.inForce, h]
  obtain ⟨-, -, -, -, -, -, -, -, hholds, -⟩ := s.recommand_spec
  have hred : ∀ e, s.bridge.aspectFor e = .red := fun e => Bridge.aspectFor_of_inForce e hin
  unfold State.recommand at hholds ⊢
  simp only [hred] at hholds ⊢
  generalize hu : ({ s with bridge.aspectA := .red, bridge.aspectB := .red } : State) = u at hholds ⊢
  have haspect : ∀ e, u.bridge.aspect e = .red := by
    intro e
    subst hu
    cases e <;> rfl
  have hlamps : ∀ e, u.bridge.lamps e = s.bridge.lamps e := by
    intro e
    subst hu
    cases e <;> rfl
  have hentry : ∀ k, u.faultEntry k = s.faultEntry k := by
    intro k
    subst hu
    rfl
  refine ⟨?_, ?_, ?_, ?_, ?_, ?_, by rw [hholds]; exact h, fun e => ?_, fun e => ?_, fun k hk => ?_, ?_⟩
  · simp [← hu]
  · simp [← hu]
  · simp [← hu]
  · simp [← hu]
  · simp [← hu]
  · simp [← hu]
  · rw [(State.compareLamps_signals _ _ e).2, (State.compareLamps_signals _ _ e).2, hlamps]
  · cases e with
    | a =>
      rw [State.faultEntry_compareLamps _ (lampKey_place_ne (by decide)), State.faultEntry_compareLamps_self, haspect,
        hlamps, hentry]
    | b =>
      rw [State.faultEntry_compareLamps_self, (State.compareLamps_signals _ _ _).1, (State.compareLamps_signals _ _ _).2,
        haspect, hlamps, State.faultEntry_compareLamps _ (lampKey_place_ne (by decide)), hentry]
  · rw [State.faultEntry_compareLamps _ (hk .b), State.faultEntry_compareLamps _ (hk .a), hentry]
  · rw [State.compareLamps_lastStable, State.compareLamps_lastStable]
    simp [← hu]

/-- With no capture waiting a hold that comes into force or leaves it touches the grant timer alone. -/
theorem State.followHold_no_capture {s : State} (before : Holds) (h : s.capture.waiting = none) :
    ∃ timer, s.followHold before = { s with bridge.grantTimer := timer } := by
  unfold State.followHold
  split
  · refine ⟨(s.pauseGrantTimer true).bridge.grantTimer, ?_⟩
    simp only [State.refuseWaiting, State.pauseGrantTimer, h]
  · split
    · exact ⟨_, rfl⟩
    · exact ⟨s.bridge.grantTimer, rfl⟩

/-- A pass of settling under a standing SUPPLY source with no capture waiting, that sets no source of a waiting point.
-/
theorem State.settlePass_supply {s : State} {before : Holds} (hs : s.bridge.holds.supply = true)
    (hc : s.capture.waiting = none) (hg : s.bridge.holds.gatehouse = before.gatehouse)
    (hl : s.bridge.holds.lane = before.lane) (hf : s.faultJudged = true → before.fault = true) :
    s.SettledHeld (s.settlePass before) ∧ (s.settlePass before).bridge.holds.gatehouse = before.gatehouse ∧
      (s.settlePass before).bridge.holds.lane = before.lane := by
  obtain ⟨timer, hfollow⟩ := State.followHold_no_capture (s := s.judgeSources) before hc
  unfold State.settlePass
  rw [hfollow]
  generalize hu : ({ s.judgeSources with bridge.grantTimer := timer } : State) = u
  have hholds : u.bridge.holds = s.judgeSources.bridge.holds := by rw [← hu]
  have hsupply : u.bridge.holds.supply = true := by rw [hholds]; exact hs
  have hpoint : u.followPointSources before = u := by
    have himp : ∀ a b : Bool, (b = true → a = true) → (!a && b) = false := by decide
    have hnot : (!before.fault && u.bridge.holds.fault) = false := himp _ _ (by rw [hholds]; exact hf)
    have hga : u.bridge.holds.gatehouse = before.gatehouse := by rw [hholds]; exact hg
    have hla : u.bridge.holds.lane = before.lane := by rw [hholds]; exact hl
    simp [State.followPointSources, hnot, hga, hla]
  have hgrant : u.grantIfDue = u := by
    have hheld : u.held = true := by simp [State.held, Holds.inForce, hsupply]
    simp [State.grantIfDue, hheld]
  rw [hpoint, hgrant]
  have hr := State.recommand_held hsupply
  obtain ⟨-, -, -, -, -, -, -, -, hrh, -⟩ := u.recommand_spec
  subst hu
  exact ⟨⟨hr.capture, hr.run, hr.axles, hr.visits, hr.inUse, hr.outbox, hr.supply, hr.lamps, hr.lampEntry, hr.otherEntry,
    hr.lastStable⟩, by rw [hrh]; exact hg, by rw [hrh]; exact hl⟩

/-- The settling of an event under a standing SUPPLY source. -/
theorem State.settle_supply {s : State} {before : Holds} (hs : s.bridge.holds.supply = true)
    (hc : s.capture.waiting = none) (hg : s.bridge.holds.gatehouse = before.gatehouse)
    (hl : s.bridge.holds.lane = before.lane) (hf : s.faultJudged = true → before.fault = true) :
    s.SettledHeld (s.settle before) := by
  obtain ⟨h1, hg1, hl1⟩ := State.settlePass_supply hs hc hg hl hf
  obtain ⟨-, hfault, -, -, -, -, -, hlow⟩ := s.settlePass_spec before
  unfold State.settle
  generalize s.settlePass before = p at h1 hg1 hl1 hfault hlow ⊢
  simp only []
  split
  · exact h1
  · have hnot : p.faultJudged = true → p.bridge.holds.fault = true := by
      intro hp
      rw [hfault]
      by_contra hn
      exact absurd hp (by simp [hlow (by simpa using hn)])
    exact h1.trans (State.settlePass_supply h1.supply (by rw [h1.capture]; exact hc) rfl rfl hnot).1

/-! ### A fall of the line -/

/-- Where no capture waits there is none to refuse. -/
theorem State.refuseWaiting_none {s : State} (code : Status) (round : Option Nat) (h : s.capture.waiting = none) :
    s.refuseWaiting code round = s := by
  simp [State.refuseWaiting, h]

/-- The end of a WAITING capture with a code and no round (R45). -/
theorem State.refuseWaiting_some {s : State} {c : Capture} (code : Status) (h : s.capture.waiting = some c) :
    (s.refuseWaiting code none).capture =
      { s.capture with
        waiting := none, arm := false
        lastOutcome := some { origin := c.origin, ident := some c.ident, outcome := code, round := none } } := by
  simp [State.refuseWaiting, h, State.endCapture]

theorem State.refuseWaiting_outbox (s : State) (code : Status) :
    (s.refuseWaiting code none).outbox = s.outbox ++
      (s.capture.waiting.toList).map (fun c => (c.origin.port, .captureOutcome c.origin c.ident code none)) := by
  unfold State.refuseWaiting
  split
  · next h => simp [h]
  · next c h => simp [h, State.endCapture, State.post]

/-- The end of a waiting point leaves the run with its points (R168). -/
theorem State.endPoint_run_eq (s : State) (code : Status) :
    (s.endPoint code).run = s.run.map (fun r => { r with waiting := none }) := by
  unfold State.endPoint
  split
  · next h => rw [h]; rfl
  · next r h =>
    split
    · next hw => rw [h, Option.map_some, ← hw]
    · rw [h]; rfl

theorem State.endPoint_outbox (s : State) (code : Status) :
    (s.endPoint code).outbox = s.outbox ++
      ((s.run.bind (·.waiting)).toList).map (fun w => (.metrology, .testPointEnded w.target w.reference code)) := by
  unfold State.endPoint
  split
  · next h => simp [h]
  · next r h =>
    split
    · next hw => simp [h, hw]
    · next w hw => simp [h, hw, State.post]

/-- The notices of a fall: of a WAITING capture and of a waiting point that it ends. -/
def State.fallNews (s : State) : List (Port × Notice) :=
  (s.capture.waiting.toList).map (fun c => (c.origin.port, .captureOutcome c.origin c.ident .supply none)) ++
    ((s.run.bind (·.waiting)).toList).map (fun w => (.metrology, .testPointEnded w.target w.reference .supply))

theorem State.fall_outbox (s : State) (h : s.outbox = []) : s.fall.outbox = s.fallNews := by
  have hr : ((s.abandonRound.withdrawRound).refuseWaiting .supply none).outbox =
      (s.capture.waiting.toList).map (fun c => (c.origin.port, .captureOutcome c.origin c.ident .supply none)) := by
    rw [State.refuseWaiting_outbox]
    simp [h]
  have ho : s.fall.outbox = (((s.abandonRound.withdrawRound).refuseWaiting .supply none).endPoint .supply).outbox := rfl
  rw [ho, State.endPoint_outbox, hr]
  simp [State.fallNews]

theorem State.fall_capture (s : State) :
    s.fall.capture = ((s.abandonRound.withdrawRound).refuseWaiting .supply none).capture := by
  simp [State.fall]

theorem State.fall_capture_none {s : State} (h : s.capture.waiting = none) : s.fall.capture = s.capture := by
  rw [State.fall_capture, State.refuseWaiting_none (s := s.abandonRound.withdrawRound) _ _ (by simpa using h)]
  simp

theorem State.fall_capture_some {s : State} {c : Capture} (h : s.capture.waiting = some c) :
    s.fall.capture =
      { s.capture with
        waiting := none, arm := false
        lastOutcome := some { origin := c.origin, ident := some c.ident, outcome := .supply, round := none } } := by
  rw [State.fall_capture,
    State.refuseWaiting_some (s := s.abandonRound.withdrawRound) .supply (c := c) (by simpa using h)]
  simp

theorem State.fall_capture_waiting (s : State) : s.fall.capture.waiting = none := by
  cases h : s.capture.waiting with
  | none => rw [State.fall_capture_none h, h]
  | some c => rw [State.fall_capture_some h]

theorem State.fall_run (s : State) : s.fall.run = s.run.map (fun r => { r with waiting := none }) := by
  have hr : s.fall.run = (((s.abandonRound.withdrawRound).refuseWaiting .supply none).endPoint .supply).run := rfl
  rw [hr, State.endPoint_run_eq]
  simp

/-- A fall sets the SUPPLY source and nothing else of the bridge. -/
theorem State.fall_bridge (s : State) :
    s.fall.bridge = { s.bridge with holds := { s.bridge.holds with supply := true } } := by
  simp [State.fall]

theorem State.fall_bus (s : State) :
    s.fall.bus = { s.bus with inProgress := false, toPoll := [], poll := .idle, periodTimer := false } := by
  simp [State.fall, State.abandonRound]

theorem State.fall_weigh (s : State) :
    s.fall.weigh = { s.weigh with histories := [], latest := none, window := [], stable := false } := by
  simp [State.fall, State.withdrawRound, State.abandonRound]

/-- A fall with the line up over a calm state, its event settled. -/
theorem State.fall_settledHeld {s : State} (h : s.bridgeSettled = true) :
    s.fall.SettledHeld (s.fall.settle s.bridge.holds) := by
  obtain ⟨-, hfault, -⟩ := s.bridgeSettled_iff.1 h
  have hf : s.fall.faultJudged = s.faultJudged := State.faultJudged_congr (by simp) (by simp) (by simp)
  refine State.settle_supply ?_ s.fall_capture_waiting ?_ ?_ ?_
  · rw [State.fall_bridge]
  · rw [State.fall_bridge]
  · rw [State.fall_bridge]
  · rw [hf, hfault]
    exact id

theorem exec_supplyFall {s : State} (hr : s.running = true) (h : s.supplyGood = true) :
    exec .supplyFall s = .next (event s s.fall) := by
  simp [exec, execSupplyFall, hr, h]

theorem exec_supplyReturn {s : State} (hr : s.running = true) (h : s.supplyGood = false) :
    exec .supplyReturn s = .next s.returns := by
  simp [exec, execSupplyReturn, hr, h]

/-- What a fall begins to write: nothing, for it touches no retained region. -/
theorem State.fall_writes {s : State} (h : s.calm = true) : (event s s.fall).writes = s.writes := by
  obtain ⟨-, -, hb, hn⟩ := s.calm_iff.1 h
  have hs := State.fall_settledHeld hb
  refine (event_writes_of_same (changedRegions_same ?_ ?_ ?_ ?_ ?_ ?_ ?_) ?_).trans ?_
  · simp
  · simp
  · simpa using hs.visits
  · simp
  · simp
  · simp
  · simp
  · simpa using hn
  · simp

/-! ### A return of the line -/

/-- The state that a return of the line finds for the start of its round. -/
def State.lineUp (s : State) : State := { s with supplyGood := true, dipTimer := false, bridge.holds.supply := false }

theorem State.returns_eq (s : State) : s.returns = (event s s.lineUp).startRound := rfl

theorem State.lineUp_tableInUse (s : State) : (event s s.lineUp).tableInUse = s.tableInUse := by
  simp [State.tableInUse, State.lineUp]

/-- A return sets no source. -/
theorem State.lineUp_within {s : State} (h : s.bridgeSettled = true) :
    s.lineUp.judgeSources.bridge.holds.within s.bridge.holds := by
  obtain ⟨hmet, hfault, -⟩ := s.bridgeSettled_iff.1 h
  have hf : s.lineUp.faultJudged = s.faultJudged := State.faultJudged_congr rfl rfl rfl
  refine ⟨id, id, fun hm => hmet.trans hm, fun hj => ?_, fun hs => ?_⟩
  · exact hfault.trans (hf.symm.trans hj)
  · cases hs

/-- Where an event brings a grant or nothing, its notices are those of the grant. -/
theorem State.grantsOrStays.box_eq {s t : State} {box : List (Port × Notice)}
    (h : s.grantsOrStays { t with outbox := box }) (ho : s.outbox = []) : box = s.grantNews t := by
  rcases h with ⟨h1, -, h3⟩ | ⟨h1, h2, q, h3, h4⟩
  · have hbox : box = [] := h3.trans ho
    have hst : t.bridge.state = s.bridge.state := h1
    simp [State.grantNews, hst, hbox]
  · have hbox : box = s.outbox ++ notesTo [.lane, .gatehouse] (.granted q.ident q.entryEnd) := h4
    have hst : t.bridge.state = .granted := h2
    simp [State.grantNews, hst, h1, h3, hbox, ho]

/-- Two events that set no source, one after the other: their notices are those of the one grant they may bring. -/
theorem ports_of_two_events {s u v t : State} {box box' : List (Port × Notice)} (hs : s.outbox = [])
    (hu : u.ports = ({ s with outbox := box } : State).flush.ports) (h1 : s.grantsOrStays { u with outbox := box })
    (hv : v.bridge = u.bridge ∧ v.ports = u.ports ∧ v.outbox = [])
    (ht : t.ports = ({ v with outbox := box' } : State).flush.ports) (h2 : v.grantsOrStays { t with outbox := box' }) :
    t.ports = (t.heard s (s.grantNews t)).ports := by
  obtain ⟨hvb, hvp, hvo⟩ := hv
  have hheard : (t.heard s (s.grantNews t)).ports = ({ s with outbox := s.grantNews t } : State).flush.ports :=
    State.flush_ports_congr rfl rfl
  rw [hheard]
  rcases h1 with ⟨k1, k2, k3⟩ | ⟨k1, k2, q, k3, k4⟩
  · have hbox : box = [] := k3.trans hs
    subst hbox
    have hup : u.ports = s.ports := hu.trans (State.flush_ports_of_empty rfl)
    have hst : s.grantsOrStays { t with outbox := box' } := by
      simp only [State.grantsOrStays] at h2 k1 k2 ⊢
      rw [hvb, hvo, k1, k2] at h2
      rw [hs]
      exact h2
    rw [ht, ← hst.box_eq hs]
    exact State.flush_ports_congr (hvp.trans hup) rfl
  · have hug : u.bridge.state = .granted := k2
    rcases h2 with ⟨j1, -, j3⟩ | ⟨j1, -⟩
    · have hbox' : box' = [] := j3.trans hvo
      subst hbox'
      have htg : t.bridge.state = .granted := by
        have hsame : t.bridge.state = v.bridge.state := j1
        rw [hsame, hvb, hug]
      have hnews : s.grantNews t = box := by
        have hbox : box = s.outbox ++ notesTo [.lane, .gatehouse] (.granted q.ident q.entryEnd) := k4
        simp [State.grantNews, htg, k1, k3, hbox, hs]
      have htp : t.ports = u.ports := (ht.trans (State.flush_ports_of_empty rfl)).trans hvp
      rw [htp, hu, hnews]
    · exact absurd (j1.symm.trans ((congrArg Bridge.state hvb).trans hug)) (by decide)

/-- What the event of a fall leaves (R13, R36, R55, R168, R209). -/
theorem State.fall_spec {s : State} (hcalm : s.calm = true) (t : State) (ht : t = event s s.fall) :
    s.fall.SettledHeld { t with outbox := s.fallNews } ∧ t.ports = (t.heard s s.fallNews).ports ∧
      t.bridge.aspectA = .red ∧ t.bridge.aspectB = .red := by
  obtain ⟨-, ho, hb, -⟩ := s.calm_iff.1 hcalm
  have hs := State.fall_settledHeld hb
  obtain ⟨hbr, hc, ha, hv, hi, hrun, hf, hp⟩ := event_settle s s.fall
  rw [← ht] at hbr hc ha hv hi hrun hf hp
  have hbox : (s.fall.settle s.bridge.holds).outbox = s.fallNews := hs.outbox.trans (s.fall_outbox ho)
  have hentry : ∀ k, t.faultEntry k = (s.fall.settle s.bridge.holds).faultEntry k :=
    State.faultEntry_congr (congrArg _ hf)
  have hsupply : t.bridge.holds.supply = true := by rw [hbr]; exact hs.supply
  have hin : t.bridge.holds.inForce = true := by simp [Holds.inForce, hsupply]
  have hset : t.bridgeSettled = true := ht ▸ event_bridgeSettled s s.fall
  obtain ⟨-, -, -, hA, hB, -⟩ := t.bridgeSettled_iff.1 hset
  refine ⟨⟨hc.trans hs.capture, hrun.trans hs.run, ha.trans hs.axles, hv.trans hs.visits, hi.trans hs.inUse,
    (s.fall_outbox ho).symm, hsupply, fun e => (congrArg (·.lamps e) hbr).trans (hs.lamps e),
    fun e => (hentry _).trans (hs.lampEntry e), fun k hk => (hentry k).trans (hs.otherEntry k hk),
    (congrArg _ hf).trans hs.lastStable⟩, ?_, hA.trans (Bridge.aspectFor_of_inForce _ hin),
    hB.trans (Bridge.aspectFor_of_inForce _ hin)⟩
  rw [hp]
  exact State.flush_ports_congr (by simp) hbox

theorem Faults.eq_with_register {f g : Faults} (h : f.lastStable = g.lastStable) :
    f = { g with register := f.register } := by
  cases f
  cases g
  simpa using h

/-- With no latest round values the live weight is INVALID (R33). -/
theorem State.liveWord_of_no_round {s : State} (h : s.weigh.latest = none) : s.liveWord = .invalid := by
  simp [State.liveWord, h]

/-- What the two events of a return leave where the round has a cell to poll (R209). -/
theorem State.returns_spec {s : State} (hcalm : s.calm = true) {first : Nat} {rest : List Nat}
    (hl : s.tableInUse.configuredList = first :: rest) (t : State) (ht : t = s.returns) :
    t.bridge.holds.supply = false ∧ t.capture = s.capture ∧ t.run = s.run ∧
      t.ports = (t.heard s (s.grantNews t)).ports := by
  obtain ⟨-, ho, hb, -⟩ := s.calm_iff.1 hcalm
  have hl' : (event s s.lineUp).tableInUse.configuredList = first :: rest := by rw [State.lineUp_tableInUse, hl]
  rw [State.returns_eq, State.startRound_cons hl'] at ht
  obtain ⟨c1, r1, s1, box1, p1, g1⟩ := event_within (State.lineUp_within hb)
  have hset := event_bridgeSettled s s.lineUp
  have hout := event_outbox s s.lineUp
  generalize event s s.lineUp = u at c1 r1 s1 p1 g1 hset hout ht
  obtain ⟨c2, r2, s2, box2, p2, g2⟩ := event_within (State.beginRound_within hset)
  rw [← ht] at c2 r2 s2 p2 g2
  refine ⟨?_, ?_, ?_, ?_⟩
  · rw [s2, (State.beginRound_frame u).2.2.2.2.1, s1]
    rfl
  · exact (c2.trans (by simp)).trans c1
  · exact (r2.trans (by simp)).trans r1
  · exact ports_of_two_events ho p1 g1 (by simp [hout]) p2 g2

/-- A return that starts a round with a cell to poll, as its two events. -/
theorem State.returns_cons {s : State} {first : Nat} {rest : List Nat}
    (hl : s.tableInUse.configuredList = first :: rest) :
    s.returns = event (event s s.lineUp) (event s s.lineUp).beginRound := by
  rw [State.returns_eq, State.startRound_cons (by rw [State.lineUp_tableInUse, hl])]

theorem State.returns_line {s t : State} {first : Nat} {rest : List Nat}
    (hl : s.tableInUse.configuredList = first :: rest) (ht : t = s.returns) :
    t.supplyGood = true ∧ t.dipTimer = false := by
  rw [State.returns_cons hl] at ht
  simp [ht, State.lineUp]

/-- What a return leaves of the state. -/
theorem State.returns_eq_with {s t : State} {first : Nat} {rest : List Nat} (hcalm : s.calm = true)
    (hl : s.tableInUse.configuredList = first :: rest) (ht : t = s.returns) (hc : t.capture = s.capture)
    (hr : t.run = s.run) :
    t = { s with bus := t.bus, bridge := t.bridge, axles := t.axles, visits := t.visits, inUse := t.inUse,
                 supplyGood := true, dipTimer := false, faults := t.faults, ports := t.ports, writes := t.writes } := by
  obtain ⟨-, ho, -, hn⟩ := s.calm_iff.1 hcalm
  rw [State.returns_cons hl] at ht
  have hup : s.lineUp = { s with supplyGood := true, dipTimer := false, bridge := s.lineUp.bridge } := rfl
  have hu := event_frame s s.lineUp
  generalize event s s.lineUp = u at ht hu
  have ht' := event_frame u u.beginRound
  have ho' := event_outbox u u.beginRound
  have hn' := event_commitNote u u.beginRound
  rw [← ht] at ht' ho' hn'
  refine State.eq_iff_fields.2 ?_
  simp [ht', hu, hc, hr, ho, ho', hn, hn']
  rw [hup]
  simp

/-- Settles O36: a fall is one event, settled under the SUPPLY source it sets; a return is one event that sets no
source, after which the start of the round is another. -/
theorem supplyDipStopsRoundsAndItsReturnStartsOne : Obligations.SupplyDipStopsRoundsAndItsReturnStartsOne := by
  unfold Obligations.SupplyDipStopsRoundsAndItsReturnStartsOne
  intro s hcalm
  obtain ⟨hr, ho, hb, hn⟩ := s.calm_iff.1 hcalm
  refine ⟨fun h => ?_, fun h => ?_, fun h => ?_, fun first rest h hl => ?_⟩
  · simp [exec, execSupplyFall, h]
  · simp [exec, execSupplyReturn, h]
  · refine ⟨_, exec_supplyFall hr h, ?_⟩
    have hw := State.fall_writes hcalm
    have hframe := event_frame s s.fall
    have hn' := event_commitNote s s.fall
    have ho' := event_outbox s s.fall
    generalize ht : event s s.fall = t at hw hframe hn' ho' ⊢
    obtain ⟨hs, hp, hA, hB⟩ := State.fall_spec hcalm t ht.symm
    have hentry : ∀ k, s.fall.faultEntry k = s.faultEntry k := State.faultEntry_congr (by simp)
    have hlamps : ∀ e, s.fall.bridge.lamps e = s.bridge.lamps e := fun e => by rw [s.fall_bridge]; cases e <;> rfl
    have hline : s.fall.supplyGood = false ∧ s.fall.dipTimer = true := ⟨rfl, rfl⟩
    have hsupply : t.bridge.holds.supply = true := hs.supply
    have hstable : t.faults.lastStable = s.faults.lastStable := hs.lastStable.trans (by simp)
    have hlatest : t.weigh.latest = none := by simp [hframe, s.fall_weigh]
    have ha : t.axles = s.axles := hs.axles.trans (by simp)
    have hv : t.visits = s.visits := hs.visits.trans (by simp)
    have hi : t.inUse = s.inUse := hs.inUse.trans (by simp)
    refine ⟨by simp [hframe, hline], by simp [hframe, hline], hsupply, by simp [State.held, Holds.inForce, hsupply], hA, hB,
      by simp [hframe, s.fall_bus], by simp [hframe, s.fall_weigh], State.liveWord_of_no_round hlatest,
      fun c hc => hs.capture.trans (State.fall_capture_some hc), fun hc => hs.capture.trans (State.fall_capture_none hc),
      hs.run.trans s.fall_run, fun e => ?_, fun k hk => ?_, Faults.eq_with_register hstable, hp, ?_⟩
    · exact (hs.lampEntry e).trans (by rw [hentry, hlamps])
    · exact (hs.otherEntry k hk).trans (hentry k)
    · refine State.eq_iff_fields.2 ?_
      simp [hframe, hw, hn', ho', ha, hv, hi, hline, ho, hn]
  · obtain ⟨hs, hc, hrun, hp⟩ := State.returns_spec hcalm hl _ rfl
    have hl' : (event s s.lineUp).tableInUse.configuredList = first :: rest := by rw [State.lineUp_tableInUse, hl]
    have hbus : s.returns.bus = (event s s.lineUp).beginRound.bus := by
      rw [State.returns_cons hl]
      simp
    have hfirst : (event s s.lineUp).bus = s.bus := by simp [State.lineUp]
    rw [State.beginRound_bus_cons hl', hfirst, State.lineUp_tableInUse] at hbus
    refine ⟨_, exec_supplyReturn hr h, ?_⟩
    generalize ht : s.returns = t at hs hc hrun hp hbus
    have hline := State.returns_line hl ht.symm
    exact ⟨hline.1, hline.2, hs, by rw [hbus], by rw [hbus], by rw [hbus], by rw [hbus], by rw [hbus], by rw [hbus],
      by rw [hbus], by rw [hbus]; rfl, hp, State.returns_eq_with hcalm hl ht.symm hc hrun⟩

end Sys2Proof.Machine
end

