-- ==== Sys2Proof/Proofs/StartEvents.lean ====
section
/-! The events of a start (R80, R208): over the volatile state of a start an event grants nothing and ends nothing, so
it judges the FAULT source, compares the lamps, delivers its notices and begins its write. -/

namespace Sys2Proof.Machine

/-- The volatile state of a start, after a bridge whose lamps stand (R58, R80, R87): no grant, no capture, no run, no
access, no hold but the Fault Unit's, no condition of the lamps present. -/
structure State.AtStart (b : Bridge) (t : State) : Prop where
  bridge : t.bridge =
    { b.started with
      feedbackA := t.bridge.feedbackA, feedbackB := t.bridge.feedbackB
      holds := { Holds.clear with fault := t.bridge.holds.fault } }
  capture : t.capture = .reset
  axles : t.axles = .reset
  run : t.run = none
  inUse : t.inUse = none
  staged : t.staged = none
  lamps : ∀ e, (t.faultEntry (lampKey e)).present = false

/-- The retained write that an event of a start begins for some regions, none for none. -/
def begunWrites (regions : List Region) : List RetainedWrite :=
  if regions = [] then [] else [{ regions := regions, commit := none }]

/-- With no commit to note an event begins the write of the regions that it changed. -/
theorem retain_of_no_commit {s u : State} (hn : u.commitNote = none) :
    retain s u = { u with writes := u.writes ++ begunWrites (changedRegions s u) } := by
  unfold retain begunWrites
  split
  · next hempty =>
    have hnil : changedRegions s u = [] := by simpa [hn] using hempty
    rw [hnil, if_pos rfl, List.append_nil]
  · next hsome =>
    have hcons : changedRegions s u ≠ [] := by simpa [hn] using hsome
    simp only [hcons, if_false, ← hn]

/-- The bridge with the FAULT source and the feedback timers set. -/
def Bridge.judged (b : Bridge) (fault feedbackA feedbackB : Bool) : Bridge :=
  { b with holds := { b.holds with fault := fault }, feedbackA := feedbackA, feedbackB := feedbackB }

section
variable {b : Bridge} {u : State}

/-- The FAULT source and the feedback timers are free. -/
theorem State.AtStart.judged (h : u.AtStart b) (fault feedbackA feedbackB : Bool) :
    State.AtStart b { u with bridge := u.bridge.judged fault feedbackA feedbackB } := by
  have hb := h.bridge
  refine ⟨?_, h.capture, h.axles, h.run, h.inUse, h.staged, h.lamps⟩
  simp only [Bridge.judged]
  rw [hb]

theorem State.AtStart.judgeSources (h : u.AtStart b) :
    u.judgeSources = { u with bridge := u.bridge.judged u.faultJudged u.bridge.feedbackA u.bridge.feedbackB } := by
  have hmanual : u.bridge.holds.manual = false := by rw [h.bridge]; rfl
  have hmet : u.bridge.holds.metrology = false := by rw [h.bridge]; rfl
  have hsame : (u.accessOpen || u.run.isSome || u.bridge.holds.manual) = u.bridge.holds.metrology := by
    simp [State.accessOpen, h.staged, h.run, hmanual, hmet]
  simp only [State.judgeSources, hsame, Bridge.judged]

/-- With no capture and no grant timer the change of the hold set brings nothing (R77, R78). -/
theorem State.AtStart.followHold (h : u.AtStart b) (before : Holds) : u.followHold before = u := by
  have htimer : u.bridge.grantTimer = none := by rw [h.bridge]; rfl
  have hpause : ∀ paused, u.pauseGrantTimer paused = u := by
    intro paused
    simp only [State.pauseGrantTimer, htimer, Option.map_none]
    rw [← htimer]
  have hwaiting : u.capture.waiting = none := by rw [h.capture]; rfl
  unfold State.followHold
  simp only [hpause, State.refuseWaiting_none _ _ hwaiting, ite_self]

theorem State.AtStart.followPointSources (h : u.AtStart b) (before : Holds) : u.followPointSources before = u := by
  have hend : u.endPoint .held = u := by simp [State.endPoint, h.run]
  unfold State.followPointSources
  simp only [hend, ite_self]

theorem State.AtStart.grantIfDue (h : u.AtStart b) : u.grantIfDue = u := by
  have hstate : u.bridge.state = .occupiedUnknown := by rw [h.bridge]; rfl
  simp [State.grantIfDue, hstate]

/-- The comparison of the lamps of an end sets its feedback timer and nothing else. -/
theorem State.AtStart.compareLamps (h : u.AtStart b) (e : BridgeEnd) : ∃ on, u.compareLamps e = u.setFeedback e on := by
  have hclear : (u.setFeedback e false).clearFault (lampKey e) = u.setFeedback e false :=
    State.clearFault_of_absent ((congrArg _ (State.faultEntry_congr (by simp) _)).trans (h.lamps e))
  unfold State.compareLamps
  split
  · exact ⟨false, hclear⟩
  · rw [if_neg (by simp [h.lamps e])]
    exact ⟨true, rfl⟩

theorem State.AtStart.recommand (h : u.AtStart b) :
    ∃ fa fb, u.recommand = { u with bridge := u.bridge.judged u.bridge.holds.fault fa fb } := by
  have haspects : ({ u with bridge.aspectA := u.bridge.aspectFor .a, bridge.aspectB := u.bridge.aspectFor .b } : State)
      = u := by
    have hgrant : u.bridge.grant = none := by rw [h.bridge]; rfl
    have hA : u.bridge.aspectFor .a = u.bridge.aspectA := by
      rw [Bridge.aspectFor, hgrant, h.bridge]
      rfl
    have hB : u.bridge.aspectFor .b = u.bridge.aspectB := by
      rw [Bridge.aspectFor, hgrant, h.bridge]
      rfl
    rw [hA, hB]
  unfold State.recommand
  rw [haspects]
  obtain ⟨fa, ha⟩ := h.compareLamps .a
  have hs : State.AtStart b (u.setFeedback .a fa) := h.judged u.bridge.holds.fault fa u.bridge.feedbackB
  obtain ⟨fb, hb⟩ := hs.compareLamps .b
  exact ⟨fa, fb, (congrArg (State.compareLamps · .b) ha).trans hb⟩

/-- The settling of an event of a start. -/
theorem State.AtStart.settle (h : u.AtStart b) (before : Holds) :
    ∃ fa fb, u.settle before = { u with bridge := u.bridge.judged u.faultJudged fa fb } := by
  have hj := h.judged u.faultJudged u.bridge.feedbackA u.bridge.feedbackB
  have hpass : ∃ fa fb, u.settlePass before = { u with bridge := u.bridge.judged u.faultJudged fa fb } := by
    unfold State.settlePass
    rw [h.judgeSources, hj.followHold, hj.followPointSources, hj.grantIfDue]
    obtain ⟨fa, fb, hr⟩ := hj.recommand
    exact ⟨fa, fb, hr⟩
  obtain ⟨fa, fb, hp⟩ := hpass
  refine ⟨fa, fb, ?_⟩
  unfold State.settle
  rw [hp]
  exact if_pos (State.faultJudged_congr rfl rfl rfl)

/-- What an event of a start leaves: its notices delivered, its write begun, and the bridge as at a start. -/
theorem State.AtStart.event_eq (h : u.AtStart b) (s : State) (hn : u.commitNote = none) :
    ∃ br, event s u = { u with bridge := br, outbox := [], ports := u.flush.ports
                               writes := u.writes ++ begunWrites (changedRegions s u) } ∧
      (event s u).AtStart b := by
  obtain ⟨fa, fb, hs⟩ := h.settle s.bridge.holds
  have hj := h.judged u.faultJudged fa fb
  have he : event s u =
      { u with bridge := u.bridge.judged u.faultJudged fa fb, outbox := [], ports := u.flush.ports
               writes := u.writes ++ begunWrites (changedRegions s u) } := by
    unfold event
    rw [hs]
    exact retain_of_no_commit (u := State.flush { u with bridge := u.bridge.judged u.faultJudged fa fb }) hn
  rw [he]
  exact ⟨_, rfl, hj.bridge, hj.capture, hj.axles, hj.run, hj.inUse, hj.staged, hj.lamps⟩

end

/-- An event that leaves a settled state, the hold set it found and every retained region is what it made. -/
theorem event_untouched {s u : State} (hu : u.settled = true) (hh : u.bridge.holds = s.bridge.holds)
    (hr : changedRegions s u = []) (hn : u.commitNote = none) : event s u = u :=
  (event_of_settled hu hh).trans (retain_of_untouched hr hn)

/-- A settled state that an event leaves as it found it. -/
theorem event_self {s : State} (hs : s.settled = true) (hn : s.commitNote = none) : event s s = s :=
  event_untouched hs rfl (changedRegions_same rfl rfl rfl rfl rfl rfl rfl) hn

end Sys2Proof.Machine
end

