-- ==== Sys2Proof/Proofs/StartRegions.lean ====
section
/-! What the first steps of a start leave (R204, R205, R206, R208 steps 1 to 4): the regions checked and written
again, the start record, the volatile state. -/

namespace Sys2Proof.Machine

/-! ### The regions checked (R204, R205) -/

theorem State.checkRegions_regions (s : State) (l : LostRegions) :
    (s.checkRegions l).audit = (if l.audit then .defaults else s.audit) ∧
    (s.checkRegions l).visits = (if l.visits then [] else s.visits) ∧
    (s.checkRegions l).tickets = (if l.tickets then .defaults else s.tickets) ∧
    (s.checkRegions l).site = (if l.site then .defaults else s.site) ∧
    (s.checkRegions l).evidence = (if l.evidence then [] else s.evidence) := by
  unfold State.checkRegions
  cases l.calibration <;> cases l.audit <;> exact ⟨rfl, rfl, rfl, rfl, rfl⟩

/-- The tares as the check leaves them: at their defaults, or without the LEARNED ones where both the epoch and its
trace are gone. -/
theorem State.checkRegions_tares (s : State) (l : LostRegions) :
    (s.checkRegions l).tares.slots =
        (if l.tares then [] else if l.calibration && l.audit then keyedOnly s.tares.slots else s.tares.slots) ∧
      (s.checkRegions l).tares.pointer = (if l.tares then 0 else s.tares.pointer) := by
  unfold State.checkRegions
  cases l.calibration <;> cases l.audit <;> cases l.tares <;> exact ⟨rfl, rfl⟩

/-- A CALIBRATION region found good stands. -/
theorem State.checkRegions_cal_good {s : State} {l : LostRegions} (h : l.calibration = false) :
    (s.checkRegions l).cal = s.cal := by
  simp [State.checkRegions, h]

/-- The counts that a lost CALIBRATION region recovers. -/
theorem State.recoveredCalibration_eq (s : State) (auditLost : Bool) :
    s.recoveredCalibration auditLost =
      { Calibration.defaults with
        epoch := if auditLost then 0 else (s.audit.records.map (·.epochAfter)).foldl max s.audit.epochMark
        series := min ((s.tickets.ring.map (·.key.series)).foldl max 0 + 1) 99
        exhausted := decide (99 ≤ (s.tickets.ring.map (·.key.series)).foldl max 0)
        snapshotNext := nextSnapshotNumber ((s.evidence.map (·.snapshot.number)).foldl max 0) } := by
  have hseries : ∀ top, (if top < 99 then top + 1 else 99) = min (top + 1) 99 := by
    intro top
    split <;> omega
  unfold State.recoveredCalibration
  simp only [hseries]
  rfl

/-- A lost CALIBRATION region recovers its counts from the other regions as the check leaves them. -/
theorem State.checkRegions_cal_lost {s : State} {l : LostRegions} (h : l.calibration = true) :
    (s.checkRegions l).cal = (s.checkRegions l).recoveredCalibration l.audit := by
  cases ha : l.audit <;> simp [State.checkRegions, h, ha, State.recoveredCalibration_eq]

/-- Whether a region is among those whose content differs. -/
theorem contains_changedRegions (s t : State) :
    (changedRegions s t).contains .calibration = (!decide (s.cal = t.cal)) ∧
    (changedRegions s t).contains .audit = (!decide (s.audit = t.audit)) ∧
    (changedRegions s t).contains .visits = (!decide (s.visits = t.visits)) ∧
    (changedRegions s t).contains .tares = (!decide (s.tares = t.tares)) ∧
    (changedRegions s t).contains .tickets = (!decide (s.tickets = t.tickets)) ∧
    (changedRegions s t).contains .site = (!decide (s.site = t.site)) ∧
    (changedRegions s t).contains .evidence = (!decide (s.evidence = t.evidence)) := by
  simp [changedRegions]

/-- The tares change where they were found lost or LEARNED ones were dropped. -/
theorem State.checkRegions_tares_changed (s : State) (l : LostRegions) :
    (l.tares || !decide (s.tares = (s.checkRegions l).tares)) = true ↔
      l.tares = true ∨ (l.calibration = true ∧ l.audit = true ∧ keyedOnly s.tares.slots ≠ s.tares.slots) := by
  obtain ⟨hslots, hpointer⟩ := s.checkRegions_tares l
  cases ht : l.tares with
  | true => simp
  | false =>
    have heq : s.tares = (s.checkRegions l).tares ↔ (s.checkRegions l).tares.slots = s.tares.slots := by
      rw [ht] at hpointer
      refine ⟨fun h => by rw [← h], fun h => ?_⟩
      generalize (s.checkRegions l).tares = u at h hpointer
      cases u
      cases hs : s.tares
      simp_all
    rw [ht] at hslots
    simp only [Bool.false_or, Bool.not_eq_true', decide_eq_false_iff_not, heq, hslots]
    cases l.calibration <;> cases l.audit <;> simp

/-- The regions written again: the lost ones, and TARES where LEARNED ones were dropped. -/
theorem rewrittenRegions_checkRegions (s : State) (l : LostRegions) :
    rewrittenRegions s (s.checkRegions l) l =
      (if l.calibration then [Region.calibration] else []) ++ (if l.audit then [Region.audit] else []) ++
      (if l.visits then [Region.visits] else []) ++
      (if l.tares = true ∨ (l.calibration = true ∧ l.audit = true ∧ keyedOnly s.tares.slots ≠ s.tares.slots)
        then [Region.tares] else []) ++
      (if l.tickets then [Region.tickets] else []) ++ (if l.site then [Region.site] else []) ++
      (if l.evidence then [Region.evidence] else []) := by
  obtain ⟨c1, c2, c3, c4, c5, c6, c7⟩ := contains_changedRegions s (s.checkRegions l)
  obtain ⟨ha, hv, hk, hs, he⟩ := s.checkRegions_regions l
  have hlost : ∀ (lost changed : Bool), (lost = false → changed = false) → (lost || changed) = lost := by decide
  have h1 : (l.calibration || !decide (s.cal = (s.checkRegions l).cal)) = l.calibration :=
    hlost _ _ (fun h => by simp [State.checkRegions_cal_good h])
  have h2 : (l.audit || !decide (s.audit = (s.checkRegions l).audit)) = l.audit :=
    hlost _ _ (fun h => by simp [ha, h])
  have h3 : (l.visits || !decide (s.visits = (s.checkRegions l).visits)) = l.visits :=
    hlost _ _ (fun h => by simp [hv, h])
  have h5 : (l.tickets || !decide (s.tickets = (s.checkRegions l).tickets)) = l.tickets :=
    hlost _ _ (fun h => by simp [hk, h])
  have h6 : (l.site || !decide (s.site = (s.checkRegions l).site)) = l.site :=
    hlost _ _ (fun h => by simp [hs, h])
  have h7 : (l.evidence || !decide (s.evidence = (s.checkRegions l).evidence)) = l.evidence :=
    hlost _ _ (fun h => by simp [he, h])
  simp only [rewrittenRegions, c1, c2, c3, c4, c5, c6, c7, h1, h2, h3, h5, h6, h7, s.checkRegions_tares_changed]

/-! ### The state for the events of a start (R206, R208) -/

theorem State.beginWrite_eq (s : State) (regions : List Region) :
    s.beginWrite regions = { s with writes := s.writes ++ begunWrites regions } := by
  unfold State.beginWrite begunWrites
  cases regions with
  | nil => rw [if_pos List.isEmpty_nil, if_pos rfl, List.append_nil]
  | cons g rest => simp

/-- The state at the start record: the lost regions at their defaults, both writes begun, the record made. -/
def State.recorded (s : State) (cause : StartCause) (l : LostRegions) : State :=
  { s.checkRegions l with
    cal := { (s.checkRegions l).cal with startRecord := { cause := cause, lost := l }, pendingMark := false }
    writes := begunWrites (rewrittenRegions s (s.checkRegions l) l) ++ begunWrites [.calibration] }

theorem State.recorded_eq (s : State) (cause : StartCause) (l : LostRegions) :
    (({ s with writes := [] } : State).rewriteLost l).writeStartRecord cause l = s.recorded cause l := by
  have hc : ({ s with writes := [] } : State).checkRegions l = { s.checkRegions l with writes := [] } := by
    unfold State.checkRegions
    cases l.calibration <;> cases l.audit <;> rfl
  unfold State.rewriteLost State.writeStartRecord State.recorded
  rw [hc, State.beginWrite_eq, State.beginWrite_eq]
  rfl

/-- The state that the events of a start find. -/
def State.startBase (s : State) (cause : StartCause) (l : LostRegions) : State :=
  retain (s.recorded cause l) (s.recorded cause l).resetVolatile

/-- The visits in progress returned (R119). -/
def returnedVisits (vs : Table Visit) : Table Visit := vs.map (fun e => (e.1, e.2.returned))

theorem State.startBase_eq (s : State) (cause : StartCause) (l : LostRegions) :
    s.startBase cause l =
      { (s.recorded cause l).resetVolatile with
        writes := (s.recorded cause l).writes ++
          begunWrites (if returnedVisits (s.checkRegions l).visits = (s.checkRegions l).visits then []
            else [.visits]) } := by
  unfold State.startBase
  generalize hu : s.recorded cause l = u
  have hv : u.visits = (s.checkRegions l).visits := by
    subst hu
    rfl
  have hchanged : changedRegions u u.resetVolatile = if returnedVisits u.visits = u.visits then [] else [.visits] := by
    have hvisits : u.resetVolatile.visits = returnedVisits u.visits := rfl
    simp [changedRegions, hvisits, eq_comm]
  rw [retain_of_no_commit rfl, hchanged, ← hv]
  rfl

/-- The events of a start find its volatile state. -/
theorem State.startBase_atStart (s : State) (cause : StartCause) (l : LostRegions) :
    (s.startBase cause l).AtStart s.bridge := by
  rw [State.startBase_eq]
  have hb : (s.recorded cause l).bridge = s.bridge := by simp [State.recorded]
  refine ⟨?_, rfl, rfl, rfl, rfl, rfl, fun e => by cases e <;> rfl⟩
  simp only [State.resetVolatile, hb]
  rfl

end Sys2Proof.Machine
end

