-- ==== Sys2Proof/Proofs/StartLockout.lean ====
section
/-! The lockout that a start enters and the access marks that it judges (R157, R187, R204, R208 steps 5 and 6), with the
record, the snapshot, the notices and the writes of each. -/

namespace Sys2Proof.Machine

/-! ### Entering lockout (R187) -/

/-- Lockout that stands is not entered again. -/
theorem State.enterLockout_locked {s : State} (code : LockCode) (h : s.locked = true) : s.enterLockout code = s := by
  simp [State.enterLockout, h]

/-- The CALIBRATION region at the entry of lockout. -/
def State.lockoutCal (s : State) (code : LockCode) : Calibration :=
  { s.cal with
    lockout := some code
    lockRecord := some
      { code := code, time := s.site.clock, bridge := s.bridge.state, ident := s.bridge.grant.map (·.ident),
        lastStable := s.faults.lastStable, epoch := s.cal.epoch,
        present := (s.faults.register.filter (fun e => e.2.present)).map (fun e => e.2.key), cleared := none }
    notVerified := s.cal.notVerified || decide (code = .calibrationLost)
    snapshotNext := nextSnapshotNumber s.snapshotNumber }

/-- The Evidence Store at the entry of lockout. -/
def State.lockoutEvidence (s : State) : List EvidenceSlot :=
  s.evidence.filter (fun x => x.slot ≠ chooseEvidenceSlot s.evidence .lockout) ++
    [{ slot := chooseEvidenceSlot s.evidence .lockout, snapshot := s.snapshotOf s.snapshotNumber .lockout none }]

/-- The notice of the LOCKOUT snapshot. -/
def State.snapshotNotice (s : State) : Notice :=
  .snapshotTaken s.snapshotNumber .lockout (chooseEvidenceSlot s.evidence .lockout)
    ((s.evidence.find? (fun x => x.slot = chooseEvidenceSlot s.evidence .lockout)).map
      (fun x => (x.snapshot.number, x.snapshot.kind)))

theorem State.enterLockout_free {s : State} (code : LockCode) (h : s.locked = false) :
    s.enterLockout code =
      { s with
        cal := s.lockoutCal code, evidence := s.lockoutEvidence
        outbox := s.outbox ++
          ((.metrology, s.snapshotNotice) ::
            notesTo [.gatehouse, .lane, .metrology] (.lockoutEntered code s.site.clock)) } := by
  unfold State.enterLockout
  rw [if_neg (by simp [h])]
  simp only [State.takeSnapshot, State.post, State.postAll, List.foldl_cons, List.foldl_nil, notesTo, List.map_cons,
    List.map_nil, List.append_assoc, List.cons_append, List.nil_append]
  rfl

/-- The regions that the entry of lockout touches. -/
theorem changedRegions_lockout {s t : State} (hs : s.cal.lockout = none) (ht : t.cal.lockout ≠ none)
    (h : t.audit = s.audit ∧ t.visits = s.visits ∧ t.tares = s.tares ∧ t.tickets = s.tickets ∧ t.site = s.site) :
    changedRegions s t = .calibration :: (if t.evidence = s.evidence then [] else [.evidence]) := by
  have hcal : s.cal ≠ t.cal := fun hc => ht (hc ▸ hs)
  simp [changedRegions, hcal, h, eq_comm]

/-! ### Ports at a start -/

/-- The ports as at reset but for the notices queued. -/
def State.portsHold (t : State) (queued : Port → List Notice) : Prop :=
  ∀ p, t.port p = { PortState.reset with notices := queued p }

/-- Notices brought to a queue that has room for them stand behind those it holds. -/
theorem pushAll_of_room (ns : List Notice) {held : List Notice} (h : held.length + ns.length ≤ 16) :
    ns.foldl PortState.push { PortState.reset with notices := held } =
      { PortState.reset with notices := held ++ ns } := by
  induction ns generalizing held with
  | nil => simp
  | cons n rest ih =>
    rw [List.length_cons] at h
    have hroom : held.length < 16 := by omega
    have hpush : PortState.push { PortState.reset with notices := held } n
        = { PortState.reset with notices := held ++ [n] } := by simp [PortState.push, hroom]
    rw [List.foldl_cons, hpush, ih (by simp; omega)]
    simp

/-- The end of an event that brings each port the notices of a list. -/
theorem State.portsHold_flush {t : State} {held brought : Port → List Notice} (h : t.portsHold held)
    (hb : ∀ p, sortNotices (outboxFor t.outbox p) = brought p)
    (hroom : ∀ p, (held p).length + (brought p).length ≤ 16) :
    t.flush.portsHold (fun p => held p ++ brought p) := by
  intro p
  rw [State.flush_port, hb, h p]
  exact pushAll_of_room _ (hroom p)

/-- The queues depend on the ports alone. -/
theorem State.portsHold_congr {s t : State} {queued : Port → List Notice} (h : s.portsHold queued)
    (hp : t.ports = s.ports) : t.portsHold queued := by
  intro p
  rw [← h p]
  cases p <;> simp only [State.port, hp]

/-- The notices that the entry of lockout brings to a port. -/
def State.lockoutNotices (s : State) (code : LockCode) (p : Port) : List Notice :=
  (if p = .metrology then [s.snapshotNotice] else []) ++ [.lockoutEntered code s.site.clock]

theorem State.lockoutNotices_sorted (s : State) (code : LockCode) (p : Port) :
    sortNotices (outboxFor ((.metrology, s.snapshotNotice) ::
      notesTo [.gatehouse, .lane, .metrology] (.lockoutEntered code s.site.clock)) p) = s.lockoutNotices code p := by
  cases p <;> rfl

theorem State.lockoutNotices_length (s : State) (code : LockCode) (p : Port) :
    (s.lockoutNotices code p).length ≤ 2 := by
  cases p <;> exact Nat.le_of_ble_eq_true rfl

/-! ### The judgement of the marks (R157) -/

/-- The access marks cleared. -/
def Calibration.unmarked (c : Calibration) : Calibration := { c with accessMark := false, diffMark := false }

/-- A mark stands. -/
def Calibration.marked (c : Calibration) : Bool := c.accessMark || c.diffMark

theorem Calibration.unmarked_eq_iff (c : Calibration) : c = c.unmarked ↔ c.marked = false := by
  obtain ⟨⟩ := c
  simp [Calibration.unmarked, Calibration.marked]

/-- Both marks with no lockout standing enter CAL_ACCESS_INTERRUPTED. -/
theorem State.judgeAccessMarks_both {s : State} (h : (s.cal.accessMark && s.cal.diffMark) = true) :
    s.judgeAccessMarks =
      { s.enterLockout .calAccessInterrupted with cal := (s.enterLockout .calAccessInterrupted).cal.unmarked } := by
  unfold State.judgeAccessMarks
  rw [if_pos h]
  rfl

/-- Else they are cleared. -/
theorem State.judgeAccessMarks_else {s : State} (h : (s.cal.accessMark && s.cal.diffMark) = false ∨ s.locked = true) :
    s.judgeAccessMarks = { s with cal := s.cal.unmarked } := by
  unfold State.judgeAccessMarks
  rcases h with h | h
  · rw [if_neg (by simp [h])]
    rfl
  · rw [State.enterLockout_locked _ h, ite_self]
    rfl

/-! ### Steps 5 and 6 -/

/-- R208 steps 5 and 6: the lockout of a lost CALIBRATION or AUDIT, then the marks. -/
def State.judgedAtStart (u : State) (lost : Bool) : State :=
  let t := if lost then event u (u.enterLockout .calibrationLost) else u
  event t t.judgeAccessMarks

/-- The lockout that a start enters, none where it enters none. -/
def State.codeAtStart (u : State) (lost : Bool) : Option LockCode :=
  if u.locked then none
  else if lost then some .calibrationLost
  else if u.cal.accessMark && u.cal.diffMark then some .calAccessInterrupted
  else none

section
variable {b : Bridge} {u : State}

/-- The entry of lockout leaves the volatile state. -/
theorem State.AtStart.enterLockout (h : u.AtStart b) (code : LockCode) : (u.enterLockout code).AtStart b := by
  obtain ⟨h1, h2, h3, h4, h5, h6, h7⟩ := h
  have hentry : ∀ k, (u.enterLockout code).faultEntry k = u.faultEntry k := State.faultEntry_congr (by simp)
  exact ⟨by simpa using h1, by simpa using h2, by simpa using h3, by simpa using h4, by simpa using h5,
    by simpa using h6, fun e => by rw [hentry]; exact h7 e⟩

/-- The volatile state does not see the CALIBRATION region. -/
theorem State.AtStart.withCal (h : u.AtStart b) (c : Calibration) : State.AtStart b { u with cal := c } :=
  ⟨h.bridge, h.capture, h.axles, h.run, h.inUse, h.staged, h.lamps⟩

/-- The regions that the clearing of the marks touches. -/
theorem State.changedRegions_unmarked (u : State) :
    changedRegions u { u with cal := u.cal.unmarked } = if u.cal.marked then [.calibration] else [] := by
  have hiff := u.cal.unmarked_eq_iff
  cases hm : u.cal.marked with
  | false =>
    have hsame : u.cal = u.cal.unmarked := hiff.2 hm
    simp [changedRegions, ← hsame]
  | true =>
    have hne : u.cal ≠ u.cal.unmarked := fun h => by simp [hiff.1 h] at hm
    simp [changedRegions, hne]

/-- The event that clears the marks. -/
theorem State.AtStart.unmark (h : u.AtStart b) (ho : u.outbox = []) (hn : u.commitNote = none) :
    ∃ br, event u { u with cal := u.cal.unmarked } =
        { u with bridge := br, cal := u.cal.unmarked
                 writes := u.writes ++ begunWrites (if u.cal.marked then [.calibration] else []) } ∧
      (event u { u with cal := u.cal.unmarked }).AtStart b := by
  obtain ⟨br, he, ha⟩ := (h.withCal u.cal.unmarked).event_eq u hn
  refine ⟨br, he.trans ?_, ha⟩
  have hports : (show State from { u with cal := u.cal.unmarked }).flush.ports = u.ports :=
    State.flush_ports_of_empty ho
  rw [hports, u.changedRegions_unmarked, ← ho]

/-- The entry of lockout over no lockout: its volatile state, its regions, its notices. -/
theorem State.changedRegions_enterLockout (code : LockCode) (h : u.locked = false) (c : Calibration)
    (hc : c.lockout = some code) :
    changedRegions u { u.enterLockout code with cal := c } =
      .calibration :: (if u.lockoutEvidence = u.evidence then [] else [.evidence]) := by
  have hev : (u.enterLockout code).evidence = u.lockoutEvidence := by rw [State.enterLockout_free code h]
  rw [← hev]
  refine changedRegions_lockout (by simpa [State.locked] using h) (by simp [hc]) (by simp)

/-- The writes of an event that enters lockout. -/
def State.lockoutWrites (u : State) : List RetainedWrite :=
  begunWrites (.calibration :: (if u.lockoutEvidence = u.evidence then [] else [.evidence]))

/-- The event that enters lockout. -/
theorem State.AtStart.lock (h : u.AtStart b) (hn : u.commitNote = none) (code : LockCode) (hl : u.locked = false)
    (c : Calibration) (hc : c.lockout = some code) :
    ∃ br, event u { u.enterLockout code with cal := c } =
        { u with bridge := br, cal := c, evidence := u.lockoutEvidence, outbox := []
                 ports := (u.enterLockout code).flush.ports, writes := u.writes ++ u.lockoutWrites } ∧
      (event u { u.enterLockout code with cal := c }).AtStart b := by
  obtain ⟨br, he, ha⟩ := ((h.enterLockout code).withCal c).event_eq u (by simpa using hn)
  refine ⟨br, he.trans ?_, ha⟩
  have hports : (show State from { u.enterLockout code with cal := c }).flush.ports
      = (u.enterLockout code).flush.ports :=
    State.flush_ports_congr rfl rfl
  rw [State.changedRegions_enterLockout code hl c hc, hports, State.enterLockout_free code hl]
  rfl

/-- Steps 5 and 6 where lockout stands: the marks alone are cleared. -/
theorem State.AtStart.judgedAtStart_locked (h : u.AtStart b) (ho : u.outbox = []) (hn : u.commitNote = none)
    (lost : Bool) (hl : u.locked = true) :
    ∃ br, u.judgedAtStart lost =
        { u with bridge := br, cal := u.cal.unmarked
                 writes := u.writes ++ begunWrites (if u.cal.marked then [.calibration] else []) } ∧
      (u.judgedAtStart lost).AtStart b := by
  have ht : ∃ br, (if lost then event u (u.enterLockout .calibrationLost) else u) = { u with bridge := br } ∧
      State.AtStart b { u with bridge := br } := by
    rw [State.enterLockout_locked _ hl]
    cases lost with
    | false => exact ⟨u.bridge, rfl, h⟩
    | true =>
      obtain ⟨br, he, ha⟩ := h.event_eq u hn
      have hsame : changedRegions u u = [] := changedRegions_same rfl rfl rfl rfl rfl rfl rfl
      rw [State.flush_ports_of_empty ho, hsame, begunWrites, if_pos rfl, List.append_nil, ← ho] at he
      exact ⟨br, he, he ▸ ha⟩
  obtain ⟨br, ht, ha⟩ := ht
  have hj : u.judgedAtStart lost =
      event { u with bridge := br } { u with bridge := br, cal := u.cal.unmarked } := by
    unfold State.judgedAtStart
    simp only [ht]
    rw [State.judgeAccessMarks_else (s := { u with bridge := br }) (.inr hl)]
  rw [hj]
  exact ha.unmark ho hn

/-- Steps 5 and 6 where no lockout stands and CALIBRATION or AUDIT is lost: lockout is entered, then the marks are
cleared. -/
theorem State.AtStart.judgedAtStart_lost (h : u.AtStart b) (hn : u.commitNote = none) (hl : u.locked = false) :
    ∃ br, u.judgedAtStart true =
        { u with bridge := br, cal := (u.lockoutCal .calibrationLost).unmarked, evidence := u.lockoutEvidence
                 outbox := [], ports := (u.enterLockout .calibrationLost).flush.ports
                 writes := u.writes ++ u.lockoutWrites ++
                   begunWrites (if u.cal.marked then [.calibration] else []) } ∧
      (u.judgedAtStart true).AtStart b := by
  have hcal : (u.enterLockout .calibrationLost).cal = u.lockoutCal .calibrationLost := by
    rw [State.enterLockout_free _ hl]
  obtain ⟨br, he, ha⟩ := h.lock hn .calibrationLost hl (u.enterLockout .calibrationLost).cal (by rw [hcal]; rfl)
  have hj : u.judgedAtStart true =
      event (event u (u.enterLockout .calibrationLost))
        (event u (u.enterLockout .calibrationLost)).judgeAccessMarks := rfl
  rw [hj]
  change event u (u.enterLockout .calibrationLost) = _ at he
  rw [hcal] at he
  generalize event u (u.enterLockout .calibrationLost) = t at he ha
  subst he
  rw [State.judgeAccessMarks_else (.inr rfl)]
  exact ha.unmark rfl hn

/-- Steps 5 and 6 where no lockout stands and neither region is lost: both marks enter lockout, else they are cleared.
-/
theorem State.AtStart.judgedAtStart_marks (h : u.AtStart b) (ho : u.outbox = []) (hn : u.commitNote = none)
    (hl : u.locked = false) :
    ((u.cal.accessMark && u.cal.diffMark) = true → ∃ br, u.judgedAtStart false =
        { u with bridge := br, cal := (u.lockoutCal .calAccessInterrupted).unmarked, evidence := u.lockoutEvidence
                 outbox := [], ports := (u.enterLockout .calAccessInterrupted).flush.ports
                 writes := u.writes ++ u.lockoutWrites } ∧
      (u.judgedAtStart false).AtStart b) ∧
    ((u.cal.accessMark && u.cal.diffMark) = false → ∃ br, u.judgedAtStart false =
        { u with bridge := br, cal := u.cal.unmarked
                 writes := u.writes ++ begunWrites (if u.cal.marked then [.calibration] else []) } ∧
      (u.judgedAtStart false).AtStart b) := by
  have hj : u.judgedAtStart false = event u u.judgeAccessMarks := rfl
  rw [hj]
  refine ⟨fun hm => ?_, fun hm => ?_⟩
  · have hcal : (u.enterLockout .calAccessInterrupted).cal = u.lockoutCal .calAccessInterrupted := by
      rw [State.enterLockout_free _ hl]
    rw [State.judgeAccessMarks_both hm, hcal]
    exact h.lock hn .calAccessInterrupted hl _ rfl
  · rw [State.judgeAccessMarks_else (.inl hm)]
    exact h.unmark ho hn

end

end Sys2Proof.Machine
end

