-- ==== Sys2Proof/Proofs/StartRaises.lean ====
section
/-! The raises of the lost regions (R181, R204): each an event of its own, with its entry, its notice at every port
and no write. -/

namespace Sys2Proof.Machine

/-- The classes of the lost regions. -/
def regionClasses : List FaultClass := [.visitsLost, .taresLost, .ticketsLost, .siteLost]

theorem regionClasses_not_metrological {c : FaultClass} (h : c ∈ regionClasses) : c.metrological = false := by
  revert c
  decide

/-- The notice of the raise of a lost region. -/
def State.lostNotice (t : State) (c : FaultClass) : Notice :=
  .faultRaised (regionKey c) false (t.policy c) .none_ t.site.clock none

/-- The raise of a lost region: its entry and its notice at the three ports. -/
theorem State.raiseFault_region (t : State) {c : FaultClass} (h : c ∈ regionClasses) :
    t.raiseFault (regionKey c) none =
      { t.setFaultEntry (regionKey c) ((t.faultEntry (regionKey c)).raised (regionKey c) t.site.clock) with
        outbox := t.outbox ++ notesTo [.gatehouse, .lane, .metrology] (t.lostNotice c) } := by
  have hm : (regionKey c).cls.metrological = false := regionClasses_not_metrological h
  unfold State.raiseFault
  simp only [hm, Bool.false_eq_true, if_false, State.postAll, State.post, List.foldl_cons, List.foldl_nil,
    List.append_assoc, List.cons_append, List.nil_append, FaultEntry.raised]
  rfl

/-- The entry of a lost region stands apart from those of the lamps. -/
theorem regionKey_place_ne_lamp {c : FaultClass} (h : c ∈ regionClasses) (e : BridgeEnd) :
    (lampKey e).place ≠ (regionKey c).place := by
  revert c
  cases e <;> decide

/-- The entries after the raises of the classes of a list: those of the list raised, the others as they were. -/
def State.entriesRaised (t u : State) (cs : List FaultClass) : Prop :=
  ∀ k : FaultKey, k.inst < 32 →
    u.faultEntry k = if k.inst = 0 ∧ k.cls ∈ cs then (t.faultEntry k).raised k t.site.clock else t.faultEntry k

/-- What the raises of the classes of a list leave: the bridge as at a start, their entries and their notices. -/
structure State.RaisedAtStart (b : Bridge) (t u : State) (queued : Port → List Notice) (cs : List FaultClass) :
    Prop where
  rest : u = { t with bridge := u.bridge, faults := u.faults, ports := u.ports }
  atStart : u.AtStart b
  settled : u.settled = true
  lastStable : u.faults.lastStable = t.faults.lastStable
  entries : t.entriesRaised u cs
  ports : u.portsHold (fun p => queued p ++ cs.map t.lostNotice)

section
variable {b : Bridge} {t : State}

/-- One raise of a lost region. -/
theorem State.AtStart.raise (h : t.AtStart b) (ho : t.outbox = []) (hn : t.commitNote = none)
    {queued : Port → List Notice} (hq : t.portsHold queued) {c : FaultClass} (hc : c ∈ regionClasses)
    (hroom : ∀ p, (queued p).length < 16) :
    State.RaisedAtStart b t (event t (t.raiseFault (regionKey c) none)) queued [c] := by
  have hset := event_settled t (t.raiseFault (regionKey c) none)
  have hr := t.raiseFault_region hc
  generalize hu : t.raiseFault (regionKey c) none = u at hr hset
  have hentry : ∀ k : FaultKey, k.place ≠ (regionKey c).place → u.faultEntry k = t.faultEntry k := fun k hk => by
    rw [← hu]
    exact t.faultEntry_raiseFault_other none hk
  have hat : u.AtStart b := by
    refine ⟨by rw [hr]; exact h.bridge, by rw [hr]; exact h.capture, by rw [hr]; exact h.axles, by rw [hr]; exact h.run,
      by rw [hr]; exact h.inUse, by rw [hr]; exact h.staged, fun e => ?_⟩
    rw [hentry _ (regionKey_place_ne_lamp hc e)]
    exact h.lamps e
  obtain ⟨br, he, ha⟩ := hat.event_eq t (by rw [hr]; exact hn)
  have hregions : changedRegions t u = [] := by
    rw [hr]
    exact changedRegions_same rfl rfl rfl rfl rfl rfl rfl
  rw [hregions, begunWrites, if_pos rfl, List.append_nil] at he
  have hports : (event t u).ports = u.flush.ports := by rw [he]
  have hfaults : (event t u).faults = u.faults := by rw [he]
  refine ⟨?_, ha, hset, by rw [hfaults, hr]; rfl, fun k hk => ?_, ?_⟩
  · rw [hports, hfaults, he, hr, ← ho]
    rfl
  · rw [State.faultEntry_congr (congrArg _ hfaults)]
    by_cases hkc : k = regionKey c
    · subst hkc
      rw [if_pos ⟨rfl, List.mem_singleton_self _⟩, ← hu]
      exact t.faultEntry_raiseFault _ none
    · have hne : ¬(k.inst = 0 ∧ k.cls ∈ [c]) := by
        rintro ⟨h0, hmem⟩
        obtain ⟨cls, inst⟩ := k
        exact hkc (by rw [regionKey, ← List.mem_singleton.1 hmem, ← h0])
      rw [if_neg hne]
      exact hentry k (fun hp => hkc (FaultKey.place_injective hk (Nat.zero_lt_succ 31) hp))
  · have hheld : u.portsHold queued := State.portsHold_congr hq (by rw [hr]; rfl)
    have hbox : ∀ p, sortNotices (outboxFor u.outbox p) = [t.lostNotice c] := by
      intro p
      rw [hr, ho]
      cases p <;> rfl
    exact State.portsHold_congr (State.portsHold_flush hheld hbox hroom) hports

/-- The raises of the lost regions, one after another. -/
theorem State.AtStart.raises (h : t.AtStart b) (hs : t.settled = true) (hn : t.commitNote = none)
    {queued : Port → List Notice} (hq : t.portsHold queued) {cs : List FaultClass} (hc : ∀ c ∈ cs, c ∈ regionClasses)
    (hnodup : cs.Nodup) (hroom : ∀ p, (queued p).length + cs.length ≤ 16) :
    State.RaisedAtStart b t (cs.foldl (fun t c => event t (t.raiseFault (regionKey c) none)) t) queued cs := by
  induction cs generalizing t queued with
  | nil => exact ⟨rfl, h, hs, rfl, fun k _ => by simp, by simpa using hq⟩
  | cons c rest ih =>
    obtain ⟨hcrest, hrest⟩ := List.nodup_cons.1 hnodup
    have hlen : ∀ p, (queued p).length + (rest.length + 1) ≤ 16 := hroom
    have hone := h.raise ((State.settled_iff t).1 hs).1 hn hq (hc c List.mem_cons_self)
      (fun p => by have := hlen p; omega)
    rw [List.foldl_cons]
    generalize event t (t.raiseFault (regionKey c) none) = m at hone ⊢
    have hnote : m.commitNote = none := by rw [hone.rest]; exact hn
    have hsite : m.site = t.site := by rw [hone.rest]
    have hall := ih hone.atStart hone.settled hnote hone.ports (fun d hd => hc d (List.mem_cons_of_mem _ hd)) hrest
      (fun p => by have := hlen p; simp only [List.length_append, List.map_cons, List.map_nil, List.length_cons,
                     List.length_nil]; omega)
    generalize rest.foldl (fun t c => event t (t.raiseFault (regionKey c) none)) m = u at hall ⊢
    refine ⟨?_, hall.atStart, hall.settled, hall.lastStable.trans hone.lastStable, fun k hk => ?_, ?_⟩
    · rw [hall.rest, hone.rest]
    · rw [hall.entries k hk, hone.entries k hk, hsite]
      by_cases hkc : k.cls = c
      · by_cases h0 : k.inst = 0 <;> simp [hkc, hcrest, h0]
      · simp [hkc]
    · have hnotice : m.lostNotice = t.lostNotice := by
        funext d
        have hpolicy : m.policy d = t.policy d := by cases d <;> simp [State.policy, hsite]
        simp only [State.lostNotice, hpolicy, hsite]
      have hp := hall.ports
      rw [hnotice] at hp
      simpa [List.append_assoc] using hp

end

end Sys2Proof.Machine
end

