-- ==== Sys2Proof/Proofs/StartRound.lean ====
section
/-! Round 1 of a start (R1, R14, R58, R208): its first poll, or its end at once with no CONFIGURED address, which
leaves the weighing as after a start but for its invalid values. -/

namespace Sys2Proof.Machine

/-! ### The records of a start (R14) -/

/-- The record of an address at a start. -/
theorem Bus.started_record (t : CalTable) (i : Nat) :
    (Bus.started t).record i =
      if i ∈ addresses ∧ t.configured i = true then
        { CellRecord.absent with configured := true, condition := some .missing }
      else CellRecord.absent := by
  have hreset : Bus.reset.record i = CellRecord.absent := rfl
  have hrec : (Bus.started t).record i = (Bus.reset.markRecords t).record i := rfl
  rw [hrec, Bus.record_markRecords, hreset]
  by_cases hi : i ∈ addresses
  · cases hc : t.configured i <;> simp [hi, hc, CellRecord.marked, CellRecord.absent]
  · simp [hi]

theorem Bus.started_configured (t : CalTable) {i : Nat} (hi : i ∈ addresses) :
    ((Bus.started t).record i).configured = t.configured i := by
  rw [Bus.started_record]
  cases hc : t.configured i <;> simp [hi, CellRecord.absent]

/-- The records of a start stand at the start of a round with the same table. -/
theorem Bus.started_markRecords (t : CalTable) (i : Nat) :
    ((Bus.started t).markRecords t).record i = (Bus.started t).record i := by
  by_cases hi : i ∈ addresses
  · exact Bus.record_markRecords_same (Bus.started_configured t hi).symm
  · rw [Bus.record_markRecords, if_neg hi]

theorem mem_addresses {i : Nat} : i ∈ addresses ↔ 1 ≤ i ∧ i ≤ 16 := by
  simp only [addresses, List.mem_cons, List.not_mem_nil, or_false]
  omega

/-! ### A table with no CONFIGURED address -/

/-- No deck has a cell. -/
theorem CalTable.cellsOf_eq_nil {t : CalTable} (h : t.configuredList = []) {d : Nat} (hd : d ∈ t.deckList) :
    t.cellsOf d = [] := by
  rw [CalTable.configuredList, List.filter_eq_nil_iff] at h
  rw [CalTable.cellsOf, List.filter_eq_nil_iff]
  intro i hi hcell
  refine h i hi ?_
  simp only [CalTable.deckList, List.mem_map, List.mem_range] at hd
  obtain ⟨n, hn, rfl⟩ := hd
  simp only [decide_eq_true_eq] at hcell
  simp only [CalTable.configured, hcell, decide_eq_true_eq]
  omega

/-- Every deck of its round is invalid for want of cells. -/
theorem State.computeRound_noCells {s : State} (h : s.bus.table.configuredList = []) {d : DeckValues}
    (hd : d ∈ s.computeRound.decks) : d.validity = .noCells ∧ d.gross = none := by
  obtain ⟨n, hn, rfl⟩ := List.mem_map.1 hd
  simp [State.deckRound, CalTable.cellsOf_eq_nil h hn]

/-- Its round is invalid and has neither gross nor rounded weight. -/
theorem State.computeRound_invalid {s : State} (h : s.bus.table.configuredList = []) (hd : 1 ≤ s.bus.table.decks) :
    s.computeRound.valid = false ∧ s.computeRound.gross = none ∧ s.computeRound.rounded = none := by
  have hvalid : s.computeRound.valid = false := by
    by_contra hv
    have hall := s.computeRound_valid.1 (by simpa using hv)
    have hlen := s.computeRound_decks_length
    cases hdecks : s.computeRound.decks with
    | nil =>
      rw [hdecks] at hlen
      exact absurd hlen (by simp; omega)
    | cons d rest =>
      have hmem : d ∈ s.computeRound.decks := by rw [hdecks]; exact List.mem_cons_self
      have hsome := hall d hmem
      rw [(State.computeRound_noCells h hmem).2] at hsome
      cases hsome
  have hgross : s.computeRound.gross = none := by
    have hv : s.computeRound.valid = s.computeRound.gross.isSome := rfl
    rw [hv] at hvalid
    simpa using hvalid
  have hrounded : s.computeRound.rounded = s.computeRound.gross.map (roundedKg s.bus.table) := rfl
  exact ⟨hvalid, hgross, by rw [hrounded, hgross]; rfl⟩

/-! ### Events that touch the bus and the weighing alone -/

theorem State.settled_withRound (u : State) (bus : Bus) (weigh : Weigh) :
    State.settled { u with bus := bus, weigh := weigh } = u.settled := rfl

/-- An event that changes the bus and the weighing of a settled state is that change. -/
theorem event_withRound {u : State} (hs : u.settled = true) (hn : u.commitNote = none) (bus bus' : Bus)
    (weigh weigh' : Weigh) :
    event { u with bus := bus', weigh := weigh' } { u with bus := bus, weigh := weigh } =
      { u with bus := bus, weigh := weigh } :=
  event_untouched ((u.settled_withRound bus weigh).trans hs) rfl (changedRegions_same rfl rfl rfl rfl rfl rfl rfl) hn

/-- The start of a round that makes no address absent changes the bus alone. -/
theorem State.beginRound_bus_only {s : State}
    (h : ∀ i ∈ addresses, (s.bus.record i).configured = true → s.tableInUse.configured i = true) :
    s.beginRound = { s with bus := s.beginRound.bus } := by
  have hgone : addresses.filter (fun i => (s.bus.record i).configured && !s.tableInUse.configured i) = [] := by
    rw [List.filter_eq_nil_iff]
    intro i hi hc
    simp only [Bool.and_eq_true, Bool.not_eq_true'] at hc
    exact absurd (h i hi hc.1) (by simp [hc.2])
  unfold State.beginRound
  simp only [hgone, List.foldl_nil]

/-- The end of a round where ROUND_OVERRUN is absent changes the bus alone. -/
theorem State.endRound_bus_only {s : State} (h : (s.faultEntry overrunKey).present = false) :
    s.endRound = { s with bus := s.endRound.bus } := by
  have hclear : ∀ bus : Bus,
      (show State from { s with bus := bus }).reportFault overrunKey false = { s with bus := bus } :=
    fun bus => State.clearFault_of_absent h
  unfold State.endRound
  simp only []
  split
  · rfl
  · rw [hclear]

/-- The events of a round after the stability judgement (R32). -/
def State.roundTaken (t : State) (r : RoundValues) : State :=
  let t2 := event t t.tryStartUpZero
  let t3 := t2.blocksTakeRound r
  let t4 := event t3 (t3.pointTakesRound r)
  event t4 (t4.keepLastStable r)

theorem State.issueRound_of_latest {s : State} {r : RoundValues} (h : s.weigh.latest = some r) :
    s.issueRound = (event s s.judgeStability).roundTaken r := by
  simp only [State.issueRound, h, State.roundTaken]

section
variable {b : Bridge} {u : State}

/-- The blocks that take an invalid round over the state of a start leave it, nothing being stable. -/
theorem State.AtStart.roundTaken_invalid (h : u.AtStart b) (hself : event u u = u) {r : RoundValues}
    (hr : u.weigh.latest = some r) (hk : r.rounded = none) (hstable : u.weigh.stable = false) : u.roundTaken r = u := by
  have hstate : u.bridge.state = .occupiedUnknown := by rw [h.bridge]; rfl
  have hzero : u.tryStartUpZero = u := by simp [State.tryStartUpZero, hr, hstable]
  have hcapture : u.captureTakesRound r = u := by
    have hnone : u.capture.waiting = none := by rw [h.capture]; rfl
    simp [State.captureTakesRound, hnone]
  have htrace : u.traceTakesRound r = u := by
    have hfrozen : u.axles.trace.frozen = none := by rw [h.axles]; rfl
    simp [State.traceTakesRound, hfrozen, hstate]
  have harbiter : u.arbiterTakesRound r = u := by simp [State.arbiterTakesRound, hstate, State.unknownTakesRound, hk]
  have hblocks : u.blocksTakeRound r = u := by
    rw [State.blocksTakeRound_else r (by rw [hstate]; decide)]
    simp only [State.takeAs, hcapture, hself, htrace, harbiter]
  have hpoint : u.pointTakesRound r = u := by simp [State.pointTakesRound, h.run]
  have hlast : u.keepLastStable r = u := by simp [State.keepLastStable, hstable]
  simp only [State.roundTaken, hzero, hself, hblocks, hpoint, hlast]

/-- The bus and the weighing are no part of the volatile state of a start that events touch. -/
theorem State.AtStart.withRound (h : u.AtStart b) (bus : Bus) (weigh : Weigh) :
    State.AtStart b { u with bus := bus, weigh := weigh } :=
  ⟨h.bridge, h.capture, h.axles, h.run, h.inUse, h.staged, h.lamps⟩

/-- An invalid round over the state of a start empties the window. -/
theorem State.AtStart.issueRound_invalid (h : u.AtStart b) (hs : u.settled = true) (hn : u.commitNote = none)
    {r : RoundValues} (hr : u.weigh.latest = some r) (hg : r.gross = none) (hk : r.rounded = none) :
    u.issueRound = { u with weigh := { u.weigh with window := [], stable := false } } := by
  have hevent : event u u.judgeStability = { u with weigh := { u.weigh with window := [], stable := false } } := by
    have hjudge : u.judgeStability = { u with weigh := { u.weigh with window := [], stable := false } } := by
      simp [State.judgeStability, hr, hg]
    rw [hjudge]
    exact event_withRound hs hn u.bus u.bus _ _
  rw [State.issueRound_of_latest hr, hevent]
  exact (h.withRound u.bus _).roundTaken_invalid (event_withRound hs hn u.bus u.bus _ _) hr hk rfl

/-- Round 1 with a cell to poll changes the bus alone. -/
theorem State.AtStart.startRound_polls (h : u.AtStart b) (hs : u.settled = true) (hn : u.commitNote = none)
    (hb : u.bus = .started u.cal.committed) {first : Nat} {rest : List Nat}
    (hl : u.cal.committed.configuredList = first :: rest) :
    u.startRound = { u with bus := u.beginRound.bus } := by
  have htable : u.tableInUse = u.cal.committed := by simp [State.tableInUse, h.staged]
  have hquiet := State.beginRound_bus_only (s := u) (fun i hi hc => by
    rw [htable]
    rwa [hb, Bus.started_configured _ hi] at hc)
  rw [State.startRound_cons (by rw [htable, hl]), hquiet]
  exact event_withRound hs hn _ u.bus u.weigh u.weigh

/-- A round of no cells that ends over the state of a start changes the bus and the weighing alone. -/
theorem State.AtStart.roundDone_noCells (h : u.AtStart b) (hs : u.settled = true) (hn : u.commitNote = none)
    (hl : u.bus.table.configuredList = []) (hd : 1 ≤ u.bus.table.decks)
    (ho : (u.faultEntry overrunKey).present = false) :
    u.roundDone =
      { u with bus := u.endRound.bus
               weigh := { u.endRound.weighRound.weigh with window := [], stable := false } } := by
  obtain ⟨-, hgross, hrounded⟩ := State.computeRound_invalid hl hd
  have hbus := u.endRound_bus
  have hend := State.endRound_bus_only ho
  have hcompute : u.endRound.computeRound = u.computeRound := by
    refine State.computeRound_congr ?_ ?_ ?_ ?_ ?_ <;> simp [hbus]
  have hweigh : u.endRound.weighRound = { u with bus := u.endRound.bus, weigh := u.endRound.weighRound.weigh } := by
    rw [State.weighRound, hend]
  have hlatest : u.endRound.weighRound.weigh.latest = some u.computeRound := congrArg some hcompute
  unfold State.roundDone
  generalize u.endRound.weighRound.weigh = w at hweigh hlatest ⊢
  rw [hweigh, event_withRound hs hn _ u.bus _ u.weigh]
  exact (h.withRound _ w).issueRound_invalid hs hn hlatest hgross hrounded

/-- What an invalid first round leaves of the weighing of a start. -/
structure Weigh.AfterInvalid (old new : Weigh) (index : Nat) : Prop where
  zeroUnset : new.zeroUnset = old.zeroUnset
  zero : new.zero = old.zero
  startZero : new.startZero = old.startZero
  trackingTimer : new.trackingTimer = old.trackingTimer
  window : new.window = []
  stable : new.stable = false
  latest : ∃ v, new.latest = some v ∧ v.index = index ∧ v.valid = false ∧ ∀ d ∈ v.decks, d.validity = .noCells

/-- Round 1 with no cell to poll has ended, and changes the bus and the weighing alone. -/
theorem State.AtStart.startRound_ends (h : u.AtStart b) (hs : u.settled = true) (hn : u.commitNote = none)
    (hb : u.bus = .started u.cal.committed) (hl : u.cal.committed.configuredList = [])
    (hd : 1 ≤ u.cal.committed.decks) (ho : (u.faultEntry overrunKey).present = false) :
    u.startRound = { u with bus := u.startRound.bus, weigh := u.startRound.weigh } ∧
      u.weigh.AfterInvalid u.startRound.weigh (nextIndex u.bus.index) := by
  have htable : u.tableInUse = u.cal.committed := by simp [State.tableInUse, h.staged]
  have hl' : u.tableInUse.configuredList = [] := by rw [htable, hl]
  have hbus := State.beginRound_bus_nil hl'
  have hquiet := State.beginRound_bus_only (s := u) (fun i hi hc => by
    rw [htable]
    rwa [hb, Bus.started_configured _ hi] at hc)
  generalize hbegun : u.beginRound.bus = bus at hbus hquiet
  have hevent : event u u.beginRound = { u with bus := bus } := by
    rw [hquiet]
    exact event_withRound hs hn bus u.bus u.weigh u.weigh
  have hstart : u.startRound = State.roundDone { u with bus := bus } := by rw [State.startRound_nil hl', hevent]
  have htab : bus.table = u.cal.committed := by rw [hbus, htable]
  have hindex : bus.index = nextIndex u.bus.index := by rw [hbus]
  have hat := h.withRound bus u.weigh
  rw [hstart]
  generalize hw : ({ u with bus := bus } : State) = w at hat
  have hwb : w.bus = bus := by rw [← hw]
  have hwl : w.bus.table.configuredList = [] := by rw [hwb, htab, hl]
  have hwd : 1 ≤ w.bus.table.decks := by rw [hwb, htab]; exact hd
  have hdone := hat.roundDone_noCells (by rw [← hw]; exact hs) (by rw [← hw]; exact hn) hwl hwd (by rw [← hw]; exact ho)
  have hlatest := w.roundDone_latest
  have hweigh : w.weigh = u.weigh := by rw [← hw]
  refine ⟨?_, ?_⟩
  · rw [hdone, ← hw]
  · refine ⟨?_, ?_, ?_, ?_, by rw [hdone], by rw [hdone], _, hlatest, (congrArg Bus.index hwb).trans hindex,
      (State.computeRound_invalid hwl hwd).1, fun d hd => (State.computeRound_noCells hwl hd).1⟩
    all_goals
      rw [hdone]
      simp [State.weighRound, hweigh]

end

end Sys2Proof.Machine
end

