-- ==== Sys2Proof/Proofs/StartSequence.lean ====
section
/-! The start sequence as a whole (R208): the state that its steps leave, over the state that its events find. -/

namespace Sys2Proof.Machine

/-! ### Steps 5 and 6 in one -/

/-- The CALIBRATION region after the lockout that a start enters and the judgement of the marks. -/
def State.calAtStart (u : State) : Option LockCode → Calibration
  | none => u.cal.unmarked
  | some code => (u.lockoutCal code).unmarked

/-- The Evidence Store after the lockout that a start enters. -/
def State.evidenceAtStart (u : State) : Option LockCode → List EvidenceSlot
  | none => u.evidence
  | some _ => u.lockoutEvidence

/-- The notices of the lockout that a start enters. -/
def State.noticesAtStart (u : State) : Option LockCode → Port → List Notice
  | none => fun _ => []
  | some code => u.lockoutNotices code

/-- The writes of steps 5 and 6, one for each step that touches a region. -/
def State.writesAtStart (u : State) : Option LockCode → List RetainedWrite
  | none => begunWrites (if u.cal.marked then [.calibration] else [])
  | some code =>
    u.lockoutWrites ++ begunWrites (if code = .calibrationLost ∧ u.cal.marked = true then [.calibration] else [])

/-- What steps 5 and 6 leave where they enter a lockout or none. -/
structure State.JudgedAtStart (b : Bridge) (u t : State) (entered : Option LockCode) : Prop where
  rest : t = { u with bridge := t.bridge, cal := t.cal, evidence := t.evidence, ports := t.ports, writes := t.writes }
  atStart : t.AtStart b
  cal : t.cal = u.calAtStart entered
  evidence : t.evidence = u.evidenceAtStart entered
  ports : t.portsHold (u.noticesAtStart entered)
  writes : t.writes = u.writes ++ u.writesAtStart entered

/-- The ports at reset hold no notice. -/
theorem State.portsHold_reset {u : State} (h : u.ports = .reset) : u.portsHold (fun _ => []) := by
  intro p
  cases p <;> simp only [State.port, h] <;> rfl

section
variable {b : Bridge} {u : State}

/-- The notices of a lockout that a start enters. -/
theorem State.portsHold_lockout (hp : u.ports = .reset) (ho : u.outbox = []) (code : LockCode) (hl : u.locked = false)
    {t : State} (ht : t.ports = (u.enterLockout code).flush.ports) : t.portsHold (u.lockoutNotices code) := by
  have hheld : (u.enterLockout code).portsHold (fun _ => []) :=
    State.portsHold_congr (State.portsHold_reset hp) (by simp)
  have hbox : ∀ p, sortNotices (outboxFor (u.enterLockout code).outbox p) = u.lockoutNotices code p := by
    intro p
    rw [State.enterLockout_free code hl, ho]
    exact u.lockoutNotices_sorted code p
  have hroom : ∀ p, ([] : List Notice).length + (u.lockoutNotices code p).length ≤ 16 := by
    intro p
    have hlen := u.lockoutNotices_length code p
    rw [List.length_nil]
    omega
  have hflush : (u.enterLockout code).flush.portsHold (u.lockoutNotices code) := by
    have h := State.portsHold_flush hheld hbox hroom
    simpa only [List.nil_append] using h
  exact State.portsHold_congr hflush ht

theorem State.AtStart.judgedAtStart (h : u.AtStart b) (ho : u.outbox = []) (hn : u.commitNote = none)
    (hp : u.ports = .reset) (lost : Bool) : State.JudgedAtStart b u (u.judgedAtStart lost) (u.codeAtStart lost) := by
  cases hl : u.locked with
  | true =>
    have hcode : u.codeAtStart lost = none := by simp [State.codeAtStart, hl]
    obtain ⟨br, he, ha⟩ := h.judgedAtStart_locked ho hn lost hl
    rw [hcode]
    generalize u.judgedAtStart lost = t at he ha
    subst he
    exact ⟨rfl, ha, rfl, rfl, State.portsHold_reset hp, rfl⟩
  | false =>
    cases lost with
    | true =>
      have hcode : u.codeAtStart true = some .calibrationLost := by simp [State.codeAtStart, hl]
      obtain ⟨br, he, ha⟩ := h.judgedAtStart_lost hn hl
      rw [hcode]
      generalize u.judgedAtStart true = t at he ha
      subst he
      refine ⟨by rw [← ho], ha, rfl, rfl, State.portsHold_lockout hp ho .calibrationLost hl rfl, ?_⟩
      simp [State.writesAtStart]
    | false =>
      obtain ⟨hboth, helse⟩ := h.judgedAtStart_marks ho hn hl
      cases hm : (u.cal.accessMark && u.cal.diffMark) with
      | true =>
        have hcode : u.codeAtStart false = some .calAccessInterrupted := by simp [State.codeAtStart, hl, hm]
        obtain ⟨br, he, ha⟩ := hboth hm
        rw [hcode]
        generalize u.judgedAtStart false = t at he ha
        subst he
        refine ⟨by rw [← ho], ha, rfl, rfl, State.portsHold_lockout hp ho .calAccessInterrupted hl rfl, ?_⟩
        simp [State.writesAtStart, begunWrites]
      | false =>
        have hcode : u.codeAtStart false = none := by simp [State.codeAtStart, hl, hm]
        obtain ⟨br, he, ha⟩ := helse hm
        rw [hcode]
        generalize u.judgedAtStart false = t at he ha
        subst he
        exact ⟨rfl, ha, rfl, rfl, State.portsHold_reset hp, rfl⟩

end

end Sys2Proof.Machine
end

