-- ==== Sys2Proof/Proofs/StartOutcome.lean ====
section
/-! What the start sequence leaves (R208), over the state that its events find: the lockout judged, the lost regions
raised, round 1 begun. -/

namespace Sys2Proof.Machine

/-- What the events of a start leave, before round 1. -/
structure State.EventsDone (b : Bridge) (u t : State) (entered : Option LockCode) (cs : List FaultClass) : Prop where
  rest : t = { u with bridge := t.bridge, cal := t.cal, evidence := t.evidence, faults := t.faults, ports := t.ports
                      writes := t.writes }
  atStart : t.AtStart b
  settled : t.settled = true
  cal : t.cal = u.calAtStart entered
  evidence : t.evidence = u.evidenceAtStart entered
  writes : t.writes = u.writes ++ u.writesAtStart entered
  lastStable : t.faults.lastStable = u.faults.lastStable
  entries : u.entriesRaised t cs
  ports : t.portsHold (fun p => u.noticesAtStart entered p ++ cs.map u.lostNotice)

/-- The events of a start (R208 steps 5 to 7). -/
def State.startEvents (u : State) (lost : Bool) (cs : List FaultClass) : State :=
  cs.foldl (fun t c => event t (t.raiseFault (regionKey c) none)) (u.judgedAtStart lost)

theorem State.startSequence_eq (s : State) (cause : StartCause) (l : LostRegions) :
    s.startSequence cause l =
      ({ (s.startBase cause l).startEvents (l.calibration || l.audit) (lostRaises l) with phase := .running }
        : State).startRound := by
  unfold State.startBase
  rw [← State.recorded_eq]
  rfl

theorem State.noticesAtStart_length (u : State) (entered : Option LockCode) (p : Port) :
    (u.noticesAtStart entered p).length ≤ 2 := by
  cases entered with
  | none => exact Nat.zero_le 2
  | some code => exact u.lockoutNotices_length code p

/-- The classes to raise are those of the lost regions, in their order. -/
theorem lostRaises_sublist (l : LostRegions) : (lostRaises l).Sublist regionClasses := by
  have hone : ∀ (lost : Bool) (c : FaultClass), (if lost then [c] else []).Sublist [c] := by
    intro lost c
    cases lost <;> simp
  exact (((hone l.visits _).append (hone l.tares _)).append (hone l.tickets _)).append (hone l.site _)

/-- The notice of a raise depends on the site region alone. -/
theorem State.lostNotice_congr {t u : State} (h : t.site = u.site) : t.lostNotice = u.lostNotice := by
  funext c
  have hpolicy : t.policy c = u.policy c := by cases c <;> simp [State.policy, h]
  simp only [State.lostNotice, hpolicy, h]

section
variable {b : Bridge} {u : State}

theorem State.AtStart.eventsDone (h : u.AtStart b) (ho : u.outbox = []) (hn : u.commitNote = none)
    (hp : u.ports = .reset) (lost : Bool) {cs : List FaultClass} (hc : cs.Sublist regionClasses) :
    State.EventsDone b u (u.startEvents lost cs) (u.codeAtStart lost) cs := by
  have hj := h.judgedAtStart ho hn hp lost
  have hset : (u.judgedAtStart lost).settled = true := event_settled _ _
  unfold State.startEvents
  generalize u.judgedAtStart lost = m at hj hset
  generalize u.codeAtStart lost = entered at hj
  have hnote : m.commitNote = none := by rw [hj.rest]; exact hn
  have hsite : m.site = u.site := by rw [hj.rest]
  have hfaults : m.faults = u.faults := by rw [hj.rest]
  have hlen : cs.length ≤ 4 := hc.length_le
  have hr := hj.atStart.raises hset hnote hj.ports (fun c hm => hc.subset hm) (hc.nodup (by decide))
    (fun p => by have := u.noticesAtStart_length entered p; omega)
  generalize cs.foldl (fun t c => event t (t.raiseFault (regionKey c) none)) m = t at hr
  have hcal : t.cal = m.cal := by rw [hr.rest]
  have hev : t.evidence = m.evidence := by rw [hr.rest]
  have hw : t.writes = m.writes := by rw [hr.rest]
  refine ⟨?_, hr.atStart, hr.settled, hcal.trans hj.cal, hev.trans hj.evidence, hw.trans hj.writes,
    hr.lastStable.trans (congrArg _ hfaults), fun k hk => ?_, ?_⟩
  · rw [hcal, hev, hw, hr.rest, hj.rest]
  · rw [hr.entries k hk, State.faultEntry_congr (congrArg _ hfaults), hsite]
  · rw [← State.lostNotice_congr hsite]
    exact hr.ports

end

/-! ### Round 1 -/

/-- What round 1 of a start leaves: its first poll, or its values where no address is CONFIGURED. -/
structure State.FirstRound (t r : State) : Prop where
  rest : r = { t with bus := r.bus, weigh := r.weigh }
  polls : ∀ first rest, t.cal.committed.configuredList = first :: rest →
    r.bus = { t.bus with
      records := (t.bus.markRecords t.cal.committed).records, table := t.cal.committed, inProgress := true
      toPoll := rest, poll := .sending first, index := nextIndex t.bus.index, overrun := false
      periodTimer := true } ∧ r.weigh = t.weigh
  ends : t.cal.committed.configuredList = [] →
    r.bus = { t.bus with
      records := (t.bus.markRecords t.cal.committed).records, table := t.cal.committed, inProgress := false
      toPoll := [], poll := .idle, index := nextIndex t.bus.index, overrun := false, periodTimer := true, overruns := 0
      handedIndex := nextIndex t.bus.index, handedValid := r.bus.handedValid } ∧
    t.weigh.AfterInvalid r.weigh (nextIndex t.bus.index)

theorem State.AtStart.firstRound {b : Bridge} {t : State} (h : t.AtStart b) (hs : t.settled = true)
    (hn : t.commitNote = none) (hb : t.bus = .started t.cal.committed) (hd : 1 ≤ t.cal.committed.decks)
    (ho : (t.faultEntry overrunKey).present = false) : t.FirstRound t.startRound := by
  have htable : t.tableInUse = t.cal.committed := by simp [State.tableInUse, h.staged]
  cases hl : t.cal.committed.configuredList with
  | nil =>
    obtain ⟨hrest, hweigh⟩ := h.startRound_ends hs hn hb hl hd ho
    have hbus := State.startRound_nil_bus (s := t) (by rw [htable, hl])
    rw [htable] at hbus
    refine ⟨hrest, fun first rest hc => ?_, fun _ => ⟨hbus, hweigh⟩⟩
    rw [hl] at hc
    cases hc
  | cons first rest =>
    have hround := h.startRound_polls hs hn hb hl
    have hbus := State.beginRound_bus_cons (s := t) (by rw [htable, hl])
    rw [htable] at hbus
    refine ⟨by rw [hround], fun first' rest' hc => ?_, fun hc => ?_⟩
    · rw [hl] at hc
      cases hc
      rw [hround]
      exact ⟨hbus, rfl⟩
    · rw [hl] at hc
      cases hc

end Sys2Proof.Machine
end

