-- ==== Sys2Proof/Proofs/StartBase.lean ====
section
/-! The state that the events of a start find, field by field (R204, R205, R206, R208 steps 1 to 4). -/

namespace Sys2Proof.Machine

/-- The check of the regions changes the retained regions alone. -/
theorem State.checkRegions_eq (s : State) (l : LostRegions) :
    s.checkRegions l =
      { s with cal := (s.checkRegions l).cal, audit := (s.checkRegions l).audit, visits := (s.checkRegions l).visits
               tares := (s.checkRegions l).tares, tickets := (s.checkRegions l).tickets
               site := (s.checkRegions l).site, evidence := (s.checkRegions l).evidence } := by
  unfold State.checkRegions
  cases l.calibration <;> cases l.audit <;> rfl

section
variable (s : State) (cause : StartCause) (l : LostRegions)

/-- What the events of a start find apart from the retained regions. -/
theorem State.startBase_volatile :
    s.startBase cause l =
      { s with
        bus := .started (s.startBase cause l).cal.committed, weigh := .reset, capture := .reset
        bridge := s.bridge.started, axles := .reset, visits := (s.startBase cause l).visits, inUse := none
        tares := (s.startBase cause l).tares, tickets := (s.startBase cause l).tickets
        cal := (s.startBase cause l).cal, staged := none, audit := (s.startBase cause l).audit, run := none
        evidence := (s.startBase cause l).evidence, faults := .reset, site := (s.startBase cause l).site
        clockSet := false, powered := 0, dipTimer := false, ports := .reset
        writes := (s.startBase cause l).writes, outbox := [], commitNote := none } := by
  rw [State.startBase_eq, State.recorded, State.checkRegions_eq]
  rfl

theorem State.startBase_cal :
    (s.startBase cause l).cal =
      { (s.checkRegions l).cal with startRecord := { cause := cause, lost := l }, pendingMark := false } := by
  rw [State.startBase_eq]
  rfl

theorem State.startBase_regions :
    (s.startBase cause l).audit = (if l.audit then .defaults else s.audit) ∧
    (s.startBase cause l).visits = returnedVisits (if l.visits then [] else s.visits) ∧
    (s.startBase cause l).tickets = (if l.tickets then .defaults else s.tickets) ∧
    (s.startBase cause l).site = (if l.site then .defaults else s.site) ∧
    (s.startBase cause l).evidence = (if l.evidence then [] else s.evidence) := by
  obtain ⟨ha, hv, ht, hs, he⟩ := s.checkRegions_regions l
  rw [State.startBase_eq]
  exact ⟨ha, congrArg returnedVisits hv, ht, hs, he⟩

theorem State.startBase_tares :
    (s.startBase cause l).tares.slots =
        (if l.tares then [] else if l.calibration && l.audit then keyedOnly s.tares.slots else s.tares.slots) ∧
      (s.startBase cause l).tares.pointer = (if l.tares then 0 else s.tares.pointer) := by
  rw [State.startBase_eq]
  exact s.checkRegions_tares l

/-- The writes of the first steps: the regions written again, the start record, the visits returned. -/
theorem State.startBase_writes :
    (s.startBase cause l).writes =
      begunWrites (rewrittenRegions s (s.checkRegions l) l) ++ begunWrites [.calibration] ++
        begunWrites (if returnedVisits (if l.visits then [] else s.visits) = (if l.visits then [] else s.visits) then []
          else [.visits]) := by
  obtain ⟨-, hv, -⟩ := s.checkRegions_regions l
  rw [State.startBase_eq, ← hv]
  rfl

variable {s cause l}

/-- A good CALIBRATION region stands but for the start record and the pending mark. -/
theorem State.startBase_cal_good (h : l.calibration = false) :
    (s.startBase cause l).cal = { s.cal with startRecord := { cause := cause, lost := l }, pendingMark := false } := by
  rw [State.startBase_cal, State.checkRegions_cal_good h]

/-- What a lost CALIBRATION region recovers (R204, R205). -/
structure Calibration.Recovered (s : State) (l : LostRegions) (c : Calibration) : Prop where
  committed : c.committed = []
  epoch : c.epoch = if l.audit then 0 else (s.audit.records.map (·.epochAfter)).foldl max s.audit.epochMark
  nextNumber : c.nextNumber = 1
  lastKey : c.lastKey = none
  series : c.series = min ((if l.tickets then 0 else (s.tickets.ring.map (·.key.series)).foldl max 0) + 1) 99
  exhausted : c.exhausted = true ↔ 99 ≤ (if l.tickets then 0 else (s.tickets.ring.map (·.key.series)).foldl max 0)
  snapshotNext : c.snapshotNext =
    nextSnapshotNumber (((if l.evidence then [] else s.evidence).map (·.snapshot.number)).foldl max 0)
  notVerified : c.notVerified = true
  flag : c.flag = none
  lockout : c.lockout = none
  unmarked : c.accessMark = false ∧ c.diffMark = false

theorem State.startBase_cal_lost (h : l.calibration = true) : (s.startBase cause l).cal.Recovered s l := by
  obtain ⟨ha, -, ht, -, he⟩ := s.checkRegions_regions l
  have htop : ((s.checkRegions l).tickets.ring.map (·.key.series)).foldl max 0
      = (if l.tickets then 0 else (s.tickets.ring.map (·.key.series)).foldl max 0) := by
    rw [ht]
    cases l.tickets <;> rfl
  rw [State.startBase_cal, State.checkRegions_cal_lost h, State.recoveredCalibration_eq, htop, he]
  refine ⟨rfl, ?_, rfl, rfl, rfl, decide_eq_true_iff, rfl, rfl, rfl, rfl, rfl, rfl⟩
  rw [ha]
  cases l.audit <;> rfl

/-! ### In the words of the statement -/

theorem State.startBase_committed :
    (s.startBase cause l).cal.committed = if l.calibration then [] else s.cal.committed := by
  cases h : l.calibration with
  | true => exact (State.startBase_cal_lost h).committed
  | false => rw [State.startBase_cal_good h]; rfl

theorem State.startBase_lockout :
    (s.startBase cause l).cal.lockout = if l.calibration then none else s.cal.lockout := by
  cases h : l.calibration with
  | true => exact (State.startBase_cal_lost h).lockout
  | false => rw [State.startBase_cal_good h]; rfl

theorem State.startBase_snapshotNext :
    (s.startBase cause l).cal.snapshotNext =
      if l.calibration then
        nextSnapshotNumber (((if l.evidence then [] else s.evidence).map (·.snapshot.number)).foldl max 0)
      else s.cal.snapshotNext := by
  cases h : l.calibration with
  | true => exact (State.startBase_cal_lost h).snapshotNext
  | false => rw [State.startBase_cal_good h]; rfl

/-- The marks are those found, none where CALIBRATION is lost. -/
theorem State.startBase_marks :
    (s.startBase cause l).cal.accessMark = (!l.calibration && s.cal.accessMark) ∧
      (s.startBase cause l).cal.diffMark = (!l.calibration && s.cal.diffMark) := by
  cases h : l.calibration with
  | true => exact (State.startBase_cal_lost h).unmarked
  | false => rw [State.startBase_cal_good h]; exact ⟨rfl, rfl⟩

theorem State.startBase_marked :
    (s.startBase cause l).cal.marked = (!l.calibration && (s.cal.accessMark || s.cal.diffMark)) := by
  rw [Calibration.marked, State.startBase_marks.1, State.startBase_marks.2, Bool.and_or_distrib_left]

/-- The lockout that a start enters. -/
theorem State.startBase_codeAtStart :
    (s.startBase cause l).codeAtStart (l.calibration || l.audit) =
      if (if l.calibration then none else s.cal.lockout) ≠ none then none
      else if l.calibration = true ∨ l.audit = true then some .calibrationLost
      else if s.cal.accessMark = true ∧ s.cal.diffMark = true then some .calAccessInterrupted
      else none := by
  have hlocked : ((s.startBase cause l).locked = true) = ((if l.calibration then none else s.cal.lockout) ≠ none) := by
    rw [State.locked, State.startBase_lockout, Option.isSome_iff_ne_none]
  unfold State.codeAtStart
  simp only [hlocked, State.startBase_marks, Bool.or_eq_true, Bool.and_eq_true]
  cases l.calibration <;> simp

end

/-! ### The CALIBRATION region, the record and the snapshot of a start -/

/-- What the lockout and the marks leave of the CALIBRATION region. -/
theorem State.calAtStart_kept (u : State) (entered : Option LockCode) :
    u.calAtStart entered =
      { u.cal with
        accessMark := false, diffMark := false
        lockout := if entered = none then u.cal.lockout else entered
        notVerified := u.cal.notVerified || decide (entered = some .calibrationLost)
        lockRecord := (u.calAtStart entered).lockRecord, snapshotNext := (u.calAtStart entered).snapshotNext } := by
  cases entered with
  | none => simp [State.calAtStart, Calibration.unmarked]
  | some code => simp [State.calAtStart, Calibration.unmarked, State.lockoutCal]

section
variable (s : State) (cause : StartCause) (l : LostRegions)

/-- The lockout record of a start. -/
theorem State.startBase_lockRecord (code : LockCode) :
    ((s.startBase cause l).calAtStart (some code)).lockRecord =
      some { code := code, time := (s.startBase cause l).site.clock, bridge := .occupiedUnknown, ident := none,
             lastStable := none, epoch := (s.startBase cause l).cal.epoch, present := [], cleared := none } := by
  rw [State.startBase_volatile]
  rfl

/-- The content of a LOCKOUT snapshot of a start. -/
theorem State.startBase_snapshot (number : Nat) :
    (s.startBase cause l).snapshotOf number .lockout none =
      { number := number, kind := .lockout, time := (s.startBase cause l).site.clock
        epoch := (s.startBase cause l).cal.epoch, round := none
        cells := addresses.map (fun i =>
          { configured := (s.startBase cause l).cal.committed.configured i
            condition := if (s.startBase cause l).cal.committed.configured i then some .missing else none
            lastCount := none, lastStatus := none })
        decks := [], gross := none, rounded := none, stable := none, ident := none, draft := none } := by
  have hcells : addresses.map (fun i =>
      ({ configured := ((s.startBase cause l).bus.record i).configured
         condition := ((s.startBase cause l).bus.record i).condition
         lastCount := ((s.startBase cause l).bus.record i).lastCount
         lastStatus := ((s.startBase cause l).bus.record i).lastStatus } : SnapshotCell)) =
      addresses.map (fun i =>
        { configured := (s.startBase cause l).cal.committed.configured i
          condition := if (s.startBase cause l).cal.committed.configured i then some .missing else none
          lastCount := none, lastStatus := none }) := by
    refine List.map_congr_left (fun i hi => ?_)
    have hbus : (s.startBase cause l).bus = .started (s.startBase cause l).cal.committed := by
      rw [State.startBase_volatile]
    rw [hbus, Bus.started_record]
    cases hc : (s.startBase cause l).cal.committed.configured i <;> simp [hi, CellRecord.absent]
  have hweigh : (s.startBase cause l).weigh = .reset := by rw [State.startBase_volatile]
  have hgrant : (s.startBase cause l).bridge.grant = none := by
    rw [State.startBase_volatile]
    rfl
  unfold State.snapshotOf
  simp only [hcells, hweigh, hgrant]
  rfl

end

end Sys2Proof.Machine
end

