-- ==== Sys2Proof/Proofs/StartLeft.lean ====
section
/-! The start sequence settled: what it leaves, in one structure, and the parts of the statement from it. -/

namespace Sys2Proof.Machine

/-- What the start sequence leaves over the state that its events find. -/
structure State.StartLeft (s : State) (cause : StartCause) (l : LostRegions) (entered : Option LockCode) (t : State) :
    Prop where
  rest : t = { s.startBase cause l with
    phase := .running, bus := t.bus, weigh := t.weigh, bridge := t.bridge, cal := t.cal, evidence := t.evidence
    faults := t.faults, ports := t.ports, writes := t.writes }
  bridge : t.bridge = { s.bridge.started with
    feedbackA := t.bridge.feedbackA, feedbackB := t.bridge.feedbackB
    holds := { Holds.clear with fault := t.bridge.holds.fault } }
  fault : t.bridge.holds.fault = t.faultJudged
  cal : t.cal = (s.startBase cause l).calAtStart entered
  evidence : t.evidence = (s.startBase cause l).evidenceAtStart entered
  writes : t.writes = (s.startBase cause l).writes ++ (s.startBase cause l).writesAtStart entered
  lastStable : t.faults.lastStable = none
  entries : (s.startBase cause l).entriesRaised t (lostRaises l)
  ports : t.portsHold
    (fun p => (s.startBase cause l).noticesAtStart entered p ++ (lostRaises l).map (s.startBase cause l).lostNotice)
  round : ∃ v : State, v.bus = .started v.cal.committed ∧ v.weigh = .reset ∧
    v.cal.committed = (s.startBase cause l).cal.committed ∧ v.FirstRound t

/-- A class that is no region's has no entry among the raises. -/
theorem State.entriesRaised_other {u t : State} {l : LostRegions} (h : u.entriesRaised t (lostRaises l)) {k : FaultKey}
    (hk : k.inst < 32) (hc : k.cls ∉ regionClasses) : t.faultEntry k = u.faultEntry k := by
  rw [h k hk, if_neg (fun hmem => hc ((lostRaises_sublist l).subset hmem.2))]

theorem State.startBase_faultEntry (s : State) (cause : StartCause) (l : LostRegions) (k : FaultKey) :
    (s.startBase cause l).faultEntry k = FaultEntry.blank k := by
  rw [State.startBase_volatile]
  rfl

theorem State.startSequence_left (s : State) (cause : StartCause) (l : LostRegions)
    (hd : 1 ≤ (s.startBase cause l).cal.committed.decks) :
    State.StartLeft s cause l ((s.startBase cause l).codeAtStart (l.calibration || l.audit))
      (s.startSequence cause l) := by
  have hvol := s.startBase_volatile cause l
  have hentry := s.startBase_faultEntry cause l
  rw [State.startSequence_eq]
  have hat := s.startBase_atStart cause l
  generalize hu : s.startBase cause l = u at hvol hat hd hentry
  have hout : u.outbox = [] := by rw [hvol]
  have hnote : u.commitNote = none := by rw [hvol]
  have hports : u.ports = .reset := by rw [hvol]
  have hfaults : u.faults = .reset := by rw [hvol]
  have hbus : u.bus = .started u.cal.committed := by rw [hvol]
  have hweigh : u.weigh = .reset := by rw [hvol]
  have he := hat.eventsDone hout hnote hports (l.calibration || l.audit) (lostRaises_sublist l)
  generalize u.startEvents (l.calibration || l.audit) (lostRaises l) = t at he
  generalize u.codeAtStart (l.calibration || l.audit) = entered at he
  have htable : t.cal.committed = u.cal.committed := by rw [he.cal, State.calAtStart_kept]
  have htbus : t.bus = .started t.cal.committed := by
    rw [htable, ← hbus, he.rest]
  have htweigh : t.weigh = .reset := by rw [← hweigh, he.rest]
  have htnote : t.commitNote = none := by rw [he.rest]; exact hnote
  have hover : (t.faultEntry overrunKey).present = false := by
    rw [State.entriesRaised_other he.entries (by decide) (by decide), hentry]
    rfl
  have hr := State.AtStart.firstRound (t := { t with phase := .running })
    ⟨he.atStart.bridge, he.atStart.capture, he.atStart.axles, he.atStart.run, he.atStart.inUse, he.atStart.staged,
      he.atStart.lamps⟩ he.settled htnote htbus (by rw [htable]; exact hd) hover
  have hfirst : ∃ v : State, v.bus = .started v.cal.committed ∧ v.weigh = .reset ∧
      v.cal.committed = u.cal.committed ∧ v.FirstRound ({ t with phase := .running } : State).startRound :=
    ⟨{ t with phase := .running }, htbus, htweigh, htable, hr⟩
  have hrest := hr.rest
  generalize ({ t with phase := .running } : State).startRound = r at hrest hfirst
  have hbridge : r.bridge = t.bridge := by rw [hrest]
  have hcal : r.cal = t.cal := by rw [hrest]
  have hevidence : r.evidence = t.evidence := by rw [hrest]
  have hrfaults : r.faults = t.faults := by rw [hrest]
  have hrports : r.ports = t.ports := by rw [hrest]
  have hwrites : r.writes = t.writes := by rw [hrest]
  have hjudged : r.faultJudged = t.faultJudged :=
    State.faultJudged_congr (by rw [hrest]) (by rw [hrest]) (by rw [hrest])
  obtain ⟨-, hset⟩ := (State.settled_iff t).1 he.settled
  obtain ⟨-, hfault, -⟩ := (State.bridgeSettled_iff t).1 hset
  refine
    { rest := ?_
      bridge := by rw [hbridge]; exact he.atStart.bridge
      fault := by rw [hbridge, hjudged, hfault]
      cal := by rw [hu, hcal, he.cal]
      evidence := by rw [hu, hevidence, he.evidence]
      writes := by rw [hu, hwrites, he.writes]
      lastStable := by rw [hrfaults, he.lastStable, hfaults]; rfl
      entries := fun k hk => by
        rw [hu, State.faultEntry_congr (congrArg _ hrfaults)]
        exact he.entries k hk
      ports := by rw [hu]; exact State.portsHold_congr he.ports hrports
      round := by rw [hu]; exact hfirst }
  rw [hu, hbridge, hcal, hevidence, hrfaults, hrports, hwrites, hrest, he.rest]

end Sys2Proof.Machine
end

