-- ==== Sys2Proof/Proofs/StartSettled.lean ====
section
/-! The start sequence settled: the parts of its statement from what it leaves. -/

namespace Sys2Proof.Machine

section
variable {s : State} {cause : StartCause} {l : LostRegions} {entered : Option LockCode} {t : State}

/-- The bus after round 1 has begun. -/
theorem State.StartLeft.bus (h : State.StartLeft s cause l entered t) :
    t.bus.index = 1 ∧ t.bus.overruns = 0 ∧ t.bus.overrun = false ∧ t.bus.periodTimer = true ∧
      t.bus.table = (s.startBase cause l).cal.committed ∧
      ∀ i, t.bus.record i = (Bus.started (s.startBase cause l).cal.committed).record i := by
  obtain ⟨v, hbus, -, htable, hr⟩ := h.round
  rw [← htable]
  cases hl : v.cal.committed.configuredList with
  | nil =>
    obtain ⟨hb, -⟩ := hr.ends hl
    rw [hb, hbus]
    exact ⟨rfl, rfl, rfl, rfl, rfl, fun i => Bus.started_markRecords v.cal.committed i⟩
  | cons first rest =>
    obtain ⟨hb, -⟩ := hr.polls first rest hl
    rw [hb, hbus]
    exact ⟨rfl, rfl, rfl, rfl, rfl, fun i => Bus.started_markRecords v.cal.committed i⟩

/-- The records of a start, by whether the committed table configures the address. -/
theorem State.StartLeft.records (h : State.StartLeft s cause l entered t) (i : Nat) (h1 : 1 ≤ i) (h16 : i ≤ 16) :
    ((s.startBase cause l).cal.committed.configured i = true → t.bus.record i =
      { configured := true, condition := some .missing, miss := 0, lastCount := none, lastStatus := none,
        lastSerial := none }) ∧
    ((s.startBase cause l).cal.committed.configured i = false → (t.bus.record i).configured = false) := by
  obtain ⟨-, -, -, -, -, hrec⟩ := h.bus
  have hi := mem_addresses.2 ⟨h1, h16⟩
  rw [hrec, Bus.started_record]
  refine ⟨fun hc => ?_, fun hc => ?_⟩ <;> simp [hi, hc, CellRecord.absent]

/-- Round 1 with a cell to poll. -/
theorem State.StartLeft.polls (h : State.StartLeft s cause l entered t) {first : Nat} {rest : List Nat}
    (hl : (s.startBase cause l).cal.committed.configuredList = first :: rest) :
    t.bus.inProgress = true ∧ t.bus.poll = .sending first ∧ t.bus.toPoll = rest ∧ t.weigh = .reset := by
  obtain ⟨v, -, hweigh, htable, hr⟩ := h.round
  rw [← htable] at hl
  obtain ⟨hb, hw⟩ := hr.polls first rest hl
  rw [hb, hw, hweigh]
  exact ⟨rfl, rfl, rfl, rfl⟩

/-- Round 1 with no cell to poll has ended, invalid. -/
theorem State.StartLeft.ends (h : State.StartLeft s cause l entered t)
    (hl : (s.startBase cause l).cal.committed.configuredList = []) :
    t.bus.inProgress = false ∧ t.bus.poll = .idle ∧ t.bus.handedIndex = 1 ∧
      t.weigh.zeroUnset = true ∧ t.weigh.zero = [] ∧ t.weigh.startZero = [] ∧ t.weigh.window = [] ∧
      t.weigh.stable = false ∧ t.weigh.trackingTimer = true ∧
      ∃ v, t.weigh.latest = some v ∧ v.index = 1 ∧ v.valid = false ∧ ∀ d ∈ v.decks, d.validity = .noCells := by
  obtain ⟨v, hbus, hweigh, htable, hr⟩ := h.round
  rw [← htable] at hl
  obtain ⟨hb, hw⟩ := hr.ends hl
  rw [hweigh, hbus] at hw
  rw [hb, hbus]
  exact ⟨rfl, rfl, rfl, hw.zeroUnset, hw.zero, hw.startZero, hw.window, hw.stable, hw.trackingTimer, hw.latest⟩

/-- The entries of the register of a start. -/
theorem State.StartLeft.entry (h : State.StartLeft s cause l entered t) (k : FaultKey) (hk : k.inst < 32) :
    t.faultEntry k =
      if k.inst = 0 ∧ k.cls ∈ lostRaises l then
        { key := k, present := true, outstanding := true, count := 1
          raisedAt := some (s.startBase cause l).site.clock }
      else FaultEntry.blank k := by
  rw [h.entries k hk, State.startBase_faultEntry]
  by_cases hc : k.inst = 0 ∧ k.cls ∈ lostRaises l
  · have hmet := regionClasses_not_metrological ((lostRaises_sublist l).subset hc.2)
    rw [if_pos hc, if_pos hc, FaultEntry.raised, hmet]
    rfl
  · rw [if_neg hc, if_neg hc]

/-- The notices of a start at a port. -/
theorem State.StartLeft.port (h : State.StartLeft s cause l entered t) (p : Port) :
    (t.port p).receiver = .hunting ∧ (t.port p).replies = [] ∧ (t.port p).overflow = false ∧
      (t.port p).notices = (s.startBase cause l).noticesAtStart entered p ++
        (lostRaises l).map (fun c => .faultRaised { cls := c, inst := 0 } false (t.policy c) .none_
          (s.startBase cause l).site.clock none) := by
  have hsite : (s.startBase cause l).site = t.site := by rw [h.rest]
  have hnotice : (s.startBase cause l).lostNotice = (fun c =>
      .faultRaised { cls := c, inst := 0 } false (t.policy c) .none_ (s.startBase cause l).site.clock none) := by
    rw [State.lostNotice_congr hsite, hsite]
    rfl
  rw [← hnotice, h.ports p]
  exact ⟨rfl, rfl, rfl, rfl⟩

/-- The CALIBRATION region of a start, apart from what the lockout entered writes. -/
theorem State.StartLeft.cal_eq (h : State.StartLeft s cause l entered t) :
    t.cal =
      { (s.startBase cause l).cal with
        accessMark := false, diffMark := false
        lockout := if entered = none then (s.startBase cause l).cal.lockout else entered
        notVerified := (s.startBase cause l).cal.notVerified || decide (entered = some .calibrationLost)
        lockRecord := t.cal.lockRecord, snapshotNext := t.cal.snapshotNext } := by
  rw [h.cal]
  exact State.calAtStart_kept _ entered

/-- A good CALIBRATION region stands through a start. -/
theorem State.StartLeft.cal_good (h : State.StartLeft s cause l entered t) (hl : l.calibration = false) :
    t.cal.epoch = s.cal.epoch ∧ t.cal.flag = s.cal.flag ∧ t.cal.series = s.cal.series ∧
      t.cal.nextNumber = s.cal.nextNumber ∧ t.cal.exhausted = s.cal.exhausted ∧ t.cal.lastKey = s.cal.lastKey ∧
      t.cal.notVerified = (s.cal.notVerified || decide (entered = some .calibrationLost)) := by
  rw [h.cal_eq, State.startBase_cal_good hl]
  exact ⟨rfl, rfl, rfl, rfl, rfl, rfl, rfl⟩

/-- A lost CALIBRATION region has its counts recovered. -/
theorem State.StartLeft.cal_lost (h : State.StartLeft s cause l entered t) (hl : l.calibration = true) :
    t.cal.notVerified = true ∧ t.cal.flag = none ∧
      t.cal.epoch = (if l.audit then 0 else (s.audit.records.map (·.epochAfter)).foldl max s.audit.epochMark) ∧
      t.cal.nextNumber = 1 ∧ t.cal.lastKey = none ∧
      (let top := if l.tickets then 0 else (s.tickets.ring.map (·.key.series)).foldl max 0
       t.cal.series = min (top + 1) 99 ∧ (t.cal.exhausted = true ↔ 99 ≤ top)) := by
  have hrec : (s.startBase cause l).cal.Recovered s l := State.startBase_cal_lost hl
  rw [h.cal_eq]
  exact ⟨by simp only [hrec.notVerified, Bool.true_or], hrec.flag, hrec.epoch, hrec.nextNumber, hrec.lastKey,
    hrec.series, hrec.exhausted⟩

/-- A start that enters no lockout leaves the record, the store and the counter. -/
theorem State.StartLeft.no_lockout_entered (h : State.StartLeft s cause l none t) :
    t.cal.lockRecord = (s.startBase cause l).cal.lockRecord ∧ t.evidence = (s.startBase cause l).evidence ∧
      t.cal.snapshotNext = (s.startBase cause l).cal.snapshotNext := by
  rw [h.cal, h.evidence]
  generalize s.startBase cause l = u
  exact ⟨rfl, rfl, rfl⟩

/-- A start that enters lockout makes its record and its snapshot. -/
theorem State.StartLeft.lockout_entered {code : LockCode} (h : State.StartLeft s cause l (some code) t) :
    t.cal.lockRecord =
      some { code := code, time := (s.startBase cause l).site.clock, bridge := .occupiedUnknown, ident := none,
             lastStable := none, epoch := t.cal.epoch, present := [], cleared := none } ∧
    t.cal.snapshotNext = nextSnapshotNumber (s.startBase cause l).snapshotNumber ∧
    t.evidence =
      (s.startBase cause l).evidence.filter
          (fun x => x.slot ≠ chooseEvidenceSlot (s.startBase cause l).evidence .lockout) ++
        [{ slot := chooseEvidenceSlot (s.startBase cause l).evidence .lockout, snapshot :=
          { number := (s.startBase cause l).snapshotNumber, kind := .lockout, time := (s.startBase cause l).site.clock
            epoch := t.cal.epoch, round := none
            cells := addresses.map (fun i =>
              { configured := (s.startBase cause l).cal.committed.configured i
                condition := if (s.startBase cause l).cal.committed.configured i then some .missing else none
                lastCount := none, lastStatus := none })
            decks := [], gross := none, rounded := none, stable := none, ident := none, draft := none } }] := by
  have hepoch : t.cal.epoch = (s.startBase cause l).cal.epoch := by rw [h.cal_eq]
  rw [hepoch, h.evidence, ← State.startBase_snapshot, h.cal, State.startBase_lockRecord]
  generalize s.startBase cause l = u
  exact ⟨rfl, rfl, rfl⟩

end

end Sys2Proof.Machine
end

