-- ==== Sys2Proof/Proofs/StartSequenceSettled.lean ====
section
/-! The statement of the start sequence. -/

namespace Sys2Proof.Machine

/-- The write of a start that enters no lockout: that of the marks cleared. -/
theorem State.startBase_writesAtStart_none (s : State) (cause : StartCause) (l : LostRegions) :
    (s.startBase cause l).writesAtStart none =
      begunWrites (if !l.calibration && (s.cal.accessMark || s.cal.diffMark) then [.calibration] else []) := by
  rw [← State.startBase_marked (cause := cause)]
  rfl

/-- The writes of a start that enters lockout: that of the entry, then that of the marks cleared. -/
theorem State.StartLeft.writesAtStart_some {s : State} {cause : StartCause} {l : LostRegions} {code : LockCode}
    {t : State} (h : State.StartLeft s cause l (some code) t) :
    (s.startBase cause l).writesAtStart (some code) =
      begunWrites (.calibration :: (if t.evidence = (s.startBase cause l).evidence then [] else [.evidence])) ++
        begunWrites (if code = .calibrationLost ∧ (!l.calibration && (s.cal.accessMark || s.cal.diffMark)) = true
          then [.calibration] else []) := by
  rw [← State.startBase_marked (cause := cause), h.evidence]
  rfl

/-- Settles O38: the first steps leave the state that the events of a start find; over it the lockout, the marks, the
raises and round 1 each change only what they name. -/
theorem startSequenceSetsEveryBlock : Obligations.StartSequenceSetsEveryBlock := by
  intro s cause lost hp hg table site evidence stands entered raised slot counter number visits keyed rewritten write
    marks hdecks
  have htable : (s.startBase cause lost).cal.committed = table := State.startBase_committed
  have hlockout : (s.startBase cause lost).cal.lockout = stands := State.startBase_lockout
  have hcounter : (s.startBase cause lost).cal.snapshotNext = counter := State.startBase_snapshotNext
  have hcode : (s.startBase cause lost).codeAtStart (lost.calibration || lost.audit) = entered :=
    State.startBase_codeAtStart
  obtain ⟨haudit, hvisits, htickets, hsite, hevidence⟩ := s.startBase_regions cause lost
  obtain ⟨hslots, hpointer⟩ := s.startBase_tares cause lost
  have hnumber : (s.startBase cause lost).snapshotNumber = number := by
    rw [State.snapshotNumber, hevidence, hcounter]
  have hleft := s.startSequence_left cause lost (by rw [htable]; exact hdecks)
  rw [hcode] at hleft
  refine ⟨_, exec_startSequence lost hp hg, ?_⟩
  generalize s.startSequence cause lost = t at hleft ⊢
  have hrest := hleft.rest
  rw [State.startBase_volatile] at hrest
  have hcal := hleft.cal_eq
  have hbase := s.startBase_cal cause lost
  obtain ⟨hindex, hoverruns, hoverrun, hperiod, htbl, -⟩ := hleft.bus
  have hbridge := hleft.bridge
  have hwrites := hleft.writes
  rw [s.startBase_writes, rewrittenRegions_checkRegions] at hwrites
  refine ⟨congrArg State.phase hrest,
    -- the CALIBRATION region
    by rw [hcal, hbase], by rw [hcal, hbase], by rw [hcal], by rw [hcal], by rw [hcal]; exact htable,
    by rw [hcal, hlockout], hleft.cal_good, hleft.cal_lost, fun hnone => ?_, fun code hsome => ?_,
    -- the other regions
    (congrArg State.visits hrest).trans hvisits, (congrArg (·.tares.slots) hrest).trans hslots,
    (congrArg (·.tares.pointer) hrest).trans hpointer, (congrArg State.tickets hrest).trans htickets,
    (congrArg State.site hrest).trans hsite, (congrArg State.audit hrest).trans haudit, ?_,
    -- the volatile state
    congrArg State.staged hrest, congrArg State.run hrest, congrArg State.inUse hrest, congrArg State.clockSet hrest,
    congrArg State.powered hrest, congrArg State.dipTimer hrest, by rw [hrest],
    (congrArg State.supplyGood hrest).trans hg, congrArg State.capture hrest, congrArg State.axles hrest,
    hindex, hoverruns, hoverrun, hperiod, htbl.trans htable, fun i h1 h16 => ?_, fun first rest hl => ?_, fun hl => ?_,
    congrArg Bridge.state hbridge, congrArg Bridge.startMark hbridge, congrArg Bridge.grant hbridge,
    congrArg Bridge.waiting hbridge, congrArg Bridge.arrivals hbridge, congrArg Bridge.grantTimer hbridge,
    congrArg Bridge.advance hbridge, congrArg Bridge.withheld hbridge, congrArg Bridge.aspectA hbridge,
    congrArg Bridge.aspectB hbridge, by rw [hbridge]; rfl, by rw [hbridge]; rfl,
    congrArg (·.holds.gatehouse) hbridge, congrArg (·.holds.lane) hbridge, congrArg (·.holds.manual) hbridge,
    congrArg (·.holds.metrology) hbridge, congrArg (·.holds.supply) hbridge, hleft.fault,
    -- the Fault Unit and the ports
    hleft.lastStable, fun k hk => ?_, fun p => ?_, by rw [hrest]⟩
  · have hgood : lost.calibration = false := by
      by_contra hl
      have hlost : lost.calibration = true := by simpa using hl
      simp [entered, stands, hlost] at hnone
    rw [hnone] at hleft
    obtain ⟨hrecord, hstore, hnext⟩ := hleft.no_lockout_entered
    refine ⟨hrecord.trans ?_, hstore.trans hevidence, hnext.trans hcounter⟩
    rw [State.startBase_cal_good hgood]
  · rw [hsome] at hleft
    have hlock := hleft.lockout_entered
    rw [hnumber, hevidence, hsite, htable] at hlock
    exact hlock
  · rw [hwrites]
    cases hentered : entered with
    | none =>
      rw [State.startBase_writesAtStart_none]
      rfl
    | some code =>
      rw [hentered] at hleft
      rw [hleft.writesAtStart_some, hevidence]
      rfl
  · have hrec := hleft.records i h1 h16
    rw [htable] at hrec
    exact hrec
  · exact hleft.polls (by rw [htable]; exact hl)
  · exact hleft.ends (by rw [htable]; exact hl)
  · rw [hleft.entry k hk, hsite]
    rfl
  · obtain ⟨hreceiver, hreplies, hoverflow, hnotices⟩ := hleft.port p
    refine ⟨hreceiver, hreplies, hoverflow, ?_⟩
    rw [hnotices, hsite]
    have hsnapshot : (s.startBase cause lost).snapshotNotice = .snapshotTaken number .lockout slot
        ((evidence.find? (fun x => x.slot = slot)).map (fun x => (x.snapshot.number, x.snapshot.kind))) := by
      rw [State.snapshotNotice, hnumber, hevidence]
    cases entered with
    | none => rfl
    | some code =>
      rw [State.noticesAtStart, State.lockoutNotices, hsnapshot, hsite]
      rfl

end Sys2Proof.Machine
end

