-- ==== Sys2Proof/Proofs/LiveWeight.lean ====
section
/-! The live weight (R33, R34): the state word and the value. -/

namespace Sys2Proof.Machine

/-- The state word with the latest round values, in the order of R33's table. -/
theorem State.liveWord_of_round {s : State} {v : RoundValues} (h : s.weigh.latest = some v) :
    s.liveWord =
      if !v.valid then .invalid
      else if v.range = .overload then .overload
      else if v.range = .underload then .underload
      else if s.accessOpen && v.decks.any (·.linearizationDisabled) then .calIncomplete
      else if s.accessOpen || s.cal.notVerified then .notForTrade
      else if s.weigh.zeroUnset then .zeroUnset
      else if s.weigh.stable then .stable
      else .motion := by
  simp only [State.liveWord, h]

/-- R34: the value is absent with the words INVALID, OVERLOAD and UNDERLOAD. -/
theorem State.liveValue_of_absent {s : State} {w : LiveWord} (h : s.liveWord = w)
    (hw : w = .invalid ∨ w = .overload ∨ w = .underload) : s.liveValue = none := by
  rw [State.liveValue, h]
  rcases hw with rfl | rfl | rfl <;> rfl

/-- R34: with any other word it is the rounded bridge weight of the latest round. -/
theorem State.liveValue_of_present {s : State} (h1 : s.liveWord ≠ .invalid) (h2 : s.liveWord ≠ .overload)
    (h3 : s.liveWord ≠ .underload) : s.liveValue = s.weigh.latest.bind (·.rounded) := by
  unfold State.liveValue
  split
  · next h => exact absurd h h1
  · next h => exact absurd h h2
  · next h => exact absurd h h3
  · rfl

/-- Settles O8: the words in the order of the table; the value goes with the word. -/
theorem liveWeightWordAndValue : Obligations.LiveWeightWordAndValue := by
  intro s
  refine ⟨fun hnone => ?_, fun v hv => ?_⟩
  · have hword := State.liveWord_of_no_round hnone
    exact ⟨hword, State.liveValue_of_absent hword (by simp)⟩
  have hword := State.liveWord_of_round hv
  refine ⟨fun hinvalid => ?_, fun hvalid hover => ?_, fun hvalid hunder => ?_, fun hvalid hnormal => ?_⟩
  · have hw : s.liveWord = .invalid := by simp [hword, hinvalid]
    exact ⟨hw, State.liveValue_of_absent hw (by simp)⟩
  · have hw : s.liveWord = .overload := by simp [hword, hvalid, hover]
    exact ⟨hw, State.liveValue_of_absent hw (by simp)⟩
  · have hw : s.liveWord = .underload := by simp [hword, hvalid, hunder]
    exact ⟨hw, State.liveValue_of_absent hw (by simp)⟩
  · simp only [hvalid, hnormal, Bool.not_true, Bool.false_eq_true, if_false, reduceCtorEq] at hword
    refine ⟨?_, fun hopen ⟨d, hd, hoff⟩ => ?_, fun hopen hon => ?_, fun hshut hmark => ?_, fun hshut hmark hunset => ?_,
      fun hshut hmark hset hstable => ?_, fun hshut hmark hset hmotion => ?_⟩
    · have hpresent : s.liveWord ≠ .invalid ∧ s.liveWord ≠ .overload ∧ s.liveWord ≠ .underload := by
        rw [hword]
        refine ⟨?_, ?_, ?_⟩ <;> repeat' split
        all_goals decide
      obtain ⟨h1, h2, h3⟩ := hpresent
      rw [State.liveValue_of_present h1 h2 h3, hv]
      rfl
    · have hany : v.decks.any (·.linearizationDisabled) = true := List.any_eq_true.2 ⟨d, hd, hoff⟩
      simp [hword, hopen, hany]
    · have hany : v.decks.any (·.linearizationDisabled) = false := by simpa using hon
      simp [hword, hopen, hany]
    · simp [hword, hshut, hmark]
    · simp [hword, hshut, hmark, hunset]
    · simp [hword, hshut, hmark, hset, hstable]
    · simp [hword, hshut, hmark, hset, hmotion]

end Sys2Proof.Machine
end

