-- ==== Sys2Proof/Proofs/Rounding.lean ====
section
/-! Rounded quotients (R16): how near they lie to the quotient, and between which integers. -/

namespace Sys2Proof.Machine

/-- R16 for lengths: the multiple of the divisor that the quotient of two lengths is rounded to. -/
theorem natRound_near (a : Nat) {b : Nat} (hb : 0 < b) :
    2 * (b * ((2 * a + b) / (2 * b))) ≤ 2 * a + b ∧ 2 * a < 2 * (b * ((2 * a + b) / (2 * b))) + b := by
  have hdiv := Nat.div_add_mod (2 * a + b) (2 * b)
  have hmod := Nat.mod_lt (2 * a + b) (show 0 < 2 * b by omega)
  rw [Nat.mul_assoc] at hdiv
  omega

/-- R16: divisor times rounded quotient has the sign of the numerator and the length that the quotient of the two
lengths is rounded to. -/
theorem mul_roundDiv (n : Int) {d : Int} (hd : d ≠ 0) :
    d * roundDiv n d =
      if n < 0 then -((d.natAbs * ((2 * n.natAbs + d.natAbs) / (2 * d.natAbs)) : Nat) : Int)
      else ((d.natAbs * ((2 * n.natAbs + d.natAbs) / (2 * d.natAbs)) : Nat) : Int) := by
  unfold roundDiv
  generalize (2 * n.natAbs + d.natAbs) / (2 * d.natAbs) = q
  have hn : n < 0 ∨ ¬ n < 0 := by omega
  rcases hn with hn | hn <;> rcases lt_or_gt_of_ne hd with hneg | hpos
  · simp [hd, hn, hneg, abs_of_neg hneg]
  · simp [hd, hn, not_lt_of_gt hpos, abs_of_pos hpos]
  · simp [hd, hn, hneg, abs_of_neg hneg]
  · simp [hd, hn, not_lt_of_gt hpos, abs_of_pos hpos]

/-- Settles O20: the length rounded to is near the numerator's, and at half a divisor from it exceeds it. -/
theorem roundingIsToNearestHalfAwayFromZero : Obligations.RoundingIsToNearestHalfAwayFromZero := by
  intro n d hd
  obtain ⟨hle, hlt⟩ := natRound_near n.natAbs (Int.natAbs_pos.2 hd)
  rw [mul_roundDiv n hd]
  generalize d.natAbs * ((2 * n.natAbs + d.natAbs) / (2 * d.natAbs)) = m at hle hlt
  simp only [Int.abs_eq_natAbs]
  split <;> omega

/-- A rounded quotient by a positive divisor lies within half of it. -/
theorem roundDiv_near (n : Int) {d : Int} (hd : 0 < d) : 2 * |n - d * roundDiv n d| ≤ d := by
  simpa [abs_of_pos hd] using (roundingIsToNearestHalfAwayFromZero n d (by omega)).1

/-- A rounded quotient lies between the integers that the quotient lies between. -/
theorem le_roundDiv {n d a : Int} (hd : 0 < d) (h : a * d ≤ n) : a ≤ roundDiv n d := by
  by_contra hlt
  have hmul : d * (roundDiv n d + 1) ≤ d * a := mul_le_mul_of_nonneg_left (by omega) hd.le
  linarith [roundDiv_near n hd, le_abs_self (n - d * roundDiv n d)]

theorem roundDiv_le {n d b : Int} (hd : 0 < d) (h : n ≤ b * d) : roundDiv n d ≤ b := by
  by_contra hlt
  have hmul : d * (b + 1) ≤ d * roundDiv n d := mul_le_mul_of_nonneg_left (by omega) hd.le
  linarith [roundDiv_near n hd, neg_abs_le (n - d * roundDiv n d)]

/-- An exact quotient is not changed by rounding. -/
theorem roundDiv_mul_self (k : Int) {d : Int} (hd : 0 < d) : roundDiv (k * d) d = k :=
  le_antisymm (roundDiv_le hd le_rfl) (le_roundDiv hd le_rfl)

end Sys2Proof.Machine
end

