-- ==== Sys2Proof/Proofs/Correction.lean ====
section
/-! The correction between the linearization points of a deck (R22) and the filter of its recent values (R24). -/

namespace Sys2Proof.Machine

/-! ### Points in order (R23) -/

/-- Points in order around one of them: the earlier ones lie below it, the later ones rise from it. -/
theorem pointsRise_append {low w e : Int} {before rest : List (Int × Int)}
    (h : pointsRise low (before ++ (w, e) :: rest) = true) :
    low < w ∧ (∀ q ∈ before, q.1 < w) ∧ pointsRise w rest = true := by
  induction before generalizing low with
  | nil => simpa [pointsRise] using h
  | cons q before ih =>
    simp only [List.cons_append, pointsRise, Bool.and_eq_true, decide_eq_true_eq] at h
    obtain ⟨hq, hbefore, hrest⟩ := ih h.2
    exact ⟨h.1.trans hq, by simpa [hq] using hbefore, hrest⟩

/-! ### The correction (R22) -/

/-- Above a later point the correction is the one from that point. -/
theorem correctionFrom_above {w e v c raw : Int} {before rest : List (Int × Int)} (hb : ∀ q ∈ before, q.1 < raw)
    (hv : v < raw) : correctionFrom w e (before ++ (v, c) :: rest) raw = correctionFrom v c rest raw := by
  induction before generalizing w e with
  | nil => simp [correctionFrom, not_le_of_gt hv]
  | cons q before ih =>
    obtain ⟨hq, hbefore⟩ := List.forall_mem_cons.1 hb
    simp [correctionFrom, not_le_of_gt hq, ih hbefore]

/-- Above a point the correction is the one from that point. -/
theorem correction_above {w e raw : Int} {before rest : List (Int × Int)}
    (h : pointsRise 0 (before ++ (w, e) :: rest) = true) (hw : w < raw) :
    correction (before ++ (w, e) :: rest) raw = correctionFrom w e rest raw := by
  obtain ⟨hpos, hbefore, -⟩ := pointsRise_append h
  have hraw : ¬raw ≤ 0 := by omega
  cases before with
  | nil => simp [correction, hraw, not_le_of_gt hw]
  | cons q before =>
    obtain ⟨hq, hbefore⟩ := List.forall_mem_cons.1 hbefore
    simp only [List.cons_append, correction, hraw, not_le_of_gt (hq.trans hw), if_false]
    exact correctionFrom_above (fun p hp => (hbefore p hp).trans hw) hw

/-- Up to the first point. -/
theorem correction_first {w e raw : Int} {rest : List (Int × Int)} (h0 : 0 < raw) (hw : raw ≤ w) :
    correction ((w, e) :: rest) raw = roundDiv (e * raw) w := by
  simp [correction, not_le_of_gt h0, hw]

/-- Between neighbouring points. -/
theorem correction_between {w e v c raw : Int} {before rest : List (Int × Int)}
    (h : pointsRise 0 (before ++ (w, e) :: (v, c) :: rest) = true) (hw : w < raw) (hv : raw ≤ v) :
    correction (before ++ (w, e) :: (v, c) :: rest) raw = e + roundDiv ((c - e) * (raw - w)) (v - w) := by
  rw [correction_above h hw, correctionFrom, if_pos hv]

/-- At a point the correction is the point's own: the interval that ends there has an exact quotient. -/
theorem correction_at {w e : Int} {before rest : List (Int × Int)}
    (h : pointsRise 0 (before ++ (w, e) :: rest) = true) : correction (before ++ (w, e) :: rest) w = e := by
  obtain ⟨hpos, hbelow, -⟩ := pointsRise_append h
  rcases List.eq_nil_or_concat before with rfl | ⟨earlier, ⟨v, c⟩, rfl⟩
  · rw [List.nil_append, correction_first hpos le_rfl, roundDiv_mul_self _ hpos]
  · have hv : v < w := hbelow (v, c) (by simp)
    simp only [List.concat_eq_append, List.append_assoc, List.singleton_append] at h ⊢
    rw [correction_between h hv le_rfl, roundDiv_mul_self _ (by omega)]
    omega

/-- An interpolated correction lies within bounds of the corrections at the two ends. -/
theorem interpolated_within {lo hi a b x y : Int} (ha : lo ≤ a ∧ a ≤ hi) (hb : lo ≤ b ∧ b ≤ hi) (hx : 0 ≤ x)
    (hxy : x ≤ y) (hy : 0 < y) : lo ≤ a + roundDiv ((b - a) * x) y ∧ a + roundDiv ((b - a) * x) y ≤ hi := by
  have hlow : lo - a ≤ roundDiv ((b - a) * x) y := le_roundDiv hy <| calc
    (lo - a) * y ≤ (lo - a) * x := mul_le_mul_of_nonpos_left hxy (by omega)
    _ ≤ (b - a) * x := mul_le_mul_of_nonneg_right (by omega) hx
  have hhigh : roundDiv ((b - a) * x) y ≤ hi - a := roundDiv_le hy <| calc
    (b - a) * x ≤ (hi - a) * x := mul_le_mul_of_nonneg_right (by omega) hx
    _ ≤ (hi - a) * y := mul_le_mul_of_nonneg_left hxy (by omega)
  omega

theorem correctionFrom_within {lo hi w e raw : Int} {rest : List (Int × Int)} (he : lo ≤ e ∧ e ≤ hi)
    (hr : ∀ q ∈ rest, lo ≤ q.2 ∧ q.2 ≤ hi) (hw : w < raw) :
    lo ≤ correctionFrom w e rest raw ∧ correctionFrom w e rest raw ≤ hi := by
  induction rest generalizing w e with
  | nil => exact he
  | cons q rest ih =>
    obtain ⟨hq, hrest⟩ := List.forall_mem_cons.1 hr
    unfold correctionFrom
    split
    · exact interpolated_within he hq (by omega) (by omega) (by omega)
    · exact ih hq hrest (by omega)

/-- The correction lies within the corrections of the points and 0. -/
theorem correction_within {lo hi : Int} {points : List (Int × Int)} (raw : Int) (h0 : lo ≤ 0 ∧ 0 ≤ hi)
    (h : ∀ q ∈ points, lo ≤ q.2 ∧ q.2 ≤ hi) : lo ≤ correction points raw ∧ correction points raw ≤ hi := by
  unfold correction
  split
  · exact h0
  · next w e rest =>
    obtain ⟨he, hrest⟩ := List.forall_mem_cons.1 h
    split
    · exact h0
    · split
      · simpa using interpolated_within h0 he (x := raw) (y := w) (by omega) (by omega) (by omega)
      · exact correctionFrom_within he hrest (by omega)

/-! ### The filter (R24) -/

/-- The last values of a list are the first of the list turned round. -/
theorem lastN_sum (n : Nat) (l : List Int) : (lastN n l).sum = (l.reverse.take n).sum := by
  rw [lastN, List.take_reverse, List.sum_reverse]

/-- A history of fewer than 16 takes the value at its end. -/
theorem appendHistory_of_lt {h : List Int} (v : Int) (hl : h.length < 16) : appendHistory h v = h ++ [v] := by
  have hdrop : (h ++ [v]).length - 16 = 0 := by simp; omega
  rw [appendHistory, lastN, hdrop, List.drop_zero]

/-- One of 16 loses its oldest value. -/
theorem appendHistory_full {h : List Int} (v : Int) (hl : h.length = 16) : appendHistory h v = h.tail ++ [v] := by
  have hdrop : (h ++ [v]).length - 16 = 1 := by simp [hl]
  have hne : h ≠ [] := by rintro rfl; simp at hl
  rw [appendHistory, lastN, hdrop, List.drop_one, List.tail_append_of_ne_nil hne]

theorem appendHistory_length (h : List Int) (v : Int) : (appendHistory h v).length = min (h.length + 1) 16 := by
  simp only [appendHistory, lastN, List.length_drop, List.length_append, List.length_singleton]
  omega

/-- Settles O21: each case of R22's table is one of the lemmas above, as is each case of the history. -/
theorem correctionFollowsThePoints : Obligations.CorrectionFollowsThePoints := by
  refine ⟨fun t d raw h => ?_,
    fun t h v _ _ => ⟨appendHistory_of_lt v, appendHistory_full v, appendHistory_length h v, ?_⟩,
    fun points h => ⟨fun raw hraw => ?_, ?_, ?_, fun w e raw hlast hw => ?_, fun w e hmem => ?_,
      fun lo hi raw hlo hhi hq => correction_within raw ⟨hlo, hhi⟩ hq⟩⟩
  · simp [linearize, h]
  · rw [filtered, filterCount, lastN_sum]
  · cases points with
    | nil => rfl
    | cons q rest => simpa [correction] using fun hpos : 0 < raw => absurd hpos (by simpa using hraw)
  · rintro w e rest raw rfl h0 hw
    exact correction_first h0 hw
  · rintro before w e v c rest raw rfl hw hv
    exact correction_between h hw hv
  · obtain ⟨before, rfl⟩ := List.getLast?_eq_some_iff.1 hlast
    exact correction_above h hw
  · obtain ⟨before, rest, rfl⟩ := List.append_of_mem hmem
    exact correction_at h

end Sys2Proof.Machine
end

