-- ==== Sys2Proof/Proofs/RoundValues.lean ====
section
/-! The values of a round (R18 to R31): each deck by the reason of its validity, the grosses and their sum, the rounded
weights (R29) and the range verdicts. -/

namespace Sys2Proof.Machine

/-! ### Numbered lists and tables of a list of keys -/

/-- The values of the keys 1 to n, numbered. -/
theorem numbered_keys {α : Type} (n : Nat) (f : Nat → α) :
    numbered (((List.range n).map (· + 1)).map f) = ((List.range n).map (· + 1)).map (fun d => (d, f d)) := by
  have hlen : (((List.range n).map (· + 1)).map f).length = n := by simp
  have hzip := List.zip_map' (f := fun d => d) (g := f) (l := (List.range n).map (· + 1))
  rw [List.map_id'] at hzip
  rw [numbered, hlen, hzip]

/-- A table that lists the keys of a list with what a function gives them, where that is not empty. -/
theorem Table.get?_keys {α : Type} (f : Nat → List α) (keys : List Nat) (k : Nat) :
    Table.get? ((keys.map (fun d => (d, f d))).filter (fun e => !e.2.isEmpty)) k =
      if k ∈ keys ∧ f k ≠ [] then some (f k) else none := by
  induction keys with
  | nil => simp
  | cons d keys ih =>
    rw [List.map_cons, List.filter_cons]
    by_cases hd : d = k
    · subst hd
      cases hf : f d with
      | nil => simp [ih, hf]
      | cons a l => simp [Table.get?]
    · have hk : k ≠ d := Ne.symm hd
      split <;> simp [Table.get?, ih, hd, hk]

/-! ### The decks of a round -/

theorem CalTable.mem_deckList {t : CalTable} {d : Nat} : d ∈ t.deckList ↔ 1 ≤ d ∧ d ≤ t.decks := by
  simp only [CalTable.deckList, List.mem_map, List.mem_range]
  constructor
  · rintro ⟨n, hn, rfl⟩
    omega
  · exact fun ⟨h1, h2⟩ => ⟨d - 1, by omega, by omega⟩

theorem State.computeRound_decks (s : State) :
    s.computeRound.decks = s.bus.table.deckList.map (fun d => (s.deckRound s.bus.table d).1) := rfl

/-- The numbered decks of a round are those of its table with their values. -/
theorem State.mem_numbered_computeRound {s : State} {d : Nat} {x : DeckValues}
    (h : (d, x) ∈ numbered s.computeRound.decks) :
    d ∈ s.bus.table.deckList ∧ x = (s.deckRound s.bus.table d).1 := by
  rw [State.computeRound_decks, CalTable.deckList, numbered_keys, ← CalTable.deckList] at h
  obtain ⟨n, hn, heq⟩ := List.mem_map.1 h
  cases heq
  exact ⟨hn, rfl⟩

/-- The history that a deck of the table keeps after a round, none where it is empty. -/
theorem State.newHistories_get? (s : State) (d : Nat) :
    Table.get? s.newHistories d =
      if d ∈ s.bus.table.deckList ∧ (s.deckRound s.bus.table d).2 ≠ [] then some (s.deckRound s.bus.table d).2
      else none :=
  Table.get?_keys (fun d => (s.deckRound s.bus.table d).2) _ d

/-- R24: a deck beyond D keeps none. -/
theorem State.newHistories_beyond {s : State} {d : Nat} (h : s.bus.table.decks < d) :
    Table.get? s.newHistories d = none := by
  rw [State.newHistories_get?, if_neg (fun hd => absurd (CalTable.mem_deckList.1 hd.1).2 (by omega))]

/-- An invalid deck keeps none. -/
theorem State.newHistories_of_nil {s : State} {d : Nat} (h : (s.deckRound s.bus.table d).2 = []) :
    Table.get? s.newHistories d = none := by
  rw [State.newHistories_get?, if_neg (fun hd => hd.2 h)]

theorem State.newHistories_of_ne_nil {s : State} {d : Nat} (hd : d ∈ s.bus.table.deckList)
    (h : (s.deckRound s.bus.table d).2 ≠ []) :
    Table.get? s.newHistories d = some (s.deckRound s.bus.table d).2 := by
  rw [State.newHistories_get?, if_pos ⟨hd, h⟩]

/-! ### A deck of a round -/

section
variable (s : State) (t : CalTable) (d : Nat)

/-- The values of a deck that is invalid for a reason, with the raw sum that it keeps. -/
def State.invalidDeck (why : DeckValidity) (raw : Option Int) : DeckValues :=
  { validity := why, linearizationDisabled := !t.pointsInOrder d, raw := raw, linearized := none, filtered := none,
    filterCount := none, zeroUsed := s.zeroFor t d, gross := none, rounded := none, range := none }

/-- The history of a valid deck with the linearized value of the round. -/
def State.deckHistory (raw : Int) : List Int :=
  appendHistory (historyKept t s.weigh.roundTable d ((Table.get? s.weigh.histories d).getD [])) (linearize t d raw)

/-- The values of a valid deck. -/
def State.validDeck (raw : Int) : DeckValues :=
  let h := s.deckHistory t d raw
  let g := filtered t h - s.zeroFor t d
  { validity := .valid, linearizationDisabled := !t.pointsInOrder d, raw := some raw
    linearized := some (linearize t d raw), filtered := some (filtered t h), filterCount := some (filterCount t h)
    zeroUsed := s.zeroFor t d, gross := some g, rounded := some (roundedKg t g)
    range := some (rangeVerdict t (t.deckMax d) g) }

end

section
variable {s : State} {t : CalTable} {d : Nat}

theorem State.deckRound_noCells (h : t.cellsOf d = []) : s.deckRound t d = (s.invalidDeck t d .noCells none, []) := by
  simp [State.deckRound, State.invalidDeck, h]

/-- R9: a deck with cells is cell-valid exactly where all of them are ONLINE. -/
theorem deckCellValid_iff {b : Bus} (h : t.cellsOf d ≠ []) :
    deckCellValid t b d = true ↔ ∀ i ∈ t.cellsOf d, (b.record i).condition = some .online := by
  simp [deckCellValid, h]

theorem State.deckRound_cell (h : t.cellsOf d ≠ []) (hv : deckCellValid t s.bus d = false) :
    s.deckRound t d = (s.invalidDeck t d .cell none, []) := by
  simp [State.deckRound, State.invalidDeck, h, hv]

theorem State.deckRound_grossRange (h : t.cellsOf d ≠ []) (hv : deckCellValid t s.bus d = true)
    (hr : grossRangeOk t d (deckRawSum t s.bus (t.cellsOf d)) = false) :
    s.deckRound t d = (s.invalidDeck t d .grossRange (some (deckRawSum t s.bus (t.cellsOf d))), []) := by
  simp [State.deckRound, State.invalidDeck, h, hv, hr]

theorem State.deckRound_valid (h : t.cellsOf d ≠ []) (hv : deckCellValid t s.bus d = true)
    (hr : grossRangeOk t d (deckRawSum t s.bus (t.cellsOf d)) = true) :
    s.deckRound t d =
      (s.validDeck t d (deckRawSum t s.bus (t.cellsOf d)), s.deckHistory t d (deckRawSum t s.bus (t.cellsOf d))) := by
  simp [State.deckRound, State.validDeck, State.deckHistory, h, hv, hr]

/-- A deck of a round is invalid for one of three reasons, or valid. -/
theorem State.deckRound_cases (s : State) (t : CalTable) (d : Nat) :
    (∃ why raw, s.deckRound t d = (s.invalidDeck t d why raw, [])) ∨
      ∃ raw, s.deckRound t d = (s.validDeck t d raw, s.deckHistory t d raw) := by
  by_cases h : t.cellsOf d = []
  · exact .inl ⟨_, _, State.deckRound_noCells h⟩
  · cases hv : deckCellValid t s.bus d with
    | false => exact .inl ⟨_, _, State.deckRound_cell h hv⟩
    | true =>
      cases hr : grossRangeOk t d (deckRawSum t s.bus (t.cellsOf d)) with
      | false => exact .inl ⟨_, _, State.deckRound_grossRange h hv hr⟩
      | true => exact .inr ⟨_, State.deckRound_valid h hv hr⟩

/-- Whether a deck has its linearization disabled and which zero it uses do not depend on its validity. -/
theorem State.deckRound_always (s : State) (t : CalTable) (d : Nat) :
    (s.deckRound t d).1.linearizationDisabled = !t.pointsInOrder d ∧ (s.deckRound t d).1.zeroUsed = s.zeroFor t d := by
  rcases s.deckRound_cases t d with ⟨why, raw, h⟩ | ⟨raw, h⟩ <;> rw [h] <;> exact ⟨rfl, rfl⟩

/-- R28: a deck has a rounded weight exactly where it has a gross, of which it is the rounding. -/
theorem State.deckRound_rounded (s : State) (t : CalTable) (d : Nat) :
    (s.deckRound t d).1.rounded = (s.deckRound t d).1.gross.map (roundedKg t) := by
  rcases s.deckRound_cases t d with ⟨why, raw, h⟩ | ⟨raw, h⟩ <;> rw [h] <;> rfl

/-- The history of a valid deck holds its linearized value. -/
theorem State.deckHistory_ne_nil (s : State) (t : CalTable) (d : Nat) (raw : Int) : s.deckHistory t d raw ≠ [] := by
  have hlen := appendHistory_length (historyKept t s.weigh.roundTable d ((Table.get? s.weigh.histories d).getD []))
    (linearize t d raw)
  intro h
  rw [State.deckHistory] at h
  rw [h, List.length_nil] at hlen
  omega

/-- R25: the history goes on where the deck has the cells that it had in the previous round. -/
theorem State.deckHistory_same (raw : Int)
    (h : d ≤ s.weigh.roundTable.decks ∧ t.cellsOf d = s.weigh.roundTable.cellsOf d) :
    s.deckHistory t d raw = appendHistory ((Table.get? s.weigh.histories d).getD []) (linearize t d raw) := by
  rw [State.deckHistory, historyKept, if_pos h.symm]

/-- R25: it begins anew where the deck has others. -/
theorem State.deckHistory_new (raw : Int)
    (h : ¬(d ≤ s.weigh.roundTable.decks ∧ t.cellsOf d = s.weigh.roundTable.cellsOf d)) :
    s.deckHistory t d raw = [linearize t d raw] := by
  rw [State.deckHistory, historyKept, if_neg (fun hk => h hk.symm), appendHistory_of_lt _ (by simp), List.nil_append]

end

/-! ### Range verdicts (R21, R30) -/

theorem grossRangeOk_iff {t : CalTable} {d : Nat} {raw : Int} :
    grossRangeOk t d raw = true ↔ ¬4 * t.deckMax d * 1000 < |raw| := by
  rw [grossRangeOk, decide_eq_true_eq, Int.abs_eq_natAbs, not_lt]

/-- R30: the three verdicts of a gross exclude each other. -/
theorem rangeVerdict_iff (t : CalTable) (most gross : Int) :
    (rangeVerdict t most gross = .overload ↔ (most + 9 * t.e) * 1000 < gross) ∧
    (rangeVerdict t most gross = .underload ↔
      ¬(most + 9 * t.e) * 1000 < gross ∧ gross < -(20 * t.e * 1000)) ∧
    (rangeVerdict t most gross = .normal ↔
      ¬(most + 9 * t.e) * 1000 < gross ∧ ¬gross < -(20 * t.e * 1000)) := by
  unfold rangeVerdict
  split
  · simp [*]
  · split <;> simp [*]

/-- R30: the verdict of a round from those of its decks and of the bridge. -/
theorem roundRange_iff (vs : List RangeVerdict) :
    (roundRange vs = .overload ↔ .overload ∈ vs) ∧
    (roundRange vs = .underload ↔ .overload ∉ vs ∧ .underload ∈ vs) ∧
    (roundRange vs = .normal ↔ .overload ∉ vs ∧ .underload ∉ vs) := by
  simp only [roundRange, List.contains_iff_mem]
  split
  · simp [*]
  · split <;> simp [*]

/-! ### The bridge gross (R27) -/

/-- Where every deck has a gross the bridge gross is their sum. -/
theorem bridgeGross_sum {decks : List DeckValues} {g : Int} (h : bridgeGross decks = some g) :
    g = (decks.map (fun d => d.gross.getD 0)).sum := by
  induction decks generalizing g with
  | nil => simpa [bridgeGross] using h.symm
  | cons d rest ih =>
    simp only [bridgeGross] at h
    split at h
    · next a b ha hb =>
      cases h
      simp [ha, ih hb]
    · cases h

section
variable {s : State}

theorem State.computeRound_gross (s : State) : s.computeRound.gross = bridgeGross s.computeRound.decks := rfl

theorem State.computeRound_rounded (s : State) :
    s.computeRound.rounded = s.computeRound.gross.map (roundedKg s.bus.table) := rfl

theorem State.computeRound_bridgeRange (s : State) :
    s.computeRound.bridgeRange = s.computeRound.gross.map (rangeVerdict s.bus.table s.bus.table.bridgeMax) := rfl

theorem State.computeRound_valid_iff_gross (s : State) : s.computeRound.valid = s.computeRound.gross.isSome := rfl

theorem State.mem_roundRange (s : State) (w : RangeVerdict) :
    w ∈ s.computeRound.decks.filterMap (·.range) ++ s.computeRound.bridgeRange.toList ↔
      s.computeRound.bridgeRange = some w ∨ ∃ x ∈ s.computeRound.decks, x.range = some w := by
  simp only [List.mem_append, List.mem_filterMap, Option.mem_toList]
  exact or_comm

/-- Every deck of a round has the rounding of its gross as its rounded weight. -/
theorem State.computeRound_deck_rounded {x : DeckValues} (h : x ∈ s.computeRound.decks) :
    x.rounded = x.gross.map (roundedKg s.bus.table) := by
  obtain ⟨d, -, rfl⟩ := List.mem_map.1 h
  exact s.deckRound_rounded _ d

/-! ### The rounded weights (R29) -/

/-- The sum of rounded quotients lies within half a divisor for each of the sum of the numerators. -/
theorem sum_roundDiv_near {d : Int} (hd : 0 < d) (l : List Int) :
    2 * |l.sum - d * (l.map (fun g => roundDiv g d)).sum| ≤ l.length * d := by
  induction l with
  | nil => simp
  | cons g rest ih =>
    have hsplit : (g :: rest).sum - d * ((g :: rest).map (fun g => roundDiv g d)).sum =
        (g - d * roundDiv g d) + (rest.sum - d * (rest.map (fun g => roundDiv g d)).sum) := by
      simp only [List.sum_cons, List.map_cons]
      ring
    have hlen : (((g :: rest).length : Nat) : Int) * d = d + rest.length * d := by
      push_cast [List.length_cons]
      ring
    rw [hsplit, hlen]
    linarith [abs_add_le (g - d * roundDiv g d) (rest.sum - d * (rest.map (fun g => roundDiv g d)).sum),
      roundDiv_near g hd]

/-- R29 for grosses: their roundings to e add up to the rounding of their sum within e times half of one more than
their number. -/
theorem sum_roundedKg_near {t : CalTable} (he : 0 < t.e) (l : List Int) :
    |(l.map (roundedKg t)).sum - roundedKg t l.sum| ≤ t.e * (((l.length + 1) / 2 : Nat) : Int) := by
  have hd : 0 < 1000 * t.e := by omega
  have hsum : (l.map (roundedKg t)).sum = t.e * (l.map (fun g => roundDiv g (1000 * t.e))).sum := by
    rw [← List.sum_map_mul_left]
    rfl
  have hdecks := sum_roundDiv_near hd l
  have hbridge := roundDiv_near l.sum hd
  rw [hsum, roundedKg, ← mul_sub, abs_mul, abs_of_pos he]
  generalize (l.map (fun g => roundDiv g (1000 * t.e))).sum = a at hdecks ⊢
  generalize roundDiv l.sum (1000 * t.e) = b at hbridge ⊢
  refine mul_le_mul_of_nonneg_left ?_ he.le
  have hdiff : 1000 * t.e * (2 * |a - b|) ≤ 1000 * t.e * (l.length + 1) := by
    have hmul : 1000 * t.e * |a - b| = |(l.sum - 1000 * t.e * b) - (l.sum - 1000 * t.e * a)| := by
      rw [show (l.sum - 1000 * t.e * b) - (l.sum - 1000 * t.e * a) = 1000 * t.e * (a - b) by ring, abs_mul,
        abs_of_pos hd]
    linarith [abs_sub (l.sum - 1000 * t.e * b) (l.sum - 1000 * t.e * a)]
  have hlen := le_of_mul_le_mul_left hdiff hd
  omega

/-- Settles O22: every deck has a gross, and the rounded weights are the roundings of the grosses and of their sum. -/
theorem roundedDecksStayNearTheRoundedBridge : Obligations.RoundedDecksStayNearTheRoundedBridge := by
  intro s w he hw
  rw [State.computeRound_rounded] at hw
  obtain ⟨g, hg, rfl⟩ := Option.map_eq_some_iff.1 hw
  have hall : ∀ x ∈ s.computeRound.decks, x.gross.isSome = true := by
    rw [← State.computeRound_valid, State.computeRound_valid_iff_gross, hg]
    rfl
  have hrounded : ∀ x ∈ s.computeRound.decks, x.rounded = some (roundedKg s.bus.table (x.gross.getD 0)) := by
    intro x hx
    obtain ⟨a, ha⟩ := Option.isSome_iff_exists.1 (hall x hx)
    rw [State.computeRound_deck_rounded hx, ha]
    rfl
  refine ⟨fun x hx => by rw [hrounded x hx]; rfl, ?_⟩
  have hsum : s.computeRound.decks.map (fun x => x.rounded.getD 0) =
      (s.computeRound.decks.map (fun x => x.gross.getD 0)).map (roundedKg s.bus.table) := by
    rw [List.map_map]
    refine List.map_congr_left fun x hx => ?_
    rw [hrounded x hx]
    rfl
  have hnear := sum_roundedKg_near he (s.computeRound.decks.map (fun x => x.gross.getD 0))
  rwa [List.length_map, State.computeRound_decks_length, ← hsum,
    ← bridgeGross_sum (s.computeRound_gross.symm.trans hg)] at hnear

/-- Settles O23: each deck by the case of `State.deckRound` that its cells and its raw sum come to; the bridge by
whether every deck has a gross. -/
theorem validRoundSumsItsDeckGrosses : Obligations.ValidRoundSumsItsDeckGrosses := by
  intro s t v above below
  refine ⟨rfl, rfl, s.computeRound_decks_length, fun d x hx => ?_, fun d hd => State.newHistories_beyond hd, ?_,
    fun hv => ?_, fun hv => ?_, ?_⟩
  · obtain ⟨hd, rfl⟩ := State.mem_numbered_computeRound hx
    intro cells counted raw beyond before same withdrawn
    obtain ⟨hdisabled, hzero⟩ := s.deckRound_always t d
    refine ⟨hdisabled, hzero, fun h => ?_, fun h hc => ?_, fun h hc hb => ?_, fun h hc hb => ?_⟩
    · have hround := State.deckRound_noCells (s := s) h
      exact ⟨by rw [hround]; rfl, State.newHistories_of_nil (by rw [hround])⟩
    · have hround := State.deckRound_cell (s := s) h (Bool.eq_false_iff.2 fun hall => hc ((deckCellValid_iff h).1 hall))
      exact ⟨by rw [hround]; rfl, State.newHistories_of_nil (by rw [hround])⟩
    · have hround := State.deckRound_grossRange h ((deckCellValid_iff h).2 hc)
        (Bool.eq_false_iff.2 fun hok => grossRangeOk_iff.1 hok hb)
      exact ⟨by rw [hround]; rfl, State.newHistories_of_nil (by rw [hround])⟩
    · have hround := State.deckRound_valid h ((deckCellValid_iff h).2 hc) (grossRangeOk_iff.2 hb)
      have hkept : Table.get? s.newHistories d = some (s.deckHistory t d raw) := by
        rw [State.newHistories_of_ne_nil hd (by rw [hround]; exact s.deckHistory_ne_nil t d _), hround]
        rfl
      refine ⟨_, hkept, State.deckHistory_same raw, State.deckHistory_new raw, _, rfl, ?_⟩
      obtain ⟨hover, hunder, hnormal⟩ :=
        rangeVerdict_iff t (t.deckMax d) (filtered t (s.deckHistory t d raw) - s.zeroFor t d)
      rw [hround]
      exact ⟨rfl, rfl, rfl, rfl, rfl, rfl, rfl, (Option.some_inj).trans hover, (Option.some_inj).trans hunder,
        (Option.some_inj).trans hnormal⟩
  · rw [s.computeRound_valid]
    exact forall₂_congr fun x _ => Option.isSome_iff_ne_none
  · have hgross : s.computeRound.gross = none := by
      simpa [v, s.computeRound_valid_iff_gross] using hv
    exact ⟨hgross, by rw [State.computeRound_rounded, hgross]; rfl,
      by rw [State.computeRound_bridgeRange, hgross]; rfl⟩
  · obtain ⟨g, hg⟩ := Option.isSome_iff_exists.1 (s.computeRound_valid_iff_gross.symm.trans hv)
    obtain ⟨hover, hunder, hnormal⟩ := rangeVerdict_iff t t.bridgeMax g
    have hrange : v.bridgeRange = some (rangeVerdict t t.bridgeMax g) := by
      rw [State.computeRound_bridgeRange, hg]
      rfl
    rw [hrange]
    exact ⟨g, hg, bridgeGross_sum hg, by rw [State.computeRound_rounded, hg]; rfl, (Option.some_inj).trans hover,
      (Option.some_inj).trans hunder, (Option.some_inj).trans hnormal⟩
  · have hany := s.mem_roundRange
    obtain ⟨hover, hunder, hnormal⟩ :=
      roundRange_iff (s.computeRound.decks.filterMap (·.range) ++ s.computeRound.bridgeRange.toList)
    rw [hany, hany] at hunder hnormal
    rw [hany] at hover
    exact ⟨hover, hunder, hnormal⟩

end

end Sys2Proof.Machine
end

