-- ==== Sys2Proof/Proofs/QuietRound.lean ====
section
/-! A round that ends with no fault condition to change (R9, R10, R31, R32): what it leaves of the weighing (R38, R41)
before the blocks take it, and what the events after them leave (R166, R180, R2). -/

namespace Sys2Proof.Machine

/-! ### Nothing to report (R10, R11) -/

theorem foldl_eq_self {α β : Type} {f : α → β → α} {a : α} {l : List β} (h : ∀ b ∈ l, f a b = a) :
    l.foldl f a = a := by
  induction l with
  | nil => rfl
  | cons b l ih =>
    obtain ⟨hb, hl⟩ := List.forall_mem_cons.1 h
    rw [List.foldl_cons, hb, ih hl]

/-- A report of what already stands changes nothing. -/
theorem State.reportFault_same {s : State} {k : FaultKey} {present : Bool}
    (h : (s.faultEntry k).present = present) : s.reportFault k present = s := by
  cases present with
  | false => exact State.clearFault_of_absent h
  | true => simp [State.reportFault, h]

/-- Nor does the report of a cell whose conditions stand as its condition makes them. -/
theorem State.reportCell_same {s : State} {i : Nat} {c : Option CellCondition}
    (h : ∀ f ∈ cellClasses, (s.faultEntry (cellKey f i)).present = (cellFaults c).contains f) :
    s.reportCell i c = s := by
  have hpresent : ∀ f ∈ cellFaults c, s.reportFault (cellKey f i) true = s := by
    intro f hf
    have hclass : f ∈ cellClasses := by
      rcases cellFaults_form c with hnone | ⟨g, hg, hone⟩
      · rw [hnone] at hf
        cases hf
      · rw [hone, List.mem_singleton] at hf
        rwa [hf]
    exact State.reportFault_same ((h f hclass).trans (List.contains_iff_mem.2 hf))
  have habsent : ∀ f ∈ cellClasses.filter (fun f => !(cellFaults c).contains f),
      s.reportFault (cellKey f i) false = s := by
    intro f hf
    obtain ⟨hclass, hnot⟩ := List.mem_filter.1 hf
    exact State.reportFault_same ((h f hclass).trans (by simpa using hnot))
  have haway := foldl_eq_self (f := fun acc f => State.reportFault acc (cellKey f i) false) habsent
  unfold State.reportCell
  rw [cellClasses] at haway
  simp only [haway]
  exact foldl_eq_self hpresent

/-- What `State.reportsNothing` says. -/
theorem State.reportsNothing_iff {s : State} {i : Nat} {reply : Option CellReply} :
    s.reportsNothing i reply = true ↔
      (∀ f ∈ cellClasses, (s.faultEntry (cellKey f i)).present =
        (cellFaults ((s.bus.record i).judged (s.bus.table.serial i) reply).condition).contains f) ∧
      (s.bus.overrun = true ∨ (s.faultEntry overrunKey).present = false) := by
  simp only [State.reportsNothing, Bool.and_eq_true, List.all_eq_true, beq_iff_eq, Bool.or_eq_true,
    Bool.not_eq_true']
  rfl

/-- The last poll of such a round changes its record alone. -/
theorem State.lastJudged_quiet {s : State} {i : Nat} {reply : Option CellReply} (hs : s.settled = true)
    (hn : s.commitNote = none) (h : s.reportsNothing i reply = true) : s.lastJudged i reply = s.polled i reply := by
  have hjudge : s.judge i reply = s.polled i reply :=
    State.reportCell_same (s := s.polled i reply) (State.reportsNothing_iff.1 h).1
  rw [State.lastJudged, hjudge]
  exact event_withRound hs hn _ s.bus s.weigh s.weigh

/-- The end of such a round changes the bus alone. -/
theorem State.endRound_quiet {s : State} (h : s.bus.overrun = true ∨ (s.faultEntry overrunKey).present = false) :
    s.endRound = { s with bus := s.endRound.bus } := by
  rcases h with h | h
  · unfold State.endRound
    simp only [h, if_true]
  · exact State.endRound_bus_only h

theorem State.endRound_computeRound (s : State) : s.endRound.computeRound = s.computeRound := by
  have hb := s.endRound_bus
  refine State.computeRound_congr ?_ ?_ ?_ ?_ ?_ <;> simp [hb]

/-! ### The start-up zero (R40, R41) -/

theorem mem_numbered {α : Type} {l : List α} {d : Nat} {x : α} (h : (d, x) ∈ numbered l) : l[d - 1]? = some x := by
  obtain ⟨n, hn⟩ := List.mem_iff_getElem?.1 h
  obtain ⟨hkey, hval⟩ := List.getElem?_zip_eq_some.1 hn
  obtain ⟨m, hm, hd⟩ := List.mem_map.1 (List.mem_of_getElem? hkey)
  rw [List.getElem?_map, List.getElem?_range (by simpa using (List.getElem?_eq_some_iff.1 hval).1)] at hkey
  obtain rfl : n + 1 = d := by simpa using hkey
  simpa using hval

theorem mem_filteredDecks {decks : List DeckValues} {d : Nat} {f : Int} :
    (d, f) ∈ filteredDecks decks ↔ ∃ v, (d, v) ∈ numbered decks ∧ v.filtered = some f := by
  simp only [filteredDecks, List.mem_filterMap, Option.map_eq_some_iff, Prod.mk.injEq, Prod.exists]
  constructor
  · rintro ⟨d', v, hv, f', hf, rfl, rfl⟩
    exact ⟨v, hv, hf⟩
  · rintro ⟨v, hv, hf⟩
    exact ⟨d, v, hv, f, hf, rfl, rfl⟩

/-- A zero offset reads as set where every setting of its deck is to one value. -/
theorem putZeros_get? {z : Table Int} {news : List (Nat × Int)} {d : Nat} {f : Int}
    (hset : (d, f) ∈ news ∨ Table.get? z d = some f) (hone : ∀ g, (d, g) ∈ news → g = f) :
    Table.get? (putZeros z news) d = some f := by
  induction news generalizing z with
  | nil => simpa [putZeros] using hset
  | cons e news ih =>
    obtain ⟨k, a⟩ := e
    refine ih (z := Table.set z k a) ?_ (fun g hg => hone g (List.mem_cons_of_mem _ hg))
    by_cases hk : d = k
    · subst hk
      obtain rfl := hone a List.mem_cons_self
      exact .inr (by simp)
    · rw [Table.get?_set_other z a hk]
      refine hset.imp_left fun hmem => ?_
      rcases List.mem_cons.1 hmem with heq | hmem
      · exact absurd (congrArg Prod.fst heq) hk
      · exact hmem

/-- A setting of the filtered values of the decks of a round. -/
theorem putZeros_filteredDecks (z : Table Int) {decks : List DeckValues} {d : Nat} {v : DeckValues} {f : Int}
    (hv : (d, v) ∈ numbered decks) (hf : v.filtered = some f) :
    Table.get? (putZeros z (filteredDecks decks)) d = some f := by
  refine putZeros_get? (.inl (mem_filteredDecks.2 ⟨v, hv, hf⟩)) fun g hg => ?_
  obtain ⟨w, hw, hwg⟩ := mem_filteredDecks.1 hg
  obtain rfl : v = w := Option.some_inj.1 ((mem_numbered hv).symm.trans (mem_numbered hw))
  exact Option.some_inj.1 (hwg.symm.trans hf)

/-- R40: what a setting leaves of the weighing. -/
theorem State.setZeros_weigh (s : State) (decks : List DeckValues) (news : List (Nat × Int)) :
    (s.setZeros decks news).weigh =
        { s.weigh with zero := putZeros s.weigh.zero news, window := (s.setZeros decks news).weigh.window } ∧
      (s.setZeros decks news).weigh.window.length = s.weigh.window.length := by
  unfold State.setZeros
  simp only []
  split
  · next h => exact ⟨by rw [h], rfl⟩
  · simp

theorem State.startUpInRange_iff {s : State} {decks : List DeckValues} :
    s.startUpInRange decks = true ↔ ∀ d v, (d, v) ∈ numbered decks →
      ∃ f, v.filtered = some f ∧ |f - s.weigh.roundTable.zero0 d| ≤ s.weigh.roundTable.deckMax d * 100 := by
  simp only [State.startUpInRange, List.all_eq_true, Prod.forall]
  refine forall₃_congr fun d v _ => ?_
  cases v.filtered <;> simp

/-! ### The weighing of a round -/

/-- R41: the start-up zero takes a round: in ZERO_UNSET a stable round with every deck in its start-up range. -/
def State.zeroStarts (s : State) (r : RoundValues) : Prop :=
  s.weigh.zeroUnset = true ∧ (s.judgedOn r).weigh.stable = true ∧
    ∀ d v, (d, v) ∈ numbered r.decks →
      ∃ f, v.filtered = some f ∧ |f - s.bus.table.zero0 d| ≤ s.bus.table.deckMax d * 100

/-- What a round that ends in a state leaves of the weighing (R31, R38, R41). -/
structure State.Weighed (s : State) (r : RoundValues) (w : Weigh) : Prop where
  latest : w.latest = some r
  table : w.roundTable = s.bus.table
  stable : w.stable = (s.judgedOn r).weigh.stable
  started : s.zeroStarts r → w.zeroUnset = false ∧ w.window.length = (s.judgedOn r).weigh.window.length ∧
    ∀ d v f, (d, v) ∈ numbered r.decks → v.filtered = some f →
      Table.get? w.zero d = some f ∧ Table.get? w.startZero d = some f
  kept : ¬s.zeroStarts r → w.zeroUnset = s.weigh.zeroUnset ∧ w.zero = s.weigh.zero ∧
    w.startZero = s.weigh.startZero ∧ w.window = (s.judgedOn r).weigh.window

/-- R38: the judgement of the round, whatever the histories. -/
theorem State.judgeStability_of_round (s : State) (r : RoundValues) (bus : Bus) (histories : Table (List Int)) :
    (show State from { s with
        bus := bus
        weigh := { s.weigh with latest := some r, histories := histories, roundTable := s.bus.table
                                rounds := s.weigh.rounds + 1 } }).judgeStability =
      { s with bus := bus, weigh := { (s.judgedOn r).weigh with histories := histories } } := by
  unfold State.judgedOn State.judgeStability
  cases hg : r.gross <;> simp [hg]

/-- The judgement leaves the latest round, its table and the zeros. -/
theorem State.judgedOn_weigh (s : State) (r : RoundValues) :
    (s.judgedOn r).weigh.latest = some r ∧ (s.judgedOn r).weigh.roundTable = s.bus.table ∧
      (s.judgedOn r).weigh.zeroUnset = s.weigh.zeroUnset ∧ (s.judgedOn r).weigh.zero = s.weigh.zero ∧
      (s.judgedOn r).weigh.startZero = s.weigh.startZero := by
  unfold State.judgedOn State.judgeStability
  cases hg : r.gross <;> simp [hg]

/-- R41: the start-up zero of the judged round. -/
theorem State.tryStartUpZero_of_round (s : State) (r : RoundValues) (bus : Bus) (histories : Table (List Int)) :
    ∃ w, s.Weighed r w ∧
      (show State from
          { s with bus := bus, weigh := { (s.judgedOn r).weigh with histories := histories } }).tryStartUpZero
        = { s with bus := bus, weigh := w } := by
  obtain ⟨hlatest, htable, hunset, hzero, hstart⟩ := s.judgedOn_weigh r
  generalize hu : (show State from
    { s with bus := bus, weigh := { (s.judgedOn r).weigh with histories := histories } }) = u
  have hw : u.weigh = { (s.judgedOn r).weigh with histories := histories } := by rw [← hu]
  have htakes : (u.weigh.zeroUnset && u.weigh.stable && u.startUpInRange r.decks) = true ↔ s.zeroStarts r := by
    rw [Bool.and_eq_true, Bool.and_eq_true, State.startUpInRange_iff, hw, State.zeroStarts]
    simp only [hunset, htable, and_assoc]
  have htry : u.tryStartUpZero =
      if (u.weigh.zeroUnset && u.weigh.stable && u.startUpInRange r.decks) = true then u.makeStartUpZero r.decks
      else u := by
    simp only [State.tryStartUpZero, show u.weigh.latest = some r by rw [hw]; exact hlatest]
  rw [htry]
  by_cases hz : s.zeroStarts r
  · rw [if_pos (htakes.2 hz)]
    obtain ⟨hset, hlen⟩ := u.setZeros_weigh r.decks (filteredDecks r.decks)
    have hmake : (u.makeStartUpZero r.decks).weigh =
        { (u.setZeros r.decks (filteredDecks r.decks)).weigh with
          startZero := putZeros u.weigh.startZero (filteredDecks r.decks), zeroUnset := false } := rfl
    refine ⟨(u.makeStartUpZero r.decks).weigh, ⟨?_, ?_, ?_, fun _ => ⟨rfl, ?_, fun d v f hv hf => ⟨?_, ?_⟩⟩,
      fun hnot => absurd hz hnot⟩, ?_⟩
    · rw [hmake, hset, hw]
      exact hlatest
    · rw [hmake, hset, hw]
      exact htable
    · rw [hmake, hset, hw]
    · rw [hmake]
      exact hlen.trans (by rw [hw])
    · rw [hmake, hset]
      exact putZeros_filteredDecks _ hv hf
    · rw [hmake]
      exact putZeros_filteredDecks _ hv hf
    · refine State.eq_iff_fields.2 ?_
      simp [← hu]
  · rw [if_neg fun htrue => hz (htakes.1 htrue)]
    exact ⟨u.weigh, ⟨by rw [hw]; exact hlatest, by rw [hw]; exact htable, by rw [hw], fun hyes => absurd hyes hz,
      fun _ => by rw [hw]; exact ⟨hunset, hzero, hstart, rfl⟩⟩, by rw [← hu]⟩

/-! ### The events after the blocks have taken the round (R166, R180) -/

/-- The blocks take a round, then the waiting test point and the Fault Unit. -/
def State.givenRound (u : State) (r : RoundValues) : State :=
  let t3 := u.blocksTakeRound r
  let t4 := event t3 (t3.pointTakesRound r)
  event t4 (t4.keepLastStable r)

/-- The end of a round that reports nothing comes to the blocks with the weighing of the round. -/
theorem State.roundDone_quiet_eq {s : State} {i : Nat} {reply : Option CellReply} (hs : s.settled = true)
    (hn : s.commitNote = none) (h : s.reportsNothing i reply = true) :
    ∃ bus w, s.Weighed (s.polled i reply).computeRound w ∧
      (s.polled i reply).roundDone =
        State.givenRound { s with bus := bus, weigh := w } (s.polled i reply).computeRound := by
  generalize hr : (s.polled i reply).computeRound = r
  have hend : (s.polled i reply).endRound = { s with bus := (s.polled i reply).endRound.bus } :=
    State.endRound_quiet (s := s.polled i reply) (State.reportsNothing_iff.1 h).2
  have hcompute := (s.polled i reply).endRound_computeRound.trans hr
  have htable : (s.polled i reply).endRound.bus.table = s.bus.table := by
    rw [State.endRound_bus]
    rfl
  have hweigh : (s.polled i reply).endRound.weighRound =
      { s with
        bus := (s.polled i reply).endRound.bus
        weigh := { s.weigh with latest := some r, histories := (s.polled i reply).endRound.newHistories
                                roundTable := s.bus.table, rounds := s.weigh.rounds + 1 } } := by
    rw [State.weighRound, hcompute, htable, hend]
  generalize (s.polled i reply).endRound.bus = bus at hweigh
  generalize (s.polled i reply).endRound.newHistories = histories at hweigh
  obtain ⟨w, hw, hzero⟩ := s.tryStartUpZero_of_round r bus histories
  refine ⟨bus, w, hw, ?_⟩
  have hevent : ∀ (b : Bus) (v v' : Weigh), event { s with bus := b, weigh := v' } { s with bus := bus, weigh := v } =
      { s with bus := bus, weigh := v } := fun b v v' => event_withRound hs hn bus b v v'
  have hpolled : s.polled i reply = { s with bus := (s.polled i reply).bus, weigh := s.weigh } := rfl
  rw [State.roundDone, hweigh, hpolled, hevent, State.issueRound_of_latest (r := r) rfl, State.judgeStability_of_round, hevent, State.roundTaken, hzero,
    hevent, State.givenRound]

/-- A waiting point that takes a round changes the run and its notices, and leaves the run ACTIVE. -/
theorem State.pointTakesRound_eq (s : State) (r : RoundValues) :
    s.pointTakesRound r =
        { s with run := (s.pointTakesRound r).run, outbox := (s.pointTakesRound r).outbox } ∧
      (s.pointTakesRound r).run.isSome = s.run.isSome := by
  unfold State.pointTakesRound
  split
  · exact ⟨rfl, rfl⟩
  · next run hrun =>
    split
    · exact ⟨rfl, rfl⟩
    · split
      · exact ⟨rfl, rfl⟩
      · split
        · exact ⟨State.eq_iff_fields.2 (by simp), State.endPoint_run _ _⟩
        · split
          · exact ⟨rfl, rfl⟩
          · exact ⟨State.eq_iff_fields.2 (by simp), by simp [State.recordPoint, hrun]⟩

/-- R166: as an event it leaves all but the run and the ports, and those where no run is ACTIVE. -/
theorem event_pointTakesRound {s : State} (hs : s.settled = true) (hn : s.commitNote = none) (r : RoundValues) :
    ∃ run ports, event s (s.pointTakesRound r) = { s with run := run, ports := ports } ∧
      run.isSome = s.run.isSome ∧ (s.run = none → ports = s.ports) := by
  obtain ⟨hout, hbridge⟩ := s.settled_iff.1 hs
  obtain ⟨heq, hrun⟩ := s.pointTakesRound_eq r
  have hsettled : (s.pointTakesRound r).bridgeSettled = true := by
    rw [← hbridge]
    refine State.bridgeSettled_congr ?_ ?_ hrun ?_ ?_ ?_ ?_ <;> simp
  have hevent : event s (s.pointTakesRound r) = (s.pointTakesRound r).flush := by
    rw [event_of_bridgeSettled hsettled (by simp)]
    exact retain_of_untouched (by apply changedRegions_same <;> simp) (by simp [hn])
  refine ⟨(s.pointTakesRound r).run, (s.pointTakesRound r).flush.ports, ?_, hrun, fun hnone => ?_⟩
  · rw [hevent]
    refine State.eq_iff_fields.2 ?_
    simp [hout]
  · have hsame : s.pointTakesRound r = s := by simp [State.pointTakesRound, hnone]
    rw [hsame, State.flush_ports_of_empty hout]

/-- R180: the last stable weight changes nothing else. -/
theorem event_keepLastStable {s : State} (hs : s.settled = true) (hn : s.commitNote = none) (r : RoundValues) :
    event s (s.keepLastStable r) =
      { s with faults.lastStable := if s.weigh.stable = true then r.rounded else s.faults.lastStable } := by
  have hkeep : s.keepLastStable r =
      { s with faults.lastStable := if s.weigh.stable = true then r.rounded else s.faults.lastStable } := by
    unfold State.keepLastStable
    split <;> rfl
  rw [hkeep]
  exact event_untouched hs rfl (changedRegions_same rfl rfl rfl rfl rfl rfl rfl) hn

/-- What the events after the blocks leave of the state that the blocks left. -/
theorem State.givenRound_eq {u : State} {r : RoundValues} (hs : (u.blocksTakeRound r).settled = true)
    (hn : (u.blocksTakeRound r).commitNote = none) :
    ∃ run ports, u.givenRound r =
        { u.blocksTakeRound r with
          run := run, ports := ports
          faults.lastStable := if (u.blocksTakeRound r).weigh.stable = true then r.rounded
            else (u.blocksTakeRound r).faults.lastStable } ∧
      (u.givenRound r).settled = true ∧
      ((u.blocksTakeRound r).run = none → ports = (u.blocksTakeRound r).ports) := by
  unfold State.givenRound
  generalize u.blocksTakeRound r = t at hs hn
  obtain ⟨run, ports, hpoint, hrun, hports⟩ := event_pointTakesRound hs hn r
  have hsettled := event_settled t (t.pointTakesRound r)
  simp only [hpoint] at hsettled ⊢
  rw [event_keepLastStable hsettled hn]
  exact ⟨run, ports, rfl, hsettled, hports⟩

/-! ### The next round -/

theorem State.nextStartsQuietly_congr {s t : State} (ht : t.tableInUse = s.tableInUse)
    (hc : ∀ i, (t.bus.record i).configured = (s.bus.record i).configured) :
    t.nextStartsQuietly = s.nextStartsQuietly := by
  simp only [State.nextStartsQuietly, ht, hc]

/-- A round that starts quietly changes the bus alone. -/
theorem State.startRound_quiet_eq {s : State} (hs : s.settled = true) (hn : s.commitNote = none)
    (h : s.nextStartsQuietly = true) : s.startRound = { s with bus := s.beginRound.bus } := by
  have hlist : s.tableInUse.configuredList ≠ [] := by
    simp only [State.nextStartsQuietly, Bool.and_eq_true, Bool.not_eq_true', List.isEmpty_eq_false_iff] at h
    exact h.1
  obtain ⟨first, rest, hcons⟩ := List.exists_cons_of_ne_nil hlist
  rw [State.startRound_cons hcons, State.beginRound_quiet h]
  exact event_withRound hs hn _ s.bus s.weigh s.weigh

/-- The end of a poll leaves every address as CONFIGURED as it was. -/
theorem State.polled_configured (s : State) (i : Nat) (reply : Option CellReply) (j : Nat) :
    ((s.polled i reply).bus.record j).configured = (s.bus.record j).configured := by
  by_cases hj : j = i
  · subst hj
    exact (congrArg _ (s.bus.record_setRecord_self j _)).trans (CellRecord.judged_configured _ _ _)
  · exact congrArg _ (s.bus.record_setRecord_other _ hj)

end Sys2Proof.Machine
end

