-- ==== Sys2Proof/Proofs/Resettled.lean ====
section
/-! The settling of an event that sets no hold source, field by field (R63, R64, R74 to R78): what it leaves of the
bridge and of the counts, where it grants nothing, and the grant that it makes where none is held back. -/

namespace Sys2Proof.Machine

/-! ### What a settling leaves -/

/-- No grant is made, whatever becomes of the FAULT source: the bridge is not FREE, no entry waits, or a port holds. -/
def State.grantsNone (s : State) : Prop :=
  s.bridge.state ≠ .free ∨ s.bridge.waiting = [] ∨ s.bridge.holds.gatehouse = true ∨ s.bridge.holds.lane = true

/-- What a settling that sets no source leaves of the bridge, the counts and the last stable weight. -/
structure State.Resettled (s t : State) : Prop where
  startMark : t.bridge.startMark = s.bridge.startMark
  advance : t.bridge.advance = s.bridge.advance
  withheld : t.bridge.withheld = s.bridge.withheld
  gatehouse : t.bridge.holds.gatehouse = s.bridge.holds.gatehouse
  lane : t.bridge.holds.lane = s.bridge.holds.lane
  lastStable : t.faults.lastStable = s.faults.lastStable
  counts : t.axles = s.axles ∨ t.axles = s.axles.atGrant
  stays : s.grantsNone → t.bridge.state = s.bridge.state ∧ t.bridge.waiting = s.bridge.waiting ∧
    t.bridge.grant = s.bridge.grant ∧ t.visits = s.visits ∧ t.inUse = s.inUse ∧ t.outbox = s.outbox

theorem State.Resettled.refl (s : State) : s.Resettled s :=
  ⟨rfl, rfl, rfl, rfl, rfl, rfl, .inl rfl, fun _ => ⟨rfl, rfl, rfl, rfl, rfl, rfl⟩⟩

/-- Counts of 0 stay 0 at a grant. -/
theorem State.Resettled.counts_zero {s t : State} (h : s.Resettled t) (he : s.axles.entered = 0)
    (hx : s.axles.exited = 0) (hc : s.axles.axleCount = false) :
    t.axles.entered = 0 ∧ t.axles.exited = 0 ∧ t.axles.axleCount = false := by
  rcases h.counts with heq | heq <;> rw [heq]
  · exact ⟨he, hx, hc⟩
  · exact ⟨rfl, rfl, rfl⟩

theorem Axles.atGrant_atGrant (a : Axles) : a.atGrant.atGrant = a.atGrant := by
  unfold Axles.atGrant
  cases hf : a.trace.frozen <;> simp [hf, Trace.reset]

theorem State.Resettled.trans {s t u : State} (h : s.Resettled t) (k : t.Resettled u) : s.Resettled u where
  startMark := k.startMark.trans h.startMark
  advance := k.advance.trans h.advance
  withheld := k.withheld.trans h.withheld
  gatehouse := k.gatehouse.trans h.gatehouse
  lane := k.lane.trans h.lane
  lastStable := k.lastStable.trans h.lastStable
  counts := by
    rcases k.counts with hk | hk <;> rcases h.counts with hh | hh <;> rw [hk, hh]
    · exact .inl rfl
    · exact .inr rfl
    · exact .inr rfl
    · exact .inr (Axles.atGrant_atGrant _)
  stays := fun hnone => by
    obtain ⟨h1, h2, h3, h4, h5, h6⟩ := h.stays hnone
    obtain ⟨k1, k2, k3, k4, k5, k6⟩ := k.stays (by
      rw [State.grantsNone, h1, h2, h.gatehouse, h.lane]
      exact hnone)
    exact ⟨k1.trans h1, k2.trans h2, k3.trans h3, k4.trans h4, k5.trans h5, k6.trans h6⟩

/-! ### The steps of a pass -/

theorem State.grantIfDue_resettled (s : State) : s.Resettled s.grantIfDue := by
  unfold State.grantIfDue
  split
  · next hdue =>
    simp only [Bool.and_eq_true, decide_eq_true_eq, Bool.not_eq_true'] at hdue
    obtain ⟨hfree, hfreed⟩ := hdue
    split
    · exact .refl s
    · next q hq =>
      refine ⟨?_, ?_, ?_, ?_, ?_, ?_, .inr ?_, fun hnone => absurd hnone ?_⟩
      iterate 7 simp [State.grantTo]
      have hwaits : s.bridge.waiting ≠ [] := by
        intro hnil
        rw [hnil] at hq
        cases hq
      simp only [State.held, Holds.inForce, Bool.or_eq_false_iff] at hfreed
      obtain ⟨⟨⟨⟨hg, hl⟩, -⟩, -⟩, -⟩ := hfreed
      simp [State.grantsNone, hfree, hwaits, hg, hl]
  · exact .refl s

theorem State.recommand_resettled (s : State) : s.Resettled s.recommand := by
  obtain ⟨hwaiting, -, hstate, hmark, hgrant, -, hadvance, hwithheld, hholds, -⟩ := s.recommand_spec
  refine ⟨hmark, hadvance, hwithheld, by rw [hholds], by rw [hholds], ?_, .inl (by simp), fun _ => ?_⟩
  · rw [State.recommand, State.compareLamps_lastStable, State.compareLamps_lastStable]
  · exact ⟨hstate, hwaiting, hgrant, by simp, by simp, by simp⟩

/-- A pass that sets no source. -/
theorem State.settlePass_resettled {s : State} {before : Holds} (h : s.judgeSources.bridge.holds.within before) :
    s.Resettled (s.settlePass before) := by
  have hjudge : s.Resettled s.judgeSources := { State.Resettled.refl s with }
  have hfollow : s.judgeSources.Resettled (s.judgeSources.followHold before) ∧
      (s.judgeSources.followHold before).bridge.holds = s.judgeSources.bridge.holds := by
    rcases State.followHold_within h with hf | hf <;> rw [hf]
    · exact ⟨.refl _, rfl⟩
    · exact ⟨{ State.Resettled.refl s.judgeSources with }, rfl⟩
  unfold State.settlePass
  rw [State.followPointSources_within (by rw [hfollow.2]; exact h)]
  exact ((hjudge.trans hfollow.1).trans (State.grantIfDue_resettled _)).trans (State.recommand_resettled _)

/-- A second pass only ever clears the FAULT source. -/
theorem State.settlePass_judged_within (s : State) (before : Holds) :
    (s.settlePass before).judgeSources.bridge.holds.within (s.settlePass before).bridge.holds := by
  obtain ⟨hmet, hfault, -, -, -, -, -, hlow⟩ := s.settlePass_spec before
  refine ⟨id, id, fun hm => hmet.trans hm, fun hf => ?_, id⟩
  rw [hfault]
  by_contra hs
  exact absurd hf (by simp [State.judgeSources, hlow (by simpa using hs)])

/-- The settling of an event that sets no source. -/
theorem State.settle_resettled {s : State} {before : Holds} (h : s.judgeSources.bridge.holds.within before) :
    s.Resettled (s.settle before) := by
  have hfirst := State.settlePass_resettled h
  unfold State.settle
  simp only []
  split
  · exact hfirst
  · exact hfirst.trans (State.settlePass_resettled (State.settlePass_judged_within s before))

/-! ### Sources as they are judged -/

/-- The METROLOGY and FAULT sources are as their causes give them (R76, R183). -/
def State.sourcesJudged (s : State) : Prop :=
  s.bridge.holds.metrology = (s.accessOpen || s.run.isSome || s.bridge.holds.manual) ∧
    s.bridge.holds.fault = s.faultJudged

theorem State.sourcesJudged_of_settled {s : State} (h : s.settled = true) : s.sourcesJudged := by
  obtain ⟨hmet, hfault, -⟩ := s.bridgeSettled_iff.1 (s.settled_iff.1 h).2
  exact ⟨hmet, hfault⟩

/-- They depend on the hold set, access, the run, the Fault Unit, the CALIBRATION region and the policies. -/
theorem State.sourcesJudged_congr {s t : State} (h : s.sourcesJudged) (hh : t.bridge.holds = s.bridge.holds)
    (hst : t.staged = s.staged) (hr : t.run = s.run) (hf : t.faults = s.faults) (hc : t.cal = s.cal)
    (hsite : t.site = s.site) : t.sourcesJudged := by
  obtain ⟨hmet, hfault⟩ := h
  rw [State.sourcesJudged, State.faultJudged_congr hf hc hsite, hh, hr]
  exact ⟨hmet.trans (by simp only [State.accessOpen, hst]), hfault⟩

theorem State.judgeSources_of_judged {s : State} (h : s.sourcesJudged) : s.judgeSources = s := by
  obtain ⟨hmet, hfault⟩ := h
  unfold State.judgeSources
  rw [← hmet, ← hfault]

/-- A pass over judged sources, from the hold set that it finds. -/
theorem State.settlePass_of_judged {s : State} (h : s.sourcesJudged) :
    s.settlePass s.bridge.holds = s.grantIfDue.recommand := by
  have hfollow : s.followHold s.bridge.holds = s := by
    unfold State.followHold
    cases hx : s.held <;> simp_all [State.held]
  have hpoint : s.followPointSources s.bridge.holds = s := by simp [State.followPointSources]
  rw [State.settlePass, State.judgeSources_of_judged h, hfollow, hpoint]

/-- R63, R64: at a FREE bridge with no hold in force the settling grants the entry to grant. -/
theorem State.settle_grants {s : State} {q : QueueEntry} (h : s.sourcesJudged) (hfree : s.bridge.state = .free)
    (hheld : s.held = false) (hq : selectEntry s.bridge.waiting = some q) :
    (s.settle s.bridge.holds).bridge.state = .granted ∧
      (s.settle s.bridge.holds).bridge.grant = some { ident := q.ident, entryEnd := q.entryEnd } := by
  have hgrant : s.grantIfDue = s.grantTo q := by simp [State.grantIfDue, hfree, hheld, hq]
  obtain ⟨-, -, hstate, -, hgranted, -⟩ := (s.grantTo q).recommand_spec
  obtain ⟨-, hjudged, -, -, -, -, -, hlow⟩ := s.settlePass_spec s.bridge.holds
  have hfault : s.faultJudged = false := by
    rw [← h.2]
    simp only [State.held, Holds.inForce, Bool.or_eq_false_iff] at hheld
    exact hheld.1.2
  have hone : s.settle s.bridge.holds = (s.grantTo q).recommand := by
    rw [← hgrant, ← State.settlePass_of_judged h]
    exact if_pos ((hlow hfault).trans (hjudged.trans hfault).symm)
  rw [hone, hstate, hgranted]
  simp [State.grantTo]

/-! ### As an event -/

/-- An event that leaves the hold set of a settled state, and what its sources are judged by, brings a settling that
sets none. -/
theorem event_resettled {s u : State} (h : u.sourcesJudged) (hh : u.bridge.holds = s.bridge.holds) :
    u.Resettled (u.settle s.bridge.holds) ∧ (event s u).capture = u.capture ∧ (event s u).run = u.run := by
  have hwithin : u.judgeSources.bridge.holds.within s.bridge.holds := by
    rw [State.judgeSources_of_judged h, hh]
    exact ⟨id, id, id, id, id⟩
  obtain ⟨hcapture, hrun, -⟩ := event_within hwithin
  exact ⟨State.settle_resettled hwithin, hcapture, hrun⟩

end Sys2Proof.Machine
end

