-- ==== Sys2Proof/Proofs/RoundTakers.lean ====
section
/-! The blocks that take a round where no capture waits (R32, R54, R71, R73, R104, R115): the Capture Unit drops out of
their order, the trace takes its sample, and the Bridge Arbiter ends a grant or OCCUPIED_UNKNOWN or leaves the bridge.
-/

namespace Sys2Proof.Machine

/-! ### The trace (R104, R105) -/

/-- The trace that a round leaves. -/
def State.traceAfter (s : State) (r : RoundValues) : Trace :=
  if s.axles.trace.frozen.isSome then { s.axles.trace with events := [], further := 0 }
  else if s.bridge.state = .occupied then s.axles.trace.append r
  else s.axles.trace

theorem State.traceTakesRound_eq (s : State) (r : RoundValues) :
    s.traceTakesRound r = { s with axles.trace := s.traceAfter r } := by
  unfold State.traceTakesRound State.traceAfter
  repeat' split
  all_goals rfl

/-- A frozen trace loses its pending events. -/
theorem State.traceAfter_frozen {s : State} (r : RoundValues) (h : s.axles.trace.frozen ≠ none) :
    s.traceAfter r = { s.axles.trace with events := [], further := 0 } := by
  rw [State.traceAfter, if_pos (Option.isSome_iff_ne_none.2 h)]

/-- Over OCCUPIED any other takes a sample. -/
theorem State.traceAfter_occupied {s : State} (r : RoundValues) (h : s.axles.trace.frozen = none)
    (ho : s.bridge.state = .occupied) : s.traceAfter r = s.axles.trace.append r := by
  rw [State.traceAfter, if_neg (by simp [h]), if_pos ho]

/-! ### The end of a grant and of OCCUPIED_UNKNOWN (R71, R73, R115) -/

theorem State.vehicleLeft_bridge (s : State) :
    s.vehicleLeft.bridge =
      { s.bridge with state := .free, grant := none, grantTimer := none, advance := false, withheld := false } := by
  have hmove : (s.moveBridge .free).bridge = { s.bridge with state := .free } := by
    unfold State.moveBridge
    simp only []
    split <;> simp
  simp [State.vehicleLeft, hmove]

theorem State.vehicleLeft_capture {s : State} (h : s.capture.waiting = none) :
    s.vehicleLeft.capture.waiting = none ∧
      s.vehicleLeft.capture.arm = (s.capture.arm && s.bridge.state ≠ .occupied) := by
  have hmove : (s.moveBridge .free).capture.waiting = none ∧
      (s.moveBridge .free).capture.arm = (s.capture.arm && s.bridge.state ≠ .occupied) := by
    unfold State.moveBridge State.leaveOccupied
    by_cases ho : s.bridge.state = .occupied <;> simp [ho, State.refuseWaiting_none _ _ h, h]
  simpa [State.vehicleLeft] using hmove

/-- R115: a listed visit in use is returned, and one in progress has its notice. -/
theorem State.endVisitUse_listed {s : State} {p : Nat} {v : Visit} (hu : s.inUse = some p)
    (hv : Table.get? s.visits p = some v) :
    (s.endVisitUse true).inUse = none ∧ (s.endVisitUse true).visits = Table.set s.visits p v.returned ∧
      (s.endVisitUse true).outbox = s.outbox ++
        if v.inProgress = true then notesTo [.gatehouse, .lane] (.leftUnweighed v.ident v.weighing v.draft.used)
        else [] := by
  cases hp : v.inProgress <;> simp [State.endVisitUse, hu, hv, hp, notesTo, postAll_outbox]

/-- With none listed the visits stand. -/
theorem State.endVisitUse_unlisted {s : State} (h : s.visitInUse = none) :
    (s.endVisitUse true).inUse = none ∧ (s.endVisitUse true).visits = s.visits := by
  unfold State.visitInUse at h
  cases hu : s.inUse with
  | none => simp [State.endVisitUse, hu]
  | some p =>
    have hv : Table.get? s.visits p = none := by simpa [hu] using h
    simp [State.endVisitUse, hu, hv]

/-- What the end of a grant leaves of the visits, position by position, and its notice. -/
theorem State.endVisitUse_spec (s : State) :
    (s.endVisitUse true).inUse = none ∧
      (∀ q v, s.inUse = some q → Table.get? s.visits q = some v →
        Table.get? (s.endVisitUse true).visits q = some v.returned ∧
          (v.inProgress = true → (s.endVisitUse true).outbox =
            s.outbox ++ notesTo [.gatehouse, .lane] (.leftUnweighed v.ident v.weighing v.draft.used))) ∧
      ∀ q, s.inUse ≠ some q → Table.get? (s.endVisitUse true).visits q = Table.get? s.visits q := by
  cases h : s.visitInUse with
  | none =>
    obtain ⟨huse, hvisits⟩ := State.endVisitUse_unlisted h
    refine ⟨huse, fun q v hq hv => ?_, fun q _ => by rw [hvisits]⟩
    simp [State.visitInUse, hq, hv] at h
  | some w =>
    obtain ⟨p, hp, hw⟩ := Option.bind_eq_some_iff.1 h
    obtain ⟨huse, hvisits, hout⟩ := State.endVisitUse_listed hp hw
    refine ⟨huse, fun q v hq hv => ?_, fun q hq => ?_⟩
    · obtain rfl : p = q := Option.some_inj.1 (hp.symm.trans hq)
      obtain rfl : w = v := Option.some_inj.1 (hw.symm.trans hv)
      exact ⟨by rw [hvisits, Table.get?_set_self], fun hprogress => by rw [hout, if_pos hprogress]⟩
    · rw [hvisits, Table.get?_set_other _ _ fun heq => hq (hp.trans (congrArg some heq.symm))]

theorem State.vehicleLeft_visits {s : State} (h : s.capture.waiting = none) :
    s.vehicleLeft.inUse = none ∧
      (∀ q v, s.inUse = some q → Table.get? s.visits q = some v →
        Table.get? s.vehicleLeft.visits q = some v.returned ∧
          (v.inProgress = true → s.vehicleLeft.outbox =
            s.outbox ++ notesTo [.gatehouse, .lane] (.leftUnweighed v.ident v.weighing v.draft.used))) ∧
      ∀ q, s.inUse ≠ some q → Table.get? s.vehicleLeft.visits q = Table.get? s.visits q := by
  have hmove : (s.moveBridge .free).outbox = s.outbox := by
    unfold State.moveBridge State.leaveOccupied
    simp only [State.refuseWaiting_none _ _ h]
    split <;> rfl
  have hspec := (s.moveBridge .free).endVisitUse_spec
  rw [hmove] at hspec
  simpa [State.vehicleLeft] using hspec

/-- A grant or OCCUPIED_UNKNOWN has ended: the bridge is FREE with the hold set and the queues that it had, the counts
are 0, and what the hold set is judged by stands. -/
structure State.Freed (s u : State) : Prop where
  state : u.bridge.state = .free
  waiting : u.bridge.waiting = s.bridge.waiting
  holds : u.bridge.holds = s.bridge.holds
  entered : u.axles.entered = 0
  exited : u.axles.exited = 0
  axleCount : u.axles.axleCount = false
  judged : u.sourcesJudged

theorem State.vehicleLeft_freed {s : State} (hs : s.settled = true) : s.Freed s.vehicleLeft := by
  have hb := s.vehicleLeft_bridge
  exact ⟨by rw [hb], by rw [hb], by rw [hb], rfl, rfl, rfl,
    State.sourcesJudged_congr (State.sourcesJudged_of_settled hs) (by rw [hb]) (by simp) (by simp) (by simp) (by simp)
      (by simp)⟩

theorem State.unknownEnds_freed {s : State} (hs : s.settled = true) : s.Freed s.unknownEnds :=
  ⟨rfl, rfl, rfl, rfl, rfl, rfl, State.sourcesJudged_congr (State.sourcesJudged_of_settled hs) rfl rfl rfl rfl rfl rfl⟩

section
variable {s u : State}

/-- R63: with no entry waiting, or under the hold of a port, the freed bridge stays FREE. -/
theorem State.Freed.stays (h : s.Freed u)
    (hnone : s.bridge.waiting = [] ∨ s.bridge.holds.gatehouse = true ∨ s.bridge.holds.lane = true) :
    (event s u).bridge.state = .free ∧ (event s u).bridge.waiting = s.bridge.waiting ∧
      (event s u).bridge.grant = u.bridge.grant ∧ (event s u).visits = u.visits ∧ (event s u).inUse = u.inUse ∧
      (event s u).ports = u.flush.ports := by
  obtain ⟨hbridge, -, -, hvisits, huse, -, -, hports⟩ := event_settle s u
  have hgrants : u.grantsNone := .inr (by rw [h.waiting, h.holds]; exact hnone)
  obtain ⟨k1, k2, k3, k4, k5, k6⟩ := (event_resettled h.judged h.holds).1.stays hgrants
  rw [hbridge, hvisits, huse, hports]
  exact ⟨k1.trans h.state, k2.trans h.waiting, k3, k4, k5, State.flush_ports_congr (by simp) k6⟩

/-- R63, R64: with no hold in force it is granted to the entry to grant. -/
theorem State.Freed.grants (h : s.Freed u) (hheld : s.held = false) {q : QueueEntry}
    (hq : selectEntry s.bridge.waiting = some q) :
    (event s u).bridge.state = .granted ∧
      (event s u).bridge.grant = some { ident := q.ident, entryEnd := q.entryEnd } := by
  rw [(event_settle s u).1, ← h.holds]
  exact State.settle_grants h.judged h.state (by rw [State.held, h.holds]; exact hheld) (by rw [h.waiting]; exact hq)

/-- The counts stay 0 and the marks as they were left. -/
theorem State.Freed.left (h : s.Freed u) :
    ((event s u).axles.entered = 0 ∧ (event s u).axles.exited = 0 ∧ (event s u).axles.axleCount = false) ∧
      (event s u).bridge.startMark = u.bridge.startMark ∧ (event s u).bridge.advance = u.bridge.advance ∧
      (event s u).bridge.withheld = u.bridge.withheld := by
  obtain ⟨hbridge, -, haxles, -⟩ := event_settle s u
  have hsettle := (event_resettled h.judged h.holds).1
  rw [hbridge, haxles]
  exact ⟨hsettle.counts_zero h.entered h.exited h.axleCount, hsettle.startMark, hsettle.advance, hsettle.withheld⟩

end

/-! ### The Bridge Arbiter (R71, R73) -/

section
variable {s : State} {r : RoundValues}

/-- What the arbiter leaves of the hold set, of what that is judged by, and of a capture that does not wait. -/
theorem State.arbiterTakesRound_keeps (hs : s.settled = true) (hc : s.capture.waiting = none) (r : RoundValues) :
    (s.arbiterTakesRound r).sourcesJudged ∧ (s.arbiterTakesRound r).bridge.holds = s.bridge.holds ∧
      (s.arbiterTakesRound r).capture.waiting = none := by
  have hself := State.sourcesJudged_of_settled hs
  have hleft : s.vehicleLeft.sourcesJudged ∧ s.vehicleLeft.bridge.holds = s.bridge.holds ∧
      s.vehicleLeft.capture.waiting = none :=
    ⟨(State.vehicleLeft_freed hs).judged, (State.vehicleLeft_freed hs).holds, (State.vehicleLeft_capture hc).1⟩
  have hends : s.unknownEnds.sourcesJudged ∧ s.unknownEnds.bridge.holds = s.bridge.holds ∧
      s.unknownEnds.capture.waiting = none :=
    ⟨(State.unknownEnds_freed hs).judged, rfl, hc⟩
  have hunknown : (s.unknownTakesRound r).sourcesJudged ∧ (s.unknownTakesRound r).bridge.holds = s.bridge.holds ∧
      (s.unknownTakesRound r).capture.waiting = none := by
    unfold State.unknownTakesRound
    repeat' split
    · exact ⟨hself, rfl, hc⟩
    · exact hends
    · exact ⟨State.sourcesJudged_congr hself rfl rfl rfl rfl rfl rfl, rfl, hc⟩
    · exact hends
    · exact ⟨hself, rfl, hc⟩
  unfold State.arbiterTakesRound
  repeat' split
  · exact hleft
  · exact ⟨hself, rfl, hc⟩
  · exact hleft
  · exact ⟨hself, rfl, hc⟩
  · exact hunknown
  · exact ⟨hself, rfl, hc⟩

theorem State.arbiterTakesRound_onBridge (h : s.bridge.state = .occupied ∨ s.bridge.state = .released) :
    s.arbiterTakesRound r = if s.hasLeft r = true then s.vehicleLeft else s := by
  rcases h with h | h <;> simp only [State.arbiterTakesRound, h]

theorem State.arbiterTakesRound_unknown (h : s.bridge.state = .occupiedUnknown) :
    s.arbiterTakesRound r = s.unknownTakesRound r := by
  simp only [State.arbiterTakesRound, h]

theorem State.arbiterTakesRound_else (h : s.bridge.state = .free ∨ s.bridge.state = .granted) :
    s.arbiterTakesRound r = s := by
  rcases h with h | h <;> simp only [State.arbiterTakesRound, h]

/-- R73: a round below the threshold, stable or the first after a start, ends OCCUPIED_UNKNOWN. -/
theorem State.unknownTakesRound_low (hm : s.bridge.startMark = true ∨ s.weigh.stable = true) {w : Int}
    (hr : r.rounded = some w) (hw : w < s.weigh.roundTable.occupancyKg) : s.unknownTakesRound r = s.unknownEnds := by
  have hbelow : s.below w = true := decide_eq_true hw
  simp only [State.unknownTakesRound, hr, hbelow]
  cases hmark : s.bridge.startMark with
  | true => rfl
  | false => simp [hm.resolve_left (by simp [hmark])]

/-- R73: one at or above it clears the start mark. -/
theorem State.unknownTakesRound_high {w : Int} (hr : r.rounded = some w) (hw : s.weigh.roundTable.occupancyKg ≤ w) :
    s.unknownTakesRound r = { s with bridge.startMark := false } := by
  have hbelow : s.below w = false := decide_eq_false (by omega)
  simp only [State.unknownTakesRound, hr, hbelow]
  cases hmark : s.bridge.startMark with
  | true => rfl
  | false =>
    simp only [Bool.and_false, Bool.false_eq_true, if_false]
    rw [← hmark]

/-- R73: an invalid one, or an unstable one that is not the first, does nothing. -/
theorem State.unknownTakesRound_none
    (h : r.rounded = none ∨ (s.bridge.startMark = false ∧ s.weigh.stable = false)) : s.unknownTakesRound r = s := by
  unfold State.unknownTakesRound
  split
  · rfl
  · next w hw =>
    obtain ⟨hmark, hstable⟩ := h.resolve_left (by simp [hw])
    simp [hmark, hstable]

/-! ### The order of the blocks (R32, R54, R105) -/

/-- Between two events, with no capture waiting. -/
structure State.Idle (s : State) : Prop where
  settled : s.settled = true
  commitNote : s.commitNote = none
  capture : s.capture.waiting = none

/-- The Capture Unit leaves the round to the others. -/
theorem State.Idle.takeAs_capture (h : s.Idle) (r : RoundValues) : State.takeAs r s .capture = s := by
  have hnone : s.captureTakesRound r = s := by simp [State.captureTakesRound, h.capture]
  rw [State.takeAs, hnone]
  exact event_self h.settled h.commitNote

theorem State.takeAs_arbiter (s : State) (r : RoundValues) :
    State.takeAs r s .arbiter = event s (s.arbiterTakesRound r) := rfl

theorem State.Idle.takeAs_trace (h : s.Idle) (r : RoundValues) : State.takeAs r s .trace = s.traceTakesRound r := by
  rw [State.takeAs, State.traceTakesRound_eq]
  exact event_untouched h.settled rfl (changedRegions_same rfl rfl rfl rfl rfl rfl rfl) h.commitNote

theorem State.Idle.takeAs (h : s.Idle) (r : RoundValues) (k : RoundTaker) : (State.takeAs r s k).Idle := by
  cases k with
  | capture =>
    rw [h.takeAs_capture]
    exact h
  | trace =>
    rw [h.takeAs_trace, State.traceTakesRound_eq]
    exact ⟨h.settled, h.commitNote, h.capture⟩
  | arbiter =>
    obtain ⟨hjudged, hholds, hcapture⟩ := State.arbiterTakesRound_keeps h.settled h.capture r
    exact ⟨event_settled _ _, event_commitNote _ _,
      (congrArg _ (event_resettled hjudged hholds).2.1).trans hcapture⟩

/-- The Capture Unit drops out of an order. -/
theorem State.Idle.takersTake (h : s.Idle) (r : RoundValues) (l : List RoundTaker) :
    l.foldl (State.takeAs r) s = (l.filter (· ≠ .capture)).foldl (State.takeAs r) s ∧
      (l.foldl (State.takeAs r) s).Idle := by
  induction l generalizing s with
  | nil => exact ⟨rfl, h⟩
  | cons k l ih =>
    obtain ⟨heq, hidle⟩ := ih (h.takeAs r k)
    refine ⟨?_, hidle⟩
    rw [List.foldl_cons, heq]
    by_cases hk : k = .capture
    · subst hk
      rw [h.takeAs_capture]
      rfl
    · rw [List.filter_cons_of_pos (by simpa using hk), List.foldl_cons]

theorem takerOrders_without_capture {order : List RoundTaker} (h : order ∈ takerOrders) :
    order.filter (· ≠ .capture) = [.trace, .arbiter] ∨ order.filter (· ≠ .capture) = [.arbiter, .trace] := by
  revert order
  decide

/-- What the arbiter's event can change at all. -/
theorem State.Idle.arbiter_frame (h : s.Idle) {a : State} (ha : event s (s.arbiterTakesRound r) = a) :
    a = { s with capture := a.capture, bridge := a.bridge, axles := a.axles, visits := a.visits, inUse := a.inUse
                 faults := a.faults, ports := a.ports, writes := a.writes } ∧
      a.faults.lastStable = s.faults.lastStable := by
  obtain ⟨hjudged, hholds, -⟩ := State.arbiterTakesRound_keeps h.settled h.capture r
  obtain ⟨hsettle, -, hrun⟩ := event_resettled hjudged hholds
  obtain ⟨-, -, -, -, -, -, hfaults, -⟩ := event_settle s (s.arbiterTakesRound r)
  have hout := (s.settled_iff.1 h.settled).1
  have hnote := h.commitNote
  subst ha
  refine ⟨State.eq_iff_fields.2 ?_, ?_⟩
  · simp [hrun, hout, hnote]
  · rw [hfaults, hsettle.lastStable]
    simp

/-- The trace and the Bridge Arbiter take the round, in either order: the arbiter in a state with the trace as it was or
as the round leaves it. -/
theorem State.Idle.blocksTakeRound (h : s.Idle) (r : RoundValues) :
    (s.blocksTakeRound r).Idle ∧ ∃ u a trace, u.Idle ∧
      u = { s with choices := u.choices, axles.trace := u.axles.trace } ∧ event u (u.arbiterTakesRound r) = a ∧
      s.blocksTakeRound r = { a with axles.trace := trace } ∧
      (a.axles = u.axles → a.bridge.state = s.bridge.state → trace = s.traceAfter r) := by
  obtain ⟨order, horder, n, hblocks⟩ : ∃ order ∈ takerOrders, ∃ n,
      s.blocksTakeRound r = order.foldl (State.takeAs r) { s with choices := n } := by
    unfold State.blocksTakeRound
    split
    · exact ⟨_, takerOrder_mem _, _, rfl⟩
    · exact ⟨_, takerOrder_mem 0, s.choices, rfl⟩
  have hu : State.Idle { s with choices := n } := ⟨h.settled, h.commitNote, h.capture⟩
  obtain ⟨hdrop, hidle⟩ := hu.takersTake r order
  rw [← hblocks] at hdrop hidle
  refine ⟨hidle, ?_⟩
  rcases takerOrders_without_capture horder with hfirst | hfirst <;>
    simp only [hfirst, List.foldl_cons, List.foldl_nil] at hdrop
  · obtain ⟨u, hv⟩ : ∃ u, ({ s with choices := n } : State).traceTakesRound r = u := ⟨_, rfl⟩
    obtain ⟨a, ha⟩ : ∃ a, event u (u.arbiterTakesRound r) = a := ⟨_, rfl⟩
    rw [hu.takeAs_trace, hv, State.takeAs_arbiter, ha] at hdrop
    rw [State.traceTakesRound_eq] at hv
    refine ⟨u, a, a.axles.trace, ?_, ?_, ha, hdrop, fun haxles _ => ?_⟩
    · rw [← hv]
      exact ⟨h.settled, h.commitNote, h.capture⟩
    · rw [← hv]
    · rw [haxles, ← hv]
      rfl
  · obtain ⟨u, hv⟩ : ∃ u : State, { s with choices := n } = u := ⟨_, rfl⟩
    obtain ⟨a, ha⟩ : ∃ a, event u (u.arbiterTakesRound r) = a := ⟨_, rfl⟩
    rw [(hu.takeAs r .arbiter).takeAs_trace, hv, State.takeAs_arbiter, ha, State.traceTakesRound_eq] at hdrop
    refine ⟨u, a, a.traceAfter r, hv ▸ hu, ?_, ha, hdrop, fun haxles hstate => ?_⟩
    · rw [← hv]
    · rw [State.traceAfter, haxles, hstate, ← hv]
      rfl

end

end Sys2Proof.Machine
end

