-- ==== Sys2Proof/Proofs/RoundReaches.lean ====
section
/-! The statement of what a round brings to the blocks that take it, where no capture waits (R32, R41, R71, R73, R104,
R115, R180). -/

namespace Sys2Proof.Machine

/-- How a round, and the quiet start of the next one after an overrun round, leads from `s` to `t`: the Bridge Arbiter
takes it in `u`, which has the weighing of the round and the trace as the order of the blocks gives it, and leaves
`a`. -/
structure State.Reaches (s : State) (r : RoundValues) (u a t : State) : Prop where
  weighed : s.Weighed r t.weigh
  idle : u.Idle
  before : u = { s with bus := u.bus, weigh := t.weigh, choices := u.choices, axles.trace := u.axles.trace }
  taken : event u (u.arbiterTakesRound r) = a
  bridge : t.bridge = a.bridge
  capture : t.capture = a.capture
  visits : t.visits = a.visits
  inUse : t.inUse = a.inUse
  counts : t.axles = { a.axles with trace := t.axles.trace }
  trace : a.axles = u.axles → a.bridge.state = s.bridge.state → t.axles.trace = s.traceAfter r
  lastStable : t.faults.lastStable = if t.weigh.stable = true then r.rounded else a.faults.lastStable
  ports : s.run = none → t.ports = a.ports
  rest : t = { s with bus := t.bus, weigh := t.weigh, capture := t.capture, bridge := t.bridge, axles := t.axles,
                      visits := t.visits, inUse := t.inUse, run := t.run, faults := t.faults, ports := t.ports,
                      writes := t.writes, choices := t.choices }

/-- What the blocks and the events after them leave of a state with the weighing of the round. -/
theorem State.Idle.reaches {s u : State} {r : RoundValues} {bus : Bus} {w : Weigh} (hs : s.Idle)
    (hw : s.Weighed r w) (hu : u = { s with bus := bus, weigh := w }) (last : Bus) :
    (u.givenRound r).settled = true ∧ (u.givenRound r).commitNote = none ∧
      ∃ v a, s.Reaches r v a { u.givenRound r with bus := last } := by
  have hidle : u.Idle := by
    rw [hu]
    exact ⟨hs.settled, hs.commitNote, hs.capture⟩
  obtain ⟨hblocks, v, a, trace, hv, hbefore, ha, hform, htrace⟩ := hidle.blocksTakeRound r
  obtain ⟨run, ports, hgiven, hsettled, hports⟩ := State.givenRound_eq hblocks.settled hblocks.commitNote
  have hframe := (hv.arbiter_frame ha).1
  generalize u.givenRound r = t at hgiven hsettled
  rw [hform] at hgiven hports
  subst hgiven
  have hvs : v = { s with bus := bus, weigh := w, choices := v.choices, axles.trace := v.axles.trace } := by
    rw [hbefore, hu]
  have hweigh : a.weigh = w := by rw [hframe, hvs]
  refine ⟨hsettled, by rw [hframe, hvs]; exact hs.commitNote, v, a, ?_⟩
  refine ⟨?_, hv, ?_, ha, rfl, rfl, rfl, rfl, rfl, fun h1 h2 => ?_, rfl, fun h => hports ?_, ?_⟩
  · exact hweigh ▸ hw
  · rw [hweigh, hvs]
  · rw [htrace h1 (h2.trans (by rw [hu])), hu]
    rfl
  · rw [hframe, hvs]
    exact h
  · generalize hx : trace = x
    rw [hframe, hvs]

/-- A command that ends a round with nothing to report brings it to the blocks. -/
theorem exec_endsRound {s : State} {c : Instr} {r : RoundValues} (h : s.endsRound c r = true)
    (hc : s.capture.waiting = none) : ∃ t u a, exec c s = .next t ∧ s.Reaches r u a t := by
  obtain ⟨hcalm, hlast, hnext, i, received, reply, hp, hreply, hq, rfl⟩ := State.endsRound_iff.1 h
  obtain ⟨hrun, hout, hbridge, hnote⟩ := s.calm_iff.1 hcalm
  have hs : s.Idle := ⟨s.settled_iff.2 ⟨hout, hbridge⟩, hnote, hc⟩
  obtain ⟨bus, w, hw, hdone⟩ := State.roundDone_quiet_eq hs.settled hnote hq
  have hreaches := hs.reaches (bus := bus) hw rfl
  rw [← hdone] at hreaches
  have hexec := exec_ends_poll hp hreply hrun
  have hbus := s.lastJudged_roundDone_bus i reply
  have htable := s.lastJudged_roundDone_tableInUse i reply
  cases ho : s.bus.overrun with
  | false =>
    rw [State.pollEnds_last reply hlast ho, State.lastJudged_quiet hs.settled hnote hq] at hexec
    generalize (s.polled i reply).roundDone = g at hreaches hexec
    obtain ⟨-, -, u, a, hu⟩ := hreaches g.bus
    exact ⟨g, u, a, hexec, hu⟩
  | true =>
    rw [State.pollEnds_overrun reply hlast ho] at hexec
    rw [State.lastJudged_quiet hs.settled hnote hq] at hexec hbus htable
    generalize (s.polled i reply).roundDone = g at hreaches hexec hbus htable
    have hquiet : g.nextStartsQuietly = true := by
      rw [← hnext.resolve_left (by simp [ho])]
      refine State.nextStartsQuietly_congr htable fun j => ?_
      rw [Bus.record_congr (congrArg Bus.records hbus)]
      exact s.polled_configured i reply j
    obtain ⟨hsettled, hn, u, a, hu⟩ := hreaches g.beginRound.bus
    exact ⟨_, u, a, hexec.trans (congrArg _ (State.startRound_quiet_eq hsettled hn hquiet)), hu⟩

/-! ### What the arbiter finds -/

/-- R71: what shows that the vehicle has left. -/
theorem State.seesLeft_iff {s : State} {r : RoundValues} :
    s.seesLeft r = true ↔ (s.judgedOn r).weigh.stable = true ∧
      (∃ w, r.rounded = some w ∧ w < s.bus.table.occupancyKg) ∧ s.axles.entered = s.axles.exited := by
  simp [State.seesLeft, Option.any_eq_true, and_assoc]

section
variable {s u a t : State} {r : RoundValues}

/-- The state in which the arbiter takes the round has the bridge, the capture and the visits that the round found, and
the weighing that it leaves. -/
theorem State.Reaches.found (h : s.Reaches r u a t) :
    u.bridge = s.bridge ∧ u.capture = s.capture ∧ u.visits = s.visits ∧ u.inUse = s.inUse ∧ u.weigh = t.weigh ∧
      u.axles = { s.axles with trace := u.axles.trace } ∧ u.faults = s.faults ∧ u.ports = s.ports ∧
      u.outbox = s.outbox := by
  rw [h.before]
  exact ⟨rfl, rfl, rfl, rfl, rfl, rfl, rfl, rfl, rfl⟩

theorem State.Reaches.hasLeft (h : s.Reaches r u a t) : u.hasLeft r = s.seesLeft r := by
  obtain ⟨-, -, -, -, hweigh, haxles, -⟩ := h.found
  have hbelow : u.below = fun w => decide (w < s.bus.table.occupancyKg) := by
    funext w
    rw [State.below, hweigh, h.weighed.table]
  rw [State.hasLeft, State.seesLeft, hweigh, h.weighed.stable, hbelow, haxles]

/-- The last stable weight is changed by a stable round alone. -/
theorem State.Reaches.lastStable_eq (h : s.Reaches r u a t) :
    t.faults.lastStable = if (s.judgedOn r).weigh.stable = true then r.rounded else s.faults.lastStable := by
  obtain ⟨-, -, -, -, -, -, hfaults, -⟩ := h.found
  rw [h.lastStable, (h.idle.arbiter_frame h.taken).2, hfaults, h.weighed.stable]

/-- An arbiter that leaves the round leaves all but the trace. -/
theorem State.Reaches.unmoved (h : s.Reaches r u a t) (hstay : u.arbiterTakesRound r = u) :
    t.bridge = s.bridge ∧ t.visits = s.visits ∧ t.inUse = s.inUse ∧ t.capture = s.capture ∧
      t.axles = { s.axles with trace := s.traceAfter r } := by
  have ha : u = a := by
    rw [← h.taken, hstay, event_self h.idle.settled h.idle.commitNote]
  subst ha
  obtain ⟨hbridge, hcapture, hvisits, huse, -, haxles, -⟩ := h.found
  refine ⟨h.bridge.trans hbridge, h.visits.trans hvisits, h.inUse.trans huse, h.capture.trans hcapture, ?_⟩
  rw [h.counts, haxles, h.trace rfl (congrArg _ hbridge)]

/-- R71, R115: a round that shows that the vehicle has left. -/
theorem State.Reaches.left (h : s.Reaches r u a t)
    (hon : s.bridge.state = .occupied ∨ s.bridge.state = .released) (hleft : s.seesLeft r = true) :
    t.axles.entered = 0 ∧ t.axles.exited = 0 ∧ t.axles.axleCount = false ∧ t.bridge.advance = false ∧
      t.bridge.withheld = false ∧ t.capture.arm = (s.capture.arm && s.bridge.state ≠ .occupied) ∧
      (s.bridge.waiting = [] →
        t.bridge.state = .free ∧ t.bridge.grant = none ∧ t.inUse = none ∧ t.bridge.aspectA = .red ∧
        t.bridge.aspectB = .red ∧
        (∀ q v, s.inUse = some q → Table.get? s.visits q = some v → Table.get? t.visits q = some v.returned ∧
          (s.run = none → v.inProgress = true →
            t.ports = (s.told [.gatehouse, .lane] (.leftUnweighed v.ident v.weighing v.draft.used)).ports)) ∧
        (∀ q, s.inUse ≠ some q → Table.get? t.visits q = Table.get? s.visits q)) ∧
      (∀ q, selectEntry s.bridge.waiting = some q → s.held = false →
        t.bridge.state = .granted ∧ t.bridge.grant = some { ident := q.ident, entryEnd := q.entryEnd }) ∧
      (s.bridge.holds.gatehouse = true ∨ s.bridge.holds.lane = true →
        t.bridge.state = .free ∧ t.bridge.waiting = s.bridge.waiting) := by
  obtain ⟨hbridge, hcapture, hvisits, huse, -, -, -, hports, hout⟩ := h.found
  have harbiter : u.arbiterTakesRound r = u.vehicleLeft := by
    rw [State.arbiterTakesRound_onBridge (by rw [hbridge]; exact hon), if_pos (h.hasLeft.trans hleft)]
  have ha := h.taken
  rw [harbiter] at ha
  have hfreed := State.vehicleLeft_freed h.idle.settled
  obtain ⟨⟨hentered, hexited, hmark⟩, -, hadvance, hwithheld⟩ := hfreed.left
  obtain ⟨hnoUse, hlisted, hothers⟩ := State.vehicleLeft_visits h.idle.capture
  have hstays := hfreed.stays
  have hgrants := hfreed.grants
  have hsettled := event_bridgeSettled u u.vehicleLeft
  have harm := congrArg CaptureUnit.arm (event_resettled hfreed.judged hfreed.holds).2.1
  rw [(State.vehicleLeft_capture h.idle.capture).2, hcapture, hbridge] at harm
  rw [hvisits, huse, hout] at hlisted
  rw [hvisits, huse] at hothers
  rw [ha] at hentered hexited hmark hadvance hwithheld hstays hgrants hsettled harm
  rw [hbridge] at hstays hgrants
  rw [State.vehicleLeft_bridge] at hstays hadvance hwithheld
  rw [h.bridge, h.capture]
  refine ⟨(congrArg Axles.entered h.counts).trans hentered, (congrArg Axles.exited h.counts).trans hexited,
    (congrArg Axles.axleCount h.counts).trans hmark, hadvance, hwithheld, harm, fun hwaiting => ?_,
    fun q hq hheld => ?_, fun hhold => ?_⟩
  · obtain ⟨hstate, -, hgrant, haVisits, haUse, haPorts⟩ := hstays (.inl hwaiting)
    obtain ⟨-, -, -, hA, hB, -⟩ := a.bridgeSettled_iff.1 hsettled
    have hred : ∀ e, a.bridge.aspectFor e = .red := fun e => by rw [Bridge.aspectFor, hgrant]
    refine ⟨hstate, hgrant, h.inUse.trans (haUse.trans hnoUse), hA.trans (hred _), hB.trans (hred _),
      fun q v hq hv => ⟨?_, fun hrun hprogress => ?_⟩, fun q hq => ?_⟩
    · rw [h.visits, haVisits]
      exact (hlisted q v hq hv).1
    · rw [h.ports hrun, haPorts]
      refine State.flush_ports_congr ?_ ?_
      · simp [hports]
      · rw [(hlisted q v hq hv).2 hprogress, State.postAll_outbox]
        rfl
    · rw [h.visits, haVisits]
      exact hothers q hq
  · exact hgrants (by rw [State.held, hbridge]; exact hheld) hq
  · obtain ⟨hstate, hwaits, -⟩ := hstays (.inr hhold)
    exact ⟨hstate, hwaits⟩

/-- R73: a low round, stable or the first after a start, ends OCCUPIED_UNKNOWN. -/
theorem State.Reaches.unknown_low (h : s.Reaches r u a t) (hstate : s.bridge.state = .occupiedUnknown)
    (hmark : s.bridge.startMark = true ∨ (s.judgedOn r).weigh.stable = true) {w : Int} (hr : r.rounded = some w)
    (hw : w < s.bus.table.occupancyKg) :
    t.axles.entered = 0 ∧ t.axles.exited = 0 ∧ t.bridge.startMark = false ∧
      (s.bridge.waiting = [] → t.bridge.state = .free ∧ t.bridge.grant = s.bridge.grant) ∧
      (∀ q, selectEntry s.bridge.waiting = some q → s.held = false →
        t.bridge.state = .granted ∧ t.bridge.grant = some { ident := q.ident, entryEnd := q.entryEnd }) := by
  obtain ⟨hbridge, -, -, -, hweigh, -⟩ := h.found
  have harbiter : u.arbiterTakesRound r = u.unknownEnds := by
    rw [State.arbiterTakesRound_unknown (by rw [hbridge]; exact hstate)]
    refine State.unknownTakesRound_low ?_ hr ?_
    · rwa [hbridge, hweigh, h.weighed.stable]
    · rwa [hweigh, h.weighed.table]
  have ha := h.taken
  rw [harbiter] at ha
  have hfreed := State.unknownEnds_freed h.idle.settled
  obtain ⟨⟨hentered, hexited, -⟩, hcleared, -⟩ := hfreed.left
  have hstays := hfreed.stays
  have hgrants := hfreed.grants
  rw [ha] at hentered hexited hcleared hstays hgrants
  rw [hbridge] at hstays hgrants
  rw [h.bridge]
  refine ⟨(congrArg Axles.entered h.counts).trans hentered, (congrArg Axles.exited h.counts).trans hexited, hcleared,
    fun hwaiting => ?_, fun q hq hheld => hgrants (by rw [State.held, hbridge]; exact hheld) hq⟩
  obtain ⟨hfree, -, hgrant, -⟩ := hstays (.inl hwaiting)
  exact ⟨hfree, by rw [hgrant, ← hbridge]; rfl⟩

/-- R73: a round at or above the threshold clears the start mark. -/
theorem State.Reaches.unknown_high (h : s.Reaches r u a t) (hstate : s.bridge.state = .occupiedUnknown) {w : Int}
    (hr : r.rounded = some w) (hw : s.bus.table.occupancyKg ≤ w) :
    t.bridge = { s.bridge with startMark := false } ∧ t.axles.entered = s.axles.entered := by
  obtain ⟨hbridge, -, -, -, hweigh, haxles, -⟩ := h.found
  have harbiter : u.arbiterTakesRound r = { u with bridge.startMark := false } := by
    rw [State.arbiterTakesRound_unknown (by rw [hbridge]; exact hstate)]
    exact State.unknownTakesRound_high hr (by rwa [hweigh, h.weighed.table])
  have ha : ({ u with bridge.startMark := false } : State) = a := by
    have hcleared : State.settled { u with bridge.startMark := false } = true := h.idle.settled
    rw [← h.taken, harbiter,
      event_untouched (s := u) hcleared rfl (changedRegions_same rfl rfl rfl rfl rfl rfl rfl) h.idle.commitNote]
  refine ⟨?_, (congrArg Axles.entered h.counts).trans ?_⟩
  · rw [h.bridge, ← ha, hbridge]
  · rw [← ha, haxles]

end

/-- Settles O16: the round comes to `State.Reaches`, of which the lemmas above say what each state of the bridge brings.
-/
theorem roundReachesZeroBridgeAndTrace : Obligations.RoundReachesZeroBridgeAndTrace := by
  intro s c r h hcapture j starts low onBridge
  obtain ⟨t, u, a, hexec, ht⟩ := exec_endsRound h hcapture
  obtain ⟨hbridge, -, -, -, hweigh, -⟩ := ht.found
  have hstay : onBridge → ¬(j.weigh.stable = true ∧ low ∧ s.axles.entered = s.axles.exited) →
      u.arbiterTakesRound r = u := by
    intro hon hnot
    rw [State.arbiterTakesRound_onBridge (by rw [hbridge]; exact hon),
      if_neg (by rw [ht.hasLeft, State.seesLeft_iff]; exact hnot)]
  refine ⟨t, hexec, ht.weighed.latest, ht.weighed.stable, ht.weighed.started, ht.weighed.kept, ht.lastStable_eq,
    fun hon hstable hlow heq => ht.left hon (State.seesLeft_iff.2 ⟨hstable, hlow, heq⟩), fun hon hnot => ?_,
    fun hfrozen ho hne => ?_, fun hunknown => ⟨fun hmark ⟨w, hr, hw⟩ => ht.unknown_low hunknown hmark hr hw,
      fun w hr hw => ht.unknown_high hunknown hr hw, fun hnone => ?_⟩, fun hfree => ?_, ht.rest⟩
  · obtain ⟨h1, h2, h3, h4, haxles⟩ := ht.unmoved (hstay hon hnot)
    rw [haxles]
    exact ⟨h1, h2, h3, h4, rfl, rfl, fun ho hthawed => State.traceAfter_occupied r hthawed ho⟩
  · obtain ⟨-, -, -, -, haxles⟩ := ht.unmoved (hstay (.inl ho) fun hleft => hne hleft.2.2)
    rw [haxles]
    exact State.traceAfter_frozen r hfrozen
  · have hnothing : u.arbiterTakesRound r = u := by
      rw [State.arbiterTakesRound_unknown (by rw [hbridge]; exact hunknown)]
      refine State.unknownTakesRound_none ?_
      rw [hbridge, hweigh, ht.weighed.stable]
      exact hnone
    obtain ⟨h1, -, -, -, haxles⟩ := ht.unmoved hnothing
    exact ⟨h1, by rw [haxles]⟩
  · have hnothing : u.arbiterTakesRound r = u :=
      State.arbiterTakesRound_else (by rw [hbridge]; exact hfree)
    obtain ⟨h1, -, -, -, haxles⟩ := ht.unmoved hnothing
    exact ⟨h1, by rw [haxles]⟩

end Sys2Proof.Machine
end

