-- ==== Sys2Proof/Proofs/BridgeView.lean ====
section
/-! What keeps the bridge consistent: the part of a state that its consistency is about, the consistency with the hold
that an event began with standing for the one in force, and what each operation of the bridge does to both. -/

namespace Sys2Proof.Machine

/-! ### The view of the bridge -/

/-- What the consistency of the bridge is about: the bridge state, whether a grant stands, the pause of its timer where
it runs, whether a capture waits, the arm, the quiet timer and the counts. -/
structure BridgeView where
  state : BridgeState
  granted : Bool
  timer : Option Bool
  waiting : Bool
  arm : Bool
  quiet : Bool
  entered : Nat
  exited : Nat

/-- The view of a state. -/
def State.bridgeView (s : State) : BridgeView :=
  { state := s.bridge.state, granted := s.bridge.grant.isSome, timer := s.bridge.grantTimer.map (·.paused)
    waiting := s.capture.waiting.isSome, arm := s.capture.arm, quiet := s.capture.quietTimer
    entered := s.axles.entered, exited := s.axles.exited }

/-- The consistency of `State.bridgeConsistent` with `held` for the hold in force: within an event the hold set changes
before its settling follows the change, so the rules of an event keep it for the hold that the event began with. -/
structure BridgeView.Consistent (held : Bool) (v : BridgeView) : Prop where
  granted : v.granted = true ↔ v.state = .granted ∨ v.state = .occupied ∨ v.state = .released
  timed : v.timer.isSome = true ↔ v.state = .granted
  paused : ∀ b, v.timer = some b → b = held
  waits : v.waiting = true → v.state = .occupied ∧ held = false
  armed : v.state ≠ .occupied → v.arm = false ∧ v.quiet = false
  counted : v.state ≠ .occupied → v.state ≠ .released → v.entered = 0 ∧ v.exited = 0
  ordered : v.exited ≤ v.entered ∧ v.entered ≤ 255

theorem State.bridgeConsistent_iff (s : State) : s.bridgeConsistent = true ↔ s.bridgeView.Consistent s.held := by
  have hg : ∀ b : Bool, (b == (s.bridge.state == .granted || s.bridge.state == .occupied || s.bridge.state == .released))
      = true ↔ (b = true ↔ s.bridge.state = .granted ∨ s.bridge.state = .occupied ∨ s.bridge.state = .released) := by
    intro b
    cases b <;> cases s.bridge.state <;> simp
  have ht : ∀ b : Bool, (b == (s.bridge.state == .granted)) = true ↔ (b = true ↔ s.bridge.state = .granted) := by
    intro b
    cases b <;> cases s.bridge.state <;> simp
  unfold State.bridgeConsistent State.bridgeView
  simp only [Bool.and_eq_true, hg, ht]
  constructor
  · rintro ⟨⟨⟨⟨⟨⟨h1, h2⟩, h3⟩, h4⟩, h5⟩, h6⟩, h7⟩
    refine ⟨h1, by simpa using h2, ?_, ?_, ?_, ?_, of_decide_eq_true h7⟩
    · intro b hb
      obtain ⟨t, ht, rfl⟩ := Option.map_eq_some_iff.1 hb
      simpa [ht] using h3
    · intro hw
      simpa [Option.isNone_iff_eq_none, hw, Option.isSome_iff_ne_none.1 hw] using h4
    · intro hs
      simpa [hs] using h5
    · intro ho hr
      simpa [ho, hr] using h6
  · rintro ⟨h1, h2, h3, h4, h5, h6, h7⟩
    refine ⟨⟨⟨⟨⟨⟨h1, by simpa using h2⟩, ?_⟩, ?_⟩, ?_⟩, ?_⟩, decide_eq_true h7⟩
    · cases hg : s.bridge.grantTimer with
      | none => rfl
      | some t => simpa using h3 t.paused (by simp [hg])
    · cases hw : s.capture.waiting with
      | none => rfl
      | some c =>
        obtain ⟨hs, hh⟩ := h4 (by simp [hw])
        simp only [] at hs
        simp [hs, hh]
    · by_cases hs : s.bridge.state = .occupied
      · simp [hs]
      · obtain ⟨ha, hq⟩ := h5 hs
        simp only [] at ha hq
        simp [ha, hq]
    · by_cases ho : s.bridge.state = .occupied
      · simp [ho]
      · by_cases hr : s.bridge.state = .released
        · simp [hr]
        · obtain ⟨he, hx⟩ := h6 ho hr
          simp only [] at he hx
          simp [he, hx]

/-! ### What an operation and an event keep -/

/-- An operation keeps the bridge consistent, whatever hold its event began with. -/
def KeepsBridge (s t : State) : Prop := ∀ held, s.bridgeView.Consistent held → t.bridgeView.Consistent held

theorem KeepsBridge.refl (s : State) : KeepsBridge s s := fun _ => id

theorem KeepsBridge.trans {s t u : State} (h : KeepsBridge s t) (k : KeepsBridge t u) : KeepsBridge s u :=
  fun held => k held ∘ h held

/-- An operation that changes nothing of the view. -/
theorem KeepsBridge.of_view {s t : State} (h : t.bridgeView = s.bridgeView) : KeepsBridge s t :=
  fun _ hs => h ▸ hs

theorem KeepsBridge.ite {c : Prop} [Decidable c] {s t u : State} (ht : KeepsBridge s t) (hu : KeepsBridge s u) :
    KeepsBridge s (if c then t else u) := by
  split
  · exact ht
  · exact hu

/-- Events, one or several, take a consistent bridge to a consistent bridge. -/
def EventsKeep (s t : State) : Prop := s.bridgeConsistent = true → t.bridgeConsistent = true

theorem EventsKeep.refl (s : State) : EventsKeep s s := id

theorem EventsKeep.trans {s t u : State} (h : EventsKeep s t) (k : EventsKeep t u) : EventsKeep s u := k ∘ h

/-- A change of neither the view nor the hold set, outside any event. -/
theorem EventsKeep.of_view {s t : State} (h : t.bridgeView = s.bridgeView) (hh : t.held = s.held) : EventsKeep s t := by
  unfold EventsKeep
  simp only [State.bridgeConsistent_iff, h, hh]
  exact id

theorem EventsKeep.ite {c : Prop} [Decidable c] {s t u : State} (ht : EventsKeep s t) (hu : EventsKeep s u) :
    EventsKeep s (if c then t else u) := by
  split
  · exact ht
  · exact hu

theorem EventsKeep.foldl {β : Type} {f : State → β → State} (h : ∀ a b, EventsKeep a (f a b)) (l : List β) (s : State) :
    EventsKeep s (l.foldl f s) := by
  induction l generalizing s with
  | nil => exact EventsKeep.refl s
  | cons b rest ih => exact (h s b).trans (ih _)

/-! ### Captures -/

/-- R45: a capture that ends leaves none waiting and no arm. -/
theorem State.endCapture_keepsBridge (s : State) (c : Capture) (outcome : Status) (round : Option Nat)
    (accepted : Option AcceptedCapture) : KeepsBridge s (s.endCapture c outcome round accepted) :=
  fun _ h =>
    { granted := h.granted, timed := h.timed, paused := h.paused, waits := nofun
      armed := fun ho => ⟨rfl, (h.armed ho).2⟩, counted := h.counted, ordered := h.ordered }

theorem State.refuseWaiting_keepsBridge (s : State) (code : Status) (round : Option Nat) :
    KeepsBridge s (s.refuseWaiting code round) := by
  unfold State.refuseWaiting
  split
  · exact KeepsBridge.refl s
  · exact s.endCapture_keepsBridge _ _ _ _

@[simp] theorem State.refuseWaiting_waiting (s : State) (code : Status) (round : Option Nat) :
    (s.refuseWaiting code round).capture.waiting = none := by
  unfold State.refuseWaiting
  split
  · assumption
  · rfl

@[simp] theorem State.refuseWaiting_quietTimer (s : State) (code : Status) (round : Option Nat) :
    (s.refuseWaiting code round).capture.quietTimer = s.capture.quietTimer := by
  unfold State.refuseWaiting
  split <;> rfl

/-- A grant timer paused or resumed as a hold comes into force or leaves it, no capture waiting. -/
theorem State.pauseGrantTimer_consistent {s : State} {before : Bool} (held : Bool)
    (h : s.bridgeView.Consistent before) (hw : s.capture.waiting = none) :
    (s.pauseGrantTimer held).bridgeView.Consistent held := by
  have hb := h.timed
  refine
    { granted := h.granted, timed := ?_, paused := ?_, waits := ?_, armed := h.armed, counted := h.counted
      ordered := h.ordered }
  · simpa [State.bridgeView, State.pauseGrantTimer] using hb
  · intro b hb
    obtain ⟨t, ht, rfl⟩ := Option.map_eq_some_iff.1 hb
    obtain ⟨t', -, rfl⟩ := Option.map_eq_some_iff.1 ht
    rfl
  · simp [State.bridgeView, hw]

/-! ### The settling of an event -/

/-- R53, R77, R78: the change of the hold set followed, the bridge is consistent with the hold in force. -/
theorem State.followHold_consistent {s : State} {before : Holds} (h : s.bridgeView.Consistent before.inForce) :
    (s.followHold before).bridgeView.Consistent s.held := by
  unfold State.followHold
  split
  · rename_i hc
    obtain ⟨-, hheld⟩ := Bool.and_eq_true_iff.1 hc
    have hr := s.refuseWaiting_keepsBridge .held none _ h
    rw [hheld]
    have hp : (s.pauseGrantTimer true).refuseWaiting .held none = (s.refuseWaiting .held none).pauseGrantTimer true := by
      unfold State.refuseWaiting
      split <;> split <;> simp_all [State.pauseGrantTimer, State.endCapture, State.post]
    rw [hp]
    exact State.pauseGrantTimer_consistent true hr (by simp)
  · split
    · rename_i hc
      simp only [Bool.and_eq_true, Bool.not_eq_true'] at hc
      rw [hc.2]
      refine State.pauseGrantTimer_consistent false h ?_
      cases hw : s.capture.waiting with
      | none => rfl
      | some c => exact absurd (h.waits (by simp [State.bridgeView, hw])).2 (by simp [hc.1])
    · rename_i h1 h2
      have he : s.held = before.inForce := by
        cases hb : before.inForce <;> cases hs : s.held <;> simp_all
      rwa [he]

theorem State.followPointSources_view (s : State) (before : Holds) :
    (s.followPointSources before).bridgeView = s.bridgeView := by simp [State.bridgeView]

/-- R64, R87: a grant at a FREE bridge with no hold in force. -/
theorem State.grantTo_keepsBridge {s : State} (q : QueueEntry) (h : s.bridgeView.Consistent false)
    (hf : s.bridge.state = .free) : (s.grantTo q).bridgeView.Consistent false := by
  have hw : s.capture.waiting.isSome = false := by
    cases hw : s.capture.waiting.isSome with
    | false => rfl
    | true => exact absurd (h.waits hw).1 (by simp [State.bridgeView, hf])
  obtain ⟨ha, hq⟩ := h.armed (by simp [State.bridgeView, hf])
  have hv : (s.grantTo q).bridgeView =
      { state := .granted, granted := true, timer := some false, waiting := false, arm := false, quiet := false
        entered := 0, exited := 0 } := by
    simp only [State.bridgeView] at ha hq
    simp [State.bridgeView, State.grantTo, Axles.atGrant, hw, ha, hq]
  rw [hv]
  exact ⟨by simp, by simp, by simp, nofun, fun _ => ⟨rfl, rfl⟩, fun _ _ => ⟨rfl, rfl⟩, by decide⟩

theorem State.grantIfDue_consistent {s : State} (h : s.bridgeView.Consistent s.held) :
    s.grantIfDue.bridgeView.Consistent s.held := by
  unfold State.grantIfDue
  split
  · rename_i hc
    simp only [Bool.and_eq_true, decide_eq_true_eq, Bool.not_eq_true'] at hc
    split
    · exact h
    · rw [hc.2] at h ⊢
      exact State.grantTo_keepsBridge _ h hc.1
  · exact h

theorem State.recommand_view (s : State) : s.recommand.bridgeView = s.bridgeView := by
  simp [State.bridgeView, s.recommand_spec]

/-- One pass of settling leaves a bridge that was consistent with the hold the event began with consistent with the hold
in force. -/
theorem State.settlePass_consistent {s : State} {before : Holds} (h : s.bridgeView.Consistent before.inForce) :
    (s.settlePass before).bridgeConsistent = true := by
  rw [State.bridgeConsistent_iff]
  have hj : s.judgeSources.bridgeView.Consistent before.inForce := h
  have hf := State.followHold_consistent hj
  have hp : ((s.judgeSources.followHold before).followPointSources before).held = s.judgeSources.held := by
    simp only [State.held, State.followPointSources_frame]
    rw [State.followHold_bridge]
  rw [← State.followPointSources_view _ before, ← hp] at hf
  have hg := State.grantIfDue_consistent hf
  unfold State.settlePass
  rw [State.recommand_view]
  simpa [State.held, State.recommand_spec, State.grantIfDue_spec] using hg

theorem State.settle_consistent {s : State} {before : Holds} (h : s.bridgeView.Consistent before.inForce) :
    (s.settle before).bridgeConsistent = true := by
  have hp := State.settlePass_consistent h
  unfold State.settle
  simp only []
  split
  · exact hp
  · exact State.settlePass_consistent ((State.bridgeConsistent_iff _).1 hp)

theorem event_consistent {s t : State} (h : t.bridgeView.Consistent s.held) : (event s t).bridgeConsistent = true := by
  have hs := (State.bridgeConsistent_iff _).1 (State.settle_consistent (before := s.bridge.holds) h)
  rw [State.bridgeConsistent_iff]
  unfold event
  simpa [State.bridgeView, State.held] using hs

/-- An event whose rule keeps the bridge consistent with the hold it found. -/
theorem EventsKeep.event_of {s t : State} (h : s.bridgeView.Consistent s.held → t.bridgeView.Consistent s.held) :
    EventsKeep s (event s t) := fun hs => event_consistent (h ((State.bridgeConsistent_iff s).1 hs))

theorem KeepsBridge.event {s t : State} (h : KeepsBridge s t) : EventsKeep s (event s t) := EventsKeep.event_of (h _)

end Sys2Proof.Machine
end

