-- ==== Sys2Proof/Proofs/BridgeOperations.lean ====
section
/-! What the operations of the blocks keep of the bridge's consistency. -/

namespace Sys2Proof.Machine

/-! ### Counts and marks that stay -/

@[simp] theorem State.testAxleCount_counts (s : State) :
    s.testAxleCount.axles.entered = s.axles.entered ∧ s.testAxleCount.axles.exited = s.axles.exited := by
  unfold State.testAxleCount
  split
  · simp
  · split
    · simp
    · split <;> simp

@[simp] theorem State.freezeTrace_counts (s : State) (reason : FreezeReason) (id : Ident) (r : RoundValues)
    (draft : Option Nat) :
    (s.freezeTrace reason id r draft).axles.entered = s.axles.entered ∧
      (s.freezeTrace reason id r draft).axles.exited = s.axles.exited := by
  unfold State.freezeTrace
  split <;> simp

@[simp] theorem State.traceTakesRound_counts (s : State) (r : RoundValues) :
    (s.traceTakesRound r).axles.entered = s.axles.entered ∧ (s.traceTakesRound r).axles.exited = s.axles.exited := by
  unfold State.traceTakesRound
  split
  · simp
  · split <;> simp

@[simp] theorem State.endVisitUse_counts (s : State) (left : Bool) :
    (s.endVisitUse left).axles.entered = s.axles.entered ∧ (s.endVisitUse left).axles.exited = s.axles.exited := by
  unfold State.endVisitUse
  split
  · simp
  · split
    · simp
    · simp only []
      split <;> simp

@[simp] theorem State.disagree_counts (s : State) (e : BridgeEnd) (dir : AxleDir) :
    (s.disagree e dir).axles.entered = s.axles.entered ∧ (s.disagree e dir).axles.exited = s.axles.exited := by
  simp [State.disagree]

@[simp] theorem State.overSteps_counts (s : State) (id : Ident) (d : DraftResult) (r : RoundValues) :
    (s.overSteps id d r).axles.entered = s.axles.entered ∧ (s.overSteps id d r).axles.exited = s.axles.exited := by
  unfold State.overSteps
  split <;> simp

@[simp] theorem State.feedbackExpires_view (s : State) (e : BridgeEnd) :
    (s.feedbackExpires e).bridgeView = s.bridgeView := by
  unfold State.feedbackExpires
  split <;> simp [State.bridgeView]

/-! ### The bridge leaves a state -/

/-- R54, R56: a bridge that leaves OCCUPIED leaves no capture waiting, no arm and no quiet timer. -/
theorem State.moveBridge_view (s : State) {b : BridgeState} (hs : s.bridge.state = .occupied) (hb : b ≠ .occupied) :
    (s.moveBridge b).bridgeView =
      { s.bridgeView with state := b, waiting := false, arm := false, quiet := false } := by
  unfold State.moveBridge
  rw [if_pos (by simp [hs, hb])]
  simp [State.bridgeView, State.leaveOccupied]

/-- R70: an OCCUPIED bridge is RELEASED with its grant. -/
theorem State.moveBridge_released_consistent {s : State} {held : Bool} (h : s.bridgeView.Consistent held)
    (hs : s.bridge.state = .occupied) : (s.moveBridge .released).bridgeView.Consistent held := by
  have hv : s.bridgeView.state = .occupied := hs
  rw [s.moveBridge_view hs (by decide)]
  exact
    { granted := by simpa [hv] using h.granted
      timed := by simpa [hv] using h.timed
      paused := h.paused, waits := nofun, armed := fun _ => ⟨rfl, rfl⟩
      counted := fun _ hr => absurd rfl hr, ordered := h.ordered }

/-- Nothing waits and nothing is armed at a bridge that is not OCCUPIED. -/
theorem State.idle_of_not_occupied {s : State} {held : Bool} (h : s.bridgeView.Consistent held)
    (ho : s.bridge.state ≠ .occupied) :
    s.capture.waiting.isSome = false ∧ s.capture.arm = false ∧ s.capture.quietTimer = false := by
  refine ⟨?_, h.armed ho⟩
  cases hw : s.capture.waiting.isSome with
  | false => rfl
  | true => exact absurd (h.waits hw).1 ho

/-- A bridge without a grant: no timer, no capture, no axle. -/
theorem BridgeView.consistent_vacant {held : Bool} {b : BridgeState} (hb : b = .free ∨ b = .occupiedUnknown) :
    ({ state := b, granted := false, timer := none, waiting := false, arm := false, quiet := false, entered := 0
       exited := 0 } : BridgeView).Consistent held := by
  rcases hb with rfl | rfl <;>
    exact ⟨by simp, by simp, nofun, nofun, fun _ => ⟨rfl, rfl⟩, fun _ _ => ⟨rfl, rfl⟩, by decide⟩

/-- R71, R72: the vehicle has left. -/
theorem State.vehicleLeft_keepsBridge (s : State) : KeepsBridge s s.vehicleLeft := by
  intro held h
  have hv : s.vehicleLeft.bridgeView =
      { state := .free, granted := false, timer := none, waiting := (s.moveBridge .free).capture.waiting.isSome
        arm := (s.moveBridge .free).capture.arm, quiet := (s.moveBridge .free).capture.quietTimer
        entered := 0, exited := 0 } := by
    simp [State.bridgeView, State.vehicleLeft, State.zeroCounts, State.moveBridge]
  obtain ⟨hw, ha, hq⟩ : (s.moveBridge .free).capture.waiting.isSome = false ∧ (s.moveBridge .free).capture.arm = false ∧
      (s.moveBridge .free).capture.quietTimer = false := by
    by_cases ho : s.bridge.state = .occupied
    · have hm := s.moveBridge_view (b := .free) ho (by decide)
      exact ⟨congrArg BridgeView.waiting hm, congrArg BridgeView.arm hm, congrArg BridgeView.quiet hm⟩
    · rw [State.moveBridge, if_neg (by simp [ho])]
      exact State.idle_of_not_occupied (s := s) h ho
  rw [hv, hw, ha, hq]
  exact BridgeView.consistent_vacant (.inl rfl)

/-- R73: OCCUPIED_UNKNOWN returns to FREE. -/
theorem State.unknownEnds_consistent {s : State} {held : Bool} (h : s.bridgeView.Consistent held)
    (hs : s.bridge.state = .occupiedUnknown) : s.unknownEnds.bridgeView.Consistent held := by
  obtain ⟨hw, ha, hq⟩ := State.idle_of_not_occupied h (by simp [hs])
  have hg : s.bridge.grant = none := by simpa [State.bridgeView, hs] using h.granted
  have ht : s.bridge.grantTimer = none := by simpa [State.bridgeView, hs] using h.timed
  have hv : s.unknownEnds.bridgeView =
      { state := .free, granted := false, timer := none, waiting := false, arm := false, quiet := false, entered := 0
        exited := 0 } := by
    simp [State.bridgeView, State.unknownEnds, State.zeroCounts, hg, ht, ha, hq]
    simpa using hw
  rw [hv]
  exact BridgeView.consistent_vacant (.inl rfl)

/-- A bridge whose grant is withdrawn before the first axle, or that had none: R67, R68. -/
theorem State.vacated_consistent {s t : State} {held : Bool} {b : BridgeState} (h : s.bridgeView.Consistent held)
    (hs : s.bridge.state = .free ∨ s.bridge.state = .granted) (hb : b = .free ∨ b = .occupiedUnknown)
    (hc : t.capture = s.capture) (he : t.axles.entered = s.axles.entered) (hx : t.axles.exited = s.axles.exited)
    (hst : t.bridge.state = b) (hg : t.bridge.grant = none) (ht : t.bridge.grantTimer = none) :
    t.bridgeView.Consistent held := by
  have ho : s.bridge.state ≠ .occupied := by rcases hs with hs | hs <;> simp [hs]
  have hr : s.bridge.state ≠ .released := by rcases hs with hs | hs <;> simp [hs]
  obtain ⟨hw, ha, hq⟩ := State.idle_of_not_occupied h ho
  obtain ⟨hentered, hexited⟩ := h.counted ho hr
  have hv : t.bridgeView =
      { state := b, granted := false, timer := none, waiting := false, arm := false, quiet := false, entered := 0
        exited := 0 } := by
    simp only [State.bridgeView] at hentered hexited
    simp [State.bridgeView, hc, he, hx, hst, hg, ht, ha, hq, hentered, hexited]
    simpa using hw
  rw [hv]
  exact BridgeView.consistent_vacant hb

/-- R67: a no-show, at a GRANTED bridge alone. -/
theorem State.grantExpires_keepsBridge (s : State) : KeepsBridge s s.grantExpires := by
  intro held h
  unfold State.grantExpires
  split
  · rename_i t g ht hg
    split
    · exact h
    · have hs : s.bridge.state = .granted := h.timed.1 (by simp [State.bridgeView, ht])
      refine State.vacated_consistent h (.inr hs) (.inl rfl) ?_ ?_ ?_ ?_ ?_ ?_ <;>
        simp [State.noShow, State.withdrawGrant]
  · exact h

/-- R68: an intrusion at a FREE or GRANTED bridge. -/
theorem State.intrude_consistent {s : State} {held : Bool} (e : BridgeEnd) (h : s.bridgeView.Consistent held)
    (hs : s.bridge.state = .free ∨ s.bridge.state = .granted) : (s.intrude e).bridgeView.Consistent held := by
  have hfree : s.bridge.grant = none → s.bridge.grantTimer = none := by
    intro hg
    rcases hs with hs | hs
    · simpa [State.bridgeView, hs] using h.timed
    · have := h.granted
      simp [State.bridgeView, hs, hg] at this
  refine State.vacated_consistent h hs (.inr rfl) ?_ ?_ ?_ ?_ ?_ ?_ <;> unfold State.intrude <;> simp only []
  all_goals
    cases hg : s.bridge.grant <;> simp [State.withdrawGrant, hg, hfree]

/-! ### Axles -/

/-- R83: a counted event keeps 0 ≤ exited ≤ entered ≤ 255. -/
theorem treadleChange_ordered {atEntry : Bool} {dir : AxleDir} {entered exited m n : Nat}
    (h : treadleChange atEntry dir entered exited = some (m, n)) : n ≤ m ∧ m ≤ 255 := by
  simp only [treadleChange, Option.ite_none_right_eq_some, Option.some.injEq, Prod.mk.injEq] at h
  obtain ⟨⟨he, hx, hle, hmax⟩, rfl, rfl⟩ := h
  omega

/-- R83: with no axle on the bridge an outward event is a disagreement. -/
theorem treadleChange_outward_empty (atEntry : Bool) : treadleChange atEntry .outward 0 0 = none := by
  cases atEntry <;> decide

/-- R83, R84: an event counted at the bridge, where axles may be counted; elsewhere a disagreement. -/
theorem State.countAxle_consistent {s : State} {held : Bool} (e : BridgeEnd) (dir : AxleDir) (entryEnd : BridgeEnd)
    (h : s.bridgeView.Consistent held)
    (hc : s.bridge.state = .occupied ∨ s.bridge.state = .released ∨
      treadleChange (e = entryEnd) dir s.axles.entered s.axles.exited = none) :
    (s.countAxle e dir entryEnd).1.bridgeView.Consistent held := by
  unfold State.countAxle
  split
  · rename_i entered exited ht
    have hs : s.bridge.state = .occupied ∨ s.bridge.state = .released := by
      rcases hc with hc | hc | hc
      · exact .inl hc
      · exact .inr hc
      · simp [hc] at ht
    have hv : (({ s with axles.entered := entered, axles.exited := exited } : State).testAxleCount).bridgeView =
        { s.bridgeView with entered := entered, exited := exited } := by simp [State.bridgeView]
    simp only [hv]
    exact
      { granted := h.granted, timed := h.timed, paused := h.paused, waits := h.waits, armed := h.armed
        counted := fun ho hr => absurd hs (not_or.2 ⟨ho, hr⟩)
        ordered := treadleChange_ordered ht }
  · have hv : (s.disagree e dir).bridgeView = s.bridgeView := by simp [State.bridgeView]
    simpa only [hv] using h

/-- R51, R56, R69: an event passed on sets the arm and the quiet timer at an OCCUPIED bridge alone. -/
theorem State.passOn_keepsBridge (s : State) (e : TraceEvent) : KeepsBridge s (s.passOn e) := by
  intro held h
  unfold State.passOn
  simp only []
  split
  · rename_i ho
    exact
      { granted := h.granted, timed := h.timed, paused := h.paused
        waits := by simpa [State.bridgeView] using h.waits
        armed := fun hno => absurd ho hno, counted := h.counted, ordered := h.ordered }
  · have hv : State.bridgeView
        { s with
          capture.waiting := s.capture.waiting.map (fun c => { c with restart := some s.weigh.rounds })
          bridge.advance := false } = s.bridgeView := by simp [State.bridgeView]
    rw [hv]
    exact h

/-- R66: the first axle at the entry treadle of a GRANTED bridge. -/
theorem State.enterBridge_consistent {s t : State} {held : Bool} (h : s.bridgeView.Consistent held)
    (hs : s.bridge.state = .granted) (ht : t.bridge.grant = s.bridge.grant) (hc : t.capture = s.capture)
    (ho : t.axles.exited ≤ t.axles.entered ∧ t.axles.entered ≤ 255) : t.enterBridge.bridgeView.Consistent held := by
  obtain ⟨hw, -, -⟩ := State.idle_of_not_occupied h (by simp [hs])
  have hg : s.bridge.grant.isSome = true := h.granted.2 (.inl hs)
  refine ⟨?_, ?_, nofun, ?_, fun hno => absurd rfl hno, fun hno => absurd rfl hno, ho⟩
  · simp [State.bridgeView, State.enterBridge, ht, hg]
  · simp [State.bridgeView, State.enterBridge]
  · intro hwaits
    have : s.capture.waiting.isSome = true := by simpa [State.bridgeView, State.enterBridge, hc] using hwaits
    simp [hw] at this

/-- The counts after a treadle event. -/
theorem State.countAxle_ordered {s : State} {held : Bool} (e : BridgeEnd) (dir : AxleDir) (entryEnd : BridgeEnd)
    (h : s.bridgeView.Consistent held) :
    (s.countAxle e dir entryEnd).1.axles.exited ≤ (s.countAxle e dir entryEnd).1.axles.entered ∧
      (s.countAxle e dir entryEnd).1.axles.entered ≤ 255 := by
  unfold State.countAxle
  split
  · rename_i ht
    simpa using treadleChange_ordered ht
  · simpa [State.bridgeView] using h.ordered

/-- R82: an event at a GRANTED, OCCUPIED or RELEASED bridge that is no intrusion. -/
theorem State.crossAxle_consistent {s : State} {held : Bool} (e : BridgeEnd) (dir : AxleDir) (g : Grant)
    (h : s.bridgeView.Consistent held)
    (hs : s.bridge.state = .occupied ∨ s.bridge.state = .released ∨
      (s.bridge.state = .granted ∧ ¬(dir = .inward ∧ e ≠ g.entryEnd))) :
    (s.crossAxle e dir g).bridgeView.Consistent held := by
  unfold State.crossAxle
  simp only []
  refine State.passOn_keepsBridge _ _ _ ?_
  split
  · rename_i hc
    exact State.enterBridge_consistent h hc.1 (by simp) (by simp) (State.countAxle_ordered e dir g.entryEnd h)
  · rename_i hc
    refine State.countAxle_consistent e dir g.entryEnd h ?_
    rcases hs with hs | hs | ⟨hs, hin⟩
    · exact .inl hs
    · exact .inr (.inl hs)
    · obtain ⟨he, hx⟩ := h.counted (by simp [State.bridgeView, hs]) (by simp [State.bridgeView, hs])
      simp only [State.bridgeView] at he hx
      have hd : dir = .outward := by
        cases dir with
        | outward => rfl
        | inward =>
          by_cases hend : e = g.entryEnd
          · exact absurd ⟨hs, rfl, hend⟩ hc
          · exact absurd ⟨rfl, hend⟩ hin
      rw [he, hx, hd]
      exact .inr (.inr (treadleChange_outward_empty _))

/-- R82, R66, R68: what a treadle event brings. -/
theorem State.treadle_keepsBridge (s : State) (e : BridgeEnd) (dir : AxleDir) : KeepsBridge s (s.treadle e dir) := by
  intro held h
  unfold State.treadle
  split
  · exact h
  · rename_i hs
    split
    · exact State.intrude_consistent e h (.inl hs)
    · exact h
  · rename_i g hs hg
    split
    · exact State.intrude_consistent e h (.inr hs)
    · rename_i hno
      exact State.crossAxle_consistent e dir g h (.inr (.inr ⟨hs, hno⟩))
  · rename_i g hs hg
    exact State.crossAxle_consistent e dir g h (.inl hs)
  · rename_i g hs hg
    exact State.crossAxle_consistent e dir g h (.inr (.inl hs))
  · exact h

/-! ### Captures begun and completed -/

/-- R47: a capture that nothing refuses begins at an OCCUPIED bridge with no hold in force. -/
theorem State.captureRefusal_none {s : State} (h : s.captureRefusal = none) :
    s.bridge.state = .occupied ∧ s.held = false := by
  have hall := refusal_eq_none.1 h
  simp only [List.mem_cons, List.not_mem_nil, or_false, forall_eq_or_imp, Bool.or_eq_false_iff,
    decide_eq_false_iff_not, not_not] at hall
  exact ⟨hall.1.1, hall.2.1⟩

theorem State.beginCapture_consistent {s : State} (o : Origin) (h : s.bridgeView.Consistent s.held)
    (hr : s.captureRefusal = none) : (s.beginCapture o).bridgeView.Consistent s.held :=
  { granted := h.granted, timed := h.timed, paused := h.paused, waits := fun _ => State.captureRefusal_none (s := s) hr
    armed := h.armed, counted := h.counted, ordered := h.ordered }

/-- R57: a capture refused at once clears the arm. -/
theorem State.refuseAtOnce_keepsBridge (s : State) (o : Origin) (code : Status) :
    KeepsBridge s (s.refuseAtOnce o code) :=
  fun _ h =>
    { granted := h.granted, timed := h.timed, paused := h.paused, waits := h.waits
      armed := fun ho => ⟨rfl, (h.armed ho).2⟩, counted := h.counted, ordered := h.ordered }

theorem State.attemptAuto_consistent {s : State} (h : s.bridgeView.Consistent s.held) :
    s.attemptAuto.bridgeView.Consistent s.held := by
  unfold State.attemptAuto
  split
  · exact s.refuseAtOnce_keepsBridge _ _ _ h
  · rename_i hr
    exact State.beginCapture_consistent .auto h hr

theorem State.quietExpires_consistent {s : State} (h : s.bridgeView.Consistent s.held) :
    s.quietExpires.bridgeView.Consistent s.held := by
  have hstopped : State.bridgeView { s with capture.quietTimer := false } = { s.bridgeView with quiet := false } := rfl
  have ht : (State.bridgeView { s with capture.quietTimer := false }).Consistent s.held := by
    rw [hstopped]
    exact
      { granted := h.granted, timed := h.timed, paused := h.paused, waits := h.waits
        armed := fun ho => ⟨(h.armed ho).1, rfl⟩, counted := h.counted, ordered := h.ordered }
  unfold State.quietExpires
  split
  · exact h
  · simp only []
    split
    · exact ht
    · exact State.attemptAuto_consistent (s := { s with capture.quietTimer := false }) ht

/-- R69: the report of an accepted draft, no capture waiting any more, releases an OCCUPIED bridge or leaves it. -/
theorem State.reportDraft_consistent {s : State} {held : Bool} (id : Ident) (anyOver completed : Bool)
    (h : s.bridgeView.Consistent held) (ho : s.bridge.state = .occupied) :
    (s.reportDraft id anyOver completed).bridgeView.Consistent held := by
  unfold State.reportDraft
  simp only []
  split
  · exact h
  · split
    · simpa [State.bridgeView] using h
    · exact State.moveBridge_released_consistent (by exact h) ho

theorem State.acceptCapture_consistent {s : State} {held : Bool} (c : Capture) (d : DraftResult) (r : RoundValues)
    (h : s.bridgeView.Consistent held) (ho : s.bridge.state = .occupied) :
    (s.acceptCapture c d r).bridgeView.Consistent held := by
  unfold State.acceptCapture
  have he := s.endCapture_keepsBridge c .accepted (some r.index)
    (some { round := r.index, weight := r.rounded.getD 0, draft := d.draft.used }) _ h
  exact State.reportDraft_consistent _ _ _ (by simpa [State.bridgeView] using he) (by simpa using ho)

theorem State.refuseStraddle_keepsBridge (s : State) (c : Capture) (r : RoundValues) (a b m : Nat)
    (decks : List Nat) : KeepsBridge s (s.refuseStraddle c r a b m decks) :=
  (KeepsBridge.of_view (by simp [State.bridgeView])).trans (State.endCapture_keepsBridge _ _ _ _ _)

/-- R113, R114: the tables take a completed weighing without the bridge. -/
theorem State.completeFirst_view {s : State} {p : Nat} {v : Visit} {r : WeighRecord} {t : State}
    (h : s.completeFirst p v r = .ok t) : t.bridgeView = s.bridgeView ∧ t.bridge = s.bridge := by
  unfold State.completeFirst at h
  split at h
  · simp only [] at h
    split at h <;> cases h <;> simp [State.bridgeView]
  · split at h
    · simp only [] at h
      split at h
      · split at h
        · cases h
        · cases h
          simp [State.bridgeView]
      · cases h
        simp [State.bridgeView]
      · cases h
        simp [State.bridgeView]
    · cases h
      simp [State.bridgeView]

theorem State.takeDraft_view {s : State} {p : Nat} {v : Visit} {d : DraftResult} {t : State}
    (h : s.takeDraft p v d = .ok t) : t.bridgeView = s.bridgeView ∧ t.bridge = s.bridge := by
  unfold State.takeDraft at h
  split at h
  · cases h
    exact ⟨rfl, rfl⟩
  · split at h
    · unfold State.completeSecond at h
      split at h
      · cases h
      · simp only [] at h
        split at h <;> cases h <;> simp [State.bridgeView]
    · exact State.completeFirst_view h

theorem State.handOff_consistent {s : State} {held : Bool} (c : Capture) (r : RoundValues) (p : Nat) (v : Visit)
    (h : s.bridgeView.Consistent held) (ho : s.bridge.state = .occupied) :
    (s.handOff c r p v).bridgeView.Consistent held := by
  unfold State.handOff
  split
  · exact s.endCapture_keepsBridge _ _ _ _ _ h
  · exact s.refuseStraddle_keepsBridge _ _ _ _ _ _ _ h
  · split
    · exact s.endCapture_keepsBridge _ _ _ _ _ h
    · rename_i ht
      obtain ⟨hv, hb⟩ := State.takeDraft_view ht
      exact State.acceptCapture_consistent _ _ _ (hv ▸ h) (hb ▸ ho)

theorem State.completeCapture_consistent {s : State} {held : Bool} (c : Capture) (r : RoundValues)
    (h : s.bridgeView.Consistent held) (ho : s.bridge.state = .occupied) :
    (s.completeCapture c r).bridgeView.Consistent held := by
  have hend := fun code => s.endCapture_keepsBridge c code (some r.index) none _ h
  unfold State.completeCapture
  split
  · exact hend _
  · split
    · exact hend _
    · split
      · split
        · exact State.handOff_consistent _ _ _ _ h ho
        · exact hend _
      · exact hend _

/-- R49: a capture waits at an OCCUPIED bridge alone, so a round completes it there. -/
theorem State.captureTakesRound_keepsBridge (s : State) (r : RoundValues) : KeepsBridge s (s.captureTakesRound r) := by
  intro held h
  unfold State.captureTakesRound
  split
  · exact h
  · rename_i c hw
    split
    · exact State.completeCapture_consistent c r h (h.waits (by simp [State.bridgeView, hw])).1
    · exact h

/-- R71, R73: what the Bridge Arbiter makes of a round. -/
theorem State.arbiterTakesRound_keepsBridge (s : State) (r : RoundValues) : KeepsBridge s (s.arbiterTakesRound r) := by
  intro held h
  unfold State.arbiterTakesRound
  split
  · exact KeepsBridge.ite s.vehicleLeft_keepsBridge (KeepsBridge.refl s) _ h
  · exact KeepsBridge.ite s.vehicleLeft_keepsBridge (KeepsBridge.refl s) _ h
  · rename_i hs
    have hends := State.unknownEnds_consistent h hs
    unfold State.unknownTakesRound
    split
    · exact h
    · split
      · split
        · exact hends
        · exact h
      · split
        · exact hends
        · exact h
  · exact h

end Sys2Proof.Machine
end

