-- ==== Sys2Proof/Proofs/BridgeRequests.lean ====
section
/-! What the requests of the ports keep of the bridge's consistency. -/

namespace Sys2Proof.Machine

/-- What a request's rule makes, where it is not refused, is consistent with the hold that the request found. -/
def ruleKeepsBridge (s : State) (taken : Taken) : Prop :=
  match taken with
  | .error _ => True
  | .ok r => s.bridgeView.Consistent s.held → r.1.bridgeView.Consistent s.held

/-- A request whose rule leaves the view as it was. -/
theorem ruleKeepsBridge_of_view {s t : State} {st : Status} {c : Content} (h : t.bridgeView = s.bridgeView) :
    ruleKeepsBridge s (.ok (t, st, c)) := KeepsBridge.of_view h _

theorem orRefuse_keepsBridge {s t : State} {why : Option Status} {st : Status} {c : Content}
    (h : why = none → s.bridgeView.Consistent s.held → t.bridgeView.Consistent s.held) :
    ruleKeepsBridge s (orRefuse why t st c) := by
  cases why with
  | none => exact h rfl
  | some code => trivial

theorem orRefuse_keepsBridge_of_view {s t : State} {why : Option Status} {st : Status} {c : Content}
    (h : t.bridgeView = s.bridgeView) : ruleKeepsBridge s (orRefuse why t st c) :=
  orRefuse_keepsBridge (fun _ => KeepsBridge.of_view h _)

/-! ### The bridge's own requests -/

theorem requestCapture_keepsBridge (p : Port) (tag : Octet) (s : State) :
    ruleKeepsBridge s (requestCapture p tag s) := by
  unfold requestCapture
  split
  · exact s.refuseAtOnce_keepsBridge _ _ _
  · rename_i hr
    exact fun h => State.beginCapture_consistent _ h hr

theorem releaseVehicle_keepsBridge (s : State) : ruleKeepsBridge s (releaseVehicle s) :=
  orRefuse_keepsBridge (fun hr h =>
    State.moveBridge_released_consistent (by exact h) (by simpa using hr))

theorem clearBridge_keepsBridge (s : State) : ruleKeepsBridge s (clearBridge s) :=
  orRefuse_keepsBridge (fun _ h => by
    split
    · rename_i hs
      exact State.unknownEnds_consistent h hs
    · exact s.vehicleLeft_keepsBridge _ h)

theorem reportArrival_keepsBridge (payload : List Octet) (s : State) : ruleKeepsBridge s (reportArrival payload s) := by
  have hb : s.bridge.renumber.state = s.bridge.state ∧ s.bridge.renumber.grant = s.bridge.grant ∧
      s.bridge.renumber.grantTimer = s.bridge.grantTimer := by
    unfold Bridge.renumber
    split <;> simp
  obtain ⟨hs, hg, ht⟩ := hb
  unfold reportArrival
  split
  · split
    · trivial
    · exact orRefuse_keepsBridge_of_view (by simp [State.bridgeView, State.append, hs, hg, ht])
  · trivial

theorem withdrawArrival_keepsBridge (payload : List Octet) (s : State) :
    ruleKeepsBridge s (withdrawArrival payload s) := by
  unfold withdrawArrival
  split
  · trivial
  · exact orRefuse_keepsBridge_of_view rfl

theorem restartWeighing_keepsBridge (s : State) : ruleKeepsBridge s (restartWeighing s) :=
  orRefuse_keepsBridge_of_view (by simp [State.bridgeView])

/-! ### Requests that leave the view -/

theorem fetchNotice_keepsBridge (p : Port) (s : State) : ruleKeepsBridge s (fetchNotice p s) := by
  unfold fetchNotice
  split <;> exact ruleKeepsBridge_of_view (by simp [State.bridgeView])

theorem restartRequest_keepsBridge (s : State) : ruleKeepsBridge s (restartRequest s) :=
  orRefuse_keepsBridge_of_view (by simp [State.bridgeView])

theorem zeroSet_keepsBridge (s : State) : ruleKeepsBridge s (zeroSet s) :=
  orRefuse_keepsBridge_of_view (by split <;> simp [State.bridgeView])

theorem expireVisits_keepsBridge (payload : List Octet) (s : State) : ruleKeepsBridge s (expireVisits payload s) := by
  unfold expireVisits
  simp only []
  split
  · exact ruleKeepsBridge_of_view rfl
  · trivial

theorem openVisit_keepsBridge (payload : List Octet) (s : State) : ruleKeepsBridge s (openVisit payload s) := by
  unfold openVisit
  split
  · trivial
  · simp only []
    split
    · trivial
    · split
      · trivial
      · exact ruleKeepsBridge_of_view rfl

theorem amendVisit_keepsBridge (payload : List Octet) (s : State) : ruleKeepsBridge s (amendVisit payload s) := by
  unfold amendVisit
  split
  · trivial
  · split
    · trivial
    · exact orRefuse_keepsBridge_of_view (by split <;> simp [State.bridgeView])

theorem cancelVisit_keepsBridge (payload : List Octet) (s : State) : ruleKeepsBridge s (cancelVisit payload s) := by
  unfold cancelVisit
  split
  · trivial
  · split
    · trivial
    · split
      · trivial
      · exact ruleKeepsBridge_of_view rfl

theorem checkTare_keepsBridge (payload : List Octet) (s : State) : ruleKeepsBridge s (checkTare payload s) := by
  unfold checkTare
  split
  · trivial
  · exact ruleKeepsBridge_of_view rfl

theorem State.storeTare_view {s : State} {t : Tare} {u : State} {slot : Nat} (h : s.storeTare t = some (u, slot)) :
    u.bridgeView = s.bridgeView := by
  unfold State.storeTare at h
  simp only [] at h
  split at h <;> cases h <;> rfl

theorem keyTare_keepsBridge (payload : List Octet) (s : State) : ruleKeepsBridge s (keyTare payload s) := by
  unfold keyTare
  split
  · trivial
  · simp only []
    split
    · trivial
    · split
      · trivial
      · rename_i hu
        split
        · exact ruleKeepsBridge_of_view (by simpa [State.bridgeView] using State.storeTare_view hu)
        · trivial

theorem deleteTare_keepsBridge (p : Port) (payload : List Octet) (s : State) :
    ruleKeepsBridge s (deleteTare p payload s) := by
  unfold deleteTare
  split
  · trivial
  · split
    · trivial
    · split
      · trivial
      · exact ruleKeepsBridge_of_view rfl

theorem rollTicketSeries_keepsBridge (s : State) : ruleKeepsBridge s (rollTicketSeries s) :=
  orRefuse_keepsBridge_of_view (by simp [State.bridgeView])

theorem collectTickets_keepsBridge (payload : List Octet) (s : State) :
    ruleKeepsBridge s (collectTickets payload s) := by
  unfold collectTickets
  simp only []
  split
  · trivial
  · split
    · trivial
    · exact ruleKeepsBridge_of_view rfl

theorem writeParameter_keepsBridge (payload : List Octet) (s : State) :
    ruleKeepsBridge s (writeParameter payload s) := by
  unfold writeParameter
  simp only []
  split
  · trivial
  · exact orRefuse_keepsBridge_of_view rfl

theorem calibrateZero_keepsBridge (payload : List Octet) (s : State) : ruleKeepsBridge s (calibrateZero payload s) := by
  unfold calibrateZero
  simp only []
  split
  · trivial
  · split
    · trivial
    · split
      · trivial
      · split
        · exact ruleKeepsBridge_of_view rfl
        · trivial

theorem calibrateSpan_keepsBridge (payload : List Octet) (s : State) : ruleKeepsBridge s (calibrateSpan payload s) := by
  unfold calibrateSpan
  simp only []
  split
  · trivial
  · split
    · trivial
    · split
      · trivial
      · split
        · trivial
        · exact ruleKeepsBridge_of_view rfl

theorem commitCalibration_keepsBridge (s : State) : ruleKeepsBridge s (commitCalibration s) := by
  unfold commitCalibration
  split
  · trivial
  · split
    · trivial
    · split
      · exact ruleKeepsBridge_of_view rfl
      · exact orRefuse_keepsBridge_of_view (by simp [State.bridgeView])

theorem testPoint_keepsBridge (payload : List Octet) (s : State) : ruleKeepsBridge s (testPoint payload s) := by
  unfold testPoint
  simp only []
  split
  · trivial
  · exact orRefuse_keepsBridge_of_view rfl

theorem endVerification_keepsBridge (s : State) : ruleKeepsBridge s (endVerification s) := by
  unfold endVerification
  split
  · trivial
  · exact orRefuse_keepsBridge_of_view (by simp [State.bridgeView])

theorem abortVerification_keepsBridge (s : State) : ruleKeepsBridge s (abortVerification s) := by
  unfold abortVerification
  split
  · trivial
  · exact ruleKeepsBridge_of_view (by simp [State.bridgeView])

theorem discardSnapshot_keepsBridge (payload : List Octet) (s : State) :
    ruleKeepsBridge s (discardSnapshot payload s) := by
  unfold discardSnapshot
  split
  · trivial
  · exact orRefuse_keepsBridge_of_view rfl

theorem writeFaultPolicy_keepsBridge (payload : List Octet) (s : State) :
    ruleKeepsBridge s (writeFaultPolicy payload s) := by
  unfold writeFaultPolicy
  split
  · exact orRefuse_keepsBridge_of_view rfl
  · trivial

theorem acknowledgeMetrological_keepsBridge (s : State) : ruleKeepsBridge s (acknowledgeMetrological s) := by
  unfold acknowledgeMetrological
  split
  · trivial
  · exact ruleKeepsBridge_of_view rfl

theorem acknowledgeFault_keepsBridge (payload : List Octet) (s : State) :
    ruleKeepsBridge s (acknowledgeFault payload s) := by
  unfold acknowledgeFault
  split
  · trivial
  · split
    · trivial
    · split
      · trivial
      · simp only []
        split
        · trivial
        · exact ruleKeepsBridge_of_view (by simp [State.bridgeView])

theorem clearLockout_keepsBridge (s : State) : ruleKeepsBridge s (clearLockout s) := by
  unfold clearLockout
  split
  · trivial
  · exact orRefuse_keepsBridge_of_view (by simp [State.bridgeView])

/-! ### The frame of a request -/

theorem State.hunt_eventsKeep (s : State) (p : Port) : EventsKeep s (s.hunt p) :=
  EventsKeep.of_view (by simp [State.bridgeView]) (by simp [State.held])

theorem State.putReply_eventsKeep (s : State) (p : Port) (kind : Nat) (tag : Octet) (st : Status) (c : Content) :
    EventsKeep s (s.putReply p kind tag st c) :=
  EventsKeep.of_view (by simp [State.bridgeView]) (by simp [State.held])

/-- A request keeps what its rule keeps. -/
theorem serve_eventsKeep (kind : Nat) (p : Port) (tag : Octet) (payload : List Octet) {rule : State → Taken}
    (h : ∀ s, ruleKeepsBridge s (rule s)) (s : State) : EventsKeep s (serve kind p tag payload rule s) := by
  unfold serve
  simp only []
  refine (s.hunt_eventsKeep p).trans ?_
  generalize s.hunt p = t
  split
  · exact EventsKeep.refl t
  · exact t.putReply_eventsKeep _ _ _ _ _
  · have hk := h t
    split
    · exact t.putReply_eventsKeep _ _ _ _ _
    · rename_i u st c hu
      rw [hu] at hk
      exact (EventsKeep.event_of hk).trans (State.putReply_eventsKeep _ _ _ _ _ _)

theorem serveRead_eventsKeep (kind : Nat) (p : Port) (tag : Octet) (payload : List Octet)
    (rule : State → Except Status Content) (s : State) : EventsKeep s (serveRead kind p tag payload rule s) := by
  unfold serveRead
  simp only []
  refine (s.hunt_eventsKeep p).trans ?_
  generalize s.hunt p = t
  split
  · exact EventsKeep.refl t
  · exact t.putReply_eventsKeep _ _ _ _ _
  · split <;> exact t.putReply_eventsKeep _ _ _ _ _

theorem request_eventsKeep {kind : Nat} {p : Port} {tag : Octet} {payload : List Octet} {rule : State → Taken}
    {s t : State} (hr : ∀ s, ruleKeepsBridge s (rule s)) (h : request kind p tag payload rule s = .next t) :
    EventsKeep s t := by
  cases h
  exact EventsKeep.ite (serve_eventsKeep kind p tag payload hr s) (EventsKeep.refl s)

theorem readRequest_eventsKeep {kind : Nat} {p : Port} {tag : Octet} {payload : List Octet}
    {rule : State → Except Status Content} {s t : State} (h : readRequest kind p tag payload rule s = .next t) :
    EventsKeep s t := by
  cases h
  exact EventsKeep.ite (serveRead_eventsKeep kind p tag payload rule s) (EventsKeep.refl s)

/-- R194: a good frame of any kind, in the order of the catalogue. -/
theorem routeFrame_eventsKeep {p : Port} {kind : Nat} {tag : Octet} {payload : List Octet} {s t : State}
    (h : routeFrame p kind tag payload s = .next t) : EventsKeep s t := by
  unfold routeFrame at h
  split at h
  · exact request_eventsKeep (fetchNotice_keepsBridge p) h
  · exact request_eventsKeep (rule := setSiteTime payload) (fun _ => orRefuse_keepsBridge_of_view rfl) h
  · exact readRequest_eventsKeep h
  · exact request_eventsKeep (rule := writeSiteSetting payload) (fun _ => orRefuse_keepsBridge_of_view rfl) h
  · exact readRequest_eventsKeep h
  · exact readRequest_eventsKeep h
  · exact readRequest_eventsKeep h
  · exact readRequest_eventsKeep h
  · exact readRequest_eventsKeep h
  · exact request_eventsKeep zeroSet_keepsBridge h
  · exact request_eventsKeep (requestCapture_keepsBridge p tag) h
  · exact readRequest_eventsKeep h
  · exact request_eventsKeep (reportArrival_keepsBridge payload) h
  · exact request_eventsKeep (withdrawArrival_keepsBridge payload) h
  · exact request_eventsKeep releaseVehicle_keepsBridge h
  · exact request_eventsKeep clearBridge_keepsBridge h
  · exact request_eventsKeep (rule := holdBridge p) (fun _ => ruleKeepsBridge_of_view rfl) h
  · exact request_eventsKeep (rule := releaseHold p) (fun _ => ruleKeepsBridge_of_view rfl) h
  · exact readRequest_eventsKeep h
  · exact request_eventsKeep (rule := writeConfiguration payload) (fun _ => orRefuse_keepsBridge_of_view rfl) h
  · exact request_eventsKeep (rule := clearConfiguration payload) (fun _ => orRefuse_keepsBridge_of_view rfl) h
  · exact readRequest_eventsKeep h
  · exact request_eventsKeep restartWeighing_keepsBridge h
  · exact readRequest_eventsKeep h
  · exact request_eventsKeep (rule := releaseTrace) (fun _ => ruleKeepsBridge_of_view rfl) h
  · exact readRequest_eventsKeep h
  · exact request_eventsKeep (expireVisits_keepsBridge payload) h
  · exact request_eventsKeep (openVisit_keepsBridge payload) h
  · exact request_eventsKeep (amendVisit_keepsBridge payload) h
  · exact request_eventsKeep (cancelVisit_keepsBridge payload) h
  · exact readRequest_eventsKeep h
  · exact readRequest_eventsKeep h
  · exact request_eventsKeep (checkTare_keepsBridge payload) h
  · exact request_eventsKeep (keyTare_keepsBridge payload) h
  · exact request_eventsKeep (rule := flushTares) (fun _ => ruleKeepsBridge_of_view rfl) h
  · exact request_eventsKeep (deleteTare_keepsBridge p payload) h
  · exact readRequest_eventsKeep h
  · exact readRequest_eventsKeep h
  · exact request_eventsKeep rollTicketSeries_keepsBridge h
  · exact request_eventsKeep (collectTickets_keepsBridge payload) h
  · exact readRequest_eventsKeep h
  · exact readRequest_eventsKeep h
  · exact request_eventsKeep (rule := closeShift) (fun _ => ruleKeepsBridge_of_view rfl) h
  · exact readRequest_eventsKeep h
  · exact readRequest_eventsKeep h
  · exact request_eventsKeep (rule := openCalibration) (fun _ => orRefuse_keepsBridge_of_view rfl) h
  · exact request_eventsKeep (writeParameter_keepsBridge payload) h
  · exact readRequest_eventsKeep h
  · exact readRequest_eventsKeep h
  · exact request_eventsKeep (calibrateZero_keepsBridge payload) h
  · exact request_eventsKeep (calibrateSpan_keepsBridge payload) h
  · exact request_eventsKeep commitCalibration_keepsBridge h
  · exact request_eventsKeep (rule := abandonCalibration) (fun _ => orRefuse_keepsBridge_of_view rfl) h
  · exact readRequest_eventsKeep h
  · exact readRequest_eventsKeep h
  · exact request_eventsKeep (rule := archiveAuditRecords payload) (fun _ => orRefuse_keepsBridge_of_view rfl) h
  · exact request_eventsKeep (rule := beginVerification) (fun _ => orRefuse_keepsBridge_of_view rfl) h
  · exact request_eventsKeep (testPoint_keepsBridge payload) h
  · exact request_eventsKeep endVerification_keepsBridge h
  · exact request_eventsKeep abortVerification_keepsBridge h
  · exact readRequest_eventsKeep h
  · exact request_eventsKeep (rule := requestSnapshot) (fun _ => ruleKeepsBridge_of_view (by simp [State.bridgeView])) h
  · exact readRequest_eventsKeep h
  · exact readRequest_eventsKeep h
  · exact request_eventsKeep (discardSnapshot_keepsBridge payload) h
  · exact request_eventsKeep (writeFaultPolicy_keepsBridge payload) h
  · exact request_eventsKeep acknowledgeMetrological_keepsBridge h
  · exact request_eventsKeep (acknowledgeFault_keepsBridge payload) h
  · exact request_eventsKeep clearLockout_keepsBridge h
  · exact readRequest_eventsKeep h
  · exact request_eventsKeep restartRequest_keepsBridge h
  · exact readRequest_eventsKeep h
  · exact request_eventsKeep (rule := fun _ => .error .notPermitted) (fun _ => trivial) h

end Sys2Proof.Machine
end

