-- ==== Sys2Proof/Proofs/BridgeConsistent.lean ====
section
/-! Every command, and so every step, keeps the bridge consistent. -/

namespace Sys2Proof.Machine

/-! ### The chain of a round -/

theorem State.takeAs_eventsKeep (r : RoundValues) (s : State) (k : RoundTaker) : EventsKeep s (State.takeAs r s k) := by
  cases k with
  | capture => exact (s.captureTakesRound_keepsBridge r).event
  | trace => exact (KeepsBridge.of_view (by simp [State.bridgeView])).event
  | arbiter => exact (s.arbiterTakesRound_keepsBridge r).event

theorem State.blocksTakeRound_eventsKeep (s : State) (r : RoundValues) : EventsKeep s (s.blocksTakeRound r) :=
  EventsKeep.ite (EventsKeep.trans (t := { s with choices := s.choices + 1 }) (EventsKeep.of_view rfl rfl)
    (EventsKeep.foldl (State.takeAs_eventsKeep r) _ _)) (EventsKeep.foldl (State.takeAs_eventsKeep r) _ _)

theorem State.issueRound_eventsKeep (s : State) : EventsKeep s s.issueRound := by
  unfold State.issueRound
  split
  · exact EventsKeep.refl s
  · rename_i r _
    have hjudged : EventsKeep s (event s s.judgeStability) :=
      (KeepsBridge.of_view (by simp [State.bridgeView])).event
    have hzero : ∀ t : State, EventsKeep t (event t t.tryStartUpZero) := fun t =>
      (KeepsBridge.of_view (by simp [State.bridgeView])).event
    have hpoint : ∀ t : State, EventsKeep t (event t (t.pointTakesRound r)) := fun t =>
      (KeepsBridge.of_view (by simp [State.bridgeView])).event
    have hlast : ∀ t : State, EventsKeep t (event t (t.keepLastStable r)) := fun t =>
      (KeepsBridge.of_view (by simp [State.bridgeView])).event
    exact (((hjudged.trans (hzero _)).trans (State.blocksTakeRound_eventsKeep _ r)).trans (hpoint _)).trans (hlast _)

theorem State.roundDone_eventsKeep (s : State) : EventsKeep s s.roundDone :=
  (KeepsBridge.of_view (by simp [State.bridgeView])).event.trans (State.issueRound_eventsKeep _)

theorem State.startRound_eventsKeep (s : State) : EventsKeep s s.startRound := by
  have h : EventsKeep s (event s s.beginRound) := (KeepsBridge.of_view (by simp [State.bridgeView])).event
  exact EventsKeep.ite (h.trans (State.roundDone_eventsKeep _)) h

theorem State.pollEnds_eventsKeep (s : State) (i : Nat) (reply : Option CellReply) :
    EventsKeep s (s.pollEnds i reply) := by
  have hjudged : EventsKeep s (event s (s.judge i reply)) := (KeepsBridge.of_view (by simp [State.bridgeView])).event
  have hends : ∀ t : State, EventsKeep t t.roundEnds := fun t =>
    EventsKeep.ite (t.roundDone_eventsKeep.trans (State.startRound_eventsKeep _)) t.roundDone_eventsKeep
  have hnext : ∀ t : State, EventsKeep t { t with bus := t.bus.sendNext } := fun _ => EventsKeep.of_view rfl rfl
  unfold State.pollEnds
  simp only []
  split
  · exact hjudged.trans (hends _)
  · exact hjudged.trans (hnext _)

theorem State.answer_eventsKeep (s : State) (octets : List Octet) : EventsKeep s (s.answer octets) := by
  unfold State.answer
  split
  · split
    · exact s.pollEnds_eventsKeep _ _
    · exact EventsKeep.of_view rfl rfl
  · exact EventsKeep.refl s

theorem State.windowCloses_eventsKeep (s : State) : EventsKeep s s.windowCloses := by
  unfold State.windowCloses
  split
  · exact s.pollEnds_eventsKeep _ _
  · exact EventsKeep.refl s

theorem State.periodExpires_eventsKeep (s : State) : EventsKeep s s.periodExpires := by
  have hstopped : EventsKeep s { s with bus.periodTimer := false } := EventsKeep.of_view rfl rfl
  unfold State.periodExpires
  split
  · exact EventsKeep.refl s
  · simp only []
    split
    · exact (KeepsBridge.of_view (by simp [State.bridgeView])).event
    · exact hstopped.trans (State.startRound_eventsKeep _)

/-! ### Time and supply -/

theorem State.second_view (s : State) : s.second.bridgeView = s.bridgeView := by
  have ht : ∀ t : GrantTimer, t.second.paused = t.paused := by
    intro t
    unfold GrantTimer.second
    split <;> rfl
  simp [State.bridgeView, State.second, State.timersRun, Function.comp_def, ht]

/-- R209: a fall refuses a WAITING capture before its hold is in force. -/
theorem State.fall_keepsBridge (s : State) : KeepsBridge s s.fall := by
  have hrefused := State.refuseWaiting_keepsBridge s.abandonRound.withdrawRound .supply none
  exact (KeepsBridge.trans (KeepsBridge.of_view (by simp [State.bridgeView])) hrefused).trans
    (KeepsBridge.of_view (by simp [State.bridgeView, State.fall]))

theorem State.returns_eventsKeep (s : State) : EventsKeep s s.returns :=
  have h : KeepsBridge s { s with supplyGood := true, dipTimer := false, bridge.holds.supply := false } :=
    KeepsBridge.of_view rfl
  h.event.trans (State.startRound_eventsKeep _)

/-! ### Starts -/

/-- R80, R87: the bridge as a start sets it is consistent, whatever it was. -/
theorem State.resetVolatile_consistent (s : State) : s.resetVolatile.bridgeConsistent = true := rfl

theorem State.startSequence_consistent (s : State) (cause : StartCause) (l : LostRegions) :
    (s.startSequence cause l).bridgeConsistent = true := by
  unfold State.startSequence
  simp only []
  generalize (({ s with writes := [] } : State).rewriteLost l).writeStartRecord cause l = t3
  have hretain : EventsKeep t3.resetVolatile (retain t3 t3.resetVolatile) :=
    EventsKeep.of_view (by simp [State.bridgeView]) (by simp [State.held])
  have hlockout : ∀ t : State, EventsKeep t (event t (t.enterLockout .calibrationLost)) := fun t =>
    (KeepsBridge.of_view (by simp [State.bridgeView])).event
  have hmarks : ∀ t : State, EventsKeep t (event t t.judgeAccessMarks) := fun t =>
    (KeepsBridge.of_view (by simp [State.bridgeView])).event
  have hraises : ∀ (t : State) (c : FaultClass), EventsKeep t (event t (t.raiseFault (regionKey c) none)) := fun t c =>
    (KeepsBridge.of_view (by simp [State.bridgeView])).event
  have hrunning : ∀ t : State, EventsKeep t { t with phase := .running } := fun t => EventsKeep.of_view rfl rfl
  have h4 := hretain t3.resetVolatile_consistent
  generalize retain t3 t3.resetVolatile = t4 at h4
  have h5 := EventsKeep.ite (c := (l.calibration || l.audit) = true) (hlockout t4) (EventsKeep.refl t4) h4
  have h7 := EventsKeep.foldl hraises (lostRaises l) _ (hmarks _ h5)
  exact State.startRound_eventsKeep _ (hrunning _ h7)

/-! ### Commands -/

theorem act_eventsKeep {f : State → State} {s t : State} (hf : ∀ s, EventsKeep s (f s)) (h : act f s = .next t) :
    EventsKeep s t := by
  cases h
  exact EventsKeep.ite (hf s) (EventsKeep.refl s)

theorem State.beginStart_eventsKeep (s : State) (c : StartCause) : EventsKeep s (s.beginStart c) :=
  EventsKeep.of_view rfl rfl

theorem execOctetReceived_eventsKeep {p : Port} {o : Octet} {s t : State} (h : execOctetReceived p o s = .next t) :
    EventsKeep s t := by
  unfold execOctetReceived at h
  split at h
  · split at h
    · cases h
      exact EventsKeep.of_view (by simp [State.bridgeView]) (by simp [State.held])
    · exact routeFrame_eventsKeep h
  · cases h
    exact EventsKeep.refl s

/-- A command that answers what an operation outside any event made. -/
theorem eventsKeep_of_next {s t u : State} (h : (Host.Outcome.next u : Host.Outcome State Fault Refusal) = .next t)
    (k : EventsKeep s u) : EventsKeep s t := by
  cases h
  exact k

theorem exec_eventsKeep {c : Instr} {s t : State} (h : exec c s = .next t) : EventsKeep s t := by
  cases hf : frameOf c with
  | some f =>
    rw [← routeFrame_eq_exec s hf] at h
    exact routeFrame_eventsKeep h
  | none =>
    cases c with
    | cellAnswer a => exact act_eventsKeep (fun s => s.answer_eventsKeep a) h
    | replyWindowClose => exact act_eventsKeep State.windowCloses_eventsKeep h
    | roundPeriodExpiry => exact act_eventsKeep State.periodExpires_eventsKeep h
    | treadleEvent e dir =>
      have hp : ∀ s : State, KeepsBridge s s.restartPoint := fun s => KeepsBridge.of_view (by simp [State.bridgeView])
      exact act_eventsKeep (fun s => ((hp s).trans (State.treadle_keepsBridge _ e dir)).event) h
    | lampFeedbackChange e lit =>
      have hv : (s.setLamps e lit).bridgeView = s.bridgeView := by simp [State.bridgeView]
      exact eventsKeep_of_next h
        (EventsKeep.ite (KeepsBridge.of_view hv).event (EventsKeep.of_view hv (by simp [State.held])))
    | feedbackTimerExpiry e => exact act_eventsKeep (fun s => (KeepsBridge.of_view (s.feedbackExpires_view e)).event) h
    | calibrationSwitchChange on =>
      exact eventsKeep_of_next h
        (EventsKeep.ite (KeepsBridge.of_view (by simp [State.bridgeView])).event (EventsKeep.of_view rfl rfl))
    | supplyFall =>
      exact eventsKeep_of_next h
        (EventsKeep.ite (EventsKeep.refl s) (EventsKeep.ite s.fall_keepsBridge.event (EventsKeep.of_view rfl rfl)))
    | supplyReturn =>
      exact eventsKeep_of_next h
        (EventsKeep.ite (EventsKeep.refl s) (EventsKeep.ite s.returns_eventsKeep (EventsKeep.of_view rfl rfl)))
    | dipTimerExpiry =>
      exact eventsKeep_of_next h
        (EventsKeep.ite (EventsKeep.of_view (by simp [State.bridgeView]) (by simp [State.held])) (EventsKeep.refl s))
    | powerOn => exact eventsKeep_of_next h (s.beginStart_eventsKeep _)
    | resetLine => exact eventsKeep_of_next h (s.beginStart_eventsKeep _)
    | startSequence lost =>
      cases h
      split
      · exact EventsKeep.refl s
      · exact EventsKeep.ite (fun _ => s.startSequence_consistent _ lost) (EventsKeep.refl s)
    | captureTimeout => exact act_eventsKeep (fun s => (s.refuseWaiting_keepsBridge _ _).event) h
    | grantTimerExpiry => exact act_eventsKeep (fun s => s.grantExpires_keepsBridge.event) h
    | quietTimerExpiry => exact act_eventsKeep (fun s => EventsKeep.event_of State.quietExpires_consistent) h
    | trackingTimerExpiry =>
      have hv : ∀ s : State, KeepsBridge s s.trackZero := fun s => KeepsBridge.of_view (by simp [State.bridgeView])
      exact act_eventsKeep (fun s => (hv s).event) h
    | testPointTimeout =>
      have hv : ∀ s : State, KeepsBridge s (s.endPoint .captureTimeout) := fun s =>
        KeepsBridge.of_view (by simp [State.bridgeView])
      exact act_eventsKeep (fun s => (hv s).event) h
    | poweredSecond => exact act_eventsKeep (fun s => (KeepsBridge.of_view s.second_view).event) h
    | visitTimeout position =>
      have hv : ∀ s : State, KeepsBridge s (s.timeoutVisit position) := fun s =>
        KeepsBridge.of_view (by simp [State.bridgeView])
      exact act_eventsKeep (fun s => (hv s).event) h
    | frameGapTimeout p => exact act_eventsKeep (fun s => s.hunt_eventsKeep p) h
    | badFrame p => exact act_eventsKeep (fun s => s.hunt_eventsKeep p) h
    | unknownKind p kind tag payload => exact routeFrame_eventsKeep h
    | replySent p =>
      have hv : ∀ s : State, EventsKeep s (s.replySent p) := fun s =>
        EventsKeep.of_view (by simp [State.bridgeView]) (by simp [State.held])
      exact act_eventsKeep hv h
    | retainedWriteComplete =>
      exact eventsKeep_of_next h (EventsKeep.of_view (by simp [State.bridgeView]) (by simp [State.held]))
    | commitWriteComplete =>
      exact eventsKeep_of_next h (EventsKeep.of_view (by simp [State.bridgeView]) (by simp [State.held]))
    | pollSent =>
      have hv : ∀ s : State, EventsKeep s s.pollSent := fun s =>
        EventsKeep.of_view (by simp [State.bridgeView]) (by simp [State.held])
      exact act_eventsKeep hv h
    | octetReceived p o => exact execOctetReceived_eventsKeep h
    | _ => cases hf

/-- Settles O57: the rules of each event keep the bridge consistent with the hold that the event began with, and its
settling follows the change of the hold set. -/
theorem everyStepKeepsTheBridgeConsistent : Obligations.EveryStepKeepsTheBridgeConsistent := by
  intro s t hs h
  unfold step at h
  split at h
  · cases h
    exact hs
  · rename_i c rest _
    have hq : EventsKeep s { s with pending := rest } := EventsKeep.of_view rfl rfl
    exact hq.trans (exec_eventsKeep h) hs

end Sys2Proof.Machine
end

