-- ==== Sys2Proof/Proofs/CaptureReads.lean ====
section
/-! The stability of a round (R38, R39), and the reads of the capture, the bridge, the configurations, the axles and the
trace (R46, R79, R90, R103, R106). -/

namespace Sys2Proof.Machine

/-! ### The spread of a window (R38) -/

theorem foldl_max_le_iff {g b : Int} {l : List Int} : l.foldl max g ≤ b ↔ ∀ a ∈ g :: l, a ≤ b := by
  induction l generalizing g with
  | nil => simp
  | cons h rest ih => simp [ih, and_assoc]

theorem le_foldl_min_iff {g b : Int} {l : List Int} : b ≤ l.foldl min g ↔ ∀ a ∈ g :: l, b ≤ a := by
  induction l generalizing g with
  | nil => simp
  | cons h rest ih => simp [ih, and_assoc]

/-- The spread of grosses lies within a band exactly where no two differ by more. -/
theorem spread_le_iff {l : List Int} {band : Int} (hl : l ≠ []) :
    spread l ≤ band ↔ ∀ a ∈ l, ∀ b ∈ l, a - b ≤ band := by
  cases l with
  | nil => exact absurd rfl hl
  | cons g rest =>
    calc spread (g :: rest) ≤ band
      _ ↔ rest.foldl max g ≤ band + rest.foldl min g := sub_le_iff_le_add
      _ ↔ ∀ a ∈ g :: rest, a - band ≤ rest.foldl min g := by
          simp only [foldl_max_le_iff, sub_le_iff_le_add']
      _ ↔ ∀ a ∈ g :: rest, ∀ b ∈ g :: rest, a - b ≤ band := by
          simp only [le_foldl_min_iff, sub_le_comm]

/-- R38: the window judged: it holds S entries, and no two of the S most recent differ by more than the band. -/
theorem windowStable_iff {t : CalTable} {w : List WindowEntry} (hs : 1 ≤ t.stabilityRounds) :
    windowStable t w = true ↔ t.stabilityRounds ≤ w.length ∧
      ∀ a ∈ lastN t.stabilityRounds w, ∀ b ∈ lastN t.stabilityRounds w, a.gross - b.gross ≤ t.bandGrams := by
  simp only [windowStable, Bool.and_eq_true, decide_eq_true_eq]
  refine and_congr_right fun hlen => ?_
  have hne : (lastN t.stabilityRounds w).map (·.gross) ≠ [] := by
    refine List.ne_nil_of_length_pos ?_
    simp only [lastN, List.length_map, List.length_drop]
    omega
  simp [spread_le_iff hne]

/-- R38, R39: the judgement of a round with a gross. -/
theorem State.judgeStability_of_gross {s : State} {v : RoundValues} {g : Int} (hv : s.weigh.latest = some v)
    (hg : v.gross = some g) :
    s.judgeStability.weigh.window = lastN 32 (s.weigh.window ++ [⟨g, v.index, s.weigh.rounds⟩]) ∧
      s.judgeStability.weigh.stable = windowStable s.weigh.roundTable s.judgeStability.weigh.window := by
  simp [State.judgeStability, hv, hg]

/-- Settles O24: the verdict is `windowStable` of the window with the round's entry. -/
theorem stabilityIsJudgedOnTheRecentGrosses : Obligations.StabilityIsJudgedOnTheRecentGrosses := by
  intro s v hv hS
  refine ⟨fun hg => ?_, fun g hg => ?_⟩
  · simp [State.judgeStability, hv, hg]
  · obtain ⟨hwindow, hstable⟩ := State.judgeStability_of_gross hv hg
    refine ⟨by simp [hwindow, lastN], ?_⟩
    rw [hstable]
    exact windowStable_iff hS

/-! ### Reads -/

theorem readConfiguration_of_code {payload : List Octet} (s : State) (h1 : 1 ≤ natAt payload 0 1)
    (h24 : natAt payload 0 1 ≤ 24) :
    readConfiguration payload s = .ok (.configuration
      (if natAt payload 0 1 ≤ 8 then fixedConfiguration (natAt payload 0 1)
       else Table.get? s.site.catalogue (natAt payload 0 1))) := by
  simp only [readConfiguration, State.entryOf, if_pos (And.intro h1 h24), if_pos h24]

theorem readConfiguration_of_no_code {payload : List Octet} (s : State)
    (h : ¬(1 ≤ natAt payload 0 1 ∧ natAt payload 0 1 ≤ 24)) :
    readConfiguration payload s = .error .noSuchConfiguration := if_neg h

theorem readTrace_refused_count {payload : List Octet} (s : State)
    (h : ¬(1 ≤ natAt payload 2 1 ∧ natAt payload 2 1 ≤ 16)) : readTrace payload s = .error .badArgument := by
  simp [readTrace, h]

theorem readTrace_refused_index {payload : List Octet} {s : State} (h1 : 1 ≤ natAt payload 2 1)
    (h16 : natAt payload 2 1 ≤ 16) (hlen : s.axles.trace.samples.length ≤ natAt payload 0 2)
    (hnot : ¬(natAt payload 0 2 = 0 ∧ s.axles.trace.samples.length = 0)) :
    readTrace payload s = .error .noSuchSample := by
  simp only [readTrace, refusal_cons, h1, h16, hlen, hnot] <;> rfl

theorem readTrace_samples {payload : List Octet} {s : State} (h1 : 1 ≤ natAt payload 2 1)
    (h16 : natAt payload 2 1 ≤ 16)
    (hin : natAt payload 0 2 < s.axles.trace.samples.length ∨
      (natAt payload 0 2 = 0 ∧ s.axles.trace.samples.length = 0)) :
    readTrace payload s = .ok (.trace s.axles.trace.frozen s.axles.trace.samples.length
      ((s.axles.trace.samples.drop (natAt payload 0 2)).take (natAt payload 2 1))) := by
  have hnot : (decide (s.axles.trace.samples.length ≤ natAt payload 0 2) &&
      !decide (natAt payload 0 2 = 0 ∧ s.axles.trace.samples.length = 0)) = false := by
    rcases hin with hin | hin
    · simp [Nat.not_le.2 hin]
    · simp [hin]
  simp only [readTrace, refusal_cons, h1, h16, hnot] <;> rfl

theorem readConfiguration_hunt (payload : List Octet) (s : State) (p : Port) :
    readConfiguration payload (s.hunt p) = readConfiguration payload s := by cases p <;> rfl

theorem readAxles_hunt (s : State) (p : Port) : readAxles (s.hunt p) = readAxles s := by cases p <;> rfl

theorem readTrace_hunt (payload : List Octet) (s : State) (p : Port) :
    readTrace payload (s.hunt p) = readTrace payload s := by cases p <;> rfl

/-- Settles O9: each of the five commands is a read whose rule answers the content that the statement names. -/
theorem captureBridgeAndAxleReads : Obligations.CaptureBridgeAndAxleReads := by
  refine ⟨⟨?_, ?_, fun s p tag payload => ⟨fun h => ?_, fun h => ?_⟩⟩, ?_, ?_, ?_,
    fun s p tag payload => ⟨fun h h1 h24 => ?_, fun h hn => ?_, fun h => ?_, fun h h1 h16 hin => ?_, fun h hn => ?_,
      fun h h1 h16 hlen hnot => ?_⟩⟩
  · exact fun p => by cases p <;> decide
  · exact fun p => by cases p <;> decide
  · exact readRequest_content h (by cases p <;> rfl)
  · exact readRequest_content h (by cases p <;> rfl)
  · exact fun p => by cases p <;> decide
  · exact fun p => by cases p <;> decide
  · exact fun p => by cases p <;> decide
  · exact readRequest_content h ((readConfiguration_hunt payload s p).trans (readConfiguration_of_code s h1 h24))
  · exact readRequest_error h ((readConfiguration_hunt payload s p).trans (readConfiguration_of_no_code s hn))
  · refine ⟨_, readRequest_content h (readAxles_hunt s p), rfl, rfl, rfl, rfl, ?_, ?_, rfl, rfl, fun hv => ?_,
      fun v hv => ?_⟩
    · simp
    · simp
    · simp [hv, DraftState.empty]
    · simp [hv, State.groupRecords]
  · exact readRequest_content h ((readTrace_hunt payload s p).trans (readTrace_samples h1 h16 hin))
  · exact readRequest_error h ((readTrace_hunt payload s p).trans (readTrace_refused_count s hn))
  · exact readRequest_error h ((readTrace_hunt payload s p).trans (readTrace_refused_index h1 h16 hlen hnot))

end Sys2Proof.Machine
end

