-- ==== Sys2Proof/Proofs/AsideEvents.lean ====
section
/-! Events and requests that change the weighing and the capture alone: nothing follows them but their notices. -/

namespace Sys2Proof.Machine

/-- A state that differs from a calm one in the weighing, the capture and the notices is settled as that one is. -/
theorem State.bridgeSettled_of_aside {s u : State} (hs : s.calm = true)
    (hu : u = { s with weigh := u.weigh, capture := u.capture, outbox := u.outbox }) : u.bridgeSettled = true := by
  obtain ⟨-, -, hb, -⟩ := s.calm_iff.1 hs
  rw [← hb, hu]
  exact State.bridgeSettled_congr rfl rfl rfl rfl rfl rfl rfl

/-- An event that changes the weighing and the capture alone queues its notices. -/
theorem event_aside {s u : State} (hs : s.calm = true)
    (hu : u = { s with weigh := u.weigh, capture := u.capture, outbox := u.outbox }) : event s u = u.flush := by
  obtain ⟨-, -, -, hn⟩ := s.calm_iff.1 hs
  rw [event_of_bridgeSettled (State.bridgeSettled_of_aside hs hu) (by rw [hu])]
  exact retain_of_untouched (by rw [hu]; exact changedRegions_same rfl rfl rfl rfl rfl rfl rfl) (by rw [hu]; exact hn)

/-- A request that does so is answered after them. -/
theorem request_aside {s u : State} {p : Port} {kind : Nat} {tag : Octet} {payload : List Octet} {st : Status}
    {c : Content} {rule : State → Taken} (h : s.ready p kind payload = true)
    (hu : u = { s with weigh := u.weigh, capture := u.capture, outbox := u.outbox })
    (hr : rule (s.hunt p) = .ok (u.hunt p, st, c)) :
    request kind p tag payload rule s = .next (u.flush.answered p kind tag st c) := by
  obtain ⟨ha, hs⟩ := (s.ready_iff p kind payload).1 h
  obtain ⟨-, -, -, hn⟩ := s.calm_iff.1 hs
  rw [request_settled rule ha hr (State.bridgeSettled_of_aside hs hu) (by rw [hu]),
    retain_of_untouched _ (by rw [hu]; simpa [State.answered] using hn)]
  rw [hu]
  refine changedRegions_same ?_ ?_ ?_ ?_ ?_ ?_ ?_ <;> simp [State.answered]

/-- A request that refuses is answered with its code. -/
theorem request_ready_refused {s : State} {p : Port} {kind : Nat} {tag : Octet} {payload : List Octet} {code : Status}
    {rule : State → Taken} (h : s.ready p kind payload = true) (hr : rule (s.hunt p) = .error code) :
    request kind p tag payload rule s = .next (s.answered p kind tag code .empty) :=
  request_refused rule ((s.ready_iff p kind payload).1 h).1 hr

/-- An event taken by the blocks that changes the weighing and the capture alone. -/
theorem act_aside {f : State → State} {s u : State} (hs : s.calm = true) (hf : f s = u)
    (hu : u = { s with weigh := u.weigh, capture := u.capture, outbox := u.outbox }) :
    act (fun s => event s (f s)) s = .next u.flush := by
  obtain ⟨hrun, -⟩ := s.calm_iff.1 hs
  simp only [act, hrun, if_true, hf, event_aside hs hu]

end Sys2Proof.Machine
end

