-- ==== Sys2Proof/Proofs/ZeroAndTracking.lean ====
section
/-! Zero Set, the window adjustment and zero tracking (R40 to R44). -/

namespace Sys2Proof.Machine

/-! ### Zero offsets -/

/-- A setting leaves the zero of a deck that it does not name. -/
theorem putZeros_get?_other {z : Table Int} {news : List (Nat × Int)} {d : Nat} (h : ∀ f, (d, f) ∉ news) :
    Table.get? (putZeros z news) d = Table.get? z d := by
  induction news generalizing z with
  | nil => rfl
  | cons e rest ih =>
    have hd : d ≠ e.1 := fun hd => h e.2 (by simp [hd])
    calc Table.get? (putZeros z (e :: rest)) d
        = Table.get? (putZeros (Table.set z e.1 e.2) rest) d := rfl
      _ = Table.get? (Table.set z e.1 e.2) d := ih fun f hf => h f (List.mem_cons_of_mem _ hf)
      _ = Table.get? z d := Table.get?_set_other z e.2 hd

/-- A setting of the filtered values names no deck that has none. -/
theorem putZeros_filteredDecks_none (z : Table Int) {decks : List DeckValues} {d : Nat} {v : DeckValues}
    (hv : (d, v) ∈ numbered decks) (hf : v.filtered = none) :
    Table.get? (putZeros z (filteredDecks decks)) d = Table.get? z d := by
  refine putZeros_get?_other fun f hmem => ?_
  obtain ⟨w, hw, hwf⟩ := mem_filteredDecks.1 hmem
  obtain rfl : v = w := Option.some_inj.1 ((mem_numbered hv).symm.trans (mem_numbered hw))
  simp [hf] at hwf

theorem State.setZeros_same {s : State} {decks : List DeckValues} {news : List (Nat × Int)}
    (h : putZeros s.weigh.zero news = s.weigh.zero) : s.setZeros decks news = s := if_pos h

theorem State.setZeros_window {s : State} {decks : List DeckValues} {news : List (Nat × Int)}
    (h : putZeros s.weigh.zero news ≠ s.weigh.zero) :
    (s.setZeros decks news).weigh.window = s.weigh.window.map (fun w =>
      { w with gross := w.gross - zeroShift decks (putZeros s.weigh.zero news) }) := by
  simp only [State.setZeros, if_neg h]

/-- R40: a setting changes the zeros and the window alone. -/
theorem State.setZeros_aside (s : State) (decks : List DeckValues) (news : List (Nat × Int)) :
    s.setZeros decks news =
      { s with weigh.zero := (s.setZeros decks news).weigh.zero
               weigh.window := (s.setZeros decks news).weigh.window } := by
  unfold State.setZeros
  simp only []
  split <;> rfl

/-! ### Zero Set (R42, R43) -/

/-- R42: every deck has a filtered value within its working range. -/
theorem State.zeroInRange_iff {s : State} {decks : List DeckValues} :
    s.zeroInRange decks = true ↔ ∀ d v, (d, v) ∈ numbered decks →
      ∃ f, v.filtered = some f ∧ |f - s.workingCentre d| ≤ s.tableInUse.deckMax d * 20 := by
  simp only [State.zeroInRange, List.all_eq_true, Prod.forall]
  refine forall₃_congr fun d v _ => ?_
  cases v.filtered <;> simp [State.inWorkingRange]

/-- What a Zero Set that nothing refuses makes. -/
def State.zeroed (s : State) : State :=
  if s.weigh.zeroUnset then s.makeStartUpZero s.latestDecks
  else s.setZeros s.latestDecks (filteredDecks s.latestDecks)

theorem zeroSet_eq (s : State) : zeroSet s = orRefuse (zeroSetRefusal s) s.zeroed .ok .empty := rfl

theorem zeroSetRefusal_hunt (s : State) (p : Port) : zeroSetRefusal (s.hunt p) = zeroSetRefusal s := by
  cases p <;> rfl

theorem State.setZeros_hunt (s : State) (p : Port) (decks : List DeckValues) (news : List (Nat × Int)) :
    (s.hunt p).setZeros decks news = (s.setZeros decks news).hunt p := by
  by_cases h : putZeros s.weigh.zero news = s.weigh.zero
  · rw [State.setZeros_same h, State.setZeros_same (by simpa using h)]
  · cases p <;> simp [State.setZeros, h, State.hunt, State.setPort, State.port]

theorem State.zeroed_hunt (s : State) (p : Port) : (s.hunt p).zeroed = s.zeroed.hunt p := by
  have hd : (s.hunt p).latestDecks = s.latestDecks := by simp [State.latestDecks]
  unfold State.zeroed
  rw [hd, (by simp : (s.hunt p).weigh = s.weigh)]
  split
  · simp only [State.makeStartUpZero, State.setZeros_hunt, State.hunt_frame]
    cases p <;> rfl
  · exact s.setZeros_hunt p _ _

theorem State.zeroed_aside (s : State) : s.zeroed = { s with weigh := s.zeroed.weigh } := by
  unfold State.zeroed State.makeStartUpZero State.setZeros
  simp only []
  repeat' split
  all_goals rfl

/-- R42, R43: Zero Set refused. -/
theorem exec_zeroSet_refused {s : State} {p : Port} {tag : Octet} {payload : List Octet} {code : Status}
    (h : s.ready p 14 payload = true) (hr : zeroSetRefusal s = some code) :
    exec (.zeroSet p tag payload) s = .next (s.answered p 14 tag code .empty) :=
  request_ready_refused h (by rw [zeroSet_eq, zeroSetRefusal_hunt, hr]; rfl)

/-- R42, R43: Zero Set carried out. -/
theorem exec_zeroSet_taken {s : State} {p : Port} {tag : Octet} {payload : List Octet}
    (h : s.ready p 14 payload = true) (hr : zeroSetRefusal s = none) :
    exec (.zeroSet p tag payload) s = .next (s.zeroed.answered p 14 tag .ok .empty) := by
  obtain ⟨-, hout, -, -⟩ := s.calm_iff.1 ((s.ready_iff _ _ _).1 h).2
  have hquiet : s.zeroed.flush = s.zeroed := State.flush_of_empty _ (by rw [State.zeroed_aside]; exact hout)
  have htaken : zeroSet (s.hunt p) = .ok (s.zeroed.hunt p, .ok, .empty) := by
    rw [zeroSet_eq, zeroSetRefusal_hunt, hr, State.zeroed_hunt]
    rfl
  rw [← hquiet]
  exact request_aside h (by rw [State.zeroed_aside]) htaken

/-- Settles O25: the refusals are those of `zeroSetRefusal` in their order, and the state answered is
`State.zeroed`. -/
theorem zeroSetChecksSetsAndAdjusts : Obligations.ZeroSetChecksSetsAndAdjusts := by
  refine ⟨fun s decks news => ⟨fun d => by rw [(s.setZeros_weigh decks news).1], State.setZeros_same,
      State.setZeros_window⟩,
    fun s decks => ⟨fun z d v hv => ?_, fun z d hnot => ?_, rfl⟩, fun p => by cases p <;> decide,
    fun s p tag payload h => ?_⟩
  · cases hf : v.filtered with
    | none => exact putZeros_filteredDecks_none z hv hf
    | some f => exact putZeros_filteredDecks z hv hf
  · refine putZeros_get?_other fun f hmem => ?_
    obtain ⟨v, hv, -⟩ := mem_filteredDecks.1 hmem
    exact hnot v hv
  intro within working startUp
  refine ⟨fun hset => ?_, fun hunset => ?_⟩
  · have hworking : s.zeroInRange s.latestDecks = true ↔ working := State.zeroInRange_iff
    have hzeroed : s.zeroed = s.setZeros s.latestDecks (filteredDecks s.latestDecks) := by simp [State.zeroed, hset]
    refine ⟨fun hstate => exec_zeroSet_refused h ?_, fun hstate hstable => exec_zeroSet_refused h ?_,
      fun hstate hstable hno => exec_zeroSet_refused h ?_, fun hstate hstable hyes =>
      hzeroed ▸ exec_zeroSet_taken h ?_⟩
    · simp [zeroSetRefusal, hset, hstate]
    · simp [zeroSetRefusal, hset, hstate, hstable]
    · simp [zeroSetRefusal, hset, hstate, hstable, mt hworking.1 hno]
    · simp [zeroSetRefusal, hset, hstate, hstable, hworking.2 hyes]
  · have hstartUp : s.startUpInRange s.latestDecks = true ↔ startUp := State.startUpInRange_iff
    have hzeroed : s.zeroed = s.makeStartUpZero s.latestDecks := by simp [State.zeroed, hunset]
    refine ⟨fun hstable => exec_zeroSet_refused h ?_, fun hstable hno => exec_zeroSet_refused h ?_,
      fun hstable hyes => hzeroed ▸ exec_zeroSet_taken h ?_⟩
    · simp [zeroSetRefusal, hunset, hstable]
    · simp [zeroSetRefusal, hunset, hstable, mt hstartUp.1 hno]
    · simp [zeroSetRefusal, hunset, hstable, hstartUp.2 hyes]

/-! ### Zero tracking (R44) -/

/-- R44: a deck is tracked to its filtered value where its gross lies within half a division and that value within its
working range. -/
theorem State.mem_trackedDecks {s : State} {decks : List DeckValues} {d : Nat} {f : Int} :
    (d, f) ∈ s.trackedDecks decks ↔ ∃ v g, (d, v) ∈ numbered decks ∧ v.gross = some g ∧ v.filtered = some f ∧
      |g| ≤ 500 * s.weigh.roundTable.e ∧ |f - s.workingCentre d| ≤ s.tableInUse.deckMax d * 20 := by
  simp only [State.trackedDecks, List.mem_filterMap, Prod.exists]
  constructor
  · rintro ⟨d', v, hv, htracked⟩
    split at htracked
    · next g f' hg hf =>
      simp only [Option.ite_none_right_eq_some, Bool.and_eq_true, decide_eq_true_eq, State.inWorkingRange,
        Int.natCast_natAbs, Option.some.injEq, Prod.mk.injEq] at htracked
      obtain ⟨⟨hgross, hrange⟩, rfl, rfl⟩ := htracked
      exact ⟨v, g, hv, hg, hf, hgross, hrange⟩
    · cases htracked
  · rintro ⟨v, g, hv, hg, hf, hgross, hrange⟩
    exact ⟨d, v, hv, by simp [hg, hf, hgross, hrange, State.inWorkingRange]⟩

/-- R44: the five conditions. -/
theorem State.tracks_iff {s : State} :
    s.tracks = true ↔ s.tableInUse.val 8 = 1 ∧ s.weigh.zeroUnset = false ∧ s.bridge.state = .free ∧ s.held = false ∧
      s.weigh.stable = true := by
  simp [State.tracks, CalTable.tracking, and_assoc]

/-- Settles O26: the expiry sets the zeros of `State.trackedDecks`, which names each deck once. -/
theorem trackingMovesTheQualifyingDecks : Obligations.TrackingMovesTheQualifyingDecks := by
  intro s hs htimer
  obtain ⟨-, hout, -, -⟩ := s.calm_iff.1 hs
  have hexec : ∀ u : State, s.trackZero = u → u = { s with weigh := u.weigh } →
      exec .trackingTimerExpiry s = .next u := by
    intro u htrack hu
    have hquiet : u.flush = u := State.flush_of_empty u (by rw [hu]; exact hout)
    rw [← hquiet]
    exact act_aside hs htrack (by rw [hu])
  refine ⟨fun hno => hexec s ?_ rfl, fun h1 h2 h3 h4 h5 => ?_⟩
  · exact if_neg (by simp [htimer, mt State.tracks_iff.1 hno])
  · have htrack : s.trackZero = s.setZeros s.latestDecks (s.trackedDecks s.latestDecks) :=
      if_pos (by simp [htimer, State.tracks_iff.2 ⟨h1, h2, h3, h4, h5⟩])
    have haside := s.setZeros_aside s.latestDecks (s.trackedDecks s.latestDecks)
    refine ⟨_, hexec _ htrack (by rw [haside]), haside, fun d v hv => ?_⟩
    have hone : ∀ f, (d, f) ∈ s.trackedDecks s.latestDecks → ∃ g, v.gross = some g ∧ v.filtered = some f ∧
        |g| ≤ 500 * s.weigh.roundTable.e ∧ |f - s.workingCentre d| ≤ s.tableInUse.deckMax d * 20 := by
      intro f hf
      obtain ⟨w, g, hw, hrest⟩ := State.mem_trackedDecks.1 hf
      obtain rfl : v = w := Option.some_inj.1 ((mem_numbered hv).symm.trans (mem_numbered hw))
      exact ⟨g, hrest⟩
    rw [(s.setZeros_weigh _ _).1]
    refine ⟨fun g f hg hf hgross hrange => ?_, fun hnot => ?_⟩
    · refine putZeros_get? (.inl (State.mem_trackedDecks.2 ⟨v, g, hv, hg, hf, hgross, hrange⟩)) fun f' hf' => ?_
      obtain ⟨-, -, hfiltered, -⟩ := hone f' hf'
      exact Option.some_inj.1 (hfiltered.symm.trans hf)
    · refine putZeros_get?_other fun f hf => ?_
      obtain ⟨g, hg, hfiltered, hin⟩ := hone f hf
      exact hnot g f hg hfiltered hin

end Sys2Proof.Machine
end

