-- ==== Sys2Proof/Proofs/CaptureTimers.lean ====
section
/-! Captures that begin, are refused at once or run out of time (R47, R48, R52, R56, R57). -/

namespace Sys2Proof.Machine

/-! ### What refuses a capture (R47) -/

theorem State.notForTrade_iff {s : State} :
    s.notForTrade = true ↔ s.staged ≠ none ∨ s.cal.lockout ≠ none ∨ s.cal.notVerified = true := by
  simp [State.notForTrade, State.accessOpen, State.locked, Option.isSome_iff_ne_none, or_assoc]

theorem State.weighingInProgress_iff {s : State} :
    s.weighingInProgress = true ↔ ∃ v, s.visitInUse = some v ∧ v.inProgress = true := by
  simp [State.weighingInProgress, Option.any_eq_true]

/-- R47: the five conditions in order. -/
theorem State.captureRefusal_eq (s : State) :
    s.captureRefusal =
      (if s.bridge.state ≠ .occupied ∨ ¬(∃ v, s.visitInUse = some v ∧ v.inProgress = true) then some .noVehicle
       else if s.held = true then some .held
       else if s.weigh.zeroUnset = true then some .zeroUnset
       else if s.capture.waiting ≠ none then some .capturePending
       else if s.staged ≠ none ∨ s.cal.lockout ≠ none ∨ s.cal.notVerified = true then some .notForTrade
       else none) := by
  have hvehicle : (decide (s.bridge.state ≠ .occupied) || !s.weighingInProgress) = true ↔
      s.bridge.state ≠ .occupied ∨ ¬(∃ v, s.visitInUse = some v ∧ v.inProgress = true) := by
    rw [← State.weighingInProgress_iff]
    simp
  simp only [State.captureRefusal, refusal_cons, refusal_nil, hvehicle, State.notForTrade_iff,
    Option.isSome_iff_ne_none]

theorem State.captureRefusal_hunt (s : State) (p : Port) : (s.hunt p).captureRefusal = s.captureRefusal := by
  cases p <;> rfl

/-! ### Captures begun and refused at once -/

/-- R48: a capture that begins for the visit in use. -/
theorem State.beginCapture_of_visit {s : State} {v : Visit} (o : Origin) (hv : s.visitInUse = some v) :
    s.beginCapture o =
      { s with capture.waiting := some { origin := o, ident := v.ident
                                         secondsLeft := s.site.settings.captureTimeout, restart := none } } := by
  simp [State.beginCapture, hv]

/-- R47: Request Capture refused: its reply carries the code. -/
theorem exec_requestCapture_refused {s : State} {p : Port} {tag : Octet} {payload : List Octet} {code : Status}
    (h : s.ready p 15 payload = true) (hr : s.captureRefusal = some code) :
    exec (.requestCapture p tag payload) s =
      .next ((s.refuseAtOnce (.request p tag) code).answered p 15 tag code .empty) := by
  obtain ⟨-, hout, -, -⟩ := s.calm_iff.1 ((s.ready_iff _ _ _).1 h).2
  have htaken : requestCapture p tag (s.hunt p) =
      .ok ((s.refuseAtOnce (.request p tag) code).hunt p, code, .empty) := by
    simp only [requestCapture, State.captureRefusal_hunt, hr] <;> cases p <;> rfl
  have hexec := request_aside (tag := tag) (u := s.refuseAtOnce (.request p tag) code) h rfl htaken
  rwa [State.flush_of_empty (s.refuseAtOnce _ _) hout] at hexec

/-- R47, R48: Request Capture accepted. -/
theorem exec_requestCapture_accepted {s : State} {p : Port} {tag : Octet} {payload : List Octet}
    (h : s.ready p 15 payload = true) (hr : s.captureRefusal = none) :
    exec (.requestCapture p tag payload) s =
      .next ((s.beginCapture (.request p tag)).answered p 15 tag .accepted .empty) := by
  obtain ⟨-, hout, -, -⟩ := s.calm_iff.1 ((s.ready_iff _ _ _).1 h).2
  have htaken : requestCapture p tag (s.hunt p) =
      .ok ((s.beginCapture (.request p tag)).hunt p, .accepted, .empty) := by
    simp only [requestCapture, State.captureRefusal_hunt, hr] <;> cases p <;> rfl
  have hexec := request_aside (tag := tag) (u := s.beginCapture (.request p tag)) h rfl htaken
  rwa [State.flush_of_empty (s.beginCapture _) hout] at hexec

/-! ### The timers (R52, R56) -/

/-- The state that a capture's end leaves. -/
theorem State.endCapture_eq (s : State) (c : Capture) (outcome : Status) (round : Option Nat)
    (accepted : Option AcceptedCapture) :
    s.endCapture c outcome round accepted =
      ({ s with capture := { s.capture with
          waiting := none
          lastOutcome := some { origin := c.origin, ident := some c.ident, outcome := outcome, round := round }
          arm := false } } : State).post c.origin.port (.captureOutcome c.origin c.ident outcome accepted) := rfl

theorem exec_captureTimeout {s u : State} (hs : s.calm = true) (hu : s.refuseWaiting .captureTimeout none = u)
    (haside : u = { s with weigh := u.weigh, capture := u.capture, outbox := u.outbox }) :
    exec .captureTimeout s = .next u.flush :=
  act_aside (f := fun s => s.refuseWaiting .captureTimeout none) hs hu haside

theorem exec_quietTimerExpiry {s u : State} (hs : s.calm = true) (hu : s.quietExpires = u)
    (haside : u = { s with weigh := u.weigh, capture := u.capture, outbox := u.outbox }) :
    exec .quietTimerExpiry s = .next u.flush := act_aside (f := State.quietExpires) hs hu haside

/-- R56: where auto-capture is off, the arm clear or a capture waiting the quiet timer stops and nothing is attempted. -/
theorem State.quietExpires_idle {s : State} (hq : s.capture.quietTimer = true)
    (h : s.site.settings.autoCapture = false ∨ s.capture.arm = false ∨ s.capture.waiting ≠ none) :
    s.quietExpires = { s with capture.quietTimer := false } := by
  rcases h with h | h | h
  · simp [State.quietExpires, hq, h]
  · simp [State.quietExpires, hq, h]
  · simp [State.quietExpires, hq, Option.isSome_iff_ne_none.2 h]

/-- R56: else an AUTO capture is attempted. -/
theorem State.quietExpires_attempts {s : State} (hq : s.capture.quietTimer = true)
    (hauto : s.site.settings.autoCapture = true) (harm : s.capture.arm = true) (hw : s.capture.waiting = none) :
    s.quietExpires = State.attemptAuto { s with capture.quietTimer := false } := by
  simp [State.quietExpires, hq, hauto, harm, hw]

/-- Settles O30: each command changes the capture alone, so nothing follows it but its notice. -/
theorem capturesBeginAndTimeOut : Obligations.CapturesBeginAndTimeOut := by
  refine ⟨fun p => by cases p <;> decide, fun s => ⟨fun p tag payload h => ⟨fun code hr => ?_, fun v hr hv => ?_⟩,
    s.captureRefusal_eq, fun hs => ?_⟩⟩
  · exact exec_requestCapture_refused h hr
  · rw [← State.beginCapture_of_visit _ hv]
    exact exec_requestCapture_accepted h hr
  obtain ⟨-, hout, -, -⟩ := s.calm_iff.1 hs
  have hquiet : s.flush = s := State.flush_of_empty s hout
  refine ⟨fun hw => ?_, fun c hw => ?_, fun hq => ?_, fun hq h => ?_, fun hq hauto harm hw =>
    ⟨fun v hr hv => ?_, fun code g hr hg => ?_⟩⟩
  · rw [exec_captureTimeout hs (State.refuseWaiting_none _ _ hw) rfl, hquiet]
  · have hended : s.refuseWaiting .captureTimeout none = s.endCapture c .captureTimeout none none := by
      simp [State.refuseWaiting, hw]
    exact exec_captureTimeout hs hended rfl
  · rw [exec_quietTimerExpiry hs (by simp [State.quietExpires, hq] : s.quietExpires = s) rfl, hquiet]
  · rw [exec_quietTimerExpiry hs (State.quietExpires_idle hq h) rfl]
    exact congrArg _ (State.flush_of_empty _ hout)
  · have hbegun : s.quietExpires = State.beginCapture { s with capture.quietTimer := false } .auto := by
      rw [State.quietExpires_attempts hq hauto harm hw]
      have hr' : State.captureRefusal { s with capture.quietTimer := false } = none := hr
      simp only [State.attemptAuto, hr']
    rw [exec_quietTimerExpiry hs (hbegun.trans (State.beginCapture_of_visit _ (by exact hv))) rfl]
    exact congrArg _ (State.flush_of_empty _ hout)
  · have hrefused : s.quietExpires =
        (State.refuseAtOnce { s with capture.quietTimer := false } .auto code).post .lane
          (.captureOutcome .auto g.ident code none) := by
      rw [State.quietExpires_attempts hq hauto harm hw]
      have hr' : State.captureRefusal { s with capture.quietTimer := false } = some code := hr
      simp [State.attemptAuto, hr', hg]
    rw [exec_quietTimerExpiry hs hrefused rfl]
    simp [State.told, State.postAll, State.refuseAtOnce, hg]

end Sys2Proof.Machine
end

