-- ==== Sys2Proof/Proofs/RequestEvents.lean ====
section
/-! A request whose rule makes an event: what its port then holds, and how the event's notices reach the queues (R195 to
R197). -/

namespace Sys2Proof.Machine

/-- The reply of a request that was taken pends alone on its port. -/
theorem State.putReply_replied {e : State} {p : Port} (kind : Nat) (tag : Octet) (st : Status) (c : Content)
    (h : (e.port p).replies = []) : (e.putReply p kind tag st c).replied p kind tag st c = true := by
  simp [State.replied, State.putReply, h]

/-- Notices delivered and the request answered: the same whether the receiver is returned to hunting before or after. -/
theorem State.answered_heard {s e : State} {ns : List (Port × Notice)} {p : Port} {kind : Nat} {tag : Octet} {st : Status}
    {c : Content} (ho : e.outbox = []) (hp : e.ports = (({ s with outbox := ns } : State).hunt p).flush.ports) :
    ((e.putReply p kind tag st c).heard s ns).answered p kind tag st c = e.putReply p kind tag st c := by
  have hhunt : ((e.putReply p kind tag st c).heard s ns).hunt p = e := by
    rw [State.heard, ← State.flush_hunt]
    have hheard : (({ e.putReply p kind tag st c with ports := s.ports, outbox := ns } : State).hunt p).flush.ports =
        e.ports := by
      rw [hp]
      exact State.flush_ports_congr (by cases p <;> rfl) (by cases p <;> rfl)
    refine State.eq_iff_fields.2 ?_
    simpa [ho] using hheard
  rw [State.answered, hhunt]

/-- A request that is taken and makes an event: its reply, the queues, and what the event left of the rest. -/
theorem request_event {s u : State} {p : Port} {kind : Nat} {tag : Octet} {payload : List Octet} {st : Status}
    {c : Content} {rule : State → Taken} {ns : List (Port × Notice)} (h : s.ready p kind payload = true)
    (hr : rule (s.hunt p) = .ok (u, st, c)) (hu : u.ports = (s.hunt p).ports)
    (hbox : (u.settle s.bridge.holds).outbox = ns) :
    ∃ t, request kind p tag payload rule s = .next t ∧ t.replied p kind tag st c = true ∧
      t.ports = ((t.heard s ns).answered p kind tag st c).ports ∧
      t = { event (s.hunt p) u with ports := t.ports } := by
  obtain ⟨ha, -⟩ := (s.ready_iff p kind payload).1 h
  obtain ⟨-, hreplies, -⟩ := (s.accepts_iff p kind payload).1 ha
  have hholds : (s.hunt p).bridge.holds = s.bridge.holds := by simp
  have hports : (event (s.hunt p) u).ports = (({ s with outbox := ns } : State).hunt p).flush.ports := by
    rw [(event_settle _ u).2.2.2.2.2.2.2, hholds]
    have hsettle : (u.settle s.bridge.holds).ports = (({ s with outbox := ns } : State).hunt p).ports := by
      rw [show (u.settle s.bridge.holds).ports = u.ports by simp, hu]
      cases p <;> rfl
    exact State.flush_ports_congr hsettle (by cases p <;> exact hbox)
  refine ⟨_, (request_of_accepts rule ha).trans (by rw [hr]), ?_, ?_, ?_⟩
  · refine State.putReply_replied _ _ _ _ ?_
    have hport : (event (s.hunt p) u).port p = (({ s with outbox := ns } : State).hunt p).flush.port p := by
      cases p <;> simp [State.port, hports]
    rw [hport, State.flush_replies]
    cases p <;> exact hreplies
  · exact (congrArg State.ports (State.answered_heard (event_outbox _ _) hports)).symm
  · refine State.eq_iff_fields.2 ?_
    simp

end Sys2Proof.Machine
end

