-- ==== Sys2Proof/Proofs/SettlingGrants.lean ====
section
/-! What a settling does to the hold set, and over a bridge that is not FREE (R63, R74, R76 to R78). -/

namespace Sys2Proof.Machine

/-! ### Grants made or not made -/

/-- R63: a bridge that is not FREE is granted to nobody. -/
theorem State.grantIfDue_not_free {s : State} (h : s.bridge.state ≠ .free) : s.grantIfDue = s := by
  simp [State.grantIfDue, h]

/-- R63: nor is one under a hold. -/
theorem State.grantIfDue_held {s : State} (h : s.held = true) : s.grantIfDue = s := by
  simp [State.grantIfDue, h]

/-- With its sources judged and no hold in force a settling grants where due and commands the signals, in one pass. -/
theorem State.settle_of_judged_unheld {s : State} (h : s.sourcesJudged) (hheld : s.held = false) :
    s.settle s.bridge.holds = s.grantIfDue.recommand := by
  obtain ⟨-, hjudged, -, -, -, -, -, hlow⟩ := s.settlePass_spec s.bridge.holds
  have hfault : s.faultJudged = false := by
    rw [← h.2]
    simp only [State.held, Holds.inForce, Bool.or_eq_false_iff] at hheld
    exact hheld.1.2
  rw [← State.settlePass_of_judged h]
  exact if_pos ((hlow hfault).trans (hjudged.trans hfault).symm)

/-! ### The hold set -/

/-- Up to its grant a pass leaves of the bridge all but the hold set, which it judges, and the grant timer. -/
theorem State.settlePass_holds (s : State) (before : Holds) :
    (s.settlePass before).bridge.holds = s.judgeSources.bridge.holds := by
  obtain ⟨-, -, -, -, -, -, -, -, hrecommand, -⟩ :=
    (((s.judgeSources.followHold before).followPointSources before).grantIfDue).recommand_spec
  have hpoint : ((s.judgeSources.followHold before).followPointSources before).bridge =
      (s.judgeSources.followHold before).bridge := by simp
  rw [State.settlePass, hrecommand, (State.grantIfDue_spec _).1, hpoint, State.followHold_bridge]

/-- A settling judges METROLOGY and FAULT and leaves the other sources. -/
theorem State.settle_holds (s : State) (before : Holds) :
    (s.settle before).bridge.holds =
      { s.bridge.holds with
        metrology := (s.settle before).bridge.holds.metrology, fault := (s.settle before).bridge.holds.fault } := by
  have hpass : ∀ (u : State) (b : Holds), (u.settlePass b).bridge.holds =
      { u.bridge.holds with
        metrology := (u.settlePass b).bridge.holds.metrology, fault := (u.settlePass b).bridge.holds.fault } :=
    fun u b => by rw [State.settlePass_holds]; rfl
  unfold State.settle
  simp only []
  split
  · exact hpass _ _
  · rw [hpass, hpass s before]

/-! ### A bridge that is not FREE -/

theorem State.settlePass_not_free {s : State} (before : Holds) (h : s.bridge.state ≠ .free) :
    (s.settlePass before).axles = s.axles ∧ (s.settlePass before).bridge.state = s.bridge.state := by
  have hbridge : ((s.judgeSources.followHold before).followPointSources before).bridge.state = s.bridge.state := by
    rw [show ((s.judgeSources.followHold before).followPointSources before).bridge =
      (s.judgeSources.followHold before).bridge by simp, State.followHold_bridge]
    rfl
  rw [State.settlePass, State.grantIfDue_not_free (by rw [hbridge]; exact h)]
  obtain ⟨-, -, hstate, -⟩ := ((s.judgeSources.followHold before).followPointSources before).recommand_spec
  exact ⟨by simp, hstate.trans hbridge⟩

/-- R87: the counts and the trace of a bridge that is not FREE stand. -/
theorem State.settle_axles_of_not_free {s : State} (before : Holds) (h : s.bridge.state ≠ .free) :
    (s.settle before).axles = s.axles := by
  obtain ⟨haxles, hstate⟩ := State.settlePass_not_free before h
  unfold State.settle
  simp only []
  split
  · exact haxles
  · exact (State.settlePass_not_free _ (by rw [hstate]; exact h)).1.trans haxles

/-! ### The notices of a grant -/

/-- Between two states with a grant or nothing between them the notices are those of the grant. -/
theorem State.grantsOrStays.outbox_eq {s t : State} (h : s.grantsOrStays t) : t.outbox = s.outbox ++ s.grantNews t := by
  rcases h with ⟨hstate, -, hout⟩ | ⟨hfree, hgranted, q, hq, hout⟩
  · rw [hout]
    simp [State.grantNews, hstate]
  · rw [hout]
    simp [State.grantNews, hfree, hgranted, hq]

end Sys2Proof.Machine
end

