-- ==== Sys2Proof/Proofs/VehicleLeaves.lean ====
section
/-! Release Vehicle and Clear Bridge (R54, R64, R70, R72, R73, R115). -/

namespace Sys2Proof.Machine

/-! ### A bridge left by its vehicle -/

/-- The notices of a WAITING capture that is refused (R45). -/
def State.refusedNews (s : State) (code : Status) : List (Port × Notice) :=
  (s.capture.waiting.toList).map (fun c => (c.origin.port, .captureOutcome c.origin c.ident code none))

/-- The notices of a visit in progress whose vehicle leaves unweighed (R115). -/
def State.leftNews (s : State) : List (Port × Notice) :=
  ((s.visitInUse.filter (·.inProgress)).toList).flatMap (fun v =>
    notesTo [.gatehouse, .lane] (.leftUnweighed v.ident v.weighing v.draft.used))

/-- The move of a bridge changes its state alone. -/
@[simp] theorem State.moveBridge_bridge (s : State) (b : BridgeState) :
    (s.moveBridge b).bridge = { s.bridge with state := b } := by
  unfold State.moveBridge
  simp only []
  split <;> simp

/-- R54, R56: a bridge moved out of OCCUPIED. -/
theorem State.moveBridge_leaves {s : State} {b : BridgeState} (hs : s.bridge.state = .occupied) (hb : b ≠ .occupied) :
    s.moveBridge b = { s.leaveOccupied with bridge.state := b } := by
  simp [State.moveBridge, hs, hb]

/-- R54: what it hands to the queues. -/
theorem State.moveBridge_outbox (s : State) {b : BridgeState} (hb : b ≠ .occupied) :
    (s.moveBridge b).outbox = s.outbox ++ if s.bridge.state = .occupied then s.refusedNews .noVehicle else [] := by
  by_cases hs : s.bridge.state = .occupied
  · rw [State.moveBridge_leaves hs hb, if_pos hs]
    exact State.refuseWaiting_outbox s .noVehicle
  · simp [State.moveBridge, hs]

/-- R54: a WAITING capture that leaving OCCUPIED ends is the last outcome. -/
theorem State.moveBridge_lastOutcome {s : State} {b : BridgeState} {c : Capture} (hs : s.bridge.state = .occupied)
    (hb : b ≠ .occupied) (hc : s.capture.waiting = some c) :
    (s.moveBridge b).capture.lastOutcome =
      some { origin := c.origin, ident := some c.ident, outcome := .noVehicle, round := none } := by
  rw [State.moveBridge_leaves hs hb]
  exact congrArg CaptureUnit.lastOutcome (State.refuseWaiting_some .noVehicle hc)

/-- R54, R56: outside OCCUPIED no capture waits, and the arm and the quiet timer are clear. -/
theorem State.moveBridge_idle {s : State} {b : BridgeState} (hs : s.bridge.state = .occupied) (hb : b ≠ .occupied) :
    (s.moveBridge b).capture.waiting = none ∧ (s.moveBridge b).capture.quietTimer = false ∧
      (s.moveBridge b).capture.arm = false := by
  rw [State.moveBridge_leaves hs hb]
  exact ⟨s.refuseWaiting_waiting .noVehicle none, rfl, rfl⟩

/-- R115: what the end of a grant hands to the queues. -/
theorem State.endVisitUse_outbox (s : State) : (s.endVisitUse true).outbox = s.outbox ++ s.leftNews := by
  cases h : s.visitInUse with
  | none =>
    unfold State.visitInUse at h
    cases hu : s.inUse with
    | none => simp [State.endVisitUse, State.leftNews, State.visitInUse, hu]
    | some p =>
      have hv : Table.get? s.visits p = none := by simpa [hu] using h
      simp [State.endVisitUse, State.leftNews, State.visitInUse, hu, hv]
  | some w =>
    obtain ⟨p, hp, hw⟩ := Option.bind_eq_some_iff.1 h
    rw [(State.endVisitUse_listed hp hw).2.2, State.leftNews, h]
    cases hprogress : w.inProgress <;> simp [hprogress, Option.filter]

/-- R71, R115: what a vehicle that has left hands to the queues. -/
theorem State.vehicleLeft_outbox (s : State) :
    s.vehicleLeft.outbox =
      s.outbox ++ (if s.bridge.state = .occupied then s.refusedNews .noVehicle else []) ++ s.leftNews := by
  have hleft : (s.moveBridge .free).leftNews = s.leftNews := by
    simp [State.leftNews, State.visitInUse]
  have hout : s.vehicleLeft.outbox = ((s.moveBridge .free).endVisitUse true).outbox := rfl
  rw [hout, State.endVisitUse_outbox, State.moveBridge_outbox s (by decide), hleft]

/-- R115: the visit in use is returned and is in use no more. -/
theorem State.vehicleLeft_returns (s : State) :
    s.vehicleLeft.inUse = none ∧ ∀ q v, s.inUse = some q → Table.get? s.visits q = some v →
      Table.get? s.vehicleLeft.visits q = some v.returned := by
  obtain ⟨huse, hlisted, -⟩ := (s.moveBridge .free).endVisitUse_spec
  refine ⟨huse, fun q v hq hv => (hlisted q v ?_ ?_).1⟩
  · simpa using hq
  · simpa using hv

/-! ### Release Vehicle -/

/-- An event that leaves the hold set of a settled state at a bridge that is not FREE grants nobody. -/
theorem event_not_free {s u : State} (h : u.sourcesJudged) (hh : u.bridge.holds = s.bridge.holds)
    (hfree : u.bridge.state ≠ .free) :
    (event s u).bridge.state = u.bridge.state ∧ (event s u).bridge.grant = u.bridge.grant ∧
      (event s u).axles = u.axles ∧ (event s u).visits = u.visits ∧ (event s u).inUse = u.inUse ∧
      (event s u).capture = u.capture ∧ (event s u).run = u.run ∧ (u.settle s.bridge.holds).outbox = u.outbox := by
  obtain ⟨hbridge, -, haxles, hvisits, huse, -⟩ := event_settle s u
  obtain ⟨hsettle, hcapture, hrun⟩ := event_resettled h hh
  obtain ⟨hstate, -, hgrant, hv, hu, hout⟩ := hsettle.stays (.inl hfree)
  refine ⟨?_, ?_, haxles.trans (State.settle_axles_of_not_free _ hfree), hvisits.trans hv, huse.trans hu, hcapture, hrun,
    hout⟩
  · rw [hbridge, hstate]
  · rw [hbridge, hgrant]

/-- R74: at a RELEASED bridge without a hold the exit shows GREEN and the entry RED. -/
theorem event_released_aspects {s u : State} {g : Grant} (h : u.sourcesJudged) (hh : u.bridge.holds = s.bridge.holds)
    (hstate : u.bridge.state = .released) (hheld : s.held = false) (hg : u.bridge.grant = some g) :
    (event s u).bridge.aspect (otherEnd g.entryEnd) = .green ∧ (event s u).bridge.aspect g.entryEnd = .red := by
  have hunheld : u.held = false := by rw [State.held, hh]; exact hheld
  have hsettle : u.settle s.bridge.holds = u.recommand := by
    rw [← hh, State.settle_of_judged_unheld h hunheld, State.grantIfDue_not_free (by simp [hstate])]
  have haspect : ∀ e, (event s u).bridge.aspect e = u.bridge.aspectFor e := by
    obtain ⟨-, -, -, -, -, -, -, -, -, ha, hb, -⟩ := u.recommand_spec
    rw [(event_settle s u).1, hsettle]
    rintro (_ | _)
    · exact ha
    · exact hb
  have hinForce : u.bridge.holds.inForce = false := hunheld
  rw [haspect, haspect]
  cases he : g.entryEnd <;> simp [Bridge.aspectFor, hg, hstate, hinForce, otherEnd, he]

/-- R70: the state that Release Vehicle makes. -/
def State.vehicleReleased (s : State) : State :=
  ({ s with bridge.advance := false, bridge.withheld := false } : State).moveBridge .released

theorem releaseVehicle_occupied {s : State} (h : s.bridge.state = .occupied) :
    releaseVehicle s = .ok (s.vehicleReleased, .ok, .empty) := by
  simp [releaseVehicle, orRefuse, h, State.vehicleReleased]

theorem releaseVehicle_refused {s : State} (h : s.bridge.state ≠ .occupied) : releaseVehicle s = .error .noVehicle := by
  simp [releaseVehicle, orRefuse, h]

/-! ### Clear Bridge -/

/-- R72, R73: the state that Clear Bridge makes. -/
def State.cleared (s : State) : State := if s.bridge.state = .occupiedUnknown then s.unknownEnds else s.vehicleLeft

theorem State.cleared_freed {s : State} (hs : s.settled = true) : s.Freed s.cleared := by
  unfold State.cleared
  split
  · exact State.unknownEnds_freed hs
  · exact State.vehicleLeft_freed hs

theorem State.cleared_outbox (s : State) :
    s.cleared.outbox = s.outbox ++ ((if s.bridge.state = .occupied then s.refusedNews .noVehicle else []) ++
      (if s.bridge.state ≠ .occupiedUnknown then s.leftNews else [])) := by
  unfold State.cleared
  by_cases h : s.bridge.state = .occupiedUnknown
  · simp [h, State.unknownEnds, State.zeroCounts]
  · simp [h, State.vehicleLeft_outbox]

end Sys2Proof.Machine
end

