-- ==== Sys2Proof/Proofs/ReleaseVehicle.lean ====
section
/-! Release Vehicle and Clear Bridge settled (R54, R64, R70, R72, R73, R115). -/

namespace Sys2Proof.Machine

/-! ### A request's own port -/

/-- Between two events with no commit to note, whatever the receivers do. -/
theorem State.hunt_settled {s : State} (h : s.calm = true) (p : Port) :
    (s.hunt p).settled = true ∧ (s.hunt p).outbox = [] ∧ (s.hunt p).commitNote = none := by
  obtain ⟨-, hout, hb, hn⟩ := s.calm_iff.1 h
  have hout' : (s.hunt p).outbox = [] := by simpa using hout
  exact ⟨(s.hunt p).settled_iff.2 ⟨hout', by rw [State.bridgeSettled_hunt]; exact hb⟩, hout', by simpa using hn⟩

theorem State.held_hunt (s : State) (p : Port) : (s.hunt p).held = s.held := by cases p <;> rfl

theorem State.refusedNews_hunt (s : State) (p : Port) (code : Status) :
    (s.hunt p).refusedNews code = s.refusedNews code := by cases p <;> rfl

theorem State.leftNews_hunt (s : State) (p : Port) : (s.hunt p).leftNews = s.leftNews := by cases p <;> rfl

/-! ### Release Vehicle -/

/-- An event that changes the bridge and the capture alone, at a bridge that it does not leave FREE, leaves the rest but
the lamp conditions and the queues. -/
theorem event_not_free_eq {s u : State} (hs : s.settled = true) (hn : s.commitNote = none)
    (hu : u = { s with bridge := u.bridge, capture := u.capture, outbox := u.outbox })
    (hh : u.bridge.holds = s.bridge.holds) (hfree : u.bridge.state ≠ .free) :
    event s u = { s with bridge := (event s u).bridge, capture := u.capture, faults := (event s u).faults
                         ports := (event s u).ports } := by
  have hj : u.sourcesJudged := by
    refine State.sourcesJudged_congr (State.sourcesJudged_of_settled hs) hh ?_ ?_ ?_ ?_ ?_ <;> rw [hu]
  obtain ⟨-, -, haxles, hvisits, huse, hcapture, hrun, -⟩ := event_not_free hj hh hfree
  have hsettled : (u.settle s.bridge.holds).visits = s.visits := by
    rw [← (event_settle s u).2.2.2.1, hvisits, hu]
  have hwrites : (event s u).writes = s.writes := by
    refine (event_writes_of_same (changedRegions_same ?_ ?_ ?_ ?_ ?_ ?_ ?_) ?_).trans (by rw [hu])
    · simp only [State.flush_frame, State.settle_frame]; rw [hu]
    · simp only [State.flush_frame, State.settle_frame]; rw [hu]
    · simp only [State.flush_frame, hsettled]
    · simp only [State.flush_frame, State.settle_frame]; rw [hu]
    · simp only [State.flush_frame, State.settle_frame]; rw [hu]
    · simp only [State.flush_frame, State.settle_frame]; rw [hu]
    · simp only [State.flush_frame, State.settle_frame]; rw [hu]
    · rw [hu]; exact hn
  have hframe := event_frame s u
  have hout : s.outbox = [] := (s.settled_iff.1 hs).1
  refine State.eq_iff_fields.2 ?_
  simp only [hframe, haxles, hvisits, huse, hcapture, hrun, hwrites, event_outbox, event_commitNote, hout, hn]
  rw [hu]
  simp

theorem State.vehicleReleased_bridge (s : State) :
    s.vehicleReleased.bridge = { s.bridge with state := .released, advance := false, withheld := false } := by
  simp [State.vehicleReleased]

theorem State.vehicleReleased_eq (s : State) :
    s.vehicleReleased = { s with bridge := s.vehicleReleased.bridge, capture := s.vehicleReleased.capture
                                 outbox := s.vehicleReleased.outbox } := by
  refine State.eq_iff_fields.2 ?_
  simp [State.vehicleReleased]

/-- R54: the capture that it leaves and its notice. -/
theorem State.vehicleReleased_capture {s : State} (h : s.bridge.state = .occupied) :
    s.vehicleReleased.capture.waiting = none ∧ s.vehicleReleased.capture.quietTimer = false ∧
      s.vehicleReleased.capture.arm = false ∧
      (∀ c, s.capture.waiting = some c → s.vehicleReleased.capture.lastOutcome =
        some { origin := c.origin, ident := some c.ident, outcome := .noVehicle, round := none }) ∧
      s.vehicleReleased.outbox = s.outbox ++ s.refusedNews .noVehicle := by
  unfold State.vehicleReleased
  obtain ⟨hwaiting, hquiet, harm⟩ := State.moveBridge_idle (b := .released)
    (s := { s with bridge.advance := false, bridge.withheld := false }) h (by decide)
  refine ⟨hwaiting, hquiet, harm, fun c hc => State.moveBridge_lastOutcome (b := .released) h (by decide) hc, ?_⟩
  rw [State.moveBridge_outbox _ (by decide)]
  simp [h, State.refusedNews]

/-- R70: Release Vehicle at an OCCUPIED bridge. -/
theorem exec_releaseVehicle_occupied {s : State} {p : Port} {tag : Octet} {payload : List Octet}
    (h : s.ready p 22 payload = true) (ho : s.bridge.state = .occupied) :
    ∃ t, exec (.releaseVehicle p tag payload) s = .next t ∧ t.replied p 22 tag .ok .empty = true ∧
      t.bridge.state = .released ∧ t.bridge.advance = false ∧ t.bridge.withheld = false ∧
      t.bridge.grant = s.bridge.grant ∧
      t.capture.waiting = none ∧ t.capture.quietTimer = false ∧ t.capture.arm = false ∧
      (∀ c, s.capture.waiting = some c → t.capture.lastOutcome =
        some { origin := c.origin, ident := some c.ident, outcome := .noVehicle, round := none }) ∧
      (∀ g, s.bridge.grant = some g → s.held = false →
        t.bridge.aspect (otherEnd g.entryEnd) = .green ∧ t.bridge.aspect g.entryEnd = .red) ∧
      t.ports = ((t.heard s (s.refusedNews .noVehicle)).answered p 22 tag .ok .empty).ports ∧
      t = { s with bridge := t.bridge, capture := t.capture, faults := t.faults, ports := t.ports } := by
  obtain ⟨hs, hout, hn⟩ := State.hunt_settled ((s.ready_iff _ _ _).1 h).2 p
  have hbridge : (s.hunt p).bridge = s.bridge := by simp
  have hwaits : (s.hunt p).capture = s.capture := by simp
  have hstate : (s.hunt p).bridge.state = .occupied := by rw [hbridge, ho]
  have hnews := s.refusedNews_hunt p .noVehicle
  have hb := (s.hunt p).vehicleReleased_bridge
  have hu := (s.hunt p).vehicleReleased_eq
  obtain ⟨hwaiting, hquiet, harm, hlast, hbox⟩ := State.vehicleReleased_capture hstate
  have htaken := releaseVehicle_occupied hstate
  have hheld := s.held_hunt p
  have hframe := s.hunt_frame p
  generalize (s.hunt p).vehicleReleased = u at hb hu hwaiting hquiet harm hlast hbox htaken
  have hh : u.bridge.holds = (s.hunt p).bridge.holds := by rw [hb]
  have hreleased : u.bridge.state = .released := by rw [hb]
  have hfree : u.bridge.state ≠ .free := by rw [hreleased]; decide
  have hj : u.sourcesJudged := by
    refine State.sourcesJudged_congr (State.sourcesJudged_of_settled hs) hh ?_ ?_ ?_ ?_ ?_ <;> rw [hu]
  obtain ⟨hst, hgrant, -, -, -, -, -, hsettled⟩ := event_not_free hj hh hfree
  obtain ⟨hsettle, -, -⟩ := event_resettled hj hh
  have hevent := event_not_free_eq hs hn hu hh hfree
  obtain ⟨t, ht, hreply, hports, hrest⟩ := request_event (tag := tag) (ns := s.refusedNews .noVehicle) h htaken
    (by rw [hu]) (by rw [← hbridge, hsettled, hbox, hout, hnews]; rfl)
  have htb : t.bridge = (event (s.hunt p) u).bridge := by rw [hrest]
  have htc : t.capture = u.capture := by rw [hrest, hevent]
  refine ⟨t, ht, hreply, ?_, ?_, ?_, ?_, ?_, ?_, ?_, fun c hc => ?_, fun g hg hf => ?_, hports, ?_⟩
  · rw [htb, hst, hreleased]
  · rw [htb, (event_settle _ u).1, hsettle.advance, hb]
  · rw [htb, (event_settle _ u).1, hsettle.withheld, hb]
  · rw [htb, hgrant, hb, hbridge]
  · rw [htc, hwaiting]
  · rw [htc, hquiet]
  · rw [htc, harm]
  · rw [htc, hlast c (by rw [hwaits, hc])]
  · rw [htb]
    exact event_released_aspects hj hh hreleased (by rw [hheld, hf]) (by rw [hb, hbridge]; exact hg)
  · rw [hrest, hevent]
    refine State.eq_iff_fields.2 ?_
    simp

end Sys2Proof.Machine
end

