-- ==== Sys2Proof/Proofs/ClearBridge.lean ====
section
/-! Clear Bridge (R54, R64, R72, R73, R115). -/

namespace Sys2Proof.Machine

/-! ### Its refusals (R72) -/

theorem clearBridge_eq (s : State) : clearBridge s = orRefuse s.clearRefusal s.cleared .ok .empty := rfl

theorem State.clearRefusal_noVehicle {s : State} (h : s.bridge.state = .free ∨ s.bridge.state = .granted) :
    s.clearRefusal = some .noVehicle := by
  simp [State.clearRefusal, h]

theorem State.clearRefusal_motion {s : State} (hf : s.bridge.state ≠ .free) (hg : s.bridge.state ≠ .granted)
    (h : s.weigh.stable = false ∨ s.weigh.latest = none) : s.clearRefusal = some .motion := by
  simp [State.clearRefusal, hf, hg, h]

theorem State.clearRefusal_weighed {s : State} {r : RoundValues} {w : Int} (hf : s.bridge.state ≠ .free)
    (hg : s.bridge.state ≠ .granted) (hs : s.weigh.stable = true) (hr : s.weigh.latest = some r)
    (hw : r.rounded = some w) :
    s.clearRefusal = if w < s.weigh.roundTable.occupancyKg then none else some .bridgeOccupied := by
  have hbelow : s.below w = decide (w < s.weigh.roundTable.occupancyKg) := rfl
  by_cases hlow : w < s.weigh.roundTable.occupancyKg <;>
    simp [State.clearRefusal, hf, hg, hs, hr, State.latestRounded, hw, hbelow, hlow]

theorem State.clearRefusal_hunt (s : State) (p : Port) : (s.hunt p).clearRefusal = s.clearRefusal := by
  cases p <;> rfl

/-! ### What it leaves -/

theorem State.cleared_eq (s : State) :
    s.cleared = { s with bridge := s.cleared.bridge, capture := s.cleared.capture, axles := s.cleared.axles
                         visits := s.cleared.visits, inUse := s.cleared.inUse, outbox := s.cleared.outbox } := by
  refine State.eq_iff_fields.2 ?_
  unfold State.cleared
  split <;> simp

/-- R71, R115: where the vehicle has left, the grant and the marks are gone and the visit in use is returned. -/
theorem State.cleared_known {s : State} (h : s.bridge.state ≠ .occupiedUnknown) :
    s.cleared.bridge.grant = none ∧ s.cleared.bridge.advance = false ∧ s.cleared.bridge.withheld = false ∧
      s.cleared.inUse = none ∧ ∀ q v, s.inUse = some q → Table.get? s.visits q = some v →
        Table.get? s.cleared.visits q = some v.returned := by
  rw [State.cleared, if_neg h, State.vehicleLeft_bridge]
  exact ⟨rfl, rfl, rfl, s.vehicleLeft_returns⟩

/-- R73: the start mark is cleared. -/
theorem State.cleared_unknown {s : State} (h : s.bridge.state = .occupiedUnknown) :
    s.cleared.bridge.startMark = false := by
  rw [State.cleared, if_pos h]
  rfl

/-- R72: Clear Bridge below the occupancy threshold. -/
theorem exec_clearBridge_taken {s : State} {p : Port} {tag : Octet} {payload : List Octet}
    (h : s.ready p 23 payload = true) (hc : s.clearRefusal = none)
    (hg : s.bridge.state ≠ .granted) :
    ∃ t, exec (.clearBridge p tag payload) s = .next t ∧ t.replied p 23 tag .ok .empty = true ∧
      t.axles.entered = 0 ∧ t.axles.exited = 0 ∧
      (s.bridge.state = .occupiedUnknown → t.bridge.startMark = false) ∧
      (s.bridge.waiting = [] → t.bridge.state = .free ∧
        (s.bridge.state ≠ .occupiedUnknown → t.bridge.grant = none ∧ t.inUse = none ∧
          t.bridge.advance = false ∧ t.bridge.withheld = false ∧
          ∀ q v, s.inUse = some q → Table.get? s.visits q = some v →
            Table.get? t.visits q = some v.returned)) ∧
      (∀ q, selectEntry s.bridge.waiting = some q → s.held = false →
        t.bridge.state = .granted ∧ t.bridge.grant = some { ident := q.ident, entryEnd := q.entryEnd }) ∧
      (s.bridge.holds.gatehouse = true ∨ s.bridge.holds.lane = true →
        t.bridge.state = .free ∧ t.bridge.waiting = s.bridge.waiting) ∧
      t.ports = ((t.heard s ((if s.bridge.state = .occupied then s.refusedNews .noVehicle else []) ++
        (if s.bridge.state ≠ .occupiedUnknown then s.leftNews else []) ++
          s.grantNews t)).answered p 23 tag .ok .empty).ports ∧
      t = { s with bridge := t.bridge, capture := t.capture, axles := t.axles, visits := t.visits,
                   inUse := t.inUse, faults := t.faults, ports := t.ports, writes := t.writes } := by
  obtain ⟨hs, hout, hn⟩ := State.hunt_settled ((s.ready_iff _ _ _).1 h).2 p
  have hbridge : (s.hunt p).bridge = s.bridge := by simp
  have huse : (s.hunt p).inUse = s.inUse := by simp
  have hvisits : (s.hunt p).visits = s.visits := by simp
  have hheld := s.held_hunt p
  have hframe := s.hunt_frame p
  have hfreed := State.cleared_freed hs
  have hu := (s.hunt p).cleared_eq
  have hbox := (s.hunt p).cleared_outbox
  rw [hbridge, s.refusedNews_hunt, s.leftNews_hunt, hout] at hbox
  have hunknown := State.cleared_unknown (s := s.hunt p)
  have hknown := State.cleared_known (s := s.hunt p)
  have htaken : clearBridge (s.hunt p) = .ok ((s.hunt p).cleared, .ok, .empty) := by
    rw [clearBridge_eq, s.clearRefusal_hunt, hc]
    rfl
  rw [hbridge] at hunknown hknown
  rw [huse, hvisits] at hknown
  generalize (s.hunt p).cleared = u at hfreed hu hbox hunknown hknown htaken
  obtain ⟨-, hcapture, hrun⟩ := event_resettled hfreed.judged hfreed.holds
  obtain ⟨⟨hentered, hexited, -⟩, hmark, hadvance, hwithheld⟩ := hfreed.left
  have hgrants : u.grantsOrStays (u.settle s.bridge.holds) := by
    rw [← hbridge, ← hfreed.holds]
    refine (State.settle_within ?_).grants
    rw [State.judgeSources_of_judged hfreed.judged]
    exact ⟨id, id, id, id, id⟩
  have hsettled : (u.settle s.bridge.holds).bridge = (event (s.hunt p) u).bridge := by
    rw [(event_settle (s.hunt p) u).1, hbridge]
  obtain ⟨t, ht, hreply, hports, hrest⟩ := request_event (tag := tag) h htaken (by rw [hu]) hgrants.outbox_eq
  have htb : t.bridge = (event (s.hunt p) u).bridge := by rw [hrest]
  have hnews : u.grantNews (u.settle s.bridge.holds) = s.grantNews t := by
    have hwaiting : u.bridge.waiting = s.bridge.waiting := hfreed.waiting.trans (congrArg _ hbridge)
    simp only [State.grantNews, hsettled, htb, hwaiting, hfreed.state]
    simp [hg]
  rw [hbox, hnews, List.nil_append] at hports
  refine ⟨t, ht, hreply, ?_, ?_, fun hstate => ?_, fun hnone => ⟨?_, fun hstate => ?_⟩, fun q hq hf => ?_, fun hhold => ?_,
    hports, ?_⟩
  · rw [hrest]; exact hentered
  · rw [hrest]; exact hexited
  · rw [htb, hmark, hunknown hstate]
  · rw [htb]; exact (hfreed.stays (.inl (by rw [hbridge, hnone]))).1
  · obtain ⟨-, -, hgrant, hv, hi, -⟩ := hfreed.stays (.inl (by rw [hbridge, hnone]))
    obtain ⟨hgone, hadv, hwith, hleft, hreturned⟩ := hknown hstate
    refine ⟨by rw [htb, hgrant, hgone], ?_, by rw [htb, hadvance, hadv], by rw [htb, hwithheld, hwith],
      fun q v hq hvis => ?_⟩
    · rw [hrest]; exact hi.trans hleft
    · rw [hrest]; exact (congrArg (Table.get? · q) hv).trans (hreturned q v hq hvis)
  · rw [htb]; exact hfreed.grants (hheld.trans hf) (by rw [hbridge]; exact hq)
  · obtain ⟨hstate, hwaits, -⟩ := hfreed.stays (.inr (by rw [hbridge]; exact hhold))
    exact ⟨by rw [htb, hstate], by rw [htb, hwaits, hbridge]⟩
  · have hevent := event_frame (s.hunt p) u
    have houtbox := event_outbox (s.hunt p) u
    have hnote := event_commitNote (s.hunt p) u
    have hn' : s.commitNote = none := by simpa using hn
    have hout' : s.outbox = [] := by simpa using hout
    rw [hrest]
    refine State.eq_iff_fields.2 ?_
    simp only [hevent, houtbox, hnote, hrun, hn', hout']
    rw [hu]
    simp

/-- Settles O32: Release Vehicle is one event at a bridge that it does not leave FREE, Clear Bridge one that frees it. -/
theorem releaseAndClearEndAnOccupiedBridge : Obligations.ReleaseAndClearEndAnOccupiedBridge := by
  refine ⟨fun p => by cases p <;> decide, fun p => by cases p <;> decide, fun s p tag payload =>
    ⟨fun h => ⟨fun ho => ?_, fun ho => exec_releaseVehicle_occupied h ho⟩, fun h => ⟨fun ho => ?_, fun hf hg =>
      ⟨fun hm => ?_, fun r w hs hr hw => ⟨fun hle => ?_, fun hlt => ?_⟩⟩⟩⟩⟩
  · exact request_ready_refused h (releaseVehicle_refused (by simpa using ho))
  · exact request_ready_refused h (by rw [clearBridge_eq, s.clearRefusal_hunt, State.clearRefusal_noVehicle ho]; rfl)
  · exact request_ready_refused h (by rw [clearBridge_eq, s.clearRefusal_hunt, State.clearRefusal_motion hf hg hm]; rfl)
  · have hc := State.clearRefusal_weighed hf hg hs hr hw
    rw [if_neg (by omega)] at hc
    exact request_ready_refused h (by rw [clearBridge_eq, s.clearRefusal_hunt, hc]; rfl)
  · have hc := State.clearRefusal_weighed hf hg hs hr hw
    rw [if_pos hlt] at hc
    exact exec_clearBridge_taken h hc hg

end Sys2Proof.Machine
end

