-- ==== Sys2Proof/Proofs/StandingHold.lean ====
section
/-! A settling under a standing hold (R74 to R78, R168): after the change of the hold set has been followed, it commands
the signals and judges the FAULT source, and does nothing else. -/

namespace Sys2Proof.Machine

/-! ### The signals commanded -/

/-- Between two states the signals have been commanded and the FAULT source judged, and nothing else has been done. -/
def State.SignalsOnly (s t : State) : Prop :=
  ∃ a b fa fb fault faults, t = { s with
    bridge := { s.bridge with aspectA := a, aspectB := b, feedbackA := fa, feedbackB := fb
                              holds := { s.bridge.holds with fault := fault } }
    faults := faults }

theorem State.SignalsOnly.trans {s t u : State} (h : s.SignalsOnly t) (k : t.SignalsOnly u) : s.SignalsOnly u := by
  obtain ⟨_, _, _, _, _, _, rfl⟩ := h
  obtain ⟨_, _, _, _, _, _, rfl⟩ := k
  exact ⟨_, _, _, _, _, _, rfl⟩

theorem State.SignalsOnly.leaves {s t : State} (h : s.SignalsOnly t) :
    t.capture = s.capture ∧ t.run = s.run ∧ t.axles = s.axles ∧ t.visits = s.visits ∧ t.inUse = s.inUse ∧
      t.outbox = s.outbox := by
  obtain ⟨_, _, _, _, _, _, rfl⟩ := h
  exact ⟨rfl, rfl, rfl, rfl, rfl, rfl⟩

theorem State.SignalsOnly.bridge {s t : State} (h : s.SignalsOnly t) :
    t.bridge.state = s.bridge.state ∧ t.bridge.grant = s.bridge.grant ∧ t.bridge.grantTimer = s.bridge.grantTimer ∧
      t.bridge.holds = { s.bridge.holds with fault := t.bridge.holds.fault } := by
  obtain ⟨_, _, _, _, _, _, rfl⟩ := h
  exact ⟨rfl, rfl, rfl, rfl⟩

theorem State.compareLamps_signalsOnly (s : State) (e : BridgeEnd) : s.SignalsOnly (s.compareLamps e) := by
  have hfeedback : ∀ on, s.SignalsOnly (s.setFeedback e on) := by
    cases e <;> exact fun _ => ⟨_, _, _, _, _, _, rfl⟩
  have hclear : ∀ u : State, u.SignalsOnly (u.clearFault (lampKey e)) := by
    intro u
    unfold State.clearFault
    split <;> exact ⟨_, _, _, _, _, _, rfl⟩
  unfold State.compareLamps
  split
  · exact (hfeedback false).trans (hclear _)
  · split
    · exact ⟨_, _, _, _, _, _, rfl⟩
    · exact hfeedback true

theorem State.recommand_signalsOnly (s : State) : s.SignalsOnly s.recommand := by
  have hset : s.SignalsOnly { s with bridge.aspectA := s.bridge.aspectFor .a, bridge.aspectB := s.bridge.aspectFor .b } :=
    ⟨_, _, _, _, _, _, rfl⟩
  exact (hset.trans (State.compareLamps_signalsOnly _ .a)).trans (State.compareLamps_signalsOnly _ .b)

/-! ### A hold that the judgement of FAULT cannot lift -/

/-- A source stands that no settling judges away: a port's, the manual metrology hold or SUPPLY. -/
def Holds.pressed (h : Holds) : Bool := h.gatehouse || h.lane || h.manual || h.supply

/-- Such a source puts a hold in force, the manual hold by METROLOGY (R76). -/
theorem Holds.inForce_of_pressed {h : Holds} (hp : h.pressed = true) (hm : h.manual = true → h.metrology = true) :
    h.inForce = true := by
  simp only [Holds.pressed, Bool.or_eq_true] at hp
  simp only [Holds.inForce, Bool.or_eq_true]
  tauto

theorem State.judgeSources_held {s : State} (h : s.bridge.holds.pressed = true) : s.judgeSources.held = true :=
  Holds.inForce_of_pressed (h := s.judgeSources.bridge.holds) h fun hm => by
    have hmanual : s.bridge.holds.manual = true := hm
    simp [State.judgeSources, hmanual]

/-- R77, R53: a hold that comes into force. -/
theorem State.followHold_comes {s : State} {before : Holds} (hb : before.inForce = false) (hs : s.held = true) :
    s.followHold before = (s.pauseGrantTimer true).refuseWaiting .held none := by
  simp [State.followHold, hb, hs]

/-- A hold that stands brings nothing. -/
theorem State.followHold_stands {s : State} {before : Holds} (hb : before.inForce = true) (hs : s.held = true) :
    s.followHold before = s := by
  simp [State.followHold, hb, hs]

/-- The hold set that the follow-up of its change leaves. -/
theorem State.followed_holds (s : State) (before : Holds) :
    ((s.followHold before).followPointSources before).bridge.holds = s.bridge.holds := by
  rw [show ((s.followHold before).followPointSources before).bridge = (s.followHold before).bridge by simp,
    State.followHold_bridge]

/-- A pass under a hold, its change followed, commands the signals. -/
theorem State.settlePass_held {s : State} {before : Holds} (h : s.judgeSources.held = true) :
    ((s.judgeSources.followHold before).followPointSources before).SignalsOnly (s.settlePass before) := by
  have hheld : ((s.judgeSources.followHold before).followPointSources before).held = true := by
    rw [State.held, State.followed_holds]
    exact h
  rw [State.settlePass, State.grantIfDue_held hheld]
  exact State.recommand_signalsOnly _

/-- A second pass under a standing hold commands the signals once more. -/
theorem State.settlePass_again {s : State} (before : Holds) (h : s.bridge.holds.pressed = true) :
    (s.settlePass before).SignalsOnly ((s.settlePass before).settlePass (s.settlePass before).bridge.holds) := by
  obtain ⟨hmet, hfault, -, -, -, -, -, hlow⟩ := s.settlePass_spec before
  have hholds := s.settlePass_holds before
  generalize s.settlePass before = t at hmet hfault hlow hholds
  have hpressed : t.bridge.holds.pressed = true := by rw [hholds]; exact h
  have hin : t.bridge.holds.inForce = true := by rw [hholds]; exact State.judgeSources_held h
  have hjudge : t.SignalsOnly t.judgeSources := by
    unfold State.judgeSources
    rw [← hmet]
    exact ⟨_, _, _, _, _, _, rfl⟩
  have hpoint : t.judgeSources.followPointSources t.bridge.holds = t.judgeSources := by
    refine State.followPointSources_within ⟨id, id, fun hm => hmet.trans hm, fun hf => ?_, id⟩
    rw [hfault]
    by_contra hs
    exact absurd hf (by simp [State.judgeSources, hlow (by simpa using hs)])
  have hpass := State.settlePass_held (before := t.bridge.holds) (State.judgeSources_held hpressed)
  rw [State.followHold_stands hin (State.judgeSources_held hpressed), hpoint] at hpass
  exact hjudge.trans hpass

/-- A settling under a standing hold: the sources judged and the change of the hold set followed, then the signals. -/
theorem State.settle_pressed {s : State} (before : Holds) (h : s.bridge.holds.pressed = true) :
    ((s.judgeSources.followHold before).followPointSources before).SignalsOnly (s.settle before) := by
  have hfirst := State.settlePass_held (before := before) (State.judgeSources_held h)
  unfold State.settle
  simp only []
  split
  · exact hfirst
  · exact hfirst.trans (State.settlePass_again before h)

end Sys2Proof.Machine
end

