-- ==== Sys2Proof/Proofs/PortSources.lean ====
section
/-! Hold Bridge and Release Hold (R53, R64, R74, R76 to R78, R168). -/

namespace Sys2Proof.Machine

/-! ### The source of a port set -/

/-- R76: the state with the source of a port set. -/
def State.portHeld (s : State) (p : Port) : State := { s with bridge.holds := s.bridge.holds.ofPort p true }

/-- R168: a port whose source, GATEHOUSE or LANE, comes to be set. -/
def Holds.fresh (h : Holds) (p : Port) : Prop := (p = .gatehouse ∧ h.gatehouse = false) ∨ (p = .lane ∧ h.lane = false)

theorem Holds.ofPort_pressed (h : Holds) (p : Port) : (h.ofPort p true).pressed = true := by
  cases p <;> simp [Holds.ofPort, Holds.pressed]

/-- R76: a hold set with the source of a port set, a manual metrology hold putting METROLOGY in force. -/
def Holds.portSet (h : Holds) (p : Port) : Holds :=
  { h with gatehouse := h.gatehouse || p = .gatehouse, lane := h.lane || p = .lane
           manual := h.manual || p = .metrology, metrology := h.metrology || p = .metrology }

/-- R76, R183: the hold set with the source of a port set, as it is judged. -/
theorem State.judgeSources_portHeld {s : State} (h : s.sourcesJudged) (p : Port) :
    (s.portHeld p).judgeSources = { s with bridge.holds := s.bridge.holds.portSet p } := by
  obtain ⟨hmet, hfault⟩ := h
  have hf : (s.portHeld p).faultJudged = s.bridge.holds.fault := by
    rw [hfault]
    exact State.faultJudged_congr rfl rfl rfl
  unfold State.judgeSources Holds.portSet
  rw [hf, hmet]
  cases p <;> simp [State.portHeld, Holds.ofPort, State.accessOpen]

/-- R53, R77, R168: the change that the source of a port brings, followed. -/
def State.followsPort (s : State) (p : Port) : State :=
  ((s.portHeld p).judgeSources.followHold s.bridge.holds).followPointSources s.bridge.holds

theorem State.followPointSources_eq (s : State) (before : Holds) :
    s.followPointSources before =
      if (before.gatehouse = false ∧ s.bridge.holds.gatehouse = true) ∨
          (before.lane = false ∧ s.bridge.holds.lane = true) ∨ (before.fault = false ∧ s.bridge.holds.fault = true)
      then s.endPoint .held else s := by
  simp [State.followPointSources, or_assoc]

/-- R168: a waiting point ends where GATEHOUSE or LANE comes to be set. -/
theorem State.followsPort_point {s : State} {p : Port} (h : s.sourcesJudged) {f : State}
    (hf : (s.portHeld p).judgeSources.followHold s.bridge.holds = f) :
    (s.bridge.holds.fresh p → s.followsPort p = f.endPoint .held) ∧
      (¬s.bridge.holds.fresh p → s.followsPort p = f) := by
  have hholds : f.bridge.holds = (s.portHeld p).judgeSources.bridge.holds := by
    rw [← hf, State.followHold_bridge]
  rw [State.judgeSources_portHeld h] at hholds
  rw [State.followsPort, hf, State.followPointSources_eq, hholds]
  constructor <;> intro hfresh
  · refine if_pos ?_
    rcases hfresh with ⟨rfl, hc⟩ | ⟨rfl, hc⟩ <;> simp [hc, Holds.portSet]
  · refine if_neg ?_
    cases p <;> simp_all [Holds.fresh, Holds.portSet]

/-- The notices of a waiting point that ends with HELD (R168). -/
def State.pointNews (s : State) : List (Port × Notice) :=
  ((s.run.bind (·.waiting)).toList).map (fun w => (.metrology, .testPointEnded w.target w.reference .held))

section
variable {s : State} {p : Port}

/-- R53, R77: the grant timer paused and the capture ended where the hold comes into force. -/
theorem State.followHold_portHeld (h : s.sourcesJudged) (p : Port) :
    ((s.portHeld p).judgeSources.followHold s.bridge.holds).bridge =
        { s.bridge with
          holds := s.bridge.holds.portSet p
          grantTimer := if s.held then s.bridge.grantTimer
                        else s.bridge.grantTimer.map (fun x => { x with paused := true }) } ∧
      ((s.portHeld p).judgeSources.followHold s.bridge.holds).capture =
        (if s.held then s else s.refuseWaiting .held none).capture ∧
      ((s.portHeld p).judgeSources.followHold s.bridge.holds).outbox =
        s.outbox ++ if s.held then [] else s.refusedNews .held := by
  have hjudged := State.judgeSources_portHeld h p
  have hheld : (s.portHeld p).judgeSources.held = true := State.judgeSources_held (Holds.ofPort_pressed _ _)
  cases hs : s.held with
  | true =>
    rw [State.followHold_stands hs hheld, hjudged]
    exact ⟨rfl, rfl, by simp⟩
  | false =>
    rw [State.followHold_comes hs hheld]
    refine ⟨?_, ?_, ?_⟩
    · simp [hjudged]
    · rw [hjudged]
      unfold State.refuseWaiting State.pauseGrantTimer
      simp only []
      split <;> rfl
    · rw [State.refuseWaiting_outbox, hjudged]
      rfl

/-- What following the source of a port leaves of the bridge, the capture, the run and the rest. -/
theorem State.followsPort_spec (h : s.sourcesJudged) (p : Port) :
    (s.followsPort p).bridge =
        { s.bridge with
          holds := s.bridge.holds.portSet p
          grantTimer := if s.held then s.bridge.grantTimer
                        else s.bridge.grantTimer.map (fun x => { x with paused := true }) } ∧
      (s.followsPort p).capture = (if s.held then s else s.refuseWaiting .held none).capture ∧
      (s.bridge.holds.fresh p → (s.followsPort p).run = s.run.map (fun r => { r with waiting := none }) ∧
        (s.followsPort p).outbox = s.outbox ++ ((if s.held then [] else s.refusedNews .held) ++ s.pointNews)) ∧
      (¬s.bridge.holds.fresh p → (s.followsPort p).run = s.run ∧
        (s.followsPort p).outbox = s.outbox ++ if s.held then [] else s.refusedNews .held) ∧
      s.followsPort p = { s with bridge := (s.followsPort p).bridge, capture := (s.followsPort p).capture
                                 run := (s.followsPort p).run, outbox := (s.followsPort p).outbox } := by
  obtain ⟨hbridge, hcapture, hout⟩ := State.followHold_portHeld h p
  obtain ⟨f, hf⟩ : ∃ f, (s.portHeld p).judgeSources.followHold s.bridge.holds = f := ⟨_, rfl⟩
  obtain ⟨hfresh, hstale⟩ := State.followsPort_point h hf
  have hrun : f.run = s.run := by
    rw [← hf]
    simp [State.portHeld]
  have hframe : s.followsPort p = { s with bridge := (s.followsPort p).bridge, capture := (s.followsPort p).capture
                                           run := (s.followsPort p).run, outbox := (s.followsPort p).outbox } := by
    refine State.eq_iff_fields.2 ?_
    simp [State.followsPort, State.portHeld]
  rw [hf] at hbridge hcapture hout
  by_cases hc : s.bridge.holds.fresh p
  · rw [hfresh hc] at hframe ⊢
    refine ⟨?_, ?_, fun _ => ⟨?_, ?_⟩, fun hn => absurd hc hn, hframe⟩
    · simpa using hbridge
    · simpa using hcapture
    · rw [State.endPoint_run_eq, hrun]
    · rw [State.endPoint_outbox, hout, hrun, List.append_assoc]
      rfl
  · rw [hstale hc] at hframe ⊢
    exact ⟨hbridge, hcapture, fun hn => absurd hn hc, fun _ => ⟨hrun, hout⟩, hframe⟩

end

end Sys2Proof.Machine
end

