-- ==== Sys2Proof/Proofs/HoldBridge.lean ====
section
/-! Hold Bridge (R53, R74, R76 to R78, R168). -/

namespace Sys2Proof.Machine

/-- What the event of Hold Bridge leaves: the change of its source followed, then the signals. -/
theorem event_portHeld {s : State} (hs : s.settled = true) (hn : s.commitNote = none) (p : Port) :
    (s.followsPort p).SignalsOnly ((s.portHeld p).settle s.bridge.holds) ∧
      (event s (s.portHeld p)).bridge.aspectA = .red ∧ (event s (s.portHeld p)).bridge.aspectB = .red ∧
      (event s (s.portHeld p)).held = true ∧
      event s (s.portHeld p) = { s with
        bridge := (event s (s.portHeld p)).bridge, capture := (s.followsPort p).capture, run := (s.followsPort p).run
        faults := (event s (s.portHeld p)).faults, ports := (event s (s.portHeld p)).ports } := by
  have hj := State.sourcesJudged_of_settled hs
  have hpressed : (s.portHeld p).bridge.holds.pressed = true := Holds.ofPort_pressed _ _
  have hsignals : (s.followsPort p).SignalsOnly ((s.portHeld p).settle s.bridge.holds) :=
    State.settle_pressed s.bridge.holds hpressed
  obtain ⟨-, -, -, -, hframe⟩ := State.followsPort_spec hj p
  obtain ⟨hbridge, hcapture, haxles, hvisits, huse, hrun, -⟩ := event_settle s (s.portHeld p)
  have hin : (event s (s.portHeld p)).held = true := by
    rw [State.held, hbridge]
    obtain ⟨hmet, -⟩ := (s.portHeld p).settle_spec s.bridge.holds
    refine Holds.inForce_of_pressed ?_ fun hm => by rw [hmet, hm, Bool.or_true]
    rw [State.settle_holds]
    exact hpressed
  obtain ⟨-, -, -, hA, hB, -⟩ := (State.bridgeSettled_iff _).1 (event_bridgeSettled s (s.portHeld p))
  refine ⟨hsignals, hA.trans (Bridge.aspectFor_of_inForce _ hin), hB.trans (Bridge.aspectFor_of_inForce _ hin), hin, ?_⟩
  obtain ⟨hc, hr, ha, hv, hi, -⟩ := hsignals.leaves
  have ha' := haxles.trans (ha.trans (congrArg State.axles hframe))
  have hv' := hvisits.trans (hv.trans (congrArg State.visits hframe))
  have hi' := huse.trans (hi.trans (congrArg State.inUse hframe))
  have hc' := hcapture.trans hc
  have hr' := hrun.trans hr
  have hwrites : (event s (s.portHeld p)).writes = s.writes := by
    have hnote : (s.portHeld p).commitNote = none := hn
    refine (event_writes_of_same (t := s.portHeld p) (changedRegions_same ?_ ?_ ?_ ?_ ?_ ?_ ?_) hnote)
    iterate 2 simp [State.portHeld]
    · simpa using hv.trans (congrArg State.visits hframe)
    iterate 4 simp [State.portHeld]
  have hout : s.outbox = [] := (s.settled_iff.1 hs).1
  refine State.eq_iff_fields.2 ?_
  simp [hc', ha', hv', hi', hr', hwrites, hn, hout]
  simp [State.portHeld]

/-- The capture that a refusal leaves depends on the one it finds alone. -/
theorem State.refuseWaiting_capture_congr {s t : State} (code : Status) (h : t.capture = s.capture) :
    (t.refuseWaiting code none).capture = (s.refuseWaiting code none).capture := by
  unfold State.refuseWaiting
  rw [h]
  split
  · exact h
  · simp only [State.endCapture_eq, State.post_frame, h]

/-- R53, R76, R77, R168: Hold Bridge, by what following its source leaves. -/
theorem exec_holdBridge {s : State} {p : Port} {tag : Octet} {payload : List Octet} (h : s.ready p 24 payload = true) :
    ∃ t, exec (.holdBridge p tag payload) s = .next t ∧ t.replied p 24 tag .ok .empty = true ∧ t.held = true ∧
      t.bridge.aspectA = .red ∧ t.bridge.aspectB = .red ∧ t.bridge.state = s.bridge.state ∧
      t.bridge.grant = s.bridge.grant ∧
      t.bridge.grantTimer = (if s.held then s.bridge.grantTimer
                             else s.bridge.grantTimer.map (fun x => { x with paused := true })) ∧
      t.bridge.holds = { s.bridge.holds.portSet p with fault := t.bridge.holds.fault } ∧
      t.capture = (if s.held then s else s.refuseWaiting .held none).capture ∧
      (s.bridge.holds.fresh p → t.run = s.run.map (fun r => { r with waiting := none }) ∧
        t.ports = ((t.heard s ((if s.held then [] else s.refusedNews .held) ++ s.pointNews)).answered
          p 24 tag .ok .empty).ports) ∧
      (¬s.bridge.holds.fresh p → t.run = s.run ∧
        t.ports = ((t.heard s (if s.held then [] else s.refusedNews .held)).answered p 24 tag .ok .empty).ports) ∧
      t = { s with bridge := t.bridge, capture := t.capture, run := t.run, faults := t.faults, ports := t.ports } := by
  obtain ⟨hs, hout, hn⟩ := State.hunt_settled ((s.ready_iff _ _ _).1 h).2 p
  have hj := State.sourcesJudged_of_settled hs
  have hframe := s.hunt_frame p
  have hbridge : (s.hunt p).bridge = s.bridge := by simp
  have hheld := s.held_hunt p
  have hnews := s.refusedNews_hunt p .held
  have hpoint : (s.hunt p).pointNews = s.pointNews := by cases p <;> rfl
  have hcap : (s.hunt p).capture = s.capture := by simp
  obtain ⟨hsignals, hA, hB, hin, hevent⟩ := event_portHeld hs hn p
  obtain ⟨hb, hcapture, hfresh, hstale, -⟩ := State.followsPort_spec hj p
  rw [hbridge, hheld] at hb
  rw [hbridge, hout, hheld, hnews, hpoint] at hfresh
  rw [hbridge, hout, hheld, hnews] at hstale
  have htaken : holdBridge p (s.hunt p) = .ok ((s.hunt p).portHeld p, .ok, .empty) := rfl
  have hports : ((s.hunt p).portHeld p).ports = (s.hunt p).ports := rfl
  generalize (s.hunt p).portHeld p = u at hsignals hA hB hin hevent htaken hports
  generalize (s.hunt p).followsPort p = q at hsignals hb hcapture hfresh hstale hevent
  obtain ⟨hstate, hgrant, htimer, hholds⟩ := hsignals.bridge
  obtain ⟨-, -, -, -, -, hbox⟩ := hsignals.leaves
  rw [hbridge] at hbox
  rw [← (event_settle (s.hunt p) u).1, hb] at hstate hgrant htimer hholds
  obtain ⟨t, ht, hreply, hports, hrest⟩ := request_event (tag := tag) h htaken hports hbox
  have htb : t.bridge = (event (s.hunt p) u).bridge := by rw [hrest]
  have htc : t.capture = q.capture := by rw [hrest, hevent]
  have htr : t.run = q.run := by rw [hrest, hevent]
  refine ⟨t, ht, hreply, ?_, ?_, ?_, ?_, ?_, ?_, ?_, ?_, fun hf => ?_, fun hf => ?_, ?_⟩
  · rw [State.held, htb]; exact hin
  · rw [htb, hA]
  · rw [htb, hB]
  · rw [htb, hstate]
  · rw [htb, hgrant]
  · rw [htb, htimer]
  · rw [htb, hholds]
  · rw [htc, hcapture, hheld]
    cases s.held
    · exact State.refuseWaiting_capture_congr .held hcap
    · exact hcap
  · obtain ⟨hrun, hnotes⟩ := hfresh hf
    exact ⟨by rw [htr, hrun]; simp, by rw [hports, hnotes]; rfl⟩
  · obtain ⟨hrun, hnotes⟩ := hstale hf
    exact ⟨by rw [htr, hrun]; simp, by rw [hports, hnotes]; rfl⟩
  · rw [hrest, hevent]
    refine State.eq_iff_fields.2 ?_
    simp

end Sys2Proof.Machine
end

