-- ==== Sys2Proof/Proofs/ReleaseHold.lean ====
section
/-! Release Hold (R64, R76 to R78), and both requests settled. -/

namespace Sys2Proof.Machine

/-! ### The source of a port cleared -/

/-- R76: the state with the source of a port cleared. -/
def State.portFreed (s : State) (p : Port) : State := { s with bridge.holds := s.bridge.holds.ofPort p false }

/-- A source cleared sets none. -/
theorem State.portFreed_within {s : State} (h : s.sourcesJudged) (p : Port) :
    (s.portFreed p).judgeSources.bridge.holds.within s.bridge.holds := by
  obtain ⟨hmet, hfault⟩ := h
  have hf : (s.portFreed p).faultJudged = s.faultJudged := State.faultJudged_congr rfl rfl rfl
  have hm : s.accessOpen = true ∨ s.run.isSome = true ∨ s.bridge.holds.manual = true →
      s.bridge.holds.metrology = true := by
    rw [hmet]
    simp only [Bool.or_eq_true]
    tauto
  refine ⟨?_, ?_, fun hj => hm ?_, fun hj => ?_, ?_⟩
  · cases p <;> simp [State.portFreed, Holds.ofPort, State.judgeSources]
  · cases p <;> simp [State.portFreed, Holds.ofPort, State.judgeSources]
  · revert hj
    cases p <;> simp [State.portFreed, Holds.ofPort, State.judgeSources, State.accessOpen, or_assoc]; tauto
  · rw [hfault, ← hf]
    exact hj
  · cases p <;> simp [State.portFreed, Holds.ofPort, State.judgeSources]

theorem State.portFreed_holds (s : State) (p : Port) :
    (s.portFreed p).bridge.holds = { s.bridge.holds with
      gatehouse := s.bridge.holds.gatehouse && p ≠ .gatehouse
      lane := s.bridge.holds.lane && p ≠ .lane
      manual := s.bridge.holds.manual && p ≠ .metrology } := by
  cases p <;> simp [State.portFreed, Holds.ofPort]

/-! ### A grant that a settling makes -/

/-- A pass that sets no source, its sources judged: at a FREE bridge with an entry to grant it grants where no hold is
in force, and else leaves the bridge FREE and its queues. -/
theorem State.settlePass_free {s : State} {before : Holds} {q : QueueEntry}
    (hw : s.judgeSources.bridge.holds.within before) (hfree : s.bridge.state = .free)
    (hq : selectEntry s.bridge.waiting = some q) :
    ((s.settlePass before).held = false → (s.settlePass before).bridge.state = .granted ∧
        (s.settlePass before).bridge.grant = some { ident := q.ident, entryEnd := q.entryEnd }) ∧
      ((s.settlePass before).held = true → (s.settlePass before).bridge.state = .free ∧
        (s.settlePass before).bridge.waiting = s.bridge.waiting) := by
  have hholds := s.settlePass_holds before
  have hheld : (s.settlePass before).held = s.judgeSources.held := congrArg Holds.inForce hholds
  rw [hheld]
  obtain ⟨f, hf⟩ : ∃ f, s.judgeSources.followHold before = f := ⟨_, rfl⟩
  have hbridge : f.bridge.state = .free ∧ f.bridge.waiting = s.bridge.waiting ∧
      f.bridge.holds = s.judgeSources.bridge.holds := by
    rw [← hf, State.followHold_bridge]
    exact ⟨hfree, rfl, rfl⟩
  obtain ⟨hfs, hfw, hfh⟩ := hbridge
  have hfheld : f.held = s.judgeSources.held := congrArg Holds.inForce hfh
  rw [State.settlePass, hf, State.followPointSources_within (by rw [hfh]; exact hw)]
  constructor <;> intro hx
  · have hgrant : f.grantIfDue = f.grantTo q := by
      simp [State.grantIfDue, hfs, hfheld, hx, hfw, hq]
    obtain ⟨-, -, hstate, -, hgranted, -⟩ := (f.grantTo q).recommand_spec
    rw [hgrant, hstate, hgranted]
    simp [State.grantTo]
  · rw [State.grantIfDue_held (hfheld.trans hx)]
    obtain ⟨hwaiting, -, hstate, -⟩ := f.recommand_spec
    exact ⟨hstate.trans hfs, hwaiting.trans hfw⟩

/-- A pass over a GRANTED bridge leaves its grant. -/
theorem State.settlePass_grant {s : State} (before : Holds) (h : s.bridge.state ≠ .free) :
    (s.settlePass before).bridge.state = s.bridge.state ∧ (s.settlePass before).bridge.grant = s.bridge.grant := by
  obtain ⟨f, hf⟩ : ∃ f, (s.judgeSources.followHold before).followPointSources before = f := ⟨_, rfl⟩
  have hbridge : f.bridge.state = s.bridge.state ∧ f.bridge.grant = s.bridge.grant := by
    rw [← hf, show ((s.judgeSources.followHold before).followPointSources before).bridge =
      (s.judgeSources.followHold before).bridge by simp, State.followHold_bridge]
    exact ⟨rfl, rfl⟩
  rw [State.settlePass, hf, State.grantIfDue_not_free (by rw [hbridge.1]; exact h)]
  obtain ⟨-, -, hstate, -, hgrant, -⟩ := f.recommand_spec
  exact ⟨hstate.trans hbridge.1, hgrant.trans hbridge.2⟩

/-- R63, R64: where a settling that sets no source leaves no hold in force, the entry to grant at a FREE bridge is
granted. -/
theorem State.settle_grants_released {s : State} {before : Holds} {q : QueueEntry}
    (hw : s.judgeSources.bridge.holds.within before) (hfree : s.bridge.state = .free)
    (hq : selectEntry s.bridge.waiting = some q) (hheld : (s.settle before).held = false) :
    (s.settle before).bridge.state = .granted ∧
      (s.settle before).bridge.grant = some { ident := q.ident, entryEnd := q.entryEnd } := by
  obtain ⟨hunheld, hstill⟩ := State.settlePass_free hw hfree hq
  have hwithin := State.settlePass_judged_within s before
  unfold State.settle at hheld ⊢
  simp only [] at hheld ⊢
  generalize s.settlePass before = t at hunheld hstill hwithin hheld ⊢
  split at hheld
  · next hone =>
    rw [if_pos hone]
    exact hunheld hheld
  · next htwo =>
    rw [if_neg htwo]
    cases ht : t.held with
    | false =>
      obtain ⟨hstate, hgrant⟩ := hunheld ht
      obtain ⟨hstate', hgrant'⟩ := State.settlePass_grant (s := t) t.bridge.holds (by rw [hstate]; decide)
      exact ⟨hstate'.trans hstate, hgrant'.trans hgrant⟩
    | true =>
      obtain ⟨hstate, hwaiting⟩ := hstill ht
      exact (State.settlePass_free hwithin hstate (by rw [hwaiting]; exact hq)).1 hheld

/-! ### Release Hold -/

/-- R67, R78: a timer that runs with no hold in force is not paused. -/
theorem State.grantTimer_runs {s : State} (h : s.bridgeConsistent = true) (hheld : s.held = false) {x : GrantTimer}
    (hx : s.bridge.grantTimer = some x) : x.paused = false := by
  have hpaused := (s.bridgeConsistent_iff.1 h).paused x.paused (by simp [State.bridgeView, hx])
  rw [hpaused, hheld]

/-- R64, R76, R78: Release Hold over a consistent bridge. -/
theorem exec_releaseHold {s : State} {p : Port} {tag : Octet} {payload : List Octet} (h : s.ready p 25 payload = true)
    (hcons : s.bridgeConsistent = true) :
    ∃ t, exec (.releaseHold p tag payload) s = .next t ∧ t.replied p 25 tag .ok .empty = true ∧
      t.bridge.holds.gatehouse = (s.bridge.holds.gatehouse && p ≠ .gatehouse) ∧
      t.bridge.holds.lane = (s.bridge.holds.lane && p ≠ .lane) ∧
      t.bridge.holds.manual = (s.bridge.holds.manual && p ≠ .metrology) ∧
      t.bridge.holds.supply = s.bridge.holds.supply ∧
      (s.bridge.state ≠ .free → t.bridge.state = s.bridge.state ∧ t.bridge.grant = s.bridge.grant ∧
        t.visits = s.visits) ∧
      (∀ q, s.bridge.state = .free → selectEntry s.bridge.waiting = some q → t.held = false →
        t.bridge.state = .granted ∧ t.bridge.grant = some { ident := q.ident, entryEnd := q.entryEnd }) ∧
      (t.held = false → ∀ x, t.bridge.grantTimer = some x → x.paused = false) ∧
      t.ports = ((t.heard s (s.grantNews t)).answered p 25 tag .ok .empty).ports ∧
      t = { s with bridge := t.bridge, axles := t.axles, visits := t.visits, inUse := t.inUse, faults := t.faults,
                   ports := t.ports, writes := t.writes } := by
  obtain ⟨hs, hout, hn⟩ := State.hunt_settled ((s.ready_iff _ _ _).1 h).2 p
  have hframe := s.hunt_frame p
  have hbridge : (s.hunt p).bridge = s.bridge := by simp
  have hwithin := State.portFreed_within (State.sourcesJudged_of_settled hs) p
  have hholds := (s.hunt p).portFreed_holds p
  have hu : (s.hunt p).portFreed p = { s.hunt p with bridge := ((s.hunt p).portFreed p).bridge } := rfl
  have hub : ((s.hunt p).portFreed p).bridge.state = s.bridge.state ∧
      ((s.hunt p).portFreed p).bridge.waiting = s.bridge.waiting ∧
      ((s.hunt p).portFreed p).bridge.grant = s.bridge.grant := by rw [← hbridge]; exact ⟨rfl, rfl, rfl⟩
  have htaken : releaseHold p (s.hunt p) = .ok ((s.hunt p).portFreed p, .ok, .empty) := rfl
  generalize (s.hunt p).portFreed p = u at hwithin hholds hu hub htaken
  obtain ⟨hus, huw, hug⟩ := hub
  rw [hbridge] at hwithin hholds
  have hquiet := State.settle_within hwithin
  have hresettled := State.settle_resettled hwithin
  have hsettled := u.settle_holds s.bridge.holds
  have huout : u.outbox = [] := by rw [hu]; exact hout
  obtain ⟨hevb, hevc, -, hevv, -, hevr, -⟩ := event_settle (s.hunt p) u
  rw [hbridge] at hevb hevc hevv hevr
  obtain ⟨t, ht, hreply, hports, hrest⟩ := request_event (tag := tag) h htaken (by rw [hu]) hquiet.grants.outbox_eq
  have hexec : exec (.releaseHold p tag payload) s = .next t := ht
  have htb : t.bridge = (u.settle s.bridge.holds).bridge := by rw [hrest, ← hevb]
  have htheld : t.held = (u.settle s.bridge.holds).held := congrArg (fun b => b.holds.inForce) htb
  have hnews : u.grantNews (u.settle s.bridge.holds) = s.grantNews t := by
    simp only [State.grantNews, htb, hus, huw]
  rw [huout, hnews, List.nil_append] at hports
  rw [hholds] at hsettled
  refine ⟨t, hexec, hreply, ?_, ?_, ?_, ?_, fun hfree => ?_, fun q hfree hq hf => ?_,
    fun hf x hx => State.grantTimer_runs (exec_eventsKeep hexec hcons) hf hx, hports, ?_⟩
  · rw [htb, hsettled]
  · rw [htb, hsettled]
  · rw [htb, hsettled]
  · rw [htb, hsettled]
  · obtain ⟨hstate, -, hgrant, hvisits, -⟩ := hresettled.stays (.inl (by rw [hus]; exact hfree))
    refine ⟨by rw [htb, hstate, hus], by rw [htb, hgrant, hug], ?_⟩
    rw [hrest]
    exact hevv.trans (hvisits.trans (by rw [hu]; simp))
  · rw [htb]
    exact State.settle_grants_released hwithin (hus.trans hfree) (by rw [huw]; exact hq) (htheld ▸ hf)
  · have hcapture := hevc.trans hquiet.capture
    have hrun := hevr.trans hquiet.run
    have hevent := event_frame (s.hunt p) u
    have hn' : s.commitNote = none := by simpa using hn
    have hout' : s.outbox = [] := by simpa using hout
    rw [hrest]
    refine State.eq_iff_fields.2 ?_
    simp only [hevent, event_outbox, event_commitNote, hcapture, hrun, hn', hout']
    rw [hu]
    simp

/-- Settles O33: Hold Bridge is an event under the hold that it puts in force, Release Hold one that sets no source. -/
theorem portHoldsSetAndClearTheirSource : Obligations.PortHoldsSetAndClearTheirSource := by
  refine ⟨fun p => by cases p <;> decide, fun s p tag payload => ⟨fun h => ?_, exec_releaseHold⟩⟩
  intro fresh
  obtain ⟨t, ht, hreply, hheld, hA, hB, hstate, hgrant, htimer, hholds, hcapture, hfresh, hstale, hrest⟩ :=
    exec_holdBridge (tag := tag) h
  have hset : t.bridge.holds.gatehouse = (s.bridge.holds.gatehouse || p = .gatehouse) ∧
      t.bridge.holds.lane = (s.bridge.holds.lane || p = .lane) ∧
      t.bridge.holds.manual = (s.bridge.holds.manual || p = .metrology) ∧
      t.bridge.holds.metrology = (s.bridge.holds.metrology || p = .metrology) ∧
      t.bridge.holds.supply = s.bridge.holds.supply := by
    rw [hholds]
    exact ⟨rfl, rfl, rfl, rfl, rfl⟩
  obtain ⟨hgatehouse, hlane, hmanual, hmetrology, hsupply⟩ := hset
  refine ⟨t, ht, hreply, hheld, hgatehouse, hlane, hmanual, hmetrology, hsupply, hA, hB, hstate, hgrant, fun hs => ?_,
    fun hs => ?_, fun c hs hc => ?_, fun hs => ?_, fun hf => (hfresh hf).1, fun hf => (hstale hf).1, ?_, hrest⟩
  · rw [htimer, hs, if_neg Bool.false_ne_true]
  · rw [htimer, if_pos hs]
  · rw [hcapture, hs, if_neg Bool.false_ne_true]
    exact State.refuseWaiting_some .held hc
  · rw [hcapture]
    rcases hs with hs | hs
    · rw [if_pos hs]
    · rw [State.refuseWaiting_none _ _ hs, ite_self]
  · by_cases hf : fresh
    · rw [if_pos hf]
      exact (hfresh hf).2
    · rw [if_neg hf, List.append_nil]
      exact (hstale hf).2

end Sys2Proof.Machine
end

