-- ==== Sys2Proof/Proofs/NoticeOrder.lean ====
section
/-! The order in which an event hands over its notices shows in a queue only between notices of one number (R197). -/

namespace Sys2Proof.Machine

/-! ### Insertion by number -/

/-- Notices of different numbers may be inserted in either order. -/
theorem insertNotice_comm {m n : Notice} (h : m.number ≠ n.number) (l : List Notice) :
    insertNotice m (insertNotice n l) = insertNotice n (insertNotice m l) := by
  have hsplit : (m.number < n.number ∧ ¬n.number < m.number) ∨ (¬m.number < n.number ∧ n.number < m.number) := by omega
  induction l with
  | nil => rcases hsplit with ⟨hlt, hge⟩ | ⟨hge, hlt⟩ <;> simp [insertNotice, hlt, hge]
  | cons k l ih =>
    by_cases hm : m.number < k.number <;> by_cases hn : n.number < k.number
    · rcases hsplit with ⟨hlt, hge⟩ | ⟨hge, hlt⟩ <;> simp [insertNotice, hm, hn, hlt, hge]
    · have hge : ¬n.number < m.number := by omega
      simp [insertNotice, hm, hn, hge]
    · have hge : ¬m.number < n.number := by omega
      simp [insertNotice, hm, hn, hge]
    · simp [insertNotice, hm, hn, ih]

/-- A notice may be inserted before or after others of different numbers. -/
theorem foldl_insertNotice_comm {n : Notice} {l : List Notice} (h : ∀ m ∈ l, m.number ≠ n.number) (acc : List Notice) :
    l.foldl (fun acc m => insertNotice m acc) (insertNotice n acc) =
      insertNotice n (l.foldl (fun acc m => insertNotice m acc) acc) := by
  induction l generalizing acc with
  | nil => rfl
  | cons m l ih =>
    obtain ⟨hm, hl⟩ := List.forall_mem_cons.1 h
    rw [List.foldl_cons, insertNotice_comm hm, ih hl, List.foldl_cons]

/-- So may two lists of notices that have no number in common. -/
theorem foldl_insertNotice_swap {k l : List Notice} (h : ∀ n ∈ k, ∀ m ∈ l, m.number ≠ n.number) (acc : List Notice) :
    (k ++ l).foldl (fun acc m => insertNotice m acc) acc = (l ++ k).foldl (fun acc m => insertNotice m acc) acc := by
  induction k generalizing acc with
  | nil => simp
  | cons n k ih =>
    obtain ⟨hn, hk⟩ := List.forall_mem_cons.1 h
    rw [List.cons_append, List.foldl_cons, ih hk, List.foldl_append, foldl_insertNotice_comm hn, List.foldl_append,
      List.foldl_cons]

/-! ### Outboxes that fill the queues alike -/

theorem outboxFor_append (k l : List (Port × Notice)) (p : Port) : outboxFor (k ++ l) p = outboxFor k p ++ outboxFor l p := by
  simp [outboxFor]

/-- Two outboxes that fill every queue alike, whatever came before them. -/
def sameQueues (k l : List (Port × Notice)) : Prop :=
  ∀ (p : Port) (acc : List Notice), (outboxFor k p).foldl (fun acc m => insertNotice m acc) acc =
    (outboxFor l p).foldl (fun acc m => insertNotice m acc) acc

theorem sameQueues.refl (l : List (Port × Notice)) : sameQueues l l := fun _ _ => rfl

theorem sameQueues.trans {j k l : List (Port × Notice)} (h : sameQueues j k) (g : sameQueues k l) : sameQueues j l :=
  fun p acc => (h p acc).trans (g p acc)

theorem sameQueues.append {k k' l l' : List (Port × Notice)} (h : sameQueues k k') (g : sameQueues l l') :
    sameQueues (k ++ l) (k' ++ l') := by
  intro p acc
  simp only [outboxFor_append, List.foldl_append]
  rw [h p acc, g p]

/-- Lists with no number in common fill the queues alike in either order. -/
theorem sameQueues.swap {k l : List (Port × Notice)} (h : ∀ n ∈ k, ∀ m ∈ l, m.2.number ≠ n.2.number) :
    sameQueues (k ++ l) (l ++ k) := by
  intro p acc
  simp only [outboxFor_append]
  refine foldl_insertNotice_swap (fun n hn m hm => ?_) acc
  obtain ⟨e, he, rfl⟩ := List.mem_map.1 hn
  obtain ⟨f, hf, rfl⟩ := List.mem_map.1 hm
  exact h e (List.mem_of_mem_filter he) f (List.mem_of_mem_filter hf)

theorem State.flush_ports_of_sameQueues {s t : State} (hp : s.ports = t.ports) (h : sameQueues s.outbox t.outbox) :
    s.flush.ports = t.flush.ports := by
  have hsort : ∀ p, sortNotices (outboxFor s.outbox p) = sortNotices (outboxFor t.outbox p) := fun p => h p []
  simp only [State.flush, hp, hsort]

end Sys2Proof.Machine
end

