-- ==== Sys2Proof/Proofs/RoundOverOccupied.lean ====
section
/-! A round that ends reaches the blocks with a capture waiting or not (R31, R32, R49, log 7). -/

namespace Sys2Proof.Machine

/-! ### The window that a round leaves -/

/-- R42: a setting of zeros leaves the moments of the window. -/
theorem State.setZeros_moments (s : State) (decks : List DeckValues) (news : List (Nat × Int)) :
    (s.setZeros decks news).weigh.window.map (·.moment) = s.weigh.window.map (·.moment) := by
  unfold State.setZeros
  simp only []
  split <;> simp

theorem State.tryStartUpZero_moments (s : State) :
    s.tryStartUpZero.weigh.window.map (·.moment) = s.weigh.window.map (·.moment) := by
  unfold State.tryStartUpZero
  repeat' split
  · rfl
  · exact s.setZeros_moments _ _
  · rfl

/-- The judgement of a round depends on the weighing alone. -/
theorem State.judgeStability_weigh_congr {s t : State} (h : s.weigh = t.weigh) :
    s.judgeStability.weigh = t.judgeStability.weigh := by
  unfold State.judgeStability
  rw [h]
  split <;> simp

theorem State.roundTaken_moments (s : State) (r : RoundValues) :
    (s.roundTaken r).weigh.window.map (·.moment) = s.weigh.window.map (·.moment) := by
  simp [State.roundTaken, State.tryStartUpZero_moments]

/-- R49: the window entries of a round that ends, by the moments at which their rounds ended. -/
theorem State.roundDone_moments (s : State) (i : Nat) (reply : Option CellReply) :
    (s.polled i reply).roundDone.weigh.window.map (·.moment) =
      (s.judgedOn (s.polled i reply).computeRound).weigh.window.map (·.moment) := by
  generalize hr : (s.polled i reply).computeRound = r
  have hcompute := (s.polled i reply).endRound_computeRound.trans hr
  have hweigh : (s.polled i reply).endRound.weighRound.weigh =
      { s.weigh with latest := some r, histories := (s.polled i reply).endRound.newHistories
                     roundTable := s.bus.table, rounds := s.weigh.rounds + 1 } := by
    have htable : (s.polled i reply).endRound.bus.table = s.bus.table := by
      rw [State.endRound_bus]
      rfl
    simp only [State.weighRound, hcompute, htable, State.endRound_frame]
    rfl
  have hjudge : (event (s.polled i reply) (s.polled i reply).endRound.weighRound).judgeStability.weigh =
      { (s.judgedOn r).weigh with histories := (s.polled i reply).endRound.newHistories } := by
    refine Eq.trans ?_ (congrArg State.weigh (s.judgeStability_of_round r s.bus (s.polled i reply).endRound.newHistories))
    exact State.judgeStability_weigh_congr ((event_frame _ _).2.2.2.1.trans hweigh)
  rw [State.roundDone, State.issueRound_of_latest (r := r) (by simp [hweigh]), State.roundTaken_moments]
  simp [hjudge]

/-! ### Up to the blocks -/

theorem State.givenRound_weigh (u : State) (r : RoundValues) :
    (u.givenRound r).weigh = u.weigh ∧ (u.givenRound r).bus = u.bus := by
  simp [State.givenRound]

/-- The blocks leave a state between two events. -/
theorem State.blocksTakeRound_between {u : State} (r : RoundValues) (h : u.bridge.state = .occupied) :
    (u.blocksTakeRound r).settled = true ∧ (u.blocksTakeRound r).commitNote = none := by
  obtain ⟨order, horder, hblocks⟩ := State.blocksTakeRound_occupied r h
  have htake : ∀ (x : State) (k : RoundTaker),
      (State.takeAs r x k).settled = true ∧ (State.takeAs r x k).commitNote = none := by
    intro x k
    cases k <;> exact ⟨event_settled _ _, event_commitNote _ _⟩
  obtain ⟨l, k, rfl⟩ : ∃ l k, order = l ++ [k] := by
    refine ⟨order.dropLast, order.getLast ?_, (List.dropLast_append_getLast _).symm⟩
    rintro rfl
    exact absurd horder (by decide)
  rw [hblocks, List.foldl_append]
  exact htake _ k

/-- What the events after the blocks leave as the blocks left it. -/
structure State.PassedOn (u t : State) : Prop where
  capture : t.capture = u.capture
  bridge : t.bridge = u.bridge
  axles : t.axles = u.axles
  visits : t.visits = u.visits
  inUse : t.inUse = u.inUse
  tares : t.tares = u.tares
  tickets : t.tickets = u.tickets
  cal : t.cal = u.cal
  evidence : t.evidence = u.evidence
  ports : u.run = none → t.ports = u.ports

/-- After the blocks come the waiting point and the Fault Unit. -/
theorem State.givenRound_passedOn {u : State} (r : RoundValues) (h : u.bridge.state = .occupied) :
    (u.givenRound r).settled = true ∧ (u.givenRound r).commitNote = none ∧
      (u.blocksTakeRound r).PassedOn (u.givenRound r) := by
  obtain ⟨hblocks, hnote⟩ := State.blocksTakeRound_between r h
  obtain ⟨run, ports, hgiven, hsettled, hports⟩ := State.givenRound_eq hblocks hnote
  refine ⟨hsettled, by rw [hgiven]; exact hnote, ?_⟩
  rw [hgiven]
  exact ⟨rfl, rfl, rfl, rfl, rfl, rfl, rfl, rfl, rfl, hports⟩

/-- The state in which the blocks take a round that ends in a state: it has the weighing that the round leaves and the
records as the last poll left them. -/
structure State.Before (s : State) (c : Instr) (r : RoundValues) (u : State) : Prop where
  weighed : s.Weighed r u.weigh
  moments : u.weigh.window.map (·.moment) = (s.judgedOn r).weigh.window.map (·.moment)
  records : ∀ j, u.bus.record j = (s.lastPolled c).bus.record j
  rest : u = { s with bus := u.bus, weigh := u.weigh }

/-- A command that ends a round with nothing to report over an OCCUPIED bridge: the blocks take the round over its
weighing, and after them the waiting point, the Fault Unit and the start of the next round. -/
theorem exec_endsRound_occupied {s : State} {c : Instr} {r : RoundValues} (h : s.endsRound c r = true)
    (ho : s.bridge.state = .occupied) :
    ∃ t u : State, exec c s = .next t ∧ s.Before c r u ∧ t.weigh = u.weigh ∧ (u.blocksTakeRound r).PassedOn t ∧
      t = { s with bus := t.bus, weigh := t.weigh, capture := t.capture, bridge := t.bridge, axles := t.axles,
                   visits := t.visits, inUse := t.inUse, tares := t.tares, tickets := t.tickets, cal := t.cal,
                   run := t.run, evidence := t.evidence, faults := t.faults, ports := t.ports, writes := t.writes,
                   choices := t.choices } := by
  obtain ⟨hcalm, hlast, hnext, i, received, reply, hp, hreply, hq, rfl⟩ := State.endsRound_iff.1 h
  obtain ⟨hrun, hout, hbridge, hnote⟩ := s.calm_iff.1 hcalm
  have hs : s.settled = true := s.settled_iff.2 ⟨hout, hbridge⟩
  obtain ⟨bus, w, hw, hdone⟩ := State.roundDone_quiet_eq hs hnote hq
  have hmoments := s.roundDone_moments i reply
  have hbus := s.lastJudged_roundDone_bus i reply
  have htable := s.lastJudged_roundDone_tableInUse i reply
  rw [State.lastJudged_quiet hs hnote hq] at hbus htable
  have hexec := exec_ends_poll hp hreply hrun
  have hframe := State.pollEnds_last_frame (i := i) (reply := reply) hcalm hlast rfl
  have hpolled := State.lastPolled_eq hp hreply
  generalize (s.polled i reply).computeRound = r at hw hdone hmoments
  obtain ⟨u, hu⟩ : ∃ u : State, u = { s with bus := bus, weigh := w } := ⟨_, rfl⟩
  rw [← hu] at hdone
  obtain ⟨hsettled, hn, hgiven⟩ := State.givenRound_passedOn (u := u) r (by rw [hu]; exact ho)
  obtain ⟨hgw, hgb⟩ := u.givenRound_weigh r
  rw [hdone] at hmoments hbus htable
  have hrecord : ∀ j, (u.givenRound r).bus.record j = (s.polled i reply).bus.record j :=
    fun j => Bus.record_congr (congrArg Bus.records hbus) (i := j)
  have hbefore : s.Before c r u := by
    refine ⟨?_, by rw [← hmoments, hgw], fun j => by rw [hpolled, ← hgb, hrecord], ?_⟩
    · rw [hu]; exact hw
    · rw [hu]
  cases hov : s.bus.overrun with
  | false =>
    rw [State.pollEnds_last reply hlast hov, State.lastJudged_quiet hs hnote hq, hdone] at hexec hframe
    exact ⟨_, u, hexec, hbefore, hgw, hgiven, hframe⟩
  | true =>
    rw [State.pollEnds_overrun reply hlast hov, State.lastJudged_quiet hs hnote hq, hdone] at hexec hframe
    have hquiet : (u.givenRound r).nextStartsQuietly = true := by
      rw [← hnext.resolve_left (by simp [hov])]
      refine State.nextStartsQuietly_congr htable fun j => ?_
      rw [hrecord]
      exact s.polled_configured i reply j
    rw [State.startRound_quiet_eq hsettled hn hquiet] at hexec hframe
    generalize u.givenRound r = g at hgiven hexec hframe hgw
    exact ⟨_, u, hexec, hbefore, hgw, { hgiven with }, hframe⟩

end Sys2Proof.Machine
end

