-- ==== Sys2Proof/Proofs/BlockOrders.lean ====
section
/-! The order in which the blocks take a round over an OCCUPIED bridge (R32, R54, R105, log 7): the blocks that a round
leaves as it finds them drop out of it. -/

namespace Sys2Proof.Machine

/-! ### The blocks that a round leaves -/

/-- A round leaves a block: it completes no wait of the Capture Unit and shows the Bridge Arbiter no vehicle that has
left; the trace takes every round. -/
def State.rests (u : State) (r : RoundValues) : RoundTaker → Prop
  | .capture => ∀ c, u.capture.waiting = some c → u.waitComplete c.restart = false
  | .trace => True
  | .arbiter => u.bridge.state ≠ .occupiedUnknown ∧ u.hasLeft r = false

theorem State.captureTakesRound_rests {u : State} {r : RoundValues} (h : u.rests r .capture) :
    u.captureTakesRound r = u := by
  unfold State.captureTakesRound
  split
  · rfl
  · next c hc => rw [h c hc, if_neg Bool.false_ne_true]

theorem State.arbiterTakesRound_rests {u : State} {r : RoundValues} (h : u.rests r .arbiter) :
    u.arbiterTakesRound r = u := by
  obtain ⟨hstate, hleft⟩ := h
  cases hs : u.bridge.state with
  | free => exact State.arbiterTakesRound_else (.inl hs)
  | granted => exact State.arbiterTakesRound_else (.inr hs)
  | occupied => rw [State.arbiterTakesRound_onBridge (.inl hs), hleft, if_neg Bool.false_ne_true]
  | released => rw [State.arbiterTakesRound_onBridge (.inr hs), hleft, if_neg Bool.false_ne_true]
  | occupiedUnknown => exact absurd hs hstate

/-- R105: the trace that a round leaves is frozen as it was. -/
theorem State.traceAfter_frozen_eq (u : State) (r : RoundValues) :
    (u.traceAfter r).frozen = u.axles.trace.frozen := by
  unfold State.traceAfter
  split
  · rfl
  · split
    · simp [Trace.append]
    · rfl

/-- A block that a round leaves takes it without a trace but that of the trace. -/
theorem State.rests.takeAs {u : State} {r : RoundValues} {k : RoundTaker} (h : u.rests r k) (hs : u.settled = true)
    (hn : u.commitNote = none) :
    ∃ trace, trace.frozen = u.axles.trace.frozen ∧ State.takeAs r u k = { u with axles.trace := trace } := by
  cases k with
  | capture =>
    have hself := (congrArg (event u) (State.captureTakesRound_rests h)).trans (event_self hs hn)
    exact ⟨u.axles.trace, rfl, hself⟩
  | arbiter =>
    have hself := (congrArg (event u) (State.arbiterTakesRound_rests h)).trans (event_self hs hn)
    exact ⟨u.axles.trace, rfl, hself⟩
  | trace =>
    refine ⟨u.traceAfter r, u.traceAfter_frozen_eq r, ?_⟩
    rw [State.takeAs, State.traceTakesRound_eq]
    exact event_untouched hs rfl (changedRegions_same rfl rfl rfl rfl rfl rfl rfl) hn

/-- So do several such blocks. -/
theorem State.rests_takersTake {u : State} {r : RoundValues} {l : List RoundTaker} (h : ∀ k ∈ l, u.rests r k)
    (hs : u.settled = true) (hn : u.commitNote = none) :
    ∃ trace, trace.frozen = u.axles.trace.frozen ∧
      l.foldl (State.takeAs r) u = { u with axles.trace := trace } := by
  induction l generalizing u with
  | nil => exact ⟨u.axles.trace, rfl, rfl⟩
  | cons k l ih =>
    obtain ⟨hk, hl⟩ := List.forall_mem_cons.1 h
    obtain ⟨first, hfirst, htake⟩ := hk.takeAs hs hn
    have hsame : ∀ j, State.rests { u with axles.trace := first } r j = u.rests r j := fun j => by cases j <;> rfl
    obtain ⟨trace, hfrozen, hrest⟩ := ih (u := { u with axles.trace := first })
      (fun j hj => by rw [hsame]; exact hl j hj) hs hn
    exact ⟨trace, hfrozen.trans hfirst, by rw [List.foldl_cons, htake, hrest]⟩

/-! ### One block in an order -/

/-- Every block stands once in an order. -/
theorem takerOrders_split {order : List RoundTaker} (h : order ∈ takerOrders) (k : RoundTaker) :
    ∃ l m, order = l ++ k :: m ∧ k ∉ l ∧ k ∉ m := by
  have hall : ∀ o ∈ takerOrders, ∀ j : RoundTaker, o.Nodup ∧ j ∈ o := by
    intro o ho j
    revert o
    cases j <;> decide
  obtain ⟨hnodup, hmem⟩ := hall order h k
  obtain ⟨l, m, rfl⟩ := List.append_of_mem hmem
  obtain ⟨-, hcons, hdisjoint⟩ := List.nodup_append.1 hnodup
  exact ⟨l, m, rfl, fun hl => hdisjoint k hl k List.mem_cons_self rfl, (List.nodup_cons.1 hcons).1⟩

/-- Where the round leaves all blocks but one, they take it in an event of that one, before and after which the trace
alone may change. -/
theorem State.takersTake_one {u : State} {r : RoundValues} {order : List RoundTaker} {k : RoundTaker}
    (ho : order ∈ takerOrders) (hs : u.settled = true) (hn : u.commitNote = none)
    (hbefore : ∀ j, j ≠ k → u.rests r j)
    (hafter : ∀ trace, trace.frozen = u.axles.trace.frozen → ∀ j, j ≠ k →
      (State.takeAs r { u with axles.trace := trace } k).rests r j) :
    ∃ first last, first.frozen = u.axles.trace.frozen ∧
      last.frozen = (State.takeAs r { u with axles.trace := first } k).axles.trace.frozen ∧
      order.foldl (State.takeAs r) u =
        { State.takeAs r { u with axles.trace := first } k with
          axles.trace := last } := by
  obtain ⟨l, m, rfl, hl, hm⟩ := takerOrders_split ho k
  obtain ⟨first, hfirst, htake⟩ := State.rests_takersTake (l := l) (fun j hj => hbefore j fun he => hl (he ▸ hj)) hs hn
  obtain ⟨last, hlast, hrest⟩ := State.rests_takersTake (l := m) (fun j hj => hafter first hfirst j fun he => hm (he ▸ hj))
    (by cases k <;> exact event_settled _ _) (by cases k <;> exact event_commitNote _ _)
  exact ⟨first, last, hfirst, hlast, by rw [List.foldl_append, htake, List.foldl_cons, hrest]⟩

end Sys2Proof.Machine
end

