-- ==== Sys2Proof/Proofs/CaptureFaces.lean ====
section
/-! A round over an OCCUPIED bridge with a capture WAITING, as the blocks find it (R49, R54, R71). -/

namespace Sys2Proof.Machine

/-- A state in which a block takes the round, those that the round leaves having taken it or not: the bridge, the capture
and the stores as the round found them, the weighing as it leaves it, the trace frozen as it was. -/
structure State.Faces (s : State) (c : Instr) (r : RoundValues) (x : State) : Prop where
  weighed : s.Weighed r x.weigh
  moments : x.weigh.window.map (·.moment) = (s.judgedOn r).weigh.window.map (·.moment)
  records : ∀ j, x.bus.record j = (s.lastPolled c).bus.record j
  frozen : x.axles.trace.frozen = s.axles.trace.frozen
  rest : x = { s with bus := x.bus, weigh := x.weigh, choices := x.choices, axles.trace := x.axles.trace }

section
variable {s x : State} {c : Instr} {r : RoundValues}

theorem State.Before.faces (h : s.Before c r x) (choices : Nat) : s.Faces c r { x with choices := choices } where
  weighed := h.weighed
  moments := h.moments
  records := h.records
  frozen := by rw [h.rest]
  rest := by rw [h.rest]

/-- The trace may take the round first. -/
theorem State.Faces.traced (h : s.Faces c r x) {trace : Trace} (hf : trace.frozen = x.axles.trace.frozen) :
    s.Faces c r { x with axles.trace := trace } where
  weighed := h.weighed
  moments := h.moments
  records := h.records
  frozen := hf.trans h.frozen
  rest := by rw [h.rest]

/-- What the block finds. -/
theorem State.Faces.found (h : s.Faces c r x) :
    x.bridge = s.bridge ∧ x.capture = s.capture ∧ x.visits = s.visits ∧ x.inUse = s.inUse ∧ x.run = s.run ∧
      x.ports = s.ports ∧ x.outbox = s.outbox ∧ x.axles = { s.axles with trace := x.axles.trace } := by
  rw [h.rest]
  exact ⟨rfl, rfl, rfl, rfl, rfl, rfl, rfl, rfl⟩

/-- What it finds of the stores. -/
theorem State.Faces.stores (h : s.Faces c r x) :
    x.tares = s.tares ∧ x.tickets = s.tickets ∧ x.cal = s.cal ∧ x.evidence = s.evidence ∧ x.site = s.site ∧
      x.staged = s.staged ∧ x.faults = s.faults := by
  rw [h.rest]
  exact ⟨rfl, rfl, rfl, rfl, rfl, rfl, rfl⟩

theorem State.Faces.between (h : s.Faces c r x) (hs : s.settled = true) (hn : s.commitNote = none) :
    x.settled = true ∧ x.commitNote = none := by
  rw [h.rest]
  exact ⟨hs, hn⟩

/-- R71: what shows that the vehicle has left. -/
theorem State.Faces.hasLeft (h : s.Faces c r x) : x.hasLeft r = s.seesLeft r := by
  obtain ⟨-, -, -, -, -, -, -, haxles⟩ := h.found
  have hbelow : x.below = fun w => decide (w < s.bus.table.occupancyKg) := by
    funext w
    rw [State.below, h.weighed.table]
  rw [State.hasLeft, State.seesLeft, h.weighed.stable, hbelow, haxles]

/-- R49: what completes a wait. -/
theorem State.Faces.waitComplete (h : s.Faces c r x) (restart : Option Nat) :
    x.waitComplete restart = s.completesWait r restart := by
  have hall : ∀ (l : List WindowEntry) (n m : Nat),
      (lastN n l).all (fun w => decide (m < w.moment)) = (lastN n (l.map (·.moment))).all (fun k => decide (m < k)) := by
    intro l n m
    simp [lastN, ← List.map_drop, List.all_map, Function.comp_def]
  cases restart with
  | none => simp [State.waitComplete, State.completesWait, h.weighed.stable]
  | some m =>
    simp only [State.waitComplete, State.completesWait, h.weighed.stable, h.weighed.table, hall, h.moments]

end

/-! ### A vehicle that has left (R54, R71, R115) -/

/-- R54, R71: the capture that is left. -/
theorem State.vehicleLeft_refuses {x : State} (ho : x.bridge.state = .occupied) :
    x.vehicleLeft.capture.waiting = none ∧
      (∀ cap, x.capture.waiting = some cap → x.vehicleLeft.capture.lastOutcome =
        some { origin := cap.origin, ident := some cap.ident, outcome := .noVehicle, round := none }) ∧
      (x.capture.waiting = none → x.vehicleLeft.capture.lastOutcome = x.capture.lastOutcome) := by
  have hcapture : x.vehicleLeft.capture = (x.moveBridge .free).capture := by simp [State.vehicleLeft]
  rw [hcapture]
  refine ⟨(State.moveBridge_idle ho (by decide)).1, fun cap hc => State.moveBridge_lastOutcome ho (by decide) hc,
    fun hc => ?_⟩
  rw [State.moveBridge_leaves ho (by decide)]
  simp [State.leaveOccupied, State.refuseWaiting_none _ _ hc]

/-- The notices of a vehicle that has left with its capture WAITING, and of the grant that follows. -/
def State.goneNews (s t : State) : List (Port × Notice) :=
  s.refusedNews .noVehicle ++ s.leftNews ++ s.grantNews t

/-- R71: the Bridge Arbiter takes a round that shows that the vehicle has left, as an event. -/
theorem State.takeAs_arbiter_left {x : State} {r : RoundValues} (hs : x.settled = true)
    (ho : x.bridge.state = .occupied) (hl : x.hasLeft r = true) :
    (State.takeAs r x .arbiter).capture = x.vehicleLeft.capture ∧ (State.takeAs r x .arbiter).run = x.run ∧
      (State.takeAs r x .arbiter).ports =
        ({ x with outbox := x.outbox ++ x.goneNews (State.takeAs r x .arbiter) } : State).flush.ports := by
  have hleft : State.takeAs r x .arbiter = event x x.vehicleLeft := by
    rw [State.takeAs, State.arbiterTakesRound_onBridge (.inl ho), hl, if_pos rfl]
  rw [hleft]
  have hfreed := State.vehicleLeft_freed hs
  obtain ⟨-, hcapture, hrun⟩ := event_resettled hfreed.judged hfreed.holds
  refine ⟨hcapture, hrun.trans (by simp), ?_⟩
  have hgrants : x.vehicleLeft.grantsOrStays (x.vehicleLeft.settle x.bridge.holds) := by
    rw [← hfreed.holds]
    refine (State.settle_within ?_).grants
    rw [State.judgeSources_of_judged hfreed.judged]
    exact ⟨id, id, id, id, id⟩
  have hnews : x.vehicleLeft.grantNews (x.vehicleLeft.settle x.bridge.holds) = x.grantNews (event x x.vehicleLeft) := by
    simp only [State.grantNews, (event_settle x x.vehicleLeft).1, hfreed.waiting, hfreed.state, ho]
    simp
  rw [(event_settle x x.vehicleLeft).2.2.2.2.2.2.2]
  refine State.flush_ports_congr (by simp) ?_
  rw [hgrants.outbox_eq, State.vehicleLeft_outbox, if_pos ho, hnews]
  simp [State.goneNews]

end Sys2Proof.Machine
end

