-- ==== Sys2Proof/Proofs/CaptureWaitsOrLeft.lean ====
section
/-! A round over an OCCUPIED bridge that the WAITING capture does not complete, or that also shows the vehicle gone (R49,
R54, R71, R92, R97, log 7). -/

namespace Sys2Proof.Machine

/-! ### A stop that leaves no axle on the bridge (R92, R97) -/

theorem axleRanges_ordered {groups : List AxleGroup} (h : ∀ g ∈ groups, 1 ≤ g.axles) (start : Nat) :
    ∀ e ∈ axleRanges start groups, e.1 ≤ e.2 := by
  induction groups generalizing start with
  | nil => simp [axleRanges]
  | cons g groups ih =>
    obtain ⟨hg, hgroups⟩ := List.forall_mem_cons.1 h
    simp only [axleRanges, List.forall_mem_cons]
    exact ⟨by omega, ih hgroups _⟩

/-- The refusal of a stop with as many axles off the bridge as on it. -/
def leftRefusal (config : Option Configuration) (mark : Bool) : Status :=
  if config = none then .notWhollyOn else if mark = true then .axleCount else .noGroup

/-- R92, R97: where as many axles have left as entered no group lies on the bridge, nor does the vehicle. -/
theorem resolveDraft_left {config : Option Configuration} {h : Handoff} (heq : h.entered = h.exited)
    (hgroups : ∀ cfg, config = some cfg → ∀ g ∈ cfg.groups, 1 ≤ g.axles) :
    resolveDraft config h = .refused (leftRefusal config h.mark) := by
  cases config with
  | none =>
    have hnot : ¬(h.exited = 0 ∧ 1 ≤ h.entered) := by omega
    simp [resolveDraft, resolveWhole, hnot, leftRefusal]
  | some cfg =>
    have hpartly : ∀ e, partlyOn h.entered h.exited e = false := by
      intro e
      simp only [partlyOn, decide_eq_false_iff_not]
      omega
    have hwholly : cfg.ranges.any (whollyOn h.entered h.exited) = false := by
      rw [List.any_eq_false]
      intro e he
      have hordered := axleRanges_ordered (hgroups cfg rfl) 0 e he
      simp only [whollyOn, decide_eq_true_eq]
      omega
    cases hm : h.mark <;> simp [resolveDraft, groupRefusal, hpartly, hwholly, hm, leftRefusal]

/-! ### A capture refused -/

/-- An event that changes the capture and the trace alone queues its notices. -/
theorem event_refusal {x u : State} (hs : x.settled = true) (hn : x.commitNote = none)
    (hu : u = { x with capture := u.capture, axles := u.axles, outbox := u.outbox }) : event x u = u.flush := by
  have hb : u.bridgeSettled = true := by
    rw [← (x.settled_iff.1 hs).2, hu]
    exact State.bridgeSettled_congr rfl rfl rfl rfl rfl rfl rfl
  rw [event_of_bridgeSettled hb (by rw [hu])]
  exact retain_of_untouched (by rw [hu]; exact changedRegions_same rfl rfl rfl rfl rfl rfl rfl) (by rw [hu]; exact hn)

/-- R49: the checks of the round that completes the wait. -/
theorem State.completeCapture_checked {x : State} {r : RoundValues} {pos : Nat} {v : Visit} (cap : Capture)
    (huse : x.inUse = some pos) (hv : Table.get? x.visits pos = some v) (hp : v.inProgress = true) :
    x.completeCapture cap r =
      if x.notForTrade = true then x.endCapture cap .notForTrade (some r.index) none
      else if r.range ≠ .normal then x.endCapture cap .range (some r.index) none
      else x.handOff cap r pos v := by
  have hvisit : x.visitInUse = some v := by simp [State.visitInUse, huse, hv]
  simp [State.completeCapture, huse, hvisit, hp]

/-- What refuses a capture that a round completes and that also shows the vehicle gone. -/
def State.leftCode (x : State) (r : RoundValues) (v : Visit) : Status :=
  if x.notForTrade = true then .notForTrade else if r.range ≠ .normal then .range
  else leftRefusal (x.configOf v) x.axles.axleCount

/-- R49, R92, R97: such a capture is refused. -/
theorem State.completeCapture_left {x : State} {r : RoundValues} {pos : Nat} {v : Visit} (cap : Capture)
    (huse : x.inUse = some pos) (hv : Table.get? x.visits pos = some v) (hp : v.inProgress = true)
    (heq : x.axles.entered = x.axles.exited)
    (hgroups : ∀ cfg, x.configOf v = some cfg → ∀ g ∈ cfg.groups, 1 ≤ g.axles) :
    x.completeCapture cap r = x.endCapture cap (x.leftCode r v) (some r.index) none := by
  have hresolve := resolveDraft_left (h := x.handoff v r) heq hgroups
  rw [State.completeCapture_checked cap huse hv hp, State.leftCode]
  split
  · rfl
  · split
    · rfl
    · rw [State.handOff, hresolve]
      rfl

/-! ### The blocks over such a round -/

/-- The outcome of a capture that is ended. -/
def Capture.ended (cap : Capture) (code : Status) (round : Option Nat) : CaptureOutcome :=
  { origin := cap.origin, ident := some cap.ident, outcome := code, round := round }

section
variable {s u : State} {c : Instr} {r : RoundValues} {cap : Capture}

/-- Over an OCCUPIED bridge the blocks take the round in an order. -/
theorem State.Before.order (h : s.Before c r u) (ho : s.bridge.state = .occupied) :
    ∃ x, s.Faces c r x ∧ ∃ order ∈ takerOrders, u.blocksTakeRound r = order.foldl (State.takeAs r) x := by
  obtain ⟨order, horder, hblocks⟩ := State.blocksTakeRound_occupied (s := u) r (by rw [h.rest]; exact ho)
  exact ⟨_, h.faces (u.choices + 1), order, horder, hblocks⟩

/-- R49: whether the round leaves the Capture Unit. -/
theorem State.Faces.rests_capture {x : State} (h : s.Faces c r x) (hc : s.capture.waiting = some cap)
    (hw : s.completesWait r cap.restart = false) : x.rests r .capture := by
  intro d hd
  rw [h.found.2.1, hc, Option.some_inj] at hd
  rw [h.waitComplete, ← hd, hw]

/-- With none WAITING it does. -/
theorem State.rests_capture_none {x : State} (h : x.capture.waiting = none) : x.rests r .capture := by
  intro d hd
  rw [h] at hd
  cases hd

/-- R71: whether it leaves the Bridge Arbiter. -/
theorem State.Faces.rests_arbiter {x : State} (h : s.Faces c r x) (ho : s.bridge.state = .occupied)
    (hl : s.seesLeft r = false) : x.rests r .arbiter := by
  refine ⟨?_, by rw [h.hasLeft, hl]⟩
  rw [h.found.1, ho]
  decide

/-- R49, R71: a round that neither completes the wait nor shows the vehicle gone. -/
theorem State.Before.waitsOn (h : s.Before c r u) (hs : s.settled = true) (hn : s.commitNote = none)
    (ho : s.bridge.state = .occupied) (hc : s.capture.waiting = some cap)
    (hw : s.completesWait r cap.restart = false) (hl : s.seesLeft r = false) :
    (u.blocksTakeRound r).capture = s.capture ∧ (u.blocksTakeRound r).bridge = s.bridge := by
  obtain ⟨x, hx, order, -, hblocks⟩ := h.order ho
  obtain ⟨hxs, hxn⟩ := hx.between hs hn
  have hrests : ∀ k ∈ order, x.rests r k := by
    rintro (_ | _ | _) -
    · exact hx.rests_capture hc hw
    · trivial
    · exact hx.rests_arbiter ho hl
  obtain ⟨trace, -, hfold⟩ := State.rests_takersTake hrests hxs hxn
  rw [hblocks, hfold]
  exact ⟨hx.found.2.1, hx.found.1⟩

/-- R54, R71, R115: what the Bridge Arbiter leaves of a vehicle that has left with its capture WAITING. -/
theorem State.Faces.arbiter_left {x : State} (h : s.Faces c r x) (hs : s.settled = true) (hn : s.commitNote = none)
    (ho : s.bridge.state = .occupied) (hc : s.capture.waiting = some cap) (hl : s.seesLeft r = true) :
    (State.takeAs r x .arbiter).capture.waiting = none ∧
      (State.takeAs r x .arbiter).capture.lastOutcome = some (cap.ended .noVehicle none) ∧
      (State.takeAs r x .arbiter).run = s.run ∧
      (State.takeAs r x .arbiter).ports =
        ({ s with outbox := s.outbox ++ s.goneNews (State.takeAs r x .arbiter) } : State).flush.ports := by
  obtain ⟨hbridge, hcapture, hvisits, huse, hrun, hports, hout, -⟩ := h.found
  obtain ⟨hxs, hxn⟩ := h.between hs hn
  have hxo : x.bridge.state = .occupied := by rw [hbridge, ho]
  obtain ⟨htc, htr, htp⟩ := State.takeAs_arbiter_left (r := r) hxs hxo (h.hasLeft.trans hl)
  obtain ⟨hwaiting, hlast, -⟩ := State.vehicleLeft_refuses hxo
  have hnews : ∀ t, x.goneNews t = s.goneNews t := fun t => by
    simp only [State.goneNews, State.refusedNews, State.leftNews, State.visitInUse, State.grantNews, hcapture, huse,
      hvisits, hbridge]
  refine ⟨by rw [htc, hwaiting], ?_, htr.trans hrun, ?_⟩
  · rw [htc, hlast cap (by rw [hcapture, hc])]
    rfl
  · rw [htp, hnews, hout]
    exact State.flush_ports_congr hports rfl

/-- R54, R71, R115: a round that does not complete the wait and shows the vehicle gone. -/
theorem State.Before.leaves (h : s.Before c r u) (hs : s.settled = true) (hn : s.commitNote = none)
    (ho : s.bridge.state = .occupied) (hc : s.capture.waiting = some cap)
    (hw : s.completesWait r cap.restart = false) (hl : s.seesLeft r = true) :
    (u.blocksTakeRound r).capture.waiting = none ∧
      (u.blocksTakeRound r).capture.lastOutcome = some (cap.ended .noVehicle none) ∧
      (u.blocksTakeRound r).run = s.run ∧
      (u.blocksTakeRound r).ports = ({ s with outbox := s.outbox ++ s.goneNews (u.blocksTakeRound r) } : State).flush.ports := by
  obtain ⟨x, hx, order, horder, hblocks⟩ := h.order ho
  obtain ⟨hxs, hxn⟩ := hx.between hs hn
  have hgone : ∀ trace, trace.frozen = x.axles.trace.frozen →
      (State.takeAs r { x with axles.trace := trace } .arbiter).capture.waiting = none :=
    fun trace htrace => ((hx.traced htrace).arbiter_left hs hn ho hc hl).1
  obtain ⟨first, last, hfirst, -, hfold⟩ := State.takersTake_one (k := .arbiter) horder hxs hxn
    (fun j hj => by
      cases j with
      | capture => exact hx.rests_capture hc hw
      | trace => trivial
      | arbiter => exact absurd rfl hj)
    (fun trace htrace j hj => by
      cases j with
      | capture => exact State.rests_capture_none (hgone trace htrace)
      | trace => trivial
      | arbiter => exact absurd rfl hj)
  have hleft := (hx.traced hfirst).arbiter_left hs hn ho hc hl
  rw [hblocks, hfold]
  generalize State.takeAs r { x with axles.trace := first } .arbiter = y at hleft
  exact hleft

end

end Sys2Proof.Machine
end

