-- ==== Sys2Proof/Proofs/CompletesLeft.lean ====
section
/-! A round that completes the wait of a capture and also shows the vehicle gone (R49, R54, R92, R97, log 7). -/

namespace Sys2Proof.Machine

/-- Of the Capture Unit and the Bridge Arbiter one takes the round first, the trace anywhere. -/
theorem takerOrders_capture_arbiter {order : List RoundTaker} (h : order ∈ takerOrders) :
    ∃ l₁ l₂ l₃ : List RoundTaker, (∀ k ∈ l₁ ++ l₂ ++ l₃, k = .trace) ∧
      (order = l₁ ++ .capture :: (l₂ ++ .arbiter :: l₃) ∨ order = l₁ ++ .arbiter :: (l₂ ++ .capture :: l₃)) := by
  simp only [takerOrders, List.mem_cons, List.not_mem_nil, or_false] at h
  rcases h with rfl | rfl | rfl | rfl | rfl | rfl
  · exact ⟨[], [.trace], [], by decide, .inl rfl⟩
  · exact ⟨[], [], [.trace], by decide, .inl rfl⟩
  · exact ⟨[.trace], [], [], by decide, .inl rfl⟩
  · exact ⟨[.trace], [], [], by decide, .inr rfl⟩
  · exact ⟨[], [], [.trace], by decide, .inr rfl⟩
  · exact ⟨[], [.trace], [], by decide, .inr rfl⟩

/-- The Capture Unit takes a round that refuses its capture, as an event. -/
theorem State.takeAs_capture_refused {x : State} {r : RoundValues} {cap : Capture} {code : Status}
    (hs : x.settled = true) (hn : x.commitNote = none) (hc : x.capture.waiting = some cap)
    (hw : x.waitComplete cap.restart = true)
    (hr : x.completeCapture cap r = x.endCapture cap code (some r.index) none) :
    State.takeAs r x .capture = (x.endCapture cap code (some r.index) none).flush := by
  have htakes : x.captureTakesRound r = x.endCapture cap code (some r.index) none := by
    simp [State.captureTakesRound, hc, hw, hr]
  rw [State.takeAs, htakes]
  exact event_refusal hs hn rfl

section
variable {s u : State} {c : Instr} {r : RoundValues} {cap : Capture}

/-- R49, R54: the capture is refused as its stop resolves or with NO_VEHICLE. -/
theorem State.Before.completesLeft (h : s.Before c r u) (hs : s.settled = true) (hn : s.commitNote = none)
    (ho : s.bridge.state = .occupied) (hc : s.capture.waiting = some cap) (hw : s.completesWait r cap.restart = true)
    (hl : s.seesLeft r = true) {pos : Nat} {v : Visit} (huse : s.inUse = some pos)
    (hv : Table.get? s.visits pos = some v) (hp : v.inProgress = true)
    (hgroups : ∀ cfg, s.configOf v = some cfg → ∀ g ∈ cfg.groups, 1 ≤ g.axles) :
    (u.blocksTakeRound r).capture.waiting = none ∧
      ((u.blocksTakeRound r).capture.lastOutcome = some (cap.ended .noVehicle none) ∨
        (u.blocksTakeRound r).capture.lastOutcome = some (cap.ended (s.leftCode r v) (some r.index))) := by
  obtain ⟨x, hx, order, horder, hblocks⟩ := h.order ho
  obtain ⟨hxs, hxn⟩ := hx.between hs hn
  obtain ⟨l₁, l₂, l₃, htraces, horders⟩ := takerOrders_capture_arbiter horder
  simp only [List.mem_append, or_imp, forall_and] at htraces
  obtain ⟨⟨h₁, h₂⟩, h₃⟩ := htraces
  obtain ⟨first, hfirst, hfold₁⟩ := State.rests_takersTake (r := r) (l := l₁)
    (fun k hk => by rw [h₁ k hk]; trivial) hxs hxn
  have hy := hx.traced hfirst
  obtain ⟨hys, hyn⟩ := hy.between hs hn
  generalize ({ x with axles.trace := first } : State) = y at hy hys hyn hfold₁
  obtain ⟨hbridge, hcapture, hvisits, hyuse, -, -, -, haxles⟩ := hy.found
  rcases horders with hord | hord <;> rw [hord, List.foldl_append, hfold₁, List.foldl_cons] at hblocks
  · have hcode : y.leftCode r v = s.leftCode r v := by rw [hy.rest]; rfl
    have hsees : y.axles.entered = y.axles.exited := by
      rw [haxles]
      exact (State.seesLeft_iff.1 hl).2.2
    have hconfig : y.configOf v = s.configOf v := by rw [hy.rest]; rfl
    have htake := State.takeAs_capture_refused (r := r) hys hyn (by rw [hcapture, hc]) ((hy.waitComplete _).trans hw)
      (State.completeCapture_left cap (hyuse.trans huse) (by rw [hvisits]; exact hv) hp hsees (by rw [hconfig]; exact hgroups))
    rw [hcode] at htake
    have hzo : (State.takeAs r y .capture).bridge.state = .occupied := by
      rw [htake, ← ho, ← hbridge]
      rfl
    have hzl : (State.takeAs r y .capture).hasLeft r = true := by
      rw [htake, ← hl, ← hy.hasLeft]
      rfl
    have hzc : (State.takeAs r y .capture).capture.waiting = none ∧
        (State.takeAs r y .capture).capture.lastOutcome = some (cap.ended (s.leftCode r v) (some r.index)) := by
      rw [htake]
      exact ⟨rfl, rfl⟩
    have hzs : (State.takeAs r y .capture).settled = true := event_settled _ _
    have hzn : (State.takeAs r y .capture).commitNote = none := event_commitNote _ _
    generalize State.takeAs r y .capture = z at hblocks hzo hzl hzc hzs hzn
    obtain ⟨second, -, hfold₂⟩ := State.rests_takersTake (r := r) (l := l₂)
      (fun k hk => by rw [h₂ k hk]; trivial) hzs hzn
    obtain ⟨htc, -⟩ := State.takeAs_arbiter_left (x := { z with axles.trace := second }) (r := r) hzs hzo hzl
    obtain ⟨hwaiting, -, hlast⟩ := State.vehicleLeft_refuses (x := { z with axles.trace := second }) hzo
    obtain ⟨third, -, hfold₃⟩ := State.rests_takersTake (r := r) (l := l₃)
      (u := State.takeAs r { z with axles.trace := second } .arbiter)
      (fun k hk => by rw [h₃ k hk]; trivial) (event_settled _ _) (event_commitNote _ _)
    rw [List.foldl_append, hfold₂, List.foldl_cons, hfold₃] at hblocks
    rw [hblocks]
    refine ⟨(congrArg _ htc).trans hwaiting, .inr ?_⟩
    exact (congrArg _ htc).trans ((hlast hzc.1).trans hzc.2)
  · obtain ⟨hwaiting, hlast, -⟩ := hy.arbiter_left hs hn ho hc hl
    have hzs : (State.takeAs r y .arbiter).settled = true := event_settled _ _
    have hzn : (State.takeAs r y .arbiter).commitNote = none := event_commitNote _ _
    generalize State.takeAs r y .arbiter = z at hblocks hwaiting hlast hzs hzn
    obtain ⟨last, -, hfold⟩ := State.rests_takersTake (r := r) (l := l₂ ++ .capture :: l₃) (u := z) (fun k hk => by
      rcases List.mem_append.1 hk with hk | hk
      · rw [h₂ k hk]; trivial
      · rcases List.mem_cons.1 hk with rfl | hk
        · exact State.rests_capture_none hwaiting
        · rw [h₃ k hk]; trivial) hzs hzn
    rw [hblocks, hfold]
    exact ⟨hwaiting, .inl hlast⟩

end

end Sys2Proof.Machine
end

