-- ==== Sys2Proof/Proofs/DraftReport.lean ====
section
/-! What an accepted draft does to the capture, the bridge, the evidence and the trace (R69, R100, R101). -/

namespace Sys2Proof.Machine

/-! ### The report to the Bridge Arbiter (R69) -/

/-- R69: whether the exit is withheld after a report. -/
def State.withholds (s : State) (anyOver : Bool) : Bool :=
  s.bridge.withheld || (anyOver && s.site.settings.holdExit)

theorem State.reportDraft_bridge (s : State) (id : Ident) (anyOver completed : Bool) :
    (s.reportDraft id anyOver completed).bridge =
      { s.bridge with
        withheld := s.withholds anyOver
        advance := !completed
        state := if completed && !s.withholds anyOver then .released else s.bridge.state } := by
  unfold State.reportDraft State.withholds
  cases completed with
  | false => simp
  | true =>
    cases s.bridge.withheld || (anyOver && s.site.settings.holdExit) <;> simp

/-- An accepted capture waits no more, so that the report ends none. -/
theorem State.reportDraft_capture {s : State} (id : Ident) (anyOver completed : Bool)
    (hc : s.capture.waiting = none) (ha : s.capture.arm = false) :
    (s.reportDraft id anyOver completed).capture.waiting = none ∧
      (s.reportDraft id anyOver completed).capture.arm = false ∧
      (s.reportDraft id anyOver completed).capture.lastOutcome = s.capture.lastOutcome ∧
      (completed = false → (s.reportDraft id anyOver completed).capture = s.capture) := by
  unfold State.reportDraft State.moveBridge State.leaveOccupied
  cases completed with
  | false => exact ⟨hc, ha, rfl, fun _ => rfl⟩
  | true =>
    simp only [Bool.not_true, Bool.false_eq_true, if_false, State.refuseWaiting, hc]
    split
    · simp [hc, ha]
    · split <;> simp [hc, ha]

theorem State.reportDraft_outbox {s : State} (id : Ident) (anyOver completed : Bool) (hc : s.capture.waiting = none) :
    (s.reportDraft id anyOver completed).outbox =
      s.outbox ++ if completed && s.withholds anyOver then notesTo [.gatehouse, .lane] (.exitWithheld id) else [] := by
  unfold State.reportDraft State.withholds
  cases completed with
  | false => simp
  | true =>
    cases hw : s.bridge.withheld || (anyOver && s.site.settings.holdExit) with
    | true => simp [State.postAll_outbox, notesTo]
    | false =>
      simp only [Bool.not_true, Bool.false_eq_true, if_false, Bool.true_and]
      rw [State.moveBridge_outbox _ (by decide)]
      simp [State.refusedNews, hc]

/-! ### The steps of an OVER verdict (R101) -/

theorem State.freezeTrace_frozen (s : State) (reason : FreezeReason) (id : Ident) (r : RoundValues)
    (draft : Option Nat) :
    (s.freezeTrace reason id r draft).axles.trace.frozen =
      some (s.axles.trace.frozen.getD { reason := reason, ident := id, round := r.index, draft := draft }) := by
  unfold State.freezeTrace
  cases h : s.axles.trace.frozen <;> simp [h]

/-- Where no verdict is OVER nothing is done. -/
theorem State.overSteps_none {s : State} {d : DraftResult} (id : Ident) (r : RoundValues) (h : d.anyOver = false) :
    s.overSteps id d r = s := by
  simp [State.overSteps, h]

/-- Else a snapshot is taken and the trace frozen. -/
theorem State.overSteps_taken {s : State} {d : DraftResult} (id : Ident) (r : RoundValues) (h : d.anyOver = true) :
    (s.overSteps id d r).evidence =
        s.evidence.filter (fun x => x.slot ≠ chooseEvidenceSlot s.evidence .overVerdict) ++
          [{ slot := chooseEvidenceSlot s.evidence .overVerdict
             snapshot := s.snapshotOf s.snapshotNumber .overVerdict (some d.draft.used) }] ∧
      (s.overSteps id d r).cal = { s.cal with snapshotNext := nextSnapshotNumber s.snapshotNumber } ∧
      (s.overSteps id d r).axles.trace.frozen = some (s.axles.trace.frozen.getD
        { reason := .overVerdict, ident := id, round := r.index, draft := some d.draft.used }) := by
  have hover : s.overSteps id d r =
      ((((s.postAll [.gatehouse, .lane] (.overVerdict id d.draft.used d.overGroups d.overCombination)).postCopy
        (.overVerdict id d.draft.used d.overGroups d.overCombination)).takeSnapshot .overVerdict
          (some d.draft.used)).freezeTrace .overVerdict id r (some d.draft.used)) := by
    simp [State.overSteps, h]
  rw [hover, State.freezeTrace_frozen]
  simp [State.takeSnapshot, State.snapshotOf, State.snapshotNumber]

theorem State.overSteps_cal (s : State) (id : Ident) (d : DraftResult) (r : RoundValues) :
    (s.overSteps id d r).cal = { s.cal with snapshotNext := (s.overSteps id d r).cal.snapshotNext } := by
  cases h : d.anyOver with
  | false => rw [State.overSteps_none id r h]
  | true => rw [(State.overSteps_taken id r h).2.1]

end Sys2Proof.Machine
end

