-- ==== Sys2Proof/Proofs/AcceptedCapture.lean ====
section
/-! The Capture Unit takes a round that completes the wait (R49, R50, R100), as an event. -/

namespace Sys2Proof.Machine

/-! ### What an accepted draft leaves (R50, R69, R100, R101) -/

section
variable {t : State} {cap : Capture} {d : DraftResult} {r : RoundValues}

/-- R50: what the capture reports of an accepted draft. -/
def acceptedNews (cap : Capture) (d : DraftResult) (r : RoundValues) : List (Port × Notice) :=
  [(cap.origin.port, .captureOutcome cap.origin cap.ident .accepted
    (some { round := r.index, weight := r.rounded.getD 0, draft := d.draft.used }))]

/-- R105: the freeze that an OVER verdict brings. -/
def overFreeze (cap : Capture) (d : DraftResult) (r : RoundValues) : FreezeRecord :=
  { reason := .overVerdict, ident := cap.ident, round := r.index, draft := some d.draft.used }

theorem State.acceptCapture_bridge (t : State) (cap : Capture) (d : DraftResult) (r : RoundValues) :
    (t.acceptCapture cap d r).bridge =
      { t.bridge with
        withheld := t.withholds d.anyOver
        advance := !d.content.isSome
        state := if d.content.isSome && !t.withholds d.anyOver then .released else t.bridge.state } := by
  have hwithholds : ∀ u : State, u.bridge = t.bridge → u.site = t.site → u.withholds d.anyOver = t.withholds d.anyOver := by
    intro u hb hs
    rw [State.withholds, State.withholds, hb, hs]
  unfold State.acceptCapture
  rw [State.reportDraft_bridge, hwithholds _ (by simp) (by simp)]
  simp

theorem State.acceptCapture_capture (t : State) (cap : Capture) (d : DraftResult) (r : RoundValues) :
    (t.acceptCapture cap d r).capture.waiting = none ∧ (t.acceptCapture cap d r).capture.arm = false ∧
      (t.acceptCapture cap d r).capture.lastOutcome = some (cap.ended .accepted (some r.index)) ∧
      (d.content = none → (t.acceptCapture cap d r).capture =
        { t.capture with waiting := none, arm := false, lastOutcome := some (cap.ended .accepted (some r.index)) }) := by
  unfold State.acceptCapture
  simp only []
  generalize hu : State.overSteps _ cap.ident d r = u
  have hcapture : u.capture =
      { t.capture with waiting := none, arm := false, lastOutcome := some (cap.ended .accepted (some r.index)) } := by
    rw [← hu]
    simp [State.endCapture_eq, Capture.ended]
  obtain ⟨hwaiting, harm, hlast, hsame⟩ := State.reportDraft_capture (s := u) cap.ident d.anyOver d.content.isSome
    (by rw [hcapture]) (by rw [hcapture])
  refine ⟨hwaiting, harm, hlast.trans (by rw [hcapture]), fun hnone => ?_⟩
  rw [hsame (by simp [hnone]), hcapture]

theorem State.acceptCapture_outbox (t : State) (cap : Capture) (d : DraftResult) (r : RoundValues) :
    (t.acceptCapture cap d r).outbox = t.outbox ++ (acceptedNews cap d r ++ t.overNews d (overFreeze cap d r) ++
      if d.content.isSome && t.withholds d.anyOver then notesTo [.gatehouse, .lane] (.exitWithheld cap.ident) else []) := by
  unfold State.acceptCapture
  simp only []
  generalize he : t.endCapture cap .accepted (some r.index) _ = e
  have hbridge : e.bridge = t.bridge := by rw [← he]; rfl
  have hsite : e.site = t.site := by rw [← he]; rfl
  have hout : e.outbox = t.outbox ++ acceptedNews cap d r := by rw [← he]; rfl
  have hnews : e.overNews d (overFreeze cap d r) = t.overNews d (overFreeze cap d r) := by rw [← he]; rfl
  have hended : e.capture.waiting = none := by rw [← he]; rfl
  have hwaiting : (e.overSteps cap.ident d r).capture.waiting = none := by simpa using hended
  have hwithholds : (e.overSteps cap.ident d r).withholds d.anyOver = t.withholds d.anyOver := by
    simp [State.withholds, hbridge, hsite]
  rw [State.reportDraft_outbox _ _ _ hwaiting, State.overSteps_outbox, hwithholds, hout, ← hnews]
  simp only [overFreeze, List.append_assoc]

/-- R101: the evidence, its number and the trace. -/
theorem State.acceptCapture_over (t : State) (cap : Capture) (d : DraftResult) (r : RoundValues) :
    (d.anyOver = true → (t.acceptCapture cap d r).evidence =
        t.evidence.filter (fun x => x.slot ≠ chooseEvidenceSlot t.evidence .overVerdict) ++
          [{ slot := chooseEvidenceSlot t.evidence .overVerdict
             snapshot := t.snapshotOf t.snapshotNumber .overVerdict (some d.draft.used) }] ∧
      (t.acceptCapture cap d r).cal.snapshotNext = nextSnapshotNumber t.snapshotNumber ∧
      (t.acceptCapture cap d r).axles.trace.frozen = some (t.axles.trace.frozen.getD (overFreeze cap d r))) ∧
    (d.anyOver = false → (t.acceptCapture cap d r).evidence = t.evidence ∧
      (t.acceptCapture cap d r).cal.snapshotNext = t.cal.snapshotNext ∧
      (t.acceptCapture cap d r).axles.trace.frozen = t.axles.trace.frozen) ∧
    (t.acceptCapture cap d r).cal =
      { t.cal with snapshotNext := (t.acceptCapture cap d r).cal.snapshotNext } ∧
    (t.acceptCapture cap d r).axles.entered = t.axles.entered ∧
    (t.acceptCapture cap d r).axles.exited = t.axles.exited := by
  unfold State.acceptCapture
  simp only [State.reportDraft_frame]
  generalize he : t.endCapture cap .accepted (some r.index) _ = e
  have hcal : e.cal = t.cal := by rw [← he]; rfl
  have hevidence : e.evidence = t.evidence := by rw [← he]; rfl
  have haxles : e.axles = t.axles := by rw [← he]; rfl
  have hnumber : e.snapshotNumber = t.snapshotNumber := by rw [← he]; rfl
  have hsnapshot : ∀ n k x, e.snapshotOf n k x = t.snapshotOf n k x := by rw [← he]; exact fun _ _ _ => rfl
  refine ⟨fun hover => ?_, fun hover => ?_, ?_, ?_, ?_⟩
  · obtain ⟨h1, h2, h3⟩ := State.overSteps_taken (s := e) cap.ident r hover
    rw [h1, h2, h3, hevidence, hnumber, hsnapshot, haxles]
    exact ⟨rfl, rfl, rfl⟩
  · rw [State.overSteps_none cap.ident r hover, hevidence, hcal, haxles]
    exact ⟨rfl, rfl, rfl⟩
  · rw [State.overSteps_cal, hcal]
  · rw [(State.overSteps_counts e cap.ident d r).1, haxles]
  · rw [(State.overSteps_counts e cap.ident d r).2, haxles]

end

end Sys2Proof.Machine
end

