-- ==== Sys2Proof/Proofs/DraftTables.lean ====
section
/-! The tables and the Ticket Unit take a draft (R113, R114, R127, R133 to R136, R139, R140). -/

namespace Sys2Proof.Machine

/-! ### The issue of a ticket (R127) -/

/-- R133, R134: a number taken leaves of the CALIBRATION region all but the sequence. -/
theorem State.takeNumber_cal (s : State) :
    s.takeNumber.cal = { s.cal with
      series := s.takeNumber.cal.series, nextNumber := s.takeNumber.cal.nextNumber
      exhausted := s.takeNumber.cal.exhausted } ∧ s.takeNumber.tickets = s.tickets := by
  unfold State.takeNumber
  split
  · exact ⟨rfl, rfl⟩
  · split <;> exact ⟨rfl, rfl⟩

/-- R136: the notice of an append that fills the ring. -/
theorem State.noteRing_outbox {s : State} {l : List Ticket} {k : Ticket} (h : s.tickets.ring = l ++ [k]) :
    s.noteRing.outbox = s.outbox ++
      if l.length = 63 then [(.gatehouse, .ticketRingFull ((l.head?.map (·.key)).getD k.key) k.key)] else [] := by
  have hlast : s.tickets.ring.getLast? = some k := by rw [h, List.getLast?_append]; rfl
  have hhead : s.tickets.ring.head? = some (l.head?.getD k) := by
    rw [h]
    cases l <;> rfl
  have hkey : (l.head?.map (·.key)).getD k.key = (l.head?.getD k).key := by cases l <;> rfl
  have hlength : s.tickets.ring.length = 64 ↔ l.length = 63 := by simp [h]
  simp only [State.noteRing, hlast, hhead, hkey, hlength]
  split <;> simp

section
variable {s : State} {v : Visit} {h : TicketHandoff}

/-- R127, R140: the ring and the totals take the ticket. -/
theorem State.issueTicket_tickets (s : State) (v : Visit) (h : TicketHandoff) :
    (s.issueTicket v h).tickets =
      { ring := s.tickets.ring ++ [ticketOf s.nextKey v h], shift := s.tickets.shift.take (ticketOf s.nextKey v h)
        last := s.tickets.last } := by
  simp [State.issueTicket, State.nextKey]

/-- Its notices. -/
theorem State.issueTicket_outbox (s : State) (v : Visit) (h : TicketHandoff) :
    (s.issueTicket v h).outbox = s.outbox ++ s.issueNews (ticketOf s.nextKey v h) := by
  unfold State.issueTicket
  simp only []
  rw [State.noteTicket_outbox, State.noteRing_outbox (l := s.tickets.ring) (by rw [(State.takeNumber_cal _).2]),
    State.takeNumber_outbox]
  simp [State.issueNews, State.nextKey]

/-- The sequence moves on by what the sequence was, whatever the tables hold. -/
theorem State.issueTicket_cal_congr {s t : State} (hc : t.cal = s.cal) :
    (t.issueTicket v h).cal = (s.issueTicket v h).cal := by
  unfold State.issueTicket State.takeNumber
  simp only [State.noteTicket_frame, State.noteRing_frame, hc]
  split
  · rfl
  · split <;> rfl

/-- An issue leaves the epoch, the flag, lockout and the number of snapshots. -/
theorem State.issueTicket_cal_keeps (s : State) (v : Visit) (h : TicketHandoff) :
    (s.issueTicket v h).cal.flag = s.cal.flag ∧ (s.issueTicket v h).cal.lockout = s.cal.lockout ∧
      (s.issueTicket v h).cal.snapshotNext = s.cal.snapshotNext ∧ (s.issueTicket v h).cal.epoch = s.cal.epoch := by
  unfold State.issueTicket
  simp only [State.noteTicket_frame, State.noteRing_frame]
  rw [(State.takeNumber_cal _).1]
  exact ⟨rfl, rfl, rfl, rfl⟩

end

/-! ### What the tables keep of the CALIBRATION region -/

/-- Neither the number of snapshots nor what settles a hold or dates a record changes as a draft is taken. -/
structure Calibration.Kept (a b : Calibration) : Prop where
  flag : b.flag = a.flag
  lockout : b.lockout = a.lockout
  snapshotNext : b.snapshotNext = a.snapshotNext
  epoch : b.epoch = a.epoch

theorem Calibration.Kept.of_eq {a b : Calibration} (h : b = a) : a.Kept b := h ▸ ⟨rfl, rfl, rfl, rfl⟩

theorem State.ticketVisit_kept {s t : State} (p : Nat) (v : Visit) (h : TicketHandoff) (hc : t.cal = s.cal) :
    s.cal.Kept (t.ticketVisit p v h).cal := by
  obtain ⟨h1, h2, h3, h4⟩ := t.issueTicket_cal_keeps v h
  rw [hc] at h1 h2 h3 h4
  exact ⟨h1, h2, h3, h4⟩

theorem State.completeFirst_kept {s t : State} {p : Nat} {v : Visit} {r : WeighRecord}
    (h : s.completeFirst p v r = .ok t) : s.cal.Kept t.cal := by
  unfold State.completeFirst at h
  split at h
  · cases h
    refine .of_eq ?_
    simp only [State.firstWeighed_frame]
    split <;> simp
  · split at h
    · simp only [] at h
      split at h
      · split at h
        · cases h
        · cases h
          exact State.ticketVisit_kept _ _ _ rfl
      · cases h
        exact .of_eq (by simp)
      · cases h
        exact .of_eq (by simp)
    · cases h
      exact .of_eq (by simp)

theorem State.takeDraft_kept {s t : State} {p : Nat} {v : Visit} {d : DraftResult} (h : s.takeDraft p v d = .ok t) :
    s.cal.Kept t.cal := by
  unfold State.takeDraft at h
  split at h
  · cases h
    exact .of_eq rfl
  · split at h
    · unfold State.completeSecond at h
      split at h
      · cases h
      · cases h
        refine State.ticketVisit_kept _ _ _ ?_
        split <;> simp
    · exact State.completeFirst_kept h

end Sys2Proof.Machine
end

