-- ==== Sys2Proof/Proofs/CompletionEvent.lean ====
section
/-! A round that completes the wait of a capture, the vehicle still there: the one event that the blocks make of it (R49,
log 7). -/

namespace Sys2Proof.Machine

/-! ### The event of the Capture Unit -/

/-- What every completion of a wait leaves: the hold set and what it is judged by, the grant, the counts, and a bridge
that is OCCUPIED or RELEASED. -/
structure State.CompletedFrom (y u : State) : Prop where
  state : u.bridge.state = .occupied ∨ u.bridge.state = .released
  grant : u.bridge.grant = y.bridge.grant
  holds : u.bridge.holds = y.bridge.holds
  entered : u.axles.entered = y.axles.entered
  exited : u.axles.exited = y.axles.exited
  flag : u.cal.flag = y.cal.flag
  lockout : u.cal.lockout = y.cal.lockout

theorem State.endCapture_completed {y : State} (ho : y.bridge.state = .occupied) (cap : Capture) (code : Status)
    (round : Option Nat) (accepted : Option AcceptedCapture) :
    y.CompletedFrom (y.endCapture cap code round accepted) :=
  ⟨.inl ho, rfl, rfl, rfl, rfl, rfl, rfl⟩

theorem State.refuseStraddle_completed {y : State} (ho : y.bridge.state = .occupied) (cap : Capture)
    (r : RoundValues) (a b m : Nat) (decks : List Nat) : y.CompletedFrom (y.refuseStraddle cap r a b m decks) := by
  refine ⟨.inl ?_, ?_, ?_, ?_, ?_, ?_, ?_⟩ <;> simp [State.refuseStraddle, ho]

/-- R50, R69: so does an accepted draft, whatever the tables made of it. -/
theorem State.acceptCapture_completed {y t : State} {pos : Nat} {v : Visit} {d : DraftResult}
    (ho : y.bridge.state = .occupied) (ht : y.takeDraft pos v d = .ok t) (cap : Capture) (r : RoundValues) :
    y.CompletedFrom (t.acceptCapture cap d r) := by
  obtain ⟨-, hbridge⟩ := State.takeDraft_view ht
  obtain ⟨-, -, -, -, -, -, haxles, -⟩ := State.takeDraft_frame ht
  have hkept := State.takeDraft_kept ht
  obtain ⟨-, -, hcal, hentered, hexited⟩ := t.acceptCapture_over cap d r
  have hb := t.acceptCapture_bridge cap d r
  rw [hbridge] at hb
  refine ⟨?_, by rw [hb], by rw [hb], by rw [hentered, haxles], by rw [hexited, haxles], by rw [hcal]; exact hkept.flag,
    by rw [hcal]; exact hkept.lockout⟩
  rw [hb]
  split
  · exact .inr rfl
  · exact .inl ho

theorem State.handOff_completed {y : State} (ho : y.bridge.state = .occupied) (cap : Capture) (r : RoundValues)
    (pos : Nat) (v : Visit) : y.CompletedFrom (y.handOff cap r pos v) := by
  unfold State.handOff
  split
  · exact State.endCapture_completed ho _ _ _ _
  · exact State.refuseStraddle_completed ho _ _ _ _ _ _
  · split
    · exact State.endCapture_completed ho _ _ _ _
    · next ht => exact State.acceptCapture_completed ho ht _ _

theorem State.completeCapture_completed {y : State} (ho : y.bridge.state = .occupied) (cap : Capture)
    (r : RoundValues) : y.CompletedFrom (y.completeCapture cap r) := by
  have hended := fun code => State.endCapture_completed ho cap code (some r.index) none
  unfold State.completeCapture
  split
  · exact hended _
  · split
    · exact hended _
    · split
      · split
        · exact State.handOff_completed ho _ _ _ _
        · exact hended _
      · exact hended _

/-- What the blocks leave as the completion of the wait left it. -/
structure State.CompletedTo (u b : State) : Prop where
  capture : b.capture = u.capture
  visits : b.visits = u.visits
  inUse : b.inUse = u.inUse
  tares : b.tares = u.tares
  tickets : b.tickets = u.tickets
  cal : b.cal = u.cal
  evidence : b.evidence = u.evidence
  frozen : b.axles.trace.frozen = u.axles.trace.frozen
  state : b.bridge.state = u.bridge.state
  grant : b.bridge.grant = u.bridge.grant
  advance : b.bridge.advance = u.bridge.advance
  withheld : b.bridge.withheld = u.bridge.withheld

/-- The event of a completion. -/
theorem event_completed {y u : State} (hs : y.settled = true) (hu : y.CompletedFrom u) (hstaged : u.staged = y.staged)
    (hrun : u.run = y.run) (hfaults : u.faults = y.faults) (hsite : u.site = y.site) (hports : u.ports = y.ports) :
    u.CompletedTo (event y u) ∧ (event y u).axles = u.axles ∧ (event y u).run = y.run ∧
      (event y u).ports = ({ y with outbox := u.outbox } : State).flush.ports := by
  obtain ⟨hmet, hfault⟩ := State.sourcesJudged_of_settled hs
  have hpolicy : ∀ k, u.policy k = y.policy k := by
    intro k
    cases k <;> simp [State.policy, hsite]
  have hjudged : u.faultJudged = y.faultJudged := by
    simp [State.faultJudged, State.heldByPresent, State.flagSet, State.heldByMark, State.locked, hfaults, hu.flag,
      hu.lockout, hpolicy]
  have hj : u.sourcesJudged := by
    rw [State.sourcesJudged, hjudged, hu.holds, hrun, State.accessOpen, hstaged]
    exact ⟨hmet, hfault⟩
  have hfree : u.bridge.state ≠ .free := by rcases hu.state with h | h <;> rw [h] <;> decide
  obtain ⟨hstate, hgrant, haxles, hvisits, huse, hcapture, hevrun, hout⟩ := event_not_free hj hu.holds hfree
  obtain ⟨hsettle, -, -⟩ := event_resettled hj hu.holds
  obtain ⟨hbridge, -⟩ := event_settle y u
  refine ⟨⟨hcapture, hvisits, huse, by simp, by simp, by simp, by simp, by rw [haxles], hstate, hgrant, ?_, ?_⟩, haxles,
    hevrun.trans hrun, ?_⟩
  · rw [hbridge, hsettle.advance]
  · rw [hbridge, hsettle.withheld]
  · rw [(event_settle y u).2.2.2.2.2.2.2]
    exact State.flush_ports_congr (by simp [hports]) hout

/-! ### In the order of the blocks -/

section
variable {s u : State} {c : Instr} {r : RoundValues} {cap : Capture}

/-- R49: the Capture Unit completes the wait in one event; the others leave the round, but for the trace. -/
theorem State.Before.completes (h : s.Before c r u) (hs : s.settled = true) (hn : s.commitNote = none)
    (ho : s.bridge.state = .occupied) (hc : s.capture.waiting = some cap) (hw : s.completesWait r cap.restart = true)
    (hl : s.seesLeft r = false) :
    ∃ y, s.Faces c r y ∧ (y.completeCapture cap r).CompletedTo (u.blocksTakeRound r) ∧
      (u.blocksTakeRound r).run = s.run ∧
      (u.blocksTakeRound r).ports =
        ({ s with outbox := (y.completeCapture cap r).outbox } : State).flush.ports ∧
      (u.blocksTakeRound r).bridge = (event y (y.completeCapture cap r)).bridge := by
  obtain ⟨x, hx, order, horder, hblocks⟩ := h.order ho
  obtain ⟨hxs, hxn⟩ := hx.between hs hn
  have htake : ∀ y, s.Faces c r y → State.takeAs r y .capture = event y (y.completeCapture cap r) := by
    intro y hy
    have hwaits : y.capture.waiting = some cap := by rw [hy.found.2.1, hc]
    simp only [State.takeAs, State.captureTakesRound, hwaits, (hy.waitComplete _).trans hw, if_true]
  have hevent : ∀ y, s.Faces c r y → (y.completeCapture cap r).CompletedTo (event y (y.completeCapture cap r)) ∧
      (event y (y.completeCapture cap r)).axles = (y.completeCapture cap r).axles ∧
      (event y (y.completeCapture cap r)).run = y.run ∧
      (event y (y.completeCapture cap r)).ports =
        ({ y with outbox := (y.completeCapture cap r).outbox } : State).flush.ports := by
    intro y hy
    have hyo : y.bridge.state = .occupied := by rw [hy.found.1, ho]
    exact event_completed (hy.between hs hn).1 (State.completeCapture_completed hyo cap r) (by simp) (by simp) (by simp)
      (by simp) (by simp)
  have hafter : ∀ y, s.Faces c r y → (event y (y.completeCapture cap r)).rests r .arbiter := by
    intro y hy
    have hyo : y.bridge.state = .occupied := by rw [hy.found.1, ho]
    have hcompleted := State.completeCapture_completed hyo cap r
    obtain ⟨hto, haxles, -, -⟩ := hevent y hy
    refine ⟨?_, ?_⟩
    · rw [hto.state]
      rcases hcompleted.state with hst | hst <;> rw [hst] <;> decide
    · rw [← hl, ← hy.hasLeft]
      have hweigh : (event y (y.completeCapture cap r)).weigh = y.weigh := by simp
      have hbelow : (event y (y.completeCapture cap r)).below = y.below := by
        funext w
        rw [State.below, State.below, hweigh]
      rw [State.hasLeft, State.hasLeft, hweigh, hbelow, haxles, hcompleted.entered, hcompleted.exited]
  obtain ⟨first, last, hfirst, hlast, hfold⟩ := State.takersTake_one (k := .capture) horder hxs hxn
    (fun j hj => by
      cases j with
      | capture => exact absurd rfl hj
      | trace => trivial
      | arbiter => exact hx.rests_arbiter ho hl)
    (fun trace htrace j hj => by
      cases j with
      | capture => exact absurd rfl hj
      | trace => trivial
      | arbiter =>
        rw [htake _ (hx.traced htrace)]
        exact hafter _ (hx.traced htrace))
  have hy := hx.traced hfirst
  generalize ({ x with axles.trace := first } : State) = y at hy hlast hfold
  obtain ⟨hto, -, hrun, hports⟩ := hevent y hy
  rw [htake y hy] at hlast hfold
  obtain ⟨-, -, -, -, hyrun, hyports, -, -⟩ := hy.found
  refine ⟨y, hy, ?_⟩
  rw [hblocks, hfold]
  generalize event y (y.completeCapture cap r) = z at hto hrun hports hlast
  exact ⟨{ hto with frozen := hlast.trans hto.frozen }, hrun.trans hyrun,
    hports.trans (State.flush_ports_congr hyports rfl), rfl⟩

end

end Sys2Proof.Machine
end

