-- ==== Sys2Proof/Proofs/CaptureRefused.lean ====
section
/-! A capture that the round which completes its wait refuses (R49, R92 to R97, R105). -/

namespace Sys2Proof.Machine

/-! ### What a completing round reads, in the round's own terms -/

section
variable {s y : State} {c : Instr} {r : RoundValues}

theorem State.Faces.configOf (h : s.Faces c r y) (v : Visit) : y.configOf v = s.configOf v := by
  rw [h.rest]
  rfl

theorem State.Faces.notForTrade (h : s.Faces c r y) : y.notForTrade = s.notForTrade := by
  rw [h.rest]
  rfl

/-- R50: the hand-off is made with the counts and the grant that the round found, by its table. -/
theorem State.Faces.handoff (h : s.Faces c r y) (v : Visit) : y.handoff v r = (s.judgedOn r).handoff v r := by
  obtain ⟨hbridge, -, -, -, -, -, -, haxles⟩ := h.found
  obtain ⟨-, htable, -⟩ := s.judgedOn_weigh r
  have hjudged : (s.judgedOn r).axles = s.axles ∧ (s.judgedOn r).bridge = s.bridge := by simp [State.judgedOn]
  simp only [State.handoff, h.weighed.table, htable, hjudged, hbridge]
  rw [haxles]

/-- R105: a freeze is noticed as the round found the trace. -/
theorem State.Faces.freezeNews (h : s.Faces c r y) (record : FreezeRecord) :
    y.freezeNews record = s.freezeNews record := by
  simp only [State.freezeNews, h.frozen]

end

/-! ### The refusal -/

/-- R45, R57: the Capture Unit with its capture ended. -/
def CaptureUnit.afterEnd (u : CaptureUnit) (cap : Capture) (code : Status) (round : Option Nat) : CaptureUnit :=
  { u with waiting := none, arm := false, lastOutcome := some (cap.ended code round) }

/-- A capture has been refused with some notices: visit, tares, tickets and evidence stay. -/
structure State.Refused (s : State) (cap : Capture) (code : Status) (round : Nat) (news : List (Port × Notice))
    (b : State) : Prop where
  capture : b.capture = s.capture.afterEnd cap code (some round)
  bridge : b.bridge = s.bridge
  visits : b.visits = s.visits
  inUse : b.inUse = s.inUse
  tares : b.tares = s.tares
  tickets : b.tickets = s.tickets
  cal : b.cal = s.cal
  evidence : b.evidence = s.evidence
  run : b.run = s.run
  ports : b.ports = ({ s with outbox := news } : State).flush.ports

/-- The outcome of a refused capture as it is told (R45). -/
def Capture.told (cap : Capture) (code : Status) : List (Port × Notice) :=
  [(cap.origin.port, .captureOutcome cap.origin cap.ident code none)]

section
variable {s u : State} {c : Instr} {r : RoundValues} {cap : Capture}

/-- R49: where the completion of the wait changes the capture and the trace alone, so do the blocks. -/
theorem State.Before.refused {code : Status} {news : List (Port × Notice)} {frozen : Option FreezeRecord}
    (h : s.Before c r u) (hs : s.settled = true) (hn : s.commitNote = none)
    (ho : s.bridge.state = .occupied) (hc : s.capture.waiting = some cap) (hw : s.completesWait r cap.restart = true)
    (hl : s.seesLeft r = false)
    (hr : ∀ y, s.Faces c r y → ∃ axles : Axles, axles.trace.frozen = frozen ∧ y.completeCapture cap r =
      { y with capture := y.capture.afterEnd cap code (some r.index), axles := axles, outbox := y.outbox ++ news }) :
    s.Refused cap code r.index news (u.blocksTakeRound r) ∧ (u.blocksTakeRound r).axles.trace.frozen = frozen := by
  obtain ⟨y, hy, hto, hrun, hports, hbridge⟩ := h.completes hs hn ho hc hw hl
  obtain ⟨axles, hfrozen, hu⟩ := hr y hy
  obtain ⟨hyb, hyc, hyv, hyu, -, -, hyo, -⟩ := hy.found
  obtain ⟨hyt, hyk, hycal, hye, -⟩ := hy.stores
  have hquiet : y.outbox = [] := hyo.trans (s.settled_iff.1 hs).1
  obtain ⟨hys, hyn⟩ := hy.between hs hn
  have hevent : event y (y.completeCapture cap r) = (y.completeCapture cap r).flush :=
    event_refusal hys hyn (by rw [hu])
  rw [hevent, hu] at hbridge
  rw [hu] at hto hports
  refine ⟨⟨?_, ?_, ?_, ?_, ?_, ?_, ?_, ?_, hrun, ?_⟩, hto.frozen.trans hfrozen⟩
  · rw [hto.capture, ← hyc]
  · rw [hbridge, ← hyb]
    rfl
  · rw [hto.visits, ← hyv]
  · rw [hto.inUse, ← hyu]
  · rw [hto.tares, ← hyt]
  · rw [hto.tickets, ← hyk]
  · rw [hto.cal, ← hycal]
  · rw [hto.evidence, ← hye]
  · rw [hports, hquiet, List.nil_append]

/-- R49, R50: a code refuses the capture, with its outcome alone. -/
theorem State.Before.refusedWith {code : Status} (h : s.Before c r u) (hs : s.settled = true) (hn : s.commitNote = none)
    (ho : s.bridge.state = .occupied) (hc : s.capture.waiting = some cap) (hw : s.completesWait r cap.restart = true)
    (hl : s.seesLeft r = false)
    (hr : ∀ y, s.Faces c r y → y.completeCapture cap r = y.endCapture cap code (some r.index) none) :
    s.Refused cap code r.index (cap.told code) (u.blocksTakeRound r) :=
  (h.refused hs hn ho hc hw hl fun y hy => ⟨y.axles, hy.frozen, hr y hy⟩).1

/-- R94, R105: a STRADDLE refuses it, asks for a reposition and freezes the trace. -/
theorem State.Before.straddles {first last groups : Nat} {decks : List Nat} (h : s.Before c r u)
    (hs : s.settled = true) (hn : s.commitNote = none)
    (ho : s.bridge.state = .occupied) (hc : s.capture.waiting = some cap) (hw : s.completesWait r cap.restart = true)
    (hl : s.seesLeft r = false)
    (hr : ∀ y, s.Faces c r y → y.completeCapture cap r = y.refuseStraddle cap r first last groups decks) :
    s.Refused cap .straddle r.index
        (s.freezeNews { reason := .straddle, ident := cap.ident, round := r.index, draft := none } ++
          (.lane, .reposition cap.ident first last groups decks) :: cap.told .straddle) (u.blocksTakeRound r) ∧
      (u.blocksTakeRound r).axles.trace.frozen = some (s.axles.trace.frozen.getD
        { reason := .straddle, ident := cap.ident, round := r.index, draft := none }) := by
  refine h.refused hs hn ho hc hw hl fun y hy => ?_
  refine ⟨(y.freezeTrace .straddle cap.ident r none).axles, ?_, ?_⟩
  · rw [State.freezeTrace_frozen, hy.frozen]
  · rw [hr y hy, State.refuseStraddle, State.endCapture_eq]
    refine State.eq_iff_fields.2 ?_
    simp [State.freezeTrace_outbox, hy.freezeNews, CaptureUnit.afterEnd, Capture.ended, Capture.told]

end

end Sys2Proof.Machine
end

