-- ==== Sys2Proof/Proofs/DraftOverRound.lean ====
section
/-! The tables and the Ticket Unit take a draft whatever the cell bus, the weighing and the trace are (R113, R114, R127). -/

namespace Sys2Proof.Machine

/-- A state over the cell bus, the weighing and the trace of another. -/
def State.over (t y : State) : State :=
  { t with bus := y.bus, weigh := y.weigh, choices := y.choices, axles.trace := y.axles.trace }

section
variable (t y : State)

theorem State.post_over (p : Port) (n : Notice) : (t.over y).post p n = (t.post p n).over y := rfl

theorem State.postAll_over (ps : List Port) (n : Notice) : (t.over y).postAll ps n = (t.postAll ps n).over y := by
  induction ps generalizing t with
  | nil => rfl
  | cons p ps ih => exact ih (t.post p n)

theorem State.learnTare_over (k : Tare) : (t.over y).learnTare k = (t.learnTare k).over y := by
  have hchoice : (t.over y).chooseTare k.ident = t.chooseTare k.ident := rfl
  unfold State.learnTare State.storeTare
  rw [hchoice]
  cases t.chooseTare k.ident <;> rfl

theorem State.firstWeighed_over (p : Nat) (v : Visit) (r : WeighRecord) :
    (t.over y).firstWeighed p v r = (t.firstWeighed p v r).over y := rfl

theorem State.takeNumber_over : (t.over y).takeNumber = t.takeNumber.over y := by
  have hcal : (t.over y).cal = t.cal := rfl
  unfold State.takeNumber
  rw [hcal]
  split
  · rfl
  · split <;> rfl

theorem State.noteRing_over : (t.over y).noteRing = t.noteRing.over y := by
  have htickets : (t.over y).tickets = t.tickets := rfl
  unfold State.noteRing
  rw [htickets]
  split
  · split <;> rfl
  · rfl

theorem State.postCopy_over (n : Notice) : (t.over y).postCopy n = (t.postCopy n).over y := by
  have hsite : (t.over y).site = t.site := rfl
  unfold State.postCopy
  rw [hsite]
  split <;> rfl

theorem State.noteTicket_over (k : Ticket) : (t.over y).noteTicket k = (t.noteTicket k).over y := by
  unfold State.noteTicket
  simp only [State.post_over, State.postCopy_over]

theorem State.issueTicket_over (v : Visit) (h : TicketHandoff) :
    (t.over y).issueTicket v h = (t.issueTicket v h).over y := by
  have hkey : (t.over y).cal = t.cal := rfl
  have hstored : ∀ k : Ticket, ({ t.over y with
      cal.lastKey := some k.key, tickets.ring := (t.over y).tickets.ring ++ [k]
      tickets.shift := (t.over y).tickets.shift.take k } : State) =
      ({ t with cal.lastKey := some k.key, tickets.ring := t.tickets.ring ++ [k]
                tickets.shift := t.tickets.shift.take k } : State).over y := fun _ => rfl
  unfold State.issueTicket
  simp only [hkey]
  rw [← State.noteTicket_over, ← State.noteRing_over, ← State.takeNumber_over, ← hstored]
  rfl

theorem State.ticketVisit_over (p : Nat) (v : Visit) (h : TicketHandoff) :
    (t.over y).ticketVisit p v h = (t.ticketVisit p v h).over y := by
  unfold State.ticketVisit
  rw [State.issueTicket_over]
  rfl

/-- R113. -/
theorem State.completeFirst_over (p : Nat) (v : Visit) (r : WeighRecord) :
    (t.over y).completeFirst p v r = (t.completeFirst p v r).map (·.over y) := by
  have hlookup : (t.over y).lookup v.ident = t.lookup v.ident := rfl
  have hrefusal : (t.over y).ticketRefusal = t.ticketRefusal := rfl
  have hlooked : ∀ l, ({ t.over y with tares := (t.over y).tares.looked l } : State) =
      ({ t with tares := t.tares.looked l } : State).over y := fun _ => rfl
  unfold State.completeFirst
  simp only [hlookup, hrefusal, hlooked, State.learnTare_over, State.firstWeighed_over, State.postAll_over,
    State.ticketVisit_over]
  cases v.kind with
  | collection => cases v.learn <;> rfl
  | delivery =>
    cases v.useStored with
    | false => rfl
    | true =>
      cases t.lookup v.ident with
      | found => cases t.ticketRefusal <;> rfl
      | expired => rfl
      | notHeld => rfl

/-- R114. -/
theorem State.completeSecond_over (p : Nat) (v : Visit) (r : WeighRecord) :
    (t.over y).completeSecond p v r = (t.completeSecond p v r).map (·.over y) := by
  have hrefusal : (t.over y).ticketRefusal = t.ticketRefusal := rfl
  unfold State.completeSecond
  rw [hrefusal]
  cases t.ticketRefusal with
  | some code => rfl
  | none =>
    simp only [State.learnTare_over]
    split <;> rw [State.ticketVisit_over] <;> rfl

/-- R100, R113, R114. -/
theorem State.takeDraft_over (p : Nat) (v : Visit) (d : DraftResult) :
    (t.over y).takeDraft p v d = (t.takeDraft p v d).map (·.over y) := by
  have hrecord : ∀ w, (t.over y).recordOf w = t.recordOf w := fun _ => rfl
  unfold State.takeDraft
  cases d.content with
  | none => rfl
  | some w =>
    simp only [hrecord, State.completeFirst_over, State.completeSecond_over]
    split <;> rfl

end

/-- A block takes the draft as the round found the tables. -/
theorem State.Faces.takeDraft {s y : State} {c : Instr} {r : RoundValues} (h : s.Faces c r y) (p : Nat) (v : Visit)
    (d : DraftResult) : y.takeDraft p v d = (s.takeDraft p v d).map (·.over y) := by
  have hover : y = s.over y := h.rest
  exact (congrArg (State.takeDraft · p v d) hover).trans (s.takeDraft_over y p v d)

end Sys2Proof.Machine
end

