-- ==== Sys2Proof/Proofs/DraftAccepted.lean ====
section
/-! A capture whose draft the tables and the Ticket Unit take (R50, R69, R100, R101, R113, R114). -/

namespace Sys2Proof.Machine

/-- A snapshot is taken of the records, the latest round with its verdict, the grant, the clock and the epoch. -/
theorem State.snapshotOf_congr {a b : State} (hclock : a.site.clock = b.site.clock) (hepoch : a.cal.epoch = b.cal.epoch)
    (hrecords : ∀ i, a.bus.record i = b.bus.record i) (hlatest : a.weigh.latest = b.weigh.latest)
    (hstable : a.weigh.stable = b.weigh.stable) (hgrant : a.bridge.grant = b.bridge.grant) (number : Nat)
    (kind : SnapshotKind) (draft : Option Nat) :
    a.snapshotOf number kind draft = b.snapshotOf number kind draft := by
  simp only [State.snapshotOf, hclock, hepoch, hrecords, hlatest, hstable, hgrant]

/-- R101: the evidence, its number and the trace after an accepted draft; a snapshot has the completing round and the
records as the last poll left them. -/
def State.Evidenced (s : State) (c : Instr) (cap : Capture) (d : DraftResult) (r : RoundValues) (b : State) : Prop :=
  (d.anyOver = true →
    b.evidence = s.evidence.filter (fun x => x.slot ≠ chooseEvidenceSlot s.evidence .overVerdict) ++
        [{ slot := chooseEvidenceSlot s.evidence .overVerdict
           snapshot := ({ s.judgedOn r with bus := (s.lastPolled c).bus } : State).snapshotOf s.snapshotNumber
             .overVerdict (some d.draft.used) }] ∧
      b.cal.snapshotNext = nextSnapshotNumber s.snapshotNumber ∧
      b.axles.trace.frozen = some (s.axles.trace.frozen.getD (overFreeze cap d r))) ∧
  (d.anyOver = false → b.evidence = s.evidence ∧ b.cal.snapshotNext = s.cal.snapshotNext ∧
    b.axles.trace.frozen = s.axles.trace.frozen)

/-- R50, R100: what an accepted capture has left, the tables and the Ticket Unit having made a state of its draft. -/
structure State.Accepted (s : State) (c : Instr) (cap : Capture) (d : DraftResult) (r : RoundValues) (t b : State) :
    Prop where
  waiting : b.capture.waiting = none
  arm : b.capture.arm = false
  lastOutcome : b.capture.lastOutcome = some (cap.ended .accepted (some r.index))
  capture : d.content = none → b.capture = s.capture.afterEnd cap .accepted (some r.index)
  state : b.bridge.state = if d.content.isSome && !b.bridge.withheld then .released else .occupied
  grant : b.bridge.grant = s.bridge.grant
  advance : b.bridge.advance = !d.content.isSome
  withheld : b.bridge.withheld = (s.bridge.withheld || (d.anyOver && s.site.settings.holdExit))
  visits : b.visits = t.visits
  inUse : b.inUse = t.inUse
  tares : b.tares = t.tares
  tickets : b.tickets = t.tickets
  cal : b.cal = { t.cal with snapshotNext := b.cal.snapshotNext }
  evidenced : s.Evidenced c cap d r b
  run : b.run = s.run
  ports : b.ports = ({ s with outbox := t.outbox ++ (acceptedNews cap d r ++ s.overNews d (overFreeze cap d r) ++
    if d.content.isSome && b.bridge.withheld then notesTo [.gatehouse, .lane] (.exitWithheld cap.ident) else []) } :
      State).flush.ports

section
variable {s u t : State} {c : Instr} {r : RoundValues} {cap : Capture} {pos : Nat} {v : Visit} {d : DraftResult}

/-- The round hands the draft of a trading state over to the visit in use. -/
theorem State.Faces.completeCapture {y : State} (h : s.Faces c r y) (hn : ¬s.notForTrade = true)
    (hrange : r.range = .normal) (huse : s.inUse = some pos) (hv : Table.get? s.visits pos = some v)
    (hp : v.inProgress = true) : y.completeCapture cap r = y.handOff cap r pos v := by
  obtain ⟨-, -, hvisits, hyuse, -, -, -, -⟩ := h.found
  rw [State.completeCapture_checked cap (hyuse.trans huse) (by rw [hvisits]; exact hv) hp, h.notForTrade, if_neg hn,
    if_neg (not_not.2 hrange)]

/-- What an acceptance reads in the state that a block makes of the draft. -/
theorem State.Faces.evidenced {y b : State} (h : s.Faces c r y) (ht : s.takeDraft pos v d = .ok t)
    (he : b.evidence = ((t.over y).acceptCapture cap d r).evidence)
    (hc : b.cal = ((t.over y).acceptCapture cap d r).cal)
    (hf : b.axles.trace.frozen = ((t.over y).acceptCapture cap d r).axles.trace.frozen) :
    s.Evidenced c cap d r b := by
  obtain ⟨hover, hwithin, -⟩ := (t.over y).acceptCapture_over cap d r
  obtain ⟨-, -, -, -, -, hbridge, -, -, -, -, -, hevidence, -, hsite, -⟩ := State.takeDraft_frame ht
  have hkept := State.takeDraft_kept ht
  have hte : (t.over y).evidence = s.evidence := hevidence
  have htc : (t.over y).cal.snapshotNext = s.cal.snapshotNext := hkept.snapshotNext
  have htf : (t.over y).axles.trace.frozen = s.axles.trace.frozen := h.frozen
  have hnumber : (t.over y).snapshotNumber = s.snapshotNumber := by
    rw [State.snapshotNumber, State.snapshotNumber, hte, htc]
  obtain ⟨hlatest, -⟩ := s.judgedOn_weigh r
  have hjudged : (s.judgedOn r).site = s.site ∧ (s.judgedOn r).cal = s.cal ∧ (s.judgedOn r).bridge = s.bridge := by
    simp [State.judgedOn]
  obtain ⟨hjs, hjc, hjb⟩ := hjudged
  have hseen : ∀ n k x, (t.over y).snapshotOf n k x =
      ({ s.judgedOn r with bus := (s.lastPolled c).bus } : State).snapshotOf n k x :=
    State.snapshotOf_congr
      ((congrArg Site.clock hsite).trans (congrArg Site.clock hjs.symm))
      (hkept.epoch.trans (congrArg Calibration.epoch hjc.symm)) h.records (h.weighed.latest.trans hlatest.symm)
      h.weighed.stable ((congrArg Bridge.grant hbridge).trans (congrArg Bridge.grant hjb.symm))
  refine And.intro (fun hd => ?_) (fun hd => ?_)
  · obtain ⟨h1, h2, h3⟩ := hover hd
    rw [he, hc, hf, h1, h2, h3, hte, hnumber, hseen, htf]
    exact ⟨rfl, rfl, rfl⟩
  · obtain ⟨h1, h2, h3⟩ := hwithin hd
    rw [he, hc, hf, h1, h2, h3]
    exact ⟨hte, htc, htf⟩

/-- R50, R100: an acceptance. -/
theorem State.Before.accepts (h : s.Before c r u) (hs : s.settled = true) (hn : s.commitNote = none)
    (ho : s.bridge.state = .occupied) (hc : s.capture.waiting = some cap) (hw : s.completesWait r cap.restart = true)
    (hl : s.seesLeft r = false) (htrade : ¬s.notForTrade = true) (hrange : r.range = .normal)
    (huse : s.inUse = some pos) (hv : Table.get? s.visits pos = some v) (hp : v.inProgress = true)
    (hd : resolveDraft (s.configOf v) ((s.judgedOn r).handoff v r) = .result d) (ht : s.takeDraft pos v d = .ok t) :
    s.Accepted c cap d r t (u.blocksTakeRound r) := by
  obtain ⟨y, hy, hto, hrun, hports, -⟩ := h.completes hs hn ho hc hw hl
  have hcomplete : y.completeCapture cap r = (t.over y).acceptCapture cap d r := by
    rw [hy.completeCapture htrade hrange huse hv hp, State.handOff, hy.configOf, hy.handoff, hd]
    simp only [hy.takeDraft, ht, Except.map]
  obtain ⟨-, -, -, -, hcapture, hbridge, -, -, -, -, -, hevidence, -, hsite, -⟩ := State.takeDraft_frame ht
  rw [hcomplete] at hto hports
  have hb := (t.over y).acceptCapture_bridge cap d r
  have hwithholds : (t.over y).withholds d.anyOver = s.withholds d.anyOver := by
    show t.withholds d.anyOver = _
    rw [State.withholds, State.withholds, hbridge, hsite]
  have hwithheld : (u.blocksTakeRound r).bridge.withheld = s.withholds d.anyOver := by
    rw [hto.withheld, hb, hwithholds]
  obtain ⟨hwaiting, harm, hlast, hcap⟩ := (t.over y).acceptCapture_capture cap d r
  obtain ⟨-, -, hcal, -⟩ := (t.over y).acceptCapture_over cap d r
  have hnews : (t.over y).overNews d (overFreeze cap d r) = s.overNews d (overFreeze cap d r) := by
    have hnumber : (t.over y).snapshotNumber = s.snapshotNumber := by
      show freeSnapshotNumber (t.evidence.map _) t.cal.snapshotNext 9 = _
      rw [hevidence, (State.takeDraft_kept ht).snapshotNext]
      rfl
    have hfreeze : (t.over y).freezeNews (overFreeze cap d r) = s.freezeNews (overFreeze cap d r) :=
      hy.freezeNews (overFreeze cap d r)
    have hte : (t.over y).evidence = s.evidence := hevidence
    have hts : (t.over y).site = s.site := hsite
    simp only [State.overNews, hnumber, hfreeze, hte, hts]
  refine ⟨?_, ?_, ?_, fun hnone => ?_, ?_, ?_, ?_, hwithheld, ?_, ?_, ?_, ?_, ?_, ?_, hrun, ?_⟩
  · rw [hto.capture, hwaiting]
  · rw [hto.capture, harm]
  · rw [hto.capture, hlast]
  · rw [hto.capture, hcap hnone, ← hcapture]
    rfl
  · rw [hwithheld, hto.state, hb, hwithholds, ← ho, ← hbridge]
    rfl
  · rw [hto.grant, hb, ← hbridge]
    rfl
  · rw [hto.advance, hb]
  · rw [hto.visits]
    simp [State.over]
  · rw [hto.inUse]
    simp [State.over]
  · rw [hto.tares]
    simp [State.over]
  · rw [hto.tickets]
    simp [State.over]
  · rw [hto.cal, hcal]
    rfl
  · exact hy.evidenced ht hto.evidence hto.cal hto.frozen
  · rw [hports, State.acceptCapture_outbox, hwithholds, hwithheld, hnews]
    rfl

/-- R49, R127: the Ticket Unit refuses it. -/
theorem State.Before.unticketed {code : Status} (h : s.Before c r u) (hs : s.settled = true) (hn : s.commitNote = none)
    (ho : s.bridge.state = .occupied) (hc : s.capture.waiting = some cap) (hw : s.completesWait r cap.restart = true)
    (hl : s.seesLeft r = false) (htrade : ¬s.notForTrade = true) (hrange : r.range = .normal)
    (huse : s.inUse = some pos) (hv : Table.get? s.visits pos = some v) (hp : v.inProgress = true)
    (hd : resolveDraft (s.configOf v) ((s.judgedOn r).handoff v r) = .result d)
    (ht : s.takeDraft pos v d = .error code) :
    s.Refused cap code r.index (cap.told code) (u.blocksTakeRound r) := by
  refine h.refusedWith hs hn ho hc hw hl fun y hy => ?_
  rw [hy.completeCapture htrade hrange huse hv hp, State.handOff, hy.configOf, hy.handoff, hd]
  simp only [hy.takeDraft, ht, Except.map]

end

end Sys2Proof.Machine
end

