-- ==== Sys2Proof/Proofs/TablesByVisit.lean ====
section
/-! What the tables and the Ticket Unit make of a draft that completes a weighing, by the visit (R113, R114, R121, R122,
R127). -/

namespace Sys2Proof.Machine

/-- The notices of the tables and the Ticket Unit, from FIRST_WEIGHED to the short form of TICKET_ISSUED, by their
numbers. -/
def ofTables (l : List (Port × Notice)) : Prop := ∀ n ∈ l, 11 ≤ n.2.number ∧ n.2.number ≤ 20

theorem ofTables_append {k l : List (Port × Notice)} : ofTables (k ++ l) ↔ ofTables k ∧ ofTables l := by
  unfold ofTables
  exact List.forall_mem_append

theorem ofTables_notesTo {ps : List Port} {n : Notice} (h : 11 ≤ n.number ∧ n.number ≤ 20) : ofTables (notesTo ps n) := by
  intro e he
  obtain ⟨p, -, rfl⟩ := List.mem_map.1 he
  exact h

theorem ofTables_single {p : Port} {n : Notice} (h : 11 ≤ n.number ∧ n.number ≤ 20) : ofTables [(p, n)] :=
  ofTables_notesTo (ps := [p]) h

/-- R122: the notices of a LEARNED store. -/
theorem State.learnNews_number (s : State) (k : Tare) : ∀ n ∈ s.learnNews k, n.2.number = 15 ∨ n.2.number = 16 := by
  unfold State.learnNews
  cases s.chooseTare k.ident <;> simp [Notice.number]

theorem State.learnNews_ofTables (s : State) (k : Tare) : ofTables (s.learnNews k) := fun n hn => by
  have := s.learnNews_number k n hn
  omega

/-- R133, R134, R136, R139: the notices of an issue. -/
theorem State.issueNews_number (s : State) (k : Ticket) : ∀ n ∈ s.issueNews k, 17 ≤ n.2.number ∧ n.2.number ≤ 20 := by
  unfold State.issueNews notesTo
  intro n hn
  simp only [List.mem_append] at hn
  rcases hn with ((hn | hn) | hn) | hn
  · split at hn
    · cases hn
    · obtain ⟨p, -, rfl⟩ := List.mem_map.1 hn
      split <;> simp [Notice.number]
  · split at hn
    · obtain rfl := List.mem_singleton.1 hn
      simp [Notice.number]
    · cases hn
  · obtain ⟨p, -, rfl⟩ := List.mem_map.1 hn
    simp [Notice.number]
  · obtain rfl := List.mem_singleton.1 hn
    simp [Notice.number]

theorem State.issueNews_ofTables (s : State) (k : Ticket) : ofTables (s.issueNews k) := fun n hn => by
  have := s.issueNews_number k n hn
  omega

/-! ### The first weighing -/

/-- R113: the state that the tables make of a draft which becomes the first weighing, with the tares they leave and
what they hand to the queues beside FIRST_WEIGHED. -/
structure State.Awaits (s : State) (pos : Nat) (v : Visit) (record : WeighRecord) (tares : Tares)
    (news : List (Port × Notice)) (t : State) : Prop where
  visits : t.visits = Table.set s.visits pos
    { v with state := .awaitingSecond, first := some record, draft := .empty, age := 0 }
  inUse : t.inUse = s.inUse
  tickets : t.tickets = s.tickets
  tares : t.tares = tares
  cal : t.cal = s.cal
  tables : ofTables t.outbox
  outbox : sameQueues t.outbox ((.gatehouse, .firstWeighed v.ident v.kind record.weight record.source record.combination
    record.drafts) :: news)

/-- R114, R127: the state that the tables and the Ticket Unit make of a draft which completes the ticket. -/
structure State.Tickets (s : State) (pos : Nat) (v : Visit) (h : TicketHandoff) (tares : Tares)
    (news : List (Port × Notice)) (t : State) : Prop where
  visits : t.visits = Table.erase s.visits pos
  inUse : t.inUse = none
  tickets : t.tickets = { ring := s.tickets.ring ++ [ticketOf s.nextKey v h]
                          shift := s.tickets.shift.take (ticketOf s.nextKey v h), last := s.tickets.last }
  tares : t.tares = tares
  cal : t.cal = (s.issueTicket v h).cal
  tables : ofTables t.outbox
  outbox : sameQueues t.outbox (s.issueNews (ticketOf s.nextKey v h) ++ news)

section
variable {s : State} {pos : Nat} {v : Visit} {d : DraftResult} {w : WeighContent}

theorem State.firstWeighed_awaits (hs : s.outbox = []) (tares : Tares) (record : WeighRecord) :
    s.Awaits pos v record tares [] (({ s with tares := tares } : State).firstWeighed pos v record) where
  visits := rfl
  inUse := rfl
  tickets := rfl
  tares := rfl
  cal := rfl
  tables := by
    simp only [State.firstWeighed, State.post_outbox, hs, List.nil_append]
    exact ofTables_single (by simp [Notice.number])
  outbox := by
    simp only [State.firstWeighed, State.post_outbox, hs, List.nil_append]
    exact sameQueues.refl _

/-- R122: with a tare learned first. -/
theorem State.firstWeighed_learned (hs : s.outbox = []) (record : WeighRecord) (k : Tare) :
    s.Awaits pos v record (s.learnTare k).tares (s.learnNews k) ((s.learnTare k).firstWeighed pos v record) where
  visits := by simp [State.firstWeighed]
  inUse := by simp [State.firstWeighed]
  tickets := by simp [State.firstWeighed]
  tares := by simp [State.firstWeighed]
  cal := by simp [State.firstWeighed]
  tables := by
    simp only [State.firstWeighed, State.post_outbox, State.learnTare_outbox, hs, List.nil_append]
    exact ofTables_append.2 ⟨s.learnNews_ofTables k, ofTables_single (by simp [Notice.number])⟩
  outbox := by
    simp only [State.firstWeighed, State.post_outbox, State.learnTare_outbox, hs, List.nil_append]
    refine sameQueues.swap (l := [_]) fun n hn m hm => ?_
    have hlearn := s.learnNews_number k n hn
    have hfirst : m.2.number = 11 := by rw [List.mem_singleton.1 hm]; rfl
    omega

/-- R113: with the stored tare gone. -/
theorem State.firstWeighed_gone (hs : s.outbox = []) (tares : Tares) (record : WeighRecord) (why : TareReason) :
    s.Awaits pos v record tares (notesTo [.gatehouse, .lane] (.tareGone v.ident record.weight why))
      ((({ s with tares := tares } : State).firstWeighed pos v record).postAll [.gatehouse, .lane]
        (.tareGone v.ident record.weight why)) where
  visits := rfl
  inUse := rfl
  tickets := rfl
  tares := rfl
  cal := rfl
  tables := by
    simp only [State.firstWeighed, State.postAll_outbox, State.post_outbox, hs, List.nil_append]
    exact ofTables_append.2 ⟨ofTables_single (by simp [Notice.number]), ofTables_notesTo (by simp [Notice.number])⟩
  outbox := by
    simp only [State.firstWeighed, State.postAll_outbox, State.post_outbox, hs, List.nil_append]
    exact sameQueues.refl _

/-! ### The ticket -/

theorem State.ticketVisit_outbox (hs : s.outbox = []) (tares : Tares) (h : TicketHandoff) :
    (({ s with tares := tares } : State).ticketVisit pos v h).outbox = s.issueNews (ticketOf s.nextKey v h) := by
  have hissue : (({ s with tares := tares } : State).ticketVisit pos v h).outbox =
      s.outbox ++ s.issueNews (ticketOf s.nextKey v h) := State.issueTicket_outbox _ v h
  rw [hissue, hs, List.nil_append]

theorem State.ticketVisit_tickets (hs : s.outbox = []) (tares : Tares) (h : TicketHandoff) :
    s.Tickets pos v h tares [] (({ s with tares := tares } : State).ticketVisit pos v h) where
  visits := by simp [State.ticketVisit]
  inUse := rfl
  tickets := State.issueTicket_tickets _ v h
  tares := by simp [State.ticketVisit]
  cal := State.issueTicket_cal_congr (s := s) rfl
  tables := by
    rw [State.ticketVisit_outbox hs]
    exact s.issueNews_ofTables _
  outbox := by
    rw [State.ticketVisit_outbox hs, List.append_nil]
    exact sameQueues.refl _

/-- R114, R122: with a tare learned first. -/
theorem State.ticketVisit_learned (hs : s.outbox = []) (k : Tare) (h : TicketHandoff) :
    s.Tickets pos v h (s.learnTare k).tares (s.learnNews k) ((s.learnTare k).ticketVisit pos v h) := by
  have hcal : (s.learnTare k).cal = s.cal := by simp
  have htickets : (s.learnTare k).tickets = s.tickets := by simp
  have hkey : (s.learnTare k).nextKey = s.nextKey := by rw [State.nextKey, hcal, State.nextKey]
  have hnews : ∀ x, (s.learnTare k).issueNews x = s.issueNews x := fun x => by
    simp only [State.issueNews, hcal, htickets, State.learnTare_frame]
  have hout : ((s.learnTare k).ticketVisit pos v h).outbox = s.learnNews k ++ s.issueNews (ticketOf s.nextKey v h) := by
    have hissue := State.issueTicket_outbox (s := s.learnTare k) (v := v) (h := h)
    rw [State.learnTare_outbox, hs, List.nil_append, hkey, hnews] at hissue
    exact hissue
  refine ⟨by simp [State.ticketVisit], rfl, ?_, by simp [State.ticketVisit], State.issueTicket_cal_congr hcal, ?_, ?_⟩
  · refine (State.issueTicket_tickets _ v h).trans ?_
    rw [htickets, hkey]
  · rw [hout]
    exact ofTables_append.2 ⟨s.learnNews_ofTables k, s.issueNews_ofTables _⟩
  · rw [hout]
    refine sameQueues.swap fun n hn m hm => ?_
    have := s.learnNews_number k n hn
    have := s.issueNews_number _ m hm
    omega

/-! ### By the visit -/

/-- R127: what the Ticket Unit makes of a draft that completes a ticket. -/
theorem State.ticketRefusal_cases (s : State) :
    (64 ≤ s.tickets.ring.length → s.ticketRefusal = some .ticketStoreFull) ∧
      (s.tickets.ring.length < 64 → s.cal.exhausted = true → s.ticketRefusal = some .sequenceExhausted) ∧
      (s.tickets.ring.length < 64 → s.cal.exhausted = false → s.ticketRefusal = none) := by
  refine ⟨fun h => ?_, fun h he => ?_, fun h he => ?_⟩
  · simp [State.ticketRefusal, h]
  · simp [State.ticketRefusal, Nat.not_le.2 h, he]
  · simp [State.ticketRefusal, Nat.not_le.2 h, he]

theorem State.takeDraft_first (hc : d.content = some w) (hv : v.state = .firstInProgress) :
    s.takeDraft pos v d = s.completeFirst pos v (s.recordOf w) := by
  simp [State.takeDraft, hc, hv]

theorem State.takeDraft_second (hc : d.content = some w) (hv : v.state = .secondInProgress) :
    s.takeDraft pos v d = s.completeSecond pos v (s.recordOf w) := by
  simp [State.takeDraft, hc, hv]

/-- R113: the first weighing of a collection, or of a delivery that uses no stored tare. -/
theorem State.completeFirst_awaits (hs : s.outbox = []) (record : WeighRecord)
    (h : (v.kind = .collection ∧ v.learn = false) ∨ (v.kind = .delivery ∧ v.useStored = false)) :
    ∃ t, s.completeFirst pos v record = .ok t ∧ s.Awaits pos v record s.tares [] t := by
  refine ⟨s.firstWeighed pos v record, ?_, State.firstWeighed_awaits hs s.tares record⟩
  rcases h with ⟨hk, hl⟩ | ⟨hk, hu⟩
  · simp [State.completeFirst, hk, hl]
  · simp [State.completeFirst, hk, hu]

theorem State.completeFirst_learns (hs : s.outbox = []) (record : WeighRecord) (hk : v.kind = .collection)
    (hl : v.learn = true) :
    ∃ t, s.completeFirst pos v record = .ok t ∧
      s.Awaits pos v record (s.learnTare (learnedTare v record)).tares (s.learnNews (learnedTare v record)) t :=
  ⟨_, by simp [State.completeFirst, hk, hl], State.firstWeighed_learned hs record _⟩

/-- R113, R121: of a delivery that uses a stored tare. -/
theorem State.completeFirst_gone {why : TareReason} (hs : s.outbox = []) (record : WeighRecord) (hk : v.kind = .delivery)
    (hu : v.useStored = true) (hl : (s.lookup v.ident = .notHeld ∧ why = .notHeld) ∨
      ((∃ slot, s.lookup v.ident = .expired slot) ∧ why = .expired)) :
    ∃ t, s.completeFirst pos v record = .ok t ∧ s.Awaits pos v record (s.tares.looked (s.lookup v.ident))
      (notesTo [.gatehouse, .lane] (.tareGone v.ident record.weight why)) t := by
  refine ⟨_, ?_, State.firstWeighed_gone hs (s.tares.looked (s.lookup v.ident)) record why⟩
  rcases hl with ⟨hl, rfl⟩ | ⟨⟨slot, hl⟩, rfl⟩ <;> simp [State.completeFirst, hk, hu, hl]

theorem State.completeFirst_stored {slot : Nat} {tare : Tare} (hs : s.outbox = []) (record : WeighRecord)
    (hk : v.kind = .delivery) (hu : v.useStored = true) (hl : s.lookup v.ident = .found slot tare)
    (ht : s.ticketRefusal = none) :
    ∃ t, s.completeFirst pos v record = .ok t ∧
      s.Tickets pos v (.stored record tare) (s.tares.looked (s.lookup v.ident)) [] t :=
  ⟨_, by simp [State.completeFirst, hk, hu, hl, ht], State.ticketVisit_tickets hs _ _⟩

theorem State.completeFirst_refused {slot : Nat} {tare : Tare} {code : Status} (record : WeighRecord)
    (hk : v.kind = .delivery) (hu : v.useStored = true) (hl : s.lookup v.ident = .found slot tare)
    (ht : s.ticketRefusal = some code) : s.completeFirst pos v record = .error code := by
  simp [State.completeFirst, hk, hu, hl, ht]

/-- R114: the second weighing of a delivery that learns its tare. -/
theorem State.completeSecond_learns (hs : s.outbox = []) (record : WeighRecord) (hl : v.learn = true)
    (hk : v.kind = .delivery) (ht : s.ticketRefusal = none) :
    ∃ t, s.completeSecond pos v record = .ok t ∧ s.Tickets pos v (.weighed (v.first.getD record) record)
      (s.learnTare (learnedTare v record)).tares (s.learnNews (learnedTare v record)) t :=
  ⟨_, by simp [State.completeSecond, hl, hk, ht], State.ticketVisit_learned hs _ _⟩

theorem State.completeSecond_tickets (hs : s.outbox = []) (record : WeighRecord)
    (hl : v.learn = false ∨ v.kind = .collection) (ht : s.ticketRefusal = none) :
    ∃ t, s.completeSecond pos v record = .ok t ∧ s.Tickets pos v (.weighed (v.first.getD record) record) s.tares [] t := by
  refine ⟨s.ticketVisit pos v (.weighed (v.first.getD record) record), ?_, State.ticketVisit_tickets hs s.tares _⟩
  rcases hl with hl | hk
  · simp [State.completeSecond, hl, ht]
  · simp [State.completeSecond, hk, ht]

theorem State.completeSecond_refused {code : Status} (record : WeighRecord) (ht : s.ticketRefusal = some code) :
    s.completeSecond pos v record = .error code := by
  simp [State.completeSecond, ht]

end

end Sys2Proof.Machine
end

