-- ==== Sys2Proof/Proofs/CaptureEnded.lean ====
section
/-! A capture that a round has ended, in the terms of the state that the round found and the one that its event leaves
(R49, R50, R197). -/

namespace Sys2Proof.Machine

/-! ### The queues -/

/-- With no hold in force no verification run is open (R76). -/
theorem State.run_of_not_held {s : State} (hs : s.settled = true) (hheld : s.held = false) : s.run = none := by
  obtain ⟨hmetrology, -⟩ := State.sourcesJudged_of_settled hs
  simp only [State.held, Holds.inForce, Bool.or_eq_false_iff] at hheld
  obtain ⟨⟨⟨⟨-, -⟩, hclear⟩, -⟩, -⟩ := hheld
  rw [hclear] at hmetrology
  cases hr : s.run with
  | none => rfl
  | some run => simp [hr] at hmetrology

/-- Queues that an outbox has filled have heard any list that fills them alike. -/
theorem State.heard_of_sameQueues {s z : State} {k l : List (Port × Notice)}
    (h : z.ports = ({ s with outbox := k } : State).flush.ports) (hq : sameQueues k l) :
    z.ports = (z.heard s l).ports :=
  h.trans (State.flush_ports_of_sameQueues rfl hq)

/-- The notices of an acceptance have other numbers than those of the tables. -/
theorem acceptance_number (s : State) (cap : Capture) (d : DraftResult) (r : RoundValues) :
    ∀ n ∈ acceptedNews cap d r ++ s.overNews d (overFreeze cap d r), n.2.number ≤ 10 ∨ n.2.number = 26 := by
  intro n hn
  rcases List.mem_append.1 hn with hn | hn
  · rw [List.mem_singleton.1 hn]
    simp [Notice.number]
  · unfold State.overNews at hn
    simp only [] at hn
    split at hn
    · rcases List.mem_append.1 hn with hn | hn
      · rcases List.mem_append.1 hn with hn | hn
        · obtain ⟨p, -, rfl⟩ := List.mem_map.1 hn
          simp [Notice.number]
        · rw [List.mem_singleton.1 hn]
          simp [Notice.number]
      · unfold State.freezeNews at hn
        split at hn
        · obtain ⟨p, -, rfl⟩ := List.mem_map.1 hn
          simp [Notice.number]
        · cases hn
    · cases hn

/-- So those of the tables, which come first, may be told after them. -/
theorem sameQueues_acceptance {s : State} {cap : Capture} {d : DraftResult} {r : RoundValues}
    {tables news exit : List (Port × Notice)} (ht : ofTables tables) (hq : sameQueues tables news) :
    sameQueues (tables ++ (acceptedNews cap d r ++ s.overNews d (overFreeze cap d r) ++ exit))
      (acceptedNews cap d r ++ s.overNews d (overFreeze cap d r) ++ news ++ exit) := by
  have hnumber := acceptance_number s cap d r
  generalize acceptedNews cap d r ++ s.overNews d (overFreeze cap d r) = accepted at hnumber
  rw [← List.append_assoc]
  refine sameQueues.append ?_ (.refl _)
  refine (sameQueues.swap fun n hn m hm => ?_).trans (sameQueues.append (.refl _) hq)
  have htable := ht n hn
  have haccepted := hnumber m hm
  omega

/-! ### The refusal -/

/-- A capture that the round has refused, as the event of the round leaves it. -/
def State.RefusedBy (s : State) (cap : Capture) (r : RoundValues) (code : Status) (news : List (Port × Notice))
    (z : State) : Prop :=
  z.capture = s.capture.afterEnd cap code (some r.index) ∧ z.bridge = s.bridge ∧ z.visits = s.visits ∧
    z.inUse = s.inUse ∧ z.tares = s.tares ∧ z.tickets = s.tickets ∧ z.cal = s.cal ∧ z.evidence = s.evidence ∧
    z.ports = (z.heard s (cap.told code ++ news)).ports

section
variable {s b z : State} {c : Instr} {r : RoundValues} {cap : Capture}

theorem State.Refused.passedOn {code : Status} {news told : List (Port × Notice)}
    (h : s.Refused cap code r.index told b) (hz : b.PassedOn z) (hrun : s.run = none)
    (hq : sameQueues told (cap.told code ++ news)) : s.RefusedBy cap r code news z :=
  ⟨hz.capture.trans h.capture, hz.bridge.trans h.bridge, hz.visits.trans h.visits, hz.inUse.trans h.inUse,
    hz.tares.trans h.tares, hz.tickets.trans h.tickets, hz.cal.trans h.cal, hz.evidence.trans h.evidence,
    State.heard_of_sameQueues ((hz.ports (h.run.trans hrun)).trans h.ports) hq⟩

/-- A refusal that tells its outcome alone. -/
theorem State.Refused.passedOn_alone {code : Status} (h : s.Refused cap code r.index (cap.told code) b)
    (hz : b.PassedOn z) (hrun : s.run = none) : s.RefusedBy cap r code [] z :=
  h.passedOn hz hrun (by rw [List.append_nil]; exact .refl _)

/-- R94, R105: REPOSITION and the freeze may be told after the outcome. -/
theorem sameQueues_straddle (s : State) (cap : Capture) (record : FreezeRecord) (first last groups : Nat)
    (decks : List Nat) :
    sameQueues (s.freezeNews record ++ (.lane, .reposition cap.ident first last groups decks) :: cap.told .straddle)
      (cap.told .straddle ++ (.lane, .reposition cap.ident first last groups decks) :: s.freezeNews record) := by
  have hfreeze : ∀ n ∈ s.freezeNews record, n.2.number = 10 := by
    unfold State.freezeNews
    split
    · intro n hn
      obtain ⟨p, -, rfl⟩ := List.mem_map.1 hn
      rfl
    · intro n hn
      cases hn
  refine (sameQueues.swap (l := (.lane, .reposition cap.ident first last groups decks) :: cap.told .straddle)
    fun n hn m hm => ?_).trans ?_
  · rw [hfreeze n hn]
    rcases List.mem_cons.1 hm with rfl | hm
    · simp [Notice.number]
    · rw [List.mem_singleton.1 hm]
      simp [Notice.number]
  · have hswap : sameQueues ([(Port.lane, Notice.reposition cap.ident first last groups decks)] ++ cap.told .straddle)
        (cap.told .straddle ++ [(Port.lane, Notice.reposition cap.ident first last groups decks)]) := by
      refine sameQueues.swap fun n hn m hm => ?_
      rw [List.mem_singleton.1 hn, List.mem_singleton.1 hm]
      simp [Notice.number]
    exact (hswap.append (.refl (s.freezeNews record))).trans (by rw [List.append_assoc]; exact .refl _)

/-! ### The acceptance -/

section
variable {t : State} {d : DraftResult}

theorem State.Evidenced.passedOn (h : s.Evidenced c cap d r b) (hz : b.PassedOn z) : s.Evidenced c cap d r z := by
  unfold State.Evidenced
  rw [hz.evidence, hz.cal, hz.axles]
  exact h

/-- R100: an accepted draft that does not complete the weighing, as the event of the round leaves it. -/
def State.KeptBy (s : State) (c : Instr) (cap : Capture) (d : DraftResult) (r : RoundValues) (pos : Nat) (v : Visit)
    (z : State) : Prop :=
  z.capture = s.capture.afterEnd cap .accepted (some r.index) ∧
    z.visits = Table.set s.visits pos { v with draft := d.draft } ∧ z.inUse = s.inUse ∧
    z.bridge.state = .occupied ∧ z.bridge.grant = s.bridge.grant ∧ z.bridge.advance = true ∧
    z.bridge.withheld = (s.bridge.withheld || (d.anyOver && s.site.settings.holdExit)) ∧
    z.tares = s.tares ∧ z.tickets = s.tickets ∧ s.Evidenced c cap d r z ∧
    z.cal = { s.cal with snapshotNext := z.cal.snapshotNext } ∧
    z.ports = (z.heard s (acceptedNews cap d r ++ s.overNews d (overFreeze cap d r))).ports

/-- R50, R69: one that completes the weighing, with what the tables and the Ticket Unit tell. -/
def State.CompletedBy (s : State) (c : Instr) (cap : Capture) (d : DraftResult) (r : RoundValues)
    (news : List (Port × Notice)) (z : State) : Prop :=
  z.capture.waiting = none ∧ z.capture.arm = false ∧
    z.capture.lastOutcome = some (cap.ended .accepted (some r.index)) ∧
    z.bridge.grant = s.bridge.grant ∧ z.bridge.advance = false ∧
    z.bridge.withheld = (s.bridge.withheld || (d.anyOver && s.site.settings.holdExit)) ∧
    z.bridge.state = (if z.bridge.withheld = true then .occupied else .released) ∧ s.Evidenced c cap d r z ∧
    z.ports = (z.heard s (acceptedNews cap d r ++ s.overNews d (overFreeze cap d r) ++ news ++
      (if z.bridge.withheld = true then notesTo [.gatehouse, .lane] (.exitWithheld cap.ident) else []))).ports

/-- R113: and becomes the first weighing. -/
def State.AwaitsBy (s : State) (c : Instr) (cap : Capture) (d : DraftResult) (r : RoundValues) (pos : Nat) (v : Visit)
    (record : WeighRecord) (tares : Tares) (news : List (Port × Notice)) (z : State) : Prop :=
  (s.CompletedBy c cap d r ((.gatehouse, .firstWeighed v.ident v.kind record.weight record.source record.combination
      record.drafts) :: news) z ∧
    z.visits = Table.set s.visits pos { v with state := .awaitingSecond, first := some record, draft := .empty, age := 0 } ∧
    z.inUse = s.inUse ∧ z.tickets = s.tickets ∧ z.cal = { s.cal with snapshotNext := z.cal.snapshotNext }) ∧
  z.tares = tares

/-- R114, R127: and completes the ticket. -/
def State.TicketedBy (s : State) (c : Instr) (cap : Capture) (d : DraftResult) (r : RoundValues) (pos : Nat) (v : Visit)
    (h : TicketHandoff) (tares : Tares) (news : List (Port × Notice)) (z : State) : Prop :=
  (s.CompletedBy c cap d r (s.issueNews (ticketOf s.nextKey v h) ++ news) z ∧
    z.visits = Table.erase s.visits pos ∧ z.inUse = none ∧
    z.tickets = { ring := s.tickets.ring ++ [ticketOf s.nextKey v h]
                  shift := s.tickets.shift.take (ticketOf s.nextKey v h), last := s.tickets.last } ∧
    z.cal = { (s.issueTicket v h).cal with snapshotNext := z.cal.snapshotNext }) ∧
  z.tares = tares

theorem State.Accepted.keptBy {pos : Nat} {v : Visit}
    (h : s.Accepted c cap d r { s with visits := Table.set s.visits pos { v with draft := d.draft } } b)
    (hz : b.PassedOn z) (hs : s.outbox = []) (hrun : s.run = none) (hd : d.content = none) :
    s.KeptBy c cap d r pos v z := by
  have hpartial : d.content.isSome = false := by rw [hd]; rfl
  refine ⟨hz.capture.trans (h.capture hd), hz.visits.trans h.visits, hz.inUse.trans h.inUse, ?_, ?_, ?_, ?_,
    hz.tares.trans h.tares, hz.tickets.trans h.tickets, h.evidenced.passedOn hz, ?_, ?_⟩
  · rw [hz.bridge, h.state, hpartial]
    rfl
  · rw [hz.bridge, h.grant]
  · rw [hz.bridge, h.advance, hpartial]
    rfl
  · rw [hz.bridge, h.withheld]
  · rw [hz.cal, ← h.cal]
  · refine State.heard_of_sameQueues ((hz.ports (h.run.trans hrun)).trans h.ports) ?_
    rw [hpartial, show ({ s with visits := Table.set s.visits pos { v with draft := d.draft } } : State).outbox = [] from hs]
    simp only [Bool.false_and, Bool.false_eq_true, if_false, List.append_nil, List.nil_append]
    exact .refl _

section
variable {w : WeighContent} {news : List (Port × Notice)}

theorem State.Accepted.completedBy (h : s.Accepted c cap d r t b) (hz : b.PassedOn z) (hrun : s.run = none)
    (hd : d.content = some w) (ht : ofTables t.outbox) (hq : sameQueues t.outbox news) :
    s.CompletedBy c cap d r news z := by
  have hcomplete : d.content.isSome = true := by rw [hd]; rfl
  refine ⟨?_, ?_, ?_, ?_, ?_, ?_, ?_, h.evidenced.passedOn hz, ?_⟩
  · rw [hz.capture, h.waiting]
  · rw [hz.capture, h.arm]
  · rw [hz.capture, h.lastOutcome]
  · rw [hz.bridge, h.grant]
  · rw [hz.bridge, h.advance, hcomplete]
    rfl
  · rw [hz.bridge, h.withheld]
  · rw [hz.bridge, h.state, hcomplete]
    cases b.bridge.withheld <;> rfl
  · refine State.heard_of_sameQueues ((hz.ports (h.run.trans hrun)).trans h.ports) ?_
    rw [hz.bridge, hcomplete, Bool.true_and]
    exact sameQueues_acceptance ht hq

variable {pos : Nat} {v : Visit} {tares : Tares}

theorem State.Accepted.awaitsBy {record : WeighRecord} (h : s.Accepted c cap d r t b) (hz : b.PassedOn z)
    (hrun : s.run = none) (hd : d.content = some w) (ht : s.Awaits pos v record tares news t) :
    s.AwaitsBy c cap d r pos v record tares news z :=
  ⟨⟨h.completedBy hz hrun hd ht.tables ht.outbox, (hz.visits.trans h.visits).trans ht.visits,
    (hz.inUse.trans h.inUse).trans ht.inUse, (hz.tickets.trans h.tickets).trans ht.tickets,
    by rw [hz.cal, ← ht.cal, ← h.cal]⟩, (hz.tares.trans h.tares).trans ht.tares⟩

theorem State.Accepted.ticketedBy {k : TicketHandoff} (h : s.Accepted c cap d r t b) (hz : b.PassedOn z)
    (hrun : s.run = none) (hd : d.content = some w) (ht : s.Tickets pos v k tares news t) :
    s.TicketedBy c cap d r pos v k tares news z :=
  ⟨⟨h.completedBy hz hrun hd ht.tables ht.outbox, (hz.visits.trans h.visits).trans ht.visits,
    (hz.inUse.trans h.inUse).trans ht.inUse, (hz.tickets.trans h.tickets).trans ht.tickets,
    by rw [hz.cal, ← ht.cal, ← h.cal]⟩, (hz.tares.trans h.tares).trans ht.tares⟩

end

end

end

end Sys2Proof.Machine
end

