-- ==== Sys2Proof/Proofs/RoundHandsOff.lean ====
section
/-! What a round brings to a WAITING capture over an OCCUPIED bridge (R49, R50, R54, R100, R113, R114, R127). -/

namespace Sys2Proof.Machine

/-- A round completes the wait of a capture, the vehicle still there, as the blocks take it in one state and the event
leaves another. -/
structure State.Completing (s : State) (c : Instr) (r : RoundValues) (cap : Capture) (u z : State) : Prop where
  before : s.Before c r u
  settled : s.settled = true
  note : s.commitNote = none
  occupied : s.bridge.state = .occupied
  waiting : s.capture.waiting = some cap
  completes : s.completesWait r cap.restart = true
  stays : s.seesLeft r = false
  passed : (u.blocksTakeRound r).PassedOn z
  run : s.run = none

section
variable {s u z : State} {c : Instr} {r : RoundValues} {cap : Capture} (h : s.Completing c r cap u z)
include h

theorem State.Completing.refusedBy {code : Status}
    (hr : ∀ y, s.Faces c r y → y.completeCapture cap r = y.endCapture cap code (some r.index) none) :
    s.RefusedBy cap r code [] z :=
  (h.before.refusedWith h.settled h.note h.occupied h.waiting h.completes h.stays hr).passedOn_alone h.passed h.run

/-- R49: trade is barred. -/
theorem State.Completing.barred (hn : s.notForTrade = true) : s.RefusedBy cap r .notForTrade [] z := by
  refine h.refusedBy fun y hy => ?_
  rw [State.completeCapture, hy.notForTrade, if_pos hn]

/-- R49: the round is out of range. -/
theorem State.Completing.outOfRange (hn : ¬s.notForTrade = true) (hrange : r.range ≠ .normal) :
    s.RefusedBy cap r .range [] z := by
  refine h.refusedBy fun y hy => ?_
  rw [State.completeCapture, hy.notForTrade, if_neg hn, if_pos hrange]

end

/-- Such a round hands the draft of the stop over for a visit in progress. -/
structure State.HandsOff (s : State) (c : Instr) (r : RoundValues) (cap : Capture) (pos : Nat) (v : Visit)
    (u z : State) : Prop extends s.Completing c r cap u z where
  trades : ¬s.notForTrade = true
  normal : r.range = .normal
  inUse : s.inUse = some pos
  visit : Table.get? s.visits pos = some v
  progress : v.inProgress = true

/-- R127: a weighing that the Ticket Unit completes, or refuses. -/
def State.TicketOr (s : State) (cap : Capture) (r : RoundValues) (z : State) (ticketed : Prop) : Prop :=
  (64 ≤ s.tickets.ring.length → s.RefusedBy cap r .ticketStoreFull [] z) ∧
    (s.tickets.ring.length < 64 → s.cal.exhausted = true → s.RefusedBy cap r .sequenceExhausted [] z) ∧
    (s.tickets.ring.length < 64 → s.cal.exhausted = false → ticketed)

section
variable {s u z t : State} {c : Instr} {r : RoundValues} {cap : Capture} {pos : Nat} {v : Visit} {d : DraftResult}
  (h : s.HandsOff c r cap pos v u z)
include h

theorem State.HandsOff.empty : s.outbox = [] := (s.settled_iff.1 h.settled).1

/-- The capture ends as the stop resolves. -/
theorem State.HandsOff.resolves {y : State} (hy : s.Faces c r y) {result : Resolution}
    (hd : resolveDraft (s.configOf v) ((s.judgedOn r).handoff v r) = result) :
    y.completeCapture cap r = y.handOff cap r pos v ∧ resolveDraft (y.configOf v) (y.handoff v r) = result := by
  refine ⟨hy.completeCapture h.trades h.normal h.inUse h.visit h.progress, ?_⟩
  rw [hy.configOf, hy.handoff, hd]

theorem State.HandsOff.refusedDraft {code : Status}
    (hd : resolveDraft (s.configOf v) ((s.judgedOn r).handoff v r) = .refused code) : s.RefusedBy cap r code [] z := by
  refine h.refusedBy fun y hy => ?_
  obtain ⟨hhand, hresolve⟩ := h.resolves hy hd
  rw [hhand, State.handOff, hresolve]

/-- R94. -/
theorem State.HandsOff.straddles {first last groups : Nat} {decks : List Nat}
    (hd : resolveDraft (s.configOf v) ((s.judgedOn r).handoff v r) = .straddle first last groups decks) :
    s.RefusedBy cap r .straddle ((.lane, .reposition cap.ident first last groups decks) ::
        s.freezeNews { reason := .straddle, ident := cap.ident, round := r.index, draft := none }) z ∧
      z.axles.trace.frozen = some (s.axles.trace.frozen.getD
        { reason := .straddle, ident := cap.ident, round := r.index, draft := none }) := by
  obtain ⟨hrefused, hfrozen⟩ := h.before.straddles h.settled h.note h.occupied h.waiting h.completes h.stays
    fun y hy => by
      obtain ⟨hhand, hresolve⟩ := h.resolves hy hd
      rw [hhand, State.handOff, hresolve]
  exact ⟨hrefused.passedOn h.passed h.run (sameQueues_straddle s cap _ first last groups decks),
    by rw [h.passed.axles, hfrozen]⟩

section
variable (hd : resolveDraft (s.configOf v) ((s.judgedOn r).handoff v r) = .result d)
include hd

theorem State.HandsOff.accepts (ht : s.takeDraft pos v d = .ok t) :
    s.Accepted c cap d r t (u.blocksTakeRound r) :=
  h.before.accepts h.settled h.note h.occupied h.waiting h.completes h.stays h.trades h.normal h.inUse h.visit
    h.progress hd ht

theorem State.HandsOff.unticketed {code : Status} (ht : s.takeDraft pos v d = .error code) :
    s.RefusedBy cap r code [] z :=
  (h.before.unticketed h.settled h.note h.occupied h.waiting h.completes h.stays h.trades h.normal h.inUse h.visit
    h.progress hd ht).passedOn_alone h.passed h.run

/-- R100: a draft of several. -/
theorem State.HandsOff.keeps (hw : d.content = none) : s.KeptBy c cap d r pos v z :=
  (h.accepts hd (by simp [State.takeDraft, hw])).keptBy h.passed h.empty h.run hw

/-- The Ticket Unit completes it or refuses it. -/
theorem State.HandsOff.ticketOr {ticketed : Prop}
    (hrefused : ∀ code, s.ticketRefusal = some code → s.takeDraft pos v d = .error code)
    (hticketed : s.ticketRefusal = none → ticketed) : s.TicketOr cap r z ticketed := by
  obtain ⟨hfull, hexhausted, hfree⟩ := s.ticketRefusal_cases
  exact ⟨fun hlen => h.unticketed hd (hrefused _ (hfull hlen)),
    fun hlen he => h.unticketed hd (hrefused _ (hexhausted hlen he)), fun hlen he => hticketed (hfree hlen he)⟩

variable {w : WeighContent} (hw : d.content = some w)
include hw

theorem State.HandsOff.awaits {record : WeighRecord} {tares : Tares} {news : List (Port × Notice)}
    (ht : ∃ t, s.takeDraft pos v d = .ok t ∧ s.Awaits pos v record tares news t) :
    s.AwaitsBy c cap d r pos v record tares news z := by
  obtain ⟨t, htake, hawaits⟩ := ht
  exact (h.accepts hd htake).awaitsBy h.passed h.run hw hawaits

theorem State.HandsOff.tickets {k : TicketHandoff} {tares : Tares} {news : List (Port × Notice)}
    (ht : ∃ t, s.takeDraft pos v d = .ok t ∧ s.Tickets pos v k tares news t) :
    s.TicketedBy c cap d r pos v k tares news z := by
  obtain ⟨t, htake, htickets⟩ := ht
  exact (h.accepts hd htake).ticketedBy h.passed h.run hw htickets

/-- R113: the first weighing of a collection, or of a delivery that uses no stored tare. -/
theorem State.HandsOff.first (hv : v.state = .firstInProgress)
    (hk : (v.kind = .collection ∧ v.learn = false) ∨ (v.kind = .delivery ∧ v.useStored = false)) :
    s.AwaitsBy c cap d r pos v (s.recordOf w) s.tares [] z := by
  refine h.awaits hd hw ?_
  rw [State.takeDraft_first hw hv]
  exact State.completeFirst_awaits h.empty _ hk

theorem State.HandsOff.first_learns (hv : v.state = .firstInProgress) (hk : v.kind = .collection)
    (hl : v.learn = true) :
    s.AwaitsBy c cap d r pos v (s.recordOf w) (s.learnTare (learnedTare v (s.recordOf w))).tares
      (s.learnNews (learnedTare v (s.recordOf w))) z := by
  refine h.awaits hd hw ?_
  rw [State.takeDraft_first hw hv]
  exact State.completeFirst_learns h.empty _ hk hl

/-- R113, R121. -/
theorem State.HandsOff.first_gone {why : TareReason} (hv : v.state = .firstInProgress) (hk : v.kind = .delivery)
    (hu : v.useStored = true) (hl : (s.lookup v.ident = .notHeld ∧ why = .notHeld) ∨
      ((∃ slot, s.lookup v.ident = .expired slot) ∧ why = .expired)) :
    s.AwaitsBy c cap d r pos v (s.recordOf w) (s.tares.looked (s.lookup v.ident))
      (notesTo [.gatehouse, .lane] (.tareGone v.ident (s.recordOf w).weight why)) z := by
  refine h.awaits hd hw ?_
  rw [State.takeDraft_first hw hv]
  exact State.completeFirst_gone h.empty _ hk hu hl

/-- R113, R127: a delivery that uses its stored tare. -/
theorem State.HandsOff.first_stored {slot : Nat} {tare : Tare} (hv : v.state = .firstInProgress)
    (hk : v.kind = .delivery) (hu : v.useStored = true) (hl : s.lookup v.ident = .found slot tare) :
    s.TicketOr cap r z (s.TicketedBy c cap d r pos v (.stored (s.recordOf w) tare)
      (s.tares.looked (s.lookup v.ident)) [] z) := by
  have htake := State.takeDraft_first (s := s) (pos := pos) hw hv
  refine h.ticketOr hd (fun code hcode => ?_) fun hnone => h.tickets hd hw ?_
  · rw [htake, State.completeFirst_refused _ hk hu hl hcode]
  · rw [htake]
    exact State.completeFirst_stored h.empty _ hk hu hl hnone

/-- R114, R127: the second weighing. -/
theorem State.HandsOff.second {before : WeighRecord} (hv : v.state = .secondInProgress) (hf : v.first = some before) :
    s.TicketOr cap r z
      ((v.learn = true → v.kind = .delivery →
          s.TicketedBy c cap d r pos v (.weighed before (s.recordOf w))
            (s.learnTare (learnedTare v (s.recordOf w))).tares (s.learnNews (learnedTare v (s.recordOf w))) z) ∧
        (v.learn = false ∨ v.kind = .collection →
          s.TicketedBy c cap d r pos v (.weighed before (s.recordOf w)) s.tares [] z)) := by
  have htake := State.takeDraft_second (s := s) (pos := pos) hw hv
  have hbefore : v.first.getD (s.recordOf w) = before := by rw [hf]; rfl
  refine h.ticketOr hd (fun code hcode => ?_) fun hnone => ⟨fun hl hk => h.tickets hd hw ?_, fun hl => h.tickets hd hw ?_⟩
  · rw [htake, State.completeSecond_refused _ hcode]
  · rw [htake, ← hbefore]
    exact State.completeSecond_learns h.empty _ hl hk hnone
  · rw [htake, ← hbefore]
    exact State.completeSecond_tickets h.empty _ hl hnone

end

end

end Sys2Proof.Machine
end

