-- ==== Sys2Proof/Proofs/RoundCompletes.lean ====
section
/-! O17: what a round brings to a WAITING capture. -/

namespace Sys2Proof.Machine

section
variable {s u z : State} {c : Instr} {r : RoundValues} {cap : Capture} {pos : Nat} {v : Visit}

/-- R54, R64, R115: the notices of a vehicle that has left with its capture WAITING and its visit in progress. -/
theorem State.goneNews_of_visit (hc : s.capture.waiting = some cap) (huse : s.inUse = some pos)
    (hv : Table.get? s.visits pos = some v) (hp : v.inProgress = true) {t : State}
    (ht : z.bridge.state = t.bridge.state) :
    s.goneNews t = cap.told .noVehicle ++
      notesTo [.gatehouse, .lane] (.leftUnweighed v.ident v.weighing v.draft.used) ++ s.grantNews z := by
  have hvisit : s.visitInUse = some v := by simp [State.visitInUse, huse, hv]
  have hgrant : s.grantNews t = s.grantNews z := by simp only [State.grantNews, ht]
  rw [State.goneNews, hgrant]
  simp [State.refusedNews, State.leftNews, hc, hvisit, hp, Option.filter, Capture.told]

/-- R49, R92, R97: the codes of such a capture that the round refuses. -/
theorem State.leftCode_cases (s : State) (r : RoundValues) (v : Visit) :
    (s.notForTrade = true ∧ s.leftCode r v = .notForTrade) ∨
      (¬s.notForTrade = true ∧ r.range ≠ .normal ∧ s.leftCode r v = .range) ∨
      (¬s.notForTrade = true ∧ r.range = .normal ∧
        s.leftCode r v = leftRefusal (s.configOf v) s.axles.axleCount) := by
  unfold State.leftCode
  by_cases hn : s.notForTrade = true
  · exact .inl ⟨hn, if_pos hn⟩
  · by_cases hr : r.range = .normal
    · exact .inr (.inr ⟨hn, hr, by rw [if_neg hn, if_neg (not_not.2 hr)]⟩)
    · exact .inr (.inl ⟨hn, hr, by rw [if_neg hn, if_pos hr]⟩)

end

/-- Settles O17: the blocks take the round in an order that does not show (log 7), but for a vehicle that has left; the
Capture Unit resolves the stop in one event, and its draft is taken from the tables as the round found them. -/
theorem roundCompletesACapture : Obligations.RoundCompletesACapture := by
  unfold Obligations.RoundCompletesACapture
  intro s c r cap hround ho hheld hc
  obtain ⟨hcalm, -⟩ := State.endsRound_iff.1 hround
  obtain ⟨-, hout, hsettledBridge, hn⟩ := s.calm_iff.1 hcalm
  have hs : s.settled = true := s.settled_iff.2 ⟨hout, hsettledBridge⟩
  have hrun := State.run_of_not_held hs hheld
  obtain ⟨t, u, hexec, hbefore, hweigh, hpassed, hframe⟩ := exec_endsRound_occupied hround ho
  refine ⟨t, hexec, by rw [hweigh, hbefore.weighed.latest], fun hw hl => ?_, fun hw hl => ?_,
    fun pos v hw hl huse hv hp hgroups => ?_, fun hw hl => ?_, hframe⟩
  · obtain ⟨hcapture, hbridge⟩ := hbefore.waitsOn hs hn ho hc hw hl
    exact ⟨hpassed.capture.trans hcapture, hpassed.bridge.trans hbridge⟩
  · obtain ⟨hwaiting, hlast, hleftRun, hports⟩ := hbefore.leaves hs hn ho hc hw hl
    refine ⟨by rw [hpassed.capture, hwaiting], by rw [hpassed.capture, hlast]; rfl, fun pos v huse hv hp => ?_⟩
    refine State.heard_of_sameQueues ((hpassed.ports (hleftRun.trans hrun)).trans hports) ?_
    rw [hout, List.nil_append, State.goneNews_of_visit hc huse hv hp (by rw [hpassed.bridge])]
    exact .refl _
  · obtain ⟨hwaiting, hlast⟩ := hbefore.completesLeft hs hn ho hc hw hl huse hv hp hgroups
    refine ⟨by rw [hpassed.capture, hwaiting], ?_⟩
    simp only [← State.notForTrade_iff, hpassed.capture]
    rcases hlast with hlast | hlast
    · exact .inl hlast
    · rcases s.leftCode_cases r v with ⟨hb, hcode⟩ | ⟨hb, hr, hcode⟩ | ⟨hb, hr, hcode⟩ <;> rw [hcode] at hlast
      · exact .inr (.inl ⟨hb, hlast⟩)
      · exact .inr (.inr (.inl ⟨hb, hr, hlast⟩))
      · exact .inr (.inr (.inr ⟨hb, hr, hlast⟩))
  · have hcompleting : s.Completing c r cap u t := ⟨hbefore, hs, hn, ho, hc, hw, hl, hpassed, hrun⟩
    refine ⟨fun hb => hcompleting.barred (State.notForTrade_iff.2 hb),
      fun hb hr => hcompleting.outOfRange (mt State.notForTrade_iff.1 hb) hr, fun pos v hb hr huse hv hp => ?_⟩
    have h : s.HandsOff c r cap pos v u t := ⟨hcompleting, mt State.notForTrade_iff.1 hb, hr, huse, hv, hp⟩
    refine ⟨fun code hd => h.refusedDraft hd, fun first last groups decks hd => h.straddles hd, fun d hd =>
      ⟨fun hw => h.keeps hd hw, fun w hw => ?_⟩⟩
    exact ⟨fun hv hk hl => h.first hd hw hv (.inl ⟨hk, hl⟩), fun hv hk hl => h.first_learns hd hw hv hk hl,
      fun hv hk hu => h.first hd hw hv (.inr ⟨hk, hu⟩), fun slot tare hv hk hu hl => h.first_stored hd hw hv hk hu hl,
      fun why hv hk hu hl => h.first_gone hd hw hv hk hu hl, fun before hv hf => h.second hd hw hv hf⟩

end Sys2Proof.Machine
end

