-- ==== Sys2Proof/Proofs/BridgeRests.lean ====
section
/-! Every command, and so every step, leaves the bridge settled and no notice kept back (R63, R74 to R76, R183, R197):
what a command makes is an event, which ends settled, or a change of nothing that the settling is about. -/

namespace Sys2Proof.Machine

/-! ### States at rest -/

/-- Where control is with the blocks the state is settled, with no commit to note. -/
def State.atRest (s : State) : Prop := s.running = true → s.settled = true ∧ s.commitNote = none

/-- What leads from a state at rest to one at rest. -/
def KeepsRest (s t : State) : Prop := s.atRest → t.atRest

theorem KeepsRest.refl (s : State) : KeepsRest s s := id

theorem KeepsRest.trans {s t u : State} (h : KeepsRest s t) (k : KeepsRest t u) : KeepsRest s u := k ∘ h

theorem KeepsRest.ite {c : Prop} [Decidable c] {s t u : State} (ht : KeepsRest s t) (hu : KeepsRest s u) :
    KeepsRest s (if c then t else u) := by
  split
  · exact ht
  · exact hu

/-- R63, R74 to R76, R183, R197: an event ends at rest, whatever its rule made. -/
theorem event_atRest (s t : State) : (event s t).atRest := fun _ => ⟨event_settled s t, event_commitNote s t⟩

theorem KeepsRest.event (s t : State) : KeepsRest s (event s t) := fun _ => event_atRest s t

/-- While a start stands there is nothing to keep (R206). -/
theorem KeepsRest.of_starting {s t : State} (h : t.running = false) : KeepsRest s t :=
  fun _ hr => absurd hr (by simp [h])

/-- A change of nothing that the settling is about. -/
theorem KeepsRest.of_same {s t : State} (hphase : t.phase = s.phase) (hb : t.bridgeSettled = s.bridgeSettled)
    (ho : t.outbox = s.outbox) (hn : t.commitNote = s.commitNote) : KeepsRest s t := by
  unfold KeepsRest State.atRest State.running State.settled
  rw [hphase, hb, ho, hn]
  exact id

/-- A change of the ports alone: receivers and replies settle and unsettle nothing. -/
theorem KeepsRest.of_ports {s t : State} (h : t = { s with ports := t.ports }) : KeepsRest s t := by
  rw [h]
  exact .of_same rfl rfl rfl rfl

theorem State.setPort_keepsRest (s : State) (p : Port) (q : PortState) : KeepsRest s (s.setPort p q) := by
  cases p <;> exact .of_ports rfl

theorem State.hunt_keepsRest (s : State) (p : Port) : KeepsRest s (s.hunt p) := s.setPort_keepsRest p _

theorem State.putReply_keepsRest (s : State) (p : Port) (kind : Nat) (tag : Octet) (st : Status) (c : Content) :
    KeepsRest s (s.putReply p kind tag st c) := s.setPort_keepsRest p _

/-- A state at rest with its notices delivered, or some posted and delivered at once. -/
theorem State.flush_keepsRest {s t : State} (hphase : t.phase = s.phase) (hb : t.bridgeSettled = s.bridgeSettled)
    (hn : t.commitNote = s.commitNote) : KeepsRest s t.flush := by
  intro hs hr
  obtain ⟨hsettled, hnote⟩ := hs (by rw [← hr]; simp [State.running, hphase])
  have hbridge : t.flush.bridgeSettled = t.bridgeSettled := rfl
  exact ⟨t.flush.settled_iff.2 ⟨rfl, by rw [hbridge, hb]; exact (s.settled_iff.1 hsettled).2⟩, hn.trans hnote⟩

/-! ### Rounds (R1, R9, R32) -/

theorem State.blocksTakeRound_keepsRest (s : State) (r : RoundValues) : KeepsRest s (s.blocksTakeRound r) := by
  have htakers : ∀ (l : List RoundTaker) (u : State), KeepsRest u (l.foldl (State.takeAs r) u) := by
    intro l
    induction l with
    | nil => exact KeepsRest.refl
    | cons k rest ih =>
      intro u
      have hk : KeepsRest u (State.takeAs r u k) := by cases k <;> exact .event _ _
      exact hk.trans (ih _)
  have hchoice : KeepsRest s { s with choices := s.choices + 1 } := .of_same rfl rfl rfl rfl
  exact .ite (hchoice.trans (htakers _ _)) (htakers _ s)

/-- A round that ends: the last event of its chain settles. -/
theorem State.roundDone_keepsRest (s : State) : KeepsRest s s.roundDone := by
  have hissue : ∀ u : State, KeepsRest u u.issueRound := by
    intro u
    unfold State.issueRound
    split
    · exact .refl u
    · exact fun _ => event_atRest _ _
  exact (KeepsRest.event s _).trans (hissue _)

theorem State.startRound_keepsRest (s : State) : KeepsRest s s.startRound :=
  .ite ((KeepsRest.event s _).trans (State.roundDone_keepsRest _)) (.event s _)

theorem State.pollEnds_keepsRest (s : State) (i : Nat) (reply : Option CellReply) : KeepsRest s (s.pollEnds i reply) := by
  have hends : ∀ u : State, KeepsRest u u.roundEnds := fun u =>
    .ite (u.roundDone_keepsRest.trans (State.startRound_keepsRest _)) u.roundDone_keepsRest
  have hnext : ∀ u : State, KeepsRest u { u with bus := u.bus.sendNext } := fun _ => .of_same rfl rfl rfl rfl
  exact (KeepsRest.event s _).trans (.ite (hends _) (hnext _))

theorem State.answer_keepsRest (s : State) (octets : List Octet) : KeepsRest s (s.answer octets) := by
  unfold State.answer
  split
  · split
    · exact s.pollEnds_keepsRest _ _
    · exact .of_same rfl rfl rfl rfl
  · exact .refl s

theorem State.windowCloses_keepsRest (s : State) : KeepsRest s s.windowCloses := by
  unfold State.windowCloses
  split
  · exact s.pollEnds_keepsRest _ _
  · exact .refl s

theorem State.pollSent_keepsRest (s : State) : KeepsRest s s.pollSent := by
  unfold State.pollSent
  split
  · exact .of_same rfl rfl rfl rfl
  · exact .refl s

theorem State.periodExpires_keepsRest (s : State) : KeepsRest s s.periodExpires := by
  have hstopped : KeepsRest s { s with bus.periodTimer := false } := .of_same rfl rfl rfl rfl
  unfold State.periodExpires
  split
  · exact .refl s
  · exact .ite (.event s _) (hstopped.trans (State.startRound_keepsRest _))

/-! ### Supply, starts and retained writes -/

theorem State.returns_keepsRest (s : State) : KeepsRest s s.returns :=
  (KeepsRest.event s _).trans (State.startRound_keepsRest _)

/-- R208: the round with which a start ends is an event, or a chain of events. -/
theorem State.startRound_atRest (s : State) : s.startRound.atRest := by
  unfold State.startRound
  simp only []
  split
  · exact State.roundDone_keepsRest _ (event_atRest _ _)
  · exact event_atRest _ _

theorem State.startSequence_keepsRest (s : State) (cause : StartCause) (lost : LostRegions) :
    KeepsRest s (s.startSequence cause lost) := fun _ => State.startRound_atRest _

theorem State.replySent_keepsRest (s : State) (p : Port) : KeepsRest s (s.replySent p) := by
  unfold State.replySent
  split
  · exact .refl s
  · exact .ite (.of_starting rfl) (s.setPort_keepsRest p _)

theorem State.writeCompletes_keepsRest (s : State) : KeepsRest s s.writeCompletes := by
  unfold State.writeCompletes
  split
  · exact .ite (.of_same rfl rfl rfl rfl) (.refl s)
  · exact .refl s

theorem State.commitCompletes_keepsRest (s : State) : KeepsRest s s.commitCompletes := by
  unfold State.commitCompletes
  split
  · split
    · exact State.flush_keepsRest rfl rfl rfl
    · exact .refl s
  · exact .refl s

/-! ### Requests -/

theorem act_keepsRest {f : State → State} {s t : State} (hf : ∀ s, KeepsRest s (f s)) (h : act f s = .next t) :
    KeepsRest s t := by
  cases h
  exact .ite (hf s) (.refl s)

theorem act_event_keepsRest {f : State → State} {s t : State} (h : act (fun s => event s (f s)) s = .next t) :
    KeepsRest s t := act_keepsRest (fun s => KeepsRest.event s (f s)) h

/-- R194: a request that is carried out is an event; a frame that is not taken and a refusal change its port alone. -/
theorem request_keepsRest {kind : Nat} {p : Port} {tag : Octet} {payload : List Octet} {rule : State → Taken}
    {s t : State} (h : request kind p tag payload rule s = .next t) : KeepsRest s t := by
  refine act_keepsRest (fun s => ?_) h
  refine (s.hunt_keepsRest p).trans ?_
  unfold serve
  simp only []
  split
  · exact .refl _
  · exact State.putReply_keepsRest _ _ _ _ _ _
  · split
    · exact State.putReply_keepsRest _ _ _ _ _ _
    · exact (KeepsRest.event _ _).trans (State.putReply_keepsRest _ _ _ _ _ _)

theorem readRequest_keepsRest {kind : Nat} {p : Port} {tag : Octet} {payload : List Octet}
    {rule : State → Except Status Content} {s t : State} (h : readRequest kind p tag payload rule s = .next t) :
    KeepsRest s t := by
  cases h
  refine .ite ((s.hunt_keepsRest p).trans ?_) (.refl s)
  unfold serveRead
  simp only []
  split
  · exact .refl _
  · exact State.putReply_keepsRest _ _ _ _ _ _
  · split <;> exact State.putReply_keepsRest _ _ _ _ _ _

/-- R194: a frame of any kind is a request that its rule carries out or refuses, or one that only reads. -/
theorem routeFrame_keepsRest {p : Port} {kind : Nat} {tag : Octet} {payload : List Octet} {s t : State}
    (h : routeFrame p kind tag payload s = .next t) : KeepsRest s t := by
  unfold routeFrame at h
  split at h
  all_goals first
    | exact readRequest_keepsRest h
    | exact request_keepsRest h

theorem execOctetReceived_keepsRest {p : Port} {o : Octet} {s t : State} (h : execOctetReceived p o s = .next t) :
    KeepsRest s t := by
  unfold execOctetReceived at h
  split at h
  · split at h
    · cases h
      exact s.setPort_keepsRest p _
    · exact routeFrame_keepsRest h
  · cases h
    exact .refl s

/-! ### Commands -/

theorem keepsRest_of_next {s t u : State} (h : (Host.Outcome.next u : Host.Outcome State Fault Refusal) = .next t)
    (k : KeepsRest s u) : KeepsRest s t := by
  cases h
  exact k

/-- A line that is taken as an event, and during a start changes its level alone. -/
theorem keepsRest_of_line {s u v : State} (h : v.phase = s.phase) :
    KeepsRest s (if s.running then event s u else v) := by
  split
  · exact .event s u
  · next hr => exact .of_starting (by simpa [State.running, h] using hr)

theorem exec_keepsRest {c : Instr} {s t : State} (h : exec c s = .next t) : KeepsRest s t := by
  cases hf : frameOf c with
  | some f =>
    rw [← routeFrame_eq_exec s hf] at h
    exact routeFrame_keepsRest h
  | none =>
    cases c with
    | cellAnswer a => exact act_keepsRest (fun s => s.answer_keepsRest a) h
    | replyWindowClose => exact act_keepsRest State.windowCloses_keepsRest h
    | roundPeriodExpiry => exact act_keepsRest State.periodExpires_keepsRest h
    | treadleEvent e dir => exact act_event_keepsRest (f := fun s => s.restartPoint.treadle e dir) h
    | lampFeedbackChange e lit => exact keepsRest_of_next h (keepsRest_of_line (by simp))
    | feedbackTimerExpiry e => exact act_event_keepsRest (f := fun s => s.feedbackExpires e) h
    | calibrationSwitchChange on => exact keepsRest_of_next h (keepsRest_of_line rfl)
    | supplyFall => exact keepsRest_of_next h (.ite (.refl s) (keepsRest_of_line rfl))
    | supplyReturn =>
      refine keepsRest_of_next h (.ite (.refl s) ?_)
      split
      · exact s.returns_keepsRest
      · next hr => exact .of_starting (by simpa [State.running] using hr)
    | dipTimerExpiry =>
      refine keepsRest_of_next h (.ite (.of_starting ?_) (.refl s))
      simp [State.running, State.beginStart]
    | powerOn => exact keepsRest_of_next h (.of_starting rfl)
    | resetLine => exact keepsRest_of_next h (.of_starting rfl)
    | startSequence lost =>
      cases h
      split
      · exact .refl s
      · exact .ite (s.startSequence_keepsRest _ lost) (.refl s)
    | captureTimeout => exact act_event_keepsRest (f := fun s => s.refuseWaiting .captureTimeout none) h
    | grantTimerExpiry => exact act_event_keepsRest (f := State.grantExpires) h
    | quietTimerExpiry => exact act_event_keepsRest (f := State.quietExpires) h
    | trackingTimerExpiry => exact act_event_keepsRest (f := State.trackZero) h
    | testPointTimeout => exact act_event_keepsRest (f := fun s => s.endPoint .captureTimeout) h
    | poweredSecond => exact act_event_keepsRest (f := State.second) h
    | visitTimeout position => exact act_event_keepsRest (f := fun s => s.timeoutVisit position) h
    | frameGapTimeout p => exact act_keepsRest (fun s => s.hunt_keepsRest p) h
    | badFrame p => exact act_keepsRest (fun s => s.hunt_keepsRest p) h
    | unknownKind p kind tag payload => exact routeFrame_keepsRest h
    | replySent p => exact act_keepsRest (fun s => s.replySent_keepsRest p) h
    | retainedWriteComplete => exact keepsRest_of_next h s.writeCompletes_keepsRest
    | commitWriteComplete => exact keepsRest_of_next h s.commitCompletes_keepsRest
    | pollSent => exact act_keepsRest State.pollSent_keepsRest h
    | octetReceived p o => exact execOctetReceived_keepsRest h
    | _ => cases hf

/-- Settles O56: each command is a chain of events, or changes nothing that the settling is about, or begins a start. -/
theorem everyStepLeavesTheBridgeSettled : Obligations.EveryStepLeavesTheBridgeSettled := by
  intro s t hs h
  unfold step at h
  split at h
  · cases h
    exact hs
  · rename_i c rest _
    have hq : KeepsRest s { s with pending := rest } := .of_same rfl rfl rfl rfl
    exact hq.trans (exec_keepsRest h) hs

end Sys2Proof.Machine
end

