-- ==== Sys2Proof/Proofs/LampFeedback.lean ====
section
/-! The expiry of a feedback timer over a register that keeps another class's entry at the place of LAMP_FEEDBACK (R75,
R183). -/

namespace Sys2Proof.Machine

theorem exec_feedbackTimerExpiry {s : State} (h : s.running = true) (e : BridgeEnd) :
    exec (.feedbackTimerExpiry e) s = .next (event s (s.feedbackExpires e)) := by
  simp [exec, execFeedbackTimerExpiry, act, h]

/-- A state with dark lamps whose register holds, at the place of LAMP_FEEDBACK of end A, an unacknowledged entry of the
class TREADLE_DISAGREE, which has the policy HOLD and so sets the FAULT source; an arrival waits at the FREE bridge. No
sequence of commands leads to it; `State.calm` does not exclude it. -/
def misfiledLamp : State :=
  { State.reset with
    phase := .running
    bridge := { Bridge.reset with
      state := .free, feedbackA := true, feedbackB := true, holds := { Bridge.reset.holds with fault := true }
      waiting := [{ ident := [0x41#8], entryEnd := .a, arrival := 1, cls := 0, passes := 0 }] }
    faults.register := [((lampKey .a).place,
      { key := treadleKey .a, present := false, outstanding := true, count := 1, raisedAt := none })]
    site.policies.treadleDisagree := .hold
    site.policies.lampFeedback := .continue_ }

theorem misfiledLamp_calm : misfiledLamp.calm = true := by
  decide +kernel

/-- The raise takes the place of the misfiled entry, so the FAULT source clears and the arrival is granted: the Lane Port
hears of the grant too. -/
theorem misfiledLamp_lane :
    (event misfiledLamp (misfiledLamp.feedbackExpires .a)).ports.lane.notices.length = 2 := by
  decide +kernel

/-- Refutes O28: under the policy CONTINUE the expiry queues FAULT_RAISED alone only where it leaves the hold set. A calm
state whose register holds, at the place of LAMP_FEEDBACK, an entry of another class that alone sets the FAULT source
loses that source with the raise, and a waiting arrival is granted in the same event, with its own notice. -/
theorem not_lampFeedbackFollowsTheAspect : ¬ Obligations.LampFeedbackFollowsTheAspect := by
  unfold Obligations.LampFeedbackFollowsTheAspect
  intro h
  obtain ⟨-, -, -, -, -, hexpiry⟩ := h misfiledLamp .a misfiledLamp_calm
  obtain ⟨t, ht, -, -, -, hcontinue, -⟩ := hexpiry rfl (by decide)
  rw [exec_feedbackTimerExpiry (by decide), Host.Outcome.next.injEq] at ht
  obtain ⟨-, hports⟩ := hcontinue rfl
  have hlane := congrArg (fun ps => ps.lane.notices.length) hports
  have hone : (t.heard misfiledLamp (notesTo [.gatehouse, .lane, .metrology]
      (.faultRaised (lampKey .a) false .continue_ .none_ misfiledLamp.site.clock none))).ports.lane.notices.length = 1 :=
    rfl
  rw [← ht] at hlane hone
  rw [misfiledLamp_lane, hone] at hlane
  exact absurd hlane (by decide)

end Sys2Proof.Machine
end

