-- ==== Sys2Proof/Proofs/ClearedSources.lean ====
section
/-! Events and requests that set no hold source, field by field: they bring a grant or nothing (R63, R64, R76 to R78,
R183). -/

namespace Sys2Proof.Machine

/-! ### Sources that are not set -/

/-- Over a settled state, what neither writes the hold set nor gives METROLOGY or FAULT a cause sets no source. -/
theorem State.within_of_settled {s u : State} (hs : s.settled = true) (hh : u.bridge.holds = s.bridge.holds)
    (ha : u.accessOpen = true → s.accessOpen = true) (hr : u.run.isSome = s.run.isSome)
    (hf : u.faultJudged = true → s.faultJudged = true) : u.judgeSources.bridge.holds.within s.bridge.holds := by
  obtain ⟨hmet, hfault⟩ := State.sourcesJudged_of_settled hs
  rw [State.judgeSources_holds, hh]
  refine ⟨id, id, fun hm => ?_, fun hj => hfault.trans (hf hj), id⟩
  simp only [Bool.or_eq_true, hr] at hm
  rw [hmet]
  simp only [Bool.or_eq_true]
  rcases hm with (hm | hm) | hm
  · exact .inl (.inl (ha hm))
  · exact .inl (.inr hm)
  · exact .inr hm

/-! ### What such an event leaves -/

/-- The end of an event leaves what its rule made but for what a grant, the signals and the register bring, where it ends
no capture and no waiting point. -/
theorem event_eq {s u : State} (hc : (event s u).capture = u.capture) (hr : (event s u).run = u.run) :
    event s u = { u with bridge := (event s u).bridge, axles := (event s u).axles, visits := (event s u).visits
                         inUse := (event s u).inUse, faults := (event s u).faults, ports := (event s u).ports
                         writes := (event s u).writes, outbox := [], commitNote := none } := by
  refine State.eq_iff_fields.2 ?_
  simp [hc, hr]

/-- The notices of such an event are its rule's own and those of the grant that it brings. -/
theorem State.settle_outbox_within {s u t : State} (h : u.judgeSources.bridge.holds.within s.bridge.holds)
    (hstate : u.bridge.state = s.bridge.state) (hwaiting : u.bridge.waiting = s.bridge.waiting)
    (ht : t.bridge = (u.settle s.bridge.holds).bridge) :
    (u.settle s.bridge.holds).outbox = u.outbox ++ s.grantNews t := by
  rw [(State.settle_within h).grants.outbox_eq]
  simp only [State.grantNews, ht, hstate, hwaiting]

/-- The queues after an event: the notices that its settling leaves, delivered. -/
theorem event_heard {s u t : State} {ns : List (Port × Notice)} (ht : event s u = t) (hp : u.ports = s.ports)
    (hbox : (u.settle s.bridge.holds).outbox = ns) : t.ports = (t.heard s ns).ports := by
  have hports := (event_settle s u).2.2.2.2.2.2.2
  rw [ht] at hports
  rw [hports]
  exact State.flush_ports_congr (by simpa using hp) hbox

/-- R183: the FAULT source after an event is as it is judged. -/
theorem event_faultJudged (s u : State) : (event s u).bridge.holds.fault = (event s u).faultJudged :=
  ((event s u).bridgeSettled_iff.1 (event_bridgeSettled s u)).2.1

/-- A settling may end a waiting point; the run stays ACTIVE (R168). -/
theorem State.settle_run_isSome (s : State) (before : Holds) : (s.settle before).run.isSome = s.run.isSome := by
  have hpass : ∀ (u : State) (b : Holds), (u.settlePass b).run.isSome = u.run.isSome := by
    intro u b
    have hpoint := (u.judgeSources.followHold b).followPointSources_run b
    simp only [State.settlePass, State.recommand_frame, State.grantIfDue_frame, hpoint]
    simp
  unfold State.settle
  simp only []
  split
  · exact hpass s before
  · rw [hpass, hpass s before]

/-- R76: the METROLOGY source after an event, by the causes that its rule left. -/
theorem event_metrology (s u : State) :
    (event s u).bridge.holds.metrology = (u.accessOpen || u.run.isSome || u.bridge.holds.manual) := by
  obtain ⟨hmet, -⟩ := (event s u).bridgeSettled_iff.1 (event_bridgeSettled s u)
  obtain ⟨hbridge, -, -, -, -, hrun, -⟩ := event_settle s u
  have hmanual : (event s u).bridge.holds.manual = u.bridge.holds.manual := by
    rw [hbridge, State.settle_holds]
  have haccess : (event s u).accessOpen = u.accessOpen := by simp [State.accessOpen]
  rw [hmet, haccess, hmanual, hrun, State.settle_run_isSome]

/-! ### Requests -/

section
variable {s u : State} {p : Port} {kind : Nat} {tag : Octet} {payload : List Octet} {st : Status} {c : Content}
  {rule : State → Taken}

/-- A request whose rule sets no source: its reply, its own notices with those of the grant that it brings, and the event
that it is. -/
theorem request_within (h : s.ready p kind payload = true) (hr : rule (s.hunt p) = .ok (u, st, c))
    (hports : u.ports = (s.hunt p).ports) (hw : u.judgeSources.bridge.holds.within s.bridge.holds)
    (hstate : u.bridge.state = s.bridge.state) (hwaiting : u.bridge.waiting = s.bridge.waiting) :
    ∃ t, request kind p tag payload rule s = .next t ∧ t.replied p kind tag st c = true ∧
      t.ports = ((t.heard s (u.outbox ++ s.grantNews t)).answered p kind tag st c).ports ∧
      t = { event (s.hunt p) u with ports := t.ports } ∧
      t = { u with bridge := t.bridge, axles := t.axles, visits := t.visits, inUse := t.inUse, faults := t.faults
                   ports := t.ports, writes := t.writes, outbox := [], commitNote := none } := by
  have hholds : (s.hunt p).bridge.holds = s.bridge.holds := by simp
  have hbox := State.settle_outbox_within (t := event (s.hunt p) u) hw hstate hwaiting
    (by rw [(event_settle _ u).1, hholds])
  obtain ⟨t, ht, hreply, hheard, hrest⟩ := request_event (tag := tag) h hr hports hbox
  have hbridge : t.bridge = (event (s.hunt p) u).bridge := by rw [hrest]
  have hnews : s.grantNews (event (s.hunt p) u) = s.grantNews t := by simp only [State.grantNews, hbridge]
  obtain ⟨hcapture, hrun, -⟩ := event_within (s := s.hunt p) (u := u) (by rw [hholds]; exact hw)
  refine ⟨t, ht, hreply, by rw [← hnews]; exact hheard, hrest, ?_⟩
  have hevent := event_eq hcapture hrun
  generalize event (s.hunt p) u = e at hrest hevent
  rw [hrest, hevent]

/-- R183: the FAULT source after a request that was carried out. -/
theorem faultJudged_of_request {t : State} (h : t = { event (s.hunt p) u with ports := t.ports }) :
    t.bridge.holds.fault = t.faultJudged := by
  have hj : t.faultJudged = (event (s.hunt p) u).faultJudged := by
    rw [h]
    exact State.faultJudged_congr rfl rfl rfl
  rw [hj, ← event_faultJudged, h]

/-- R76: the METROLOGY source after a request that was carried out. -/
theorem metrology_of_request {t : State} (h : t = { event (s.hunt p) u with ports := t.ports }) :
    t.bridge.holds.metrology = (u.accessOpen || u.run.isSome || u.bridge.holds.manual) := by
  have hmet := event_metrology (s.hunt p) u
  generalize event (s.hunt p) u = e at h hmet
  rw [h]
  exact hmet

end

end Sys2Proof.Machine
end

