-- ==== Sys2Proof/Proofs/HoldComes.lean ====
section
/-! Events that settle under a hold which their own settling cannot lift (R53, R74 to R78, R168): what such an event
leaves of the bridge, the capture, the run and the notices. -/

namespace Sys2Proof.Machine

/-! ### A hold that stands through the settling -/

/-- R53, R77, R168: the change of the hold set that an event brings, followed. -/
def State.followed (s : State) (before : Holds) : State :=
  (s.judgeSources.followHold before).followPointSources before

/-- The settling under a hold that stands, also as a second pass would judge it: its change followed, then the signals. -/
theorem State.settle_standing {s : State} (before : Holds) (h : s.judgeSources.held = true)
    (hagain : (s.settlePass before).judgeSources.held = true) :
    (s.followed before).SignalsOnly (s.settle before) := by
  have hfirst : (s.followed before).SignalsOnly (s.settlePass before) := State.settlePass_held h
  obtain ⟨hmet, -⟩ := s.settlePass_spec before
  have hin : (s.settlePass before).bridge.holds.inForce = true := by
    rw [State.settlePass_holds]
    exact h
  have hwithin := State.settlePass_judged_within s before
  unfold State.settle
  simp only []
  generalize s.settlePass before = t at hfirst hmet hin hwithin hagain ⊢
  split
  · exact hfirst
  · have hjudge : t.SignalsOnly t.judgeSources := by
      unfold State.judgeSources
      rw [← hmet]
      exact ⟨_, _, _, _, _, _, rfl⟩
    have hpass := State.settlePass_held (before := t.bridge.holds) hagain
    rw [State.followHold_stands hin hagain, State.followPointSources_within hwithin] at hpass
    exact hfirst.trans (hjudge.trans hpass)

/-! ### The change of the hold set followed -/

section
variable {s : State} {before : Holds}

/-- R53, R77: the grant timer paused and the capture ended where the hold comes into force. -/
theorem State.followHold_judged (h : s.judgeSources.held = true) :
    (s.judgeSources.followHold before).bridge =
        { s.bridge with
          holds := s.judgeSources.bridge.holds
          grantTimer := if before.inForce then s.bridge.grantTimer
                        else s.bridge.grantTimer.map (fun x => { x with paused := true }) } ∧
      (s.judgeSources.followHold before).capture =
        (if before.inForce then s else s.refuseWaiting .held none).capture ∧
      (s.judgeSources.followHold before).outbox =
        s.outbox ++ if before.inForce then [] else s.refusedNews .held := by
  cases hb : before.inForce with
  | true =>
    rw [State.followHold_stands hb h]
    exact ⟨rfl, rfl, by simp⟩
  | false =>
    rw [State.followHold_comes hb h]
    refine ⟨?_, State.refuseWaiting_capture_congr .held rfl, State.refuseWaiting_outbox _ .held⟩
    simp [State.judgeSources]

/-- R168: the points that end where FAULT comes to be set and the sources of the ports stand. -/
theorem State.followPointSources_fault {t : State} (hg : t.bridge.holds.gatehouse = before.gatehouse)
    (hl : t.bridge.holds.lane = before.lane) :
    t.followPointSources before =
      if before.fault = false ∧ t.bridge.holds.fault = true then t.endPoint .held else t := by
  rw [State.followPointSources_eq, hg, hl]
  cases before.gatehouse <;> cases before.lane <;> simp

/-- What following the change leaves where a hold is then in force and the sources of the ports stand. -/
theorem State.followed_spec (h : s.judgeSources.held = true) (hg : s.bridge.holds.gatehouse = before.gatehouse)
    (hl : s.bridge.holds.lane = before.lane) :
    (s.followed before).bridge =
        { s.bridge with
          holds := s.judgeSources.bridge.holds
          grantTimer := if before.inForce then s.bridge.grantTimer
                        else s.bridge.grantTimer.map (fun x => { x with paused := true }) } ∧
      (s.followed before).capture = (if before.inForce then s else s.refuseWaiting .held none).capture ∧
      (s.followed before).run =
        (if before.fault = false ∧ s.faultJudged = true then s.run.map (fun r => { r with waiting := none })
         else s.run) ∧
      (s.followed before).outbox = s.outbox ++ (if before.inForce then [] else s.refusedNews .held) ++
        (if before.fault = false ∧ s.faultJudged = true then s.pointNews else []) ∧
      (s.followed before).axles = s.axles ∧ (s.followed before).visits = s.visits ∧
      (s.followed before).inUse = s.inUse := by
  obtain ⟨hbridge, hcapture, hout⟩ := State.followHold_judged (before := before) h
  have hrun : (s.judgeSources.followHold before).run = s.run := by simp
  have hrest : (s.judgeSources.followHold before).axles = s.axles ∧
      (s.judgeSources.followHold before).visits = s.visits ∧ (s.judgeSources.followHold before).inUse = s.inUse := by
    simp
  unfold State.followed
  generalize s.judgeSources.followHold before = f at hbridge hcapture hout hrun hrest
  have hholds : f.bridge.holds = s.judgeSources.bridge.holds := by rw [hbridge]
  have hpoint := State.followPointSources_fault (t := f) (before := before) (by rw [hholds]; exact hg)
    (by rw [hholds]; exact hl)
  rw [show f.bridge.holds.fault = s.faultJudged by rw [hholds]; rfl] at hpoint
  rw [hpoint]
  by_cases hc : before.fault = false ∧ s.faultJudged = true
  · simp only [if_pos hc]
    refine ⟨by simpa using hbridge, by simpa using hcapture, ?_, ?_, by simpa using hrest⟩
    · rw [State.endPoint_run_eq, hrun]
    · rw [State.endPoint_outbox, hout, hrun]
      rfl
  · simp only [if_neg hc]
    exact ⟨hbridge, hcapture, hrun, by rw [hout, List.append_nil], hrest⟩

end

/-- Access, once OPEN, holds by METROLOGY through the settling (R76). -/
theorem State.judgeSources_held_of_open {s : State} (h : s.accessOpen = true) : s.judgeSources.held = true := by
  simp [State.held, Holds.inForce, State.judgeSources, h]

/-- A FAULT source judged set is a hold in force (R183). -/
theorem State.judgeSources_held_of_fault {s : State} (h : s.faultJudged = true) : s.judgeSources.held = true := by
  simp [State.held, Holds.inForce, State.judgeSources, h]

/-- Lockout has the FAULT source judged set (R183, R187). -/
theorem State.faultJudged_of_locked {s : State} (h : s.locked = true) : s.faultJudged = true := by
  simp [State.faultJudged, h]

end Sys2Proof.Machine
end

