-- ==== Sys2Proof/Proofs/CalibrationAccess.lean ====
section
/-! Open Calibration and Abandon Calibration (R64, R145, R154). -/

namespace Sys2Proof.Machine

/-! ### Open Calibration (R145) -/

/-- R145: what refuses Open Calibration, in its order. -/
theorem State.openRefusal_eq (s : State) :
    s.openRefusal =
      (if s.staged ≠ none then some .alreadyOpen
       else if s.switchOn = false then some .switchOff
       else if s.bridge.state ≠ .free then some .bridgeOccupied
       else if s.capture.waiting ≠ none then some .capturePending
       else if s.run ≠ none then some .runActive
       else if s.cal.lockout ≠ none then some .lockout
       else if s.hasHeadroom = false then some .logFull
       else none) := by
  simp [State.openRefusal, State.accessOpen, State.locked, Option.isSome_iff_ne_none]

/-- What Open Calibration finds where nothing refuses it. -/
theorem State.openRefusal_none {s : State} (h : s.openRefusal = none) :
    s.bridge.state = .free ∧ s.capture.waiting = none ∧ s.run = none := by
  have hall := refusal_eq_none.1 h
  simp only [List.mem_cons, List.not_mem_nil, or_false, forall_eq_or_imp, decide_eq_false_iff_not, not_not,
    Option.isSome_eq_false_iff, Option.isNone_iff_eq_none] at hall
  obtain ⟨-, -, hfree, hwaiting, hrun, -⟩ := hall
  exact ⟨hfree, hwaiting, hrun⟩

theorem State.openRefusal_hunt (s : State) (p : Port) : (s.hunt p).openRefusal = s.openRefusal := by
  cases p <;> rfl

/-- R145: the state that Open Calibration makes. -/
def State.opened (s : State) : State :=
  { s with staged := some s.cal.committed, cal.accessMark := true, cal.diffMark := false }

/-- R145: the event of Open Calibration: the METROLOGY hold, the signals and the marks, and no notice. -/
theorem event_opened {s : State} (hs : s.settled = true) (h : s.openRefusal = none) :
    (event s s.opened).bridge.holds.metrology = true ∧ (event s s.opened).held = true ∧
      (event s s.opened).bridge.state = .free ∧ (s.opened.settle s.bridge.holds).outbox = [] ∧
      (event s s.opened).capture = s.capture ∧ (event s s.opened).run = s.run ∧ (event s s.opened).axles = s.axles ∧
      (event s s.opened).visits = s.visits ∧ (event s s.opened).inUse = s.inUse := by
  obtain ⟨hfree, hwaiting, hrun⟩ := State.openRefusal_none h
  have hopen : s.opened.judgeSources.held = true := State.judgeSources_held_of_open rfl
  have hagain : (s.opened.settlePass s.bridge.holds).judgeSources.held = true :=
    State.judgeSources_held_of_open (by simp [State.accessOpen, State.opened])
  have hsignals := State.settle_standing s.bridge.holds hopen hagain
  obtain ⟨hbridge, hcapture, hpoints, hout, haxles, hvisits, huse⟩ :=
    State.followed_spec (before := s.bridge.holds) hopen rfl rfl
  obtain ⟨hc, hr, ha, hv, hi, ho⟩ := hsignals.leaves
  obtain ⟨hstate, -⟩ := hsignals.bridge
  obtain ⟨eb, ec, ea, ev, ei, er, -⟩ := event_settle s s.opened
  have hmet : (event s s.opened).bridge.holds.metrology = true := by
    rw [event_metrology]
    simp [State.accessOpen, State.opened]
  have hnone : s.opened.run = none := hrun
  have hidle : s.opened.capture.waiting = none := hwaiting
  refine ⟨hmet, by simp [State.held, Holds.inForce, hmet], ?_, ?_, ?_, ?_, ea.trans (ha.trans haxles),
    ev.trans (hv.trans hvisits), ei.trans (hi.trans huse)⟩
  · rw [eb, hstate, hbridge]
    exact hfree
  · rw [ho, hout]
    simp [State.refusedNews, State.pointNews, hnone, hidle, show s.opened.outbox = [] from (s.settled_iff.1 hs).1]
  · rw [ec, hc, hcapture, State.refuseWaiting_none _ _ hidle, ite_self]
    rfl
  · rw [er, hr, hpoints, hnone, hrun]
    simp

/-- R145: Open Calibration where nothing refuses it. -/
theorem exec_openCalibration {s : State} {p : Port} {tag : Octet} {payload : List Octet}
    (h : s.ready p 60 payload = true) (hopen : s.openRefusal = none) :
    ∃ t, exec (.openCalibration p tag payload) s = .next t ∧ t.replied p 60 tag .ok .empty = true ∧
      t.staged = some s.cal.committed ∧ t.cal = { s.cal with accessMark := true, diffMark := false } ∧
      t.bridge.holds.metrology = true ∧ t.held = true ∧ t.bridge.state = .free ∧
      t.ports = ((t.heard s []).answered p 60 tag .ok .empty).ports ∧
      t = { s with staged := t.staged, cal := t.cal, bridge := t.bridge, faults := t.faults, ports := t.ports,
                   writes := t.writes } := by
  obtain ⟨-, hcalm⟩ := (s.ready_iff _ _ _).1 h
  obtain ⟨hs, -, -⟩ := State.hunt_settled hcalm p
  obtain ⟨-, hout, -, hn⟩ := s.calm_iff.1 hcalm
  have hrefusal : (s.hunt p).openRefusal = none := by rw [State.openRefusal_hunt, hopen]
  obtain ⟨hmet, hheld, hstate, hbox, hcapture, hrun, haxles, hvisits, huse⟩ := event_opened hs hrefusal
  have htaken : openCalibration (s.hunt p) = .ok ((s.hunt p).opened, .ok, .empty) := by
    simp [openCalibration, orRefuse, hrefusal, State.opened]
  have hbridge : (s.hunt p).bridge = s.bridge := by simp
  rw [hbridge] at hbox
  obtain ⟨t, ht, hreply, hports, hrest⟩ := request_event (tag := tag) h htaken rfl hbox
  have hframe := event_frame (s.hunt p) (s.hunt p).opened
  have heventOut := event_outbox (s.hunt p) (s.hunt p).opened
  have heventNote := event_commitNote (s.hunt p) (s.hunt p).opened
  have hmade : (s.hunt p).opened.staged = some s.cal.committed ∧
      (s.hunt p).opened.cal = { s.cal with accessMark := true, diffMark := false } ∧
      (s.hunt p).opened = { s.hunt p with staged := (s.hunt p).opened.staged, cal := (s.hunt p).opened.cal } := by
    simp [State.opened]
  generalize (s.hunt p).opened = u at *
  generalize event (s.hunt p) u = e at *
  obtain ⟨hstaged, hcal, hu⟩ := hmade
  refine ⟨t, ht, hreply, ?_, ?_, ?_, ?_, ?_, hports, ?_⟩
  · rw [hrest]; simp [hframe, hstaged]
  · rw [hrest]; simp [hframe, hcal]
  · rw [hrest]; exact hmet
  · rw [hrest]; exact hheld
  · rw [hrest]; exact hstate
  · rw [hrest]
    refine State.eq_iff_fields.2 ?_
    simp only [hframe, hcapture, hrun, haxles, hvisits, huse, heventOut, heventNote, hout, hn]
    rw [hu]
    simp

/-! ### Abandon Calibration (R154) -/

/-- The close of access gives no source a cause. -/
theorem State.closeAccess_within {s : State} (hs : s.settled = true) :
    s.closeAccess.judgeSources.bridge.holds.within s.bridge.holds :=
  State.within_of_settled hs rfl nofun rfl id

/-- R154: Abandon Calibration with access OPEN. -/
theorem exec_abandonCalibration {s : State} {p : Port} {tag : Octet} {payload : List Octet}
    (h : s.ready p 67 payload = true) (hopen : s.staged ≠ none) :
    ∃ t, exec (.abandonCalibration p tag payload) s = .next t ∧ t.replied p 67 tag .ok .empty = true ∧
      t.staged = none ∧ t.cal = { s.cal with accessMark := false, diffMark := false } ∧
      t.bridge.holds.metrology = (s.run.isSome || s.bridge.holds.manual) ∧
      t.ports = ((t.heard s (s.grantNews t)).answered p 67 tag .ok .empty).ports ∧
      t = { s with staged := none, cal := t.cal, bridge := t.bridge, axles := t.axles, visits := t.visits,
                   inUse := t.inUse, faults := t.faults, ports := t.ports, writes := t.writes } := by
  obtain ⟨-, hcalm⟩ := (s.ready_iff _ _ _).1 h
  obtain ⟨hs, hout, -⟩ := State.hunt_settled hcalm p
  obtain ⟨-, hout', -, hn⟩ := s.calm_iff.1 hcalm
  have htaken : abandonCalibration (s.hunt p) = .ok ((s.hunt p).closeAccess, .ok, .empty) := by
    have haccess : (s.hunt p).accessOpen = true := by
      simpa [State.accessOpen, Option.isSome_iff_ne_none] using hopen
    simp [abandonCalibration, orRefuse, haccess]
  have hholds : (s.hunt p).bridge = s.bridge := by simp
  have hwithin := State.closeAccess_within hs
  rw [hholds] at hwithin
  obtain ⟨t, ht, hreply, hports, hevent, hrest⟩ :=
    request_within (tag := tag) h htaken rfl hwithin (congrArg Bridge.state hholds) (congrArg Bridge.waiting hholds)
  have hempty : (s.hunt p).closeAccess.outbox = [] := hout
  rw [hempty, List.nil_append] at hports
  have hclosed : (s.hunt p).closeAccess = { s.hunt p with
      staged := none, cal := { s.cal with accessMark := false, diffMark := false } } := by
    simp [State.closeAccess]
  refine ⟨t, ht, hreply, by rw [hrest, hclosed], by rw [hrest, hclosed], ?_, hports, ?_⟩
  · rw [metrology_of_request hevent, hclosed]
    simp [State.accessOpen]
  · rw [hrest, hclosed]
    refine State.eq_iff_fields.2 ?_
    simp [hout', hn]

/-- Settles O48: Open Calibration is an event under the METROLOGY hold that it brings, Abandon Calibration one that sets
no source. -/
theorem calibrationAccessOpensAndCloses : Obligations.CalibrationAccessOpensAndCloses := by
  unfold Obligations.CalibrationAccessOpensAndCloses
  refine ⟨fun k hk p => ?_, fun s p tag payload => ⟨s.openRefusal_eq, fun h => ⟨fun code hcode => ?_, fun hnone => ?_⟩,
    fun h => ⟨fun hclosed => ?_, fun hopen => exec_abandonCalibration h hopen⟩⟩⟩
  · fin_cases hk <;> cases p <;> decide
  · refine request_ready_refused h ?_
    simp [openCalibration, orRefuse, State.openRefusal_hunt, hcode]
  · exact exec_openCalibration h hnone
  · refine request_ready_refused h ?_
    simp [abandonCalibration, orRefuse, State.accessOpen, hclosed]

end Sys2Proof.Machine
end

