-- ==== Sys2Proof/Proofs/SwitchWithdrawal.lean ====
section
/-! The calibration switch (R64, R155, R168, R187). -/

namespace Sys2Proof.Machine

/-- A line that is taken where control is with the blocks. -/
theorem exec_calibrationSwitchChange {s : State} (h : s.running = true) (on : Bool) :
    exec (.calibrationSwitchChange on) s = .next (event s (s.switchChange on)) := by
  simp [exec, execCalibrationSwitchChange, h]

/-- A change of the line alone settles and writes nothing. -/
theorem event_switchOn {s : State} (hs : s.settled = true) (hn : s.commitNote = none) (on : Bool) :
    event s { s with switchOn := on } = { s with switchOn := on } :=
  event_untouched (u := { s with switchOn := on }) hs rfl (changedRegions_same rfl rfl rfl rfl rfl rfl rfl) hn

/-! ### A withdrawal while access is OPEN -/

/-- R155: the line withdrawn and access closed. -/
def State.switchedOff (s : State) : State := ({ s with switchOn := false } : State).closeAccess

section
variable {s : State} {st : CalTable}

/-- R155: with access OPEN a withdrawal closes it, and enters lockout where differences are staged. -/
theorem State.switchChange_open (hst : s.staged = some st) :
    s.switchChange false =
      if paramChanges s.cal.committed st = [] then s.switchedOff.post .metrology .accessClosed
      else s.switchedOff.enterLockout .calAccessInterrupted := by
  have hopen : s.accessOpen = true := by simp [State.accessOpen, hst]
  simp only [State.switchChange, hopen, Bool.not_false, Bool.and_self, if_true, State.withdrawSwitch,
    State.stagedDifferences, hst, List.isEmpty_iff]
  rfl

/-- What the withdrawal leaves of what its settling does not touch. -/
theorem State.switchChange_left (hst : s.staged = some st) :
    (s.switchChange false).switchOn = false ∧ (s.switchChange false).staged = none ∧
      (s.switchChange false).cal.accessMark = false ∧ (s.switchChange false).cal.diffMark = false ∧
      (s.switchChange false).cal.committed = s.cal.committed ∧ (s.switchChange false).cal.epoch = s.cal.epoch ∧
      (s.switchChange false).cal.notVerified = s.cal.notVerified ∧ (s.switchChange false).bridge = s.bridge ∧
      (s.switchChange false).run = s.run ∧ (s.switchChange false).ports = s.ports ∧
      s.switchChange false = { s with cal := (s.switchChange false).cal, staged := none, switchOn := false
                                      evidence := (s.switchChange false).evidence
                                      outbox := (s.switchChange false).outbox } := by
  rw [State.switchChange_open hst]
  split
  · exact ⟨rfl, rfl, rfl, rfl, rfl, rfl, rfl, rfl, rfl, rfl, rfl⟩
  · cases hl : s.switchedOff.locked with
    | true =>
      rw [State.enterLockout_locked _ hl]
      exact ⟨rfl, rfl, rfl, rfl, rfl, rfl, rfl, rfl, rfl, rfl, rfl⟩
    | false =>
      rw [State.enterLockout_free _ hl]
      exact ⟨rfl, rfl, rfl, rfl, rfl, rfl, Bool.or_false _, rfl, rfl, rfl, rfl⟩

/-- With nothing staged that differs it sets no source, and hands over ACCESS_CLOSED. -/
theorem State.switchChange_same (hs : s.settled = true) (hst : s.staged = some st)
    (hd : paramChanges s.cal.committed st = []) :
    (s.switchChange false).judgeSources.bridge.holds.within s.bridge.holds ∧
      (s.switchChange false).outbox = [(.metrology, .accessClosed)] ∧
      (s.switchChange false).cal = { s.cal with accessMark := false, diffMark := false } ∧
      (s.switchChange false).evidence = s.evidence := by
  rw [State.switchChange_open hst, if_pos hd]
  refine ⟨State.within_of_settled hs rfl nofun rfl id, ?_, rfl, rfl⟩
  show s.outbox ++ [(Port.metrology, Notice.accessClosed)] = _
  rw [(s.settled_iff.1 hs).1, List.nil_append]

/-- With differences lockout stands afterwards: as it stood, or entered with its record and its notices. -/
theorem State.switchChange_differs (hs : s.settled = true) (hst : s.staged = some st)
    (hd : paramChanges s.cal.committed st ≠ []) :
    (s.cal.lockout ≠ none → (s.switchChange false).cal = { s.cal with accessMark := false, diffMark := false } ∧
        (s.switchChange false).outbox = []) ∧
      (s.cal.lockout = none → (s.switchChange false).cal = s.switchedOff.lockoutCal .calAccessInterrupted ∧
        (s.switchChange false).outbox = s.lockoutNews .calAccessInterrupted) ∧
      (s.switchChange false).locked = true := by
  have hout : s.switchedOff.outbox = [] := (s.settled_iff.1 hs).1
  rw [State.switchChange_open hst, if_neg hd]
  cases hl : s.cal.lockout with
  | some code =>
    have hlocked : s.switchedOff.locked = true := by simp [State.locked, State.switchedOff, State.closeAccess, hl]
    rw [State.enterLockout_locked _ hlocked]
    exact ⟨fun _ => ⟨rfl, hout⟩, nofun, hlocked⟩
  | none =>
    have hfree : s.switchedOff.locked = false := by simp [State.locked, State.switchedOff, State.closeAccess, hl]
    rw [State.enterLockout_free _ hfree, hout]
    exact ⟨fun h => absurd rfl h, fun _ => ⟨rfl, rfl⟩, rfl⟩

/-- The settling under that lockout: the FAULT source, and the notices of a waiting point that it ends. -/
theorem State.switchChange_locked (hst : s.staged = some st) (hs : s.settled = true)
    (hl : (s.switchChange false).locked = true) :
    (event s (s.switchChange false)).bridge.holds.fault = true ∧
      ((s.switchChange false).settle s.bridge.holds).outbox = (s.switchChange false).outbox ++
        if s.bridge.holds.fault then [] else s.pointNews := by
  obtain ⟨-, -, -, -, -, -, -, hbridge, hrun, -, -⟩ := State.switchChange_left hst
  have hin : s.bridge.holds.inForce = true := by
    obtain ⟨hmet, -⟩ := State.sourcesJudged_of_settled hs
    simp [Holds.inForce, hmet, State.accessOpen, hst]
  generalize s.switchChange false = u at hbridge hrun hl ⊢
  have hjudged : u.faultJudged = true := State.faultJudged_of_locked hl
  have hagain : (u.settlePass s.bridge.holds).judgeSources.held = true := by
    refine State.judgeSources_held_of_fault (State.faultJudged_of_locked ?_)
    simpa [State.locked] using hl
  have hheld := State.judgeSources_held_of_fault hjudged
  obtain ⟨-, -, -, -, -, hout⟩ := (State.settle_standing s.bridge.holds hheld hagain).leaves
  obtain ⟨-, -, -, hnews, -⟩ :=
    State.followed_spec (before := s.bridge.holds) hheld (by rw [hbridge]) (by rw [hbridge])
  have hpoint : u.pointNews = s.pointNews := by rw [State.pointNews, hrun, State.pointNews]
  refine ⟨?_, ?_⟩
  · rw [event_faultJudged]
    refine State.faultJudged_of_locked ?_
    simpa [State.locked] using hl
  · rw [hout, hnews, if_pos hin, List.append_nil, hjudged, hpoint]
    cases s.bridge.holds.fault <;> rfl

end

/-- What every withdrawal with access OPEN leaves. -/
theorem event_switchChange {s : State} {st : CalTable} (hcalm : s.calm = true) (hst : s.staged = some st) :
    let t := event s (s.switchChange false)
    t.switchOn = false ∧ t.staged = none ∧ t.cal = (s.switchChange false).cal ∧
      t.evidence = (s.switchChange false).evidence ∧
      t.bridge.holds.metrology = (s.run.isSome || s.bridge.holds.manual) ∧
      t = { s with bridge := t.bridge, axles := t.axles, visits := t.visits, inUse := t.inUse, cal := t.cal
                   staged := none, switchOn := false, run := t.run, evidence := t.evidence, capture := t.capture
                   faults := t.faults, ports := t.ports, writes := t.writes } := by
  obtain ⟨-, hout, -, hn⟩ := s.calm_iff.1 hcalm
  obtain ⟨hoff, hstaged, -, -, -, -, -, hbridge, hrun, -, hrest⟩ := State.switchChange_left hst
  have hframe := event_frame s (s.switchChange false)
  have heventOut := event_outbox s (s.switchChange false)
  have heventNote := event_commitNote s (s.switchChange false)
  have hmet := event_metrology s (s.switchChange false)
  generalize s.switchChange false = u at *
  generalize event s u = t at *
  refine ⟨by simp [hframe, hoff], by simp [hframe, hstaged], by simp [hframe], by simp [hframe], ?_, ?_⟩
  · rw [hmet, hbridge, hrun]
    simp [State.accessOpen, hstaged]
  · refine State.eq_iff_fields.2 ?_
    simp only [hframe, heventOut, heventNote, hout, hn]
    rw [hrest]
    simp

/-- Settles O35: a withdrawal while access is OPEN sets no source, or settles under the FAULT source of the lockout that
stands after it. -/
theorem switchWithdrawalClosesAccess : Obligations.SwitchWithdrawalClosesAccess := by
  unfold Obligations.SwitchWithdrawalClosesAccess
  intro s hcalm
  obtain ⟨hrunning, hout, hb, hn⟩ := s.calm_iff.1 hcalm
  have hs : s.settled = true := s.settled_iff.2 ⟨hout, hb⟩
  refine ⟨?_, fun hclosed => ?_, fun st hst => ⟨_, exec_calibrationSwitchChange hrunning false, ?_⟩⟩
  · rw [exec_calibrationSwitchChange hrunning]
    exact congrArg _ (event_switchOn hs hn true)
  · rw [exec_calibrationSwitchChange hrunning]
    have hline : s.switchChange false = { s with switchOn := false } := by
      simp [State.switchChange, State.accessOpen, hclosed]
    rw [hline, event_switchOn hs hn]
  obtain ⟨-, -, haccess, hdiff, hcommitted, hepoch, hverified, hbridge, -, hports, -⟩ := State.switchChange_left hst
  obtain ⟨hoff, hstaged, hcal, hevidence, hmet, hrest⟩ := event_switchChange hcalm hst
  have hsame := State.switchChange_same hs hst
  have hdiffers := State.switchChange_differs hs hst
  have hlocked := State.switchChange_locked hst hs
  have hheard : ∀ ns, ((s.switchChange false).settle s.bridge.holds).outbox = ns →
      (event s (s.switchChange false)).ports = ((event s (s.switchChange false)).heard s ns).ports :=
    fun ns => event_heard rfl hports
  refine ⟨hoff, hstaged, by rw [hcal, haccess], by rw [hcal, hdiff], by rw [hcal, hcommitted], by rw [hcal, hepoch],
    by rw [hcal, hverified], hmet, fun hd => ?_, fun hd hl => ?_, fun hd hl => ?_, fun hd => ?_, fun hd hl => ?_,
    fun hd hl => ?_, hrest⟩
  · obtain ⟨-, -, hmarks, hkept⟩ := hsame hd
    exact ⟨hcal.trans hmarks, hevidence.trans hkept⟩
  · obtain ⟨-, hentered, hstands⟩ := hdiffers hd
    obtain ⟨hfault, -⟩ := hlocked hstands
    rw [hcal, (hentered hl).1]
    exact ⟨rfl, hfault, by simp [State.held, Holds.inForce, hfault], _, rfl, rfl, rfl, rfl, rfl, rfl, rfl, rfl⟩
  · obtain ⟨hstood, -⟩ := hdiffers hd
    rw [hcal, (hstood hl).1]
  · obtain ⟨hwithin, hnews, -⟩ := hsame hd
    refine hheard _ ?_
    rw [State.settle_outbox_within hwithin (by rw [hbridge]) (by rw [hbridge]) (event_settle _ _).1, hnews]
  · obtain ⟨-, hentered, hstands⟩ := hdiffers hd
    refine hheard _ ?_
    rw [(hlocked hstands).2, (hentered hl).2]
    rfl
  · obtain ⟨hstood, -, hstands⟩ := hdiffers hd
    have hfault : s.bridge.holds.fault = true := by
      rw [(State.sourcesJudged_of_settled hs).2]
      exact State.faultJudged_of_locked (by simpa [State.locked, Option.isSome_iff_ne_none] using hl)
    rw [hheard [] (by rw [(hlocked hstands).2, (hstood hl).2, hfault]; rfl)]
    exact State.flush_ports_of_empty rfl

end Sys2Proof.Machine
end

