-- ==== Sys2Proof/Proofs/GrantTimer.lean ====
section
/-! The expiry of the grant timer (R63, R64, R67), and grants made with no hold in force. -/

namespace Sys2Proof.Machine

/-! ### A grant -/

/-- R64, R65: what a grant makes of the bridge. -/
theorem State.grantTo_bridge (s : State) (q : QueueEntry) :
    (s.grantTo q).bridge = { s.bridge with
      waiting := (s.bridge.waiting.filter (fun e => e.ident ≠ q.ident)).map QueueEntry.promoted
      state := .granted
      grant := some { ident := q.ident, entryEnd := q.entryEnd }
      grantTimer := some { secondsLeft := s.site.settings.grantTimeout, paused := false } } := by
  simp [State.grantTo]

theorem State.grantTo_outbox (s : State) (q : QueueEntry) :
    (s.grantTo q).outbox = s.outbox ++ notesTo [.lane, .gatehouse] (.granted q.ident q.entryEnd) := by
  simp [State.grantTo, notesTo]

section
variable {s u : State}

/-- Where the rule of an event leaves the sources judged and no hold in force, the event grants where due and commands
the signals. -/
theorem State.settle_unheld (hj : u.sourcesJudged) (hh : u.bridge.holds = s.bridge.holds) (hheld : s.held = false) :
    u.settle s.bridge.holds = u.grantIfDue.recommand := by
  rw [← hh]
  exact State.settle_of_judged_unheld hj (by rw [State.held, hh]; exact hheld)

/-- R63: with no entry waiting it commands the signals alone. -/
theorem State.settle_unheld_empty (hj : u.sourcesJudged) (hh : u.bridge.holds = s.bridge.holds) (hheld : s.held = false)
    (hw : u.bridge.waiting = []) : u.settle s.bridge.holds = u.recommand := by
  rw [State.settle_unheld hj hh hheld]
  have hnone : u.grantIfDue = u := by
    unfold State.grantIfDue
    rw [hw]
    exact ite_self u
  rw [hnone]

/-- R63, R64: at a FREE bridge it grants the entry to grant. -/
theorem State.settle_unheld_grants (hj : u.sourcesJudged) (hh : u.bridge.holds = s.bridge.holds)
    (hheld : s.held = false) (hfree : u.bridge.state = .free) {q : QueueEntry}
    (hq : selectEntry u.bridge.waiting = some q) : u.settle s.bridge.holds = (u.grantTo q).recommand := by
  have hunheld : u.held = false := by rw [State.held, hh]; exact hheld
  rw [State.settle_unheld hj hh hheld]
  simp [State.grantIfDue, hfree, hunheld, hq]

end

/-! ### A no-show (R67) -/

/-- R115: whether the vehicle left or not, the end of a grant leaves the visits alike. -/
theorem State.endVisitUse_visits (s : State) (left : Bool) :
    (s.endVisitUse left).inUse = none ∧ (s.endVisitUse left).visits = (s.endVisitUse true).visits := by
  unfold State.endVisitUse
  simp only []
  split
  · exact ⟨rfl, rfl⟩
  · split
    · exact ⟨rfl, rfl⟩
    · constructor <;> (repeat' split) <;> simp

/-- R67, R68: the end of a grant without an axle returns the visit in use, with no notice. -/
theorem State.withdrawGrant_spec (s : State) :
    s.withdrawGrant.bridge = { s.bridge with grant := none, grantTimer := none } ∧ s.withdrawGrant.outbox = s.outbox ∧
      s.withdrawGrant.axles = { s.axles with axleCount := false } ∧ s.withdrawGrant.inUse = none ∧
      (∀ q v, s.inUse = some q → Table.get? s.visits q = some v →
        Table.get? s.withdrawGrant.visits q = some v.returned) ∧
      ∀ q, s.inUse ≠ some q → Table.get? s.withdrawGrant.visits q = Table.get? s.visits q := by
  obtain ⟨huse, hsame⟩ := s.endVisitUse_visits false
  obtain ⟨-, hlisted, hother⟩ := s.endVisitUse_spec
  have hvisits : s.withdrawGrant.visits = (s.endVisitUse true).visits := hsame
  have hout : s.withdrawGrant.outbox = s.outbox ∧ s.withdrawGrant.axles = { s.axles with axleCount := false } := by
    unfold State.withdrawGrant State.endVisitUse
    simp only []
    split
    · exact ⟨rfl, rfl⟩
    · split <;> simp
  refine ⟨by simp [State.withdrawGrant], hout.1, hout.2, huse, fun q v hq hv => ?_, fun q hq => ?_⟩
  · rw [hvisits]
    exact (hlisted q v hq hv).1
  · rw [hvisits]
    exact hother q hq

/-- What a no-show leaves before its event is settled: a FREE bridge without a grant, the visit in use returned, and
NO_SHOW at the Lane and Gatehouse Ports. -/
theorem State.noShow_spec (s : State) (id : Ident) :
    (s.noShow id).bridge = { s.bridge with state := .free, grant := none, grantTimer := none } ∧
      (s.noShow id).outbox = s.outbox ++ notesTo [.lane, .gatehouse] (.noShow id) ∧ (s.noShow id).inUse = none ∧
      (∀ q v, s.inUse = some q → Table.get? s.visits q = some v →
        Table.get? (s.noShow id).visits q = some v.returned) ∧
      (∀ q, s.inUse ≠ some q → Table.get? (s.noShow id).visits q = Table.get? s.visits q) ∧
      s.noShow id = { s with bridge := (s.noShow id).bridge, axles := (s.noShow id).axles
                             visits := (s.noShow id).visits, inUse := none, outbox := (s.noShow id).outbox } := by
  obtain ⟨hbridge, hout, -, huse, hlisted, hother⟩ := s.withdrawGrant_spec
  have hvisits : (s.noShow id).visits = s.withdrawGrant.visits := by simp [State.noShow]
  refine ⟨by simp [State.noShow, hbridge], by simp [State.noShow, hout, notesTo], by simp [State.noShow, huse], ?_, ?_,
    ?_⟩
  · simpa only [hvisits] using hlisted
  · simpa only [hvisits] using hother
  · refine State.eq_iff_fields.2 ?_
    simp [State.noShow, huse]

theorem exec_grantTimerExpiry {s : State} (h : s.running = true) :
    exec .grantTimerExpiry s = .next (event s s.grantExpires) := by
  simp [exec, execGrantTimerExpiry, act, h]

/-- R67: a timer that does not run unpaused does not expire. -/
theorem State.grantExpires_stopped {s : State}
    (h : ∀ n, s.bridge.grantTimer ≠ some { secondsLeft := n, paused := false }) : s.grantExpires = s := by
  unfold State.grantExpires
  split
  · next t g ht _ =>
    obtain ⟨n, paused⟩ := t
    cases paused with
    | true => rfl
    | false => exact absurd ht (h n)
  · rfl

/-- R67: one that does is a no-show. -/
theorem State.grantExpires_runs {s : State} {g : Grant} {n : Nat} (hg : s.bridge.grant = some g)
    (ht : s.bridge.grantTimer = some { secondsLeft := n, paused := false }) : s.grantExpires = s.noShow g.ident := by
  simp [State.grantExpires, ht, hg]

/-- Settles O29: with no hold in force the event of a no-show grants where an entry waits, and commands the signals. -/
theorem grantTimerExpiryIsANoShow : Obligations.GrantTimerExpiryIsANoShow := by
  unfold Obligations.GrantTimerExpiryIsANoShow
  intro s hcalm
  obtain ⟨hrunning, hout, hb, hn⟩ := s.calm_iff.1 hcalm
  have hs : s.settled = true := s.settled_iff.2 ⟨hout, hb⟩
  rw [exec_grantTimerExpiry hrunning]
  refine ⟨fun h => by rw [State.grantExpires_stopped h, event_self hs hn], fun g n _ hg ht hheld => ⟨_, rfl, ?_⟩⟩
  rw [State.grantExpires_runs hg ht]
  obtain ⟨hbridge, hbox, huse, hlisted, hother, hrest⟩ := s.noShow_spec g.ident
  rw [hout, List.nil_append] at hbox
  generalize s.noShow g.ident = u at *
  have hholds : u.bridge.holds = s.bridge.holds := by rw [hbridge]
  have hj : u.sourcesJudged := by
    refine State.sourcesJudged_congr (State.sourcesJudged_of_settled hs) hholds ?_ ?_ ?_ ?_ ?_ <;> rw [hrest]
  have hports : u.ports = s.ports := by rw [hrest]
  obtain ⟨eb, -, -, ev, ei, -, -, ep⟩ := event_settle s u
  obtain ⟨-, hcapture, hrun⟩ := event_resettled hj hholds
  have hframe := event_frame s u
  have heventOut := event_outbox s u
  have heventNote := event_commitNote s u
  refine ⟨fun hw => ?_, fun q hq => ?_, ?_⟩
  · have hsettle := State.settle_unheld_empty hj hholds hheld (by rw [hbridge]; exact hw)
    obtain ⟨hwaiting, -, hstate, -, hgrant, htimer, -, -, -, hA, hB, -⟩ := u.recommand_spec
    have hred : ∀ e, u.bridge.aspectFor e = .red := fun e => by rw [hbridge]; rfl
    rw [hsettle] at eb ev ei
    rw [eb, hstate, hgrant, htimer, hwaiting, hA, hB, hred, hred, hbridge, ev, ei]
    refine ⟨rfl, rfl, rfl, hw, rfl, rfl, by simp [huse], ?_, by simpa using hlisted, by simpa using hother⟩
    rw [ep, hsettle]
    refine State.flush_ports_congr (by simp [hports]) ?_
    simp [hbox, hout, notesTo]
  · have hsettle := State.settle_unheld_grants hj hholds hheld (by rw [hbridge]) (by rw [hbridge]; exact hq)
    obtain ⟨-, -, hstate, -, hgrant, htimer, -⟩ := (u.grantTo q).recommand_spec
    have hsite : u.site = s.site := by rw [hrest]
    rw [eb, hsettle, hstate, hgrant, htimer, State.grantTo_bridge, hsite]
    refine ⟨rfl, rfl, rfl, event_heard rfl hports ?_⟩
    rw [hsettle, show (u.grantTo q).recommand.outbox = (u.grantTo q).outbox by simp, State.grantTo_outbox, hbox]
  · generalize event s u = t at *
    refine State.eq_iff_fields.2 ?_
    simp only [hframe, heventOut, heventNote, hcapture, hrun, hout, hn]
    rw [hrest]
    simp

end Sys2Proof.Machine
end

