-- ==== Sys2Proof/Proofs/Arrivals.lean ====
section
/-! Report Arrival and Withdraw Arrival (R59 to R65, R87, R112). -/

namespace Sys2Proof.Machine

/-! ### The effective class (R61) -/

theorem State.effectiveClass_eq (s : State) (v : Visit) (e : BridgeEnd) :
    s.effectiveClass v e =
      (match findTare s.tares.slots v.ident with
        | some (_, t) => if s.runOut t then v.cls.getD (s.site.settings.defaultClass e)
                         else t.cls.getD (v.cls.getD (s.site.settings.defaultClass e))
        | none => v.cls.getD (s.site.settings.defaultClass e)) := by
  unfold State.effectiveClass State.tareClass
  cases findTare s.tares.slots v.ident with
  | none => rfl
  | some slot =>
    obtain ⟨-, t⟩ := slot
    by_cases hr : s.runOut t = true
    · simp only [if_pos hr]
    · simp only [if_neg hr]
      cases t.cls <;> rfl

/-! ### The entry to grant (R63, R65) -/

/-- R63: the entry to grant waits, and no entry that waits has a higher class, or the same class and a lower number. -/
theorem selectEntry_spec {qs : List QueueEntry} {q : QueueEntry} (h : selectEntry qs = some q) :
    q ∈ qs ∧ ∀ x ∈ qs, x.cls < q.cls ∨ (x.cls = q.cls ∧ q.arrival ≤ x.arrival) := by
  induction qs generalizing q with
  | nil => cases h
  | cons a rest ih =>
    simp only [selectEntry] at h
    split at h
    · next hnone =>
      cases h
      rw [selectEntry_eq_none hnone]
      simp
    · next b hb =>
      obtain ⟨hmem, hbest⟩ := ih hb
      split at h <;> next hbefore =>
        simp only [QueueEntry.before, Bool.or_eq_true, Bool.and_eq_true, decide_eq_true_eq] at hbefore
        cases h
        refine ⟨by simp [hmem], fun x hx => ?_⟩
        rcases List.mem_cons.1 hx with rfl | hx
        · omega
        · have := hbest x hx
          omega

/-- R65: an entry that a grant passes over. -/
theorem QueueEntry.promoted_eq (x : QueueEntry) :
    x.promoted = if x.passes = 3 then { x with cls := if x.cls < 3 then x.cls + 1 else x.cls, passes := 0 }
                 else { x with passes := x.passes + 1 } := by
  simp [QueueEntry.promoted]

theorem State.grantIfDue_due {s : State} {q : QueueEntry} (hheld : s.held = false) (hfree : s.bridge.state = .free)
    (hq : selectEntry s.bridge.waiting = some q) : s.grantIfDue = s.grantTo q := by
  simp [State.grantIfDue, hheld, hfree, hq]

/-! ### Queues changed under a settled bridge -/

/-- A change of the queues leaves the bridge settled where no entry can be granted. -/
theorem State.bridgeSettled_of_queues {s : State} {w : List QueueEntry} {n : Nat} (h : s.bridgeSettled = true)
    (hw : s.bridge.state = .free → s.held = false → w = []) :
    ({ s with bridge.waiting := w, bridge.arrivals := n } : State).bridgeSettled = true := by
  obtain ⟨hmet, hfault, -, hA, hB, hla, hlb⟩ := s.bridgeSettled_iff.1 h
  exact (State.bridgeSettled_iff _).2 ⟨hmet, hfault, hw, hA, hB, hla, hlb⟩

/-- A request that changes the queues alone, and brings no grant. -/
theorem request_queues {s u : State} {p : Port} {kind : Nat} {tag : Octet} {payload : List Octet} {st : Status}
    {c : Content} {rule : State → Taken} {w : List QueueEntry} {n : Nat} (h : s.ready p kind payload = true)
    (hu : u = { s with bridge.waiting := w, bridge.arrivals := n }) (hr : rule (s.hunt p) = .ok (u.hunt p, st, c))
    (hw : s.bridge.state = .free → s.held = false → w = []) :
    request kind p tag payload rule s = .next (u.answered p kind tag st c) := by
  obtain ⟨ha, hcalm⟩ := (s.ready_iff p kind payload).1 h
  obtain ⟨-, hout, hb, hn⟩ := s.calm_iff.1 hcalm
  rw [request_quiet rule ha hr (by rw [hu]; exact hout) (by rw [hu]; exact State.bridgeSettled_of_queues hb hw)
      (by rw [hu]), retain_of_untouched _ (by rw [hu]; simpa [State.answered] using hn)]
  rw [hu]
  refine changedRegions_same ?_ ?_ ?_ ?_ ?_ ?_ ?_ <;> simp [State.answered]

/-! ### An entry appended (R59) -/

/-- R59: below the last arrival number the entry takes the next one. -/
theorem State.append_below {s : State} (v : Visit) (e : BridgeEnd) (h : s.bridge.arrivals < 999999999) :
    s.append v e = { s with
      bridge.waiting := s.bridge.waiting ++
        [{ ident := v.ident, entryEnd := e, arrival := s.bridge.arrivals + 1
           cls := s.effectiveClass v e, passes := 0 }]
      bridge.arrivals := s.bridge.arrivals + 1 } := by
  simp [State.append, Bridge.renumber, h]

/-- R59: at it the waiting entries are renumbered first. -/
theorem State.append_renumbers {s : State} (v : Visit) (e : BridgeEnd) (h : 999999999 ≤ s.bridge.arrivals) :
    s.append v e = { s with
      bridge.waiting := (numbered s.bridge.waiting).map (fun x => { x.2 with arrival := x.1 }) ++
        [{ ident := v.ident, entryEnd := e, arrival := s.bridge.waiting.length + 1
           cls := s.effectiveClass v e, passes := 0 }]
      bridge.arrivals := s.bridge.waiting.length + 1 } := by
  simp [State.append, Bridge.renumber, renumbered, Nat.not_lt.2 h]

theorem State.append_hunt (s : State) (p : Port) (v : Visit) (e : BridgeEnd) :
    (s.hunt p).append v e = (s.append v e).hunt p := by
  cases p <;> rfl

/-- The visit found bears the ident. -/
theorem findVisit_ident {vs : Table Visit} {id : Ident} {pos : Nat} {v : Visit} (h : findVisit vs id = some (pos, v)) :
    v.ident = id := by
  simpa using List.find?_some h

/-! ### Report Arrival (R60) -/

/-- A request is turned away by the first condition of its rule's table that applies. -/
theorem orRefuse_refusal_cons (b : Bool) (code : Status) (rest : List (Bool × Status)) (t : State) (st : Status)
    (c : Content) :
    orRefuse (refusal ((b, code) :: rest)) t st c =
      if b = true then .error code else orRefuse (refusal rest) t st c := by
  rw [refusal_cons]
  split <;> rfl

theorem orRefuse_refusal_nil (t : State) (st : Status) (c : Content) :
    orRefuse (refusal []) t st c = .ok (t, st, c) := rfl

section
variable {s : State} {p : Port} {tag : Octet} {payload : List Octet} {id : Ident} {e : BridgeEnd} {pos : Nat}
variable {v : Visit}

theorem reportArrival_malformed (h : identAt payload 0 = none ∨ endOf (natAt payload 12 1) = none) :
    reportArrival payload s = .error .badArgument := by
  unfold reportArrival
  rcases h with h | h
  · rw [h]
  · rw [h]
    cases identAt payload 0 <;> rfl

theorem reportArrival_unknown (hid : identAt payload 0 = some id) (he : endOf (natAt payload 12 1) = some e)
    (hv : findVisit s.visits id = none) : reportArrival payload s = .error .noVisit := by
  simp [reportArrival, hid, he, hv]

theorem reportArrival_known (hid : identAt payload 0 = some id) (he : endOf (natAt payload 12 1) = some e)
    (hv : findVisit s.visits id = some (pos, v)) :
    reportArrival payload s =
      if v.inProgress = true then .error .visitInUse
      else if (∃ q ∈ s.bridge.waiting, q.ident = id) ∨ s.bridge.grant.map (·.ident) = some id then .error .duplicate
      else if 8 ≤ (s.bridge.waiting.filter (fun q => q.entryEnd = e)).length then .error .queueFull
      else .ok (s.append v e, .ok, .arrival (s.bridge.renumber.arrivals + 1)) := by
  unfold reportArrival State.holder State.queueLength
  rw [hid, he]
  simp only [hv, orRefuse_refusal_cons, orRefuse_refusal_nil, Bool.or_eq_true, List.any_eq_true, decide_eq_true_eq]

/-! ### The grant that an arrival brings (R63, R64, R87, R112) -/

theorem State.recommand_aspect (s : State) (e : BridgeEnd) : s.recommand.bridge.aspect e = s.bridge.aspectFor e := by
  obtain ⟨-, -, -, -, -, -, -, -, -, hA, hB, -⟩ := s.recommand_spec
  cases e
  · exact hA
  · exact hB

/-- R74: a GRANTED bridge without a hold shows GREEN at the entry end and RED at the other. -/
theorem Bridge.aspectFor_granted {b : Bridge} {g : Grant} (hg : b.grant = some g) (hs : b.state = .granted)
    (hh : b.holds.inForce = false) :
    b.aspectFor g.entryEnd = .green ∧ b.aspectFor (otherEnd g.entryEnd) = .red := by
  cases he : g.entryEnd <;> simp [Bridge.aspectFor, hg, hs, hh, otherEnd, he]

/-- R87, R112: what a grant makes of the visits and of the counts. -/
theorem State.grantTo_visits {q : QueueEntry} (hv : findVisit s.visits q.ident = some (pos, v)) :
    (s.grantTo q).visits = Table.set s.visits pos v.granted ∧ (s.grantTo q).inUse = some pos ∧
      (s.grantTo q).axles = s.axles.atGrant := by
  simp [State.grantTo, State.takeGrant, hv]

/-- R60, R63, R64: at a FREE bridge without a hold the entry is granted in the event that appends it. -/
theorem exec_reportArrival_granted (h : s.ready p 20 payload = true) (hfree : s.bridge.state = .free)
    (hheld : s.held = false) (hv : findVisit s.visits id = some (pos, v)) (hn : s.bridge.arrivals < 999999999)
    (htaken : reportArrival payload (s.hunt p) = .ok ((s.append v e).hunt p, .ok, .arrival (s.bridge.arrivals + 1))) :
    ∃ t, exec (.reportArrival p tag payload) s = .next t ∧
      t.replied p 20 tag .ok (.arrival (s.bridge.arrivals + 1)) = true ∧ t.bridge.state = .granted ∧
      t.bridge.grant = some { ident := v.ident, entryEnd := e } ∧ t.bridge.waiting = [] ∧
      t.bridge.arrivals = s.bridge.arrivals + 1 ∧
      t.bridge.grantTimer = some { secondsLeft := s.site.settings.grantTimeout, paused := false } ∧
      t.bridge.aspect e = .green ∧ t.bridge.aspect (otherEnd e) = .red ∧ t.inUse = some pos ∧
      Table.get? t.visits pos = some v.granted ∧
      (∀ q, q ≠ pos → Table.get? t.visits q = Table.get? s.visits q) ∧
      t.axles.entered = 0 ∧ t.axles.exited = 0 ∧ t.axles.disagreements = 0 ∧ t.axles.axleCount = false ∧
      t.ports = ((t.heard s (notesTo [.lane, .gatehouse] (.granted v.ident e))).answered p 20 tag .ok
        (.arrival (s.bridge.arrivals + 1))).ports ∧
      t = { s with bridge := t.bridge, axles := t.axles, visits := t.visits, inUse := t.inUse,
                   faults := t.faults, ports := t.ports, writes := t.writes } := by
  obtain ⟨-, hcalm⟩ := (s.ready_iff _ _ _).1 h
  obtain ⟨-, hout, hb, hnote⟩ := s.calm_iff.1 hcalm
  obtain ⟨hs, -, -⟩ := State.hunt_settled hcalm p
  obtain ⟨-, -, hempty, -⟩ := s.bridgeSettled_iff.1 hb
  obtain ⟨q, hqeq⟩ : ∃ q : QueueEntry, q = { ident := v.ident, entryEnd := e, arrival := s.bridge.arrivals + 1
                                             cls := s.effectiveClass v e, passes := 0 } := ⟨_, rfl⟩
  obtain ⟨hqid, hqend⟩ : q.ident = v.ident ∧ q.entryEnd = e := by rw [hqeq]; exact ⟨rfl, rfl⟩
  have hu : (s.append v e).hunt p = { s.hunt p with
      bridge := { s.bridge with waiting := [q], arrivals := s.bridge.arrivals + 1 } } := by
    rw [State.append_below v e hn, hempty hfree hheld, hqeq]
    cases p <;> rfl
  generalize (s.append v e).hunt p = u at htaken hu
  have hbridge : (s.hunt p).bridge = s.bridge := by simp
  have hholds : u.bridge.holds = (s.hunt p).bridge.holds := by rw [hu, hbridge]
  have hj : u.sourcesJudged := by
    refine State.sourcesJudged_congr (State.sourcesJudged_of_settled hs) hholds ?_ ?_ ?_ ?_ ?_ <;> rw [hu]
  obtain ⟨huout, husite, huaxles, huvisits⟩ :
      u.outbox = [] ∧ u.site = s.site ∧ u.axles = s.axles ∧ u.visits = s.visits := by
    rw [hu]
    simpa using hout
  have hsettle := State.settle_unheld_grants hj hholds (by rw [State.held_hunt, hheld]) (q := q)
    (by rw [hu]; exact hfree) (by rw [hu]; rfl)
  have hfound : findVisit u.visits q.ident = some (pos, v) := by
    rw [huvisits, hqid, findVisit_ident hv, hv]
  obtain ⟨hvisits, huse, haxles⟩ := State.grantTo_visits hfound
  have hgranted := u.grantTo_bridge q
  have hnews := u.grantTo_outbox q
  rw [hqid, hqend] at hgranted hnews
  obtain ⟨eb, -, ea, ev, ei, -, -, -⟩ := event_settle (s.hunt p) u
  obtain ⟨-, hcapture, hrun⟩ := event_resettled hj hholds
  have hframe := event_frame (s.hunt p) u
  have heventOut := event_outbox (s.hunt p) u
  have heventNote := event_commitNote (s.hunt p) u
  rw [hsettle] at eb ea ev ei
  rw [hbridge] at hsettle
  obtain ⟨t, ht, hreply, hports, hrest⟩ := request_event (tag := tag)
    (ns := notesTo [.lane, .gatehouse] (.granted v.ident e)) h htaken (by rw [hu])
    (by rw [hsettle, show (u.grantTo q).recommand.outbox = (u.grantTo q).outbox by simp, hnews, huout, List.nil_append])
  generalize event (s.hunt p) u = x at *
  obtain ⟨hwaiting, harrivals, hstate, -, hgrant, htimer, -⟩ := (u.grantTo q).recommand_spec
  have hunheld : (u.grantTo q).bridge.holds.inForce = false := by
    rw [hgranted]
    show u.held = false
    rw [State.held, hholds, hbridge]
    exact hheld
  obtain ⟨hgreen, hred⟩ := Bridge.aspectFor_granted (b := (u.grantTo q).bridge)
    (g := { ident := v.ident, entryEnd := e }) (by rw [hgranted]) (by rw [hgranted]) hunheld
  have htb : t.bridge = (u.grantTo q).recommand.bridge := by rw [hrest, ← eb]
  have hta : t.axles = s.axles.atGrant := by rw [hrest]; simp [ea, haxles, huaxles]
  have htv : t.visits = Table.set s.visits pos v.granted := by rw [hrest]; simp [ev, hvisits, huvisits]
  have hti : t.inUse = some pos := by rw [hrest]; simp [ei, huse]
  refine ⟨t, ht, hreply, ?_, ?_, ?_, ?_, ?_, ?_, ?_, hti, ?_, fun j hj => ?_, ?_, ?_, ?_, ?_, hports, ?_⟩
  · rw [htb, hstate, hgranted]
  · rw [htb, hgrant, hgranted]
  · rw [htb, hwaiting, hgranted, hu]
    simp [hqid]
  · rw [htb, harrivals, hgranted, hu]
  · rw [htb, htimer, hgranted, husite]
  · rw [htb, State.recommand_aspect]
    exact hgreen
  · rw [htb, State.recommand_aspect]
    exact hred
  · rw [htv, Table.get?_set_self]
  · rw [htv, Table.get?_set_other _ _ hj]
  · rw [hta]; rfl
  · rw [hta]; rfl
  · rw [hta]; rfl
  · rw [hta]; rfl
  · rw [hrest]
    refine State.eq_iff_fields.2 ?_
    simp only [hframe, heventOut, heventNote, hcapture, hrun, hout, hnote]
    rw [hu]
    simp

end

/-! ### Withdraw Arrival (R62) -/

theorem withdrawArrival_known {s : State} {payload : List Octet} {id : Ident} (hid : identAt payload 0 = some id) :
    withdrawArrival payload s =
      if ∃ q ∈ s.bridge.waiting, q.ident = id then
        .ok ({ s with bridge.waiting := s.bridge.waiting.filter (fun q => q.ident ≠ id) }, .ok, .empty)
      else .error .notQueued := by
  have hany : (s.bridge.waiting.any (fun q => q.ident = id)) = true ↔ ∃ q ∈ s.bridge.waiting, q.ident = id := by simp
  unfold withdrawArrival
  simp only [hid, orRefuse_refusal_cons, orRefuse_refusal_nil]
  by_cases hq : ∃ q ∈ s.bridge.waiting, q.ident = id
  · rw [if_pos hq, hany.2 hq]
    rfl
  · rw [if_neg hq, show s.bridge.waiting.any (fun q => q.ident = id) = false by simpa using hq]
    rfl

/-- R62: the entry of a queued ident is removed, another ident is refused. -/
theorem exec_withdrawArrival {s : State} {p : Port} {tag : Octet} {payload : List Octet} {id : Ident}
    (h : s.ready p 21 payload = true) (hid : identAt payload 0 = some id) :
    ((∀ q ∈ s.bridge.waiting, q.ident ≠ id) →
      exec (.withdrawArrival p tag payload) s = .next (s.answered p 21 tag .notQueued .empty)) ∧
    ((∃ q ∈ s.bridge.waiting, q.ident = id) →
      exec (.withdrawArrival p tag payload) s =
        .next (({ s with bridge.waiting := s.bridge.waiting.filter (fun q => q.ident ≠ id) } : State).answered
          p 21 tag .ok .empty)) := by
  have hknown := withdrawArrival_known (s := s.hunt p) hid
  rw [show (s.hunt p).bridge = s.bridge by simp] at hknown
  refine ⟨fun hnone => request_ready_refused h ?_, fun hq => ?_⟩
  · rw [hknown, if_neg fun hq => hq.elim fun q hq => hnone q hq.1 hq.2]
  · rw [if_pos hq] at hknown
    refine request_queues (w := s.bridge.waiting.filter (fun q => q.ident ≠ id)) (n := s.bridge.arrivals) h rfl
      (hknown.trans (by cases p <;> rfl)) fun hf hh => ?_
    obtain ⟨-, -, hb, -⟩ := s.calm_iff.1 ((s.ready_iff _ _ _).1 h).2
    obtain ⟨-, -, hempty, -⟩ := s.bridgeSettled_iff.1 hb
    rw [hempty hf hh]
    rfl

/-- Settles O31: an arrival and a withdrawal change the queues alone, but for an arrival at a FREE bridge without a
hold, which is granted in the event that appends it. -/
theorem arrivalsQueueAndAreGranted : Obligations.ArrivalsQueueAndAreGranted := by
  unfold Obligations.ArrivalsQueueAndAreGranted
  refine ⟨fun s v e => ?_, fun s q hheld hfree hq => ?_, ?_, ?_, fun s p tag payload =>
    ⟨fun h => ⟨fun hbad => ?_, fun id e hid he => ⟨fun hv => ?_, fun pos v hv => ?_⟩⟩, fun h => ?_⟩⟩
  · rw [State.effectiveClass_eq]
    cases e <;> rfl
  · obtain ⟨hmem, hbest⟩ := selectEntry_spec hq
    rw [State.grantIfDue_due hheld hfree hq, State.grantTo_bridge, State.grantTo_outbox]
    exact ⟨hmem, hbest, rfl, rfl, List.map_congr_left fun x _ => x.promoted_eq⟩
  · exact fun p => by cases p <;> decide
  · exact fun p => by cases p <;> decide
  · exact request_ready_refused h (reportArrival_malformed hbad)
  · exact request_ready_refused h (reportArrival_unknown hid he (by simpa using hv))
  · have hknown := reportArrival_known (s := s.hunt p) hid he (pos := pos) (v := v) (by simpa using hv)
    rw [State.append_hunt, show (s.hunt p).bridge = s.bridge by simp] at hknown
    refine ⟨fun hp => ?_, fun hp hd => ?_, fun hp hq hg => ⟨fun hfull => ?_, fun hroom hlast hbusy => ?_,
      fun hroom hnext => ⟨fun hbusy => ?_, fun hfree hheld => ?_⟩⟩⟩
    · exact request_ready_refused h (by rw [hknown, if_pos hp])
    · exact request_ready_refused h (by rw [hknown, if_neg (by simp [hp]), if_pos hd])
    all_goals
      have hnew : ¬((∃ q ∈ s.bridge.waiting, q.ident = id) ∨ s.bridge.grant.map (·.ident) = some id) := by
        rintro (⟨q, hmem, heq⟩ | heq)
        · exact hq q hmem heq
        · exact hg heq
      rw [if_neg (by simp [hp]), if_neg hnew] at hknown
    · exact request_ready_refused h (by rw [hknown, if_pos hfull])
    all_goals rw [if_neg (Nat.not_le.2 hroom)] at hknown
    · have hrenumber : s.bridge.renumber.arrivals = s.bridge.waiting.length := by
        simp [Bridge.renumber, Nat.not_lt.2 hlast]
      rw [hrenumber] at hknown
      rw [← State.append_renumbers v e hlast]
      exact request_queues h (State.append_renumbers v e hlast) hknown fun hf hh => absurd hbusy (by simp [hf, hh])
    all_goals
      have hrenumber : s.bridge.renumber.arrivals = s.bridge.arrivals := by simp [Bridge.renumber, hnext]
      rw [hrenumber] at hknown
    · rw [← State.append_below v e hnext]
      exact request_queues h (State.append_below v e hnext) hknown fun hf hh => absurd hbusy (by simp [hf, hh])
    · exact exec_reportArrival_granted h hfree hheld hv hnext hknown
  · exact ⟨fun hbad => request_ready_refused h (by rw [withdrawArrival, hbad]), fun id => exec_withdrawArrival h⟩

end Sys2Proof.Machine
end

