-- ==== Sys2Proof/Proofs/FaultRequests.lean ====
section
/-! Write Fault Policy, the acknowledgements and Clear Lockout (R182, R185, R186, R189), with what an event leaves of
the marks of the fault register. -/

namespace Sys2Proof.Machine

/-! ### The marks of the register through an event -/

/-- From `s` to `t` an entry keeps its mark and count, and its condition comes no more than it goes. -/
def State.marksKept (s t : State) (k : FaultKey) : Prop :=
  (t.faultEntry k).outstanding = (s.faultEntry k).outstanding ∧ (t.faultEntry k).count = (s.faultEntry k).count ∧
    ((t.faultEntry k).present = true → (s.faultEntry k).present = true)

theorem State.marksKept.of_eq {s t : State} {k : FaultKey} (h : t.faultEntry k = s.faultEntry k) : s.marksKept t k := by
  simp [State.marksKept, h]

theorem State.marksKept.trans {s t u : State} {k : FaultKey} (h : s.marksKept t k) (h' : t.marksKept u k) :
    s.marksKept u k :=
  ⟨h'.1.trans h.1, h'.2.1.trans h.2.1, fun hp => h.2.2 (h'.2.2 hp)⟩

theorem State.marksKept_clearFault (s : State) {k j : FaultKey} (hk : k.inst < 32) (hj : j.inst < 32) :
    s.marksKept (s.clearFault j) k := by
  by_cases h : k.place = j.place
  · obtain rfl := FaultKey.place_injective hk hj h
    simp [State.marksKept, State.faultEntry_clearFault]
  · exact .of_eq (s.clearFault_other h)

/-- R75: the comparison of the lamps takes conditions away and leaves marks and counts. -/
theorem State.marksKept_compareLamps (s : State) (e : BridgeEnd) {k : FaultKey} (hk : k.inst < 32) :
    s.marksKept (s.compareLamps e) k := by
  have hf : ∀ on, s.marksKept (s.setFeedback e on) k := fun on => .of_eq (State.faultEntry_congr (by simp) k)
  unfold State.compareLamps
  split
  · exact (hf false).trans (State.marksKept_clearFault _ hk (by cases e <;> decide))
  · split
    · exact .of_eq rfl
    · exact hf true

theorem State.marksKept_settlePass (s : State) (before : Holds) {k : FaultKey} (hk : k.inst < 32) :
    s.marksKept (s.settlePass before) k := by
  have hrecommand : ∀ t : State, t.marksKept t.recommand k := by
    intro t
    unfold State.recommand
    refine State.marksKept.trans ?_ (State.marksKept_compareLamps _ .b hk)
    exact State.marksKept.trans (.of_eq rfl) (State.marksKept_compareLamps _ .a hk)
  unfold State.settlePass
  exact (State.marksKept.of_eq (State.faultEntry_congr (by simp) k)).trans (hrecommand _)

/-- The end of an event leaves every mark and count of the register, and makes no condition present. -/
theorem event_marksKept (s u : State) {k : FaultKey} (hk : k.inst < 32) : u.marksKept (event s u) k := by
  obtain ⟨-, -, -, -, -, -, hf, -⟩ := event_settle s u
  refine State.marksKept.trans (t := u.settle s.bridge.holds) ?_ (.of_eq (State.faultEntry_congr (congrArg _ hf) k))
  unfold State.settle
  simp only []
  split
  · exact u.marksKept_settlePass _ hk
  · exact (u.marksKept_settlePass _ hk).trans (State.marksKept_settlePass _ _ hk)

/-! ### Write Fault Policy (R182) -/

section
variable {s : State} {p : Port} {tag : Octet} {payload : List Octet}

/-- The policy of a class that has one to write, written. -/
theorem State.policy_write (s : State) {c : FaultClass} (pol : Policy) (h : c.metrological = false) :
    ({ s with site.policies := s.site.policies.write c pol } : State).policy c = pol := by
  cases c <;> first | rfl | cases h

theorem State.policy_write_other (s : State) {c d : FaultClass} (pol : Policy) (h : d ≠ c) :
    ({ s with site.policies := s.site.policies.write c pol } : State).policy d = s.policy d := by
  cases c <;> cases d <;> first | rfl | exact absurd rfl h

/-- R182: a policy of a class that is not metrological written. -/
theorem exec_writeFaultPolicy {c : FaultClass} {pol : Policy} (h : s.ready p 90 payload = true)
    (hc : faultClassOf (natAt payload 0 1) = some c) (hp : policyOf (natAt payload 1 1) = some pol)
    (hm : c.metrological = false) :
    ∃ t, exec (.writeFaultPolicy p tag payload) s = .next t ∧ t.replied p 90 tag .ok .empty = true ∧
      t.policy c = pol ∧ (∀ d, d ≠ c → t.policy d = s.policy d) ∧ t.site.settings = s.site.settings ∧
      t.site.clock = s.site.clock ∧ t.site.catalogue = s.site.catalogue ∧
      t.bridge.holds.fault = t.faultJudged ∧
      t = { s with site := t.site, bridge := t.bridge, axles := t.axles, capture := t.capture,
                   visits := t.visits, inUse := t.inUse, run := t.run, faults := t.faults, ports := t.ports,
                   writes := t.writes } := by
  obtain ⟨-, hcalm⟩ := (s.ready_iff _ _ _).1 h
  obtain ⟨-, hout, -, hn⟩ := s.calm_iff.1 hcalm
  have htaken : writeFaultPolicy payload (s.hunt p) =
      .ok ({ s.hunt p with site.policies := (s.hunt p).site.policies.write c pol }, .ok, .empty) := by
    simp [writeFaultPolicy, hc, hp, hm, orRefuse]
  obtain ⟨t, ht, hreply, -, hrest⟩ := request_event (tag := tag) h htaken rfl rfl
  have hfault := faultJudged_of_request hrest
  have hsite : t.site = { s.site with policies := s.site.policies.write c pol } := by
    rw [hrest]
    simp
  have hframe : t = { s with
      site := t.site, bridge := t.bridge, axles := t.axles, capture := t.capture, visits := t.visits, inUse := t.inUse,
      run := t.run, faults := t.faults, ports := t.ports, writes := t.writes } := by
    refine State.eq_iff_fields.2 ?_
    rw [hrest]
    simp [hout, hn]
  have hpolicy : ∀ d, t.policy d = ({ s with site.policies := s.site.policies.write c pol } : State).policy d := by
    intro d
    unfold State.policy
    rw [hsite]
  refine ⟨t, ht, hreply, ?_, fun d hd => ?_, by rw [hsite], by rw [hsite], by rw [hsite], hfault, hframe⟩
  · rw [hpolicy, s.policy_write pol hm]
  · rw [hpolicy, s.policy_write_other pol hd]

/-! ### Acknowledge Metrological Fault (R185) -/

/-- R185: the flag cleared. -/
theorem exec_acknowledgeMetrologicalFault {r : RaiseRecord} (h : s.ready p 91 payload = true)
    (hr : s.cal.flag = some r) :
    ∃ t, exec (.acknowledgeMetrologicalFault p tag payload) s = .next t ∧
      t.replied p 91 tag .ok (.raise r) = true ∧ t.cal = { s.cal with flag := none } ∧
      t.bridge.holds.fault = t.faultJudged ∧
      t.ports = ((t.heard s (s.grantNews t)).answered p 91 tag .ok (.raise r)).ports ∧
      t = { s with cal := t.cal, bridge := t.bridge, axles := t.axles, visits := t.visits, inUse := t.inUse,
                   faults := t.faults, ports := t.ports, writes := t.writes } := by
  obtain ⟨-, hcalm⟩ := (s.ready_iff _ _ _).1 h
  obtain ⟨hs, hout, -⟩ := State.hunt_settled hcalm p
  obtain ⟨-, hout', -, hn⟩ := s.calm_iff.1 hcalm
  have hbridge : (s.hunt p).bridge = s.bridge := by simp
  have htaken : acknowledgeMetrological (s.hunt p) = .ok ({ s.hunt p with cal.flag := none }, .ok, .raise r) := by
    simp [acknowledgeMetrological, hr]
  have hwithin : ({ s.hunt p with cal.flag := none } : State).judgeSources.bridge.holds.within s.bridge.holds := by
    rw [← hbridge]
    refine State.within_of_settled hs rfl id rfl fun hj => ?_
    simp only [State.faultJudged, State.flagSet, Option.isSome_none, Bool.or_false] at hj
    simp only [State.faultJudged, Bool.or_eq_true] at hj ⊢
    rcases hj with (hj | hj) | hj
    · exact .inl (.inl (.inl hj))
    · exact .inl (.inr hj)
    · exact .inr hj
  obtain ⟨t, ht, hreply, hports, hevent, hrest⟩ :=
    request_within (tag := tag) h htaken rfl hwithin (congrArg Bridge.state hbridge) (congrArg Bridge.waiting hbridge)
  rw [show ({ s.hunt p with cal.flag := none } : State).outbox = [] from hout, List.nil_append] at hports
  refine ⟨t, ht, hreply, ?_, faultJudged_of_request hevent, hports, ?_⟩
  · rw [hrest]
    simp
  · rw [hrest]
    refine State.eq_iff_fields.2 ?_
    simp [hout', hn]

/-! ### Acknowledge Fault (R186) -/

/-- R186: the instances that a request names are of its class. -/
theorem namedInstances_spec {c : FaultClass} {n : Nat} {ks : List FaultKey} (h : namedInstances c n = some ks) :
    ∀ k ∈ ks, k.cls = c ∧ k.inst < 32 := by
  have hinst : ∀ i ∈ c.instances, i < 32 := by cases c <;> decide
  unfold namedInstances at h
  split at h
  · cases h
    intro k hk
    obtain ⟨i, hi, rfl⟩ := List.mem_map.1 hk
    exact ⟨rfl, hinst i hi⟩
  · split at h
    · next hn =>
      cases h
      intro k hk
      rw [List.mem_singleton.1 hk]
      exact ⟨rfl, hinst n (List.contains_iff_mem.1 hn)⟩
    · cases h

/-- The entry that an acknowledgement makes of the one it finds (R186). -/
def FaultEntry.acknowledged (f : FaultEntry) (region : Bool) : FaultEntry :=
  { f with outstanding := false, present := f.present && !region }

theorem State.faultEntry_acknowledge (s : State) (k : FaultKey) :
    (s.acknowledge k).faultEntry k = (s.faultEntry k).acknowledged k.cls.region :=
  s.faultEntry_setFaultEntry k _

theorem State.faultEntry_acknowledge_other (s : State) {j k : FaultKey} (h : j.place ≠ k.place) :
    (s.acknowledge k).faultEntry j = s.faultEntry j :=
  s.faultEntry_setFaultEntry_other _ h

/-- The entries after an acknowledgement of some instances. -/
theorem State.faultEntry_acknowledgeAll (s : State) (l : List FaultKey) {k : FaultKey} (hk : k.inst < 32)
    (hl : ∀ j ∈ l, j.inst < 32) :
    (l.foldl State.acknowledge s).faultEntry k =
      if k ∈ l then (s.faultEntry k).acknowledged k.cls.region else s.faultEntry k := by
  induction l generalizing s with
  | nil => rfl
  | cons j rest ih =>
    rw [List.foldl_cons, ih _ (fun i hi => hl i (List.mem_cons_of_mem _ hi))]
    by_cases hkj : k = j
    · subst hkj
      rw [s.faultEntry_acknowledge, if_pos List.mem_cons_self]
      simp [FaultEntry.acknowledged]
    · have hplace : k.place ≠ j.place := fun hp => hkj (FaultKey.place_injective hk (hl j List.mem_cons_self) hp)
      rw [s.faultEntry_acknowledge_other hplace]
      simp only [List.mem_cons, hkj, false_or]

/-- R183: an acknowledgement gives the FAULT source no cause. -/
theorem State.acknowledge_faultJudged (s : State) (k : FaultKey) (h : (s.acknowledge k).faultJudged = true) :
    s.faultJudged = true := by
  have hpol : ∀ c, (s.acknowledge k).policy c = s.policy c := by intro c; cases c <;> rfl
  have hpresent : (s.acknowledge k).heldByPresent = true → s.heldByPresent = true := by
    unfold State.heldByPresent
    simp only [List.any_eq_true, hpol]
    rintro ⟨e, he, hheld⟩
    rcases Table.mem_set he with rfl | he
    · simp only [Bool.and_eq_true] at hheld
      obtain ⟨⟨hp, -⟩, hc⟩ := hheld
      exact ⟨_, s.mem_register_of_present hp, by simp only [hp, hc, Bool.and_true]⟩
    · exact ⟨e, he, hheld⟩
  have hmark : (s.acknowledge k).heldByMark = true → s.heldByMark = true := by
    unfold State.heldByMark
    simp only [List.any_eq_true, hpol]
    rintro ⟨e, he, hheld⟩
    rcases Table.mem_set he with rfl | he
    · simp at hheld
    · exact ⟨e, he, hheld⟩
  simp only [State.faultJudged, Bool.or_eq_true] at h ⊢
  rcases h with ((h | h) | h) | h
  · exact .inl (.inl (.inl (hpresent h)))
  · exact .inl (.inl (.inr h))
  · exact .inl (.inr (hmark h))
  · exact .inr h

theorem State.acknowledgeAll_faultJudged (l : List FaultKey) (s : State)
    (h : (l.foldl State.acknowledge s).faultJudged = true) : s.faultJudged = true := by
  induction l generalizing s with
  | nil => exact h
  | cons k rest ih => exact s.acknowledge_faultJudged k (ih _ h)

/-- The instances of a list whose marks are outstanding. -/
def State.marked (s : State) (ks : List FaultKey) : List FaultKey := ks.filter (fun k => (s.faultEntry k).outstanding)

theorem State.mem_marked {ks : List FaultKey} {k : FaultKey} :
    k ∈ s.marked ks ↔ k ∈ ks ∧ (s.faultEntry k).outstanding = true := List.mem_filter

theorem acknowledgeFault_named {c : FaultClass} {ks : List FaultKey} (hc : faultClassOf (natAt payload 0 1) = some c)
    (hm : c.metrological = false) (hks : namedInstances c (natAt payload 1 1) = some ks) :
    acknowledgeFault payload s =
      if s.marked ks = [] then .error .nothingOutstanding
      else .ok ((s.marked ks).foldl State.acknowledge s, .ok, .acknowledged (s.marked ks).length) := by
  simp [acknowledgeFault, hc, hm, hks, State.marked]

/-- R186: an acknowledgement that finds an outstanding mark. -/
theorem exec_acknowledgeFault {c : FaultClass} {ks : List FaultKey} (h : s.ready p 92 payload = true)
    (hc : faultClassOf (natAt payload 0 1) = some c) (hm : c.metrological = false)
    (hks : namedInstances c (natAt payload 1 1) = some ks) (hmark : ∃ k ∈ ks, (s.faultEntry k).outstanding = true) :
    ∃ t, exec (.acknowledgeFault p tag payload) s = .next t ∧
      t.replied p 92 tag .ok (.acknowledged (s.marked ks).length) = true ∧
      (∀ k ∈ ks, (t.faultEntry k).outstanding = false ∧
        (c.region = true → (s.faultEntry k).outstanding = true → (t.faultEntry k).present = false) ∧
        (t.faultEntry k).count = (s.faultEntry k).count) ∧
      (∀ k, k ∉ ks → k.inst < 32 →
        (t.faultEntry k).outstanding = (s.faultEntry k).outstanding ∧
        (t.faultEntry k).count = (s.faultEntry k).count) ∧
      t.bridge.holds.fault = t.faultJudged ∧
      t.ports = ((t.heard s (s.grantNews t)).answered p 92 tag .ok (.acknowledged (s.marked ks).length)).ports ∧
      t = { s with bridge := t.bridge, axles := t.axles, visits := t.visits, inUse := t.inUse,
                   faults := t.faults, ports := t.ports, writes := t.writes } := by
  obtain ⟨-, hcalm⟩ := (s.ready_iff _ _ _).1 h
  obtain ⟨hs, hout, -⟩ := State.hunt_settled hcalm p
  obtain ⟨-, hout', -, hn⟩ := s.calm_iff.1 hcalm
  have hbridge : (s.hunt p).bridge = s.bridge := by simp
  have hentry : ∀ k, (s.hunt p).faultEntry k = s.faultEntry k := State.faultEntry_congr (by simp)
  have hmarked : (s.hunt p).marked ks = s.marked ks := by simp only [State.marked, hentry]
  have hnonempty : s.marked ks ≠ [] := by
    obtain ⟨k, hk, ho⟩ := hmark
    exact List.ne_nil_of_mem (State.mem_marked.2 ⟨hk, ho⟩)
  have htaken := acknowledgeFault_named (s := s.hunt p) hc hm hks
  rw [hmarked, if_neg hnonempty] at htaken
  have hwithin :
      ((s.marked ks).foldl State.acknowledge (s.hunt p)).judgeSources.bridge.holds.within s.bridge.holds := by
    rw [← hbridge]
    exact State.within_of_settled hs (by simp) (by simp [State.accessOpen]) (by simp)
      (State.acknowledgeAll_faultJudged _ _)
  obtain ⟨t, ht, hreply, hports, hevent, hrest⟩ :=
    request_within (tag := tag) h htaken (by simp) hwithin (by simp) (by simp)
  have hinst := namedInstances_spec hks
  have hacked := fun (k : FaultKey) (hk : k.inst < 32) => State.faultEntry_acknowledgeAll (s.hunt p) (s.marked ks) hk
    (fun j hj => (hinst j (State.mem_marked.1 hj).1).2)
  have hkept : ∀ k : FaultKey, k.inst < 32 → ((s.marked ks).foldl State.acknowledge (s.hunt p)).marksKept t k := by
    intro k hk
    refine (event_marksKept (s.hunt p) _ hk).trans (.of_eq (State.faultEntry_congr ?_ k))
    rw [hevent]
  rw [show ((s.marked ks).foldl State.acknowledge (s.hunt p)).outbox = [] by simp [hout'], List.nil_append] at hports
  refine ⟨t, ht, hreply, fun k hk => ?_, fun k hk h32 => ?_, faultJudged_of_request hevent, hports, ?_⟩
  · obtain ⟨hcls, h32⟩ := hinst k hk
    obtain ⟨ho, hcount, hpresent⟩ := hkept k h32
    rw [hacked k h32, hentry] at ho hcount hpresent
    by_cases hmk : (s.faultEntry k).outstanding = true
    · rw [if_pos (State.mem_marked.2 ⟨hk, hmk⟩)] at ho hcount hpresent
      refine ⟨ho, fun hregion _ => ?_, hcount⟩
      rw [hcls, hregion] at hpresent
      simpa [FaultEntry.acknowledged] using hpresent
    · rw [if_neg (fun hin => hmk (State.mem_marked.1 hin).2)] at ho hcount
      exact ⟨by rw [ho]; simpa using hmk, fun _ hmk' => absurd hmk' hmk, hcount⟩
  · obtain ⟨ho, hcount, -⟩ := hkept k h32
    rw [hacked k h32, if_neg (fun hin => hk (State.mem_marked.1 hin).1), hentry] at ho hcount
    exact ⟨ho, hcount⟩
  · rw [hrest]
    refine State.eq_iff_fields.2 ?_
    simp [hout', hn]

/-! ### Clear Lockout (R189) -/

/-- R161: the notice of an append is the news of the log it leaves. -/
theorem State.noteNearFull_outbox (s : State) : s.noteNearFull.outbox = s.outbox ++ s.nearFullNews := by
  unfold State.noteNearFull State.nearFullNews
  split <;> simp [State.auditFree]

/-- R161: that news depends on the log and on what has a claim on it. -/
theorem State.nearFullNews_congr {s t : State} (ha : s.audit = t.audit) (hc : s.cal = t.cal)
    (hs : s.staged = t.staged) (hr : s.run = t.run) : s.nearFullNews = t.nearFullNews := by
  unfold State.nearFullNews State.headroom State.auditClaims State.auditFree State.locked State.accessOpen
  rw [ha, hc, hs, hr]

/-- R189: lockout ended, with its record and before its notices. -/
def State.unlocked (s : State) (code : LockCode) : State :=
  { s.appendAtEpoch (.lockoutClear code) with
    cal.lockout := none
    cal.lockRecord := s.cal.lockRecord.map (fun r => { r with cleared := some s.audit.next }) }

theorem State.unlock_eq (s : State) (code : LockCode) :
    s.unlock code =
      (s.unlocked code).noteNearFull.postAll [.gatehouse, .lane, .metrology] (.lockoutCleared code s.audit.next) := by
  simp [State.unlock, State.unlocked]

/-- R161, R189: what Clear Lockout makes of its state. -/
theorem State.unlock_spec (s : State) (code : LockCode) :
    (s.unlock code).cal = { s.cal with
        lockout := none
        lockRecord := s.cal.lockRecord.map (fun r => { r with cleared := some s.audit.next }) } ∧
      (s.unlock code).audit =
        { records := s.audit.records ++ [{ number := s.audit.next, time := s.site.clock, epochBefore := s.cal.epoch,
                                           epochAfter := s.cal.epoch, body := .lockoutClear code }]
          next := s.audit.next + 1
          epochMark := max s.audit.epochMark s.cal.epoch } ∧
      (s.unlock code).outbox = s.outbox ++ (s.unlock code).nearFullNews ++
        notesTo [.gatehouse, .lane, .metrology] (.lockoutCleared code s.audit.next) := by
  refine ⟨by simp [State.unlock], by simp [State.unlock, State.appendAtEpoch, State.appendAudit], ?_⟩
  have hnews : (s.unlock code).nearFullNews = (s.unlocked code).nearFullNews :=
    State.nearFullNews_congr (by simp [State.unlock_eq]) (by simp [State.unlock_eq]) (by simp [State.unlock_eq])
      (by simp [State.unlock_eq])
  rw [hnews]
  simp [State.unlock_eq, State.noteNearFull_outbox, notesTo, State.unlocked]

theorem clearLockout_locked {code : LockCode} (h : s.cal.lockout = some code) :
    clearLockout s =
      if s.metrologicalPresent = true ∨ s.cal.flag ≠ none ∨ s.staged ≠ none then .error .faultsActive
      else if s.lockoutMayAppend = false then .error .logFull
      else .ok (s.unlock code, .ok, .recordNumber s.audit.next) := by
  unfold clearLockout
  rw [h]
  simp only [orRefuse_refusal_cons, orRefuse_refusal_nil, State.flagSet, State.accessOpen, Bool.or_eq_true,
    Option.isSome_iff_ne_none, or_assoc, Bool.not_eq_true']

/-- R189: Clear Lockout where nothing refuses it. -/
theorem exec_clearLockout {code : LockCode} (h : s.ready p 93 payload = true) (hlock : s.cal.lockout = some code)
    (hpresent : s.metrologicalPresent = false) (hflag : s.cal.flag = none) (hstaged : s.staged = none)
    (hmay : s.lockoutMayAppend = true) :
    ∃ t, exec (.clearLockout p tag payload) s = .next t ∧
      t.replied p 93 tag .ok (.recordNumber s.audit.next) = true ∧
      t.cal = { s.cal with
        lockout := none
        lockRecord := s.cal.lockRecord.map (fun r => { r with cleared := some s.audit.next }) } ∧
      t.audit = { records := s.audit.records ++ [{ number := s.audit.next, time := s.site.clock,
                                                    epochBefore := s.cal.epoch, epochAfter := s.cal.epoch,
                                                    body := .lockoutClear code }]
                  next := s.audit.next + 1
                  epochMark := max s.audit.epochMark s.cal.epoch } ∧
      t.bridge.holds.fault = t.faultJudged ∧
      t.ports = ((t.heard s (t.nearFullNews ++ notesTo [.gatehouse, .lane, .metrology]
          (.lockoutCleared code s.audit.next) ++ s.grantNews t)).answered p 93 tag .ok
        (.recordNumber s.audit.next)).ports ∧
      t = { s with cal := t.cal, audit := t.audit, bridge := t.bridge, axles := t.axles, visits := t.visits,
                   inUse := t.inUse, faults := t.faults, ports := t.ports, writes := t.writes } := by
  obtain ⟨-, hcalm⟩ := (s.ready_iff _ _ _).1 h
  obtain ⟨hs, hout, -⟩ := State.hunt_settled hcalm p
  obtain ⟨-, hout', -, hn⟩ := s.calm_iff.1 hcalm
  have hbridge : (s.hunt p).bridge = s.bridge := by simp
  have hnext : (s.hunt p).audit = s.audit ∧ (s.hunt p).site = s.site ∧ (s.hunt p).cal = s.cal := by simp
  have hsame : (s.hunt p).metrologicalPresent = false ∧ (s.hunt p).lockoutMayAppend = true := by
    cases p <;> exact ⟨hpresent, hmay⟩
  have htaken : clearLockout (s.hunt p) =
      .ok ((s.hunt p).unlock code, .ok, .recordNumber s.audit.next) := by
    rw [clearLockout_locked (s := s.hunt p) (code := code) (by simpa using hlock)]
    simp [hsame, hflag, hstaged]
  have hfault : ((s.hunt p).unlock code).faultJudged = true → (s.hunt p).faultJudged = true := fun _ =>
    State.faultJudged_of_locked (by simp [State.locked, hlock])
  have hwithin : ((s.hunt p).unlock code).judgeSources.bridge.holds.within s.bridge.holds := by
    rw [← hbridge]
    exact State.within_of_settled hs (by simp) (by simp [State.accessOpen]) (by simp) hfault
  obtain ⟨t, ht, hreply, hports, hevent, hrest⟩ :=
    request_within (tag := tag) h htaken (by simp) hwithin (by simp) (by simp)
  obtain ⟨hcal, haudit, hbox⟩ := (s.hunt p).unlock_spec code
  have hframe := (s.hunt p).unlock_frame code
  rw [hnext.1, hnext.2.2] at hcal
  rw [hnext.1, hnext.2.1, hnext.2.2] at haudit
  rw [hout, List.nil_append, hnext.1] at hbox
  generalize (s.hunt p).unlock code = u at *
  have hnear : u.nearFullNews = t.nearFullNews := by
    rw [hrest]
    rfl
  rw [hbox, hnear] at hports
  refine ⟨t, ht, hreply, by rw [hrest, ← hcal], by rw [hrest, ← haudit], faultJudged_of_request hevent, hports, ?_⟩
  rw [hrest]
  refine State.eq_iff_fields.2 ?_
  simp [hframe, hout', hn]

/-- Settles O53: each request is an event; those that acknowledge or clear give the FAULT source no cause. -/
theorem faultRequests : Obligations.FaultRequests := by
  unfold Obligations.FaultRequests
  refine ⟨fun k hk p => ?_, fun k hk p => ?_, fun s p tag payload => ⟨fun h => ⟨fun hbad => ?_, fun c pol hc hp =>
    ⟨fun hm => ?_, exec_writeFaultPolicy h hc hp⟩⟩, fun h => ⟨fun hnone => ?_, fun r =>
    exec_acknowledgeMetrologicalFault h⟩, fun h => ⟨fun c hc hm ks hks => ⟨fun hclear => ?_,
    exec_acknowledgeFault h hc hm hks⟩, fun hbad => ?_⟩, fun h => ⟨fun hnone => ?_, fun code hlock =>
    ⟨fun hactive => ?_, fun hpresent hflag hstaged hfull => ?_, exec_clearLockout h hlock⟩⟩⟩⟩
  · fin_cases hk <;> cases p <;> decide
  · fin_cases hk <;> cases p <;> decide
  · refine request_ready_refused h ?_
    unfold writeFaultPolicy
    rcases hbad with hbad | hbad
    · rw [hbad]
    · rw [hbad]
      cases faultClassOf (natAt payload 0 1) <;> rfl
  · refine request_ready_refused h ?_
    simp [writeFaultPolicy, hc, hp, hm, orRefuse]
  · refine request_ready_refused h ?_
    simp [acknowledgeMetrological, hnone]
  · refine request_ready_refused h ?_
    have hempty : (s.hunt p).marked ks = [] := by
      refine List.filter_eq_nil_iff.2 fun k hk => ?_
      rw [State.faultEntry_congr (t := s) (by simp) k, hclear k hk]
      nofun
    rw [acknowledgeFault_named hc hm hks, if_pos hempty]
  · refine request_ready_refused h ?_
    unfold acknowledgeFault
    cases hc : faultClassOf (natAt payload 0 1) with
    | none => rfl
    | some c =>
      rcases hbad c hc with hm | hks
      · simp [hm]
      · simp [hks]
  · refine request_ready_refused h ?_
    simp [clearLockout, hnone]
  · refine request_ready_refused h ?_
    have hsame : (s.hunt p).metrologicalPresent = s.metrologicalPresent := by cases p <;> rfl
    rw [clearLockout_locked (code := code) (by simpa using hlock), if_pos (by simpa [hsame] using hactive)]
  · refine request_ready_refused h ?_
    have hsame : (s.hunt p).metrologicalPresent = false ∧ (s.hunt p).lockoutMayAppend = false := by
      cases p <;> exact ⟨hpresent, hfull⟩
    rw [clearLockout_locked (code := code) (by simpa using hlock)]
    simp [hsame, hflag, hstaged]

end

end Sys2Proof.Machine
end

