-- ==== Sys2Proof/Proofs/AxlePassage.lean ====
section
/-! What a treadle event that crosses the bridge makes of the state (R66, R82 to R84, R86, R104, R168), and what the
settling of an event leaves of a bridge that is not FREE. -/

namespace Sys2Proof.Machine

/-! ### The settling of an event at a bridge that is not FREE -/

/-- From `s` to `t` the bridge keeps its state, its queue, its grant and its marks, and no grant timer starts. -/
structure State.StaysAtBridge (s t : State) : Prop where
  state : t.bridge.state = s.bridge.state
  waiting : t.bridge.waiting = s.bridge.waiting
  grant : t.bridge.grant = s.bridge.grant
  advance : t.bridge.advance = s.bridge.advance
  withheld : t.bridge.withheld = s.bridge.withheld
  untimed : s.bridge.grantTimer = none → t.bridge.grantTimer = none

theorem State.StaysAtBridge.trans {s t u : State} (h : s.StaysAtBridge t) (k : t.StaysAtBridge u) : s.StaysAtBridge u :=
  ⟨k.state.trans h.state, k.waiting.trans h.waiting, k.grant.trans h.grant, k.advance.trans h.advance,
    k.withheld.trans h.withheld, fun hn => k.untimed (h.untimed hn)⟩

theorem State.StaysAtBridge.of_bridge {s t : State} (h : t.bridge = s.bridge) : s.StaysAtBridge t :=
  ⟨by rw [h], by rw [h], by rw [h], by rw [h], by rw [h], by rw [h]; exact id⟩

/-- R77, R78: what follows a change of the hold set moves the grant timer alone, and starts none. -/
theorem State.followHold_staysAtBridge (s : State) (before : Holds) : s.StaysAtBridge (s.followHold before) := by
  have hb := s.followHold_bridge before
  refine ⟨by rw [hb], by rw [hb], by rw [hb], by rw [hb], by rw [hb], fun hn => ?_⟩
  unfold State.followHold
  split
  · simp [State.pauseGrantTimer, hn]
  · split
    · simp [State.pauseGrantTimer, hn]
    · exact hn

theorem State.settlePass_staysAtBridge {s : State} (before : Holds) (h : s.bridge.state ≠ .free) :
    s.StaysAtBridge (s.settlePass before) := by
  have hjudge : s.StaysAtBridge s.judgeSources := ⟨rfl, rfl, rfl, rfl, rfl, id⟩
  have hfollow := hjudge.trans (s.judgeSources.followHold_staysAtBridge before)
  have hpoint : s.StaysAtBridge ((s.judgeSources.followHold before).followPointSources before) :=
    hfollow.trans (.of_bridge (by simp))
  unfold State.settlePass
  generalize (s.judgeSources.followHold before).followPointSources before = f at hpoint ⊢
  rw [State.grantIfDue_not_free (by rw [hpoint.state]; exact h)]
  obtain ⟨hwaiting, -, hstate, -, hgrant, htimer, hadvance, hwithheld, -⟩ := f.recommand_spec
  exact hpoint.trans ⟨hstate, hwaiting, hgrant, hadvance, hwithheld, fun hn => htimer.trans hn⟩

/-- R63: at a bridge that is not FREE an event grants nobody, whatever becomes of the hold set. -/
theorem event_staysAtBridge (s : State) {u : State} (h : u.bridge.state ≠ .free) : u.StaysAtBridge (event s u) := by
  obtain ⟨hb, -⟩ := event_settle s u
  have hsettle : u.StaysAtBridge (u.settle s.bridge.holds) := by
    have hfirst := State.settlePass_staysAtBridge s.bridge.holds h
    unfold State.settle
    simp only []
    split
    · exact hfirst
    · exact hfirst.trans (State.settlePass_staysAtBridge _ (by rw [hfirst.state]; exact h))
  exact hsettle.trans (.of_bridge hb)

/-- R74: the aspects after an event are those that its bridge commands. -/
theorem event_aspects (s u : State) :
    (event s u).bridge.aspectA = (event s u).bridge.aspectFor .a ∧
      (event s u).bridge.aspectB = (event s u).bridge.aspectFor .b := by
  obtain ⟨-, -, -, hA, hB, -⟩ := (event s u).bridgeSettled_iff.1 (event_bridgeSettled s u)
  exact ⟨hA, hB⟩

theorem Bridge.aspectFor_ungranted {b : Bridge} (f : BridgeEnd) (h : b.grant = none) : b.aspectFor f = .red := by
  unfold Bridge.aspectFor
  rw [h]

theorem Bridge.aspectFor_occupied {b : Bridge} (f : BridgeEnd) (h : b.state = .occupied) (ha : b.advance = false) :
    b.aspectFor f = .red := by
  unfold Bridge.aspectFor
  rw [h, ha]
  cases b.grant <;> simp

/-! ### The counts (R83, R86) -/

/-- The step that an axle adds to the count of its end (R83). -/
def axleStep (dir : AxleDir) : Int := if dir = .inward then 1 else -1

/-- The table of R83: the counts that an event makes of those it finds. -/
theorem treadleChange_eq_some {atEntry : Prop} [Decidable atEntry] {dir : AxleDir} {entered exited n x : Nat} :
    treadleChange (decide atEntry) dir entered exited = some (n, x) ↔
      (if atEntry then (n : Int) = entered + axleStep dir ∧ x = exited
        else n = entered ∧ (x : Int) = exited - axleStep dir) ∧
        x ≤ n ∧ n ≤ 255 := by
  simp only [treadleChange, Option.ite_none_right_eq_some, Option.some.injEq, Prod.mk.injEq]
  by_cases h : atEntry <;> cases dir <;> simp [h, axleStep] <;> omega

/-- The counts set to those of R83. -/
def State.counting (s : State) (n x : Nat) : State := { s with axles.entered := n, axles.exited := x }

theorem State.countAxle_some {s : State} {e entryEnd : BridgeEnd} {dir : AxleDir} {n x : Nat}
    (h : treadleChange (e = entryEnd) dir s.axles.entered s.axles.exited = some (n, x)) :
    s.countAxle e dir entryEnd = ((s.counting n x).testAxleCount, true) := by
  simp [State.countAxle, h, State.counting]

theorem State.countAxle_none {s : State} {e entryEnd : BridgeEnd} {dir : AxleDir}
    (h : treadleChange (e = entryEnd) dir s.axles.entered s.axles.exited = none) :
    s.countAxle e dir entryEnd = (s.disagree e dir, false) := by
  simp [State.countAxle, h]

/-- R86: a count of entered axles exceeds the total of the visit in use. -/
def State.exceeds (s : State) (n : Nat) (v : Visit) (c : Configuration) : Prop :=
  s.visitInUse = some v ∧ s.configOf v = some c ∧ c.total < n

/-- R86: where a total is exceeded the mark is set, and told where it was clear. -/
theorem State.testAxleCount_beyond {s : State} {v : Visit} {c : Configuration} (h : s.exceeds s.axles.entered v c) :
    s.testAxleCount =
      if s.axles.axleCount = true then s
      else ({ s with axles.axleCount := true } : State).postAll [.lane, .gatehouse]
        (.axleCount v.ident s.axles.entered c.total) := by
  obtain ⟨hv, hc, hlt⟩ := h
  simp [State.testAxleCount, hv, hc, Nat.not_le.2 hlt]

/-- R86: else it is cleared. -/
theorem State.testAxleCount_within {s : State} (h : ∀ v c, ¬s.exceeds s.axles.entered v c) :
    s.testAxleCount = { s with axles.axleCount := false } := by
  unfold State.testAxleCount
  cases hv : s.visitInUse with
  | none => rfl
  | some v =>
    cases hc : s.configOf v with
    | none => simp [hc]
    | some c =>
      have hle : s.axles.entered ≤ c.total := Nat.not_lt.1 fun hlt => h v c ⟨hv, hc, hlt⟩
      simp [hc, hle]

/-- R86: the test leaves the axles but for the mark, which stands where a total is exceeded. -/
theorem State.testAxleCount_axles (s : State) :
    s.testAxleCount.axles = { s.axles with axleCount := s.testAxleCount.axles.axleCount } ∧
      (s.testAxleCount.axles.axleCount = true ↔ ∃ v c, s.exceeds s.axles.entered v c) := by
  by_cases h : ∃ v c, s.exceeds s.axles.entered v c
  · obtain ⟨v, c, hvc⟩ := h
    rw [State.testAxleCount_beyond hvc]
    split
    · next hmark => exact ⟨by rw [hmark, ← hmark], iff_of_true hmark ⟨v, c, hvc⟩⟩
    · exact ⟨by simp, iff_of_true (by simp) ⟨v, c, hvc⟩⟩
  · rw [State.testAxleCount_within fun v c hvc => h ⟨v, c, hvc⟩]
    exact ⟨rfl, iff_of_false nofun h⟩

/-- R86: AXLE_COUNT is told where a total comes to be exceeded, and no other notice is. -/
theorem State.testAxleCount_outbox (s : State) :
    (∀ v c, s.exceeds s.axles.entered v c → s.axles.axleCount = false →
      s.testAxleCount.outbox = s.outbox ++ notesTo [.lane, .gatehouse] (.axleCount v.ident s.axles.entered c.total)) ∧
    (s.axles.axleCount = true ∨ (∀ v c, ¬s.exceeds s.axles.entered v c) → s.testAxleCount.outbox = s.outbox) := by
  refine ⟨fun v c hvc hmark => ?_, fun h => ?_⟩
  · rw [State.testAxleCount_beyond hvc]
    simp [hmark, notesTo]
  · by_cases hb : ∃ v c, s.exceeds s.axles.entered v c
    · obtain ⟨v, c, hvc⟩ := hb
      rw [State.testAxleCount_beyond hvc, if_pos (h.resolve_right fun hno => hno v c hvc)]
    · rw [State.testAxleCount_within fun v c hvc => hb ⟨v, c, hvc⟩]

/-! ### Disagreements (R84) -/

/-- The detail of a disagreement. -/
def State.disagreement (s : State) (dir : AxleDir) : DisagreeDetail :=
  { dir := dir, entered := s.axles.entered, exited := s.axles.exited }

/-- The notices of a disagreement. -/
def State.disagreeNews (s : State) (e : BridgeEnd) (dir : AxleDir) : List (Port × Notice) :=
  notesTo [.gatehouse, .lane, .metrology]
    (.faultRaised (treadleKey e) false s.site.policies.treadleDisagree .none_ s.site.clock (some (s.disagreement dir)))

/-- R84: a disagreement is counted, raised and absent again. -/
theorem State.disagree_spec (s : State) (e : BridgeEnd) (dir : AxleDir) :
    (s.disagree e dir).axles = { s.axles with disagreements := min (s.axles.disagreements + 1) 65535 } ∧
      (s.disagree e dir).outbox = s.outbox ++ s.disagreeNews e dir ∧
      (s.disagree e dir).faultEntry (treadleKey e) =
        { (s.faultEntry (treadleKey e)).raised (treadleKey e) s.site.clock with present := false } ∧
      (s.disagree e dir).run = s.run ∧ (s.disagree e dir).cal = s.cal ∧ (s.disagree e dir).evidence = s.evidence := by
  have hclass : (treadleKey e).cls.metrological = false := rfl
  refine ⟨by simp [State.disagree, State.raiseFault, hclass], ?_, ?_, ?_, ?_, ?_⟩
  · simp [State.disagree, State.raiseFault, hclass, State.disagreeNews, State.disagreement, notesTo]
    rfl
  · exact (State.faultEntry_clearFault _ _).trans (by rw [State.faultEntry_raiseFault])
  all_goals simp [State.disagree, State.raiseFault, hclass]

/-- R182, R183: with the policy CONTINUE an entry of a treadle gives the FAULT source no cause. -/
theorem State.setFaultEntry_faultJudged {s : State} {k : FaultKey} {f : FaultEntry} (hk : f.key.cls = .treadleDisagree)
    (hp : s.policy .treadleDisagree = .continue_) (h : (s.setFaultEntry k f).faultJudged = true) :
    s.faultJudged = true := by
  have hpol : ∀ c, (s.setFaultEntry k f).policy c = s.policy c := by intro c; cases c <;> rfl
  have hpresent : (s.setFaultEntry k f).heldByPresent = true → s.heldByPresent = true := by
    unfold State.heldByPresent
    simp only [List.any_eq_true, hpol]
    rintro ⟨e, he, hheld⟩
    rcases Table.mem_set he with rfl | he
    · simp [hk, hp] at hheld
    · exact ⟨e, he, hheld⟩
  have hmark : (s.setFaultEntry k f).heldByMark = false := by
    unfold State.heldByMark
    simp [hpol, hp]
  simp only [State.faultJudged, hmark, Bool.or_eq_true, Bool.or_false] at h ⊢
  rcases h with (h | h) | h
  · exact .inl (.inl (.inl (hpresent h)))
  · exact .inl (.inl (.inr h))
  · exact .inr h

theorem State.disagree_faultJudged {s : State} {e : BridgeEnd} {dir : AxleDir}
    (hp : s.site.policies.treadleDisagree = .continue_) (h : (s.disagree e dir).faultJudged = true) :
    s.faultJudged = true := by
  have hcal : (s.disagree e dir).cal = s.cal := (s.disagree_spec e dir).2.2.2.2.1
  have hfaults : (s.disagree e dir).faults =
      ((s.setFaultEntry (treadleKey e) ((s.faultEntry (treadleKey e)).raised (treadleKey e) s.site.clock)).setFaultEntry
        (treadleKey e)
        { (s.faultEntry (treadleKey e)).raised (treadleKey e) s.site.clock with present := false }).faults := by
    simp [State.disagree, State.clearFault, State.faultEntry_raiseFault, FaultEntry.raised, State.setFaultEntry,
      State.raiseFault_faults]
  rw [State.faultJudged_congr hfaults (by simpa using hcal) (by simp)] at h
  exact State.setFaultEntry_faultJudged rfl hp (State.setFaultEntry_faultJudged rfl hp h)

/-- R183: with the policy HOLD the outstanding mark of a disagreement has the FAULT source judged set. -/
theorem State.faultJudged_of_mark {s : State} {e : BridgeEnd} (hp : s.site.policies.treadleDisagree = .hold)
    (ho : (s.faultEntry (treadleKey e)).outstanding = true) (hk : (s.faultEntry (treadleKey e)).key = treadleKey e) :
    s.faultJudged = true := by
  have hmem : ((treadleKey e).place, s.faultEntry (treadleKey e)) ∈ s.faults.register := by
    unfold State.faultEntry at ho ⊢
    cases hg : Table.get? s.faults.register (treadleKey e).place with
    | none =>
      rw [hg] at ho
      cases ho
    | some f => exact Table.mem_of_get? hg
  have hany : s.heldByMark = true := by
    unfold State.heldByMark
    have hclass : (treadleKey e).cls = .treadleDisagree := rfl
    exact List.any_eq_true.2 ⟨_, hmem, by simp [ho, hk, hclass, State.policy, hp]⟩
  simp [State.faultJudged, hany]

/-! ### An event passed on (R51, R56, R69, R104) -/

/-- What the Capture Unit makes of an event, with the arm and the quiet timer set or left. -/
def State.passed (s : State) (on : Bool) : CaptureUnit :=
  { s.capture with
    waiting := s.capture.waiting.map (fun c => { c with restart := some s.weigh.rounds })
    arm := s.capture.arm || on, quietTimer := s.capture.quietTimer || on }

theorem State.passOn_spec (s : State) (ev : TraceEvent) :
    (s.passOn ev).bridge = { s.bridge with advance := false } ∧
      (s.passOn ev).capture = s.passed (decide (s.bridge.state = .occupied)) ∧
      (s.passOn ev).axles = { s.axles with
        trace := if s.bridge.state = .occupied then s.axles.trace.join ev else s.axles.trace } := by
  unfold State.passOn State.passed
  simp only []
  by_cases h : s.bridge.state = .occupied <;> simp [h]

/-- R66, R69: the bridge that an axle crosses, entered where it is the first inward one of a GRANTED bridge. -/
def State.crossing (s : State) (e : BridgeEnd) (dir : AxleDir) (g : Grant) : Bridge :=
  if s.bridge.state = .granted ∧ dir = .inward ∧ e = g.entryEnd then
    { s.bridge with state := .occupied, grantTimer := none, advance := false, withheld := false }
  else { s.bridge with advance := false }

theorem State.crossing_enters {s : State} {e : BridgeEnd} {dir : AxleDir} {g : Grant}
    (h : s.bridge.state = .granted ∧ dir = .inward ∧ e = g.entryEnd) :
    s.crossing e dir g =
      { s.bridge with state := .occupied, grantTimer := none, advance := false, withheld := false } := if_pos h

theorem State.crossing_passes {s : State} {e : BridgeEnd} {dir : AxleDir} {g : Grant}
    (h : ¬(s.bridge.state = .granted ∧ dir = .inward ∧ e = g.entryEnd)) :
    s.crossing e dir g = { s.bridge with advance := false } := if_neg h

theorem State.crossing_holds (s : State) (e : BridgeEnd) (dir : AxleDir) (g : Grant) :
    (s.crossing e dir g).holds = s.bridge.holds := by
  unfold State.crossing
  split <;> rfl

/-- R82: an axle that crosses the bridge: what its count makes, with the bridge, the Capture Unit and the trace. -/
theorem State.crossAxle_eq (s : State) (e : BridgeEnd) (dir : AxleDir) (g : Grant) :
    s.crossAxle e dir g = { (s.countAxle e dir g.entryEnd).1 with
      bridge := s.crossing e dir g
      capture := s.passed (decide ((s.crossing e dir g).state = .occupied))
      axles := { (s.countAxle e dir g.entryEnd).1.axles with
        trace :=
          if (s.crossing e dir g).state = .occupied then
            (s.countAxle e dir g.entryEnd).1.axles.trace.join
              { treadle := e, dir := dir, counted := (s.countAxle e dir g.entryEnd).2 }
          else (s.countAxle e dir g.entryEnd).1.axles.trace } } := by
  have hframe := s.countAxle_frame e dir g.entryEnd
  unfold State.crossAxle
  generalize s.countAxle e dir g.entryEnd = w at hframe ⊢
  obtain ⟨t, counted⟩ := w
  simp only [] at hframe ⊢
  by_cases hc : s.bridge.state = .granted ∧ dir = .inward ∧ e = g.entryEnd
  · obtain ⟨hbridge, hcapture, haxles⟩ := t.enterBridge.passOn_spec { treadle := e, dir := dir, counted := counted }
    refine State.eq_iff_fields.2 ?_
    simp only [if_pos hc, hbridge, hcapture, haxles, State.passOn_frame, State.enterBridge_frame, State.crossing]
    simp [State.enterBridge, State.passed, hframe]
  · obtain ⟨hbridge, hcapture, haxles⟩ := t.passOn_spec { treadle := e, dir := dir, counted := counted }
    refine State.eq_iff_fields.2 ?_
    simp only [if_neg hc, hbridge, hcapture, haxles, State.passOn_frame, State.crossing]
    simp [State.passed, hframe]

/-! ### The event of an axle that crosses -/

/-- R168: the run with the restart point of its waiting test point moved. -/
def State.movedPoints (s : State) : Option Run :=
  s.run.map (fun r => { r with waiting := r.waiting.map (fun w => { w with restart := some s.weigh.rounds }) })

/-- The count of an axle leaves the run, the CALIBRATION region and the evidence. -/
theorem State.countAxle_rest (s : State) (e : BridgeEnd) (dir : AxleDir) (entryEnd : BridgeEnd) :
    (s.countAxle e dir entryEnd).1.run = s.run ∧ (s.countAxle e dir entryEnd).1.cal = s.cal ∧
      (s.countAxle e dir entryEnd).1.evidence = s.evidence := by
  cases h : treadleChange (e = entryEnd) dir s.axles.entered s.axles.exited with
  | none =>
    obtain ⟨-, -, -, hrun, hcal, hevidence⟩ := s.disagree_spec e dir
    rw [State.countAxle_none h]
    exact ⟨hrun, hcal, hevidence⟩
  | some c =>
    rw [State.countAxle_some (n := c.1) (x := c.2) h]
    simp [State.counting]

/-- What an axle that crosses changes, whether it is counted or not. -/
theorem State.restartPoint_crossAxle (s : State) (e : BridgeEnd) (dir : AxleDir) (g : Grant) :
    (s.restartPoint.crossAxle e dir g).bridge = s.crossing e dir g ∧
      (s.restartPoint.crossAxle e dir g).capture = s.passed (decide ((s.crossing e dir g).state = .occupied)) ∧
      (s.restartPoint.crossAxle e dir g).run = s.movedPoints ∧
      s.restartPoint.crossAxle e dir g = { s with
        bridge := (s.restartPoint.crossAxle e dir g).bridge, axles := (s.restartPoint.crossAxle e dir g).axles
        capture := (s.restartPoint.crossAxle e dir g).capture, run := (s.restartPoint.crossAxle e dir g).run
        faults := (s.restartPoint.crossAxle e dir g).faults, outbox := (s.restartPoint.crossAxle e dir g).outbox } := by
  have hu := s.restartPoint.crossAxle_eq e dir g
  have hframe := s.restartPoint.countAxle_frame e dir g.entryEnd
  obtain ⟨hrun, hcal, hevidence⟩ := s.restartPoint.countAxle_rest e dir g.entryEnd
  generalize s.restartPoint.countAxle e dir g.entryEnd = w at *
  generalize s.restartPoint.crossAxle e dir g = u at *
  refine ⟨by rw [hu]; rfl, by rw [hu]; rfl, by rw [hu]; exact hrun, ?_⟩
  rw [hu]
  refine State.eq_iff_fields.2 ?_
  simp [hframe, hcal, hevidence]

/-- R83, R86: what a counted axle makes of the axles and the notices, and that it leaves the register. -/
theorem State.crossAxle_counted {s : State} {e : BridgeEnd} {dir : AxleDir} {g : Grant} {n x : Nat}
    (h : treadleChange (e = g.entryEnd) dir s.axles.entered s.axles.exited = some (n, x)) :
    (s.crossAxle e dir g).axles = { (s.counting n x).testAxleCount.axles with
        trace := if (s.crossing e dir g).state = .occupied then
          s.axles.trace.join { treadle := e, dir := dir, counted := true } else s.axles.trace } ∧
      (s.crossAxle e dir g).outbox = (s.counting n x).testAxleCount.outbox ∧
      (s.crossAxle e dir g).faults = s.faults := by
  have htrace : (s.counting n x).testAxleCount.axles.trace = s.axles.trace := by
    rw [(s.counting n x).testAxleCount_axles.1]
    rfl
  have hfaults : (s.counting n x).testAxleCount.faults = s.faults := by simp [State.counting]
  rw [s.crossAxle_eq e dir g, State.countAxle_some h]
  exact ⟨by simp only [htrace], rfl, hfaults⟩

/-- R84: what a disagreement makes of them. -/
theorem State.crossAxle_disagreed {s : State} {e : BridgeEnd} {dir : AxleDir} {g : Grant}
    (h : treadleChange (e = g.entryEnd) dir s.axles.entered s.axles.exited = none) :
    (s.crossAxle e dir g).axles = { s.axles with
        disagreements := min (s.axles.disagreements + 1) 65535
        trace := if (s.crossing e dir g).state = .occupied then
          s.axles.trace.join { treadle := e, dir := dir, counted := false } else s.axles.trace } ∧
      (s.crossAxle e dir g).outbox = s.outbox ++ s.disagreeNews e dir ∧
      (s.crossAxle e dir g).faults = (s.disagree e dir).faults := by
  obtain ⟨haxles, hbox, -⟩ := s.disagree_spec e dir
  rw [s.crossAxle_eq e dir g, State.countAxle_none h]
  simp [haxles, hbox]

/-- The restart points move under sources that stay judged (R168). -/
theorem State.sourcesJudged_restartPoint {s : State} (h : s.sourcesJudged) : s.restartPoint.sourcesJudged := by
  obtain ⟨hmet, hfault⟩ := h
  exact ⟨hmet.trans (by simp [State.restartPoint, State.accessOpen]), hfault⟩

/-- An event that changes what an axle changes, and ends no visit, leaves the rest. -/
theorem event_eq_of_axle {s u : State} (hout : s.outbox = []) (hn : s.commitNote = none)
    (hu : u = { s with bridge := u.bridge, axles := u.axles, capture := u.capture, run := u.run, faults := u.faults
                       outbox := u.outbox })
    (hv : (event s u).visits = u.visits) (hi : (event s u).inUse = u.inUse) :
    event s u = { s with
      bridge := (event s u).bridge, axles := (event s u).axles, capture := (event s u).capture
      run := (event s u).run, faults := (event s u).faults, ports := (event s u).ports } := by
  have hsettled : (u.settle s.bridge.holds).visits = s.visits := by
    rw [← (event_settle s u).2.2.2.1, hv, hu]
  have hwrites : (event s u).writes = s.writes := by
    refine (event_writes_of_same (changedRegions_same ?_ ?_ ?_ ?_ ?_ ?_ ?_) ?_).trans (by rw [hu])
    · simp only [State.flush_frame, State.settle_frame]; rw [hu]
    · simp only [State.flush_frame, State.settle_frame]; rw [hu]
    · simp only [State.flush_frame, hsettled]
    · simp only [State.flush_frame, State.settle_frame]; rw [hu]
    · simp only [State.flush_frame, State.settle_frame]; rw [hu]
    · simp only [State.flush_frame, State.settle_frame]; rw [hu]
    · simp only [State.flush_frame, State.settle_frame]; rw [hu]
    · rw [hu]; exact hn
  have hframe := event_frame s u
  have heventOut := event_outbox s u
  have heventNote := event_commitNote s u
  generalize event s u = t at *
  refine State.eq_iff_fields.2 ?_
  simp only [hframe, heventOut, heventNote, hv, hi, hwrites, hout, hn]
  rw [hu]
  simp

end Sys2Proof.Machine
end

