-- ==== Sys2Proof/Proofs/TreadleEvents.lean ====
section
/-! The event of a treadle in each bridge state (R66, R68, R73, R82 to R84, R86, R104, R168, R181). -/

namespace Sys2Proof.Machine

/-! ### An axle that is counted -/

section
variable {s : State} {e : BridgeEnd} {dir : AxleDir} {g : Grant}

/-- What a counted axle leaves in `t`: the counts, the mark with its notice, and the restart point. -/
def State.countedTo (s : State) (n x : Nat) (t : State) : Prop :=
  t.axles.entered = n ∧ t.axles.exited = x ∧ t.axles.disagreements = s.axles.disagreements ∧ t.run = s.movedPoints ∧
    (t.axles.axleCount = true ↔ ∃ v c, s.exceeds n v c) ∧
    (∀ v c, s.exceeds n v c → s.axles.axleCount = false →
      t.ports = (s.told [.lane, .gatehouse] (.axleCount v.ident n c.total)).ports) ∧
    (s.axles.axleCount = true ∨ (∀ v c, ¬s.exceeds n v c) → t.ports = s.ports)

/-- What an axle that crosses the bridge leaves whether it is counted or not: the bridge that it passes, the trace where
that is OCCUPIED, and no field but these. -/
def State.crossedTo (s : State) (e : BridgeEnd) (dir : AxleDir) (g : Grant) (counted : Bool) (t : State) : Prop :=
  ({ s with bridge := s.crossing e dir g } : State).StaysAtBridge t ∧
    t.axles.trace =
      (if (s.crossing e dir g).state = .occupied then
        s.axles.trace.join { treadle := e, dir := dir, counted := counted } else s.axles.trace) ∧
    t = { s with bridge := t.bridge, axles := t.axles, capture := t.capture, run := t.run, faults := t.faults
                 ports := t.ports }

/-- R83, R86: the event of a counted axle. -/
theorem event_counted {n x : Nat} (hcalm : s.calm = true) (hfree : (s.crossing e dir g).state ≠ .free)
    (h : treadleChange (e = g.entryEnd) dir s.axles.entered s.axles.exited = some (n, x)) :
    s.countedTo n x (event s (s.restartPoint.crossAxle e dir g)) ∧
      s.crossedTo e dir g true (event s (s.restartPoint.crossAxle e dir g)) ∧
      (event s (s.restartPoint.crossAxle e dir g)).capture =
        s.passed (decide ((s.crossing e dir g).state = .occupied)) := by
  obtain ⟨-, hout, hb, hn⟩ := s.calm_iff.1 hcalm
  have hs : s.settled = true := s.settled_iff.2 ⟨hout, hb⟩
  obtain ⟨hbridge, hcaptured, hpoints, hframed⟩ := s.restartPoint_crossAxle e dir g
  obtain ⟨haxled, hbox, hfaults⟩ := State.crossAxle_counted (s := s.restartPoint) h
  obtain ⟨haxles, hmark⟩ := (s.restartPoint.counting n x).testAxleCount_axles
  obtain ⟨htold, hquiet⟩ := (s.restartPoint.counting n x).testAxleCount_outbox
  generalize (s.restartPoint.counting n x).testAxleCount = q at *
  generalize s.restartPoint.crossAxle e dir g = u at *
  have hholds : u.bridge.holds = s.bridge.holds := by rw [hbridge, State.crossing_holds]
  have hj : u.sourcesJudged := by
    refine State.sourcesJudged_congr (State.sourcesJudged_restartPoint (State.sourcesJudged_of_settled hs)) hholds
      (by rw [hframed]; rfl) hpoints hfaults (by rw [hframed]; rfl) (by rw [hframed]; rfl)
  have hstate : u.bridge.state ≠ .free := by rw [hbridge]; exact hfree
  have hstays := event_staysAtBridge s hstate
  obtain ⟨-, -, ha, hv, hi, hc, hr, ho⟩ := event_not_free hj hholds hstate
  have hports : ∀ ns, q.outbox = ns → (event s u).ports = ({ s with outbox := ns } : State).flush.ports := by
    intro ns hns
    obtain ⟨-, -, -, -, -, -, -, hp⟩ := event_settle s u
    rw [hp]
    exact State.flush_ports_congr (by rw [hframed]; simp) (by rw [ho, hbox, hns])
  have hcounts : q.axles.entered = n ∧ q.axles.exited = x ∧ q.axles.disagreements = s.axles.disagreements := by
    rw [haxles]
    exact ⟨rfl, rfl, rfl⟩
  obtain ⟨hentered, hexited, hdisagreements⟩ := hcounts
  have hbase : (s.restartPoint.counting n x).outbox = [] := hout
  simp only [hbase, List.nil_append] at htold hquiet
  refine ⟨⟨?_, ?_, ?_, hr.trans hpoints, ?_, fun v c hvc hclear => ?_, fun hno => ?_⟩,
    ⟨State.StaysAtBridge.trans (.of_bridge hbridge) hstays, ?_, event_eq_of_axle hout hn hframed hv hi⟩,
    hc.trans hcaptured⟩
  · rw [ha, haxled]; exact hentered
  · rw [ha, haxled]; exact hexited
  · rw [ha, haxled]; exact hdisagreements
  · rw [ha, haxled]; exact hmark
  · rw [hports _ (htold v c hvc hclear)]
    exact State.flush_ports_congr (by simp) (by simp [hout, notesTo, State.counting])
  · rw [hports _ (hquiet hno)]
    exact State.flush_ports_of_empty rfl
  · rw [ha, haxled]
    rfl

/-! ### A disagreement -/

/-- The capture that the hold of a disagreement refuses (R53, R182). -/
def State.refusedByDisagreement (s : State) : Option Capture :=
  if s.site.policies.treadleDisagree = .hold ∧ s.held = false then s.capture.waiting else none

/-- What a disagreement leaves in `t`: the counts as they were, its entry, and where its hold comes into force the end
of the capture and of the waiting test point. -/
def State.disagreedAt (s : State) (e : BridgeEnd) (dir : AxleDir) (on : Bool) (t : State) : Prop :=
  t.axles.entered = s.axles.entered ∧ t.axles.exited = s.axles.exited ∧
    t.axles.disagreements = min (s.axles.disagreements + 1) 65535 ∧ t.axles.axleCount = s.axles.axleCount ∧
    t.faultEntry (treadleKey e) =
      { key := treadleKey e, present := false, outstanding := true,
        count := min ((s.faultEntry (treadleKey e)).count + 1) 65535, raisedAt := some s.site.clock } ∧
    t.capture = (match s.refusedByDisagreement with
      | none => s.passed on
      | some c => { s.passed on with
          waiting := none, arm := false
          lastOutcome := some { origin := c.origin, ident := some c.ident, outcome := .held, round := none } }) ∧
    t.run =
      (if s.site.policies.treadleDisagree = .hold ∧ s.bridge.holds.fault = false then
        s.run.map (fun r => { r with waiting := none })
       else s.movedPoints) ∧
    t.ports = (t.heard s (s.disagreeNews e dir ++
      s.refusedByDisagreement.toList.map (fun c => (c.origin.port, .captureOutcome c.origin c.ident .held none)) ++
      (if s.site.policies.treadleDisagree = .hold ∧ s.bridge.holds.fault = false then s.pointNews else []))).ports

/-- R53, R168, R182, R183: the settling of a disagreement follows the hold that its policy brings. -/
theorem event_disagreement {u : State} (hs : s.settled = true) (hh : u.bridge.holds = s.bridge.holds)
    (hfree : u.bridge.state ≠ .free) (hsite : u.site = s.site) (hstaged : u.staged = s.staged)
    (hrun : u.run.isSome = s.run.isSome)
    (hmark : (u.faultEntry (treadleKey e)).outstanding = true) (hkey : (u.faultEntry (treadleKey e)).key = treadleKey e)
    (hcontinue : s.site.policies.treadleDisagree = .continue_ → u.faultJudged = true → s.faultJudged = true) :
    (event s u).axles = u.axles ∧ (event s u).visits = u.visits ∧ (event s u).inUse = u.inUse ∧
      (event s u).capture =
        (if s.site.policies.treadleDisagree = .hold ∧ s.held = false then u.refuseWaiting .held none else u).capture ∧
      (event s u).run =
        (if s.site.policies.treadleDisagree = .hold ∧ s.bridge.holds.fault = false then
          u.run.map (fun r => { r with waiting := none }) else u.run) ∧
      (u.settle s.bridge.holds).outbox = u.outbox ++
        (if s.site.policies.treadleDisagree = .hold ∧ s.held = false then u.refusedNews .held else []) ++
        (if s.site.policies.treadleDisagree = .hold ∧ s.bridge.holds.fault = false then u.pointNews else []) := by
  obtain ⟨-, ec, ea, ev, ei, er, -⟩ := event_settle s u
  rw [ec, ea, ev, ei, er]
  cases hp : s.site.policies.treadleDisagree with
  | hold =>
    have hpu : u.site.policies.treadleDisagree = .hold := by rw [hsite, hp]
    have hjudged : u.faultJudged = true := State.faultJudged_of_mark hpu hmark hkey
    have hplace : ∀ f, (treadleKey e).place ≠ (lampKey f).place := by
      intro f
      cases e <;> cases f <;> decide
    have hentry := State.faultEntry_settlePass u s.bridge.holds hplace
    have hagain : (u.settlePass s.bridge.holds).faultJudged = true :=
      State.faultJudged_of_mark (e := e) (by simpa using hpu) (by rw [hentry, hmark]) (by rw [hentry, hkey])
    have hheld := State.judgeSources_held_of_fault hjudged
    obtain ⟨hc, hr, ha, hv, hi, ho⟩ :=
      (State.settle_standing s.bridge.holds hheld (State.judgeSources_held_of_fault hagain)).leaves
    obtain ⟨-, fc, fr, fo, fa, fv, fi⟩ := State.followed_spec (before := s.bridge.holds) hheld (by rw [hh]) (by rw [hh])
    rw [hc, hr, ha, hv, hi, ho, fc, fr, fo, fa, fv, fi]
    refine ⟨rfl, rfl, rfl, ?_, ?_, ?_⟩
    · cases hin : s.bridge.holds.inForce <;> simp [State.held, hin]
    · simp [hjudged]
    · cases hin : s.bridge.holds.inForce <;> simp [State.held, hin, hjudged]
  | continue_ =>
    have hwithin : u.judgeSources.bridge.holds.within s.bridge.holds :=
      State.within_of_settled hs hh (by simp [State.accessOpen, hstaged]) hrun (hcontinue hp)
    have hquiet := State.settle_within hwithin
    obtain ⟨-, -, -, hv, hi, ho⟩ := (State.settle_resettled hwithin).stays (.inl hfree)
    rw [hquiet.capture, hquiet.run, hv, hi, ho]
    exact ⟨State.settle_axles_of_not_free _ hfree, rfl, rfl, rfl, rfl, by simp⟩

/-- The refusal of a capture whose restart point a treadle has moved (R53). -/
theorem State.refuseWaiting_passed {u : State} {on : Bool} (h : u.capture = s.passed on) :
    (u.refuseWaiting .held none).capture =
      match s.capture.waiting with
      | none => s.passed on
      | some c => { s.passed on with
          waiting := none, arm := false
          lastOutcome := some { origin := c.origin, ident := some c.ident, outcome := .held, round := none } } := by
  cases hw : s.capture.waiting with
  | none => rw [State.refuseWaiting_none _ _ (by rw [h]; simp [State.passed, hw]), h]
  | some c =>
    rw [State.refuseWaiting_some (c := { c with restart := some s.weigh.rounds }) .held
      (by rw [h]; simp [State.passed, hw]), h]

theorem State.refusedNews_passed {u : State} {on : Bool} (h : u.capture = s.passed on) :
    u.refusedNews .held =
      s.capture.waiting.toList.map (fun c => (c.origin.port, .captureOutcome c.origin c.ident .held none)) := by
  unfold State.refusedNews
  rw [h]
  cases hw : s.capture.waiting <;> simp [State.passed, hw]

/-- The end of a test point whose restart point a treadle has moved (R168). -/
theorem State.movedPoints_ended (s : State) :
    s.movedPoints.map (fun r => { r with waiting := none }) = s.run.map (fun r => { r with waiting := none }) := by
  simp [State.movedPoints, Function.comp_def]

theorem State.pointNews_moved {u : State} (h : u.run = s.movedPoints) : u.pointNews = s.pointNews := by
  unfold State.pointNews
  rw [h]
  cases hr : s.run with
  | none => simp [State.movedPoints, hr]
  | some r => cases hw : r.waiting <;> simp [State.movedPoints, hr, hw]

/-- R84, R182: the event of a disagreement. -/
theorem event_disagreed (hcalm : s.calm = true) (hfree : (s.crossing e dir g).state ≠ .free)
    (h : treadleChange (e = g.entryEnd) dir s.axles.entered s.axles.exited = none) :
    s.disagreedAt e dir (decide ((s.crossing e dir g).state = .occupied))
        (event s (s.restartPoint.crossAxle e dir g)) ∧
      s.crossedTo e dir g false (event s (s.restartPoint.crossAxle e dir g)) := by
  obtain ⟨-, hout, hb, hn⟩ := s.calm_iff.1 hcalm
  have hs : s.settled = true := s.settled_iff.2 ⟨hout, hb⟩
  obtain ⟨hbridge, hcaptured, hpoints, hframed⟩ := s.restartPoint_crossAxle e dir g
  obtain ⟨haxled, hbox, hfaults⟩ := State.crossAxle_disagreed (s := s.restartPoint) h
  obtain ⟨-, -, hentry, -, hcal, -⟩ := s.restartPoint.disagree_spec e dir
  have hsite : (s.restartPoint.disagree e dir).site = s.site := by simp
  have hjudged := State.disagree_faultJudged (s := s.restartPoint) (e := e) (dir := dir)
  generalize s.restartPoint.disagree e dir = d at *
  generalize s.restartPoint.crossAxle e dir g = u at *
  have hholds : u.bridge.holds = s.bridge.holds := by rw [hbridge, State.crossing_holds]
  have hstate : u.bridge.state ≠ .free := by rw [hbridge]; exact hfree
  have hmade : u.faultEntry (treadleKey e) =
      { (s.faultEntry (treadleKey e)).raised (treadleKey e) s.site.clock with present := false } :=
    (State.faultEntry_congr (congrArg _ hfaults) _).trans hentry
  have hnews : u.outbox = s.disagreeNews e dir := by
    rw [hbox, show s.restartPoint.outbox = [] from hout]
    rfl
  have hfalls : s.site.policies.treadleDisagree = .continue_ → u.faultJudged = true → s.faultJudged = true := by
    intro hp hj
    have hsame : u.faultJudged = d.faultJudged :=
      State.faultJudged_congr hfaults (by rw [hframed, hcal]; rfl) (by rw [hframed, hsite])
    exact hjudged hp (hsame.symm.trans hj)
  have hmark : (u.faultEntry (treadleKey e)).outstanding = true := by
    rw [hmade]
    simp [FaultEntry.raised, treadleKey, FaultClass.metrological]
  obtain ⟨ha, hv, hi, hc, hr, ho⟩ := event_disagreement (e := e) hs hholds hstate (by rw [hframed]) (by rw [hframed])
    (by rw [hpoints]; simp [State.movedPoints]) hmark (by rw [hmade]; rfl) hfalls
  have hstays := event_staysAtBridge s hstate
  have hplace : ∀ f, (treadleKey e).place ≠ (lampKey f).place := by
    intro f
    cases e <;> cases f <;> decide
  refine ⟨⟨?_, ?_, ?_, ?_, ?_, ?_, ?_, ?_⟩, State.StaysAtBridge.trans (.of_bridge hbridge) hstays, ?_,
    event_eq_of_axle hout hn hframed hv hi⟩
  · rw [ha, haxled]; rfl
  · rw [ha, haxled]; rfl
  · rw [ha, haxled]; rfl
  · rw [ha, haxled]; rfl
  · rw [State.faultEntry_event _ _ hplace, hmade]
    simp [FaultEntry.raised, treadleKey, FaultClass.metrological]
  · rw [hc]
    by_cases hnew : s.site.policies.treadleDisagree = .hold ∧ s.held = false
    · rw [if_pos hnew, State.refusedByDisagreement, if_pos hnew]
      exact State.refuseWaiting_passed hcaptured
    · rw [if_neg hnew, State.refusedByDisagreement, if_neg hnew]
      exact hcaptured
  · rw [hr, hpoints, State.movedPoints_ended]
  · refine event_heard rfl (by rw [hframed]) ?_
    rw [ho, hnews, State.refusedNews_passed hcaptured, State.pointNews_moved hpoints, State.refusedByDisagreement]
    split <;> rfl
  · rw [ha, haxled]; rfl

/-! ### An intrusion (R68) -/

/-- R68: the intrusion at a FREE bridge without a grant. -/
theorem State.intrude_free (h : s.bridge.grant = none) :
    s.intrude e =
      ({ s with bridge.state := .occupiedUnknown } : State).postAll [.gatehouse, .lane] (.intrusion e none) := by
  simp [State.intrude, h]

/-- R68: the intrusion against a grant, which is withdrawn. -/
theorem State.intrude_granted (h : s.bridge.grant = some g) :
    s.intrude e = ({ s.withdrawGrant with bridge.state := .occupiedUnknown } : State).postAll [.gatehouse, .lane]
      (.intrusion e (some g.ident)) := by
  simp [State.intrude, h]

/-- R68, R74: at a FREE bridge the aspects are RED already, and the event only tells. -/
theorem event_intrusion_free (hcalm : s.calm = true) (hg : s.bridge.grant = none) :
    event s (s.restartPoint.intrude e) =
      ({ s.restartPoint with bridge.state := .occupiedUnknown } : State).told [.gatehouse, .lane]
        (.intrusion e none) := by
  obtain ⟨-, -, hb, hn⟩ := s.calm_iff.1 hcalm
  obtain ⟨hmet, hfault, -, hA, hB, hla, hlb⟩ := s.bridgeSettled_iff.1 hb
  rw [State.intrude_free (by simpa using hg)]
  have hred := fun f =>
    Bridge.aspectFor_ungranted (b := { s.bridge with state := .occupiedUnknown }) f hg
  have hmoved : ({ s.restartPoint with bridge.state := .occupiedUnknown } : State).bridgeSettled = true := by
    refine (State.bridgeSettled_iff _).2 ⟨?_, hfault, nofun, ?_, ?_, hla, hlb⟩
    · exact hmet.trans (by simp [State.restartPoint, State.accessOpen])
    · exact hA.trans ((Bridge.aspectFor_ungranted _ hg).trans (hred .a).symm)
    · exact hB.trans ((Bridge.aspectFor_ungranted _ hg).trans (hred .b).symm)
  have hposted := State.bridgeSettled_congr
    (s := ({ s.restartPoint with bridge.state := .occupiedUnknown } : State))
    (t := ({ s.restartPoint with bridge.state := .occupiedUnknown } : State).postAll [.gatehouse, .lane]
      (.intrusion e none)) (by simp) (by simp) (by simp) (by simp) (by simp) (by simp) (by simp)
  rw [event_of_bridgeSettled (hposted.trans hmoved) (by simp)]
  refine retain_of_untouched (changedRegions_same ?_ ?_ ?_ ?_ ?_ ?_ ?_) ?_ <;> simp [hn]

/-- R68: against a grant the event withdraws it and returns the visit. -/
theorem event_intrusion_granted (hcalm : s.calm = true) (hg : s.bridge.grant = some g) :
    let t := event s (s.restartPoint.intrude e)
    t.bridge.state = .occupiedUnknown ∧ t.bridge.grant = none ∧
      t.bridge.grantTimer = none ∧ t.bridge.aspectA = .red ∧ t.bridge.aspectB = .red ∧ t.inUse = none ∧
      t.bridge.waiting = s.bridge.waiting ∧
      (∀ q v, s.inUse = some q → Table.get? s.visits q = some v → Table.get? t.visits q = some v.returned) ∧
      (∀ q, s.inUse ≠ some q → Table.get? t.visits q = Table.get? s.visits q) ∧
      t.ports = (s.told [.gatehouse, .lane] (.intrusion e (some g.ident))).ports ∧
      t = { s with bridge := t.bridge, visits := t.visits, inUse := none, axles.axleCount := false, run := t.run,
                   faults := t.faults, ports := t.ports, writes := t.writes } := by
  obtain ⟨-, hout, hb, hn⟩ := s.calm_iff.1 hcalm
  have hs : s.settled = true := s.settled_iff.2 ⟨hout, hb⟩
  have hframe := s.restartPoint.intrude_frame e
  obtain ⟨hbridge, hbox, haxles, huse, hlisted, hother⟩ := s.restartPoint.withdrawGrant_spec
  have hmade : (s.restartPoint.intrude e).bridge =
        { s.bridge with grant := none, grantTimer := none, state := .occupiedUnknown } ∧
      (s.restartPoint.intrude e).axles = { s.axles with axleCount := false } ∧
      (s.restartPoint.intrude e).inUse = none ∧
      (s.restartPoint.intrude e).visits = s.restartPoint.withdrawGrant.visits ∧
      (s.restartPoint.intrude e).outbox = notesTo [.gatehouse, .lane] (.intrusion e (some g.ident)) := by
    rw [State.intrude_granted (s := s.restartPoint) (g := g) (by simpa using hg)]
    simp [hbridge, haxles, huse, hbox, hout, notesTo]
  generalize s.restartPoint.intrude e = u at *
  generalize s.restartPoint.withdrawGrant = w at *
  obtain ⟨ub, ua, ui, uv, uo⟩ := hmade
  have hholds : u.bridge.holds = s.bridge.holds := by rw [ub]
  have hstate : u.bridge.state ≠ .free := by rw [ub]; nofun
  have hj : u.sourcesJudged := by
    refine State.sourcesJudged_congr (State.sourcesJudged_restartPoint (State.sourcesJudged_of_settled hs)) hholds
      ?_ ?_ ?_ ?_ ?_ <;> simp [hframe]
  obtain ⟨-, -, ha, hv, hi, hc, hr, ho⟩ := event_not_free hj hholds hstate
  obtain ⟨tstate, twaiting, tgrant, -, -, ttimer⟩ := event_staysAtBridge s hstate
  obtain ⟨hA, hB⟩ := event_aspects s u
  have hgrant : (event s u).bridge.grant = none := by rw [tgrant, ub]
  have hred := fun f => Bridge.aspectFor_ungranted f hgrant
  refine ⟨by rw [tstate, ub], hgrant, ttimer (by rw [ub]), hA.trans (hred _), hB.trans (hred _), hi.trans ui,
    by rw [twaiting, ub], ?_, ?_, ?_, ?_⟩
  · rw [hv, uv]
    exact hlisted
  · rw [hv, uv]
    exact hother
  · obtain ⟨-, -, -, -, -, -, -, hp⟩ := event_settle s u
    rw [hp]
    refine State.flush_ports_congr (by simp [hframe]) ?_
    rw [ho, uo]
    simp [hout, notesTo]
  · refine State.eq_iff_fields.2 ?_
    simp [hframe, ha, ua, hi, ui, hc, hout, hn]

/-! ### The obligation -/

theorem exec_treadleEvent (h : s.running = true) :
    exec (.treadleEvent e dir) s = .next (event s (s.restartPoint.treadle e dir)) := by
  simp [exec, execTreadleEvent, act, h]

/-- R82: where a treadle event changes the bridge and the counts of nothing. -/
theorem State.treadle_idle (h : s.bridge.state = .occupiedUnknown ∨ (s.bridge.state = .free ∧ dir = .outward)) :
    s.treadle e dir = s := by
  rcases h with h | ⟨h, rfl⟩ <;> simp [State.treadle, h]

/-- R82, R73: where it is an axle that crosses the bridge. -/
theorem State.treadle_crosses (hg : s.bridge.grant = some g)
    (h : s.bridge.state = .occupied ∨ s.bridge.state = .released ∨
      (s.bridge.state = .granted ∧ (dir = .outward ∨ e = g.entryEnd))) :
    s.treadle e dir = s.crossAxle e dir g := by
  rcases h with h | h | ⟨h, rfl | rfl⟩ <;> simp [State.treadle, h, hg]

/-- R66: the vehicle enters with an axle that is counted, or in disagreement where 255 are. -/
theorem event_enters (hcalm : s.calm = true) (hle : s.axles.exited ≤ s.axles.entered) (hmax : s.axles.entered ≤ 255)
    (hstate : s.bridge.state = .granted) (hg : s.bridge.grant = some g) (hdir : dir = .inward)
    (hentry : e = g.entryEnd) :
    let t := event s (s.restartPoint.crossAxle e dir g)
    t.bridge.state = .occupied ∧ t.bridge.grant = some g ∧
      t.bridge.grantTimer = none ∧ t.bridge.advance = false ∧ t.bridge.withheld = false ∧
      t.bridge.aspectA = .red ∧ t.bridge.aspectB = .red ∧
      (s.axles.entered < 255 → s.countedTo (s.axles.entered + 1) s.axles.exited t ∧
        t.axles.trace = s.axles.trace.join { treadle := e, dir := dir, counted := true } ∧ t.capture = s.passed true) ∧
      (s.axles.entered = 255 → s.disagreedAt e dir true t ∧
        t.axles.trace = s.axles.trace.join { treadle := e, dir := dir, counted := false }) ∧
      t = { s with bridge := t.bridge, axles := t.axles, capture := t.capture, run := t.run, faults := t.faults,
                   ports := t.ports } := by
  have hcrossing := State.crossing_enters ⟨hstate, hdir, hentry⟩
  have hfree : (s.crossing e dir g).state ≠ .free := by rw [hcrossing]; nofun
  have hoccupied : (s.crossing e dir g).state = .occupied := by rw [hcrossing]
  have hbelow : s.axles.entered < 255 →
      treadleChange (e = g.entryEnd) dir s.axles.entered s.axles.exited =
        some (s.axles.entered + 1, s.axles.exited) := by
    intro hlt
    refine treadleChange_eq_some.2 ⟨?_, by omega, hlt⟩
    simp [hentry, hdir, axleStep]
  have hfull : s.axles.entered = 255 →
      treadleChange (e = g.entryEnd) dir s.axles.entered s.axles.exited = none := by
    intro heq
    refine Option.eq_none_iff_forall_ne_some.2 fun ⟨n, x⟩ hsome => ?_
    obtain ⟨htable, -, hn⟩ := treadleChange_eq_some.1 hsome
    rw [if_pos hentry, hdir, heq] at htable
    simp only [axleStep, if_true] at htable
    omega
  have hcounted := fun hlt => event_counted hcalm hfree (hbelow hlt)
  have hdisagreed := fun heq => event_disagreed hcalm hfree (hfull heq)
  obtain ⟨hA, hB⟩ := event_aspects s (s.restartPoint.crossAxle e dir g)
  generalize event s (s.restartPoint.crossAxle e dir g) = t at hcounted hdisagreed hA hB ⊢
  have hcrossed : ∃ counted, s.crossedTo e dir g counted t := by
    rcases Nat.lt_or_eq_of_le hmax with hlt | heq
    · exact ⟨true, (hcounted hlt).2.1⟩
    · exact ⟨false, (hdisagreed heq).2⟩
  obtain ⟨-, ⟨tstate, -, tgrant, tadvance, twithheld, ttimer⟩, -, hframe⟩ := hcrossed
  rw [hcrossing] at tstate tgrant tadvance twithheld ttimer
  have hred := fun f => Bridge.aspectFor_occupied f tstate tadvance
  refine ⟨tstate, tgrant.trans hg, ttimer rfl, tadvance, twithheld, hA.trans (hred _), hB.trans (hred _),
    fun hlt => ?_, fun heq => ?_, hframe⟩
  · obtain ⟨hcount, ⟨-, htrace, -⟩, hcapture⟩ := hcounted hlt
    rw [if_pos hoccupied] at htrace
    simp only [hoccupied, decide_true] at hcapture
    exact ⟨hcount, htrace, hcapture⟩
  · obtain ⟨hdis, -, htrace, -⟩ := hdisagreed heq
    rw [if_pos hoccupied] at htrace
    simp only [hoccupied, decide_true] at hdis
    exact ⟨hdis, htrace⟩

/-- R69, R83: an axle that passes a bridge which it does not enter. -/
theorem State.crossing_of_passes (h : s.bridge.state = .occupied ∨ s.bridge.state = .released ∨
      (s.bridge.state = .granted ∧ dir = .outward)) :
    s.crossing e dir g = { s.bridge with advance := false } ∧ (s.crossing e dir g).state ≠ .free := by
  have hpasses : s.crossing e dir g = { s.bridge with advance := false } := by
    refine State.crossing_passes ?_
    rintro ⟨hgranted, hdir, -⟩
    rcases h with h | h | ⟨-, h⟩
    · exact absurd (h.symm.trans hgranted) (by decide)
    · exact absurd (h.symm.trans hgranted) (by decide)
    · exact absurd (h.symm.trans hdir) (by decide)
  refine ⟨hpasses, ?_⟩
  rw [hpasses]
  rcases h with h | h | ⟨h, -⟩ <;> simp [h]

/-- R83: such an axle counted. -/
theorem event_passes_counted {n x : Nat} (hcalm : s.calm = true) (hg : s.bridge.grant = some g)
    (h : s.bridge.state = .occupied ∨ s.bridge.state = .released ∨ (s.bridge.state = .granted ∧ dir = .outward))
    (hchange : treadleChange (e = g.entryEnd) dir s.axles.entered s.axles.exited = some (n, x)) :
    let t := event s (s.restartPoint.crossAxle e dir g)
    s.countedTo n x t ∧
      t.axles.trace = (if s.bridge.state = .occupied then
        s.axles.trace.join { treadle := e, dir := dir, counted := true } else s.axles.trace) ∧
      t.bridge.state = s.bridge.state ∧ t.bridge.grant = some g ∧ t.bridge.advance = false ∧
      t.bridge.withheld = s.bridge.withheld ∧ t.capture = s.passed (decide (s.bridge.state = .occupied)) ∧
      t = { s with bridge := t.bridge, axles := t.axles, capture := t.capture, run := t.run, faults := t.faults,
                   ports := t.ports } := by
  obtain ⟨hcrossing, hfree⟩ := State.crossing_of_passes (e := e) (g := g) h
  have hevent := event_counted hcalm hfree hchange
  generalize event s (s.restartPoint.crossAxle e dir g) = t at hevent ⊢
  obtain ⟨hcounted, ⟨⟨tstate, -, tgrant, tadvance, twithheld, -⟩, htrace, hframe⟩, hcapture⟩ := hevent
  rw [hcrossing] at tstate tgrant tadvance twithheld htrace hcapture
  exact ⟨hcounted, htrace, tstate, tgrant.trans hg, tadvance, twithheld, hcapture, hframe⟩

/-- R84: such an axle in disagreement. -/
theorem event_passes_disagreed (hcalm : s.calm = true) (hg : s.bridge.grant = some g)
    (h : s.bridge.state = .occupied ∨ s.bridge.state = .released ∨ (s.bridge.state = .granted ∧ dir = .outward))
    (hchange : treadleChange (e = g.entryEnd) dir s.axles.entered s.axles.exited = none) :
    let t := event s (s.restartPoint.crossAxle e dir g)
    s.disagreedAt e dir (decide (s.bridge.state = .occupied)) t ∧
      t.axles.trace = (if s.bridge.state = .occupied then
        s.axles.trace.join { treadle := e, dir := dir, counted := false } else s.axles.trace) ∧
      t.bridge.state = s.bridge.state ∧ t.bridge.grant = some g ∧ t.bridge.advance = false ∧
      t = { s with bridge := t.bridge, axles := t.axles, capture := t.capture, run := t.run, faults := t.faults,
                   ports := t.ports } := by
  obtain ⟨hcrossing, hfree⟩ := State.crossing_of_passes (e := e) (g := g) h
  have hevent := event_disagreed hcalm hfree hchange
  generalize event s (s.restartPoint.crossAxle e dir g) = t at hevent ⊢
  obtain ⟨hdisagreed, ⟨tstate, -, tgrant, tadvance, -, -⟩, htrace, hframe⟩ := hevent
  rw [hcrossing] at hdisagreed tstate tgrant tadvance htrace
  exact ⟨hdisagreed, htrace, tstate, tgrant.trans hg, tadvance, hframe⟩

/-- An event of a test point alone leaves the bridge settled (R168). -/
theorem event_restartPoint (hcalm : s.calm = true) : event s s.restartPoint = s.restartPoint := by
  obtain ⟨-, hout, hb, hn⟩ := s.calm_iff.1 hcalm
  have hsettled : s.restartPoint.settled = true :=
    State.settled_iff _ |>.2 ⟨hout, (State.bridgeSettled_congr (s := s) (by simp) (by simp)
      (by simp [State.restartPoint]) (by simp) (by simp) (by simp) (by simp)).trans hb⟩
  exact event_untouched hsettled (by simp) (changedRegions_same rfl rfl rfl rfl rfl rfl rfl) hn

end

/-- Settles O27: an intrusion and an event that passes by are settled as they stand; an axle that crosses is counted, or
is a disagreement whose policy may bring a hold. -/
theorem treadleEventsCountEnterOrIntrude : Obligations.TreadleEventsCountEnterOrIntrude := by
  unfold Obligations.TreadleEventsCountEnterOrIntrude
  intro s e dir hcalm hle hmax joined beyond points counted passed disagreed
  obtain ⟨hrunning, -⟩ := s.calm_iff.1 hcalm
  rw [exec_treadleEvent hrunning]
  refine ⟨fun h => ?_, fun hfree hg hdir => ?_, fun g hstate hg hdir hexit => ⟨_, rfl, ?_⟩,
    fun g hstate hg hdir hentry => ⟨_, rfl, ?_⟩, fun g hstate hg => ⟨fun n x htable hxn hn => ⟨_, rfl, ?_⟩,
    fun htable => ⟨_, rfl, ?_⟩⟩⟩
  · rw [State.treadle_idle (s := s.restartPoint) h, event_restartPoint hcalm]
  · have hintrudes : s.restartPoint.treadle e dir = s.restartPoint.intrude e := by simp [State.treadle, hfree, hdir]
    rw [hintrudes, event_intrusion_free hcalm hg]
  · have hintrudes : s.restartPoint.treadle e dir = s.restartPoint.intrude e := by
      simp [State.treadle, hstate, hg, hdir, hexit]
    rw [hintrudes]
    exact event_intrusion_granted hcalm hg
  · have hcross : s.restartPoint.treadle e dir = s.restartPoint.crossAxle e dir g :=
      State.treadle_crosses (s := s.restartPoint) hg (.inr (.inr ⟨hstate, .inr hentry⟩))
    rw [hcross]
    exact event_enters hcalm hle hmax hstate hg hdir hentry
  · have hcross : s.restartPoint.treadle e dir = s.restartPoint.crossAxle e dir g :=
      State.treadle_crosses (s := s.restartPoint) hg (hstate.imp_right (Or.imp_right (And.imp_right .inl)))
    rw [hcross]
    exact event_passes_counted hcalm hg hstate (treadleChange_eq_some.2 ⟨htable, hxn, hn⟩)
  · have hcross : s.restartPoint.treadle e dir = s.restartPoint.crossAxle e dir g :=
      State.treadle_crosses (s := s.restartPoint) hg (hstate.imp_right (Or.imp_right (And.imp_right .inl)))
    rw [hcross]
    refine event_passes_disagreed hcalm hg hstate (Option.eq_none_iff_forall_ne_some.2 fun ⟨n, x⟩ hsome => ?_)
    obtain ⟨hchange, hordered⟩ := treadleChange_eq_some.1 hsome
    exact htable n x hchange hordered

end Sys2Proof.Machine
end
